-- ==== Sys2Proof/Word.lean ====
section
/-! DEFINITION. The word types of the XC-7240 (R2: a word is 8 bytes) and the one sparse map every
register file, memory and table of the model is held in: a list of (key, value) pairs with keys
strictly rising and no pair equal to the map's default. -/

namespace Sys2Proof

abbrev Byte := BitVec 8
abbrev Word := BitVec 64
/-- A predicate register (R57). -/
abbrev PredBits := BitVec 128
/-- A vector register (R208). -/
abbrev VecBits := BitVec 1024
/-- An accumulator: 1,024 elements of 32 bits (R237). -/
abbrev AccBits := BitVec 32768

/-- A sparse map with natural keys. -/
abbrev SMap (α : Type) := List (Nat × α)

namespace SMap

/-- The value at key `k`, or the default `d` where nothing is listed. -/
def get {α : Type} (d : α) : SMap α → Nat → α
  | [], _ => d
  | (j, v) :: t, k => if j = k then v else get d t k

/-- The map without key `k`. -/
def drop {α : Type} : SMap α → Nat → SMap α
  | [], _ => []
  | (j, v) :: t, k => if j = k then drop t k else (j, v) :: drop t k

/-- Insert in key order, replacing an entry of the same key. -/
def insert {α : Type} : SMap α → Nat → α → SMap α
  | [], k, x => [(k, x)]
  | (j, v) :: t, k, x =>
    if k < j then (k, x) :: (j, v) :: t
    else if j = k then (k, x) :: t
    else (j, v) :: insert t k x

/-- Write `x` at `k`; writing the default removes the entry, so equal maps are equal lists. -/
def set {α : Type} [DecidableEq α] (d : α) (m : SMap α) (k : Nat) (x : α) : SMap α :=
  if x = d then drop m k else insert m k x

/-- Change each listed value; one that becomes the default is no longer listed. -/
def mapOn {α : Type} [DecidableEq α] (d : α) (g : Nat → α → α) (m : SMap α) : SMap α :=
  (m.map fun p => (p.1, g p.1 p.2)).filter fun p => decide (p.2 ≠ d)

/-- Keys strictly rising from above `lo`, and no entry equal to the default. -/
def wfFrom {α : Type} [DecidableEq α] (d : α) : SMap α → Option Nat → Bool
  | [], _ => true
  | (k, v) :: t, lo =>
    (match lo with
      | none => true
      | some n => decide (n < k)) && decide (v ≠ d) && wfFrom d t (some k)

/-- The canonical form. -/
def wf {α : Type} [DecidableEq α] (d : α) (m : SMap α) : Bool := wfFrom d m none

end SMap

end Sys2Proof
end

