-- ==== Sys2Proof/Syntax.lean ====
section
/-! DEFINITION. The syntax: the five formats of an instruction word (R55, R60 to R63), the operands
of the event rows, and Instr, one constructor for each row of spec/opcode_table.json. -/

namespace Sys2Proof

/-- The header bits [95:72] below the major opcode (R55). -/
structure Hdr where
  fn : BitVec 6
  sw : Bool
  pg : BitVec 3
  pn : Bool
  ty : BitVec 5
  deriving DecidableEq, Repr

/-- Formats R and E (R60). -/
structure RWord where
  hdr : Hdr
  qual : BitVec 8
  d : BitVec 8
  a : BitVec 8
  b : BitVec 8
  c : BitVec 8
  imm : BitVec 32
  deriving DecidableEq, Repr

/-- Format L (R61). -/
structure LWord where
  hdr : Hdr
  d : BitVec 8
  imm : BitVec 64
  deriving DecidableEq, Repr

/-- Format M (R62). -/
structure MWord where
  hdr : Hdr
  qual : BitVec 8
  data : BitVec 8
  base : BitVec 8
  seg : BitVec 3
  scale : BitVec 5
  index : BitVec 8
  offset : BitVec 32
  deriving DecidableEq, Repr

/-- Format B (R63), its reserved bits left out. -/
structure BWord where
  hdr : Hdr
  link : BitVec 8
  cond : BitVec 8
  disp : BitVec 29
  slot : BitVec 3
  deriving DecidableEq, Repr

/-- A firmware image as the root of trust reads it (R384). -/
structure FwImage where
  fmt : Nat := 0
  ver : Nat := 0
  body : Nat := 0
  hash : BitVec 256 := 0
  sig : Nat := 0
  deriving DecidableEq, Repr

/-- A write of a queue's doorbell: the value, and the partition whose function writes it (none: the host's management
function; R381). -/
structure Doorbell where
  value : Word
  writer : Option Nat
  deriving DecidableEq, Repr

/-- One row of the opcode table: the instructions as their decoded words, the events with the
item or unit each one concerns. -/
inductive Instr where
  -- thread engine
  | add (w : RWord) | sub (w : RWord) | mul (w : RWord) | mulh (w : RWord)
  | div (w : RWord) | rem (w : RWord) | min (w : RWord) | max (w : RWord) | lea (w : RWord)
  | and (w : RWord) | or (w : RWord) | xor (w : RWord) | andn (w : RWord)
  | shl (w : RWord) | shr (w : RWord) | sra (w : RWord) | rot (w : RWord)
  | bfx (w : RWord) | bfi (w : RWord)
  | clz (w : RWord) | ctz (w : RWord) | popc (w : RWord) | brev (w : RWord)
  | cmp (w : RWord) | sel (w : RWord) | mov (w : RWord) | movi (w : LWord) | plog (w : RWord)
  | br (w : BWord) | call (w : BWord) | ret (w : RWord) | jmp (w : RWord)
  | trap (w : RWord) | tret (w : RWord) | start (w : RWord) | startSvc (w : RWord)
  | exit (w : RWord) | join (w : RWord) | ppoint (w : RWord) | launch (w : RWord) | nop (w : RWord)
  | ld (w : MWord) | st (w : MWord) | ldsync (w : MWord) | stf (w : MWord)
  | ldw (w : MWord) | cst (w : MWord) | atom (w : MWord) | cas (w : MWord)
  | fence (w : RWord) | xfence (w : RWord) | rdsys (w : RWord) | wrsys (w : RWord)
  | segget (w : RWord) | segset (w : RWord) | svc (w : RWord) | pref (w : MWord)
  | rdtime (w : RWord) | tlbinv (w : RWord) | tlbq (w : RWord)
  -- message engine
  | send (w : RWord) | recv (w : RWord) | recvnb (w : RWord) | callat (w : RWord)
  | spawn (w : RWord) | reply (w : RWord) | arrive (w : RWord) | bwait (w : RWord)
  | bsync (w : RWord) | bmask (w : RWord) | twaitany (w : RWord) | twaitall (w : RWord)
  | tfind (w : RWord) | sfence (w : RWord) | mcst (w : RWord) | jrd (w : RWord) | mquery (w : RWord)
  -- vector engine
  | vadd (w : RWord) | vsub (w : RWord) | vmul (w : RWord) | vfma (w : RWord)
  | vdiv (w : RWord) | vsqrt (w : RWord) | vrcp (w : RWord) | vrsq (w : RWord)
  | vexp2 (w : RWord) | vlog2 (w : RWord) | vmin (w : RWord) | vmax (w : RWord)
  | vabs (w : RWord) | vcmp (w : RWord) | vsel (w : RWord) | vcvt (w : RWord) | vqf4 (w : RWord)
  | vbit (w : RWord) | vsh (w : RWord) | vld (w : MWord) | vst (w : MWord)
  | vgath (w : MWord) | vscat (w : MWord) | vbcast (w : RWord) | vperm (w : RWord)
  | vshuf (w : RWord) | vred (w : RWord) | vscan (w : RWord) | vtopk (w : RWord)
  | vargmax (w : RWord) | vdot (w : RWord) | vmovxIns (w : RWord) | vmovxExt (w : RWord)
  -- matrix engine and walk
  | mzero (w : RWord) | mma (w : RWord) | mcma (w : RWord) | mlda (w : RWord) | msta (w : RWord)
  | marm (w : RWord) | mgang (w : RWord) | mring (w : RWord) | mswz (w : RWord)
  | walk (w : RWord) | walkResume (w : RWord) | wstat (w : RWord) | wchk (w : RWord)
  -- copy engine
  | cpy (w : RWord) | cpy2d (w : RWord) | cgath (w : RWord) | cscat (w : RWord)
  | cfill (w : RWord) | cswz (w : RWord) | femark (w : RWord) | cstat (w : RWord) | ccancel (w : RWord)
  -- memory slices
  | pfr (w : RWord) | pfrBar (w : RWord) | rflush (w : RWord) | rinval (w : RWord)
  | secpin (w : RWord) | secpinUn (w : RWord) | bmode (w : RWord) | ctrrd (w : RWord)
  -- capsules and experts
  | caprecv (w : RWord) | capsend (w : RWord) | capnext (w : RWord) | capins (w : RWord)
  | capskip (w : RWord) | caprepl (w : RWord) | capfail (w : RWord) | capdrop (w : RWord)
  | exq (w : RWord) | expin (w : RWord) | exunpin (w : RWord) | exload (w : RWord)
  | exevict (w : RWord) | exrepl (w : RWord)
  -- events: fetch, results, traps
  | lineRefetch (core slot : Nat)
  | instructionFetchComplete (core slot : Nat)
  | longResultReturn (n : Nat)
  | trapEntry (core slot : Nat)
  | windowLoadServe (n : Nat)
  | remoteStoreApply (core entry part : Nat)
  | remoteAtomicApply (n : Nat)
  | journalAck (core entry : Nat)
  | journalRefusal (core entry : Nat)
  | releaseStoreSend (core entry : Nat)
  | releaseMessageSend (n : Nat)
  | messageArrival (n : Nat)
  | taskQueueEntryArrival (n : Nat)
  | taskQueueHelperStart (core : Nat)
  | barrierArrival (n : Nat)
  -- events: dispatch and switching
  | timeSliceEnd (core : Nat)
  | preemptionRequest (core : Nat)
  | graceWindowExpiry (core : Nat)
  | shadowBankLoadComplete (core slot : Nat)
  | bankExchange (core : Nat)
  | spillComplete (core slot : Nat)
  | accumulatorSave (core : Nat)
  | accumulatorRestore (core : Nat)
  | contextSavedReport (frame : Nat)
  | tlbMissWalk (n : Nat)
  | faultReply (part : Nat)
  | mailboxPost
  -- events: launches, host, partitions
  | launchAdmission (die : Nat)
  | admissionResume (n : Nat)
  | gangBindRelease (n : Nat)
  | deadlinePass (n : Nat)
  | hostDoorbell (queue : Nat) (value : Doorbell)
  | partitionCreate
  | partitionDestroy
  | partitionSet
  -- events: repair, links, reliability
  | repairPin (part : Nat)
  | repairFuse (part : Nat)
  | repairUnpin (part : Nat)
  | warmReset (part : Nat)
  | dieReadmit (die : Nat) (img : Option FwImage)
  | linkInjectorSet (part : Nat)
  | injectorFire (link : Nat)
  | flitArrival (link epoch : Nat) (flit : BitVec 256)
  | nackReplay (link : Nat) (seq : BitVec 12)
  | linkDown (link : Nat)
  | linkTraining (link version : Nat) (features : BitVec 32)
  | routeChange (src dst : Nat)
  | correctedErrorThreshold (slice : Bool) (unit count : Nat)
  -- events: memory
  | storeApplyHome (n : Nat)
  | lineFillServe (n : Nat)
  | bankModeSwitchComplete (cluster bank : Nat)
  | pfrComplete (core n : Nat)
  -- events: engines
  | gangStart (core : Nat)
  | matrixStep (core : Nat)
  | walkRound (core : Nat)
  | copyCommandStart (core : Nat)
  | copyRow (core : Nat)
  -- events: capsules and residency
  | capsuleDieIngress (n : Nat)
  | capsuleCoreIngress (n : Nat)
  | residencyMissResend (expert : Nat)
  | sluiceReoffer (expert : Nat)
  | sluiceReofferTimer (expert : Nat)
  | residencyBroadcastApply (die expert : Nat)
  -- register writes with a behaviour of their own
  | trctlWrite (w : RWord)
  | lfsrWrite (w : RWord)
  | engbindWrite (w : RWord)
  | statusPmaskWrite (w : RWord)
  -- events: power and bring-up
  | governorTick (watts : Nat)
  | thermalThrottle (cluster : Nat)
  | thermalShutdown
  | powerOnReset (chief : Option FwImage) (d0 : Option FwImage) (d1 : Option FwImage) (d2 : Option FwImage) (d3 : Option FwImage)
  | attestationRequest (nonce : BitVec 256)
  | notAnInstructionIssue (word : BitVec 96)
  | junctionBelow95c (cluster : Nat)
  | sectorWriteBackComplete (n : Nat)
  | tlbDropComplete (n : Nat)
  deriving DecidableEq, Repr

end Sys2Proof
end

