-- ==== Sys2Proof/Machine/Bits.lean ====
section
/-! DEFINITION. Bit fields, widenings, byte lists and the views of a specifier, a type code and a
qualifier that the whole model shares (R2, R5, R57 to R59). -/

namespace Sys2Proof.Machine

/-- Bits `[hi:lo]` of a number. -/
def bitsOf (x hi lo : Nat) : Nat := (x >>> lo) % 2 ^ (hi + 1 - lo)

/-- Bits `[hi:lo]` of a bit vector, as a number. -/
def fld {n : Nat} (x : BitVec n) (hi lo : Nat) : Nat := bitsOf x.toNat hi lo

/-- Bit `i` of a number. -/
def bitOf (x i : Nat) : Bool := x.testBit i

/-- `x` with its bits `[hi:lo]` replaced by the low bits of `v`. -/
def putBits (x hi lo v : Nat) : Nat :=
  x - (bitsOf x hi lo <<< lo) + ((v % 2 ^ (hi + 1 - lo)) <<< lo)

/-- `sext(x, w)` as an integer (R5). -/
def sextInt (w x : Nat) : Int :=
  if bitOf (x % 2 ^ w) (w - 1) && decide (0 < w) then (x % 2 ^ w : Nat) - (2 ^ w : Nat) else ((x % 2 ^ w : Nat) : Int)

/-- `n64(y)`: the low 64 bits of an integer. -/
def n64 (y : Int) : Word := BitVec.ofInt 64 y

/-- The low `w` bits of an integer as a number. -/
def lowBits (w : Nat) (y : Int) : Nat := (y % (2 ^ w : Nat)).toNat

/-- A bit list's value, lowest first, `w` bits each. -/
def packBits (w : Nat) : List Nat → Nat
  | [] => 0
  | x :: t => x % 2 ^ w + 2 ^ w * packBits w t

/-- `n` fields of `w` bits each, lowest first. -/
def splitBits (w : Nat) : Nat → Nat → List Nat
  | 0, _ => []
  | n + 1, x => x % 2 ^ w :: splitBits w n (x >>> w)

/-- The numbers from `a`, `n` of them. -/
def upFrom (a : Nat) : Nat → List Nat
  | 0 => []
  | n + 1 => a :: upFrom (a + 1) n

/-- How many bits are set among the lowest `n`. -/
def popcount : Nat → Nat → Nat
  | 0, _ => 0
  | n + 1, x => x % 2 + popcount n (x / 2)

/-- The lowest index below `n` (counting from `i`) at which the bit is set, or `n`. -/
def ctzFrom (x n : Nat) : Nat → Nat → Nat
  | 0, _ => n
  | f + 1, i => if bitOf x i then i else ctzFrom x n f (i + 1)

/-- Number of zero bits below the lowest one of `n` bits; `n` for zero (R148). -/
def ctz (n x : Nat) : Nat := ctzFrom x n n 0

/-- Number of zero bits above the highest one of `n` bits; `n` for zero (R148). -/
def clz : Nat → Nat → Nat
  | 0, _ => 0
  | n + 1, x => if bitOf x n then 0 else clz n x + 1

/-- `n` bits in reverse order (R148). -/
def brev : Nat → Nat → Nat
  | 0, _ => 0
  | n + 1, x => (x % 2) * 2 ^ n + brev n (x / 2)

/-! Specifiers (R57). -/

def isG (s : BitVec 8) : Bool := fld s 7 6 == 0
def isV (s : BitVec 8) : Bool := fld s 7 6 == 1 && decide (fld s 5 0 < 32)
def isP (s : BitVec 8) : Bool := fld s 7 6 == 2 && decide (fld s 5 0 < 8)
def isS (s : BitVec 8) : Bool := fld s 7 6 == 3 && decide (fld s 5 0 < 8)
def isNone (s : BitVec 8) : Bool := s == 0
def isImm (s : BitVec 8) : Bool := s == 0xFF
def isGI (s : BitVec 8) : Bool := isG s || isImm s
def isVGI (s : BitVec 8) : Bool := isV s || isG s || isImm s
/-- The index field of a specifier. -/
def idx (s : BitVec 8) : Nat := fld s 5 0

/-! Type codes (R59). -/

/-- Element width in bits. -/
def tyWidth : Nat → Nat
  | 1 => 8 | 2 => 16 | 3 => 32 | 4 => 64
  | 5 => 8 | 6 => 16 | 7 => 32 | 8 => 64
  | 9 => 16 | 10 => 16 | 11 => 32
  | 12 => 8 | 13 => 8 | 14 => 4
  | 15 => 32 | 16 => 64 | 17 => 32
  | _ => 0

def tySigned (t : Nat) : Bool := decide (1 ≤ t ∧ t ≤ 4)
def tyInt (t : Nat) : Bool := decide (1 ≤ t ∧ t ≤ 8)
/-- Groups I, L, F, C, W, W32, D of R212. -/
def tyI (t : Nat) : Bool := decide (1 ≤ t ∧ t ≤ 3) || decide (5 ≤ t ∧ t ≤ 7)
def tyL (t : Nat) : Bool := t == 4 || t == 8
def tyF (t : Nat) : Bool := decide (9 ≤ t ∧ t ≤ 11)
def tyC (t : Nat) : Bool := decide (15 ≤ t ∧ t ≤ 17)
def tyE8 (t : Nat) : Bool := t == 12 || t == 13
def tyW (t : Nat) : Bool := decide (1 ≤ t ∧ t ≤ 13) || tyC t
def tyW32 (t : Nat) : Bool := t == 3 || t == 7 || t == 11 || t == 15 || t == 17
def tyD (t : Nat) : Bool := t == 1 || t == 5 || t == 9 || t == 10 || t == 12 || t == 13

/-! Qualifiers (R58). -/

def qScope (q : BitVec 8) : Nat := fld q 7 5
def qOrder (q : BitVec 8) : Nat := fld q 4 3
def qExtra (q : BitVec 8) : Nat := fld q 2 0
def qRm (q : BitVec 8) : Nat := fld q 7 5
def qSat (q : BitVec 8) : Bool := fld q 4 4 == 1
def qFtz (q : BitVec 8) : Bool := fld q 3 3 == 1
/-- Acquire or both. -/
def qAcq (q : BitVec 8) : Bool := qOrder q == 1 || qOrder q == 3
/-- Release or both. -/
def qRel (q : BitVec 8) : Bool := qOrder q == 2 || qOrder q == 3

def tyOf (h : Hdr) : Nat := h.ty.toNat
def fnOf (h : Hdr) : Nat := h.fn.toNat

end Sys2Proof.Machine
end

