-- ==== Sys2Proof/Machine/Legal.lean ====
section
/-! DEFINITION. Which words are instructions (R68): for each constructor, the conditions its
description and R55 to R67 put on its fields. Events carry no word and are always well-formed. -/

namespace Sys2Proof.Machine

/-- Layout O with the orders listed and an `extra` accepted (R58, R100). -/
def okO (q : BitVec 8) (orders : List Nat) (extra : Nat → Bool) : Bool :=
  decide (qScope q < 7) && orders.contains (qOrder q) && (qOrder q != 0 || qScope q == 0) &&
    extra (qExtra q)

/-- Layout A: which rounding codes, whether `.sat` and `.ftz`, which `extra` (R58). -/
def okA (q : BitVec 8) (rms : List Nat) (sat ftz : Bool) (extra : Nat → Bool) : Bool :=
  rms.contains (qRm q) && (sat || !qSat q) && (ftz || !qFtz q) && extra (qExtra q)

def zeroX (x : Nat) : Bool := x == 0
def plain : List Nat := [0]

/-- imm32 is zero unless a source holds the immediate specifier (R57, R64). -/
def immUse (w : RWord) : Bool := isImm w.a || isImm w.b || w.imm == 0

/-- An R-format word with its function, type, qualifier and operand classes. -/
def okR (w : RWord) (fn : Nat → Bool) (ty : Nat → Bool) (qual : Bool)
    (d a b c : BitVec 8 → Bool) (imm : Bool) : Bool :=
  fn (fnOf w.hdr) && ty (tyOf w.hdr) && qual && d w.d && a w.a && b w.b && c w.c && imm

/-- The integer forms of R143, R144 and R146. -/
def okInt (w : RWord) (sat : Bool) : Bool :=
  okR w zeroX tyInt (okA w.qual [0] sat false zeroX) isG isG isGI isNone (immUse w)

/-- The count and reversal forms of R148. -/
def okCount (w : RWord) : Bool :=
  okR w zeroX (fun t => decide (5 ≤ t ∧ t ≤ 8)) (w.qual == 0) isG isG isNone isNone (w.imm == 0)

/-- Every operand zero, layout Z. -/
def okBare (w : RWord) : Bool :=
  okR w zeroX zeroX (w.qual == 0) isNone isNone isNone isNone (w.imm == 0)

/-- Layout Z with operands. -/
def okZ (w : RWord) (d a b c : BitVec 8 → Bool) (imm : Bool) : Bool :=
  okR w zeroX zeroX (w.qual == 0) d a b c imm

/-- The system registers of R173. -/
def sysNumber (n : Nat) : Bool :=
  [0x000, 0x001, 0x002, 0x003, 0x004, 0x008, 0x009, 0x00A, 0x00B, 0x00C, 0x00D, 0x010, 0x018,
    0x020, 0x021, 0x022].contains n

/-- Format M (R62) with its function, type, qualifier and data class. -/
def okM (w : MWord) (fn ty : Nat → Bool) (qual : Bool) (data : BitVec 8 → Bool) : Bool :=
  fn (fnOf w.hdr) && ty (tyOf w.hdr) && qual && data w.data && isG w.base && isGI w.index &&
    decide (w.scale.toNat ≤ 16)

def ty64 (t : Nat) : Bool := t == 4 || t == 8
def tyAtom (t : Nat) : Bool := t == 3 || t == 4 || t == 7 || t == 8

/-- Barrier specification in imm32 of ARRIVE, BWAIT, BSYNC, BMASK (R194). -/
def okLevel (m : BitVec 32) : Bool :=
  decide (1 ≤ fld m 2 0 ∧ fld m 2 0 ≤ 6) && fld m 31 8 == 0 && fld m 3 3 == 0

def okRecv (w : RWord) : Bool :=
  okR w zeroX zeroX (okO w.qual [0, 1] zeroX) isG isNone (fun b => isG b || isV b) isNone
    (fld w.imm 31 3 == 0 && [1, 3, 4, 5, 6, 7].contains (fld w.imm 2 0))

def okTags (w : RWord) : Bool :=
  okR w zeroX zeroX (okO w.qual plain (fun x => decide (x ≤ 1))) isG isGI isNone isNone (immUse w)

/-- The rounding codes of the vector arithmetic: any but stochastic for F and C types, none for
integers (R58, R212). -/
def rmsOf (t : Nat) : List Nat := if tyInt t then [0] else [0, 1, 2, 3]

def okVArith (w : RWord) (ty : Nat → Bool) (c : BitVec 8 → Bool) : Bool :=
  okR w zeroX ty (okA w.qual (rmsOf (tyOf w.hdr)) true (!tyInt (tyOf w.hdr)) zeroX)
    isV isV isVGI c (immUse w)

def okVFun (w : RWord) (rms : List Nat) : Bool :=
  okR w zeroX tyF (okA w.qual rms true true zeroX) isV isV isNone isNone (w.imm == 0)

/-- The pairs of R81 that a converting instruction accepts. -/
def cvtPair (st dt : Nat) : Bool :=
  ((tyInt st || tyF st || tyE8 st) && (tyInt dt || tyF dt || tyE8 dt)) ||
    (st == 14 && (tyF dt || tyE8 dt)) || (tyC st && tyC dt)

/-- Destination types for which stochastic rounding is legal (R58). -/
def rsrType (t : Nat) : Bool := t == 12 || t == 13 || t == 14 || t == 1 || t == 5

def okVcvt (w : RWord) : Bool :=
  let st := fld w.imm 4 0
  let dt := tyOf w.hdr
  let ws := tyWidth st
  let wd := tyWidth dt
  let lo := if ws < wd then ws else wd
  let hi := if ws < wd then wd else ws
  cvtPair st dt &&
    okR w zeroX (fun _ => true)
      (okA w.qual (if rsrType dt then [0, 1, 2, 3, 4] else [0, 1, 2, 3]) true (tyF st) zeroX)
      isV isV isNone isNone
      (fld w.imm 7 5 == 0 && fld w.imm 31 11 == 0 && decide (fld w.imm 10 8 * lo < hi))

def okVqf4 (w : RWord) : Bool :=
  let st := fld w.imm 4 0
  okR w zeroX (· == 14) (okA w.qual [0, 4] false (tyF st) zeroX) isV
    (fun a => isV a && (tyWidth st != 32 || decide (idx a ≤ 30))) isG isNone
    ((tyI st || tyF st || tyE8 st) && fld w.imm 7 5 == 0 && fld w.imm 31 16 == 0 &&
      (fld w.imm 8 8 == 0 || tyWidth st == 8))

/-- Elements of a vector register of the type (R208). -/
def lanesOf (t : Nat) : Nat := 1024 / tyWidth t

def okVshuf (w : RWord) : Bool :=
  let pat := fld w.imm 3 0
  let k := fld w.imm 15 8
  okR w zeroX tyW (w.qual == 0) isV isV
    (fun b => if decide (3 ≤ pat ∧ pat ≤ 6) then isV b else isNone b) isNone
    (decide (pat ≤ 8) && fld w.imm 7 4 == 0 && fld w.imm 31 16 == 0 &&
      (if pat < 3 then decide (k < lanesOf (tyOf w.hdr)) else k == 0))

def okVmovx (w : RWord) (fn : Nat) (d a : BitVec 8 → Bool) : Bool :=
  okR w (· == fn) tyW (w.qual == 0) d a isNone isNone
    (fld w.imm 31 7 == 0 && decide (fld w.imm 6 0 < lanesOf (tyOf w.hdr)))

/-- Qualifier of a matrix or walk instruction: plain, `.trap` where permitted (R250, R269). -/
def okTrapQ (q : BitVec 8) (trap : Bool) : Bool :=
  okO q plain (fun x => x == 0 || (trap && x == 1))

def tyMma (t : Nat) : Bool := t == 1 || t == 5 || t == 10 || t == 12 || t == 13 || t == 14

/-- `bx` only with the 8-bit float types, and bits [31:28] zero (R250). -/
def okBx (w : RWord) : Bool :=
  fld w.imm 31 28 == 0 && (fld w.imm 26 26 == 0 || tyE8 (tyOf w.hdr))

def okC14 (w : RWord) : Bool := if tyOf w.hdr == 14 then isG w.c else isNone w.c

def tyWalk (t : Nat) : Bool := t == 9 || t == 10 || t == 12 || t == 13

/-- Type and conversion code of a copy command (R293). -/
def okCv (w : RWord) (fp4 : Bool) : Bool :=
  let cv := fld w.imm 13 12
  let t := tyOf w.hdr
  (match cv with
    | 0 => t == 0 && fld w.imm 11 0 == 0
    | 1 => tyW t && fld w.imm 11 0 == 0
    | _ => fp4 && t == 14 && fld w.imm 11 6 == 0) &&
  okO w.qual plain (fun x => x == 0 || (x == 1 && cv == 1)) && decide (fld w.imm 16 14 ≤ 4)

def cIdx62 (s : BitVec 8) : Bool := isG s && decide (idx s ≤ 62)

def okSlice (w : RWord) (extra : Nat) (d a b c : BitVec 8 → Bool) (imm : Bool) : Bool :=
  okR w zeroX zeroX (okO w.qual plain (· == extra)) d a b c imm

def okCap (w : RWord) (fn : Nat) (orders : List Nat) (d a b c : BitVec 8 → Bool) (imm : Bool) : Bool :=
  okR w (· == fn) zeroX (okO w.qual orders zeroX) d a b c imm

def vIdx30 (s : BitVec 8) : Bool := isV s && decide (idx s ≤ 30)

/-- Whether the constructor's word is an instruction (R68). -/
def legal : Instr → Bool
  | .add w => okInt w true
  | .sub w => okInt w true
  | .mul w => okInt w true
  | .mulh w => okInt w false
  | .div w => okInt w true
  | .rem w => okInt w false
  | .min w => okInt w false
  | .max w => okInt w false
  | .lea w => okR w zeroX (· == 8) (okA w.qual [0] false false (fun _ => true)) isG isG isG isNone true
  | .and w => okInt w false
  | .or w => okInt w false
  | .xor w => okInt w false
  | .andn w => okInt w false
  | .shl w => okInt w false
  | .shr w => okInt w false
  | .sra w => okInt w false
  | .rot w => okInt w false
  | .bfx w => okR w zeroX ty64 (w.qual == 0) isG isG isNone isNone
      (fld w.imm 31 14 == 0 && fld w.imm 7 6 == 0 && decide (fld w.imm 5 0 + fld w.imm 13 8 + 1 ≤ 64))
  | .bfi w => okR w zeroX (· == 8) (w.qual == 0) isG isG isG isNone
      (fld w.imm 31 14 == 0 && fld w.imm 7 6 == 0 && decide (fld w.imm 5 0 + fld w.imm 13 8 + 1 ≤ 64))
  | .clz w => okCount w
  | .ctz w => okCount w
  | .popc w => okCount w
  | .brev w => okCount w
  | .cmp w => okR w zeroX tyInt (okA w.qual [0] false false (fun x => decide (x ≤ 5)))
      isP isG isGI isNone (immUse w)
  | .sel w => okR w zeroX zeroX (w.qual == 0) isG isG isGI isP (immUse w)
  | .mov w => okR w zeroX zeroX (w.qual == 0) (fun d => isG d || isP d)
      (fun a => if isG w.d then isGI a else isP a) isNone isNone (immUse w)
  | .movi w => fnOf w.hdr == 0 && tyOf w.hdr == 0 && (isG w.d || isV w.d)
  | .plog w => okR w (fun f => decide (f ≤ 3)) zeroX (w.qual == 0) isP isP isP isNone (w.imm == 0)
  | .br w => decide (fnOf w.hdr ≤ 2) && tyOf w.hdr == 0 && isNone w.link &&
      (if fnOf w.hdr == 0 then isNone w.cond else isG w.cond)
  | .call w => fnOf w.hdr == 0 && tyOf w.hdr == 0 && isG w.link && isNone w.cond
  | .ret w => okZ w isNone isG isNone isNone (w.imm == 0)
  | .jmp w => okZ w isG isG isNone isNone (w.imm == 0)
  | .trap w => okZ w isNone isNone isNone isNone (fld w.imm 31 8 == 0)
  | .tret w => okBare w
  | .start w => okZ w isP isG isG isG (w.imm == 0)
  | .startSvc w => okR w (· == 1) zeroX (w.qual == 0) isP isG isG isG
      (fld w.imm 31 3 == 0 && decide (2 ≤ fld w.imm 2 0))
  | .exit w => okBare w
  | .join w => okBare w
  | .ppoint w => okZ w isNone isP isNone isNone (w.imm == 0)
  | .launch w => okZ w isG isS isG isNone (w.imm == 0)
  | .nop w => okBare w
  | .ld w => okM w zeroX tyInt (okO w.qual [0, 1] zeroX) isG
  | .st w => okM w zeroX tyInt (okO w.qual [0, 2] zeroX) isG
  | .ldsync w => okM w zeroX tyInt (okO w.qual [0, 1] (fun x => decide (x ≤ 1))) isG
  | .stf w => okM w zeroX tyInt (okO w.qual [0, 2] zeroX) isG
  | .ldw w => okM w zeroX ty64 (okO w.qual [0, 1] zeroX) isG
  | .cst w => okM w zeroX ty64 (okO w.qual [0, 1, 2, 3] (fun _ => true)) isV && w.base == 0 &&
      w.index == 0xFF && w.offset == 0 && w.seg == 0 && w.scale == 0
  | .atom w => okM w (fun f => decide (f ≤ 6)) tyAtom (okO w.qual [0, 1, 2, 3] zeroX) isG
  | .cas w => okM w zeroX tyAtom (okO w.qual [0, 1, 2, 3] zeroX) (fun d => isG d && decide (idx d ≤ 62))
  | .fence w => okR w zeroX zeroX (decide (qScope w.qual < 7) && qOrder w.qual == 0 && qExtra w.qual == 0)
      isNone isNone isNone isNone (w.imm == 0)
  | .xfence w => okBare w
  | .rdsys w => okZ w isG isNone isNone isNone (sysNumber w.imm.toNat)
  | .wrsys w => okZ w isNone isG isNone isNone
      (sysNumber w.imm.toNat && !([0x000, 0x002, 0x010, 0x020].contains w.imm.toNat))
  | .segget w => okZ w isG isS isNone isNone (decide (w.imm.toNat ≤ 2))
  | .segset w => okZ w isS isG isG isG (w.imm == 0)
  | .svc w => okZ w isG isG isNone isNone true
  | .pref w => okM w zeroX zeroX (w.qual == 0) isNone
  | .rdtime w => okZ w isG isNone isNone isNone (w.imm == 0)
  | .tlbinv w => okR w (fun f => decide (f ≤ 2)) zeroX
      (decide (3 ≤ qScope w.qual ∧ qScope w.qual ≤ 6) && qOrder w.qual == 0 && qExtra w.qual == 0)
      isNone (fun a => if fnOf w.hdr == 2 then isNone a else isG a)
      (fun b => if fnOf w.hdr == 0 then isGI b else isNone b) isNone (isImm w.b || w.imm == 0)
  | .tlbq w => okZ w isG isG isNone isNone (w.imm == 0)
  | .send w => okR w zeroX zeroX (okO w.qual [0, 2] zeroX) isP isG isV isG
      (decide (4 ≤ fld w.imm 2 0) && fld w.imm 3 3 == 0 && fld w.imm 31 9 == 0 &&
        decide (1 ≤ fld w.imm 8 4 ∧ fld w.imm 8 4 ≤ 16))
  | .recv w => okRecv w
  | .recvnb w => okRecv w
  | .callat w => okR w zeroX zeroX (okO w.qual [0, 2] zeroX) isP isG isG
      (fun c => isG c && decide (idx c ≤ 60)) (fld w.imm 31 16 == 0)
  | .spawn w => okR w zeroX zeroX (okO w.qual [0, 2] zeroX) isP isG isG
      (fun c => isG c && decide (idx c ≤ 60)) (w.imm == 0)
  | .reply w => okR w zeroX zeroX (okO w.qual [0, 2] zeroX) isNone isGI isNone isNone (immUse w)
  | .arrive w => okR w zeroX zeroX (okO w.qual [0, 2] zeroX) isNone isNone isNone isNone (okLevel w.imm)
  | .bwait w => okR w zeroX zeroX (okO w.qual [0, 1] zeroX) isG isNone isNone isNone (okLevel w.imm)
  | .bsync w => okR w zeroX zeroX (okO w.qual [0, 1, 2, 3] zeroX) isG isNone isNone isNone (okLevel w.imm)
  | .bmask w => okR w zeroX zeroX (w.qual == 0) isNone isG
      (fun b => if fld w.imm 2 0 == 6 then isV b else isNone b) isNone (okLevel w.imm)
  | .twaitany w => okTags w
  | .twaitall w => okTags w
  | .tfind w => okTags w
  | .sfence w => okR w zeroX zeroX
      (decide (1 ≤ qScope w.qual ∧ qScope w.qual ≤ 6) && qOrder w.qual == 0 && qExtra w.qual == 0)
      isNone isNone isNone isNone (w.imm == 0)
  | .mcst w => okR w zeroX tyInt (okO w.qual [0, 2] zeroX) isP isG isV isG (w.imm == 0)
  | .jrd w => okTags w
  | .mquery w => okZ w isG isNone isNone isNone (decide (w.imm.toNat ≤ 10))
  | .vadd w => okVArith w (fun t => tyI t || tyF t || tyC t) isNone
  | .vsub w => okVArith w (fun t => tyI t || tyF t || tyC t) isNone
  | .vmul w => okVArith w (fun t => tyI t || tyF t || tyC t) isNone
  | .vfma w => okVArith w (fun t => tyI t || tyF t) isV
  | .vdiv w => okVArith w tyF isNone
  | .vsqrt w => okVFun w [0, 1, 2, 3]
  | .vrcp w => okVFun w [0]
  | .vrsq w => okVFun w [0]
  | .vexp2 w => okVFun w [0]
  | .vlog2 w => okVFun w [0]
  | .vmin w => okR w zeroX (fun t => tyI t || tyF t) (okA w.qual [0] false (tyF (tyOf w.hdr)) zeroX)
      isV isV isVGI isNone (immUse w)
  | .vmax w => okR w zeroX (fun t => tyI t || tyF t) (okA w.qual [0] false (tyF (tyOf w.hdr)) zeroX)
      isV isV isVGI isNone (immUse w)
  | .vabs w => okR w zeroX (fun t => tyI t || tyF t)
      (okA w.qual [0] (tyI (tyOf w.hdr)) false (fun x => decide (x ≤ 1))) isV isV isNone isNone (w.imm == 0)
  | .vcmp w => okR w zeroX (fun t => tyI t || tyF t)
      (okA w.qual [0] false (tyF (tyOf w.hdr)) (fun x => decide (x ≤ 5))) isP isV isVGI isNone (immUse w)
  | .vsel w => okR w zeroX tyW (w.qual == 0) isV isV isVGI isP (immUse w)
  | .vcvt w => okVcvt w
  | .vqf4 w => okVqf4 w
  | .vbit w => okR w (fun f => decide (f ≤ 4)) tyW (w.qual == 0) isV isV
      (fun b => if fnOf w.hdr == 4 then isNone b else isVGI b) isNone (immUse w)
  | .vsh w => okR w (fun f => decide (f ≤ 2)) (fun t => tyI t || tyL t) (w.qual == 0)
      isV isV isVGI isNone (immUse w)
  | .vld w => okM w zeroX tyW (okO w.qual [0, 1] zeroX) isV
  | .vst w => okM w zeroX tyW (okO w.qual [0, 2] zeroX) isV
  | .vgath w => okM w zeroX tyW32 (okO w.qual [0, 1] (fun _ => true)) vIdx30 && w.index == 0xFF
  | .vscat w => okM w zeroX tyW32 (okO w.qual [0, 2] (fun _ => true)) vIdx30 && w.index == 0xFF
  | .vbcast w => okR w zeroX tyW (w.qual == 0) isV isGI isNone isNone (immUse w)
  | .vperm w => okR w zeroX tyW (w.qual == 0) isV isV isV isNone (w.imm == 0)
  | .vshuf w => okVshuf w
  | .vred w => okR w (fun f => decide (f ≤ 2)) (fun t => tyI t || tyF t)
      (okA w.qual (rmsOf (tyOf w.hdr)) (tyI (tyOf w.hdr) && fnOf w.hdr == 0) (tyF (tyOf w.hdr)) zeroX)
      isG isV isNone isNone (w.imm == 0)
  | .vscan w => okR w (fun f => decide (f ≤ 1)) (fun t => tyI t || tyF t)
      (okA w.qual (rmsOf (tyOf w.hdr)) (tyI (tyOf w.hdr) && fnOf w.hdr == 0) (tyF (tyOf w.hdr)) zeroX)
      isV isV isNone isNone (w.imm == 0)
  | .vtopk w => okR w zeroX (fun t => tyI t || tyF t) (okA w.qual [0] false false (fun x => decide (x ≤ 1)))
      vIdx30 isV isNone isNone
      (fld w.imm 31 8 == 0 && decide (1 ≤ fld w.imm 7 0 ∧ fld w.imm 7 0 ≤ lanesOf (tyOf w.hdr)))
  | .vargmax w => okR w zeroX (fun t => tyI t || tyF t) (okA w.qual [0] false false (fun x => decide (x ≤ 1)))
      isG isV isNone isNone (w.imm == 0)
  | .vdot w => okR w zeroX tyD (okA w.qual [0] true false zeroX) isV isV isV isV (w.imm == 0)
  | .vmovxIns w => okVmovx w 0 isV isG
  | .vmovxExt w => okVmovx w 1 isG isV
  | .mzero w => okR w zeroX zeroX (w.qual == 0) isNone isNone isNone isNone (fld w.imm 31 8 == 0)
  | .mma w => okR w zeroX tyMma (okTrapQ w.qual true) isG isG isNone (fun _ => okC14 w)
      (okBx w && fld w.imm 27 27 == 0 && fld w.imm 25 22 == 0 && fld w.imm 21 16 == 0)
  | .mcma w => okR w zeroX (· == 15) (okTrapQ w.qual true) isG isG isNone isNone
      (fld w.imm 31 16 == 0)
  | .mlda w => okR w zeroX (fun t => t == 3 || t == 11) (okTrapQ w.qual true) isG isG isNone isNone
      (fld w.imm 31 7 == 0 && fld w.imm 3 3 == 0)
  | .msta w => okR w zeroX (fun t => t == 3 || t == 11) (okTrapQ w.qual true) isG isG isNone isNone
      (fld w.imm 31 7 == 0 && fld w.imm 3 3 == 0)
  | .marm w => okR w zeroX tyMma (okTrapQ w.qual true) isG isG isG (fun _ => okC14 w)
      (okBx w && fld w.imm 25 22 == 0 && fld w.imm 21 10 == 0)
  | .mgang w => okR w zeroX tyMma (okTrapQ w.qual true) isG isG isG (fun _ => okC14 w)
      (okBx w && fld w.imm 27 27 == 0 && decide (2 ≤ popcount 4 (fld w.imm 25 22)) &&
        decide (fld w.imm 21 16 ≤ fld w.imm 15 10))
  | .mring w => okR w zeroX (fun t => t == 3 || t == 5 || t == 10 || t == 11 || t == 12)
      (okTrapQ w.qual true) isG isG isG isNone
      (fld w.imm 31 26 == 0 && decide (2 ≤ popcount 4 (fld w.imm 25 22)) && fld w.imm 21 16 != 0 &&
        fld w.imm 15 10 == 0 && fld w.imm 3 0 == 0)
  | .mswz w => okR w zeroX zeroX (w.qual == 0) isNone isNone isNone isNone (decide (w.imm.toNat ≤ 4))
  | .walk w => okR w zeroX tyWalk (okTrapQ w.qual true) isG isG isG isG
      (fld w.imm 31 27 == 0 && fld w.imm 12 12 == 0)
  | .walkResume w => okR w zeroX tyWalk (okTrapQ w.qual true) isG isG isNone isG
      (fld w.imm 31 28 == 0 && fld w.imm 12 12 == 0)
  | .wstat w => okR w zeroX zeroX (okTrapQ w.qual false) isG isG isNone isNone
      (fld w.imm 31 21 == 0 && fld w.imm 12 4 == 0 && decide (fld w.imm 3 0 ≤ 5))
  | .wchk w => okR w zeroX tyWalk (okTrapQ w.qual false) isG isNone isG isNone
      (fld w.imm 31 27 == 0 && fld w.imm 23 12 == 0)
  | .cpy w => okR w zeroX (fun _ => true) (okCv w false) isNone isG isG isG (fld w.imm 19 17 == 0)
  | .cpy2d w => okR w zeroX (fun _ => true) (okCv w true) isNone isG isG cIdx62 (fld w.imm 19 17 == 0)
  | .cgath w => okR w zeroX (fun _ => true) (okCv w false) isNone isG isG cIdx62 true
  | .cscat w => okR w zeroX (fun _ => true) (okCv w false) isNone isG isG cIdx62 (fld w.imm 16 14 == 0)
  | .cfill w => okR w zeroX zeroX (okO w.qual plain zeroX) isNone isG isG isG
      (fld w.imm 22 17 == 0 && fld w.imm 13 0 == 0 && decide (fld w.imm 16 14 ≤ 4))
  | .cswz w => okR w zeroX zeroX (okO w.qual plain zeroX) isNone isG isNone isNone (fld w.imm 25 2 == 0)
  | .femark w => okR w zeroX zeroX (okO w.qual plain zeroX) isNone isNone isG isG
      (fld w.imm 22 17 == 0 && fld w.imm 13 0 == 0 && decide (fld w.imm 16 14 ≤ 4))
  | .cstat w => okR w zeroX zeroX (okO w.qual plain (fun x => decide (x ≤ 1))) isG isGI isNone isNone (immUse w)
  | .ccancel w => okR w (· == 1) zeroX (okO w.qual plain zeroX) isG isGI isNone isNone (immUse w)
  | .pfr w => okSlice w 0 isNone isG isG isNone (fld w.imm 25 25 == 0 && fld w.imm 21 0 == 0)
  | .pfrBar w => okSlice w 1 isNone isG isG isG (fld w.imm 31 25 == 0 && fld w.imm 21 0 == 0)
  | .rflush w => okSlice w 0 isNone isG isG isNone (fld w.imm 31 25 == 0 && fld w.imm 21 0 == 0)
  | .rinval w => okSlice w 0 isNone isG isG isNone (fld w.imm 31 25 == 0 && fld w.imm 21 0 == 0)
  | .secpin w => okSlice w 0 isG isG isNone isNone (fld w.imm 31 25 == 0 && fld w.imm 21 0 == 0)
  | .secpinUn w => okSlice w 1 isG isG isNone isNone (fld w.imm 31 25 == 0 && fld w.imm 21 0 == 0)
  | .bmode w => okSlice w 0 isG isG isNone isNone (fld w.imm 31 2 == 0)
  | .ctrrd w => okSlice w 0 isG isG isNone isNone
      (fld w.imm 31 9 == 0 && decide (fld w.imm 7 0 ≤ (if fld w.imm 8 8 == 1 then 5 else 16)))
  | .caprecv w => okCap w 0 [0, 1] isG isG vIdx30 isG (fld w.imm 31 6 == 0)
  | .capsend w => okCap w 0 [0, 2] isNone vIdx30 isG isNone (fld w.imm 31 3 == 0)
  | .capnext w => okCap w 0 [0, 2] isG isG isNone isNone
      (fld w.imm 31 13 == 0 && fld w.imm 7 3 == 0 && decide (fld w.imm 12 8 ≤ 30))
  | .capins w => okCap w 0 plain isG isG isNone isNone (fld w.imm 31 4 == 0 && fld w.imm 3 0 != 0)
  | .capskip w => okCap w 1 plain isG isNone isNone isNone (fld w.imm 31 4 == 0 && fld w.imm 3 0 != 0)
  | .caprepl w => okCap w 2 plain isG isG isNone isNone (fld w.imm 31 4 == 0)
  | .capfail w => okCap w 0 [0, 2] isNone isG isNone isNone (fld w.imm 31 8 == 0)
  | .capdrop w => okCap w 1 plain isNone isNone isNone isNone (w.imm == 0)
  | .exq w => okCap w 0 plain isG isG isNone isNone (fld w.imm 31 3 == 0 && decide (fld w.imm 2 0 ≤ 6))
  | .expin w => okCap w 1 plain isG isG isNone isNone (w.imm == 0)
  | .exunpin w => okCap w 2 plain isG isG isNone isNone (w.imm == 0)
  | .exload w => okCap w 0 plain isG isG isG isG (fld w.imm 31 7 == 0)
  | .exevict w => okCap w 1 plain isG isG isNone isNone (w.imm == 0)
  | .exrepl w => okCap w 0 plain isG isG isG isNone (fld w.imm 31 2 == 0)
  | .trctlWrite w => okZ w isNone isG isNone isNone (w.imm == 0x020)
  | .lfsrWrite w => okZ w isNone isG isNone isNone (w.imm == 0x010)
  | .engbindWrite w => okZ w isNone isG isNone isNone (w.imm == 0x002)
  | .statusPmaskWrite w => okZ w isNone isG isNone isNone (w.imm == 0x000)
  -- events
  | .lineRefetch _ _ => true
  | .instructionFetchComplete _ _ => true
  | .longResultReturn _ => true
  | .trapEntry _ _ => true
  | .windowLoadServe _ => true
  | .remoteStoreApply _ _ _ => true
  | .remoteAtomicApply _ => true
  | .journalAck _ _ => true
  | .journalRefusal _ _ => true
  | .releaseStoreSend _ _ => true
  | .releaseMessageSend _ => true
  | .messageArrival _ => true
  | .taskQueueEntryArrival _ => true
  | .taskQueueHelperStart _ => true
  | .barrierArrival _ => true
  | .timeSliceEnd _ => true
  | .preemptionRequest _ => true
  | .graceWindowExpiry _ => true
  | .shadowBankLoadComplete _ _ => true
  | .bankExchange _ => true
  | .spillComplete _ _ => true
  | .accumulatorSave _ => true
  | .accumulatorRestore _ => true
  | .contextSavedReport _ => true
  | .tlbMissWalk _ => true
  | .faultReply _ => true
  | .mailboxPost => true
  | .launchAdmission _ => true
  | .admissionResume _ => true
  | .gangBindRelease _ => true
  | .deadlinePass _ => true
  | .hostDoorbell _ _ => true
  | .partitionCreate => true
  | .partitionDestroy => true
  | .partitionSet => true
  | .repairPin _ => true
  | .repairFuse _ => true
  | .repairUnpin _ => true
  | .warmReset _ => true
  | .dieReadmit _ _ => true
  | .linkInjectorSet _ => true
  | .injectorFire _ => true
  | .flitArrival _ _ _ => true
  | .nackReplay _ _ => true
  | .linkDown _ => true
  | .linkTraining _ _ _ => true
  | .routeChange _ _ => true
  | .correctedErrorThreshold _ _ _ => true
  | .storeApplyHome _ => true
  | .lineFillServe _ => true
  | .bankModeSwitchComplete _ _ => true
  | .pfrComplete _ _ => true
  | .gangStart _ => true
  | .matrixStep _ => true
  | .walkRound _ => true
  | .copyCommandStart _ => true
  | .copyRow _ => true
  | .capsuleDieIngress _ => true
  | .capsuleCoreIngress _ => true
  | .residencyMissResend _ => true
  | .sluiceReoffer _ => true
  | .sluiceReofferTimer _ => true
  | .residencyBroadcastApply _ _ => true
  | .governorTick _ => true
  | .thermalThrottle _ => true
  | .thermalShutdown => true
  | .powerOnReset _ _ _ _ _ => true
  | .attestationRequest _ => true
  | .notAnInstructionIssue _ => true
  | .junctionBelow95c _ => true
  | .sectorWriteBackComplete _ => true
  | .tlbDropComplete _ => true

end Sys2Proof.Machine
end

