-- ==== Sys2Proof/Decode.lean ====
section
/-! DEFINITION. The decoder and the encoder of instruction words (R55, R60 to R68): formats as bit
slices, the opcode map of R65 as tables, the variants of R66. -/

namespace Sys2Proof

/-- Why a word is not an instruction (R68). -/
inductive DecodeError where
  /-- op is reserved (R65), the all-zero word among them -/
  | reservedOp
  /-- fn is reserved for this op (R66) -/
  | reservedFunction
  /-- a type, specifier, qualifier, scale or reserved field that the instruction does not accept -/
  | reservedField
  deriving DecidableEq, Repr

/-! The formats. -/

def hdrOf (w : BitVec 96) : Hdr where
  fn := w.extractLsb' 82 6
  sw := (w.extractLsb' 81 1) == 1#1
  pg := w.extractLsb' 78 3
  pn := (w.extractLsb' 77 1) == 1#1
  ty := w.extractLsb' 72 5

/-- Formats R and E (R60). -/
def rOf (w : BitVec 96) : RWord where
  hdr := hdrOf w
  qual := w.extractLsb' 64 8
  d := w.extractLsb' 56 8
  a := w.extractLsb' 48 8
  b := w.extractLsb' 40 8
  c := w.extractLsb' 32 8
  imm := w.extractLsb' 0 32

/-- Format L (R61). -/
def lOf (w : BitVec 96) : LWord where
  hdr := hdrOf w
  d := w.extractLsb' 64 8
  imm := w.extractLsb' 0 64

/-- Format M (R62). -/
def mOf (w : BitVec 96) : MWord where
  hdr := hdrOf w
  qual := w.extractLsb' 64 8
  data := w.extractLsb' 56 8
  base := w.extractLsb' 48 8
  seg := w.extractLsb' 45 3
  scale := w.extractLsb' 40 5
  index := w.extractLsb' 32 8
  offset := w.extractLsb' 0 32

/-- Format B (R63). -/
def bOf (w : BitVec 96) : BWord where
  hdr := hdrOf w
  link := w.extractLsb' 56 8
  cond := w.extractLsb' 48 8
  disp := w.extractLsb' 3 29
  slot := w.extractLsb' 0 3

/-- The reserved bits of format B are zero (R63). -/
def bClean (w : BitVec 96) : Bool := w.extractLsb' 64 8 == 0#8 && w.extractLsb' 32 16 == 0#16

/-! The opcode map (R65), by format (R67). -/

def rTable0 : List (Nat × (RWord → Instr)) :=
  [(0x01, .add), (0x02, .sub), (0x03, .mul), (0x04, .mulh), (0x05, .div),
    (0x06, .rem), (0x07, .min), (0x08, .max), (0x09, .lea), (0x0A, .and),
    (0x0B, .or), (0x0C, .xor), (0x0D, .andn), (0x0E, .shl), (0x0F, .shr),
    (0x10, .sra), (0x11, .rot), (0x12, .bfx), (0x13, .bfi), (0x14, .clz),
    (0x15, .ctz), (0x16, .popc), (0x17, .brev), (0x18, .cmp), (0x19, .sel),
    (0x1A, .mov), (0x1C, .plog), (0x22, .ret), (0x23, .jmp), (0x24, .trap),
    (0x25, .tret), (0x27, .exit), (0x28, .join), (0x29, .ppoint), (0x2A, .launch),
    (0x2B, .nop)]

def rTable1 : List (Nat × (RWord → Instr)) :=
  [(0x48, .fence), (0x49, .xfence), (0x4A, .rdsys), (0x4C, .segget), (0x4D, .segset),
    (0x4E, .svc), (0x50, .rdtime), (0x5E, .tlbinv), (0x5F, .tlbq), (0x60, .send),
    (0x61, .recv), (0x62, .recvnb), (0x63, .callat), (0x64, .spawn), (0x65, .reply),
    (0x66, .arrive), (0x67, .bwait), (0x68, .bsync), (0x69, .bmask), (0x6A, .twaitany),
    (0x6B, .twaitall), (0x6C, .tfind), (0x6D, .sfence), (0x6E, .mcst), (0x6F, .jrd),
    (0x70, .mquery), (0x80, .vadd), (0x81, .vsub), (0x82, .vmul), (0x83, .vfma),
    (0x84, .vdiv), (0x85, .vsqrt), (0x86, .vrcp), (0x87, .vrsq), (0x88, .vexp2),
    (0x89, .vlog2)]

def rTable2 : List (Nat × (RWord → Instr)) :=
  [(0x8A, .vmin), (0x8B, .vmax), (0x8C, .vabs), (0x8D, .vcmp), (0x8E, .vsel),
    (0x8F, .vcvt), (0x90, .vqf4), (0x91, .vbit), (0x92, .vsh), (0x97, .vbcast),
    (0x98, .vperm), (0x99, .vshuf), (0x9A, .vred), (0x9B, .vscan), (0x9C, .vtopk),
    (0x9D, .vargmax), (0x9E, .vdot), (0xC0, .mzero), (0xC1, .mma), (0xC2, .mcma),
    (0xC3, .mlda), (0xC4, .msta), (0xC5, .marm), (0xC6, .mgang), (0xC7, .mring),
    (0xC8, .mswz), (0xD0, .walk), (0xD1, .walkResume), (0xD2, .wstat), (0xD3, .wchk),
    (0xD8, .cpy), (0xD9, .cpy2d), (0xDA, .cgath), (0xDB, .cscat), (0xDC, .cfill),
    (0xDD, .cswz)]

def rTable3 : List (Nat × (RWord → Instr)) :=
  [(0xDE, .femark), (0xE1, .rflush), (0xE2, .rinval), (0xE4, .bmode), (0xE5, .ctrrd),
    (0xE8, .caprecv), (0xE9, .capsend), (0xEA, .capnext), (0xEF, .exrepl)]

/-- Opcodes of formats R and E that stand for one constructor. -/
def rTable : List (Nat × (RWord → Instr)) := rTable0 ++ rTable1 ++ rTable2 ++ rTable3

/-- Opcodes of format M. -/
def mTable : List (Nat × (MWord → Instr)) :=
  [(0x40, .ld), (0x41, .st), (0x42, .ldsync), (0x43, .stf), (0x44, .ldw),
    (0x45, .cst), (0x46, .atom), (0x47, .cas), (0x4F, .pref), (0x93, .vld),
    (0x94, .vst), (0x95, .vgath), (0x96, .vscat)]

/-- The entry of a table under a key. -/
def lookup {α : Type} : List (Nat × α) → Nat → Option α
  | [], _ => none
  | (k, v) :: t, n => if k = n then some v else lookup t n

/-- The system-register writes with a row of their own (R173). -/
def wrsysOf (w : RWord) : Instr :=
  if w.imm = 0x000#32 then .statusPmaskWrite w
  else if w.imm = 0x002#32 then .engbindWrite w
  else if w.imm = 0x010#32 then .lfsrWrite w
  else if w.imm = 0x020#32 then .trctlWrite w
  else .wrsys w

/-- Opcodes whose function code or `extra` bit chooses among constructors (R66, R319, R321). -/
def variantOf (op : Nat) (w : RWord) : Option Instr :=
  let f := w.hdr.fn.toNat
  let x := w.qual.extractLsb' 0 1 == 1#1
  if op = 0x26 then some (if f = 0 then .start w else .startSvc w)
  else if op = 0x4B then some (wrsysOf w)
  else if op = 0x9F then some (if f = 0 then .vmovxIns w else .vmovxExt w)
  else if op = 0xDF then some (if f = 0 then .cstat w else .ccancel w)
  else if op = 0xE0 then some (if x then .pfrBar w else .pfr w)
  else if op = 0xE3 then some (if x then .secpinUn w else .secpin w)
  else if op = 0xEB then some (if f = 0 then .capins w else if f = 1 then .capskip w else .caprepl w)
  else if op = 0xEC then some (if f = 0 then .capfail w else .capdrop w)
  else if op = 0xED then some (if f = 0 then .exq w else if f = 1 then .expin w else .exunpin w)
  else if op = 0xEE then some (if f = 0 then .exload w else .exevict w)
  else none

/-- The function codes of R66 are 0 up to this number, without it. -/
def fnCount (op : Nat) : Nat :=
  match lookup [(0x1C, 4), (0x20, 3), (0x26, 2), (0x46, 7), (0x5E, 3), (0x91, 5), (0x92, 3), (0x9A, 3),
    (0x9B, 2), (0x9F, 2), (0xDF, 2), (0xEB, 3), (0xEC, 2), (0xED, 3), (0xEE, 2)] op with
  | some n => n
  | none => 1

/-- The major opcode. -/
def opOf (w : BitVec 96) : Nat := (w.extractLsb' 88 8).toNat

/-- The constructor a word's op and function name, whatever its other fields hold. -/
def candidate (w : BitVec 96) : Option Instr :=
  let op := opOf w
  if op = 0x1B then some (.movi (lOf w))
  else if op = 0x20 then some (.br (bOf w))
  else if op = 0x21 then some (.call (bOf w))
  else match lookup mTable op with
    | some f => some (f (mOf w))
    | none => match lookup rTable op with
      | some f => some (f (rOf w))
      | none => variantOf op (rOf w)

/-- Whether the op uses format B. -/
def isB (w : BitVec 96) : Bool := opOf w == 0x20 || opOf w == 0x21

/-- Decoding (R65 to R68): total, refusing by name. -/
def decode (w : BitVec 96) : Except DecodeError Instr :=
  match candidate w with
  | none => .error .reservedOp
  | some i =>
    if fnCount (opOf w) ≤ (hdrOf w).fn.toNat then .error .reservedFunction
    else if (isB w && !bClean w) || !Machine.legal i then .error .reservedField
    else .ok i

/-- The instruction a word is, if it is one. -/
def decodeWord (w : BitVec 96) : Option Instr :=
  match decode w with
  | .ok i => some i
  | .error _ => none

/-- The bytes of a word as memory holds them, lowest address first (R48). -/
def wordBytes (w : BitVec 96) : List Byte := (List.range 12).map fun k => w.extractLsb' (8 * k) 8

/-- The word in twelve bytes of memory (R48). -/
def wordOfBytes (bs : List Byte) : BitVec 96 :=
  BitVec.ofNat 96 (Machine.packBits 8 (bs.map BitVec.toNat))

/-- The instruction read from an instruction whose low `nbits` bits are `w` and whose others are 0. -/
def decodeTableWord (nbits w : Nat) : Option Instr :=
  decodeWord (wordOfBytes (wordBytes (BitVec.ofNat 96 (w % 2 ^ nbits))))

/-! The encoder. -/

def bit1 (b : Bool) : BitVec 1 := if b then 1#1 else 0#1

/-- The 24 header bits (R55). -/
def hdrBits (op : Nat) (h : Hdr) : BitVec 24 :=
  BitVec.ofNat 8 op ++ h.fn ++ bit1 h.sw ++ h.pg ++ bit1 h.pn ++ h.ty

def encR (op : Nat) (w : RWord) : BitVec 96 :=
  hdrBits op w.hdr ++ w.qual ++ w.d ++ w.a ++ w.b ++ w.c ++ w.imm

def encL (op : Nat) (w : LWord) : BitVec 96 := hdrBits op w.hdr ++ w.d ++ w.imm

def encM (op : Nat) (w : MWord) : BitVec 96 :=
  hdrBits op w.hdr ++ w.qual ++ w.data ++ w.base ++ w.seg ++ w.scale ++ w.index ++ w.offset

def encB (op : Nat) (w : BWord) : BitVec 96 :=
  hdrBits op w.hdr ++ 0#8 ++ w.link ++ w.cond ++ 0#16 ++ w.disp ++ w.slot

/-- The word of an instruction; an event has none. -/
def encode : Instr → Option (BitVec 96)
  | .add w => some (encR 0x01 w)
  | .sub w => some (encR 0x02 w)
  | .mul w => some (encR 0x03 w)
  | .mulh w => some (encR 0x04 w)
  | .div w => some (encR 0x05 w)
  | .rem w => some (encR 0x06 w)
  | .min w => some (encR 0x07 w)
  | .max w => some (encR 0x08 w)
  | .lea w => some (encR 0x09 w)
  | .and w => some (encR 0x0A w)
  | .or w => some (encR 0x0B w)
  | .xor w => some (encR 0x0C w)
  | .andn w => some (encR 0x0D w)
  | .shl w => some (encR 0x0E w)
  | .shr w => some (encR 0x0F w)
  | .sra w => some (encR 0x10 w)
  | .rot w => some (encR 0x11 w)
  | .bfx w => some (encR 0x12 w)
  | .bfi w => some (encR 0x13 w)
  | .clz w => some (encR 0x14 w)
  | .ctz w => some (encR 0x15 w)
  | .popc w => some (encR 0x16 w)
  | .brev w => some (encR 0x17 w)
  | .cmp w => some (encR 0x18 w)
  | .sel w => some (encR 0x19 w)
  | .mov w => some (encR 0x1A w)
  | .plog w => some (encR 0x1C w)
  | .ret w => some (encR 0x22 w)
  | .jmp w => some (encR 0x23 w)
  | .trap w => some (encR 0x24 w)
  | .tret w => some (encR 0x25 w)
  | .start w => some (encR 0x26 w)
  | .startSvc w => some (encR 0x26 w)
  | .exit w => some (encR 0x27 w)
  | .join w => some (encR 0x28 w)
  | .ppoint w => some (encR 0x29 w)
  | .launch w => some (encR 0x2A w)
  | .nop w => some (encR 0x2B w)
  | .fence w => some (encR 0x48 w)
  | .xfence w => some (encR 0x49 w)
  | .rdsys w => some (encR 0x4A w)
  | .wrsys w => some (encR 0x4B w)
  | .segget w => some (encR 0x4C w)
  | .segset w => some (encR 0x4D w)
  | .svc w => some (encR 0x4E w)
  | .rdtime w => some (encR 0x50 w)
  | .tlbinv w => some (encR 0x5E w)
  | .tlbq w => some (encR 0x5F w)
  | .send w => some (encR 0x60 w)
  | .recv w => some (encR 0x61 w)
  | .recvnb w => some (encR 0x62 w)
  | .callat w => some (encR 0x63 w)
  | .spawn w => some (encR 0x64 w)
  | .reply w => some (encR 0x65 w)
  | .arrive w => some (encR 0x66 w)
  | .bwait w => some (encR 0x67 w)
  | .bsync w => some (encR 0x68 w)
  | .bmask w => some (encR 0x69 w)
  | .twaitany w => some (encR 0x6A w)
  | .twaitall w => some (encR 0x6B w)
  | .tfind w => some (encR 0x6C w)
  | .sfence w => some (encR 0x6D w)
  | .mcst w => some (encR 0x6E w)
  | .jrd w => some (encR 0x6F w)
  | .mquery w => some (encR 0x70 w)
  | .vadd w => some (encR 0x80 w)
  | .vsub w => some (encR 0x81 w)
  | .vmul w => some (encR 0x82 w)
  | .vfma w => some (encR 0x83 w)
  | .vdiv w => some (encR 0x84 w)
  | .vsqrt w => some (encR 0x85 w)
  | .vrcp w => some (encR 0x86 w)
  | .vrsq w => some (encR 0x87 w)
  | .vexp2 w => some (encR 0x88 w)
  | .vlog2 w => some (encR 0x89 w)
  | .vmin w => some (encR 0x8A w)
  | .vmax w => some (encR 0x8B w)
  | .vabs w => some (encR 0x8C w)
  | .vcmp w => some (encR 0x8D w)
  | .vsel w => some (encR 0x8E w)
  | .vcvt w => some (encR 0x8F w)
  | .vqf4 w => some (encR 0x90 w)
  | .vbit w => some (encR 0x91 w)
  | .vsh w => some (encR 0x92 w)
  | .vbcast w => some (encR 0x97 w)
  | .vperm w => some (encR 0x98 w)
  | .vshuf w => some (encR 0x99 w)
  | .vred w => some (encR 0x9A w)
  | .vscan w => some (encR 0x9B w)
  | .vtopk w => some (encR 0x9C w)
  | .vargmax w => some (encR 0x9D w)
  | .vdot w => some (encR 0x9E w)
  | .vmovxIns w => some (encR 0x9F w)
  | .vmovxExt w => some (encR 0x9F w)
  | .mzero w => some (encR 0xC0 w)
  | .mma w => some (encR 0xC1 w)
  | .mcma w => some (encR 0xC2 w)
  | .mlda w => some (encR 0xC3 w)
  | .msta w => some (encR 0xC4 w)
  | .marm w => some (encR 0xC5 w)
  | .mgang w => some (encR 0xC6 w)
  | .mring w => some (encR 0xC7 w)
  | .mswz w => some (encR 0xC8 w)
  | .walk w => some (encR 0xD0 w)
  | .walkResume w => some (encR 0xD1 w)
  | .wstat w => some (encR 0xD2 w)
  | .wchk w => some (encR 0xD3 w)
  | .cpy w => some (encR 0xD8 w)
  | .cpy2d w => some (encR 0xD9 w)
  | .cgath w => some (encR 0xDA w)
  | .cscat w => some (encR 0xDB w)
  | .cfill w => some (encR 0xDC w)
  | .cswz w => some (encR 0xDD w)
  | .femark w => some (encR 0xDE w)
  | .cstat w => some (encR 0xDF w)
  | .ccancel w => some (encR 0xDF w)
  | .pfr w => some (encR 0xE0 w)
  | .pfrBar w => some (encR 0xE0 w)
  | .rflush w => some (encR 0xE1 w)
  | .rinval w => some (encR 0xE2 w)
  | .secpin w => some (encR 0xE3 w)
  | .secpinUn w => some (encR 0xE3 w)
  | .bmode w => some (encR 0xE4 w)
  | .ctrrd w => some (encR 0xE5 w)
  | .caprecv w => some (encR 0xE8 w)
  | .capsend w => some (encR 0xE9 w)
  | .capnext w => some (encR 0xEA w)
  | .capins w => some (encR 0xEB w)
  | .capskip w => some (encR 0xEB w)
  | .caprepl w => some (encR 0xEB w)
  | .capfail w => some (encR 0xEC w)
  | .capdrop w => some (encR 0xEC w)
  | .exq w => some (encR 0xED w)
  | .expin w => some (encR 0xED w)
  | .exunpin w => some (encR 0xED w)
  | .exload w => some (encR 0xEE w)
  | .exevict w => some (encR 0xEE w)
  | .exrepl w => some (encR 0xEF w)
  | .trctlWrite w => some (encR 0x4B w)
  | .lfsrWrite w => some (encR 0x4B w)
  | .engbindWrite w => some (encR 0x4B w)
  | .statusPmaskWrite w => some (encR 0x4B w)
  | .movi w => some (encL 0x1B w)
  | .ld w => some (encM 0x40 w)
  | .st w => some (encM 0x41 w)
  | .ldsync w => some (encM 0x42 w)
  | .stf w => some (encM 0x43 w)
  | .ldw w => some (encM 0x44 w)
  | .cst w => some (encM 0x45 w)
  | .atom w => some (encM 0x46 w)
  | .cas w => some (encM 0x47 w)
  | .pref w => some (encM 0x4F w)
  | .vld w => some (encM 0x93 w)
  | .vst w => some (encM 0x94 w)
  | .vgath w => some (encM 0x95 w)
  | .vscat w => some (encM 0x96 w)
  | .br w => some (encB 0x20 w)
  | .call w => some (encB 0x21 w)
  | .lineRefetch _ _ => none
  | .instructionFetchComplete _ _ => none
  | .longResultReturn _ => none
  | .trapEntry _ _ => none
  | .windowLoadServe _ => none
  | .remoteStoreApply _ _ _ => none
  | .remoteAtomicApply _ => none
  | .journalAck _ _ => none
  | .journalRefusal _ _ => none
  | .releaseStoreSend _ _ => none
  | .releaseMessageSend _ => none
  | .messageArrival _ => none
  | .taskQueueEntryArrival _ => none
  | .taskQueueHelperStart _ => none
  | .barrierArrival _ => none
  | .timeSliceEnd _ => none
  | .preemptionRequest _ => none
  | .graceWindowExpiry _ => none
  | .shadowBankLoadComplete _ _ => none
  | .bankExchange _ => none
  | .spillComplete _ _ => none
  | .accumulatorSave _ => none
  | .accumulatorRestore _ => none
  | .contextSavedReport _ => none
  | .tlbMissWalk _ => none
  | .faultReply _ => none
  | .mailboxPost => none
  | .launchAdmission _ => none
  | .admissionResume _ => none
  | .gangBindRelease _ => none
  | .deadlinePass _ => none
  | .hostDoorbell _ _ => none
  | .partitionCreate => none
  | .partitionDestroy => none
  | .partitionSet => none
  | .repairPin _ => none
  | .repairFuse _ => none
  | .repairUnpin _ => none
  | .warmReset _ => none
  | .dieReadmit _ _ => none
  | .linkInjectorSet _ => none
  | .injectorFire _ => none
  | .flitArrival _ _ _ => none
  | .nackReplay _ _ => none
  | .linkDown _ => none
  | .linkTraining _ _ _ => none
  | .routeChange _ _ => none
  | .correctedErrorThreshold _ _ _ => none
  | .storeApplyHome _ => none
  | .lineFillServe _ => none
  | .bankModeSwitchComplete _ _ => none
  | .pfrComplete _ _ => none
  | .gangStart _ => none
  | .matrixStep _ => none
  | .walkRound _ => none
  | .copyCommandStart _ => none
  | .copyRow _ => none
  | .capsuleDieIngress _ => none
  | .capsuleCoreIngress _ => none
  | .residencyMissResend _ => none
  | .sluiceReoffer _ => none
  | .sluiceReofferTimer _ => none
  | .residencyBroadcastApply _ _ => none
  | .governorTick _ => none
  | .thermalThrottle _ => none
  | .thermalShutdown => none
  | .powerOnReset _ _ _ _ _ => none
  | .attestationRequest _ => none
  | .notAnInstructionIssue _ => none
  | .junctionBelow95c _ => none
  | .sectorWriteBackComplete _ => none
  | .tlbDropComplete _ => none

end Sys2Proof
end

