-- ==== Sys2Proof/Config.lean ====
section
/-! DEFINITION. What an implementation fixes and the spec leaves open: constants with no body, so
that no proof can rest on a particular value. Each is named in the assumption log. -/

namespace Sys2Proof.Config

-- DESIGN CHOICE, log 6. Safe.
/-- Nanoseconds of package time that pass during the step numbered by the argument (R8, R19; log 6). -/
opaque elapsedNs : Nat → Nat

-- DESIGN CHOICE, log 8. Safe.
/-- A free choice between the outcomes a rule allows, fresh for each value of the counter
(R109, R125, R331; log 8). -/
opaque pick : Nat → Nat

-- DESIGN CHOICE, log 9. Safe.
/-- What accumulator `a7` holds after a walk (R268; log 9). -/
opaque accAfterWalk : Nat → AccBits

-- DESIGN CHOICE, log 10. Unsafe.
/-- Which result inside the error bound of R87 a function gives: major opcode, type code, operand
bits; log 10. -/
opaque boundPick : Nat → Nat → Nat → Nat

-- DESIGN CHOICE, log 7. Safe.
/-- The CRC-32 of a flit's upper 224 bits (R382; log 7). -/
opaque crc32 : BitVec 224 → BitVec 32

-- DESIGN CHOICE, log 7. Safe.
/-- SHA-256 of an image (R384; log 7). -/
opaque sha256 : Nat → BitVec 256

-- DESIGN CHOICE, log 7. Safe.
/-- RSASSA-PSS verification of an image header (format version, image version, hash, signature) against the vendor key
whose hash is fused (R384; log 7). -/
opaque rsaVerify : Nat → Nat → BitVec 256 → Nat → Bool

-- DESIGN CHOICE, log 7. Safe.
/-- The feature bits that this side of a link offers (R382; log 7). -/
opaque linkFeatures : Nat → BitVec 32

-- DESIGN CHOICE, log 7. Safe.
/-- The payload of an ack or nack flit (true: nack) that names a sequence number, and what a partner's payload says
(R382; log 7). -/
opaque ackPayload : Bool → BitVec 12 → BitVec 192
-- DESIGN CHOICE, log 7. Safe.
opaque ackRead : BitVec 192 → Bool × BitVec 12

-- DESIGN CHOICE, log 7. Safe.
/-- The payload of a flit that gives one credit, and the credits that a partner's payload gives (R382; log 7). -/
opaque creditPayload : BitVec 192
-- DESIGN CHOICE, log 7. Safe.
opaque creditRead : BitVec 192 → Nat

-- DESIGN CHOICE, log 7. Safe.
/-- Signature of an attestation report under the device identity key (R384; log 7). -/
opaque deviceSign : List (BitVec 256 × Nat) → BitVec 256 → Nat

-- DESIGN CHOICE, log 7. Safe.
/-- The fused rollback counter (R384; log 7). -/
opaque rollback : Nat

-- DESIGN CHOICE, log 25. Unsafe.
/-- The accumulator save area that the millwright core names in a frame it allocates, as a page of 4 KiB of the paged
space (R121, R127; log 25). -/
opaque accSavePage : Nat → Nat

-- DESIGN CHOICE, log 11. Safe.
/-- Slots in the spill area of a die's sluice as the firmware sets them, before the limits of R355 (log 11). -/
opaque sluiceSlots : Nat → Nat

-- DESIGN CHOICE, log 11. Safe.
/-- The cluster of a die, and the banks of its memory, that the millwright core reserves for the sluice (R301, R355;
log 11). -/
opaque sluiceBanks : Nat → Nat × BitVec 32

-- DESIGN CHOICE, log 77. Unsafe.
/-- The format version of the residency updates that a firmware image of a version sends (R383; log 77). -/
opaque residencyFormat : Nat → Nat

-- DESIGN CHOICE, log 11. Safe.
/-- The bank and the row of a die's DRAM that hold a byte offset (R394; log 11). -/
opaque dramRow : Nat → Nat × Nat

-- DESIGN CHOICE, log 86. Safe.
/-- The Faloz Link port, modulo 36, that carries traffic with a package of the pod (R17, R382; log 86). -/
opaque portTo : Nat → Nat

-- DESIGN CHOICE, log 39. Unsafe.
/-- The lanes of a UCIe link (R396; log 39). -/
opaque uciLanes : Nat → Nat

-- DESIGN CHOICE, log 87. Safe.
/-- What a read of BAR0 answers, by offset, where the spec gives no value (R381; log 87). -/
opaque bar0Word : Nat → BitVec 64

end Sys2Proof.Config
end

