-- ==== Sys2Proof/Machine/State.lean ====
section
/-! DEFINITION. The state of the machine as plain data: everything spec/ gives it, and the fields
of the model's own (sched, turn, iss, tick, ord). Identifiers of cores, clusters, dies and slices
are numbers: core = pkg*2048 + die*512 + clus*16 + core, cluster = pkg*128 + die*32 + clus,
die = pkg*4 + die, slice = die*64 + slice. A frame number is a frame's address divided by 8,192. -/

namespace Sys2Proof.Machine

/-- One bank of the register cache (R123): a frame's words 0 to 639, with valid and dirty marks for lines 0 to 39 and a
poison mark for each word (R386, R387). -/
structure Bank where
  frame : Option Nat := none
  words : SMap Word := []
  valid : BitVec 40 := 0
  dirty : BitVec 40 := 0
  poison : BitVec 640 := 0
  deriving DecidableEq, Repr

/-- A trap as it will be reported (R131 to R133). -/
structure TrapInfo where
  code : BitVec 8
  cause : BitVec 8
  addr : Word
  pc : Word
  word : BitVec 96
  async : Bool
  /-- the trap leaves a current capsule current (R351) -/
  keep : Bool := false
  /-- a reply's action 2 delivers it (R134) -/
  force : Bool := false
  /-- a poisoned register word was read, and the frame's lines in the slot's banks are scrubbed (R388) -/
  scrub : Bool := false
  deriving DecidableEq, Repr

/-- What a slot waits for (R36, R192). The instruction is issued again when the wait is over. -/
inductive Wait where
  /-- an engine operation whose status entry is outstanding (R32) -/
  | engine (entry : Nat)
  /-- any other blocking instruction or hold at issue, tried again at each turn -/
  | retry
  /-- an LDSYNC waiting on a local word (R107, R165) -/
  | full (addr : Nat)
  /-- a RECV waiting on a class queue (R196) -/
  | recv (cls : Nat)
  /-- a BWAIT or BSYNC waiting on a barrier from its phase on (R199) -/
  | barrier (key phase : Nat)
  /-- a window LDSYNC not yet served (R107), or a long memory-slice operation (R320), by its order -/
  | request (ord : Nat)
  /-- the barrier failed while the slot waited (R191) -/
  | barrierFailed (key phase : Nat)
  /-- a head load of an empty FIFO bank (R303), by its arrival at the port (R304) -/
  | fifoHead (cluster bank ord : Nat)
  /-- a tail store of a full FIFO bank (R303), by its arrival -/
  | fifoTail (cluster bank ord : Nat)
  /-- the bank is switched while a head load, or a tail store, waited on its queue (R302) -/
  | fifoGone (head : Bool)
  /-- stopped at a PPOINT with a switch to come (R126) -/
  | ppoint
  deriving DecidableEq, Repr

/-- Why a context is parked for its supervisor (R134). -/
inductive Park where
  /-- an escalated trap; the program counter recorded for the reply -/
  | escalated (t : TrapInfo)
  /-- an SVC, with the destination of the reply's value -/
  | svc (pc next : Word) (d : BitVec 8) (word : BitVec 96)
  deriving DecidableEq, Repr

/-- An entry of the watch set (R168, R314): its segment and offset, the word, the order of its LDW,
and, once the watch-load is served, the line, its home slice and whether it has changed. -/
structure Watch where
  seg : Nat
  off : Nat
  addr : Nat
  ord : Nat
  line : Nat
  home : Option Nat
  served : Bool
  changed : Bool
  deriving DecidableEq, Repr

/-- A capsule: its head of 32 words and its tile (R340, R341). -/
structure Capsule where
  head : List Word
  tile : List Word
  /-- the source's partition -/
  part : Nat
  /-- diverted or bounced, and not yet received by a handler since (R348) -/
  thrown : Bool := false
  deriving DecidableEq, Repr

-- DESIGN CHOICE, log 56. Safe.
-- DEDUCED, log 53. Unsafe.
/-- A context beside its frame (R24, R41). -/
structure Ctx where
  core : Nat
  slot : Nat
  bind : Nat
  caller : Option (Nat × BitVec 16 × Word) := none
  replied : Bool := false
  parked : Bool := false
  wait : Option Wait := none
  /-- the instruction that waits has issued, and is blocked (R36) -/
  issued : Bool := false
  /-- where control goes once an instruction that waits as the second of a pair completes: past a transfer that the first
  made (R54) -/
  after : Option Word := none
  /-- pending entries, with the register of each whose value the second of a pair has written: its value remains (R54) -/
  overs : List (Nat × BitVec 8) := []
  trap : Option TrapInfo := none
  park : Option Park := none
  /-- refused and poisoned loads of the run, and of the handler's run, in program order (R115) -/
  late : List (Nat × TrapInfo) := []
  hlate : List (Nat × TrapInfo) := []
  /-- those of an ended run still to be taken -/
  lateDue : List (Nat × TrapInfo) := []
  /-- the next issue is an entry that R53 checks -/
  entry : Bool := false
  twin : Option Nat := none
  trail : Bool := false
  watch : List Watch := []
  broken : Bool := false
  live : Option PredBits := none
  cap : Option Capsule := none
  /-- the memory in which CAPRECV put the tile of the current capsule (R351); none where it went to a FIFO bank -/
  capAt : Option Nat := none
  /-- `sys.ctxid` and the privilege of a context whose registers have been scrubbed: the scrub leaves its registers zero
  and the context what it is (R24, R130, R388) -/
  kept : Option (Word × BitVec 2) := none
  seq : BitVec 16 := 0
  served : Option Nat := none
  saving : Bool := false
  saved : Bool := false
  /-- killed with an operation in flight, at whose boundary the context ends (R24, R134) -/
  dying : Bool := false
  deriving DecidableEq, Repr

/-- Where a translated access lands (R326 to R329): the flat address, the home slice and the
line's byte offset in its die's range when this package homes it, and the page's attributes. -/
structure Target where
  flat : Nat
  home : Option Nat
  off : Nat
  cmp : Bool
  unc : Bool
  /-- a page of another package that a cluster may hold read-only (R96, R328) -/
  rc : Bool := false
  deriving DecidableEq, Repr

/-- What a slot's fetch is doing beside its requests (R51). -/
inductive Fetch where
  | idle
  /-- the cached line was discarded after a parity mismatch; it is fetched once more -/
  | again (t : Target)
  /-- the line at this memory address has been fetched once more -/
  | refetched (addr : Nat)
  deriving DecidableEq, Repr

/-- A thread slot (R15). -/
structure Slot where
  act : Bank := {}
  shadow : Bank := {}
  fetch : Fetch := .idle
  ready : Bool := false
  lastSend : BitVec 3 := 0
  lastMcst : BitVec 16 := 0
  /-- no journal entry has been taken from the slot since a switch (R205) -/
  quiet : Bool := false
  /-- the jseq of the slot's last MCST, where it took an entry (R205) -/
  mcst : Option (BitVec 16) := none
  deriving DecidableEq, Repr

-- DESIGN CHOICE, log 56. Safe.
/-- A bind record (R375). -/
structure Bind where
  dl : Word := 0
  launch : BitVec 32 := 0
  task : BitVec 16 := 0
  fdie : BitVec 2 := 0
  fofs : BitVec 23 := 0
  rtime : BitVec 55 := 0
  wslices : BitVec 16 := 0
  gang : Bool := false
  pre : Bool := false
  red : Bool := false
  fresh : Bool := false
  prio : BitVec 3 := 0
  state : BitVec 3 := 0
  deriving DecidableEq, Repr

/-- A copy completion record (R281). -/
structure CopyRec where
  done : BitVec 22 := 0
  oob : BitVec 22 := 0
  cause : BitVec 4 := 0
  code : BitVec 8 := 0
  status : BitVec 8 := 0
  frow : BitVec 22 := BitVec.allOnes 22
  foff : BitVec 32 := 0
  deriving DecidableEq, Repr

/-- The member set of a barrier (R187, R188): every core of the partition in the unit, or the
product of a core, cluster, die and package mask (slots at core level). -/
structure Members where
  all : Bool := true
  cores : BitVec 16 := 0
  clusters : BitVec 32 := 0
  dies : BitVec 4 := 0
  pkgs : BitVec 1024 := 0
  deriving DecidableEq, Repr

/-- A named barrier (R187, R189, R190). -/
structure Barrier where
  mask : Members := {}
  next : Option Members := none
  phase : BitVec 32 := 0
  arrived : List Nat := []
  failed : Bool := false
  waits : SMap (BitVec 32) := []
  held : List Nat := []
  deriving DecidableEq, Repr

/-- How a task ends (R373, R385). -/
inductive TaskEnd where
  | retired
  | killed
  | lost
  deriving DecidableEq, Repr

/-- A task as its core keeps it (R23, R193, R281). -/
structure Task where
  token : Word := 0
  index : Nat := 0
  count : Nat := 1
  part : Nat := 0
  ctl : Nat := 0
  frames : List Nat := []
  own : List Nat := []
  fpt : Nat := 1
  fp : Bool := false
  red : Bool := false
  pre : Bool := false
  priv : BitVec 2 := 0
  tags : Word := 0
  recs : SMap CopyRec := []
  cfill : Word := 0
  swz : SMap Word := []
  swzSel : BitVec 3 := 0
  bars : SMap Barrier := []
  svc : SMap Nat := []
  accSaved : Bool := false
  /-- the task ends once its operation in flight has reached its boundary (R24) -/
  ending : Option TaskEnd := none
  deriving DecidableEq, Repr

/-- A message, task-queue entry or reply (R180, R197). For class 0 the words are the program
counter and the four arguments. -/
structure Msg where
  cls : Nat
  src : Nat
  dst : Nat
  tag : BitVec 16
  status : BitVec 2
  words : List Word
  call : Bool
  launch : Word
  frame : Nat
  slot : Nat
  entry : Option Nat
  held : Bool
  ord : Nat
  /-- sent by a millwright core -/
  hw : Bool := false
  /-- once queued on a class from 3 to 7: the bind record of the task that the class is bound to (R179) -/
  own : Nat := 0
  deriving DecidableEq, Repr

/-- A journal entry (R112, R184, R186). -/
structure JEntry where
  state : BitVec 2 := 0
  frame : Nat := 0
  slot : Nat := 0
  jseq : BitVec 16 := 0
  kind : BitVec 3 := 0
  size : BitVec 3 := 0
  addr : Word := 0
  data : Word := 0
  cause : BitVec 8 := 0
  rel : Bool := false
  scope : Nat := 0
  sent : Bool := false
  todo : List Nat := []
  parts : BitVec 128 := 0
  refusals : Nat := 0
  entry : Option Nat := none
  dead : Bool := false
  ord : Nat := 0
  /-- its number among the entries that its core has opened (R397) -/
  num : Nat := 0
  /-- the cause that a refusal on its way brings; `cause` shows it once the entry is refused (R184) -/
  why : BitVec 8 := 0
  /-- the parts applied whose acknowledgements are not all in (R395) -/
  applied : List Nat := []
  /-- the program counter of its issue, for an error record (R389) -/
  pc : Word := 0
  deriving DecidableEq, Repr

/-- A captured segment register (R97). -/
structure Seg where
  base : Word
  limit : Word
  attr : BitVec 32
  deriving DecidableEq, Repr

/-- A word of a copy row that is still to be written (R108): bytes into core-local or cluster memory, an empty mark,
bytes at a page's home slice (`asked`: the first of its sector there; `off`: its segment offset), and a word, or an empty mark, sent through the
window from its segment offset. -/
inductive Put where
  | near (flat n v : Nat)
  | empty (flat : Nat)
  | paged (t : Target) (n v : Nat) (asked : Bool) (off : Nat)
  | window (a off : Nat) (v : Option Word)
  deriving DecidableEq, Repr

/-- A copy row that has been checked and read whole (R283): the writes to come, a group after another and within a group
in any order, and whether its index is at or beyond the bound. -/
structure RowInHand where
  puts : List (List Put)
  oob : Bool
  deriving DecidableEq, Repr

/-- A copy command in the queue (R279). -/
structure CopyCmd where
  op : Nat
  word : RWord
  sD : Seg
  sS : Seg
  sI : Seg
  ra : Word
  rb : Word
  rc : Word
  rc1 : Word
  cfill : Word
  frame : Nat
  slot : Nat
  part : Nat
  bind : Nat
  /-- `sys.ctxid` and the program counter of its issue, for an error record (R389) -/
  id : Word
  pc : Word
  started : Bool := false
  swz : Word := 0
  row : Nat := 0
  /-- the indices of the batch being worked on (R286), or the two scales of line 0 of row 0 (R289) -/
  batch : List Nat := []
  hand : Option RowInHand := none
  /-- cancelled, to end at the next row boundary (R296) -/
  stop : Bool := false
  deriving DecidableEq, Repr

/-- A matrix engine operation (R252 to R255), from its arming or issue on. -/
structure MxOp where
  /-- the major opcode: 0xC1 MMA, 0xC2 MCMA, 0xC5 MARM, 0xC6 MGANG, 0xC7 MRING -/
  op : Nat
  word : RWord
  frame : Nat
  slot : Nat
  pc : Word
  iword : BitVec 96
  entry : Nat
  ra : Word
  rb : Word
  rc : Word
  /-- in flight: started, or a single operation -/
  running : Bool := false
  /-- its instruction has completed its issue, so that its entry awaits the status -/
  claimed : Bool := false
  leader : Nat := 0
  hop : Nat := 0
  step : Nat := 0
  /-- a failure found at the start: code, cause and offset (R254, R255) -/
  fail : Option (Nat × Nat × Nat) := none
  deriving DecidableEq, Repr

/-- A row's entry of the walk state block (R264). -/
structure WEntry where
  node : Word := 0
  aux : BitVec 32 := 0
  cause : BitVec 8 := 0
  fcode : BitVec 8 := 0
  depth : BitVec 8 := 0
  status : BitVec 8 := 0
  deriving DecidableEq, Repr

/-- A walk in progress (R265, R267). -/
structure WalkOp where
  word : RWord
  frame : Nat
  slot : Nat
  pc : Word
  iword : BitVec 96
  entry : Nat
  sN : Seg
  /-- the bits of the row tile as they were when the checks passed (R271) -/
  rows : Nat
  blockAt : Nat
  outAt : Nat
  entries : List WEntry
  rounds : Nat := 0
  deriving DecidableEq, Repr

/-- A translation held in a TLB (R330): tagged by slot in a micro-TLB, by partition in a cluster TLB. -/
structure TlbEntry where
  tag : Nat
  level : Nat
  va : Nat
  pte : BitVec 128
  deriving DecidableEq, Repr

/-- An engine's arrival on its way to a barrier (R189, R246). -/
structure Arrival where
  key : Nat
  core : Nat
  bind : Nat
  member : Nat
  /-- the frame and entry of the status that is written first (R246) -/
  after : Option (Nat × Nat) := none
  deriving DecidableEq, Repr

/-- An outstanding PFR (R319). -/
structure Pfr where
  tag : Option Nat
  arrival : Option Arrival
  lines : List Target
  bind : Nat
  frame : Nat
  deriving DecidableEq, Repr

/-- A thread store that the core's engines need not read yet (R109): the word, its older value, and what tells the
store apart from others. -/
structure Unfenced where
  frame : Nat
  addr : Nat
  old : Word
  made : Nat
  deriving DecidableEq, Repr

/-- A switch of the task in slot 0 (R43, R123). -/
structure Swap where
  next : Option Nat
  slots : List Nat
  loaded : List Nat
  deriving DecidableEq, Repr

/-- An accumulator job of R127: save for, or restore for, the record named. -/
inductive AccJob where
  | save (rec : Nat)
  | restore (rec : Nat)
  deriving DecidableEq, Repr

-- DEDUCED, log 30. Safe.
-- DESIGN CHOICE, log 2. Unsafe.
/-- A core (R15). -/
structure Core where
  slots : SMap Slot := []
  recent : List Nat := []
  table : SMap Bind := []
  tasks : SMap Task := []
  cur : Option Nat := none
  swap : Option Swap := none
  preReq : Bool := false
  /-- a pre-emption has been taken or its window has ended: no context of the task in slot 0 issues (R126) -/
  stopped : Bool := false
  /-- the frame at whose next boundary a pre-emption is taken, once pmask has returned to 0 (R126) -/
  due : Option Nat := none
  /-- slots whose contexts have answered the request with status *exited* (R138) -/
  exited : List Nat := []
  /-- the time up to which the cycles of a request's grace window have been counted, and their number, in tenths, at
  the clocks they ran at (R19, R126) -/
  preAt : Word := 0
  preCycles : Nat := 0
  /-- the slice and the grace window that the partition's record had when they began (R380) -/
  sliceUs : Nat := 2000
  grace : Nat := 4096
  /-- the aging setting kept until the next slice end, where the partition's has changed (R380) -/
  aging : Option Bool := none
  sliceAt : Word := 0
  acc : SMap AccBits := []
  accUsed : Bool := false
  accJobs : List AccJob := []
  bLatch : BitVec 12288 := 0
  mx : Option MxOp := none
  wk : Option WalkOp := none
  copyQ : List CopyCmd := []
  journal : SMap JEntry := []
  jnext : BitVec 16 := 0
  /-- journal entries opened (R397) -/
  jcount : Nat := 0
  classQ : SMap (List Msg) := []
  taskQ : List Msg := []
  /-- staged capsules (class 2), each with the bind record of the task that the class is bound to (R179) -/
  capQ : List (Nat × Capsule) := []
  refused : SMap (BitVec 32) := []
  reserved1 : Nat := 0
  sendBuf : Nat := 0
  pfrs : List Pfr := []
  utlb : List TlbEntry := []
  icache : SMap (BitVec 512) := []
  corrected : Word := 0
  dropped : Word := 0
  unfenced : List Unfenced := []
  deriving DecidableEq, Repr

/-- A line of a cluster cache (R305): line address and the sectors held, most recent first. -/
structure CLine where
  line : Nat
  set : Nat
  cmp : Bool
  sectors : BitVec 2
  /-- the bits of a read-only copy of another package's line (R96) -/
  copy : Option Nat := none
  deriving DecidableEq, Repr

/-- A bank mode switch waiting its turn (R302, R322). -/
structure BankSwitch where
  bank : Nat
  mode : BitVec 2
  deriving DecidableEq, Repr

/-- A BMODE verdict that waits for its banks (R322). -/
structure BankJob where
  frame : Nat
  entry : Nat
  deriving DecidableEq, Repr

-- DESIGN CHOICE, log 56. Safe.
-- DESIGN CHOICE, log 2. Unsafe.
/-- A cluster (R14). -/
structure Cluster where
  modes : SMap (BitVec 2) := []
  reserved : BitVec 32 := 0
  switching : List BankSwitch := []
  jobs : List BankJob := []
  fifos : SMap (List Word) := []
  trHead : BitVec 10 := 0
  trEn : Bool := false
  trStop : Bool := false
  trFull : Bool := false
  trIdx : BitVec 10 := 0
  trCount : BitVec 11 := 0
  trace : SMap (BitVec 128) := []
  /-- the remote stores that the port has applied: source core, entry number of that core, and jseq (R397) -/
  applied : List (Nat × Nat × BitVec 16) := []
  tlb : List TlbEntry := []
  cache : List CLine := []
  expander : List Nat := []
  counters : SMap Word := []
  clock : Nat := 36
  hot : Bool := false
  deriving DecidableEq, Repr

/-- A line in a home slice (R308, R310), most recent first in its slice. `enc0` and `enc1` hold a
sector's encoding code plus 8 times its billets; `held` says which sectors are held. -/
structure SLine where
  line : Nat
  set : Nat
  cmp : Bool
  held : BitVec 2
  enc0 : Nat
  enc1 : Nat
  dirty : BitVec 2
  sharers : BitVec 128
  pinned : BitVec 2
  deriving DecidableEq, Repr

/-- A last-level cache slice (R307 to R316). -/
structure Slice where
  lines : List SLine := []
  counters : SMap Word := []
  corrected : Word := 0
  deriving DecidableEq, Repr

/-- A launch record on its way to or inside a millwright core (R370, R372). -/
structure Launch where
  token : Word
  words : List Word
  die : Nat
  part : Nat
  priv : BitVec 2 := 0
  step : Nat := 0
  placed : List Nat := []
  bound : List Nat := []
  frames : List Nat := []
  /-- the host queue it came from; 0 for LAUNCH -/
  src : Nat := 0
  ord : Nat := 0
  retired : List Nat := []
  ended : List Nat := []
  failed : Bool := false
  killed : Bool := false
  missed : Bool := false
  deriving DecidableEq, Repr

-- DESIGN CHOICE, log 56. Safe.
-- DESIGN CHOICE, log 13. Unsafe.
/-- A compute die (R9, R13). -/
structure Die where
  up : Bool := true
  resetStep : Nat := 0
  /-- the order from which on traffic whose route passes the die, out since then, waits for another route (R398) -/
  outAt : Nat := 0
  loaded : Bool := false
  image : Nat := 0
  devQ : List Launch := []
  seqTok : BitVec 52 := 1
  /-- sluice slots in use (R355) -/
  sluice : List Nat := []
  halted : Bool := false
  /-- the pending list of the base die's store (R394): a sector's offset, its partition, and whether it is a
  row to be replaced or a pin to be kept -/
  repairs : List (Nat × Nat × Bool) := []
  /-- sectors pinned when the die went into warm reset (R399) -/
  pinsKept : List Nat := []
  dramTop : Nat := 0
  /-- a residency update of a version that is not supported has come: no capsule is admitted (R383) -/
  closed : Bool := false
  /-- the retry-after hint of its sluice, in nanoseconds (R355) -/
  retryNs : Nat := 20000
  /-- spare rows used, by DRAM bank (R394) -/
  spares : SMap Nat := []
  /-- sectors whose rows found no spare, with their partitions, still to be reported (R394) -/
  unspared : List (Nat × Nat) := []
  deriving DecidableEq, Repr

-- DESIGN CHOICE, log 2. Unsafe.
/-- The replicated part of a residency entry (R352, words 0 to 3). -/
structure ExRep where
  state : BitVec 2 := 0
  part : BitVec 8 := 0
  home : BitVec 7 := 0
  pins : BitVec 15 := 0
  ver : BitVec 32 := 0
  raddr : Word := 0
  size : BitVec 32 := 0
  repl : BitVec 32 := 0
  taddr : Word := 0
  deriving DecidableEq, Repr

/-- A residency entry at its home die (R352 to R357). -/
structure Expert where
  rep : ExRep := {}
  rr : BitVec 3 := 0
  round : BitVec 16 := 0
  win : SMap Bool := []
  shead : BitVec 20 := 0
  stail : BitVec 20 := 0
  /-- parked capsules, oldest first, each with its slot (R354, R355) -/
  parked : List (Nat × Capsule) := []
  /-- the oldest is on offer to a cluster (R357) -/
  offered : Bool := false
  /-- its deadline and window checks have been made -/
  checked : Bool := false
  /-- refusals it has met -/
  tries : Nat := 0
  offerAt : Word := 0
  /-- the residency-miss message has been refused (R356) -/
  miss : Bool := false
  /-- the time of the miss, and of the latest sending of its message -/
  missTime : Word := 0
  missSent : Word := 0
  /-- changing instructions whose copies are not all up to date (R353): frame, entry, status, version -/
  waiters : List (Nat × Nat × Word × BitVec 32) := []
  deriving DecidableEq, Repr

/-- A residency update on its way to a die: the entry, the replicated part, and the record's format version (R353,
R383). -/
structure ExUpdate where
  die : Nat
  expert : Nat
  rep : ExRep
  /-- the home die that the change was made at -/
  src : Nat := 0
  fmt : Nat := 1
  deriving DecidableEq, Repr

-- DESIGN CHOICE, log 56. Safe.
/-- A partition (R380). -/
structure Part where
  exists_ : Bool := false
  clusters : BitVec 128 := 0
  pods : BitVec 1024 := 0
  sliceUs : Nat := 2000
  aging : Bool := false
  grace : Nat := 4096
  poolFrames : Nat := 0
  poolBase : Nat := 0
  poolCap : Nat := 0
  poolUsed : List Nat := []
  /-- bytes of its die's DRAM that its record reserves, from `root` on -/
  bytes : Nat := 0
  queueFirst : Nat := 0
  queueCount : Nat := 0
  resCores : BitVec 64 := 0
  root : Nat := 0
  mailbox : Nat := 0
  mbHead : Nat := 0
  mbTail : Nat := 0
  replyRing : Nat := 0
  replyTail : Nat := 0
  replyHead : Nat := 0
  errRing : Nat := 0
  errTail : Nat := 0
  repairRing : Nat := 0
  repairTail : Nat := 0
  repairHead : Nat := 0
  discarded : Nat := 0
  retryNs : Nat := 20000
  supCore : Nat := 0
  deriving DecidableEq, Repr

-- DESIGN CHOICE, log 12. Safe.
-- DESIGN CHOICE, log 2. Unsafe.
/-- A host queue (R381). -/
structure HostQueue where
  base : Nat := 0
  log2 : Nat := 4
  head : Nat := 0
  tail : Nat := 0
  part : Nat := 0
  enabled : Bool := false
  deriving DecidableEq, Repr

/-- A flit that a port is to send: virtual channel, type and payload (R382). -/
structure FlitOut where
  chan : BitVec 3
  type : BitVec 4
  payload : BitVec 192
  deriving DecidableEq, Repr

-- DESIGN CHOICE, log 56. Safe.
/-- A link: 0 to 35 Faloz Link ports, 36 to 43 the UCIe links of R7 in that table's order (R382,
R393, R395 to R397). -/
structure Link where
  up : Bool := false
  version : Nat := 0
  features : BitVec 32 := 0
  epoch : Nat := 0
  rxSeq : BitVec 12 := 0
  txSeq : BitVec 12 := 0
  /-- flits sent and not acknowledged, at most 512 (R382) -/
  replay : List (BitVec 256) := []
  /-- the partner's credits by virtual channel, and the flits that wait for one (R382) -/
  credits : SMap Nat := []
  waiting : List FlitOut := []
  failSeq : BitVec 12 := 0
  fails : Nat := 0
  /-- how far past the number awaited the last flit out of sequence was -/
  failDist : Nat := 0
  /-- the sequence number that the partner's last nacks name, and their number in a row -/
  nackSeq : BitVec 12 := 0
  nacks : Nat := 0
  /-- nacks still to come for flits that were on their way behind the one that failed -/
  nackSlack : Nat := 0
  out : List (BitVec 256) := []
  inbox : List (BitVec 256) := []
  injector : Word := 0
  /-- flits sent, and how many had been when the injector was armed (R396) -/
  sent : Nat := 0
  armedAt : Nat := 0
  deriving DecidableEq, Repr

/-- A long result on its way to a frame (R41): the bits it writes, in order. -/
structure RegWrite where
  spec : BitVec 8
  lo : Nat
  width : Nat
  val : Nat
  deriving DecidableEq, Repr

structure Ret where
  frame : Nat
  entry : Nat
  writes : List RegWrite
  ready : Bool
  late : List TrapInfo
  ord : Nat
  /-- the place of the fault ring's entry whose replay it ends (R334) -/
  ring : Option Nat := none
  deriving DecidableEq, Repr

/-- A memory request of a thread or vector access, or a fetch, in the codes of R333. -/
structure Req where
  ord : Nat
  core : Nat
  slot : Nat
  frame : Nat
  pc : Word
  word : BitVec 96
  op : BitVec 3
  fn : BitVec 3
  qual : BitVec 8
  size : Nat
  addr : Word
  off : Word
  elem : BitVec 8
  data : Word
  data2 : Word
  ty : BitVec 5
  dst : BitVec 8
  fdst : BitVec 8
  take : Bool
  entry : Option Nat
  target : Option Target
  /-- the lanes of one vector access share a nonzero number (R226) -/
  grp : Nat := 0
  /-- the replay of an entry of its context's fault ring, at this place (R334) -/
  ring : Option Nat := none
  deriving DecidableEq, Repr

/-- A message for a supervisor's mailbox (R133, R378). -/
structure Mail where
  part : Nat
  ctxid : Word
  pc : Word
  code : Word
  addr : Word
  deriving DecidableEq, Repr

/-- Where a capsule that has passed its last die ingress is being delivered (R344). -/
inductive CapDest where
  | core (c : Nat)
  | cluster (cl : Nat)
  deriving DecidableEq, Repr

/-- A capsule in the fabric (R347): before the ingress of a die, or on its way to a core ingress. -/
structure CapFly where
  cap : Capsule
  die : Nat
  dest : Option CapDest := none
  /-- it has still to pass the ingress of the die it is at, on its way to a cluster of another die -/
  enter : Bool := false
  /-- the sluice whose oldest capsule this is, on offer (R357) -/
  expert : Option Nat := none
  /-- the core whose send buffer it still occupies (R361) -/
  holder : Option Nat := none
  deriving DecidableEq, Repr

/-- A sequence of memory-slice work that blocks its issuer: RFLUSH, RINVAL (R320), TLBINV (R337). -/
structure Flush where
  ord : Nat
  frame : Nat
  lines : List Nat
  inval : Bool
  deriving DecidableEq, Repr

structure TlbDrop where
  ord : Nat
  frame : Nat
  scope : Nat
  core : Nat
  part : Nat
  mode : Nat
  lo : Nat
  len : Nat
  /-- the virtual ranges of the translations that it drops, as they were when it began -/
  spans : List (Nat × Nat) := []
  deriving DecidableEq, Repr

/-- How the instruction being issued ended: the model's own record for pairs (R54) and for stating
when an instruction completes. -/
inductive IssueEnd where
  | completed
  /-- it holds at issue: nothing of it has happened (R54) -/
  | held
  /-- it has issued and is blocked (R192) -/
  | blocked
  | trapped
  deriving DecidableEq, Repr

-- DESIGN CHOICE, log 4. Safe.
/-- The instruction being issued: the model's own. -/
structure Issue where
  core : Nat := 0
  slot : Nat := 0
  pc : Word := 0
  next : Word := 0
  word : BitVec 96 := 0
  res : IssueEnd := .completed
  deriving DecidableEq, Repr

-- DESIGN CHOICE, log 79. Safe.
/-- What happens to the machine from outside it, beside the events of the opcode table: an uncorrectable error in memory
or in a word of a slot's bank (R386), a flipped bit of a cached fetch line, memory outside the package written by another
agent (R309, R381), a host queue's ring placed, a flit handed to a link's port, what the partner of a Faloz Link port
offers at training, and the number that the pod's training gives the package (R382). -/
inductive Outside where
  | memoryError (flat : Nat)
  | registerError (core slot word : Nat) (shadow : Bool)
  | lineError (core line bit : Nat)
  | outsideWrite (flat n v : Nat)
  | ringPlace (queue base log2 : Nat)
  | flitSend (link : Nat) (f : FlitOut)
  | partner (link version : Nat) (features : BitVec 32)
  | podNumber (n : Nat)
  deriving DecidableEq, Repr

-- DESIGN CHOICE, log 17. Unsafe.
/-- A word that a matrix or walk operation has written and that its context need not yet see complete (R108): the context,
the word, its older value and the one written, what tells the write apart from others, and whether another agent has
written the word since. -/
structure Racing where
  frame : Nat
  addr : Nat
  old : Word
  new : Word
  made : Nat
  raced : Bool := false
  deriving DecidableEq, Repr

/-- What the schedule names to move next: the model's own. -/
inductive Move where
  | event (i : Instr)
  | core (n : Nat)
  | outside (o : Outside)
  deriving DecidableEq, Repr

-- DESIGN CHOICE, log 56. Safe.
structure State where
  time : Word
  pkg : Nat
  stage : Nat
  powered : Bool
  mem : List Host.Cell
  full : SMap Bool
  poison : SMap Bool
  /-- poisoned words that are so in a held sector only, not in the memory behind it (R386, R387) -/
  copyMarks : SMap Bool
  /-- bytes of host and tier memory that an agent outside the package has changed behind a held sector (R309) -/
  behind : SMap (Option Byte)
  /-- writes of matrix and walk operations that have not completed, newest first (R108) -/
  racing : List Racing
  cores : SMap Core
  lfsr : SMap (BitVec 32)
  ctxs : SMap (Option Ctx)
  clusters : SMap Cluster
  slices : SMap Slice
  dies : SMap Die
  experts : SMap Expert
  copies : SMap ExRep
  updates : List ExUpdate
  parts : SMap Part
  barriers : SMap Barrier
  launches : List Launch
  outcomes : List (Word × BitVec 8)
  queues : SMap HostQueue
  ignored : Nat
  links : SMap Link
  detours : List (Nat × Nat)
  chief : Nat
  /-- measured power of the last ticks, newest first, and whether the governor is lowering clocks until their average
  falls below 2,800 W (R414) -/
  power : List Nat
  lowering : Bool
  /-- what the partners of the Faloz Link ports offer: version and features; and the number that pod training gives the
  package (R382, R412) -/
  partners : SMap (Nat × BitVec 32)
  podNumber : Nat
  /-- the signed-firmware store of BD: the chief's image at 0, compute die d's at 1 + d (R8, R384) -/
  store : SMap FwImage
  /-- the measurements and versions of loaded images, numbered as in the store (R384) -/
  images : SMap (Option (BitVec 256 × Nat))
  /-- the last attestation report: the measurement and version of each loaded image, the nonce, and the signature
  (R384) -/
  report : Option (List (BitVec 256 × Nat) × BitVec 256 × Nat)
  reqs : List Req
  faulted : List (Nat × Req)
  wreqs : List Req
  rets : List Ret
  net : List Msg
  arrivals : List Arrival
  mail : List Mail
  caps : List CapFly
  flushes : List Flush
  drops : List TlbDrop
  sched : List Move
  turn : Nat
  iss : Issue
  tick : Nat
  ord : Nat
  deriving DecidableEq, Repr

/-- Reasons the machine stops. -/
inductive Fault where
  /-- raised by `step` once the module has removed its own power (R415, THERMAL_SHUTDOWN) and until
  POWER_ON_RESET: nothing runs without power. Safe. -/
  | powerRemoved
  deriving DecidableEq, Repr

/-- Reasons the model gives no next state. -/
inductive Refusal where
  /-- raised by a refused arm of `exec`: the instruction has no meaning yet. Safe. -/
  | notModelled (mnemonic : String)
  /-- raised by the meaning of an instruction when the issuing slot holds no context: only a
  context issues instructions (R24, R36), so no such issue exists. Safe. -/
  | noContext
  deriving DecidableEq, Repr

-- DESIGN CHOICE, log 4. Safe.
-- DESIGN CHOICE, log 2. Unsafe.
-- DESIGN CHOICE, log 1. Unsafe.
/-- The machine right after power-on or device reset, before its firmware is loaded (R412). -/
def State.reset : State where
  time := 0
  pkg := 0
  stage := 0
  powered := true
  mem := []
  full := []
  poison := []
  copyMarks := []
  behind := []
  racing := []
  cores := []
  lfsr := []
  ctxs := []
  clusters := []
  slices := []
  dies := []
  experts := []
  copies := []
  updates := []
  parts := []
  barriers := []
  launches := []
  outcomes := []
  queues := []
  ignored := 0
  links := []
  detours := []
  chief := 0
  power := []
  lowering := false
  partners := []
  podNumber := 0
  store := []
  images := []
  report := none
  reqs := []
  faulted := []
  wreqs := []
  rets := []
  net := []
  arrivals := []
  mail := []
  caps := []
  flushes := []
  drops := []
  sched := []
  turn := 0
  iss := {}
  tick := 0
  ord := 0

end Sys2Proof.Machine
end

