-- ==== Sys2Proof/Machine/Heads.lean ====
section
/-! DEFINITION. The capsule head (R341 to R345): its fields, hops, and the writing of a fault
record when a capsule is diverted or bounced (R348). -/

namespace Sys2Proof.Machine

/-- Word `n` of a head. -/
def headWord (c : Capsule) (n : Nat) : Nat := (c.head.getD n 0).toNat

def setHeadWord (c : Capsule) (n v : Nat) : Capsule :=
  { c with head := c.head.set n (BitVec.ofNat 64 v) }

/-- Bits `[hi:lo]` of word 0 replaced. -/
def setWord0 (c : Capsule) (hi lo v : Nat) : Capsule := setHeadWord c 0 (putBits (headWord c 0) hi lo v)

/-! Fields of word 0 (R342). -/
def capVer (c : Capsule) : Nat := bitsOf (headWord c 0) 63 56
def capCls (c : Capsule) : Nat := bitsOf (headWord c 0) 55 48
def capBnc (c : Capsule) : Bool := bitOf (headWord c 0) 35
def capDiv (c : Capsule) : Bool := bitOf (headWord c 0) 34
def capItlen (c : Capsule) : Nat := bitsOf (headWord c 0) 31 27
def capCursor (c : Capsule) : Nat := bitsOf (headWord c 0) 26 22
def capUnits (c : Capsule) : Nat := bitsOf (headWord c 0) 21 17

/-- Hop `k` of the itinerary, and the fault place (R341). -/
def capHop (c : Capsule) (k : Nat) : Nat := headWord c (16 + k)
def capFaultPlace (c : Capsule) : Nat := headWord c 5

/-! Fields of a hop (R343). -/
def hopKind (h : Nat) : Nat := bitsOf h 63 62
def hopOp (h : Nat) : Nat := bitsOf h 61 56
def hopExp (h : Nat) : Nat := bitsOf h 13 0
/-- The core a kind 0 hop names, as a core id. -/
def hopCore (h : Nat) : Nat :=
  bitsOf h 55 46 * 2048 + bitsOf h 45 44 * 512 + bitsOf h 43 39 * 16 + bitsOf h 37 34
/-- The cluster a kind 0 or 1 hop names, as a cluster id. -/
def hopCluster (h : Nat) : Nat := bitsOf h 55 46 * 128 + bitsOf h 45 44 * 32 + bitsOf h 43 39

/-- A hop is well-formed when every field its kind does not use and every reserved bit is zero (R343). -/
def hopOk (h : Nat) : Bool :=
  match hopKind h with
  | 0 => bitsOf h 38 38 == 0 && bitsOf h 33 0 == 0
  | 1 => bitsOf h 38 34 == 0 && bitsOf h 33 0 == 0
  | 2 => bitsOf h 45 14 == 0
  | _ => bitsOf h 55 0 == 0

/-- Bits [63:43] of a word in the layout of word 4 for a core id (R341). -/
def coordWord (core : Nat) : Nat :=
  (core / 2048) * 2 ^ 54 + (core / 512 % 4) * 2 ^ 52 + (core / 16 % 32) * 2 ^ 47 + (core % 16) * 2 ^ 43

/-- The core named by word 4 (R341). -/
def capSource (c : Capsule) : Nat :=
  let w := headWord c 4
  bitsOf w 63 54 * 2048 + bitsOf w 53 52 * 512 + bitsOf w 51 47 * 16 + bitsOf w 46 43

/-- A divert or bounce: where it happened, its code and the record's other words (R345, R348). -/
structure CapFault where
  code : Nat
  cause : Nat := 0
  atCore : Option Nat
  die : Nat := 0
  detail : Nat := 0
  pc : Nat := 0
  deriving DecidableEq, Repr

/-- Codes that bounce to the source; the others divert to the fault place (R348). -/
def faultBounces (c : Capsule) (code : Nat) : Bool :=
  [4, 5, 6, 7].contains code ||
    (code == 3 && (!hopOk (capFaultPlace c) || hopKind (capFaultPlace c) == 2))

/-- The capsule with its fault record written and div or bnc set; none when it has been diverted or
bounced already, with no handler to receive it since, and is discarded (R348). -/
def divertCapsule (time : Word) (c : Capsule) (f : CapFault) : Option Capsule :=
  if c.thrown then none
  else
    let w6 := f.code % 256 * 2 ^ 32 + f.cause % 256 * 2 ^ 24 + capCursor c * 2 ^ 19
    let w7 := match f.atCore with
      | some k => coordWord k
      | none => coordWord (f.die * 512) + 1
    let c := setHeadWord (setHeadWord c 6 w6) 7 w7
    let c := setHeadWord (setHeadWord (setHeadWord { c with thrown := true } 8 time.toNat) 9 f.detail) 10 f.pc
    some (if faultBounces c f.code then setWord0 c 35 35 1 else setWord0 c 34 34 1)

end Sys2Proof.Machine
end

