-- ==== Sys2Proof/Machine/Parts.lean ====
section
/-! DEFINITION. The parts of the state by name: identifiers, cores, slots, contexts, clusters, slices, dies,
partitions, links, tasks and bind records; reach between dies; memory, its poison marks and its full/empty bits. -/

namespace Sys2Proof.Machine

/-! Identifiers (R6, R14, R94). -/

def clusterOf (core : Nat) : Nat := core / 16
def dieOf (core : Nat) : Nat := core / 512
-- DESIGN CHOICE, log 57. Safe.
def pkgOf (core : Nat) : Nat := core / 2048
def dieOfCluster (cl : Nat) : Nat := cl / 32
def pkgOfCluster (cl : Nat) : Nat := cl / 128

/-! Parts of the state. -/

-- DESIGN CHOICE, log 14. Safe.
def coreOf (s : State) (c : Nat) : Core := s.cores.get {} c
def modCore (s : State) (c : Nat) (g : Core → Core) : State :=
  { s with cores := SMap.set {} s.cores c (g (coreOf s c)) }

def slotOf (s : State) (c k : Nat) : Slot := (coreOf s c).slots.get {} k
def modSlot (s : State) (c k : Nat) (g : Slot → Slot) : State :=
  modCore s c fun x => { x with slots := SMap.set {} x.slots k (g (x.slots.get {} k)) }

def ctxOf (s : State) (f : Nat) : Option Ctx := s.ctxs.get none f
def setCtx (s : State) (f : Nat) (x : Option Ctx) : State := { s with ctxs := SMap.set none s.ctxs f x }
def modCtx (s : State) (f : Nat) (g : Ctx → Ctx) : State :=
  match ctxOf s f with
  | none => s
  | some x => setCtx s f (some (g x))

def clusterSt (s : State) (cl : Nat) : Cluster := s.clusters.get {} cl
def modCluster (s : State) (cl : Nat) (g : Cluster → Cluster) : State :=
  { s with clusters := SMap.set {} s.clusters cl (g (clusterSt s cl)) }

def sliceSt (s : State) (n : Nat) : Slice := s.slices.get {} n
def modSlice (s : State) (n : Nat) (g : Slice → Slice) : State :=
  { s with slices := SMap.set {} s.slices n (g (sliceSt s n)) }

def dieSt (s : State) (d : Nat) : Die := s.dies.get {} d
def modDie (s : State) (d : Nat) (g : Die → Die) : State :=
  { s with dies := SMap.set {} s.dies d (g (dieSt s d)) }

def partOf (s : State) (p : Nat) : Part := s.parts.get {} p
def modPart (s : State) (p : Nat) (g : Part → Part) : State :=
  { s with parts := SMap.set {} s.parts p (g (partOf s p)) }

def linkSt (s : State) (n : Nat) : Link := s.links.get {} n
def modLink (s : State) (n : Nat) (g : Link → Link) : State :=
  { s with links := SMap.set {} s.links n (g (linkSt s n)) }

def expertSt (s : State) (e : Nat) : Expert := s.experts.get {} e
def modExpert (s : State) (e : Nat) (g : Expert → Expert) : State :=
  { s with experts := SMap.set {} s.experts e (g (expertSt s e)) }

def taskOf (s : State) (c b : Nat) : Task := (coreOf s c).tasks.get {} b
def modTask (s : State) (c b : Nat) (g : Task → Task) : State :=
  modCore s c fun x => { x with tasks := SMap.set {} x.tasks b (g (x.tasks.get {} b)) }

def bindOf (s : State) (c b : Nat) : Bind := (coreOf s c).table.get {} b
def modBind (s : State) (c b : Nat) (g : Bind → Bind) : State :=
  modCore s c fun x => { x with table := SMap.set {} x.table b (g (x.table.get {} b)) }

/-- The task and the partition of a context. -/
def ctxTask (s : State) (x : Ctx) : Task := taskOf s x.core x.bind
def ctxPart (s : State) (x : Ctx) : Nat := (ctxTask s x).part

/-- Whether a cluster belongs to a partition (R95, R380). -/
def inPart (s : State) (p cl : Nat) : Bool :=
  let r := partOf s p
  r.exists_ && r.clusters.getLsbD (cl % 128) &&
    (pkgOfCluster cl == s.pkg || r.pods.getLsbD (pkgOfCluster cl))

/-- The fixed route between two compute dies of a package (R7), or the other two links where it has been
changed (R398): the links, numbered as R393 numbers them, and the die passed. -/
def routeOf (detour : Bool) (a b : Nat) : List Nat × Option Nat :=
  let h (y : Nat) := 36 + y
  let v (x : Nat) := 38 + x
  if a / 2 = b / 2 then ([h (a / 2)], none)
  else if a % 2 = b % 2 then ([v (a % 2)], none)
  else if detour then ([v (a % 2), h (b / 2)], some (b / 2 * 2 + a % 2))
  else ([h (a / 2), v (b % 2)], some (a / 2 * 2 + b % 2))

/-- A die's millwright core runs: it has loaded signed firmware and is in service (R13, R384, R398). -/
def firmwareRuns (s : State) (die : Nat) : Bool := (dieSt s die).loaded && (dieSt s die).up

/-- A die's base link to BD is up (R7, R393). -/
def baseUp (s : State) (d : Nat) : Bool := (linkSt s (40 + d % 4)).up

-- DEDUCED, log 68. Unsafe.
/-- A Faloz Link port is up, through which the pod's barriers are carried (R382, R395). -/
def podUp (s : State) : Bool := (upFrom 0 36).any fun k => (linkSt s k).up

-- DESIGN CHOICE, log 86. Safe.
/-- The port that carries the traffic with another package is up. -/
def portUp (s : State) (pkg : Nat) : Bool := (linkSt s (Config.portTo pkg % 36)).up

-- DEDUCED, log 68. Unsafe.
-- DESIGN CHOICE, log 57. Safe.
-- DEDUCED, log 41. Unsafe.
/-- A compute die is in service and the route to it from another is up (R395, R398): between packages, a base link and a
Faloz Link port (R17). -/
def reachable (s : State) (from_ d : Nat) : Bool :=
  (dieSt s d).up &&
    (if from_ == d then true
     else if from_ / 4 != d / 4 then
      baseUp s (if from_ / 4 = s.pkg then from_ else d) && portUp s (if from_ / 4 = s.pkg then d / 4 else from_ / 4)
     else
      let r := routeOf (s.detours.contains (from_, d)) (from_ % 4) (d % 4)
      (r.1.all fun l => (linkSt s l).up) &&
        match r.2 with
        | some x => (dieSt s (d / 4 * 4 + x)).up
        | none => true)

/-- The next die on the way from one die to another (R7). -/
def nextDie (s : State) (from_ d : Nat) : Nat :=
  if from_ / 4 ≠ d / 4 then d
  else match (routeOf (s.detours.contains (from_, d)) (from_ % 4) (d % 4)).2 with
    | some x => d / 4 * 4 + x
    | none => d

/-- The links of a die accept no new request: it is in warm reset, from step 2 until they go down (R399). -/
def linkClosed (s : State) (d : Nat) : Bool :=
  decide (2 ≤ (dieSt s d).resetStep) && decide ((dieSt s d).resetStep ≤ 4)

/-- The die that the fixed route from one die to another of the package passes, where it is out, or its links are closed,
and the route has not been changed yet. -/
def brokenRoute (s : State) (from_ d : Nat) : Option Nat :=
  if from_ / 4 ≠ d / 4 ∨ s.detours.contains (from_, d) then none
  else ((routeOf false (from_ % 4) (d % 4)).2.map fun x => d / 4 * 4 + x).filter fun x =>
    !(dieSt s x).up || linkClosed s x

-- DEDUCED, log 41. Unsafe.
/-- Traffic of order `n` to a die in service waits: for the change of its route, where it was not on its way when the die
that the route passes went out (R398), or where the links of either end have closed before it (R399). -/
def routeWaits (s : State) (from_ d n : Nat) : Bool :=
  (dieSt s d).up &&
    (((brokenRoute s from_ d).any fun x => decide ((dieSt s x).outAt ≤ n)) ||
      (from_ != d && [from_, d].any fun x => linkClosed s x && decide ((dieSt s x).outAt ≤ n)))

-- DEDUCED, log 41. Unsafe.
/-- A capsule at a die waits, with what would leave the die now; one that is at a die whose links have closed came before
that, and leaves (R399). -/
def capWaits (s : State) (from_ d : Nat) : Bool :=
  (dieSt s d).up && ((brokenRoute s from_ d).any (fun x => decide ((dieSt s x).outAt ≤ s.ord)) || (from_ != d && linkClosed s d))

-- DEDUCED, log 68. Unsafe.
/-- What carries a core's arrivals at a level is up: base links at package level, Faloz Link beyond (R11). -/
def carrierUp (s : State) (core level : Nat) : Bool :=
  decide (level < 5) || (baseUp s (dieOf core) && (level == 5 || podUp s))

/-! Memory: one flat space of regions, 2^64 bytes each (R94, R101, R328). -/

-- DESIGN CHOICE, log 14. Safe.
def dramBase (d : Nat) : Nat := d * 2 ^ 64
-- DESIGN CHOICE, log 14. Safe.
def hostBase : Nat := 4096 * 2 ^ 64
-- DESIGN CHOICE, log 14. Safe.
def tierBase (port : Nat) : Nat := (4097 + port) * 2 ^ 64
-- DESIGN CHOICE, log 14. Safe.
def localBase (core : Nat) : Nat := (2 ^ 23 + core) * 2 ^ 64
-- DESIGN CHOICE, log 14. Safe.
def clusBase (cl : Nat) : Nat := (2 ^ 24 + cl) * 2 ^ 64

/-- The die whose memory holds a flat address: of a cluster's or a core's memory, and of DRAM. -/
def flatDie (flat : Nat) : Nat :=
  let r := flat / 2 ^ 64
  if 2 ^ 24 ≤ r then dieOfCluster (r - 2 ^ 24) else if 2 ^ 23 ≤ r then dieOf (r - 2 ^ 23) else r

-- DESIGN CHOICE, log 1. Unsafe.
def readByte (s : State) (k : Nat) : Byte := SMap.get 0 s.mem k

/-- `n` bytes at `k`, little-endian (R2). -/
def readBytes (s : State) : Nat → Nat → Nat
  | _, 0 => 0
  | k, n + 1 => (readByte s k).toNat + 256 * readBytes s (k + 1) n

-- DESIGN CHOICE, log 1. Unsafe.
def writeByte (m : List Host.Cell) (k : Nat) (b : Byte) : List Host.Cell := SMap.set 0 m k b

def putBytes (m : List Host.Cell) : Nat → Nat → Nat → List Host.Cell
  | _, 0, _ => m
  | k, n + 1, v => putBytes (writeByte m k (BitVec.ofNat 8 v)) (k + 1) n (v / 256)

/-- The words that `n` bytes at `k` cover whole. -/
def wholeWords (k n : Nat) : List Nat :=
  upFrom ((k + 7) / 8) ((k + n) / 8 - (k + 7) / 8)

/-- Write `n` bytes at `k`; a word written whole loses its poison mark (R387). -/
def writeBytes (s : State) (k n v : Nat) : State :=
  { s with mem := putBytes s.mem k n v
           poison := (wholeWords k n).foldl (fun m w => SMap.set false m w false) s.poison }

def readWord (s : State) (k : Nat) : Word := BitVec.ofNat 64 (readBytes s k 8)
def writeWord (s : State) (k : Nat) (x : Word) : State := writeBytes s k 8 x.toNat

/-- Some word that the bytes touch is poisoned (R387). -/
def poisoned (s : State) (k n : Nat) : Bool :=
  (upFrom (k / 8) ((k + n + 7) / 8 - k / 8)).any fun w => SMap.get false s.poison w

/-- The first poisoned word of a range, as an address. -/
def firstPoison (s : State) (k n : Nat) : Nat :=
  match (upFrom (k / 8) ((k + n + 7) / 8 - k / 8)).find? fun w => SMap.get false s.poison w with
  | some w => 8 * w
  | none => k

/-- The full/empty bit of the word at `k` (R107). -/
def isFull (s : State) (k : Nat) : Bool := SMap.get false s.full (k / 8)
def setFull (s : State) (k : Nat) (b : Bool) : State :=
  { s with full := SMap.set false s.full (k / 8) b }

end Sys2Proof.Machine
end

