-- ==== Sys2Proof/Machine/Lines.lean ====
section
/-! DEFINITION. What the home slices and the cluster caches keep of the lines they hold (R305 to R316): encodings,
pools, sharers, evictions, counters, watched lines, and accesses to memory at its home slice. Values live in memory;
where an agent outside the package has changed host or tier memory behind a held sector (R309), `behind` holds what
backing memory has there and memory what the package reads. -/

namespace Sys2Proof.Machine

/-- The home slice of a line at byte offset `p` of its die's range (R307). -/
def sliceIndex (p : Nat) : Nat :=
  bitsOf p 15 10 ^^^ bitsOf p 21 16 ^^^ bitsOf p 27 22 ^^^ bitsOf p 33 28 ^^^ bitsOf p 35 34
def sliceSet (p : Nat) : Nat := bitsOf p 25 16 ^^^ bitsOf p 35 26

-- DEDUCED, log 55. Safe.
/-- A place in a die's DRAM that is reached by its address and through no page: its home slice holds it RAW. -/
def dramTarget (flat : Nat) : Target :=
  let off := flat % 2 ^ 64
  { flat := flat, home := some (flat / 2 ^ 64 * 64 + sliceIndex off), off := off, cmp := false, unc := false, rc := false }

/-! Sector encodings (R310, R311). -/

/-- A sector's 32 words from its bits. -/
def wordsOf (v : Nat) : List Nat := splitBits 32 32 v
def sectorWords (s : State) (flat : Nat) : List Nat := wordsOf (readBytes s flat 128)

/-- `d(i)` of R311. -/
def sectorDelta (w0 w : Nat) : Nat := (w + 2 ^ 32 - w0) % 2 ^ 32

/-- `d(i)` fits in `n` signed bits for every word. -/
def deltasFit (n : Nat) (ws : List Nat) : Bool :=
  ws.all fun w =>
    let d := sextInt 32 (sectorDelta (ws.headD 0) w)
    decide (-(2 ^ (n - 1) : Int) ≤ d) && decide (d < (2 ^ (n - 1) : Int))

/-- Zero bytes up to whole billets. -/
def padBillets (l : List Nat) : List Nat := l ++ List.replicate ((32 - l.length % 32) % 32) 0

/-- The encoded form of a sector's words under an encoding code, byte by byte (R311). -/
def encodedForm (code : Nat) (ws : List Nat) : List Nat :=
  let w0 := ws.headD 0
  match code with
  | 0 => []
  | 1 => padBillets (splitBits 8 4 w0 ++ ws.map fun w => sectorDelta w0 w % 2 ^ 8)
  | 2 => padBillets (splitBits 8 4 w0 ++ ws.flatMap fun w => splitBits 8 2 (sectorDelta w0 w))
  | 3 => padBillets (splitBits 8 4 (packBits 1 (ws.map fun w => if w = 0 then 0 else 1)) ++
      (ws.filter (· != 0)).flatMap (splitBits 8 4))
  | _ => ws.flatMap (splitBits 8 4)

/-- The words that ZR gives back: those of the set map bits in order, zero elsewhere (R311). -/
def zrWords (map : Nat) : Nat → List Nat → List Nat
  | 0, _ => []
  | n + 1, l => if map % 2 = 1 then l.headD 0 :: zrWords (map / 2) n l.tail else 0 :: zrWords (map / 2) n l

/-- What the decoder gives for an encoded form (R311). -/
def decodedWords (code : Nat) (bytes : List Nat) : List Nat :=
  let v := packBits 8 bytes
  let w0 : Nat := v % 2 ^ 32
  match code with
  | 0 => List.replicate 32 0
  | 1 => (splitBits 8 32 (v / 2 ^ 32)).map fun d => lowBits 32 (Int.ofNat w0 + sextInt 8 d)
  | 2 => (splitBits 16 32 (v / 2 ^ 32)).map fun d => lowBits 32 (Int.ofNat w0 + sextInt 16 d)
  | 3 => zrWords w0 32 (splitBits 32 32 (v / 2 ^ 32))
  | _ => splitBits 32 32 v

/-- The billets that an encoded form fills. -/
def billetsOf (code : Nat) (ws : List Nat) : Nat := (encodedForm code ws).length / 32

/-- The candidates of R311 in the order in which ties go. -/
def encodings (ws : List Nat) : List Nat :=
  let k := (ws.filter (· != 0)).length
  (if k = 0 then [0] else []) ++ (if deltasFit 8 ws then [1] else []) ++ (if deltasFit 16 ws then [2] else []) ++
    (if k ≤ 31 then [3] else []) ++ [4]

/-- The encoding code and its billets (R311). -/
def encodeSector (ws : List Nat) : Nat × Nat :=
  let best := (encodings ws).foldl (fun b c => if billetsOf c ws < billetsOf b ws then c else b) ((encodings ws).headD 4)
  (best, billetsOf best ws)

/-- The stored form of a sector's bits: code plus 8 times billets; RAW where compression is off or the sector is
pinned (R310, R315). -/
def formOfBits (v : Nat) (cmp pinned : Bool) : Nat :=
  if !cmp || pinned then 4 + 8 * 4
  else let e := encodeSector (wordsOf v); e.1 + 8 * e.2

def sectorForm (s : State) (flat : Nat) (cmp pinned : Bool) : Nat := formOfBits (readBytes s flat 128) cmp pinned

def formBillets (e : Nat) : Nat := e / 8

/-! Home slices (R308, R310, R312). -/

def sline (s : State) (n line : Nat) : Option SLine := (sliceSt s n).lines.find? fun l => l.line == line
def heldSec (l : SLine) (sec : Nat) : Bool := l.held.getLsbD sec
def pinnedSec (l : SLine) (sec : Nat) : Bool := l.pinned.getLsbD sec
def dirtySec (l : SLine) (sec : Nat) : Bool := l.dirty.getLsbD sec
def formOf (l : SLine) (sec : Nat) : Nat := if sec = 0 then l.enc0 else l.enc1
def secBillets (l : SLine) (sec : Nat) : Nat := if heldSec l sec then formBillets (formOf l sec) else 0
def lineBillets (l : SLine) : Nat := secBillets l 0 + secBillets l 1
def setForm (l : SLine) (sec form : Nat) : SLine :=
  if sec = 0 then { l with enc0 := form, held := l.held ||| 1 } else { l with enc1 := form, held := l.held ||| 2 }
def secBit (sec : Nat) : BitVec 2 := BitVec.ofNat 2 (2 ^ sec)

/-- The line becomes its slice's most recent. -/
def slicePut (s : State) (n : Nat) (l : SLine) : State :=
  modSlice s n fun x => { x with lines := l :: x.lines.filter fun m => m.line != l.line }
def setLines (s : State) (n set : Nat) : List SLine := (sliceSt s n).lines.filter fun l => l.set == set
def setBillets (s : State) (n set : Nat) : Nat := ((setLines s n set).map lineBillets).sum
def countSlice (s : State) (n sel k : Nat) : State :=
  modSlice s n fun x => { x with counters := SMap.set 0 x.counters sel (SMap.get 0 x.counters sel + BitVec.ofNat 64 k) }
def countCluster (s : State) (cl sel k : Nat) : State :=
  modCluster s cl fun x =>
    { x with counters := SMap.set 0 x.counters sel (SMap.get 0 x.counters sel + BitVec.ofNat 64 k) }

/-- The slice that holds a line. -/
def holderOf (s : State) (line : Nat) : Option (Nat × SLine) :=
  s.slices.findSome? fun p => (p.2.lines.find? fun l => l.line == line).map fun l => (p.1, l)

/-- A watched line has changed (R314). -/
def touchWatch (s : State) (line : Nat) : State :=
  { s with ctxs := SMap.mapOn none (fun _ o => o.map fun x =>
      { x with watch := x.watch.map fun w => if w.served && w.line == line then { w with changed := true } else w }) s.ctxs }

def dropClusterLine (s : State) (cl line : Nat) : State :=
  modCluster s cl fun x => { x with cache := x.cache.filter (fun l => l.line != line)
                                    expander := x.expander.filter (· != line) }

/-- The clusters of the package named in a sharer vector. -/
def sharerClusters (pkg : Nat) (v : BitVec 128) : List Nat :=
  ((upFrom 0 128).filter fun i => v.getLsbD i).map fun i => pkg * 128 + i

/-- A write that is performed at pod scope: no engine reads an older value of its words any more (R102, R109), but those
of the core `by_` whose context stores, where it is a context's; it races with an engine's write that has not completed
(R108). -/
def endOlder (s : State) (by_ : Option Nat) (flat n : Nat) : State :=
  { s with racing := s.racing.map fun u =>
      if decide (flat / 8 ≤ u.addr) && decide (u.addr < (flat + n + 7) / 8) then { u with raced := true } else u
           cores := SMap.mapOn {} (fun c x => if by_ = some c then x else { x with
      unfenced := x.unfenced.filter fun u => !(decide (flat / 8 ≤ u.addr) && decide (u.addr < (flat + n + 7) / 8)) }) s.cores }

/-! Backing memory that has changed behind a held sector (R309). -/

/-- Bytes that differ behind a sector, each with its address. -/
def behindSector (s : State) (flat : Nat) : List (Nat × Option Byte) :=
  s.behind.filter fun p => p.1 / 128 == flat / 128
def clearBehind (s : State) (flat : Nat) : State :=
  { s with behind := s.behind.filter fun p => p.1 / 128 != flat / 128 }

/-- A byte of backing memory that differs. -/
def putBehind (m : List Host.Cell) (p : Nat × Option Byte) : List Host.Cell := p.2.elim m (writeByte m p.1)

/-- `n` bytes of host memory as the package's host port reads them, behind what a slice holds. -/
def portRead (s : State) : Nat → Nat → Nat
  | _, 0 => 0
  | k, n + 1 => ((SMap.get none s.behind k).getD (readByte s k)).toNat + 256 * portRead s (k + 1) n

/-- Bytes that the package's host port writes (R102, R314). -/
def portWrite (s : State) (k n v : Nat) : State :=
  let s := { writeBytes (endOlder s none k n) k n v with
    behind := s.behind.filter fun p => !(decide (k ≤ p.1) && decide (p.1 < k + n)) }
  (upFrom (k / 256) ((k + n + 255) / 256 - k / 256)).foldl touchWatch s

/-- The words of a sector that are poisoned in the slice only. -/
def copyMarked (s : State) (flat : Nat) : List Nat := (s.copyMarks.filter fun p => p.1 / 16 == flat / 128).map Prod.fst

-- DEDUCED, log 62. Unsafe.
/-- A sector is written back with its marks: what its slice held is in memory now (R387). -/
def settleMarks (s : State) (flat : Nat) : State :=
  { s with copyMarks := s.copyMarks.filter fun p => p.1 / 16 != flat / 128 }

-- DEDUCED, log 62. Unsafe.
/-- A clean sector leaves its slice: what backing memory holds is read from now on, without the marks of the copy (R387). -/
def revealSector (s : State) (flat : Nat) : State :=
  let s := (behindSector s flat).foldl (fun s p => endOlder s none p.1 1) s
  let s := { s with mem := (behindSector s flat).foldl putBehind s.mem
                    poison := (copyMarked s flat).foldl (fun m w => SMap.set false m w false) s.poison }
  settleMarks (clearBehind s flat) flat

/-- The sector of a line at a flat address. -/
def secFlat (line sec : Nat) : Nat := line * 256 + 128 * sec

/-- A dirty sector is written back, read from the pool (R308, R316). -/
def writeBack (s : State) (n : Nat) (l : SLine) (sec : Nat) : State :=
  if heldSec l sec && dirtySec l sec then
    countSlice (settleMarks (clearBehind s (secFlat l.line sec)) (secFlat l.line sec)) n 12 (32 * formBillets (formOf l sec))
  else s

/-- A held sector leaves its slice, written back first where it is dirty. -/
def releaseSector (s : State) (n : Nat) (l : SLine) (sec : Nat) : State :=
  if heldSec l sec then revealSector (writeBack s n l sec) (secFlat l.line sec) else s

-- DEDUCED, log 55. Safe.
/-- Evict a line: write back, back-invalidate, count (R308, R312). `sel` is counter 9 or 10. -/
def evictLine (s : State) (n sel : Nat) (l : SLine) : State :=
  let cs := sharerClusters s.pkg l.sharers
  let s := cs.foldl (fun s cl => dropClusterLine s cl l.line) s
  let s := releaseSector (releaseSector s n l 0) n l 1
  let s := modSlice s n fun x => { x with lines := x.lines.filter fun m => m.line != l.line }
  touchWatch (countSlice (countSlice s n sel 1) n 11 cs.length) l.line

-- DEDUCED, log 55. Safe.
/-- The least recently used line of a set that may be evicted: none that the event works on or that holds a pinned
sector (R312, R314). -/
def victim (s : State) (n set : Nat) (keep : List Nat) : Option SLine :=
  ((setLines s n set).filter fun l => !keep.contains l.line && l.pinned == 0).getLast?

/-- Evict until the set's pool holds `need` more billets (R312). -/
def makeRoom (n set sel : Nat) (keep : List Nat) (need : Nat) : Nat → State → State
  | 0, s => s
  | fuel + 1, s =>
    if setBillets s n set + need ≤ 64 then s
    else match victim s n set keep with
      | none => s
      | some l => makeRoom n set sel keep need fuel (evictLine s n sel l)

/-- A free tag in a set of 24, by an eviction where all are in use (R312). -/
def freeTag (s : State) (n set : Nat) (keep : List Nat) : State :=
  if (setLines s n set).length < 24 then s
  else match victim s n set keep with
    | some l => evictLine s n 10 l
    | none => s

-- DEDUCED, log 55. Safe.
/-- The sector becomes held at its home slice, filled from backing memory where it was not (R308, R312); answers
whether a fill was made. -/
def holdSector (s : State) (n : Nat) (keep : List Nat) (t : Target) : Bool × State :=
  let line := t.flat / 256
  let sec := t.flat / 128 % 2
  let set := sliceSet t.off
  let fill (s : State) (l : SLine) : Bool × State :=
    let form := sectorForm s (secFlat line sec) t.cmp false
    let s := makeRoom n set 10 (line :: keep) (formBillets form) 24 s
    (true, countSlice (slicePut s n { setForm l sec form with cmp := t.cmp }) n 13 (32 * formBillets form))
  match sline s n line with
  | some l => if heldSec l sec then (false, slicePut s n l) else fill s l
  | none => fill (freeTag s n set (line :: keep))
      { line := line, set := set, cmp := t.cmp, held := 0, enc0 := 0, enc1 := 0, dirty := 0, sharers := 0, pinned := 0 }

/-- A request has been served, without or with a backing-memory access (R316). -/
def countServed (s : State) (n : Nat) (filled : Bool) : State := countSlice s n (if filled then 16 else 15) 1

/-- Bytes read from the billet pool for a sector (R316). -/
def countPoolRead (s : State) (n : Nat) (t : Target) : State :=
  match sline s n (t.flat / 256) with
  | some l => countSlice s n 12 (32 * secBillets l (t.flat / 128 % 2))
  | none => s

/-- Both sectors of a target's line. -/
def lineSectors (t : Target) : List Target :=
  (upFrom 0 2).map fun k => { t with flat := t.flat / 256 * 256 + 128 * k, off := t.off / 256 * 256 + 128 * k }

/-- A line is asked for and nothing of it is read (R170, R319): one request for the sectors named. -/
def askSectors (s : State) (n : Nat) (ts : List Target) : State :=
  let r := ts.foldl (fun (p : Bool × State) t =>
    let q := holdSector p.2 n [] t
    (p.1 || q.1, q.2)) (false, s)
  countServed r.2 n r.1

/-- A read served by the home slice. -/
def sliceRead (s : State) (n : Nat) (t : Target) : State :=
  let r := holdSector s n [] t
  countPoolRead (countServed r.2 n r.1) n t

/-! The cluster cache and the expander (R305, R306). -/

def cacheWays (s : State) (cl : Nat) : Nat :=
  ((upFrom 0 32).filter fun b => SMap.get 1 (clusterSt s cl).modes b == 1).length

/-- The bits of a sector as a cluster cache holds it: a copy of another package's page keeps what it was filled with
(R96). -/
def clineBits (s : State) (l : CLine) (sec : Nat) : Nat :=
  match l.copy with
  | some v => v / 2 ^ (1024 * sec) % 2 ^ 1024
  | none => readBytes s (secFlat l.line sec) 128

def clineBillets (s : State) (l : CLine) : Nat :=
  ((upFrom 0 2).map fun sec =>
    if l.sectors.getLsbD sec then formBillets (formOfBits (clineBits s l sec) l.cmp false) else 0).sum

def csetLines (s : State) (cl set : Nat) : List CLine := (clusterSt s cl).cache.filter fun l => l.set == set
def cacheLineOf (s : State) (cl line : Nat) : Option CLine := (clusterSt s cl).cache.find? fun l => l.line == line

/-- A cluster stops being a sharer of a line (R308). -/
def unshare (s : State) (cl line : Nat) : State :=
  { s with slices := SMap.mapOn {} (fun _ x => { x with lines := x.lines.map fun l =>
      if l.line == line then { l with sharers := l.sharers &&& ~~~(BitVec.ofNat 128 (2 ^ (cl % 128))) } else l }) s.slices }

/-- Replace least recently used lines until a set fits its tags and billets (R305); counted when an
update grew a sector (counter 5). -/
def trimCluster (cl set keep : Nat) (grow : Bool) : Nat → State → State
  | 0, s => s
  | fuel + 1, s =>
    let ls := csetLines s cl set
    let b := cacheWays s cl
    if ls.length ≤ 2 * b && decide ((ls.map (clineBillets s)).sum ≤ 8 * b) then s
    else match (ls.filter fun l => l.line != keep).getLast? with
      | none => s
      | some l =>
        let s := unshare (dropClusterLine s cl l.line) cl l.line
        trimCluster cl set keep grow fuel (if grow then countCluster s cl 5 1 else s)

/-- A sector of a line enters a cluster cache, its copy beside it for another package's page. -/
def fillCline (s : State) (cl : Nat) (t : Target) : State :=
  let line := t.flat / 256
  let sec := t.flat / 128 % 2
  let l : CLine := (cacheLineOf s cl line).getD
    { line := line, set := bitsOf t.off 16 8, cmp := t.cmp, sectors := 0, copy := if t.rc then some 0 else none }
  let l := { l with
    sectors := l.sectors ||| secBit sec
    copy := l.copy.map fun v => putBits v (1024 * sec + 1023) (1024 * sec) (readBytes s (secFlat line sec) 128) }
  trimCluster cl l.set line false 64
    (modCluster s cl fun x => { x with cache := l :: x.cache.filter fun l => l.line != line })

/-- A cluster becomes a sharer of a line (R308). -/
def share (s : State) (n cl line : Nat) : State :=
  modSlice s n fun x => { x with lines := x.lines.map fun l =>
    if l.line == line then { l with sharers := l.sharers ||| BitVec.ofNat 128 (2 ^ (cl % 128)) } else l }

-- DEDUCED, log 55. Safe.
/-- A read through the cluster port: the cluster cache, filled a sector at a time from the home slice `n`, or from
another package where there is none (R96, R305). -/
def clusterRead (s : State) (cl : Nat) (n : Option Nat) (t : Target) : State :=
  let line := t.flat / 256
  let s := countCluster s cl 3 1
  match cacheLineOf s cl line with
  | some l =>
    if l.sectors.getLsbD (t.flat / 128 % 2) then
      modCluster (countCluster s cl 4 1) cl fun x => { x with cache := l :: x.cache.filter fun m => m.line != line }
    else fillCline (n.elim s fun n => share (sliceRead s n t) n cl line) cl t
  | none =>
    let s := n.elim s fun n => sliceRead s n t
    if cacheWays s cl = 0 then s else fillCline (n.elim s fun n => share s n cl line) cl t

/-- A thread or vector load of a line that the cluster cache holds is served from the expander (R306). -/
def expanderRead (s : State) (cl line : Nat) : State :=
  if (cacheLineOf s cl line).isNone then s
  else
    let s := countCluster s cl 1 1
    let s := if (clusterSt s cl).expander.contains line then countCluster s cl 2 1 else s
    modCluster s cl fun x => { x with expander := (line :: x.expander.filter (· != line)).take 64 }

/-- A read at a target by an agent that reads at the home slice: an engine, a watch-load, a walker, a millwright core
(R313). -/
def noteSlice (s : State) (t : Target) : State :=
  match t.home with
  | none => s
  | some n => sliceRead s n t

/-- A target whose lines a cluster's cache may hold (R305, R328, R329). -/
def cachedAt (s : State) (cl : Nat) (t : Target) : Bool :=
  pkgOfCluster cl == s.pkg && !t.unc && (t.home.isSome || t.rc)

-- DEDUCED, log 55. Safe.
/-- The record of a fetch at a target: through the cluster cache, or at the home slice for an uncached page. -/
def noteFetch (s : State) (cl : Nat) (t : Target) : State :=
  if cachedAt s cl t then clusterRead s cl t.home t else noteSlice s t

/-- The record of a thread or vector load at a target (R305, R306). -/
def noteRead (s : State) (cl : Nat) (t : Target) : State :=
  if cachedAt s cl t then expanderRead (clusterRead s cl t.home t) cl (t.flat / 256) else noteSlice s t

/-- The bytes that a load or fetch reads at a target: of a page of another package, what the cluster's copy holds
(R96). -/
def loadBytes (s : State) (cl : Nat) (t : Target) (n : Nat) : Nat :=
  match cacheLineOf s cl (t.flat / 256) with
  | some l => match l.copy with
    | some v => if t.rc && l.sectors.getLsbD (t.flat / 128 % 2) then v / 2 ^ (8 * (t.flat % 256)) % 2 ^ (8 * n)
      else readBytes s t.flat n
    | none => readBytes s t.flat n
  | none => readBytes s t.flat n

-- DEDUCED, log 55. Safe.
/-- After a write to a held sector: every other sharer has dropped its copy, the sector is re-encoded and dirty,
watches change, the writer's copy is updated (R305, R308, R312, R314). `keep` are the other lines of the event. -/
def noteWrite (s : State) (cl : Option Nat) (n : Nat) (keep : List Nat) (t : Target) : State :=
  let line := t.flat / 256
  let sec := t.flat / 128 % 2
  let s := touchWatch s line
  match sline s n line with
  | none => s
  | some l =>
    let mine := match cl with
      | some c => BitVec.ofNat 128 (2 ^ (c % 128))
      | none => 0
    let s := (sharerClusters s.pkg (l.sharers &&& ~~~mine)).foldl (fun s c => dropClusterLine s c line) s
    let form := sectorForm s (secFlat line sec) t.cmp (pinnedSec l sec)
    let grow := formBillets form - formBillets (formOf l sec)
    let s := makeRoom n l.set 9 (line :: keep) grow 24 s
    let s := slicePut s n { setForm l sec form with
      cmp := t.cmp, sharers := l.sharers &&& mine, dirty := l.dirty ||| secBit sec }
    let s := countSlice s n 13 (32 * formBillets form)
    match cl.bind fun c => (cacheLineOf s c line).map fun d => (c, d.set) with
    | none => s
    | some (c, set) => trimCluster c set line true 64 s

/-- Who writes at a home slice: a context on a core, an engine or a port of a cluster, or neither. -/
inductive Writer where
  | context (core : Nat)
  | cluster (cl : Nat)
  | other
  deriving DecidableEq, Repr

def Writer.core : Writer → Option Nat
  | .context c => some c
  | _ => none
def Writer.port : Writer → Option Nat
  | .context c => some (clusterOf c)
  | .cluster cl => some cl
  | .other => none

/-- A write of `n` bytes of one sector at a target, as one event at the home slice (R313); `keep` are the other lines of
the event and `asked` says whether the write is a request of its own (R316). -/
def homeWriteIn (keep : List Nat) (asked : Bool) (s : State) (w : Writer) (t : Target) (n v : Nat) : State :=
  let s := endOlder s w.core t.flat n
  match t.home with
  | none => touchWatch (writeBytes s t.flat n v) (t.flat / 256)
  | some h =>
    let r := holdSector s h keep t
    let s := if asked then countServed r.2 h r.1 else r.2
    noteWrite (writeBytes s t.flat n v) w.port h keep t

/-- A write as a request of its own. -/
def homeWrite (s : State) (w : Writer) (t : Target) (n v : Nat) : State := homeWriteIn [] true s w t n v

/-! Device memory by its address: a die's DRAM is reached through its slices only (R6, R17). -/

/-- Words written to a die's DRAM, a sector at a time. -/
def devWrite (s : State) (flat v : Nat) : Nat → State
  | 0 => s
  | n + 1 =>
    let s := devWrite s flat v n
    homeWrite s .other (dramTarget (flat + 8 * n)) 8 (v / 2 ^ (64 * n) % 2 ^ 64)

/-- `n` sectors of a die's DRAM cleared. -/
def devClear (s : State) (flat : Nat) : Nat → State
  | 0 => s
  | n + 1 => homeWrite (devClear s flat n) .other (dramTarget (flat + 128 * n)) 128 0

/-- The record of a read of `n` sectors of a die's DRAM. -/
def devRead (s : State) (flat : Nat) : Nat → State
  | 0 => s
  | n + 1 => noteSlice (devRead s flat n) (dramTarget (flat + 128 * n))

end Sys2Proof.Machine
end

