-- ==== Sys2Proof/Machine/Ops.lean ====
section
/-! DEFINITION. Named operations over the state: frames and registers, long results, the end of an issue, taking a
trap and returning from one. -/

namespace Sys2Proof.Machine

/-! Frames (R118 to R121). A frame's word `w` is its bytes 8w to 8w + 7. -/

-- DESIGN CHOICE, log 14. Safe.
def frameAddr (f w : Nat) : Nat := f * 8192 + 8 * w
def wPc : Nat := 96
def wStatus : Nat := 97
def wTvec : Nat := 98
def wEngbind : Nat := 99
def wTscr : Nat := 100
def wCtxid : Nat := 101
def wEpc : Nat := 112
def wEcode : Nat := 113
def wEaddr : Nat := 114
def wEinst0 : Nat := 115
def wEinst1 : Nat := 116
def wEstat : Nat := 117
def wAccSave : Nat := 640
def wRingBase : Nat := 641
def wRing : Nat := 642

/-- Sequential flow (R50). -/
def pcNext (pc : Word) : Word :=
  if fld pc 2 0 < 4 then pc + 1 else BitVec.ofNat 64 (fld pc 63 6 * 64 + 64)

/-- A word written whole in a bank; its poison mark is cleared (R387). -/
def bankPut (b : Bank) (w : Nat) (x : Word) : Bank :=
  { b with words := SMap.set 0 b.words w x
           poison := b.poison &&& ~~~(BitVec.ofNat 640 (2 ^ w))
           valid := b.valid ||| BitVec.ofNat 40 (2 ^ (w / 16))
           dirty := b.dirty ||| BitVec.ofNat 40 (2 ^ (w / 16)) }

/-- Whether a bank holds the frame's line of word `w`. -/
def bankHas (b : Bank) (f w : Nat) : Bool :=
  b.frame == some f && decide (w < 640) && b.valid.getLsbD (w / 16)

/-- Word `w` of a frame, wherever the frame is (R41, R124). -/
def readFrame (s : State) (f w : Nat) : Word :=
  match ctxOf s f with
  | none => readWord s (frameAddr f w)
  | some x =>
    let sl := slotOf s x.core x.slot
    if bankHas sl.act f w then SMap.get 0 sl.act.words w
    else if bankHas sl.shadow f w then SMap.get 0 sl.shadow.words w
    else readWord s (frameAddr f w)

/-- A word of a frame in memory, written at its home slice (R17, R124). -/
def writeStored (s : State) (f w : Nat) (x : Word) : State := devWrite s (frameAddr f w) x.toNat 1

def writeFrame1 (s : State) (f w : Nat) (x : Word) : State :=
  match ctxOf s f with
  | none => writeStored s f w x
  | some c =>
    let sl := slotOf s c.core c.slot
    if bankHas sl.act f w then modSlot s c.core c.slot fun sl => { sl with act := bankPut sl.act w x }
    else if bankHas sl.shadow f w then
      modSlot s c.core c.slot fun sl => { sl with shadow := bankPut sl.shadow w x }
    else writeStored s f w x

/-- A status word as the trailing copy of a pair holds it: its own slot (R391). -/
def trailStatus (x : Word) : Word := BitVec.ofNat 64 (putBits x.toNat 15 12 (fld x 15 12 + 8))

/-- Write word `w` of a frame where the frame is (R124), and of its trailing copy (R392). -/
def writeFrame (s : State) (f w : Nat) (x : Word) : State :=
  let s' := writeFrame1 s f w x
  match (ctxOf s f).bind Ctx.twin with
  | none => s'
  | some t =>
    writeFrame1 s' t w (if w = wStatus then trailStatus x else x)

/-- Whether a slot's bank holds word `w` of a frame. -/
def inBank (s : State) (f w : Nat) : Bool :=
  match ctxOf s f with
  | none => false
  | some x => bankHas (slotOf s x.core x.slot).act f w || bankHas (slotOf s x.core x.slot).shadow f w

/-- The record of a read of a frame's word: one that no bank holds is read at its home slice (R6, R17, R124). -/
def noteFrame (s : State) (f w : Nat) : State := if inBank s f w then s else noteSlice s (dramTarget (frameAddr f w))

def readFrames (s : State) (f w n : Nat) : Nat :=
  packBits 64 ((upFrom w n).map fun k => (readFrame s f k).toNat)

def writeFrames (s : State) (f : Nat) : Nat → Nat → Nat → State
  | _, 0, _ => s
  | w, n + 1, v => writeFrames (writeFrame s f w (BitVec.ofNat 64 v)) f (w + 1) n (v >>> 64)

/-! Poison marks of frame words (R387). -/

/-- Whether word `w` of a frame is poisoned, wherever the frame is. -/
def wordMarked (s : State) (f w : Nat) : Bool :=
  match ctxOf s f with
  | none => poisoned s (frameAddr f w) 8
  | some x =>
    let sl := slotOf s x.core x.slot
    if bankHas sl.act f w then sl.act.poison.getLsbD w
    else if bankHas sl.shadow f w then sl.shadow.poison.getLsbD w
    else poisoned s (frameAddr f w) 8

def markBank (b : Bank) (w : Nat) : Bank := { b with poison := b.poison ||| BitVec.ofNat 640 (2 ^ w) }

/-- Poison word `w` of a frame, wherever the frame is. -/
def markWord (s : State) (f w : Nat) : State :=
  let stored := { s with poison := SMap.set false s.poison (frameAddr f w / 8) true }
  match ctxOf s f with
  | none => stored
  | some x =>
    let sl := slotOf s x.core x.slot
    if bankHas sl.act f w then modSlot s x.core x.slot fun sl => { sl with act := markBank sl.act w }
    else if bankHas sl.shadow f w then modSlot s x.core x.slot fun sl => { sl with shadow := markBank sl.shadow w }
    else stored

/-- A word written in part: poisoned, it stays so, in each copy of a pair (R387, R392). -/
def writePart (s : State) (f w : Nat) (x : Word) : State :=
  let s' := writeFrame s f w x
  let s' := if wordMarked s f w then markWord s' f w else s'
  match (ctxOf s f).bind Ctx.twin with
  | some t => if wordMarked s t w then markWord s' t w else s'
  | none => s'

/-! Registers by specifier (R57, R118). -/

/-- The frame words of a register: first and count; none for `g0`, `p0` and no register. -/
def regWords (spec : BitVec 8) : Nat × Nat :=
  if isG spec then (idx spec, if idx spec = 0 then 0 else 1)
  else if isP spec then (64 + 2 * (idx spec - 1), if idx spec = 0 then 0 else 2)
  else if isV spec then (128 + 16 * idx spec, 16)
  else (0, 0)

/-- The register's value: `g0` reads zero, `p0` all ones (R57). -/
def readReg (s : State) (f : Nat) (spec : BitVec 8) : Nat :=
  if isP spec && idx spec == 0 then 2 ^ 128 - 1
  else readFrames s f (regWords spec).1 (regWords spec).2

/-- Write a register; `g0` and `p0` discard (R57). -/
def writeReg (s : State) (f : Nat) (spec : BitVec 8) (v : Nat) : State :=
  writeFrames s f (regWords spec).1 (regWords spec).2 v

def gSpec (k : Nat) : BitVec 8 := BitVec.ofNat 8 k
def pSpec (k : Nat) : BitVec 8 := BitVec.ofNat 8 (128 + k)
def vSpec (k : Nat) : BitVec 8 := BitVec.ofNat 8 (64 + k)

def readG (s : State) (f k : Nat) : Word := BitVec.ofNat 64 (readReg s f (gSpec k))
def allOnes128 : Nat := 2 ^ 128 - 1

/-- A segment register (R97), its stored attribute bits spread as R118 lays them out. -/
def readSeg (s : State) (f k : Nat) : Seg :=
  let a := bitsOf (readFrames s f 78 2) (16 * k + 15) (16 * k)
  { base := readFrame s f (80 + 2 * k)
    limit := readFrame s f (81 + 2 * k)
    attr := BitVec.ofNat 32 (bitsOf a 15 6 * 2 ^ 16 + bitsOf a 5 0) }

def writeSeg (s : State) (f k : Nat) (g : Seg) : State :=
  let a := fld g.attr 25 16 * 2 ^ 6 + fld g.attr 5 0
  let v := putBits (readFrames s f 78 2) (16 * k + 15) (16 * k) a
  let w := k / 4
  let s := writePart s f (78 + w) (BitVec.ofNat 64 (v >>> (64 * w)))
  writeFrame (writeFrame s f (80 + 2 * k) g.base) f (81 + 2 * k) g.limit

/-! System state of a frame. -/

def ctxPc (s : State) (f : Nat) : Word := readFrame s f wPc
def statusOf (s : State) (f : Nat) : Nat := (readFrame s f wStatus).toNat
def stSlot (st : Nat) : Nat := bitsOf st 15 12
def stPriv (st : Nat) : Nat := bitsOf st 7 6
def stInh (st : Nat) : Bool := bitOf st 5
def stPmask (st : Nat) : Bool := bitOf st 4
def stPpend (st : Nat) : Bool := bitOf st 3
def stApend (st : Nat) : Bool := bitOf st 2
def setStatus (s : State) (f hi lo v : Nat) : State :=
  writePart s f wStatus (BitVec.ofNat 64 (putBits (statusOf s f) hi lo v))
/-- What a scrub of its registers has left the context as: its identity and privilege. -/
def keptOf (s : State) (f : Nat) : Option (Word × BitVec 2) := (ctxOf s f).bind Ctx.kept

-- DESIGN CHOICE, log 75. Unsafe.
/-- The identity of a context (R119): its `sys.ctxid`, or what that was before its registers were scrubbed (R388). -/
def ctxIdent (s : State) (f : Nat) : Word :=
  match keptOf s f with
  | some k => k.1
  | none => readFrame s f wCtxid

/-- The privilege of a context (R130), which a scrub leaves. -/
def ctxPriv (s : State) (f : Nat) : Nat :=
  match keptOf s f with
  | some k => k.2.toNat
  | none => stPriv (statusOf s f)

def supervisor (s : State) (f : Nat) : Bool := ctxPriv s f == 1
def ctxKind (s : State) (f : Nat) : Nat := fld (ctxIdent s f) 15 14
def ctxClass (s : State) (f : Nat) : Nat := fld (ctxIdent s f) 13 11
/-- The control context of its task, a supervisor's among them (R130). -/
def isControl (s : State) (f : Nat) : Bool := ctxKind s f == 0 || ctxKind s f == 3

/-- Pending entries of the context's fault ring (R121, R333); it is suspended while any is (R332). -/
def ringHead (s : State) (f : Nat) : Nat := fld (readFrame s f wRing) 15 0
def ringTail (s : State) (f : Nat) : Nat := fld (readFrame s f wRing) 31 16
def ringCount (s : State) (f : Nat) : Nat := fld (readFrame s f wRing) 47 32

/-! Pending long results (R40, R119). -/

def entryOf (s : State) (f k : Nat) : Nat :=
  bitsOf (readFrame s f (102 + k / 2)).toNat (32 * (k % 2) + 31) (32 * (k % 2))
def setEntry (s : State) (f k v : Nat) : State :=
  writePart s f (102 + k / 2)
    (BitVec.ofNat 64 (putBits (readFrame s f (102 + k / 2)).toNat (32 * (k % 2) + 31) (32 * (k % 2)) v))
def entryFree (s : State) (f k : Nat) : Bool := !bitOf (entryOf s f k) 31
/-- No long result of the context is outstanding. -/
def noPending (s : State) (f : Nat) : Bool := (upFrom 0 16).all (entryFree s f)
/-- The entry a new long result takes; none when 16 are outstanding (R40). -/
def freeEntry (s : State) (f : Nat) : Option Nat := (upFrom 0 16).find? (entryFree s f)
def openEntry (s : State) (f k : Nat) (d0 d1 : BitVec 8) : State :=
  setEntry s f k (2 ^ 31 + d1.toNat * 2 ^ 8 + d0.toNat)

/-- A register written in part: words that were poisoned and are not written whole stay so (R387). `whole` says which
of the register's words are. -/
def keepMarks (before : State) (f : Nat) (spec : BitVec 8) (whole : Nat → Bool) (s : State) : State :=
  (upFrom 0 (regWords spec).2).foldl (fun s k =>
    let w := (regWords spec).1 + k
    if !whole k && wordMarked before f w then markWord s f w else s) s

/-- Bits `[lo + width - 1 : lo]` of a register of one frame. -/
def writeBits1 (s : State) (f : Nat) (r : RegWrite) : State :=
  let whole (k : Nat) : Bool := decide (r.lo ≤ 64 * k) && decide (64 * k + 64 ≤ r.lo + r.width)
  let v := putBits (readReg s f r.spec) (r.lo + r.width - 1) r.lo r.val
  let s := if (upFrom 0 (regWords r.spec).2).all whole then s else noteFrame s f (regWords r.spec).1
  let s' := (upFrom 0 (regWords r.spec).2).foldl (fun s k =>
    writeFrame1 s f ((regWords r.spec).1 + k) (BitVec.ofNat 64 (v >>> (64 * k)))) s
  keepMarks s f r.spec whole s'

/-- Bits `[lo + width - 1 : lo]` of a register (R41), in both copies of a pair (R392). -/
def writeRegBits (s : State) (f : Nat) (r : RegWrite) : State :=
  if r.width = 0 then s
  else match (ctxOf s f).bind Ctx.twin with
    | none => writeBits1 s f r
    | some t => writeBits1 (writeBits1 s f r) t r

/-- A whole register. -/
def regWrite (spec : BitVec 8) (v : Nat) : RegWrite :=
  { spec := spec, lo := 0, width := 64 * (regWords spec).2, val := v }

/-- A long result sets out for its frame, to land at a LONG_RESULT_RETURN (R41). -/
def sendResult (s : State) (f e : Nat) (ws : List RegWrite) (late : List TrapInfo) : State :=
  { s with rets := s.rets ++ [{ frame := f, entry := e, writes := ws, ready := true, late := late, ord := s.ord }]
           ord := s.ord + 1 }

/-! The end of an issue. -/

def setEnd (s : State) (e : IssueEnd) : State := { s with iss := { s.iss with res := e } }

/-- The instruction has completed: the program counter moves on (R50), `sw` parks the slot (R39) and
a liveness mask is discarded (R125). -/
def finish (h : Hdr) (f : Nat) (s : State) : State :=
  setEnd (modCtx (writeFrame s f wPc s.iss.next) f fun x =>
    { x with wait := none, issued := false, after := none, parked := x.parked || h.sw, live := none }) .completed

/-- The instruction holds at issue: nothing else happens, and it is issued again (R36, R40). -/
def hold (w : Wait) (f : Nat) (s : State) : State :=
  setEnd (modCtx s f fun x => { x with wait := some w, issued := x.issued && x.wait.isSome }) .held

/-- The instruction has issued and blocks until its wait is over (R36, R192); a liveness mask is discarded (R125). -/
def block (w : Wait) (f : Nat) (s : State) : State :=
  setEnd (modCtx s f fun x => { x with wait := some w, issued := true, live := none }) .blocked

/-- An instruction whose long result is outstanding; a seventeenth holds at issue (R40). -/
def withEntry (d0 d1 : BitVec 8) (f : Nat) (s : State) (body : Nat → State → State) : State :=
  match freeEntry s f with
  | none => hold .retry f s
  | some e => body e (openEntry s f e d0 d1)

/-- A long result whose value is fixed at issue. -/
def finishLong (h : Hdr) (d : BitVec 8) (v : Nat) (f : Nat) (s : State) : State :=
  withEntry d 0 f s fun e s => finish h f (sendResult s f e [regWrite d v] [])

/-! Taking a trap (R131 to R137). -/

/-- `sys.ecode` (R120). -/
def codeWord (t : TrapInfo) : Word :=
  BitVec.ofNat 64 (t.code.toNat + t.cause.toNat * 2 ^ 8 + (if t.async then 2 ^ 16 else 0))

/-- Codes delivered to the supervisor whatever the handler (R131): `0x02` of the line word has cause 0. -/
def supervisorCode (t : TrapInfo) : Bool :=
  t.code == 0x01 || t.code == 0x0B || (t.code == 0x02 && t.cause == 0)

/-- Whether the handler takes the trap (R133). -/
def delivered (s : State) (f : Nat) (t : TrapInfo) : Bool :=
  t.force || (!supervisorCode t && readFrame s f wTvec != 0 && !stInh (statusOf s f))

def postMail (s : State) (part : Nat) (ctxid pc code addr : Word) : State :=
  { s with mail := s.mail ++ [{ part := part, ctxid := ctxid, pc := pc, code := code, addr := addr }] }

/-- The context parks and a fault message is posted; its trap frame stays (R133). -/
def escalate (s : State) (f : Nat) (t : TrapInfo) : State :=
  match ctxOf s f with
  | none => s
  | some x =>
    postMail (modCtx s f fun x => { x with park := some (.escalated t), wait := none })
      (ctxPart s x) (ctxIdent s f) t.pc (codeWord t) t.addr

-- DESIGN CHOICE, log 74. Unsafe.
/-- Handler entry: the trap frame written, inh set, control at `sys.tvec`, checked under R53 before
the first instruction issues (R53, R133). The privilege stays the context's own (R130). -/
def enterHandler (s : State) (f : Nat) (t : TrapInfo) : State :=
  let s := writeFrame s f wEpc t.pc
  let s := writeFrame s f wEcode (codeWord t)
  let s := writeFrame s f wEaddr t.addr
  let s := writeFrame s f wEinst0 (BitVec.ofNat 64 (if t.async then 0 else fld t.word 63 0))
  let s := writeFrame s f wEinst1 (BitVec.ofNat 64 (if t.async then 0 else fld t.word 95 64))
  let s := writeFrame s f wEstat (readFrame s f wStatus)
  let s := setStatus s f 5 5 1
  let s := writeFrame s f wPc (readFrame s f wTvec)
  modCtx s f fun x => { x with wait := none, parked := false, entry := true }

/-- A capsule goes into the fabric at a die diverted or bounced, or is discarded and counted at its source
core (R348). -/
def throwCapsule (s : State) (c : Capsule) (die : Nat) (holder : Option Nat) (flt : CapFault) : State :=
  match divertCapsule s.time c flt with
  | some c => { s with caps := s.caps ++ [{ cap := c, die := die, holder := holder }] }
  | none => modCore s (capSource c) fun x =>
      { x with refused := SMap.set 0 x.refused 2 (SMap.get 0 x.refused 2 + 1) }

-- DESIGN CHOICE, log 82. Unsafe.
/-- The tile of a current capsule, where CAPRECV put it (R351): the words that its memory holds now; a tile that went
through a FIFO bank as it was received, and any unit past it open. -/
def currentTile (s : State) (x : Ctx) (c : Capsule) : List Word :=
  let n := 16 * capUnits c
  match x.capAt with
  | some flat => (splitBits 64 n (readBytes s flat (8 * n))).map (BitVec.ofNat 64)
  | none => (upFrom 0 n).map fun k => c.tile.getD k (BitVec.ofNat 64 (Config.pick (s.tick * 2 ^ 80 + k)))

-- DEDUCED, log 50. Unsafe.
/-- A context that holds a current capsule loses it, diverted with the code (R351). -/
def divertCurrent (s : State) (f code cause : Nat) (detail pc : Nat) : State :=
  match ctxOf s f with
  | none => s
  | some x => match x.cap with
    | none => s
    | some c => throwCapsule (modCtx s f fun x => { x with cap := none }) { c with tile := currentTile s x c } (dieOf x.core) none
        { code := code, cause := cause, atCore := some x.core, detail := detail, pc := pc }

-- DEDUCED, log 47. Unsafe.
/-- A ring operation that has not started for the context is withdrawn (R248). -/
def withdrawArm (s : State) (f : Nat) : State :=
  match ctxOf s f with
  | none => s
  | some x => match (coreOf s x.core).mx with
    | some m => if m.frame = f && !m.running then modCore s x.core fun c => { c with mx := none } else s
    | none => s

/-- A bank scrubbed to zero with its marks cleared (R388). -/
def scrubBank (b : Bank) : Bank := { b with words := [], poison := 0, dirty := b.dirty ||| b.valid }

-- DESIGN CHOICE, log 75. Unsafe.
/-- Every line of a frame that its slot's banks hold is scrubbed (R388); the context is what it was (R24, R130). -/
def scrubFrame (s : State) (f : Nat) : State :=
  let who := (ctxIdent s f, BitVec.ofNat 2 (ctxPriv s f))
  match ctxOf s f with
  | none => s
  | some x => modSlot (modCtx s f fun x => { x with kept := some who }) x.core x.slot fun sl =>
      { sl with act := if sl.act.frame == some f then scrubBank sl.act else sl.act
                shadow := if sl.shadow.frame == some f then scrubBank sl.shadow else sl.shadow }

-- DESIGN CHOICE, log 92. Unsafe.
/-- The trap is taken now: an arming is withdrawn, the watch set breaks (R168), a current capsule is diverted with code 2
(R351), and the handler is entered or the trap escalates (R133). -/
def enterTrap (s : State) (f : Nat) (t : TrapInfo) : State :=
  let s := if t.scrub then scrubFrame s f else s
  let s := modCtx (withdrawArm s f) f fun x => { x with broken := x.broken || !x.watch.isEmpty, live := none }
  let s := if t.keep then s else divertCurrent s f 2 0 (codeWord t).toNat t.pc.toNat
  if delivered s f t then enterHandler s f t else escalate s f t

/-- The refused and poisoned loads of the run that the context is in: the handler's run has its own (R115). -/
def runLate (s : State) (f : Nat) (x : Ctx) : List (Nat × TrapInfo) := if stInh (statusOf s f) then x.hlate else x.late

/-- The first of them is taken and the others are left for later boundaries (R115). -/
def takeLate (s : State) (f : Nat) (t : TrapInfo) (rest : List (Nat × TrapInfo)) : State :=
  let inh := stInh (statusOf s f)
  enterTrap (modCtx s f fun x =>
    { x with trap := none, late := if inh then x.late else [], hlate := if inh then [] else x.hlate
             lateDue := x.lateDue ++ rest }) f t

/-- Takes the earliest fault of the run in program order: a refused or poisoned load comes before the exact trap of a
later instruction, which is then not taken (R115); an asynchronous trap is taken for itself (R137). -/
def resolveTrap (s : State) (f : Nat) : State :=
  match ctxOf s f with
  | none => s
  | some x =>
    match x.trap, runLate s f x with
    | some t, (_, u) :: rest => if t.async then enterTrap (modCtx s f fun x => { x with trap := none }) f t else takeLate s f u rest
    | none, (_, u) :: rest => takeLate s f u rest
    | some t, [] => enterTrap (modCtx s f fun x => { x with trap := none }) f t
    | none, [] => s

/-- The next refused load left over from an ended run is taken (R115). -/
def resolveDue (s : State) (f : Nat) : State :=
  match ctxOf s f with
  | none => s
  | some x => match x.lateDue with
    | (_, t) :: rest => enterTrap (modCtx s f fun x => { x with lateDue := rest }) f t
    | [] => s

/-- Raise a trap: taken at once, or once the outstanding long results have landed (R42, R133). -/
def takeTrap (s : State) (f : Nat) (t : TrapInfo) : State :=
  let s := modCtx s f fun x => { x with trap := some t, wait := none }
  if noPending s f then resolveTrap s f else s

/-- An exact trap of the instruction being issued. -/
def trapNow (code cause : Nat) (addr : Word) (f : Nat) (s : State) : State :=
  setEnd (takeTrap s f { code := BitVec.ofNat 8 code, cause := BitVec.ofNat 8 cause, addr := addr,
                         pc := s.iss.pc, word := s.iss.word, async := false }) .trapped

/-- `sys.status` as TRET restores it: all but slot, ppend and apend (R135). -/
def restoredStatus (old saved : Nat) : Nat :=
  putBits (putBits saved 15 12 (bitsOf old 15 12)) 3 2 (bitsOf old 3 2)

/-- The one trap of an instruction that meets two (R136): a segment trap before poison, and of two segment traps that of
the lower lane. -/
def oneTrap (t u : TrapInfo) : TrapInfo :=
  if t.code == 0x04 && (u.code != 0x04 || decide (t.addr.toNat < u.addr.toNat)) then t else u

/-- Insert a fault of a run in program order, one for each instruction (R115, R136). -/
def addLate (l : List (Nat × TrapInfo)) (n : Nat) (t : TrapInfo) : List (Nat × TrapInfo) :=
  match l with
  | [] => [(n, t)]
  | (m, u) :: rest =>
    if n < m then (n, t) :: (m, u) :: rest
    else if n = m then (m, oneTrap t u) :: rest
    else (m, u) :: addLate rest n t

/-- The run goes on past the handler's TRET: its refused and poisoned loads are taken where it ends (R115). -/
def keepRunFaults (s : State) (f : Nat) : State :=
  if stInh (statusOf s f) then s
  else modCtx s f fun x => { x with late := x.hlate.foldl (fun l p => addLate l p.1 p.2) x.late, hlate := [] }

/-- Return from the handler (R135). -/
def leaveHandler (s : State) (f : Nat) : State :=
  let s := writePart s f wStatus
    (BitVec.ofNat 64 (restoredStatus (statusOf s f) (readFrame s f wEstat).toNat))
  writeFrame s f wPc (readFrame s f wEpc)

/-! sys.lfsr (R86). -/

/-- The reset value of slot `slot` of core `core` (R86). -/
def lfsrReset (core slot : Nat) : BitVec 32 :=
  0x9E3779B9#32 ^^^ BitVec.ofNat 32
    (pkgOf core * 2 ^ 15 + core / 512 % 4 * 2 ^ 13 + core / 16 % 32 * 2 ^ 8 + core % 16 * 2 ^ 4 + slot)

def lfsrOf (s : State) (core slot : Nat) : BitVec 32 :=
  let v := SMap.get 0 s.lfsr (core * 16 + slot)
  if v = 0 then lfsrReset core slot else v

-- DEDUCED, log 53. Unsafe.
/-- Write `sys.lfsr`; a pair's trailing slot moves with it (R392). -/
def setLfsr (s : State) (core slot : Nat) (v : BitVec 32) (pair : Bool) : State :=
  let m := SMap.set 0 s.lfsr (core * 16 + slot) v
  { s with lfsr := if pair then SMap.set 0 m (core * 16 + slot + 8) v else m }

end Sys2Proof.Machine
end

