-- ==== Sys2Proof/Machine/Choice.lean ====
section
/-! DEFINITION. The contexts of a core and of a task, and the choice of a bind record for slot 0 (R43, R375, R376). -/

namespace Sys2Proof.Machine

/-! Contexts of a core and of a task. -/

def ctxList (s : State) : List (Nat × Ctx) :=
  s.ctxs.filterMap fun p => p.2.map fun x => (p.1, x)
def coreCtxs (s : State) (c : Nat) : List (Nat × Ctx) := (ctxList s).filter fun p => p.2.core == c
def taskCtxs (s : State) (c b : Nat) : List (Nat × Ctx) := (coreCtxs s c).filter fun p => p.2.bind == b

/-! The choice (R375, R376). -/

/-- eprio (R375). -/
def eprio (s : State) (c b : Nat) : Nat :=
  let r := bindOf s c b
  if (coreOf s c).aging.getD (partOf s (taskOf s c b).part).aging then min 7 (r.prio.toNat + r.wslices.toNat / 8) else r.prio.toNat

def readyBinds (s : State) (c : Nat) : List Nat :=
  (upFrom 0 32).filter fun b => (bindOf s c b).state == 1

/-- Whether dispatch takes record `a` before record `b` (R376); the lower index is tried first. -/
def takenBefore (s : State) (c a b : Nat) : Bool :=
  let ra := bindOf s c a
  let rb := bindOf s c b
  let ga := ra.fresh && ra.gang
  let gb := rb.fresh && rb.gang
  if ga != gb then ga
  else if eprio s c a != eprio s c b then decide (eprio s c b < eprio s c a)
  else decide (ra.rtime.toNat < rb.rtime.toNat)

/-- The record dispatch takes for slot 0 (R376). -/
def chooseBind (s : State) (c : Nat) : Option Nat :=
  (readyBinds s c).foldl (fun best b => match best with
    | none => some b
    | some a => if takenBefore s c b a then some b else some a) none

/-- A record is dispatched (R376). -/
def markBound (s : State) (c b : Nat) : State :=
  modBind s c b fun r => { r with state := 2, wslices := 0, fresh := false }

/-- A record that leaves slot 0 becomes ready again (R376). -/
def markReady (s : State) (c b : Nat) : State :=
  modBind s c b fun r => { r with state := 1, wslices := 0, rtime := BitVec.ofNat 55 s.time.toNat }

/-- A slice of a task's partition begins: its length and the aging that the choices weigh by take effect (R380). -/
def newSlice (s : State) (c b : Nat) : State :=
  modCore s c fun x => { x with sliceAt := s.time, aging := none, sliceUs := (partOf s (taskOf s c b).part).sliceUs }

/-- A request is over and the task runs on: its contexts' ppend is cleared and those stopped at a PPOINT
go on (R43, R126). -/
def runOn (s : State) (c b : Nat) : State :=
  let s := ((taskCtxs s c b).map Prod.fst).foldl (fun s f =>
    modCtx (setStatus s f 3 3 0) f fun x => if x.wait = some .ppoint then { x with wait := none } else x) s
  newSlice (modCore s c fun x => { x with preReq := false, stopped := false, due := none, exited := [] }) c b

/-- The slots of a task's contexts. -/
def taskSlots (s : State) (c b : Nat) : List Nat := (taskCtxs s c b).map fun p => p.2.slot

/-- A switch to a record begins: its frames are loaded through the shadow banks (R43, R123). -/
def beginSwap (s : State) (c : Nat) (next : Option Nat) : State :=
  let s := match next with
    | some b => markBound s c b
    | none => s
  modCore s c fun x =>
    { x with swap := some { next := next, slots := match next with
                                            | some b => taskSlots s c b
                                            | none => []
                            loaded := [] } }

/-- Dispatch at a free slot 0 (R43); dispatch to a die held for a warm reset has stopped (R399). -/
def dispatchFree (s : State) (c : Nat) : State :=
  if (coreOf s c).cur.isSome || (coreOf s c).swap.isSome || (dieSt s (dieOf c)).halted then s
  else match chooseBind s c with
    | none => s
    | some b => beginSwap s c (some b)

/-- Dispatch with a record in slot 0 that leaves it unless it is chosen again (R43, R376). -/
def dispatchOver (s : State) (c b : Nat) : State :=
  if (coreOf s c).swap.isSome || (taskOf s c b).ending.isSome then s
  else
    let s := markReady s c b
    if (dieSt s (dieOf c)).halted then beginSwap s c none
    else match chooseBind s c with
      | none => runOn (markBound s c b) c b
      | some n => if n = b then runOn (markBound s c b) c b else beginSwap s c (some n)

/-- Dispatch with a suspended record in slot 0, which then counts as free (R332). -/
def dispatchPast (s : State) (c : Nat) : State :=
  if (coreOf s c).swap.isSome then s
  else beginSwap s c (if (dieSt s (dieOf c)).halted then none else chooseBind s c)

/-- A context is suspended while its fault ring holds an entry (R332). -/
def allSuspended (s : State) (c b : Nat) : Bool :=
  let l := (taskCtxs s c b).filter fun p => !p.2.trail
  !l.isEmpty && l.all fun p => decide (0 < ringCount s p.1)

/-- When every live context of a task is suspended, its record is: slot 0 counts as free where it holds the task, and a
record that waits or is leaving is not ready (R332). -/
def suspendCheck (s : State) (c b : Nat) : State :=
  if !allSuspended s c b || (taskOf s c b).ending.isSome then s
  else
    let held := modBind s c b fun r => { r with state := 3 }
    if (coreOf s c).cur == some b && (coreOf s c).swap.isNone then dispatchPast (runOn held c b) c
    else if (bindOf s c b).state = 1 then held
    else s

/-- A record has gone that slot 0 held or was to be given: the choice is made again (R43). -/
def dispatchAgain (s : State) (c : Nat) : State :=
  match (coreOf s c).cur with
  | some b => if (bindOf s c b).state = 3 then dispatchPast s c else dispatchOver s c b
  | none => dispatchFree s c

end Sys2Proof.Machine
end

