-- ==== Sys2Proof/Machine/Paging.lean ====
section
/-! DEFINITION. The paged space: page-table entries and the walk (R325 to R328), the TLBs (R330, R331), and a millwright
core's accesses to a partition's paged memory. -/

namespace Sys2Proof.Machine

/-! Page-table entries (R327). -/

def pteV (e : Nat) : Bool := bitOf e 0
def pteX (e : Nat) : Bool := bitOf e 2
def pteW (e : Nat) : Bool := bitOf e 3
def pteCmp (e : Nat) : Bool := bitOf e 4
def pteRc (e : Nat) : Bool := bitOf e 7
def pteLeaf (e : Nat) : Bool := bitOf e 8
def ptePol (e : Nat) : Nat := bitsOf e 10 9
def ptePort (e : Nat) : Nat := bitsOf e 12 11
def pteTgt (e : Nat) : Nat := bitsOf e 15 13
def pteTa (e : Nat) : Nat := bitsOf e 59 16
def pteFmt (e : Nat) : Nat := bitsOf e 76 72
def pteGeom (e : Nat) : Nat := bitsOf e 79 77
def pteIh (e : Nat) : Nat := bitsOf e 81 80
def pteDie (e : Nat) : Nat := bitsOf e 85 84
def ptePkg (e : Nat) : Nat := bitsOf e 95 86

/-- log2 of what one entry covers (R325). -/
def levelShift : Nat → Nat
  | 0 => 16 | 1 => 21 | 2 => 30 | _ => 43

/-- The index bits of an address at a level (R325). -/
def levelIndex (va : Nat) : Nat → Nat
  | 0 => bitsOf va 20 16 | 1 => bitsOf va 29 21 | 2 => bitsOf va 42 30 | _ => bitsOf va 56 43

/-- A valid entry is malformed (R327). -/
def malformed (e level : Nat) : Bool :=
  bitsOf e 127 96 != 0 || bitsOf e 83 82 != 0 || bitsOf e 71 60 != 0 || bitsOf e 6 5 != 0 || bitOf e 1 ||
  decide (2 ≤ pteIh e) || !([0, 2].contains (pteGeom e)) || decide (18 ≤ pteFmt e) || decide (4 ≤ pteTgt e) ||
  decide (2 ≤ ptePol e) ||
  (pteLeaf e && level == 3) || (!pteLeaf e && level == 0) ||
  (!pteLeaf e && (bitsOf e 95 86 != 0 || bitsOf e 81 72 != 0 || bitsOf e 15 9 != 0 || bitsOf e 7 1 != 0 ||
    (level == 3 && pteTa e % 2 != 0))) ||
  (pteLeaf e && level == 1 && bitsOf e 20 16 != 0) || (pteLeaf e && level == 2 && bitsOf e 29 16 != 0) ||
  (pteTgt e == 0 && bitsOf e 59 36 != 0) ||
  (pteIh e != 0 && (pteTgt e == 0 || pteTgt e == 3)) ||
  (pteRc e && (pteTgt e != 3 || pteW e)) ||
  ((pteFmt e == 14) != (pteGeom e == 2))

/-- What a walk finds (R326): a leaf and its level, or the cause and level of the stop. -/
inductive Found where
  | page (level e : Nat)
  | bad (cause level : Nat)
  deriving DecidableEq, Repr

/-- The walk of R326 from a table at a level. -/
def walkFrom (s : State) (va : Nat) : Nat → Nat → Nat → Found
  | 0, _, level => .bad 4 level
  | n + 1, t, level =>
    let e := readBytes s (t + 16 * levelIndex va level) 16
    if !pteV e then .bad 1 level
    else if malformed e level then .bad 4 level
    else if pteLeaf e then .page level e
    else walkFrom s va n (dramBase (s.pkg * 4 + pteDie e) + pteTa e * 2 ^ 16) (level - 1)

/-- The walk of a partition's table (R325). -/
def walkTable (s : State) (part va : Nat) : Found := walkFrom s va 4 (partOf s part).root 3

/-- The entries that the walk reads, by address. -/
def walkEntries (s : State) (va : Nat) : Nat → Nat → Nat → List Nat
  | 0, _, _ => []
  | n + 1, t, level =>
    let at_ := t + 16 * levelIndex va level
    let e := readBytes s at_ 16
    at_ :: if !pteV e || malformed e level || pteLeaf e then []
      else walkEntries s va n (dramBase (s.pkg * 4 + pteDie e) + pteTa e * 2 ^ 16) (level - 1)

/-- The record of a walk: each entry is one 16-byte access at its home slice (R326). -/
def noteWalk (s : State) (part va : Nat) : State :=
  (walkEntries s va 4 (partOf s part).root 3).foldl (fun s a => noteSlice s (dramTarget a)) s

-- DESIGN CHOICE, log 59. Unsafe.
/-- Where a leaf sends an address (R328). An offset of a die's DRAM from 64 * 10^9, which R1 gives the die, up to 2^36,
which R327 lets a leaf name, is served as any other. -/
def target (pkg va level e : Nat) : Target :=
  let a := pteTa e * 2 ^ 16 + va % 2 ^ levelShift level
  let p := a % 2 ^ 36
  let home (die : Nat) := some ((pkg * 4 + die) * 64 + sliceIndex p)
  let die1 := if pteIh e = 1 then (pteDie e + bitsOf p 11 10) % 4 else pteDie e
  let mk (base : Nat) (h : Option Nat) : Target :=
    { flat := base + a, home := h, off := p, cmp := pteCmp e, unc := ptePol e == 1, rc := pteTgt e == 3 && pteRc e }
  match pteTgt e with
  | 0 => mk (dramBase (pkg * 4 + pteDie e)) (home (pteDie e))
  | 1 => mk hostBase (home die1)
  | 2 => mk (tierBase (ptePort e)) (home die1)
  | _ => mk (dramBase (ptePkg e * 4 + pteDie e)) none

/-- The die a target is homed on, in this package or another (R307, R328). -/
def targetDie (t : Target) : Nat :=
  match t.home with
  | some n => n / 64
  | none => t.flat / 2 ^ 64

/-- Host memory, or a place within the window of a tier port's decoder, 2^44 bytes (R381). -/
def portServes (flat : Nat) : Bool := flat / 2 ^ 64 == 4096 || decide (flat % 2 ^ 64 < 2 ^ 44)

-- DEDUCED, log 68. Unsafe.
-- DESIGN CHOICE, log 59. Unsafe.
/-- A die reaches a target: its home, and from there BD's ports where host or tier memory is behind it (R7, R17). -/
def targetReach (s : State) (from_ : Nat) (t : Target) : Bool :=
  reachable s from_ (targetDie t) &&
    (t.home.isNone || t.flat < hostBase || (baseUp s (targetDie t) && portServes t.flat))

/-- Traffic of order `n` to a target waits for the change of its route (R398). -/
def targetWaits (s : State) (from_ n : Nat) (t : Target) : Bool := routeWaits s from_ (targetDie t) n

/-! TLBs (R330, R331). -/

def tlbHits (l : List TlbEntry) (tag va : Nat) : List TlbEntry :=
  l.filter fun e => e.tag == tag && e.va / 2 ^ levelShift e.level == va / 2 ^ levelShift e.level

/-- What an entry makes of an address: the target, and the attributes that R329 lets an access see. -/
def entryView (s : State) (va : Nat) (e : TlbEntry) : Target × List Nat :=
  let p := e.pte.toNat
  (target s.pkg va e.level p, [bitsOf p 3 2, pteFmt p, pteGeom p])

/-- The hit of the smallest page, and of the largest. -/
def smallHit (l : List TlbEntry) : Option TlbEntry :=
  l.foldl (fun a e => match a with
    | none => some e
    | some b => if e.level < b.level then some e else some b) none
def largeHit (l : List TlbEntry) : Option TlbEntry :=
  l.foldl (fun a e => match a with
    | none => some e
    | some b => if b.level < e.level then some e else some b) none

-- DESIGN CHOICE, log 8. Safe.
/-- The entry an access uses: the smaller page wins; where two hits map other bytes or attributes, which of them one
access uses is not defined (R331). -/
def tlbUse (s : State) (va : Nat) (l : List TlbEntry) : Option TlbEntry :=
  if (l.all fun e => l.all fun d => decide (entryView s va e = entryView s va d)) || Config.pick s.tick % 2 = 0
  then smallHit l else largeHit l

def microLookup (s : State) (core slot va : Nat) : Option TlbEntry :=
  tlbUse s va (tlbHits (coreOf s core).utlb slot va)

-- DEDUCED, log 45. Safe.
def tlbInsert (n : Nat) (l : List TlbEntry) (e : TlbEntry) : List TlbEntry :=
  (e :: l.filter (fun d => !(d.tag == e.tag && d.level == e.level && d.va == e.va))).take n

/-- The entry for the page that holds `va`. -/
def tlbEntry (tag va level e : Nat) : TlbEntry :=
  { tag := tag, level := level, va := va / 2 ^ levelShift level * 2 ^ levelShift level, pte := BitVec.ofNat 128 e }

def fillMicro (s : State) (core slot va level e : Nat) : State :=
  modCore s core fun x => { x with utlb := tlbInsert 16 x.utlb (tlbEntry slot va level e) }

def fillCluster (s : State) (cl part va level e : Nat) : State :=
  modCluster s cl fun x => { x with tlb := tlbInsert 1024 x.tlb (tlbEntry part va level e) }

/-- A translation at a cluster's port: its TLB, or a walk that fills it (R330). -/
def portXlate (s : State) (cl part va : Nat) : State × Found :=
  match tlbUse s va (tlbHits (clusterSt s cl).tlb part va) with
  | some e => (s, .page e.level e.pte.toNat)
  | none => match walkTable s part va with
    | .page level e => (fillCluster (noteWalk s part va) cl part va level e, .page level e)
    | .bad c l => (noteWalk s part va, .bad c l)

/-- A miss in the micro-TLB looks in the cluster TLB and then walks, filling both (R330). -/
def missWalk (s : State) (core slot part va : Nat) : State × Found :=
  match portXlate s (clusterOf core) part va with
  | (s, .page level e) => (fillMicro s core slot va level e, .page level e)
  | r => r

/-- An engine's translation, through the same TLBs (R330). -/
def engineXlate (s : State) (core slot part va : Nat) : State × Found :=
  match microLookup s core slot va with
  | some e => (s, .page e.level e.pte.toNat)
  | none => missWalk s core slot part va

/-- A write by a millwright core to a partition's paged memory, word by word, each walked for (R326). -/
def writeVirt (part : Nat) : Nat → State → Nat → Nat → Nat → State
  | 0, s, _, _, _ => s
  | fuel + 1, s, va, n, v =>
    if n = 0 then s
    else
      let k := min n (8 - va % 8)
      let s := match walkTable s part va with
        | .page level e => homeWrite (noteWalk s part va) .other (target s.pkg va level e) k (v % 2 ^ (8 * k))
        | .bad _ _ => noteWalk s part va
      writeVirt part fuel s (va + k) (n - k) (v / 2 ^ (8 * k))

end Sys2Proof.Machine
end

