-- ==== Sys2Proof/Machine/Access.lean ====
section
/-! DEFINITION. What every memory access shares: error records (R389), the segment check (R98), the
coordinate window (R94, R95), core-local and cluster memory (R107, R303), and paged requests with
their order, faults and service (R101 to R106, R332 to R335). -/

namespace Sys2Proof.Machine

/-! Error records (R389). -/

/-- The leaves of a table that map a byte of `[lo, lo + len)`: virtual start and length of the part. -/
def leavesFrom (s : State) (lo len : Nat) : Nat → Nat → Nat → Nat → List (Nat × Nat)
  | 0, _, _, _ => []
  | n + 1, t, level, va =>
    (upFrom 0 (match level with | 3 => 16384 | 2 => 8192 | 1 => 512 | _ => 32)).flatMap fun k =>
      let e := readBytes s (t + 16 * k) 16
      let v := va + k * 2 ^ levelShift level
      if !pteV e || malformed e level then []
      else if pteLeaf e then
        let b := (target s.pkg v level e).flat
        let a := max b lo
        let z := min (b + 2 ^ levelShift level) (lo + len)
        if a < z then [(v + (a - b), z - a)] else []
      else leavesFrom s lo len n (dramBase (s.pkg * 4 + pteDie e) + pteTa e * 2 ^ 16) (level - 1) v

/-- The tables that such a walk reads, each with its number of entries. -/
def tablesFrom (s : State) : Nat → Nat → Nat → List (Nat × Nat)
  | 0, _, _ => []
  | n + 1, t, level =>
    let size := match level with | 3 => 16384 | 2 => 8192 | 1 => 512 | _ => 32
    (t, size) :: (upFrom 0 size).flatMap fun k =>
      let e := readBytes s (t + 16 * k) 16
      if !pteV e || malformed e level || pteLeaf e then []
      else tablesFrom s n (dramBase (s.pkg * 4 + pteDie e) + pteTa e * 2 ^ 16) (level - 1)

/-- The record of a walk over a partition's whole table, at the home slices of its tables (R6, R389). -/
def noteTables (s : State) (part : Nat) : State :=
  (tablesFrom s 4 (partOf s part).root 3).foldl (fun s p => devRead s p.1 (p.2 / 8)) s

/-- An error record of a partition and its mailbox message (R389). -/
def logError (s : State) (part kind unit where_ len : Nat) (ctxid pc : Word) (w14 : Nat)
    (ranges : List (Nat × Nat)) : State :=
  let p := partOf s part
  let at_ := p.errRing + 128 * (p.errTail % 1024)
  let rs := ranges.take 4
  let w0 := 1 * 2 ^ 56 + kind * 2 ^ 48 + unit * 2 ^ 40 + rs.length * 2 ^ 37 +
    (if 4 < ranges.length then 2 ^ 36 else 0)
  let rw (k : Nat) : List Nat := match rs[k]? with | some (a, l) => [a, l] | none => [0, 0]
  let ws := [w0, where_, len, s.time.toNat, ctxid.toNat, pc.toNat] ++ rw 0 ++ rw 1 ++ rw 2 ++ rw 3 ++
    [w14, if 1024 ≤ p.errTail then 1 else 0]
  let s := homeWrite s .other (dramTarget at_) 128 (packBits 64 ws)
  let s := modPart s part fun p => { p with errTail := p.errTail + 1 }
  postMail s part ctxid pc 0x11 (BitVec.ofNat 64 at_)

-- DEDUCED, log 62. Unsafe.
/-- A sector of memory behind the slices is held by its home slice. -/
def heldNow (s : State) (flat : Nat) : Bool :=
  match holderOf s (flat / 256) with
  | some p => heldSec p.2 (flat / 128 % 2)
  | none => false

-- DEDUCED, log 62. Unsafe.
/-- The record of a poisoned memory word's consumption (R388, R389) by a consumer of a partition: of the array that
holds the word as it is consumed, with the length of that array's granule. -/
def logPoisonFor (s : State) (part : Nat) (id : Word) (flat : Nat) (pc : Word) : State :=
  let region := flat / 2 ^ 64
  let off := flat % 2 ^ 60
  let ranges (n : Nat) := leavesFrom s (flat / n * n) n 4 (partOf s part).root 3 0
  let s := if region < 2 ^ 23 then noteTables s part else s
  if region < 2 ^ 23 then
    let die := if region < 4096 then region % 4 * 2 ^ 60 else 0
    if heldNow s flat then logError s part 1 3 (die + off / 128 * 128) 128 id pc 0 (ranges 128)
    else if region < 4096 then logError s part 1 4 (die + off / 32 * 32) 32 id pc 0 (ranges 32)
    else logError s part 1 7 off 32 id pc 0 (ranges 32)
  else
    let die := if region < 2 ^ 24 then dieOf (region - 2 ^ 23) else dieOfCluster (region - 2 ^ 24)
    logError s part 1 (if region < 2 ^ 24 then 1 else 2) (die % 4 * 2 ^ 60 + off / 8 * 8) 8 id pc 0 []

/-- The record of a word consumed by the context of a frame. -/
def logPoison (s : State) (f flat : Nat) (pc : Word) : State :=
  match ctxOf s f with
  | none => s
  | some x => logPoisonFor s (ctxPart s x) (ctxIdent s f) flat pc

/-! The window (R94, R95). -/

def inWindow (a : Nat) : Bool := bitsOf a 63 56 == 0xFD

/-- Reserved bits of a window address are zero (R94). -/
def winClean (a : Nat) : Bool :=
  bitsOf a 33 22 == 0 && (if bitOf a 38 then bitsOf a 37 34 == 0 else bitsOf a 21 18 == 0)
def winCluster (a : Nat) : Nat := bitsOf a 55 46 * 128 + bitsOf a 45 44 * 32 + bitsOf a 43 39
def winCore (a : Nat) : Nat := winCluster a * 16 + bitsOf a 37 34
/-- The byte a window address names, as a flat address. -/
def winFlat (a : Nat) : Nat :=
  if bitOf a 38 then clusBase (winCluster a) + bitsOf a 21 0 else localBase (winCore a) + bitsOf a 17 0
/-- The destination memory, for the order of R112. -/
def winDest (a : Nat) : Nat := winFlat a / 2 ^ 64

/-! Cluster memory banks (R301). -/

def bankMode (s : State) (cl b : Nat) : Nat := (SMap.get 1 (clusterSt s cl).modes b).toNat
/-- Banks are switched one after another; the first of those waiting is in transition (R302, R322). -/
def inTransition (s : State) (cl b : Nat) : Bool :=
  match (clusterSt s cl).switching with
  | w :: _ => w.bank == b
  | [] => false
def fifoOf (s : State) (cl b : Nat) : List Word := SMap.get [] (clusterSt s cl).fifos b
def setFifo (s : State) (cl b : Nat) (l : List Word) : State :=
  modCluster s cl fun x => { x with fifos := SMap.set [] x.fifos b l }

/-- Who waits at a FIFO bank's head, or tail, each with the order of its arrival there (R303, R304): slots in a load or
store, and accesses through the window. -/
def fifoWaiters (s : State) (cl b : Nat) (head : Bool) : List Nat :=
  (ctxList s).filterMap fun p => match p.2.wait with
    | some (.fifoHead c k o) => if head && c == cl && k == b then some o else none
    | some (.fifoTail c k o) => if !head && c == cl && k == b then some o else none
    | _ => none

/-- An access that reached the port at `o` is the next there. -/
def fifoFirst (s : State) (cl b : Nat) (head : Bool) (o : Nat) : Bool := (fifoWaiters s cl b head).all fun w => decide (o ≤ w)

/-! The segment check (R98). -/

def needRd : Nat := 2
def needWr : Nat := 4
def needAt : Nat := 8
def needFe : Nat := 16
def segKind (g : Seg) : Nat := fld g.attr 25 24
def segFmt (g : Seg) : Nat := fld g.attr 20 16
def segGeom (g : Seg) : Nat := fld g.attr 23 21
def hasRights (g : Seg) (need : Nat) : Bool := need &&& fld g.attr 5 0 == need

/-- Rules an instruction adds to R98: extra length failure, the kinds it accepts, and the FIFO port
offsets it may use. -/
structure AccessRule where
  need : Nat
  size : Nat
  align : Nat
  long : Bool := false
  kinds : List Nat := [0, 1, 2, 3]
  ports : List Nat := []
  deriving DecidableEq, Repr

-- DESIGN CHOICE, log 61. Unsafe.
/-- The check of R98 for an access of a core in a partition: the cause, or the address. A window address with a reserved
bit set fails with cause 5, as one outside the window does. -/
def checkSegAt (s : State) (core part : Nat) (g : Seg) (r : AccessRule) (off : Int) : Except Nat Nat :=
  if !g.attr.getLsbD 0 then .error 1
  else if !hasRights g r.need then .error 2
  else if off < 0 || decide ((g.limit.toNat : Int) < off + r.size) || r.long then .error 3
  else if off % (r.align : Int) ≠ 0 then .error 4
  else
    let a := lowBits 64 (g.base.toNat + off)
    let k := segKind g
    let bank := a / 2 ^ 17
    let mode := bankMode s (clusterOf core) bank
    if !r.kinds.contains k then .error 5
    else if k = 0 && bitsOf a 63 57 != 0 then .error 5
    else if k = 1 && decide (2 ^ 18 < a + r.size) then .error 5
    else if k = 2 && decide (2 ^ 22 < a + r.size) then .error 5
    else if k = 2 && decide (mode < 2) then .error 6
    else if k = 2 && mode == 3 && !(r.size == 8 && r.ports.contains (a % 2 ^ 17)) then .error 6
    else if k = 3 && !(inWindow a && winClean a) then .error 5
    else if k = 3 && !inPart s part (winCluster a) then .error 7
    else .ok a

/-- The check of R98 for a context's access. -/
def checkSeg (s : State) (x : Ctx) (g : Seg) (r : AccessRule) (off : Int) : Except Nat Nat :=
  checkSegAt s x.core (ctxPart s x) g r off

/-- `off` of R62. -/
def memOff (s : State) (f : Nat) (w : MWord) : Int :=
  ((readReg s f w.base : Nat) : Int) +
    (if isImm w.index then 0 else ((readReg s f w.index * 2 ^ w.scale.toNat : Nat) : Int)) +
    sextInt 32 w.offset.toNat

def eaddrOf (off : Int) : Word := n64 off

/-- The flat address of a checked access to core-local or cluster memory. -/
def nearFlat (x : Ctx) (kind a : Nat) : Nat :=
  if kind = 1 then localBase x.core + a else clusBase (clusterOf x.core) + a

/-- Whether the bank of a kind 2 access is in transition, so that the access is held (R95, R302). -/
def bankHeld (s : State) (x : Ctx) (g : Seg) (off : Int) : Bool :=
  segKind g == 2 &&
    inTransition s (clusterOf x.core) (lowBits 64 (g.base.toNat + off) / 2 ^ 17)

/-! Values by type. -/

/-- A `w`-bit value widened to 64 bits by its type (R141). -/
def extend (ty v : Nat) : Nat :=
  if tySigned ty then lowBits 64 (sextInt (tyWidth ty) v) else v % 2 ^ tyWidth ty

/-- The new value of an ATOM (R166). -/
def atomNew (fn ty old x : Nat) : Nat :=
  let w := tyWidth ty
  let rd (v : Nat) : Int := if tySigned ty then sextInt w v else (v % 2 ^ w : Nat)
  (match fn with
  | 0 => old + x
  | 1 => old &&& x
  | 2 => old ||| x
  | 3 => old ^^^ x
  | 4 => x
  | 5 => if rd old ≤ rd x then old else x
  | _ => if rd x ≤ rd old then old else x) % 2 ^ w

/-! Thread stores that the core's engines need not read yet (R109). -/

def addUnfenced (s : State) (core f flat : Nat) : State :=
  modCore s core fun x =>
    let n := (x.unfenced.filter fun u => u.addr == flat / 8).length
    { x with unfenced := { frame := f, addr := flat / 8, old := readWord s (flat / 8 * 8)
                           made := s.tick * 2 ^ 100 + flat / 8 * 2 ^ 10 + n } :: x.unfenced }

-- DESIGN CHOICE, log 8. Safe.
/-- An engine of the core, the copy engine or the matrix engine with the walk, reads the store: from a step on that is
free, so that it never reads an older value after it (R101, R109). -/
def engineSees (s : State) (copy : Bool) (u : Unfenced) : Bool :=
  decide (Config.pick (2 ^ 300 + u.made * 2 + (if copy then 1 else 0)) ≤ s.tick)

/-- The value of a word behind the stores, newest first, that the engine does not read yet. -/
def olderWord (s : State) (copy : Bool) : List Unfenced → Word → Word
  | [], v => v
  | u :: rest, v => if engineSees s copy u then v else olderWord s copy rest u.old

/-- A word as an engine of the core reads it (R109): the newest value, or an older one that a store not yet
engine-visible replaced. -/
def engineWord (s : State) (core : Nat) (copy : Bool) (flat : Nat) : Word :=
  olderWord s copy ((coreOf s core).unfenced.filter fun u => u.addr == flat / 8) (readWord s (flat / 8 * 8))

/-- What an XFENCE of the context leaves: of each word it drops the context's newest store and every store before it
(R109). -/
def afterFence (f : Nat) : List Unfenced → List Nat → List Unfenced
  | [], _ => []
  | u :: rest, done =>
    if done.contains u.addr then afterFence f rest done
    else if u.frame == f then afterFence f rest (u.addr :: done)
    else u :: afterFence f rest done

/-- `n` bytes at `flat` as an engine reads them, each word by R109. -/
def engineBytes (s : State) (core : Nat) (copy : Bool) (flat n : Nat) : Nat :=
  let ws := (upFrom (flat / 8) ((flat + n + 7) / 8 - flat / 8)).map fun k => (engineWord s core copy (8 * k)).toNat
  (packBits 64 ws / 2 ^ (8 * (flat % 8))) % 2 ^ (8 * n)

/-! Writes of matrix and walk operations that have not completed (R108). -/

-- DESIGN CHOICE, log 17. Unsafe.
/-- Threads read the write: from a step on that is free, for each word by itself. -/
def threadSees (s : State) (u : Racing) : Bool := decide (Config.pick (2 ^ 301 + u.made) ≤ s.tick)

/-- The value of a word behind the writes, newest first, that threads do not read yet. -/
def behindRacing (s : State) : List Racing → Word → Word
  | [], v => v
  | u :: rest, v => if u.raced || threadSees s u then v else behindRacing s rest u.old

-- DESIGN CHOICE, log 17. Unsafe.
/-- `n` bytes of near memory as a thread's ordinary load reads them: of each word that an operation in flight has written,
the old or the new value (R108). -/
def threadBytes (s : State) (flat n : Nat) : Nat :=
  if s.racing.isEmpty then readBytes s flat n
  else
    let word (k : Nat) : Word := behindRacing s (s.racing.filter fun u => u.addr == k) (readWord s (8 * k))
    let ws := (upFrom (flat / 8) ((flat + n + 7) / 8 - flat / 8)).map fun k => (word k).toNat
    (packBits 64 ws / 2 ^ (8 * (flat % 8))) % 2 ^ (8 * n)

/-- Whole words that an operation of a context writes, with what they were. -/
def racingWords (s : State) (f flat n v : Nat) : List Racing :=
  (upFrom (flat / 8) ((flat + n) / 8 - flat / 8)).map fun k =>
    { frame := f, addr := k, old := readWord s (8 * k), new := BitVec.ofNat 64 (v / 2 ^ (64 * (k - flat / 8)))
      made := s.tick * 2 ^ 100 + k }

-- DESIGN CHOICE, log 17. Unsafe.
/-- An operation of a context has completed: its writes are performed. A word that another agent has written meanwhile
holds either value (R108). -/
def settleRacing (s : State) (f : Nat) : State :=
  let mine := s.racing.filter fun u => u.frame == f
  mine.foldl (fun s u => if u.raced && Config.pick (2 ^ 302 + u.made) % 2 == 1 then writeWord s (8 * u.addr) u.new else s)
    { s with racing := s.racing.filter fun u => u.frame != f }

/-! Stores to near memory (R107, R303). -/

/-- A thread store into core-local or scratch memory; `stf` sets the word full. -/
def nearStore (s : State) (core f flat n v : Nat) (stf : Bool) : State :=
  let s := writeBytes (addUnfenced (endOlder s (some core) flat n) core f flat) flat n v
  if stf then setFull s flat true else s

/-! The posted-store journal (R112, R184). -/

def jentry (s : State) (core k : Nat) : JEntry := SMap.get {} (coreOf s core).journal k
def setJentry (s : State) (core k : Nat) (j : JEntry) : State :=
  modCore s core fun x => { x with journal := SMap.set {} x.journal k j }
-- DESIGN CHOICE, log 93. Unsafe.
def freeJournal (s : State) (core : Nat) : Option Nat :=
  (upFrom 0 64).find? fun k => (jentry s core k).state == 0

/-- A new entry gets the next sequence number (R184), and its number at its core (R397). -/
def openJournal (s : State) (core k : Nat) (j : JEntry) : State :=
  let n := (coreOf s core).jnext
  let s := modSlot (setJentry s core k { j with jseq := n, num := (coreOf s core).jcount, ord := s.ord }) core j.slot fun x => { x with quiet := false }
  { modCore s core fun x => { x with jnext := n + 1, jcount := x.jcount + 1 } with ord := s.ord + 1 }

-- DEDUCED, log 15. Unsafe.
/-- The place of a near word in the order of R101 and R103: the three ports of a FIFO bank are one
location (R304). -/
def nearPlace (s : State) (flat : Nat) : Nat :=
  if clusBase 0 ≤ flat && bankMode s (flat / 2 ^ 64 - 2 ^ 24) (flat % 2 ^ 64 / 2 ^ 17) == 3
  then flat / 2 ^ 17 * 2 ^ 14 else flat / 8

/-- The places a journal entry still has to store to. -/
def journalPlaces (s : State) (j : JEntry) : List Nat :=
  if j.kind = 2 then j.todo.map fun c => nearPlace s (clusBase c + fld j.addr 21 0)
  else if j.todo.isEmpty then [] else [nearPlace s (winFlat j.addr.toNat)]

/-- A journal entry of the context that is still to be applied and that R103 orders before an access
with qualifier `q` at the place, `n` bounding the entry's order (R103 a, f, g, R112). -/
def journalBlocks (s : State) (core f n : Nat) (q : BitVec 8) (place : Option Nat) : Bool :=
  (coreOf s core).journal.any fun p =>
    let j := p.2
    j.state == 1 && j.frame == f && decide (j.ord < n) && !j.todo.isEmpty &&
      (qRel q || (j.rel && qAcq q) ||
        match place with
        | some a => (journalPlaces s j).contains a
        | none => false)

-- DEDUCED, log 20. Unsafe.
/-- Every remote store of the context has been applied (R105). -/
def storesApplied (s : State) (core f : Nat) : Bool :=
  (coreOf s core).journal.all fun p => !(p.2.state == 1 && p.2.frame == f && !p.2.todo.isEmpty)

/-- A refused store's asynchronous trap becomes pending (R137). -/
def setApend (s : State) (f : Nat) : State :=
  if (ctxOf s f).isSome then setStatus s f 2 2 1 else s

/-! Paged requests. -/

/-- Requests of a context still to be performed (R102, R335), fetches apart. -/
def outstanding (s : State) (f : Nat) : List Req :=
  (s.reqs ++ s.faulted.map Prod.snd ++ s.wreqs).filter fun r => r.frame == f && r.op != 6

-- DESIGN CHOICE, log 63. Safe.
/-- Case e, f or g of R103 orders an access with qualifier `q` before a later one with qualifier `r`, at every scope:
an access is performed at all scopes in one event. -/
def qualOrders (q r : BitVec 8) : Bool := qAcq q || qRel r || (qRel q && qAcq r)

/-- The place of a window request. -/
def reqPlace (s : State) (r : Req) : Option Nat :=
  if inWindow r.addr.toNat then some (nearPlace s (winFlat r.addr.toNat)) else none

-- DEDUCED, log 15. Unsafe.
/-- Whether a near access made now may be performed: nothing earlier that R103 orders before it, by qualifier
or by place, is still to be performed. -/
def mayPerform (s : State) (core f : Nat) (q : BitVec 8) (place : Nat) : Bool :=
  (outstanding s f).all (fun r => !qualOrders r.qual q && reqPlace s r != some place) &&
    !journalBlocks s core f s.ord q (some place)

/-- Every earlier access of the context has been performed (R105). -/
def allPerformed (s : State) (core f : Nat) : Bool := (outstanding s f).isEmpty && storesApplied s core f

-- DEDUCED, log 18. Safe.
/-- Every paged and local access the context made before `n` has been performed (R111, R114). -/
def cachedBefore (s : State) (f n : Nat) : Bool :=
  (s.reqs ++ s.faulted.map Prod.snd).all fun r =>
    !((r.frame == f || r.frame == f + 2 ^ 90) && r.op != 6 && decide (r.ord < n))

/-- Every load and atomic that the context made through the window before `n` has been served (R103 f). -/
def windowBefore (s : State) (f n : Nat) : Bool :=
  s.wreqs.all fun r => !((r.frame == f || r.frame == f + 2 ^ 90) && decide (r.ord < n))

/-- Two requests for one location (R101, R103 a, R304). -/
def sameLoc (s : State) (q r : Req) : Bool :=
  q.addr.toNat / 8 == r.addr.toNat / 8 ||
    (match q.target, r.target with
      | some a, some b => a.flat / 8 == b.flat / 8
      | _, _ => (reqPlace s q).isSome && reqPlace s q == reqPlace s r)

/-- Lanes of one vector instruction, which only their location orders (R226). -/
def sameAccess (q r : Req) : Bool := q.grp != 0 && q.grp == r.grp

/-- A request waits for the change of its route (R398). -/
def reqWaits (s : State) (r : Req) : Bool :=
  match r.target with
  | some t => targetWaits s (dieOf r.core) r.ord t
  | none => inWindow r.addr.toNat && routeWaits s (dieOf r.core) (dieOfCluster (winCluster r.addr.toNat)) r.ord

-- DEDUCED, log 15. Unsafe.
/-- A request may be performed: every earlier one of its context that R103 orders before it has been. -/
def reqReady (s : State) (r : Req) : Bool :=
  ((s.reqs ++ s.faulted.map Prod.snd ++ s.wreqs).all fun q =>
    !(q.frame == r.frame && q.op != 6 && decide (q.ord < r.ord)) ||
      (!sameLoc s q r && (sameAccess q r || !qualOrders q.qual r.qual))) && !reqWaits s r &&
    !journalBlocks s r.core r.frame r.ord r.qual (reqPlace s r)

def opWrites (op : BitVec 3) : Bool := op == 1 || op == 2 || op == 3 || op == 5

/-- The page forbids the request: cause 2 or 3 (R332). -/
def permFault (op : BitVec 3) (e : Nat) : Option Nat :=
  if opWrites op && !pteW e then some 2 else if op == 6 && !pteX e then some 3 else none

-- DEDUCED, log 15. Unsafe.
/-- A new request: translated through the micro-TLB where it hits, else the slot stalls (R330). -/
def pushReq (s : State) (r : Req) : State :=
  let t := match microLookup s r.core r.slot r.addr.toNat with
    | some e => if (permFault r.op e.pte.toNat).isNone
        then some (target s.pkg r.addr.toNat e.level e.pte.toNat) else none
    | none => none
  { s with reqs := s.reqs ++ [{ r with target := t, ord := s.ord }], ord := s.ord + 1 }

/-- A fault ring entry (R333) of 64 bytes. -/
def faultEntry (r : Req) (seq : BitVec 16) (cause level state : Nat) : Nat :=
  let info := seq.toNat * 2 ^ 48 + r.dst.toNat * 2 ^ 40 + r.elem.toNat * 2 ^ 32 + r.op.toNat * 2 ^ 29 +
    r.fn.toNat * 2 ^ 26 + r.qual.toNat * 2 ^ 18 + r.size.log2 * 2 ^ 15 + level * 2 ^ 13 + cause * 2 ^ 8 + state
  packBits 64 [info, r.addr.toNat, r.pc.toNat, r.data.toNat, r.data2.toNat, 0, 0, 0]

-- DESIGN CHOICE, log 25. Unsafe.
/-- Where entry `k` of a context's fault ring lies: on the die that holds the frame. -/
def ringAddr (s : State) (f k : Nat) : Nat :=
  f * 8192 / 2 ^ 64 * 2 ^ 64 + (readFrame s f wRingBase).toNat + 64 * (k % 512)

def setRing (s : State) (f head tail count : Nat) : State :=
  writeFrame s f wRing (BitVec.ofNat 64 (head % 512 + tail % 512 * 2 ^ 16 + count * 2 ^ 32))

/-- Place `k` of a context's fault ring: its state byte and sequence number. -/
def ringState (s : State) (f k : Nat) : Nat := (readByte s (ringAddr s f k)).toNat
def ringSeq (s : State) (f k : Nat) : Nat := readBytes s (ringAddr s f k + 6) 2
def setRingState (s : State) (f k v : Nat) : State := homeWrite s .other (dramTarget (ringAddr s f k)) 1 v

/-- The places of a ring that hold entries not freed, in seq order. -/
def ringPlaces (s : State) (f : Nat) : List Nat :=
  let span := (ringTail s f + 512 - ringHead s f) % 512
  ((upFrom (ringHead s f) (if span = 0 && 0 < ringCount s f then 512 else span)).map (· % 512)).filter
    fun k => ringState s f k != 0

-- DEDUCED, log 24. Unsafe.
/-- The entries of a ring that the supervisor has not marked yet (R333 state 1). -/
def pendingFaults (s : State) (f : Nat) : Nat := ((ringPlaces s f).filter fun k => ringState s f k == 1).length

/-- The message that a ring's first pending entry posts (R334). -/
def postFault (s : State) (part f : Nat) (r : Req) : State :=
  postMail s part (ctxIdent s f) r.pc (BitVec.ofNat 64 (pendingFaults s f * 2 ^ 32 + 2 ^ 17 + 7)) r.addr

/-- The faulting access goes into the fault ring, numbered in program order; one that makes an entry pending where none
was posts a message (R332 to R334). A ring of 512 entries leaves the access waiting. -/
def recordFault (s : State) (r : Req) (cause level : Nat) : State :=
  match ctxOf s r.frame with
  | none => { s with reqs := s.reqs.filter fun q => q.ord != r.ord }
  | some x =>
    let f := r.frame
    let n := ringCount s f
    if 512 ≤ n || (0 < n && ringHead s f == ringTail s f) then s
    else
      let first := pendingFaults s f = 0
      let at_ := ringAddr s f (ringTail s f)
      let s := noteFrame (noteFrame s f wRingBase) f wRing
      let s := { s with reqs := s.reqs.filter (fun q => q.ord != r.ord), faulted := s.faulted ++ [(x.seq.toNat, r)] }
      let s := homeWrite s .other (dramTarget at_) 64 (faultEntry r x.seq cause level 1)
      let s := setRing s f (ringHead s f) (ringTail s f + 1) (n + 1)
      let s := modCtx s f fun x => { x with seq := x.seq + 1, broken := x.broken || r.op == 7 }
      if first then postFault s (ctxPart s x) f r else s

/-- An earlier access of the request's context is not translated yet: its fault, if it meets one, comes first. -/
def faultsLater (s : State) (r : Req) : Bool :=
  s.reqs.any fun q => q.frame == r.frame && q.target.isNone && decide (q.ord < r.ord)

/-- The request of an instruction that reads or writes paged memory in one event: on a fault it is held in
the ring with no result, and the instruction is issued again once the context runs on. -/
def probeReq (s : State) (f : Nat) (x : Ctx) (op : BitVec 3) (va : Nat) : Req :=
  { ord := s.ord, core := x.core, slot := x.slot, frame := f, pc := s.iss.pc, word := s.iss.word, op := op, fn := 0,
    qual := 0, size := 8, addr := BitVec.ofNat 64 va, off := BitVec.ofNat 64 va, elem := 0xFF, data := 0, data2 := 0,
    ty := 8, dst := 0, fdst := 0, take := true, entry := none, target := none }

/-- Translate for such an instruction: the target, or the state with the fault recorded (R332). -/
def probe (s : State) (f : Nat) (x : Ctx) (op : BitVec 3) (va : Nat) : Except State (State × Target) :=
  match engineXlate s x.core x.slot (ctxPart s x) va with
  | (s, .page level e) => match permFault op e with
    | none => .ok (s, target s.pkg va level e)
    | some c => .error (recordFault { s with ord := s.ord + 1 } (probeReq s f x op va) c level)
  | (s, .bad c level) => .error (recordFault { s with ord := s.ord + 1 } (probeReq s f x op va) c level)

/-- A lane's element of its fault predicate (R225); none for an access without one. -/
def laneMark (r : Req) (v : Nat) : List RegWrite :=
  if r.fdst = 0 then [] else [{ spec := r.fdst, lo := r.elem.toNat * r.size, width := r.size, val := v }]

/-- The register writes of a request's value: a whole register, or one element of a vector and, in a gather,
its mark. -/
def reqWrites (r : Req) (v : Nat) : List RegWrite :=
  if r.elem == 0xFF then [regWrite r.dst (extend r.ty.toNat v)]
  else { spec := r.dst, lo := r.elem.toNat * (8 * r.size), width := 8 * r.size, val := v } :: laneMark r 0

/-- A result for a request's long-result entry, if it has one. -/
def reqResult (s : State) (r : Req) (ws : List RegWrite) (late : List TrapInfo) : State :=
  match r.entry with
  | none => s
  | some e => { s with rets := s.rets ++ [{ frame := r.frame, entry := e, writes := ws, ready := true, late := late
                                            ord := if r.grp = 0 then r.ord else r.grp, ring := r.ring }] }

def reqTrap (r : Req) (code cause : Nat) (addr : Word) : TrapInfo :=
  { code := BitVec.ofNat 8 code, cause := BitVec.ofNat 8 cause, addr := addr, pc := r.pc, word := r.word,
    async := false }

def dropReq (s : State) (r : Req) : State := { s with reqs := s.reqs.filter fun q => q.ord != r.ord }

/-- A gather or scatter lane that could not be served: its bit of the fault predicate (R225). -/
def laneFault (r : Req) : List RegWrite := laneMark r (2 ^ r.size - 1)

/-- A watch-load has been served: its entry records the line, and a home slice other than the first
entry's breaks the set (R168, R314). -/
def serveWatch (s : State) (r : Req) (t : Target) : State :=
  if r.op == 7 then
    modCtx s r.frame fun x =>
      let first := (x.watch.find? fun w => w.served).map Watch.home
      { x with
        watch := x.watch.map fun w =>
          if !w.served && w.ord == r.ord then { w with line := t.flat / 256, home := t.home, served := true } else w
        broken := x.broken || (first.isSome && first != some t.home) }
  else s

end Sys2Proof.Machine
end

