-- ==== Sys2Proof/Machine/Contexts.lean ====
section
/-! DEFINITION. The life of contexts, tasks and launches: frames (R417), starting a context (R23,
R128, R159), ending one (R24, R29, R160, R183, R184), ending a task and a launch (R373). -/

namespace Sys2Proof.Machine

/-- Live helpers of a task (R24), each pair of copies counted once. -/
def liveHelpers (s : State) (c b : Nat) : Nat :=
  ((taskCtxs s c b).filter fun p => ctxKind s p.1 == 1 && !p.2.trail).length

/-- The free slot a helper or service context takes (R159): the lowest from 1 to 15 that no context of the
core holds or has reserved (R140); in a redundant task one of 1 to 7 with its partner free (R25). -/
def freeSlot (s : State) (c : Nat) (red : Bool) : Option Nat :=
  let used (k : Nat) : Bool := (coreCtxs s c).any fun p => p.2.slot == k
  (upFrom 1 (if red then 7 else 15)).find? fun k => !used k && (!red || !used (k + 8))

/-! Frames (R417). -/

def poolFree (s : State) (p : Nat) : Option Nat :=
  (upFrom 0 (partOf s p).poolFrames).find? fun k => !(partOf s p).poolUsed.contains k

-- DESIGN CHOICE, log 25. Unsafe.
/-- The frame number of a pool's frame `k`. The model lays each out with its fault ring, 64 KiB in all, where the spec
names no place for it. -/
def poolFrame (base k : Nat) : Nat := base + 8 * k

-- DESIGN CHOICE, log 25. Unsafe.
/-- Line 40 of a frame as the millwright core writes it when it allocates the frame (R121): the accumulator area is
paged, and the fault ring is named by its offset in the DRAM of the frame's die. -/
def linkFrame (s : State) (f : Nat) : State :=
  devWrite s (frameAddr f wAccSave)
    (packBits 64 [Config.accSavePage f * 4096, f * 8192 % 2 ^ 64 + 2 ^ 15, 0]) 3

/-- `n` frames from a partition's pool, as frame numbers. -/
def takePool (p : Nat) : Nat → State → Option (List Nat × State)
  | 0, s => some ([], s)
  | n + 1, s => match poolFree s p with
    | none => none
    | some k =>
      let f := poolFrame (partOf s p).poolBase k
      match takePool p n (linkFrame (modPart s p fun q => { q with poolUsed := k :: q.poolUsed }) f) with
      | none => none
      | some (l, s) => some (f :: l, s)

def givePool (s : State) (p : Nat) (fs : List Nat) : State :=
  modPart s p fun q => { q with poolUsed := q.poolUsed.filter fun k => !fs.contains (poolFrame q.poolBase k) }

/-- A frame for a new context of a task, within its frame pool (R417). -/
def takeFrame (s : State) (c b : Nat) : Option (Nat × State) :=
  let t := taskOf s c b
  if t.fpt + 1 ≤ t.frames.length then none
  else if t.fp then
    match takePool t.part 1 s with
    | some ([f], s) => some (f, modTask s c b fun t => { t with frames := f :: t.frames })
    | _ => none
  else match t.own.find? fun f => !t.frames.contains f with
    | none => none
    | some f => some (f, modTask s c b fun t => { t with frames := f :: t.frames })

def giveFrame (s : State) (c b f : Nat) : State :=
  let t := taskOf s c b
  let s := modTask s c b fun t => { t with frames := t.frames.filter (· != f) }
  if t.fp then givePool s t.part [f] else s

/-! The registers of a new context. -/

/-- `sys.ctxid` (R119). -/
def ctxidWord (launch task kind cls : Nat) : Word :=
  BitVec.ofNat 64 (launch % 2 ^ 32 * 2 ^ 32 + task % 2 ^ 16 * 2 ^ 16 + kind * 2 ^ 14 + cls * 2 ^ 11)

/-- The launch identifier of a token (R371). -/
def launchId (token : Word) : Nat := fld token 53 52 * 2 ^ 30 + fld token 29 0

/-- The segments of a control context (R128): base and limit words, and the attribute words. -/
def controlSegs : List (Nat × Word) :=
  [(78, BitVec.ofNat 64 (packBits 16 [0x403F, 0x002F, 0x803F, 0xC01F])),
   (81, 0x40000#64), (83, 0x0200000000000000#64), (85, 0x400000#64),
   (86, 0xFD00000000000000#64), (87, 0x0100000000000000#64)]

-- DESIGN CHOICE, log 2. Unsafe.
/-- The words of a fresh frame beside its segments, zero words left out (R23, R128). -/
def freshWords (pc : Word) (slot priv : Nat) (tvec engbind ctxid : Word) (gs : List Word) : List (Nat × Word) :=
  (upFrom 1 gs.length).zip gs ++
    [(wPc, pc), (wStatus, BitVec.ofNat 64 (slot * 2 ^ 12 + priv * 2 ^ 6)), (wTvec, tvec), (wEngbind, engbind),
     (wCtxid, ctxid)]

/-- A bank that holds a fresh frame, every line valid and dirty, with the marks of what was copied into it (R387). -/
def freshBank (f : Nat) (ws : List (Nat × Word)) (marks : BitVec 640 := 0) : Bank :=
  { frame := some f, poison := marks, words := ws.foldl (fun m p => SMap.set 0 m p.1 p.2) []
    valid := BitVec.allOnes 40, dirty := BitVec.allOnes 40 }

/-- The words of the segments `s0` to `s7`. -/
def segWords : List Nat := [78, 79] ++ upFrom 80 16

/-- The segment words copied from another frame (R128). -/
def copiedSegs (s : State) (f : Nat) : List (Nat × Word) := segWords.map fun w => (w, readFrame s f w)

/-- The marks that the segment and handler words carry into a copy (R387). -/
def copiedMarks (s : State) (f : Nat) : BitVec 640 :=
  (wTvec :: segWords).foldl (fun m w => if wordMarked s f w then m ||| BitVec.ofNat 640 (2 ^ w) else m) 0

-- DESIGN CHOICE, log 81. Unsafe.
/-- A frame as the millwright core leaves it for a new context: its lines 0 to 39 hold nothing of another (R125), and no
fault is pending (R121). -/
def clearFrame (s : State) (f : Nat) : State := writeStored (devClear s (f * 8192) 40) f wRing 0

/-- A context enters a slot's active bank; the slot's micro-TLB entries are dropped (R330) and it has not
issued (R36). -/
def occupy (s : State) (c k : Nat) (b : Bank) : State :=
  let s := modSlot s c k fun sl => { sl with act := b, fetch := .idle, lastSend := 0, lastMcst := 0, quiet := false, mcst := none }
  modCore s c fun x => { x with recent := x.recent.filter (· != k), utlb := x.utlb.filter fun e => e.tag != k }

def vacate (s : State) (c k : Nat) : State := occupy s c k {}

-- DEDUCED, log 33. Unsafe.
/-- A helper or service context of a task starts (R159), with its trailing copy under the redundant flag
(R391). None when no slot or no frame is free. -/
def startContext (s : State) (c b : Nat) (kind cls : Nat) (pc : Word) (gs : List Word)
    (caller : Option (Nat × BitVec 16 × Word)) : Option (Nat × State) :=
  let t := taskOf s c b
  match freeSlot s c t.red with
  | none => none
  | some k => match takeFrame s c b with
    | none => none
    | some (f, s1) =>
      let id := ctxidWord (launchId t.token) t.index kind cls
      let tvec := readFrame s t.ctl wTvec
      let segs := copiedSegs s t.ctl
      let put (s : State) (f k : Nat) (x : Ctx) : State :=
        setCtx (occupy (clearFrame s f) c k
          (freshBank f (freshWords pc k t.priv.toNat tvec 0 id gs ++ segs) (copiedMarks s t.ctl))) f (some x)
      let x : Ctx := { core := c, slot := k, bind := b, caller := caller, entry := true }
      if t.red then
        match takeFrame s1 c b with
        | none => none
        | some (f2, s2) =>
          some (f, put (put (setLfsr s2 c (k + 8) (lfsrOf s2 c k) false) f k { x with twin := some f2 })
            f2 (k + 8) { x with slot := k + 8, trail := true })
      else some (f, put s1 f k x)

/-! Messages to callers (R29, R183). -/

def pushMsg (s : State) (m : Msg) : State :=
  { s with net := s.net ++ [{ m with ord := s.ord }], ord := s.ord + 1 }

/-- A class 1 reply (R198, R29, R183). -/
def replyMsg (src dst : Nat) (tag : BitVec 16) (status : BitVec 2) (value launch : Word) : Msg :=
  { cls := 1, src := src, dst := dst, tag := tag, status := status, words := [value], call := false,
    launch := launch, frame := 0, slot := 0, entry := none, held := false, ord := 0 }

/-! Ending a context. -/

-- DESIGN CHOICE, log 54. Safe.
/-- What is in flight for a context that has ended: loads and results are dropped, stores and atomics are
still performed, journal entries are freed as they are answered (R42, R184). -/
def forget (s : State) (f : Nat) : State :=
  let dead := f + 2 ^ 90
  let keep (l : List Req) : List Req := (l.filter fun r => r.frame != f || opWrites r.op).map fun r =>
    if r.frame = f then { r with frame := dead, entry := none, dst := 0, fdst := 0, ring := none } else r
  let s := { s with
    reqs := keep s.reqs
    wreqs := keep s.wreqs
    faulted := s.faulted.filter fun p => p.2.frame != f
    rets := s.rets.filter fun r => r.frame != f
    flushes := s.flushes.filter fun r => r.frame != f
    drops := s.drops.filter fun r => r.frame != f
    net := s.net.map fun m => if m.frame = f then { m with entry := none } else m
    clusters := SMap.mapOn {} (fun _ x =>
      { x with jobs := x.jobs.map fun j => if j.frame = f then { j with frame := dead } else j }) s.clusters }
  match ctxOf s f with
  | none => s
  | some x => modCore s x.core fun c => { c with
      journal := c.journal.filterMap fun p =>
        if p.2.frame = f then
          if p.2.state = 2 then none else some (p.1, { p.2 with dead := true, entry := none, frame := dead })
        else some p
      mx := match c.mx with
        | some m => if m.frame = f then none else some m
        | none => none
      wk := match c.wk with
        | some m => if m.frame = f then none else some m
        | none => none
      pfrs := c.pfrs.map fun p => if p.frame = f then { p with frame := dead } else p
      unfenced := c.unfenced.filter fun u => u.frame != f }

/-- A helper started by CALLAT that ends without REPLY: its caller is told (R29). -/
def noReply (s : State) (x : Ctx) : State :=
  match x.caller with
  | some (c, tag, l) => if x.replied then s else pushMsg s (replyMsg x.core c tag 1 0 l)
  | none => s

-- DESIGN CHOICE, log 54. Safe.
/-- One context leaves: a capsule it holds is diverted with code 13 (R351), its caller is told, its class
is unbound, its slot and frame are freed (R140). -/
def dropContext (s : State) (f : Nat) : State :=
  match ctxOf s f with
  | none => s
  | some x =>
    let s := divertCurrent s f 13 0 0 (ctxPc s f).toNat
    let s := if x.trail then s else noReply s x
    let s := modTask s x.core x.bind fun t =>
      { t with svc := t.svc.filter fun p => p.2 != f }
    let s := forget s f
    let here := (slotOf s x.core x.slot).act.frame == some f
    let s := if here then vacate s x.core x.slot else s
    let s := modSlot s x.core x.slot fun sl => if sl.shadow.frame = some f then { sl with shadow := {} } else sl
    setCtx (giveFrame s x.core x.bind f) f none

/-- Whether the end of a task discards a queued message: those of the classes bound to it, and replies of its launch
where no other task of the launch is on the core (R179, R182). -/
def discardsMsg (s : State) (c b : Nat) (m : Msg) : Bool :=
  let t := taskOf s c b
  if m.cls = 1 then
    m.launch == BitVec.ofNat 64 (launchId t.token) && !((upFrom 0 32).any fun k => k != b && (taskOf s c k).token == t.token)
  else m.own == b

/-- Entries and messages of a task that has ended: discarded, and counted for their class (R179, R182, R183, R205). -/
def discardQueues (s : State) (c b : Nat) : State :=
  let me := BitVec.ofNat 64 (launchId (taskOf s c b).token)
  let gone := (coreOf s c).taskQ.filter fun m => m.launch == me
  let s := gone.foldl (fun s m => if m.call then pushMsg s (replyMsg c m.src m.tag 2 0 m.launch) else s) s
  let dropped (k : Nat) := (SMap.get [] (coreOf s c).classQ k).filter (discardsMsg s c b)
  let number (k : Nat) : Nat :=
    if k = 0 then gone.length else if k = 2 then ((coreOf s c).capQ.filter fun p => p.1 == b).length else (dropped k).length
  modCore s c fun x => { x with
    taskQ := x.taskQ.filter fun m => m.launch != me
    refused := (upFrom 0 8).foldl (fun r k => SMap.set 0 r k (SMap.get 0 r k + BitVec.ofNat 32 (number k))) x.refused
    classQ := (upFrom 1 7).foldl (fun q k =>
      SMap.set [] q k ((SMap.get [] q k).filter fun m => !discardsMsg s c b m)) x.classQ
    capQ := x.capQ.filter fun p => p.1 != b
    reserved1 := x.reserved1 - number 1 }

/-! Ending a launch (R373). -/

def launchCount (l : Launch) : Nat := fld (l.words.getD 0 0) 19 0
def launchAddr (l : Launch) : Nat := (l.words.getD 9 0).toNat

/-- Status 1, 3 or 4 of a launch whose tasks have all ended (R373). -/
def launchStatus (l : Launch) : Nat := if l.killed then 3 else if l.failed then 4 else 1

/-- The most recent `n` outcomes of a die's tokens (R371). -/
def keepRecent (die : Nat) : Nat → List (Word × BitVec 8) → List (Word × BitVec 8)
  | _, [] => []
  | n, (t, v) :: rest =>
    if fld t 63 52 = die then (if n = 0 then [] else [(t, v)]) ++ keepRecent die (n - 1) rest
    else (t, v) :: keepRecent die n rest

def launchDeadline (l : Launch) : Nat := (l.words.getD 3 0).toNat

/-- The deadline has passed: the mark in the record to come, and a notice to the supervisor (R374); no part of a record of
a version that is not supported is read (R383). -/
def missDeadline (s : State) (l : Launch) : State × Launch :=
  if fld (l.words.getD 0 0) 63 56 ≠ 1 || launchDeadline l = 0 || l.missed || decide (s.time.toNat ≤ launchDeadline l) then (s, l)
  else (postMail s l.part 0 0 0x10 l.token, { l with missed := true })

/-- The completion record is written once and the outcome kept; a record of a version that is not supported is read no
further than its completion address (R371, R373, R374, R383). A launch that ends past its deadline before the deadline has
been acted on is killed where its record says so (R374). -/
def completeLaunch (s : State) (l : Launch) (status cause detail : Nat) : State :=
  let late := (missDeadline s l).2.missed && !l.missed && bitOf (l.words.getD 0 0).toNat 40
  let (s, l) := missDeadline s l
  let (status, cause, detail) := if late then (3, 0, 0) else (status, cause, detail)
  let n := l.retired.length
  let w0 := 2 ^ 56 + cause * 2 ^ 48 + (if l.missed then 2 ^ 8 else 0) + status
  let bits := packBits 1 ((upFrom 0 (launchCount l)).map fun i => if l.retired.contains i then 1 else 0)
  let len := if status = 3 || status = 4 then 64 + (launchCount l + 7) / 8 else 64
  let v := packBits 64 [w0, l.token.toNat, s.time.toNat, n, detail, 0, 0, 0] + bits * 2 ^ 512
  let s := if launchAddr l = 0 then s
    else writeVirt l.part (len + 2) s (launchAddr l) len v
  { givePool s l.part l.frames with
    launches := s.launches.filter fun m => m.token != l.token
    dies := SMap.mapOn {} (fun _ d => { d with devQ := d.devQ.filter fun m => m.token != l.token }) s.dies
    outcomes := keepRecent (fld l.token 63 52) 65536 ((l.token, BitVec.ofNat 8 status) :: s.outcomes) }

/-- The launches that have not ended, those still queued for their admission last. -/
def liveLaunches (s : State) : List Launch := s.launches ++ s.dies.flatMap fun p => p.2.devQ
def launchOf (s : State) (token : Word) : Option Launch := s.launches.find? fun l => l.token == token

/-- A launch that is not yet at its end is replaced. -/
def setLaunch (s : State) (l : Launch) : State :=
  let put (q : List Launch) := q.map fun m => if m.token = l.token then l else m
  { s with launches := put s.launches, dies := SMap.mapOn {} (fun _ d => { d with devQ := put d.devQ }) s.dies }

/-- Every task of a token, by core and entry. -/
def tokenTasks (s : State) (token : Word) : List (Nat × Nat) :=
  s.cores.flatMap fun p => (p.2.tasks.filter fun q => q.2.token == token).map fun q => (p.1, q.1)

/-- The launch ends when every task has ended, or, once killed as a whole (step 11), when those that were bound have. -/
def endLaunch (s : State) (l : Launch) : State :=
  if launchCount l ≤ l.ended.length || (l.step == 11 && (tokenTasks s l.token).isEmpty) then
    completeLaunch s l (launchStatus l) (if launchStatus l = 4 then 8 else 0) 0
  else s

/-- A task's end is reported; the last one ends the launch (R373, R385). -/
def reportTask (s : State) (token : Word) (index : Nat) (how : TaskEnd) : State :=
  match launchOf s token with
  | none => s
  | some l =>
    let l := { l with ended := index :: l.ended
                      retired := if how = .retired then index :: l.retired else l.retired
                      killed := l.killed || how == .killed
                      failed := l.failed || how == .lost }
    endLaunch (setLaunch s l) l

/-- An operation of the context is in flight, which ends before the context does (R24, R46). -/
def inFlight (s : State) (f : Nat) : Bool :=
  match ctxOf s f with
  | none => false
  | some x =>
    (match (coreOf s x.core).mx with
      | some m => m.frame == f && m.running
      | none => false) ||
    (match (coreOf s x.core).wk with
      | some w => w.frame == f
      | none => false)

/-- The task's bookkeeping leaves its core. -/
def dropTask (s : State) (c b : Nat) : State :=
  modCore s c fun x => { x with
    tasks := x.tasks.drop b
    table := x.table.drop b
    cur := if x.cur = some b then none else x.cur
    swap := match x.swap with
      | some w => if w.next = some b then none else some w
      | none => none
    preReq := if x.cur = some b then false else x.preReq
    stopped := if x.cur = some b then false else x.stopped
    due := if x.cur = some b then none else x.due
    accJobs := x.accJobs.filter fun j => j != .save b && j != .restore b
    copyQ := x.copyQ.map fun q => if q.bind = b then { q with bind := 32 } else q
    pfrs := x.pfrs.map fun q => if q.bind = b then { q with bind := 32 } else q }

/-- The task's contexts leave, its queues are discarded, its frames and bind record are freed, the end is reported and
slot 0, where it was the task's or was to be, is dispatched again (R24, R43, R183). -/
def finishTask (s : State) (c b : Nat) (how : TaskEnd) : State :=
  let t := taskOf s c b
  let mine := (coreOf s c).cur == some b || (match (coreOf s c).swap with
    | some w => w.next == some b
    | none => false)
  let s := { s with arrivals := s.arrivals.map fun a => if a.core = c && a.bind = b then { a with bind := 32 } else a }
  let s := ((taskCtxs s c b).map Prod.fst).foldl dropContext (discardQueues s c b)
  let s := reportTask (dropTask (givePool s t.part (t.own ++ t.frames)) c b) t.token t.index how
  if mine then dispatchAgain s c else s

-- DEDUCED, log 60. Safe.
/-- A helper's end is decided: its caller is told (R29). -/
def decideEnd (s : State) (f : Nat) : State :=
  match ctxOf s f with
  | none => s
  | some x => modCtx (if x.trail then s else noReply s x) f fun x => { x with replied := true }

-- DEDUCED, log 60. Safe.
/-- A task ends (R24): at once, or, while an operation of one of its contexts is in flight, at that operation's end; its
record is retiring meanwhile (R375). -/
def endTask (s : State) (c b : Nat) (how : TaskEnd) : State :=
  if how != .lost && (taskCtxs s c b).any fun p => inFlight s p.1 then
    ((taskCtxs s c b).map Prod.fst).foldl decideEnd
      (modBind (modTask s c b fun t => { t with ending := some (t.ending.getD how) }) c b fun r => { r with state := 4 })
  else finishTask s c b how

/-- A helper or service context ends, and its copy with it; at the end of its operation where one is in flight. -/
def endContext (s : State) (f : Nat) : State :=
  match ctxOf s f with
  | none => s
  | some x =>
    if inFlight s f then modCtx (decideEnd s f) f fun x => { x with dying := true }
    else suspendCheck (dropContext (match x.twin with
      | some t => dropContext s t
      | none => s) f) x.core x.bind

/-- An operation of the context has ended: what waited for it ends now (R24). -/
def settleEnd (s : State) (f : Nat) : State :=
  match ctxOf s f with
  | none => s
  | some x =>
    if inFlight s f then s
    else match (ctxTask s x).ending with
      | some how => endTask s x.core x.bind how
      | none => if x.dying then endContext s f else s

/-- Kill a context (R134 action 3): a killed control context ends its task, killed. -/
def killContext (s : State) (f : Nat) : State :=
  match ctxOf s f with
  | none => s
  | some x => if isControl s f then endTask s x.core x.bind .killed else endContext s f

/-- Kill every task of a launch (R134 action 4); nothing more of it is bound. -/
def killLaunch (s : State) (token : Word) : State :=
  match (liveLaunches s).find? fun l => l.token == token with
  | none => (tokenTasks s token).foldl (fun s q => endTask s q.1 q.2 .killed) s
  | some l =>
    let s := setLaunch s { l with killed := true, step := 11 }
    let s := (tokenTasks s token).foldl (fun s q => endTask s q.1 q.2 .killed) s
    match (liveLaunches s).find? fun l => l.token == token with
    | none => s
    | some l => endLaunch s l

-- DEDUCED, log 53. Unsafe.
/-- The two copies of a pair disagree: both are killed and a kind 3 record is written (R392). -/
def pairMismatch (s : State) (f : Nat) : State :=
  match ctxOf s f with
  | none => s
  | some x => killContext (logError s (ctxPart s x) 3 0 (dieOf x.core % 4 * 2 ^ 60) 8
      (ctxIdent s f) (ctxPc s f) 0 []) f

end Sys2Proof.Machine
end

