-- ==== Sys2Proof/Machine/Barriers.lean ====
section
/-! DEFINITION. Named barriers (R21, R187 to R191): where each is kept, its members, arrivals, phases
and failure. Members are slots at core level and core ids elsewhere. -/

namespace Sys2Proof.Machine

/-- A barrier by its place: the task of a core at core level, a partition's instance elsewhere. -/
structure BarrierId where
  level : Nat
  num : Nat
  core : Nat
  bind : Nat
  key : Nat
  deriving DecidableEq, Repr

/-- The instance of a level that holds a core (R20). -/
def levelInst (core level : Nat) : Nat :=
  match level with
  | 2 => core / 4
  | 3 => core / 16
  | 4 => core / 512
  | 5 => core / 2048
  | 6 => 0
  | _ => core

/-- The barrier a context names by level and number (R194). -/
def barrierId (part core bind level num : Nat) : BarrierId :=
  { level := level, num := num, core := core, bind := bind
    key := part * 2 ^ 40 + level * 2 ^ 32 + levelInst core level * 16 + num }

/-- The barrier behind a wait key of a context. -/
def waitBarrier (x : Ctx) (key : Nat) : BarrierId :=
  { level := key / 2 ^ 32 % 256, num := key % 16, core := x.core, bind := x.bind, key := key }

/-- The default mask at core level is slot 0; at the others every core of the partition in the instance
(R187). -/
def barrierOf (s : State) (i : BarrierId) : Barrier :=
  if i.level = 1 then SMap.get { mask := { all := false, cores := 1 } } (taskOf s i.core i.bind).bars i.num
  else SMap.get {} s.barriers i.key

def setBarrier (s : State) (i : BarrierId) (b : Barrier) : State :=
  if i.level = 1 then modTask s i.core i.bind fun t =>
    { t with bars := SMap.set { mask := { all := false, cores := 1 } } t.bars i.num b }
  else { s with barriers := SMap.set {} s.barriers i.key b }

/-- Whether a member is in a mask (R188). -/
def inMask (s : State) (part level : Nat) (m : Members) (member : Nat) : Bool :=
  if level = 1 then m.cores.getLsbD member
  else if m.all then inPart s part (clusterOf member)
  else match level with
    | 2 => m.cores.getLsbD (member % 4)
    | 3 => m.cores.getLsbD (member % 16)
    | 4 => m.cores.getLsbD (member % 16) && m.clusters.getLsbD (member / 16 % 32)
    | 5 => m.cores.getLsbD (member % 16) && m.clusters.getLsbD (member / 16 % 32) && m.dies.getLsbD (member / 512 % 4)
    | _ => m.cores.getLsbD (member % 16) && m.clusters.getLsbD (member / 16 % 32) &&
        m.dies.getLsbD (member / 512 % 4) && m.pkgs.getLsbD (member / 2048)

/-- The members of a barrier: slots, or the cores of its instance in the mask. -/
def members (s : State) (part : Nat) (i : BarrierId) (m : Members) : List Nat :=
  let cand := match i.level with
    | 1 => upFrom 0 16
    | 2 => upFrom (i.core / 4 * 4) 4
    | 3 => upFrom (i.core / 16 * 16) 16
    | 4 => upFrom (i.core / 512 * 512) 512
    | 5 => upFrom (i.core / 2048 * 2048) 2048
    | _ =>
      let p := (partOf s part).pods
      ((upFrom 0 1024).filter fun n => n == s.pkg || (p.getLsbD n && (m.all || m.pkgs.getLsbD n))).flatMap
        fun n => upFrom (n * 2048) 2048
  cand.filter fun k => inMask s part i.level m k

/-- Every member has arrived: the phase advances, arrived bits clear, a pending mask takes effect and held
engine arrivals, one for each member, are made in the new phase; that of no member of it has no effect (R189, R190).
`fuel` bounds the phases. -/
def settle (part : Nat) (i : BarrierId) : Nat → State → State
  | 0, s => s
  | n + 1, s =>
    let b := barrierOf s i
    let ms := members s part i b.mask
    if !b.failed && !b.arrived.isEmpty && ms.all fun m => b.arrived.contains m then
      let mask := b.next.getD b.mask
      let due := b.held.eraseDups
      let now := due.filter fun m => inMask s part i.level mask m
      settle part i n (setBarrier s i { b with
        mask := mask, next := none, phase := b.phase + 1
        failed := false
        arrived := now
        held := due.foldl List.erase b.held
        waits := now.foldl (fun w m => SMap.insert w m (b.phase + 1)) b.waits })
    else s

/-- An arrival of a member not yet arrived in the phase (R189): the pending flag and waitphase are the
entry of `waits`. -/
def countArrival (s : State) (part : Nat) (i : BarrierId) (m : Nat) : State :=
  let b := barrierOf s i
  settle part i 4096 (setBarrier s i { b with arrived := m :: b.arrived, waits := SMap.insert b.waits m b.phase })

/-- m.pending, with m.waitphase (R189, R199). -/
def pendingWait (b : Barrier) (m : Nat) : Option (BitVec 32) := (b.waits.find? fun p => p.1 == m).map Prod.snd

/-- A wait that began with waitphase `ph` can end (R199). -/
def waitEnded (b : Barrier) (ph : Nat) : Bool := b.phase.toNat != ph || b.failed

/-- The wait of a member ends: its pending flag is cleared, unless it has arrived again since (R199). -/
def endWait (s : State) (i : BarrierId) (m ph : Nat) : State :=
  let b := barrierOf s i
  setBarrier s i { b with waits := b.waits.filter fun p => !(p.1 == m && p.2.toNat == ph) }

/-- An engine's arrival (R189): no effect at a failed barrier or for no member; held while the member has
already arrived in the phase. -/
def engineArrive (s : State) (part : Nat) (i : BarrierId) (m : Nat) : State :=
  let b := barrierOf s i
  if b.failed || !inMask s part i.level b.mask m then s
  else if b.arrived.contains m then setBarrier s i { b with held := b.held ++ [m] }
  else countArrival s part i m

/-- A mask replacement (R190). -/
def rewriteMask (s : State) (i : BarrierId) (m : Members) : State :=
  let b := barrierOf s i
  if b.arrived.isEmpty then setBarrier s i { b with mask := m, next := none, failed := false }
  else setBarrier s i { b with next := some m, failed := false }

/-- Whether a barrier key is of die level or wider and has a member on the die (R191). -/
def barrierTouches (s : State) (key d : Nat) (m : Members) : Bool :=
  let part := key / 2 ^ 40
  let level := key / 2 ^ 32 % 256
  decide (4 ≤ level) && (upFrom (d * 512) 512).any fun c =>
    inMask s part level m c && (level != 4 || key % 2 ^ 32 / 16 == d)

/-- Every wait for the phase in which a barrier fails is over, with status 1; one whose phase had completed keeps its status 0
(R191, R199). -/
def wakeFailed (s : State) (key phase : Nat) : State :=
  { s with ctxs := SMap.mapOn none (fun _ o => o.map fun x => match x.wait with
      | some (.barrier k ph) => if k = key ∧ ph = phase then { x with wait := some (.barrierFailed k ph) } else x
      | _ => x) s.ctxs }

/-- Barriers with a member on a die that became unreachable fail (R191): those of the partitions with clusters
on it, whether or not an arrival has been made. -/
def failBarriers (s : State) (d : Nat) : State :=
  let keys := s.parts.flatMap fun p =>
    [4, 5, 6].flatMap fun lv => (upFrom 0 16).map fun n => (barrierId p.1 (d * 512) 0 lv n).key
  keys.foldl (fun s k =>
    let b := SMap.get ({} : Barrier) s.barriers k
    if barrierTouches s k d b.mask then
      wakeFailed { s with barriers := SMap.set {} s.barriers k { b with failed := true } } k b.phase.toNat
    else s) s

end Sys2Proof.Machine
end

