-- ==== Sys2Proof/Machine/Switch.lean ====
section
/-! DEFINITION. Dispatch and the switch of a task (R43 to R46, R123 to R127, R376): the choice of a
bind record, the shadow banks, the exchange, the spill and the accumulators. -/

namespace Sys2Proof.Machine

-- DEDUCED, log 30. Safe.
-- DEDUCED, log 27. Unsafe.
/-- A requested pre-emption is taken (R126): where the choice is another record, nothing of the task issues any
more, and a ring operation that has not started is cancelled (R248). -/
def takePreempt (s : State) (c : Nat) : State :=
  match (coreOf s c).cur with
  | some b =>
    if (coreOf s c).preReq then
      let s := dispatchOver (modCore s c fun x => { x with due := none }) c b
      if (coreOf s c).swap.isSome then modCore s c fun x =>
        { x with stopped := true
                 mx := match x.mx with
                   | some m => if m.running then some m else none
                   | none => none }
      else s
    else s
  | none => s

/-- No context of the task masks pre-emption (R126). -/
def unmasked (s : State) (c : Nat) : Bool :=
  match (coreOf s c).cur with
  | some b => (taskCtxs s c b).all fun p => !stPmask (statusOf s p.1)
  | none => true

/-- `pmask` has changed from what the status `before` held: where it returned to 0 with `ppend` set, the switch happens at
the context's next boundary (R126, R138). -/
def unmask (before f : Nat) (s : State) : State :=
  if stPmask before && !stPmask (statusOf s f) && stPpend (statusOf s f) && unmasked s s.iss.core
  then modCore s s.iss.core fun x => { x with due := some f } else s

-- DEDUCED, log 60. Safe.
-- DEDUCED, log 28. Unsafe.
/-- A slice ends and another begins: ready records that waited gain a slice, then the choice is made (R376). -/
def sliceEnd (s : State) (c b : Nat) : State :=
  let s := (readyBinds s c).foldl (fun s r => modBind s c r fun x =>
    { x with wslices := if x.wslices = BitVec.allOnes 16 then x.wslices else x.wslices + 1 })
    (modCore s c fun x => { x with aging := none, sliceAt := s.time })
  dispatchOver s c b

/-- The context has been suspended (R332). -/
def suspendTask (s : State) (f : Nat) : State :=
  match ctxOf s f with
  | none => s
  | some x => suspendCheck s x.core x.bind

/-- A suspended record becomes ready when one of its contexts has no pending entry (R332). -/
def resumeTask (s : State) (f : Nat) : State :=
  match ctxOf s f with
  | none => s
  | some x =>
    if (bindOf s x.core x.bind).state == 3 && ringCount s f == 0 then
      let s := modBind s x.core x.bind fun r => { r with state := 1, rtime := BitVec.ofNat 55 s.time.toNat }
      if (coreOf s x.core).cur == some x.bind && (coreOf s x.core).swap.isNone
      then dispatchOver s x.core x.bind
      else dispatchFree s x.core
    else s

/-! The fault ring (R333, R334). -/

/-- The access held at place `k` of a fault ring. -/
def ringReq (s : State) (f k : Nat) : Option Req :=
  (s.faulted.find? fun p => p.2.frame == f && p.1 == ringSeq s f k).map Prod.snd

/-- The head passes the free entries before the first pending one. -/
def advanceHead (s : State) (f : Nat) : Nat → State
  | 0 => s
  | n + 1 =>
    if ringCount s f = 0 then setRing s f (ringTail s f) (ringTail s f) 0
    else if ringState s f (ringHead s f) = 0 then
      advanceHead (setRing s f (ringHead s f + 1) (ringTail s f) (ringCount s f)) f n
    else s

/-- Entry `k` is freed. -/
def freeRing (s : State) (f k : Nat) : State :=
  let q := ringSeq s f k
  let s := setRing (setRingState s f k 0) f (ringHead s f) (ringTail s f) (ringCount s f - 1)
  advanceHead { s with faulted := s.faulted.filter fun p => !(p.2.frame == f && p.1 == q) } f 512

/-- The access of place `k` is being performed again. -/
def replaying (s : State) (f k : Nat) : Bool :=
  (s.reqs.any fun r => r.frame == f && r.ring == some k) || s.rets.any fun r => r.frame == f && r.ring == some k

/-- The replay of place `k` has been performed and its result has landed: its entry is freed (R334). -/
def endReplay (s : State) (f : Nat) (ring : Option Nat) : State :=
  match ring with
  | none => s
  | some k => resumeTask (freeRing s f k) f

/-- A pre-emption is wanted of the record in slot 0 (R43, R377, R399): it is preemptible, and a record
of higher effective priority or a fresh gang record is ready, or its die is to be reset. -/
def wantsPreempt (s : State) (c : Nat) : Bool :=
  match (coreOf s c).cur with
  | none => false
  | some b =>
    (bindOf s c b).pre && !(coreOf s c).preReq && (coreOf s c).swap.isNone &&
      ((dieSt s (dieOf c)).halted ||
        (readyBinds s c).any fun r =>
          decide (eprio s c b < eprio s c r) || ((bindOf s c r).gang && (bindOf s c r).fresh))

/-! The stages of a switch (R123). -/

-- DESIGN CHOICE, log 88. Unsafe.
/-- The words of the lines of a frame in memory. -/
def loadWords (s : State) (f : Nat) : SMap Word :=
  (upFrom 0 640).foldl (fun m w => SMap.set 0 m w (readWord s (frameAddr f w))) []

/-- The words of lines 0 to 39 of a frame whose memory copy is poisoned (R387). -/
def loadPoison (s : State) (f : Nat) : BitVec 640 :=
  BitVec.ofNat 640 (packBits 1 ((upFrom 0 640).map fun w => if poisoned s (frameAddr f w) 8 then 1 else 0))

/-- What stage 1 puts into a shadow bank (R123). -/
def loadBank (s : State) (f : Nat) : Bank :=
  { frame := some f, words := loadWords s f, valid := BitVec.allOnes 40, dirty := 0, poison := loadPoison s f }

/-- A half that the spill writes: its line dirty, and live under the mask (R125). -/
def spillsHalf (b : Bank) (live : Option PredBits) (h : Nat) : Bool :=
  b.dirty.getLsbD (h / 2) &&
    (match live with
      | none => true
      | some m => decide (8 ≤ h ∧ h ≤ 15) || m.getLsbD h)

/-- Half `h` of a frame, of 64 bytes, written from a bank over the cached network; a poisoned word carries its mark
(R123, R387). -/
def spillHalf (cl : Nat) (b : Bank) (f : Nat) (s : State) (h : Nat) : State :=
  let ws := upFrom (8 * h) 8
  let s := homeWrite s (.cluster cl) (dramTarget (f * 8192 + 64 * h)) 64 (packBits 64 (ws.map fun w => (SMap.get 0 b.words w).toNat))
  { s with poison := (ws.filter fun w => b.poison.getLsbD w).foldl (fun m w => SMap.set false m (frameAddr f w / 8) true) s.poison }

-- DESIGN CHOICE, log 8. Safe.
/-- Stage 3: the dirty lines of a bank written to the frame, at the live halves when a liveness point was
the place of the switch (R123, R125). A dead half of memory keeps an earlier value of the frame, or takes the value at
the point (R125). -/
def spillBank (s : State) (cl : Nat) (b : Bank) (f : Nat) (live : Option PredBits) : State :=
  ((upFrom 0 80).filter fun h => spillsHalf b live h ||
    (b.dirty.getLsbD (h / 2) && Config.pick (s.tick * 2 ^ 80 + h) % 2 == 1)).foldl (spillHalf cl b f) s

-- DEDUCED, log 19. Unsafe.
/-- A pre-emption cancels a context's wait (R192); a served window LDSYNC and a wait whose phase is over stay completed. -/
def cancelWait (s : State) (f : Nat) : State :=
  match ctxOf s f with
  | none => s
  | some x => match x.wait with
    | some (.request o) =>
      match s.wreqs.find? fun r => r.ord == o with
      | some r =>
        let s := match r.entry with
          | some e => setEntry s f e 0
          | none => s
        modCtx { s with wreqs := s.wreqs.filter fun r => r.ord != o } f fun x => { x with wait := none }
      | none =>
        if (s.flushes.any fun r => r.ord == o) || (s.drops.any fun r => r.ord == o) then
          modCtx { s with flushes := s.flushes.filter (fun r => r.ord != o)
                          drops := s.drops.filter fun r => r.ord != o } f fun x => { x with wait := none }
        else s
    | some (.engine _) | some (.barrierFailed _ _) | some (.fifoGone _) => s
    | some (.barrier key ph) =>
      if waitEnded (barrierOf s (waitBarrier x key)) ph then s else modCtx s f fun x => { x with wait := none }
    | _ => modCtx s f fun x => { x with wait := none }

/-- Stage 2 for one slot: the outgoing bank goes to the shadow, the loaded one becomes active. -/
def exchangeSlot (s : State) (c k : Nat) : State :=
  let sl := slotOf s c k
  let s := occupy s c k sl.shadow
  modSlot s c k fun x => { x with shadow := sl.act, quiet := true }

-- DESIGN CHOICE, log 92. Unsafe.
/-- What an outgoing context leaves with: no wait (R192), a broken watch set (R168), a report to come
(R139). -/
def leaveSlot (s : State) (f : Nat) : State :=
  modCtx (setStatus (cancelWait s f) f 3 3 0) f fun x =>
    { x with broken := x.broken || !x.watch.isEmpty, saving := true, saved := false }

/-- A message, or a staged capsule for class 2, waits on a class bound to a task (R179). -/
def hasMessage (s : State) (c b k : Nat) : Bool :=
  if k = 2 then (coreOf s c).capQ.any fun p => p.1 == b else (SMap.get [] (coreOf s c).classQ k).any fun m => m.own == b

/-- What an incoming context is bound with: its ready bit (R179), and in a redundant task the trailing
slot's `sys.lfsr` (R392). -/
def enterSlot (s : State) (c f : Nat) (x : Ctx) : State :=
  let s := modSlot s c x.slot fun sl =>
    { sl with ready := ctxKind s f == 2 && hasMessage s c x.bind (ctxClass s f) }
  let s := modCtx s f fun x => { x with saving := false, saved := false, live := none }
  if x.twin.isSome then setLfsr s c (x.slot + 8) (lfsrOf s c x.slot) false else s

-- DEDUCED, log 27. Unsafe.
/-- The task in slot 0 can leave: no matrix operation or walk of it is in flight (R46), and no
trap waits for its entry (R138). Copy commands and PFR run on (R292, R319). -/
def mayLeave (s : State) (c : Nat) : Bool :=
  let x := coreOf s c
  match x.cur with
  | none => true
  | some b => !(match x.mx with
      | some m => m.running
      | none => false) && x.wk.isNone &&
      (taskCtxs s c b).all fun p => p.2.trap.isNone

/-- The banks exchange and slot 0 belongs to the incoming task (R43, R123, R127). -/
def exchange (s : State) (c : Nat) (w : Swap) : State :=
  let out := match (coreOf s c).cur with
    | some b => taskCtxs s c b
    | none => []
  let s := out.foldl (fun s p => leaveSlot s p.1) s
  let s := modCore s c fun x => { x with mx := none }
  let slots := (upFrom 0 16).filter fun k => w.slots.contains k || out.any fun p => p.2.slot == k
  let s := slots.foldl (fun s k => exchangeSlot s c k) s
  let s := match (coreOf s c).cur with
    | some b =>
      if (coreOf s c).accUsed then modCore s c fun x => { x with accJobs := x.accJobs ++ [.save b] } else s
    | none => s
  let s := match w.next with
    | some b => modCore s c fun x => { x with accJobs := x.accJobs ++ [.restore b] }
    | none => s
  let s := modCore s c fun x => { x with swap := none, cur := w.next, accUsed := false, preReq := false, stopped := false
                                         due := none, exited := [], preCycles := 0 }
  match w.next with
  | some b => suspendCheck ((taskCtxs s c b).foldl (fun s p => enterSlot s c p.1 p.2) (newSlice s c b)) c b
  | none => s

end Sys2Proof.Machine
end

