-- ==== Sys2Proof/Machine/MemEvents.lean ====
section
/-! DEFINITION. Events of memory and of results: the service of paged requests at their home slices
(R101, R106, R308, R313, R398), translation misses and page faults (R330 to R333), long results (R41)
and trap entry (R133). -/

namespace Sys2Proof.Machine

/-- A load, LDSYNC or LDW is served at a target: refused when the die is out (R398; for a gather's lane a
lane fault, R236), poison consumed (R388), else its value. A watch-load reads at the home slice (R168). -/
def serveLoad (s : State) (r : Req) (t : Target) : State :=
  let s1 := dropReq s r
  let cl := clusterOf r.core
  if !targetReach s (dieOf r.core) t then
    if r.fdst ≠ 0 then reqResult s1 r (laneFault r) [] else reqResult s1 r [] [reqTrap r 0x04 8 r.off]
  else
    let s2 := if r.op = 7 then noteSlice s1 t else noteRead s1 cl t
    if poisoned s t.flat r.size then reqResult (logPoison s2 r.frame t.flat r.pc) r (laneMark r 0) [reqTrap r 0x0B 0 0]
    else if r.op = 7 then reqResult (serveWatch s2 r t) r (reqWrites r (readBytes s t.flat r.size)) []
    else reqResult s2 r (reqWrites r (loadBytes s2 cl t r.size)) []

/-- A paged store refused because its home is out takes a journal entry in the refused state (R398); none
free leaves it at the port. -/
def refuseStore (s : State) (r : Req) : State :=
  match freeJournal s r.core with
  | none => s
  | some k =>
    let s := dropReq s r
    match ctxOf s r.frame with
    | none => s
    | some x => reqResult (setApend (openJournal s r.core k
        { state := 2, frame := r.frame, slot := x.slot, kind := 3, size := BitVec.ofNat 3 r.size.log2, addr := r.addr,
          data := r.data, cause := 3 }) r.frame) r (laneMark r 0) []

/-- A store is applied at its home (R308). -/
def serveStore (s : State) (r : Req) (t : Target) : State :=
  if !targetReach s (dieOf r.core) t then refuseStore s r
  else
    let s1 := addUnfenced (dropReq s r) r.core r.frame t.flat
    reqResult (homeWrite s1 (.context r.core) t r.size (r.data.toNat % 2 ^ (8 * r.size))) r (laneMark r 0) []

/-- What an ATOM or CAS request writes, from the old value (R166, R167). -/
def atomicNew (r : Req) (old : Nat) : Option Nat :=
  let m := 2 ^ (8 * r.size)
  if r.op = 2 then some (atomNew r.fn.toNat r.ty.toNat old (r.data.toNat % m))
  else if old = r.data.toNat % m then some (r.data2.toNat % m) else none

/-- An ATOM or CAS as one request and one event at its home (R106). -/
def serveAtomic (s : State) (r : Req) (t : Target) : State :=
  let s1 := dropReq s r
  if !targetReach s (dieOf r.core) t then reqResult s1 r [] [reqTrap r 0x04 8 r.off]
  else
    let s2 := noteSlice s1 t
    let old := readBytes s t.flat r.size
    if poisoned s t.flat r.size then reqResult (logPoison s2 r.frame t.flat r.pc) r [] [reqTrap r 0x0B 0 0] else
    let s3 := match atomicNew r old with
      | some v => homeWriteIn [] false (addUnfenced s2 r.core r.frame t.flat) (.context r.core) t r.size v
      | none => s2
    reqResult s3 r (reqWrites r old) []

-- DEDUCED, log 24. Unsafe.
/-- A replayed access that has been performed and returns nothing is over (R334). -/
def served (r : Req) (s : State) : State :=
  if r.ring.isSome && r.entry.isNone && !(s.reqs.any fun q => q.ord == r.ord) then endReplay s r.frame r.ring else s

-- DEDUCED, log 15. Unsafe.
/-- LINE_FILL_SERVE: the n-th request, a load whose turn it is, is served (R305, R313). -/
def execLineFillServe (n : Nat) (s : State) : Host.Outcome State Fault Refusal :=
  .next <| match s.reqs[n]? with
    | some r => match r.target with
      | some t => if !opWrites r.op && r.op != 6 && reqReady s r then served r (serveLoad s r t) else s
      | none => s
    | none => s

-- DEDUCED, log 15. Unsafe.
/-- STORE_APPLY_HOME: the n-th request, a store or atomic whose turn it is, is applied (R308). -/
def execStoreApplyHome (n : Nat) (s : State) : Host.Outcome State Fault Refusal :=
  .next <| match s.reqs[n]? with
    | some r => match r.target with
      | some t =>
        if (r.op == 1 || r.op == 5) && reqReady s r then served r (serveStore s r t)
        else if (r.op == 2 || r.op == 3) && reqReady s r then served r (serveAtomic s r t)
        else s
      | none => s
    | none => s

/-- A request's miss: the cluster TLB, a walk, and the micro-TLB filled while its context holds the slot (R330). -/
def reqXlate (s : State) (r : Req) (part : Nat) : State × Found :=
  if (slotOf s r.core r.slot).act.frame == some r.frame then missWalk s r.core r.slot part r.addr.toNat
  else portXlate s (clusterOf r.core) part r.addr.toNat

-- DESIGN CHOICE, log 17. Unsafe.
/-- TLB_MISS_WALK: the n-th request's miss is looked up and walked, after those of its context's earlier accesses; a
missing or forbidden translation is a page fault (R330, R332, R333). -/
def execTlbMissWalk (n : Nat) (s : State) : Host.Outcome State Fault Refusal :=
  .next <| match s.reqs[n]? with
    | some r =>
      if r.target.isSome || faultsLater s r then s
      else match ctxOf s r.frame with
        | none => dropReq s r
        | some x =>
          match reqXlate s r (ctxPart s x) with
          | (s1, .page level e) => match permFault r.op e with
            | some c => suspendTask (recordFault s1 r c level) r.frame
            | none => { s1 with reqs := s1.reqs.map fun q =>
                if q.ord = r.ord then { q with target := some (target s.pkg r.addr.toNat level e) } else q }
          | (s1, .bad c level) => suspendTask (recordFault s1 r c level) r.frame
    | none => s

/-! Long results (R41) and traps (R133). -/

/-- Something still to come for a context's long-result entry. -/
def entryBusy (s : State) (f e : Nat) : Bool :=
  let q (r : Req) : Bool := r.frame == f && r.entry == some e
  s.reqs.any q || s.wreqs.any q || (s.faulted.any fun p => q p.2) ||
    (s.rets.any fun r => r.frame == f && r.entry == e) ||
    (s.net.any fun m => m.frame == f && m.entry == some e)

/-- A result lands in its context's frame, wherever that is; its entry closes with the last part (R41,
R119, R124); a register that the second of its pair has written keeps that value (R54). The faults of a handler's run are its own (R115). A replayed access ends with it (R334). -/
def landResult (s : State) (r : Ret) : State :=
  let kept := ((ctxOf s r.frame).map Ctx.overs).getD []
  let s := (r.writes.filter fun w => !kept.contains (r.entry, w.spec)).foldl (fun s w => writeRegBits s r.frame w) s
  let add (l : List (Nat × TrapInfo)) := r.late.foldl (fun l t => addLate l r.ord t) l
  let inh := stInh (statusOf s r.frame)
  let s := modCtx s r.frame fun x => { x with late := if inh then x.late else add x.late, hlate := if inh then add x.hlate else x.hlate }
  let s := match r.ring with
    | none => s
    | some k => freeRing s r.frame k
  let s := if entryBusy s r.frame r.entry then s
    else modCtx (setEntry (settleRacing s r.frame) r.frame r.entry 0) r.frame fun x => { x with overs := x.overs.filter fun p => p.1 != r.entry }
  if r.ring.isSome then resumeTask s r.frame else s

/-- LONG_RESULT_RETURN: the n-th result returns (R41). -/
def execLongResultReturn (n : Nat) (s : State) : Host.Outcome State Fault Refusal :=
  .next <| match s.rets[n]? with
    | some r => if r.ready then landResult { s with rets := s.rets.eraseIdx n } r else s
    | none => s

/-- TRAP_ENTRY: a trap that waited for outstanding long results is taken (R42, R133). -/
def execTrapEntry (core slot : Nat) (s : State) : Host.Outcome State Fault Refusal :=
  .next <| match (slotOf s core slot).act.frame with
    | some f => match ctxOf s f with
      | some x => if x.trap.isSome && noPending s f then resolveTrap s f else s
      | none => s
    | none => s

/-- A word that is not an instruction, at issue (R68). -/
def execNotAnInstructionIssue (word : BitVec 96) (s : State) : Host.Outcome State Fault Refusal :=
  match (slotOf s s.iss.core s.iss.slot).act.frame with
  | none => .refused .noContext
  | some f => if (ctxOf s f).isSome then .next (trapNow 0x01 0 0 f { s with iss := { s.iss with word := word } })
    else .refused .noContext

end Sys2Proof.Machine
end

