-- ==== Sys2Proof/Machine/Flags.lean ====
section
/-! DEFINITION. Predicates, the machine's flags: conditions (R58), whole-register verdicts (R149) and
element masks (R56, R209). -/

namespace Sys2Proof.Machine

/-- A condition code of `extra` on two integers (R58). -/
def condInt (c : Nat) (a b : Int) : Bool :=
  match c with
  | 0 => decide (a = b)
  | 1 => decide (a ≠ b)
  | 2 => decide (a < b)
  | 3 => decide (a ≤ b)
  | 4 => decide (b < a)
  | _ => decide (b ≤ a)

/-- All 128 bits set or cleared (R149). -/
def predAll (b : Bool) : Nat := if b then 2 ^ 128 - 1 else 0

/-- A guard or element mask bit (R56). -/
def maskBit (p i : Nat) (neg : Bool) : Bool := bitOf p i != neg

/-- PLOG over 128 bits (R153). -/
def predLog (fn a b : Nat) : Nat :=
  match fn with
  | 0 => a &&& b
  | 1 => a ||| b
  | 2 => a ^^^ b
  | _ => a &&& ((2 ^ 128 - 1) ^^^ b)

end Sys2Proof.Machine
end

