-- ==== Sys2Proof/Machine/Issue.lean ====
section
/-! DEFINITION. What every issued instruction does before its own effect: the check that the word is
an instruction (R68), the guard (R56), poisoned register lines (R388), the binding of an engine (R31). -/

namespace Sys2Proof.Machine

/-- The frame of the context in the issuing slot, when the slot holds one (R24, R36). -/
def issuer (s : State) : Option Nat :=
  match (slotOf s s.iss.core s.iss.slot).act.frame with
  | none => none
  | some f => if (ctxOf s f).isSome then some f else none

/-- Bit 0 of the guard predicate, inverted by `pn` (R56). -/
def guardTrue (s : State) (f : Nat) (h : Hdr) : Bool :=
  maskBit (readReg s f (pSpec h.pg.toNat)) 0 h.pn

/-- The frame words of a register or segment register that an instruction reads (R118). -/
def readWords (spec : BitVec 8) : List Nat :=
  if isS spec then [78 + idx spec / 4, 80 + 2 * idx spec, 81 + 2 * idx spec]
  else upFrom (regWords spec).1 (regWords spec).2

/-- The segment registers. -/
def segSpecs : List (BitVec 8) := (upFrom 0 8).map fun k => BitVec.ofNat 8 (0xC0 + k)

/-- The words of the guard: bit 0 of its predicate (R56). -/
def guardWords (h : Hdr) : List Nat := if h.pg = 0 then [] else [(regWords (pSpec h.pg.toNat)).1]

/-- The first of the words that is poisoned, in the frame or in its trailing copy (R387, R388, R392). -/
def markedWord (s : State) (f : Nat) (ws : List Nat) : Option Nat :=
  let twin := (ctxOf s f).bind Ctx.twin
  ws.find? fun w => wordMarked s f w || (match twin with
    | some t => wordMarked s t w
    | none => false)

/-- A poisoned register word has been read: a record, and the trap `0x0B`, at which the frame's lines are scrubbed
(R388, R389); in a redundant pair, a mismatch (R392). -/
def registerPoison (f w : Nat) (s : State) : State :=
  match ctxOf s f with
  | none => s
  | some x =>
    if x.twin.isSome then setEnd (pairMismatch s f) .trapped
    else
      let at_ := frameAddr f w
      let s := logError (noteTables s (ctxPart s x)) (ctxPart s x) 1 0 (dieOf x.core % 4 * 2 ^ 60 + at_ % 2 ^ 60) 8
        (ctxIdent s f) s.iss.pc 0 (leavesFrom s at_ 8 4 (partOf s (ctxPart s x)).root 3 0)
      setEnd (takeTrap s f { code := 0x0B, cause := 0, addr := 0, pc := s.iss.pc, word := s.iss.word, async := false
                             scrub := true }) .trapped

/-- `body`, unless a word that the instruction reads is poisoned (R388). -/
def unmarked (f : Nat) (ws : List Nat) (s : State) (body : State → State) : State :=
  match markedWord s f ws with
  | some w => registerPoison f w s
  | none => body s

/-- An instruction of the issuing context: refused where there is none; an illegal word traps (R68); a
false guard leaves only the end of the issue (R56). `specs` are the registers it reads. -/
def withIssue (i : Instr) (h : Hdr) (specs : List (BitVec 8)) (s : State) (body : Nat → State → State) :
    Host.Outcome State Fault Refusal :=
  match issuer s with
  | none => .refused .noContext
  | some f =>
    if !legal i then .next (trapNow 0x01 0 0 f s)
    else .next (unmarked f (guardWords h) s fun s =>
      if !guardTrue s f h then finish h f s else unmarked f (specs.flatMap readWords) s (body f))

/-- Element `e` of `w` bits is active under a mask (R56, R209). -/
def laneOn (w m e : Nat) : Bool := bitOf m (w / 8 * e)

/-- Some element of a register is active. -/
def someLane (w m : Nat) : Bool := (upFrom 0 (1024 / w)).any (laneOn w m)

/-- The 64-bit words of a vector register in which some element is active, or every one. -/
def laneWords (all : Bool) (w m : Nat) : List Nat :=
  (upFrom 0 16).filter fun k =>
    let l := (upFrom (64 / w * k) (64 / w)).map (laneOn w m)
    if all then l.all id else l.any id

/-- The frame words of a register that the active elements read; a register that is not a vector is read whole by the
first of them (R56, R388). -/
def activeWords (w m : Nat) (spec : BitVec 8) : List Nat :=
  if isV spec then (laneWords false w m).map fun k => (regWords spec).1 + k
  else if someLane w m then readWords spec else []

/-- The words of registers read whole by an instruction with an active element. -/
def wholeIf (on : Bool) (specs : List (BitVec 8)) : List Nat := if on then specs.flatMap readWords else []

-- DEDUCED, log 76. Unsafe.
/-- A vector instruction: the guard is an element mask and stops nothing as a whole, but for the code that is never true
(R56). `reads` are the frame words that it reads under a mask. -/
def withVector (i : Instr) (h : Hdr) (reads : Nat → State → Nat → List Nat) (s : State) (body : Nat → State → State) :
    Host.Outcome State Fault Refusal :=
  match issuer s with
  | none => .refused .noContext
  | some f =>
    if !legal i then .next (trapNow 0x01 0 0 f s)
    else .next (if h.pg = 0 ∧ h.pn then finish h f s
      else unmarked f (if h.pg = 0 then [] else readWords (pSpec h.pg.toNat)) s fun s =>
        unmarked f (reads f s (readReg s f (pSpec h.pg.toNat) ^^^ (if h.pn then 2 ^ 128 - 1 else 0))) s (body f))

/-- The control context's frame of the issuing context's task. -/
def controlFrame (s : State) (f : Nat) : Nat :=
  match ctxOf s f with
  | none => f
  | some x => (ctxTask s x).ctl

/-- The matrix binding names the issuing slot (R31, R34). -/
def matrixBound (s : State) (f : Nat) : Bool :=
  let e := (readFrame s (controlFrame s f) wEngbind).toNat
  bitOf e 15 && bitsOf e 11 8 == s.iss.slot

/-- The copy binding names the issuing slot (R31, R34). -/
def copyBound (s : State) (f : Nat) : Bool :=
  let e := (readFrame s (controlFrame s f) wEngbind).toNat
  bitOf e 7 && bitsOf e 3 0 == s.iss.slot

end Sys2Proof.Machine
end

