-- ==== Sys2Proof/Machine/Operands.lean ====
section
/-! DEFINITION. The operand forms of R141, written once: sources, typed values, results. -/

namespace Sys2Proof.Machine

/-- `src(x)` (R141): the register, or the sign-extended immediate. -/
def src (s : State) (f : Nat) (spec : BitVec 8) (imm : BitVec 32) : Nat :=
  if isImm spec then lowBits 64 (sextInt 32 imm.toNat) else readReg s f spec

/-- The low `w` bits of a value read by type: signed for the i types, unsigned for the n types. -/
def asInt (ty v : Nat) : Int :=
  if tySigned ty then sextInt (tyWidth ty) v else ((v % 2 ^ tyWidth ty : Nat) : Int)

/-- `val(x)` (R141). -/
def val (s : State) (f ty : Nat) (spec : BitVec 8) (imm : BitVec 32) : Int := asInt ty (src s f spec imm)

-- DESIGN CHOICE, log 58. Safe.
/-- The 64 bits that `put(y)` writes (R141). -/
def putVal (ty : Nat) (y : Int) : Nat := extend ty (lowBits (tyWidth ty) y)

/-- The least and the greatest value of an integer type. -/
def tyMin (ty : Nat) : Int := if tySigned ty then -(2 ^ (tyWidth ty - 1) : Int) else 0
def tyMax (ty : Nat) : Int := if tySigned ty then 2 ^ (tyWidth ty - 1) - 1 else 2 ^ tyWidth ty - 1

/-- `clamp(y)` (R141). -/
def clampTy (ty : Nat) (y : Int) : Int := max (tyMin ty) (min (tyMax ty) y)

-- DESIGN CHOICE, log 58. Safe.
/-- The end of the integer instructions: `if sat = 1 then put(clamp(y)) else put(y)` (R143). -/
def putSat (sat : Bool) (ty : Nat) (y : Int) : Nat := putVal ty (if sat then clampTy ty y else y)

/-- Write a register and complete, a short result (R39). -/
def finishReg (h : Hdr) (d : BitVec 8) (v : Nat) (f : Nat) (s : State) : State :=
  finish h f (writeReg s f d v)

end Sys2Proof.Machine
end

