-- ==== Sys2Proof/Machine/ThreadAlu.lean ====
section
/-! DEFINITION. Thread engine: integer arithmetic, logic, shifts, fields, compares and moves
(R143 to R153). -/

namespace Sys2Proof.Machine

abbrev Out := Host.Outcome State Fault Refusal

/-- The short two-operand integer form (R143, R146): `g` gives y from val(a) and val(b). -/
def intOp (i : Instr) (w : RWord) (s : State) (g : Int → Int → Int) : Out :=
  withIssue i w.hdr [w.a, w.b] s fun f s =>
    let t := tyOf w.hdr
    finishReg w.hdr w.d (putSat (qSat w.qual) t (g (val s f t w.a w.imm) (val s f t w.b w.imm))) f s

/-- The same form on the low w bits of src(a) and src(b) (R146). -/
def bitsOp (i : Instr) (w : RWord) (s : State) (g : Nat → Nat → Nat → Int) : Out :=
  withIssue i w.hdr [w.a, w.b] s fun f s =>
    let t := tyOf w.hdr
    let n := tyWidth t
    finishReg w.hdr w.d (putVal t (g n (src s f w.a w.imm % 2 ^ n) (src s f w.b w.imm))) f s

/-- The count of a shift: src(b)[5:0] mod w (R146). -/
def shiftCount (n b : Nat) : Nat := b % 64 % n

/-- The count and reversal form (R148). -/
def countOp (i : Instr) (w : RWord) (s : State) (g : Nat → Nat → Nat) : Out :=
  withIssue i w.hdr [w.a] s fun f s =>
    let n := tyWidth (tyOf w.hdr)
    finishReg w.hdr w.d (g n (readReg s f w.a % 2 ^ n)) f s

/-- Rotation left by `k` within `n` bits (R146). -/
def rotl (n x k : Nat) : Nat := ((x <<< k) ||| (x >>> (n - k))) % 2 ^ n

-- DESIGN CHOICE, log 58. Safe.
/-- q of R144. -/
def divQ (ty : Nat) (a b : Int) : Int :=
  if b = 0 then (if tySigned ty then -1 else 2 ^ tyWidth ty - 1) else a.tdiv b
/-- r of R144. -/
def divR (ty : Nat) (a b : Int) : Int := if b = 0 then a else a - divQ ty a b * b

def execAdd (w : RWord) (s : State) : Out := intOp (.add w) w s fun a b => a + b
def execSub (w : RWord) (s : State) : Out := intOp (.sub w) w s fun a b => a - b
def execMul (w : RWord) (s : State) : Out := intOp (.mul w) w s fun a b => a * b
/-- The high w bits of the exact product (R143). -/
def execMulh (w : RWord) (s : State) : Out :=
  intOp (.mulh w) w s fun a b => a * b / 2 ^ tyWidth (tyOf w.hdr)
def execMin (w : RWord) (s : State) : Out := intOp (.min w) w s fun a b => if a ≤ b then a else b
def execMax (w : RWord) (s : State) : Out := intOp (.max w) w s fun a b => if b ≤ a then a else b

/-- DIV (R144): a long result. -/
def execDiv (w : RWord) (s : State) : Out :=
  withIssue (.div w) w.hdr [w.a, w.b] s fun f s =>
    let t := tyOf w.hdr
    finishLong w.hdr w.d (putSat (qSat w.qual) t (divQ t (val s f t w.a w.imm) (val s f t w.b w.imm))) f s
/-- REM (R144): a long result. -/
def execRem (w : RWord) (s : State) : Out :=
  withIssue (.rem w) w.hdr [w.a, w.b] s fun f s =>
    let t := tyOf w.hdr
    finishLong w.hdr w.d (putVal t (divR t (val s f t w.a w.imm) (val s f t w.b w.imm))) f s

/-- LEA (R145). -/
def execLea (w : RWord) (s : State) : Out :=
  withIssue (.lea w) w.hdr [w.a, w.b] s fun f s =>
    finishReg w.hdr w.d (lowBits 64 (((readReg s f w.a + readReg s f w.b * 2 ^ qExtra w.qual : Nat) : Int) +
      sextInt 32 w.imm.toNat)) f s

def execAnd (w : RWord) (s : State) : Out := bitsOp (.and w) w s fun n a b => ((a &&& b % 2 ^ n : Nat) : Int)
def execOr (w : RWord) (s : State) : Out := bitsOp (.or w) w s fun n a b => ((a ||| b % 2 ^ n : Nat) : Int)
def execXor (w : RWord) (s : State) : Out := bitsOp (.xor w) w s fun n a b => ((a ^^^ b % 2 ^ n : Nat) : Int)
def execAndn (w : RWord) (s : State) : Out :=
  bitsOp (.andn w) w s fun n a b => ((a &&& ((2 ^ n - 1) ^^^ b % 2 ^ n) : Nat) : Int)
def execShl (w : RWord) (s : State) : Out := bitsOp (.shl w) w s fun n a b => ((a * 2 ^ shiftCount n b : Nat) : Int)
def execShr (w : RWord) (s : State) : Out := bitsOp (.shr w) w s fun n a b => ((a / 2 ^ shiftCount n b : Nat) : Int)
def execSra (w : RWord) (s : State) : Out := bitsOp (.sra w) w s fun n a b => sextInt n a / 2 ^ shiftCount n b
def execRot (w : RWord) (s : State) : Out := bitsOp (.rot w) w s fun n a b => ((rotl n a (shiftCount n b) : Nat) : Int)

/-- pos and len of R147. -/
def fieldPos (w : RWord) : Nat := fld w.imm 5 0
def fieldLen (w : RWord) : Nat := fld w.imm 13 8 + 1

/-- BFX (R147). -/
def execBfx (w : RWord) (s : State) : Out :=
  withIssue (.bfx w) w.hdr [w.a] s fun f s =>
    let x := readReg s f w.a / 2 ^ fieldPos w % 2 ^ fieldLen w
    finishReg w.hdr w.d (if tySigned (tyOf w.hdr) then lowBits 64 (sextInt (fieldLen w) x) else x) f s

/-- BFI (R147). -/
def execBfi (w : RWord) (s : State) : Out :=
  withIssue (.bfi w) w.hdr [w.a, w.b] s fun f s =>
    finishReg w.hdr w.d
      (putBits (readReg s f w.a) (fieldPos w + fieldLen w - 1) (fieldPos w) (readReg s f w.b)) f s

def execClz (w : RWord) (s : State) : Out := countOp (.clz w) w s clz
def execCtz (w : RWord) (s : State) : Out := countOp (.ctz w) w s ctz
def execPopc (w : RWord) (s : State) : Out := countOp (.popc w) w s popcount
def execBrev (w : RWord) (s : State) : Out := countOp (.brev w) w s brev

/-- CMP (R149): all 128 bits of p[d]. -/
def execCmp (w : RWord) (s : State) : Out :=
  withIssue (.cmp w) w.hdr [w.a, w.b] s fun f s =>
    let t := tyOf w.hdr
    finishReg w.hdr w.d
      (predAll (condInt (qExtra w.qual) (val s f t w.a w.imm) (val s f t w.b w.imm))) f s

/-- SEL (R150). -/
def execSel (w : RWord) (s : State) : Out :=
  withIssue (.sel w) w.hdr [w.a, w.b, w.c] s fun f s =>
    finishReg w.hdr w.d (if bitOf (readReg s f w.c) 0 then readReg s f w.a else src s f w.b w.imm) f s

/-- MOV (R151): general registers or predicates. -/
def execMov (w : RWord) (s : State) : Out :=
  withIssue (.mov w) w.hdr [w.a] s fun f s => finishReg w.hdr w.d (src s f w.a w.imm) f s

/-- MOVI (R152): a vector destination receives the immediate in every 64-bit part. -/
def execMovi (w : LWord) (s : State) : Out :=
  withIssue (.movi w) w.hdr [] s fun f s =>
    finishReg w.hdr w.d
      (if isV w.d then packBits 64 (List.replicate 16 w.imm.toNat) else w.imm.toNat) f s

/-- PLOG (R153). -/
def execPlog (w : RWord) (s : State) : Out :=
  withIssue (.plog w) w.hdr [w.a, w.b] s fun f s =>
    finishReg w.hdr w.d (predLog (fnOf w.hdr) (readReg s f w.a) (readReg s f w.b)) f s

end Sys2Proof.Machine
end

