-- ==== Sys2Proof/Machine/MemInstr.lean ====
section
/-! DEFINITION. Thread engine: loads, stores, atomics, watched lines and fences (R164 to R172). -/

namespace Sys2Proof.Machine

/-- A head load whose FIFO bank is switched ends at once: the destination keeps its value and the segment
trap with cause 6 comes at the run's end (R302). -/
def fifoLost (w : MWord) (f : Nat) (off : Int) (s : State) : State :=
  withEntry w.data 0 f s fun e s =>
    finish w.hdr f (sendResult s f e [] [{ code := 0x04, cause := 6, addr := eaddrOf off, pc := s.iss.pc,
                                           word := s.iss.word, async := false }])

/-- A thread access through a segment: held for a bank in transition (R95), checked (R98), then `body`. -/
def memAccess (i : Instr) (w : MWord) (specs : List (BitVec 8)) (r : AccessRule) (s : State)
    (body : Nat → Ctx → Seg → Int → Nat → State → State) : Out :=
  withIssue i w.hdr specs s fun f s =>
    match ctxOf s f with
    | none => s
    | some x =>
      let g := readSeg s f w.seg.toNat
      let off := memOff s f w
      match x.wait with
      | some (.fifoGone head) => if head then fifoLost w f off s else trapNow 0x04 6 (eaddrOf off) f s
      | _ =>
        if bankHeld s x g off then hold .retry f s
        else match checkSeg s x g r off with
          | .error c => trapNow 0x04 c (eaddrOf off) f s
          | .ok a => body f x g off a s

def memSpecs (w : MWord) : List (BitVec 8) :=
  [w.base, BitVec.ofNat 8 (0xC0 + w.seg.toNat)] ++ (if isImm w.index then [] else [w.index])

def wBytes (ty : Nat) : Nat := tyWidth ty / 8

/-- The request of a scalar access. -/
def scalarReq (s : State) (f : Nat) (x : Ctx) (w : MWord) (op : BitVec 3) (off : Int) (a : Nat)
    (e : Option Nat) : Req :=
  { ord := s.ord, core := x.core, slot := x.slot, frame := f, pc := s.iss.pc, word := s.iss.word, op := op,
    fn := if op = 2 then w.hdr.fn.extractLsb' 0 3 else 0, qual := w.qual, size := wBytes (tyOf w.hdr), addr := BitVec.ofNat 64 a,
    off := eaddrOf off, elem := 0xFF, data := 0, data2 := 0, ty := w.hdr.ty, dst := if e.isSome then w.data else 0,
    fdst := 0, take := false, entry := e, target := none }

def pushWindow (s : State) (r : Req) : State :=
  { s with wreqs := s.wreqs ++ [{ r with ord := s.ord }], ord := s.ord + 1 }

/-- A result of a near access: poison is consumed as R388 says. -/
def nearResult (w : MWord) (f e flat n v : Nat) (s : State) : State :=
  if poisoned s flat n then
    finish w.hdr f (sendResult (logPoison s f flat s.iss.pc) f e []
      [{ code := 0x0B, cause := 0, addr := 0, pc := s.iss.pc, word := s.iss.word, async := false }])
  else finish w.hdr f (sendResult s f e [regWrite w.data (extend (tyOf w.hdr) v)] [])

/-- Near accesses are performed at issue, once R103 lets them be. -/
def nearReady (s : State) (f : Nat) (x : Ctx) (q : BitVec 8) (flat : Nat) : Bool :=
  mayPerform s x.core f q (nearPlace s flat)

/-- The order of the context's arrival at a FIFO bank's head or tail, and the state after it: that of its wait there, or
a new one (R304). -/
def fifoArrival (s : State) (x : Ctx) (cl b : Nat) (head : Bool) : Nat × State :=
  let new := (s.ord, { s with ord := s.ord + 1 })
  match x.wait with
  | some (.fifoHead c k o) => if head && c == cl && k == b then (o, s) else new
  | some (.fifoTail c k o) => if !head && c == cl && k == b then (o, s) else new
  | _ => new

/-- LD of a FIFO bank's head: it removes the oldest entry in its turn, or blocks (R303, R304). -/
def headLoad (w : MWord) (f : Nat) (x : Ctx) (cl b : Nat) (s : State) : State :=
  withEntry w.data 0 f s fun e s' =>
    let (o, s1) := fifoArrival s x cl b true
    match fifoOf s cl b with
    | v :: rest =>
      if fifoFirst s cl b true o then finish w.hdr f (sendResult (setFifo s' cl b rest) f e [regWrite w.data v.toNat] [])
      else block (.fifoHead cl b o) f s1
    | [] => block (.fifoHead cl b o) f s1

/-- A store to a FIFO bank's tail: it appends its entry in its turn, or holds at issue (R303, R304). -/
def tailStore (w : MWord) (f : Nat) (x : Ctx) (cl b v : Nat) (s : State) : State :=
  let (o, s1) := fifoArrival s x cl b false
  if decide ((fifoOf s cl b).length < 16384) && fifoFirst s cl b false o
  then finish w.hdr f (setFifo s cl b (fifoOf s cl b ++ [BitVec.ofNat 64 v]))
  else hold (.fifoTail cl b o) f s1

/-- LD (R164, R303). -/
def execLd (w : MWord) (s : State) : Out :=
  let n := wBytes (tyOf w.hdr)
  memAccess (.ld w) w (memSpecs w) { need := needRd, size := n, align := n, ports := [8, 16] } s
    fun f x g off a s =>
      match segKind g with
      | 0 => withEntry w.data 0 f s fun e s => finish w.hdr f (pushReq s (scalarReq s f x w 0 off a (some e)))
      | 3 => withEntry w.data 0 f s fun e s => finish w.hdr f (pushWindow s (scalarReq s f x w 0 off a (some e)))
      | k =>
        let flat := nearFlat x k a
        let cl := clusterOf x.core
        let b := a / 2 ^ 17
        if !nearReady s f x w.qual flat then hold .retry f s
        else if k = 2 && bankMode s cl b == 3 then
          if a % 2 ^ 17 = 8 then headLoad w f x cl b s
          else withEntry w.data 0 f s fun e s =>
            finish w.hdr f (sendResult s f e [regWrite w.data (fifoOf s cl b).length] [])
        else withEntry w.data 0 f s fun e s => nearResult w f e flat n (threadBytes s flat n) s

/-- A remote store takes a journal entry and retires; with none free it holds at issue (R112, R114). -/
def remoteStore (w : MWord) (kind : BitVec 3) (f : Nat) (x : Ctx) (a n v : Nat) (s : State) : State :=
  match freeJournal s x.core with
  | none => hold .retry f s
  | some k =>
    finish w.hdr f (openJournal s x.core k
      { state := 1, frame := f, slot := x.slot, kind := kind, size := BitVec.ofNat 3 n.log2, addr := BitVec.ofNat 64 a,
        data := BitVec.ofNat 64 (v % 2 ^ (8 * n)), rel := qRel w.qual, scope := qScope w.qual, sent := !qRel w.qual,
        todo := [winCluster a], pc := s.iss.pc })

/-- ST and STF (R164, R165, R303). -/
def storeAccess (i : Instr) (w : MWord) (stf : Bool) (s : State) : Out :=
  let n := wBytes (tyOf w.hdr)
  memAccess i w (w.data :: memSpecs w)
    { need := if stf then needWr + needFe else needWr, size := n, align := n, ports := [0] } s
    fun f x g off a s =>
      let v := readReg s f w.data % 2 ^ (8 * n)
      match segKind g with
      | 0 => finish w.hdr f (pushReq s { scalarReq s f x w (if stf then 5 else 1) off a none with data := BitVec.ofNat 64 v })
      | 3 => remoteStore w (if stf then 1 else 0) f x a n v s
      | k =>
        let flat := nearFlat x k a
        let cl := clusterOf x.core
        let b := a / 2 ^ 17
        if !nearReady s f x w.qual flat then hold .retry f s
        else if k = 2 && bankMode s cl b == 3 then tailStore w f x cl b v s
        else finish w.hdr f (nearStore s x.core f flat n v stf)

def execSt (w : MWord) (s : State) : Out := storeAccess (.st w) w false s
def execStf (w : MWord) (s : State) : Out := storeAccess (.stf w) w true s

/-- LDSYNC (R107, R165, R192): a near word is waited for in the slot; through the window the port waits. -/
def execLdsync (w : MWord) (s : State) : Out :=
  let n := wBytes (tyOf w.hdr)
  let take := qExtra w.qual % 2 == 1
  memAccess (.ldsync w) w (memSpecs w)
    { need := needRd + needFe + (if take then needWr else 0), size := n, align := n } s
    fun f x g off a s =>
      match segKind g with
      | 0 => withEntry w.data 0 f s fun e s => finish w.hdr f (pushReq s (scalarReq s f x w 4 off a (some e)))
      | 3 =>
        match x.wait with
        | some (.request o) => if s.wreqs.any fun r => r.ord == o then block (.request o) f s else finish w.hdr f s
        | _ => withEntry w.data 0 f s fun e s =>
            block (.request s.ord) f (pushWindow s { scalarReq s f x w 4 off a (some e) with take := take })
      | k =>
        let flat := nearFlat x k a
        if !nearReady s f x w.qual flat then hold .retry f s
        else if !isFull s flat then block (.full flat) f s
        else withEntry w.data 0 f s fun e s =>
          let s := if take then setFull s flat false else s
          nearResult w f e flat n (readBytes s flat n) s

/-- LDW (R168): the load, and an entry of the watch set; a fifth breaks the set. -/
def execLdw (w : MWord) (s : State) : Out :=
  memAccess (.ldw w) w (memSpecs w) { need := needRd + needWr + needAt, size := 8, align := 8, kinds := [0] } s
    fun f x _ off a s =>
      withEntry w.data 0 f s fun e s =>
        let o := s.ord
        let s := pushReq s (scalarReq s f x w 7 off a (some e))
        let s := modCtx s f fun x =>
          if 4 ≤ x.watch.length then { x with broken := true }
          else { x with watch := x.watch ++ [{ seg := w.seg.toNat, off := off.toNat, addr := a, ord := o, line := 0,
                                               home := none, served := false, changed := false }] }
        finish w.hdr f s

/-- The segment registers that a CST of the issuing context rechecks (R169). -/
def watchSpecs (s : State) : List (BitVec 8) :=
  match (issuer s).bind (ctxOf s) with
  | some x => if x.broken then [] else x.watch.map fun w => BitVec.ofNat 8 (0xC0 + w.seg)
  | none => []

-- DESIGN CHOICE, log 69. Unsafe.
/-- The segments of a watch set as they now stand (R169): the first failure's cause and offset, or the
words' addresses. What is checked is each recorded word, at its offset from the segment's present base. -/
def recheckWatch (s : State) (f : Nat) (x : Ctx) : List Watch → Except (Nat × Int) (List Nat)
  | [] => .ok []
  | w :: rest =>
    let g := readSeg s f w.seg
    let off : Int := (w.addr : Int) - g.base.toNat
    match checkSeg s x g { need := needRd + needWr + needAt, size := 8, align := 8, kinds := [0] } off with
    | .error c => .error (c, off)
    | .ok _ => match recheckWatch s f x rest with
      | .error e => .error e
      | .ok l => .ok (w.addr :: l)

-- DESIGN CHOICE, log 94. Unsafe.
/-- Translations of a watch set's words; none when one has none or may not be written (R332). -/
def watchTargets (x : Ctx) : List Nat → State → Option (State × List Target)
  | [], s => some (s, [])
  | a :: rest, s =>
    match engineXlate s x.core x.slot (ctxPart s x) a with
    | (s, .page level e) =>
      let t := target s.pkg a level e
      if pteW e && targetReach s (dieOf x.core) t then (watchTargets x rest s).map fun p => (p.1, t :: p.2) else none
    | (_, .bad _ _) => none

/-- The home of a watched word is out of reach only until its route has been changed (R398). -/
def watchWaits (x : Ctx) : List Nat → State → Bool
  | [], _ => false
  | a :: rest, s =>
    match engineXlate s x.core x.slot (ctxPart s x) a with
    | (s, .page level e) => targetWaits s (dieOf x.core) s.ord (target s.pkg a level e) || watchWaits x rest s
    | (_, .bad _ _) => false

/-- A line of a context's watch set has changed since its LDW, or has not been read yet (R169). -/
def watchChanged (s : State) (f : Nat) : Bool :=
  (ctxOf s f).any fun x => x.watch.any fun w => w.changed || !w.served

/-- The stores of a CST, one event and one request: element j of the vector at entry j's word, none of whose lines gives
way to another (R169, R314). -/
def storeWatched (v core f : Nat) (keep : List Nat) : List Target → Nat → State → State
  | [], _, s => s
  | t :: rest, j, s => storeWatched v core f keep rest (j + 1)
      (homeWriteIn keep (j == 0) (addUnfenced s core f t.flat) (.context core) t 8 (bitsOf v (64 * j + 63) (64 * j)))

/-- CST (R169, R314). -/
def execCst (w : MWord) (s : State) : Out :=
  let p := pSpec (qExtra w.qual)
  withIssue (.cst w) w.hdr (w.data :: watchSpecs s) s fun f s =>
    match ctxOf s f with
    | none => s
    | some x =>
      if !(outstanding s f).isEmpty || journalBlocks s x.core f s.ord w.qual none then hold .retry f s
      else
        let clear (s : State) := modCtx s f fun x => { x with watch := [], broken := false }
        let verdict (ok : Bool) (s : State) : State :=
          withEntry p 0 f s fun e s => finish w.hdr f (sendResult (clear s) f e [regWrite p (predAll ok)] [])
        if x.watch.isEmpty || x.broken then verdict false s
        else match recheckWatch s f x x.watch with
          | .error (c, off) => trapNow 0x04 c (eaddrOf off) f (clear s)
          | .ok as =>
            if (freeEntry s f).isNone then hold .retry f s
            else if watchChanged s f then verdict false s
            else if watchWaits x as s then hold .retry f s
            else match watchTargets x as s with
              | none => verdict false s
              | some (s, ts) =>
                if watchChanged s f then verdict false s
                else verdict true (storeWatched (readReg s f w.data) x.core f (ts.map (·.flat / 256)) ts 0 s)

/-- ATOM and CAS in near memory: one event at issue (R106). -/
def nearAtomic (w : MWord) (f : Nat) (x : Ctx) (flat : Nat) (new : Nat → Option Nat) (s : State) : State :=
  let n := wBytes (tyOf w.hdr)
  if !nearReady s f x w.qual flat then hold .retry f s
  else withEntry w.data 0 f s fun e s =>
    let old := readBytes s flat n
    let s1 := match new old with
      | some v => nearStore s x.core f flat n v false
      | none => s
    if poisoned s flat n then nearResult w f e flat n old s
    else finish w.hdr f (sendResult s1 f e [regWrite w.data (extend (tyOf w.hdr) old)] [])

def atomRule (ty : Nat) : AccessRule :=
  { need := needRd + needWr + needAt, size := wBytes ty, align := wBytes ty }

/-- ATOM (R166). -/
def execAtom (w : MWord) (s : State) : Out :=
  memAccess (.atom w) w (w.data :: memSpecs w) (atomRule (tyOf w.hdr)) s fun f x g off a s =>
    let v := readReg s f w.data
    match segKind g with
    | 0 => withEntry w.data 0 f s fun e s =>
        finish w.hdr f (pushReq s { scalarReq s f x w 2 off a (some e) with data := BitVec.ofNat 64 v })
    | 3 => withEntry w.data 0 f s fun e s =>
        finish w.hdr f (pushWindow s { scalarReq s f x w 2 off a (some e) with data := BitVec.ofNat 64 v })
    | k => nearAtomic w f x (nearFlat x k a)
        (fun old => some (atomNew (fnOf w.hdr) (tyOf w.hdr) old (v % 2 ^ tyWidth (tyOf w.hdr)))) s

/-- CAS (R167): g[k] expected, g[k+1] new. -/
def execCas (w : MWord) (s : State) : Out :=
  memAccess (.cas w) w (w.data :: gSpec (idx w.data + 1) :: memSpecs w) (atomRule (tyOf w.hdr)) s fun f x g off a s =>
    let v := readReg s f w.data
    let v2 := readReg s f (gSpec (idx w.data + 1))
    match segKind g with
    | 0 => withEntry w.data 0 f s fun e s =>
        finish w.hdr f (pushReq s { scalarReq s f x w 3 off a (some e) with
          data := BitVec.ofNat 64 v, data2 := BitVec.ofNat 64 v2 })
    | 3 => withEntry w.data 0 f s fun e s =>
        finish w.hdr f (pushWindow s { scalarReq s f x w 3 off a (some e) with
          data := BitVec.ofNat 64 v, data2 := BitVec.ofNat 64 v2 })
    | k => nearAtomic w f x (nearFlat x k a) (fun old =>
        if old = v % 2 ^ tyWidth (tyOf w.hdr) then some (v2 % 2 ^ tyWidth (tyOf w.hdr)) else none) s

/-- FENCE (R105, R171): blocks until every earlier access of the context is performed; a remote store is
performed once applied, whether or not it has been acknowledged. -/
def execFence (w : RWord) (s : State) : Out :=
  withIssue (.fence w) w.hdr [] s fun f s =>
    if allPerformed s s.iss.core f then finish w.hdr f s else block .retry f s

/-- XFENCE (R109, R172): blocks until the context's stores are engine-visible. -/
def execXfence (w : RWord) (s : State) : Out :=
  withIssue (.xfence w) w.hdr [] s fun f s =>
    if (outstanding s f).any fun r => opWrites r.op then block .retry f s
    else finish w.hdr f (modCore s s.iss.core fun x => { x with unfenced := afterFence f x.unfenced [] })

/-- PREF (R170): the slice may bring the line in; nothing else, whatever its checks find. -/
def execPref (w : MWord) (s : State) : Out :=
  withIssue (.pref w) w.hdr (memSpecs w) s fun f s =>
    match ctxOf s f with
    | none => s
    | some x =>
      match checkSeg s x (readSeg s f w.seg.toNat) { need := needRd, size := 1, align := 1, kinds := [0] } (memOff s f w) with
      | .error _ => finish w.hdr f s
      | .ok a => match engineXlate s x.core x.slot (ctxPart s x) a with
        | (s, .page level e) =>
          let t := target s.pkg a level e
          finish w.hdr f (match t.home with
            | some n => if targetReach s (dieOf x.core) t then askSectors s n (lineSectors t) else s
            | none => s)
        | (s, .bad _ _) => finish w.hdr f s

end Sys2Proof.Machine
end

