-- ==== Sys2Proof/Machine/Messages.lean ====
section
/-! DEFINITION. The message engine's instructions (R194 to R206): messages, calls, barriers, tags,
multicast and the journal. -/

namespace Sys2Proof.Machine

/-! Messages and calls (R195 to R198). -/

/-- A malformed destination coordinate (R195). -/
def destBad (a : Nat) : Bool := !inWindow a || bitOf a 38 || bitsOf a 33 0 != 0

-- DEDUCED, log 26. Safe.
/-- The header a receiver sees (R180); no rule states the source of a mailbox notice. -/
def msgHeader (m : Msg) : Nat :=
  m.tag.toNat * 2 ^ 48 + m.words.length * 2 ^ 43 + m.cls * 2 ^ 40 + m.status.toNat * 2 ^ 38 +
    (if m.hw && m.cls == 7 then Config.pick (m.ord * 2 ^ 80) % 2 ^ 21 * 2 ^ 10 else coordWord m.src / 2 ^ 33)

def msgPayload (m : Msg) : Nat := packBits 64 (m.words.map BitVec.toNat)

/-- The launch identifier of a context (R119). -/
def ctxLaunch (s : State) (f : Nat) : Word := BitVec.ofNat 64 (fld (ctxIdent s f) 63 32)

/-- A message leaves, its verdict a long result; a release one is held until R111 is met. -/
def sendMsg (w : RWord) (f : Nat) (x : Ctx) (cls dst : Nat) (tag : BitVec 16) (words : List Word) (call : Bool)
    (s : State) : State :=
  withEntry w.d 0 f s fun e s =>
    finish w.hdr f (pushMsg s
      { cls := cls, src := x.core, dst := dst, tag := tag, status := 0, words := words, call := call,
        launch := ctxLaunch s f, frame := f, slot := x.slot, entry := some e, held := qRel w.qual, ord := 0 })

/-- The destination check of SEND, CALLAT and SPAWN (R195, R197). -/
def withDest (w : RWord) (f : Nat) (s : State) (body : Ctx → Nat → State) : State :=
  match ctxOf s f with
  | none => s
  | some x =>
    let a := readReg s f w.a
    if destBad a then trapNow 0x0D 1 0 f s
    else if !inPart s (ctxPart s x) (winCluster a) then trapNow 0x0D 2 0 f s
    else body x (winCore a)

/-- SEND (R195). -/
def execSend (w : RWord) (s : State) : Out :=
  withIssue (.send w) w.hdr [w.a, w.b, w.c] s fun f s =>
    withDest w f s fun x dst =>
      sendMsg w f x (fld w.imm 2 0) dst (BitVec.ofNat 16 (readReg s f w.c))
        ((splitBits 64 (fld w.imm 8 4) (readReg s f w.b)).map (BitVec.ofNat 64)) false s

/-- The words of a task queue entry: the program counter and four arguments (R197). -/
def entryWords (s : State) (f : Nat) (w : RWord) : List Word :=
  BitVec.ofNat 64 (readReg s f w.b) :: (upFrom (idx w.c) 4).map fun k => BitVec.ofNat 64 (readReg s f (gSpec k))

/-- The registers CALLAT and SPAWN read. -/
def callSpecs (w : RWord) : List (BitVec 8) := [w.a, w.b] ++ (upFrom (idx w.c) 4).map gSpec

/-- CALLAT (R182, R197): holds while all 32 class 1 entries are reserved or occupied. -/
def execCallat (w : RWord) (s : State) : Out :=
  withIssue (.callat w) w.hdr (callSpecs w) s fun f s =>
    withDest w f s fun x dst =>
      if 32 ≤ (coreOf s x.core).reserved1 || (freeEntry s f).isNone then hold .retry f s
      else sendMsg w f x 0 dst (BitVec.ofNat 16 w.imm.toNat) (entryWords s f w) true
        (modCore s x.core fun c => { c with reserved1 := c.reserved1 + 1 })

/-- SPAWN (R197). -/
def execSpawn (w : RWord) (s : State) : Out :=
  withIssue (.spawn w) w.hdr (callSpecs w) s fun f s =>
    withDest w f s fun x dst => sendMsg w f x 0 dst 0 (entryWords s f w) false s

/-- REPLY (R198). -/
def execReply (w : RWord) (s : State) : Out :=
  withIssue (.reply w) w.hdr [w.a] s fun f s =>
    match ctxOf s f with
    | none => s
    | some x => match x.caller with
      | none => trapNow 0x0D 4 0 f s
      | some (c, tag, l) =>
        if x.replied then trapNow 0x0D 5 0 f s
        else
          let m := replyMsg x.core c tag 0 (BitVec.ofNat 64 (src s f w.a w.imm)) l
          finish w.hdr f (modCtx (pushMsg s { m with frame := f, held := qRel w.qual }) f fun x => { x with replied := true })

/-- Whether a message is for a context: one of class 1 for its launch, any other for its task, which the class was
bound to as it was queued (R179, R196). -/
def takesMsg (s : State) (f k : Nat) (m : Msg) : Bool :=
  if k = 1 then m.launch == ctxLaunch s f else some m.own == (ctxOf s f).map Ctx.bind

/-- The oldest message a context may take from a class (R196). -/
def nextMsg (s : State) (c f k : Nat) : Option Msg :=
  (SMap.get [] (coreOf s c).classQ k).find? (takesMsg s f k)

/-- Remove the first message of a queue that the context takes. -/
def eraseMsg (s : State) (f k : Nat) : List Msg → List Msg
  | [] => []
  | m :: t => if takesMsg s f k m then t else m :: eraseMsg s f k t

/-- A message is received: out of its queue, header and payload to the registers (R196). -/
def takeMsg (w : RWord) (f : Nat) (x : Ctx) (k : Nat) (m : Msg) (s : State) : State :=
  let q := eraseMsg s f k (SMap.get [] (coreOf s x.core).classQ k)
  let s := modCore s x.core fun c =>
    { c with classQ := SMap.set [] c.classQ k q
             reserved1 := if k = 1 then c.reserved1 - 1 else c.reserved1 }
  let s := if m.hw && k == 7 then modPart s (ctxPart s x) fun p => { p with mbHead := p.mbHead + 1 } else s
  let s := if k ≠ 1 ∧ (q.find? (takesMsg s f k)).isNone then modSlot s x.core x.slot fun sl => { sl with ready := false } else s
  let s := writeReg s f w.d (msgHeader m)
  finish w.hdr f (writeReg s f w.b (if isG w.b then msgPayload m % 2 ^ 64 else msgPayload m))

/-- RECV and RECVNB (R196). -/
def receive (i : Instr) (w : RWord) (none_ : Nat → State → State) (s : State) : Out :=
  withIssue i w.hdr [] s fun f s =>
    match ctxOf s f with
    | none => s
    | some x =>
      let k := fld w.imm 2 0
      if k != 1 && !(ctxKind s f == 2 && ctxClass s f == k) then trapNow 0x0D 3 0 f s
      else match nextMsg s x.core f k with
        | some m => takeMsg w f x k m s
        | none => none_ f s

def execRecv (w : RWord) (s : State) : Out :=
  receive (.recv w) w (fun f s => block (.recv (fld w.imm 2 0)) f s) s

def execRecvnb (w : RWord) (s : State) : Out :=
  receive (.recvnb w) w (fun f s => finishReg w.hdr w.d 0 f s) s

/-! Barriers (R199, R200). -/

def immLevel (w : RWord) : Nat := fld w.imm 2 0
def immNum (w : RWord) : Nat := fld w.imm 7 4

/-- The barrier an instruction of a context names. -/
def namedBarrier (s : State) (x : Ctx) (w : RWord) : BarrierId :=
  barrierId (ctxPart s x) x.core x.bind (immLevel w) (immNum w)

/-- The member a context arrives for (R187). -/
def memberOf (x : Ctx) (level : Nat) : Nat := if level = 1 then x.slot else x.core

-- DEDUCED, log 31. Safe.
/-- An engine has made an arrival for the member, and the barrier has not counted it yet (R189, R246). -/
def arrivalComing (s : State) (x : Ctx) (i : BarrierId) (m : Nat) : Bool :=
  s.arrivals.any fun a => a.key == i.key && a.member == m && (i.level != 1 || (a.core == x.core && a.bind == x.bind))

/-- The arrival half (R189), then `next`; a release arrival is counted once R111 is met. -/
def arrive (w : RWord) (f : Nat) (x : Ctx) (s : State) (next : State → State) : State :=
  let i := namedBarrier s x w
  let m := memberOf x i.level
  let b := barrierOf s i
  if !inMask s (ctxPart s x) i.level b.mask m then trapNow 0x0D 7 0 f s
  else if (qRel w.qual && !cachedBefore s f s.ord) || !carrierUp s x.core i.level then hold .retry f s
  else if b.failed then next s
  else if b.arrived.contains m || arrivalComing s x i m then hold .retry f s
  else next (countArrival s (ctxPart s x) i m)

/-- The wait half (R199): 2 with no arrival outstanding, none made by an engine among them (R246), else 0 or 1 once the phase is over. -/
def barrierWait (w : RWord) (f : Nat) (x : Ctx) (s : State) : State :=
  let i := namedBarrier s x w
  let m := memberOf x i.level
  match pendingWait (barrierOf s i) m with
  | none => if arrivalComing s x i m then hold .retry f s else finishReg w.hdr w.d 2 f s
  | some ph =>
    let b := barrierOf s i
    if waitEnded b ph.toNat then
      finishReg w.hdr w.d (if b.phase != ph then 0 else 1) f (endWait s i m ph.toNat)
    else block (.barrier i.key ph.toNat) f s

-- DEDUCED, log 19. Unsafe.
/-- A wait that has begun ends with the phase it began in, or as the barrier fails (R191). -/
def barrierResume (w : RWord) (f : Nat) (x : Ctx) (ph : Nat) (failed : Bool) (s : State) : State :=
  let i := namedBarrier s x w
  let b := barrierOf s i
  if failed || waitEnded b ph then
    finishReg w.hdr w.d (if !failed && b.phase.toNat != ph then 0 else 1) f (endWait s i (memberOf x i.level) ph)
  else block (.barrier i.key ph) f s

-- DEDUCED, log 31. Safe.
-- DEDUCED, log 18. Safe.
/-- ARRIVE (R199). -/
def execArrive (w : RWord) (s : State) : Out :=
  withIssue (.arrive w) w.hdr [] s fun f s =>
    match ctxOf s f with
    | none => s
    | some x => arrive w f x s fun s => finish w.hdr f s

-- DEDUCED, log 31. Safe.
/-- BWAIT (R199). -/
def execBwait (w : RWord) (s : State) : Out :=
  withIssue (.bwait w) w.hdr [] s fun f s =>
    match ctxOf s f with
    | none => s
    | some x => match x.wait with
      | some (.barrier _ ph) => barrierResume w f x ph false s
      | some (.barrierFailed _ ph) => barrierResume w f x ph true s
      | _ => barrierWait w f x s

-- DEDUCED, log 31. Safe.
-- DEDUCED, log 19. Unsafe.
-- DEDUCED, log 18. Safe.
/-- BSYNC (R199): ARRIVE, then BWAIT at once; one issued again after a cancelled wait arrives anew. -/
def execBsync (w : RWord) (s : State) : Out :=
  withIssue (.bsync w) w.hdr [] s fun f s =>
    match ctxOf s f with
    | none => s
    | some x => match x.wait with
      | some (.barrier _ ph) => barrierResume w f x ph false s
      | some (.barrierFailed _ ph) => barrierResume w f x ph true s
      | _ => arrive w f x s fun s => barrierWait w f x s

/-- Bits of `g[a]` that a level uses (R188). -/
def levelBits (level : Nat) : Nat :=
  match level with
  | 2 => 4
  | 4 => 48
  | 5 => 52
  | 6 => 52
  | _ => 16

/-- The member set a BMASK names (R188). -/
def maskMembers (s : State) (f : Nat) (w : RWord) : Members :=
  let v := readReg s f w.a
  { all := false, cores := BitVec.ofNat 16 v, clusters := BitVec.ofNat 32 (v >>> 16), dies := BitVec.ofNat 4 (v >>> 48)
    pkgs := if immLevel w = 6 then BitVec.ofNat 1024 (readReg s f w.b) else 0 }

/-- Clusters that a mask names at a level, for an issuer on a core (R188). -/
def maskClusters (core level : Nat) (m : Members) : List Nat :=
  let cl (die : Nat) := ((upFrom 0 32).filter fun c => m.clusters.getLsbD c).map fun c => die * 32 + c
  let dies (pkg : Nat) := ((upFrom 0 4).filter fun d => m.dies.getLsbD d).map fun d => pkg * 4 + d
  if m.cores = 0 then []
  else match level with
    | 2 => [clusterOf core]
    | 3 => [clusterOf core]
    | 4 => cl (dieOf core)
    | 5 => (dies (pkgOf core)).flatMap cl
    | 6 => ((upFrom 0 1024).filter fun n => m.pkgs.getLsbD n).flatMap fun n => (dies n).flatMap cl
    | _ => []

-- DESIGN CHOICE, log 95. Unsafe.
/-- BMASK (R188, R190, R200). -/
def execBmask (w : RWord) (s : State) : Out :=
  withIssue (.bmask w) w.hdr [w.a, w.b] s fun f s =>
    match ctxOf s f with
    | none => s
    | some x =>
      let level := immLevel w
      let m := maskMembers s f w
      let ok := if level = 1 then (upFrom 0 16).all fun k => !m.cores.getLsbD k ||
            (taskCtxs s x.core x.bind).any fun p => p.2.slot == k && !p.2.trail
          else (maskClusters x.core level m).all fun c => inPart s (ctxPart s x) c
      if readReg s f w.a / 2 ^ levelBits level != 0 then trapNow 0x0D 12 0 f s
      else if !ok then trapNow 0x0D 6 0 f s
      else finish w.hdr f (rewriteMask s (namedBarrier s x w) m)

/-! The tag bitmap (R193, R201). -/

def tagsOf (s : State) (f : Nat) : Nat :=
  match ctxOf s f with
  | none => 0
  | some x => (ctxTask s x).tags.toNat

/-- Clear the reported tags under `.clr`. -/
def clearTags (w : RWord) (f bits : Nat) (s : State) : State :=
  match ctxOf s f with
  | none => s
  | some x => if qExtra w.qual % 2 = 1
    then modTask s x.core x.bind fun t => { t with tags := t.tags &&& ~~~(BitVec.ofNat 64 bits) } else s

/-- TWAITANY and TWAITALL (R201). -/
def tagWait (i : Instr) (w : RWord) (done : Nat → Nat → Bool) (s : State) : Out :=
  withIssue i w.hdr [w.a] s fun f s =>
    let m := src s f w.a w.imm
    let v := tagsOf s f &&& m
    if done v m then finishReg w.hdr w.d v f (clearTags w f v s) else block .retry f s

def execTwaitany (w : RWord) (s : State) : Out := tagWait (.twaitany w) w (fun v m => v != 0 || m == 0) s
def execTwaitall (w : RWord) (s : State) : Out := tagWait (.twaitall w) w (fun v m => v == m) s

/-- TFIND (R201). -/
def execTfind (w : RWord) (s : State) : Out :=
  withIssue (.tfind w) w.hdr [w.a] s fun f s =>
    let v := tagsOf s f &&& src s f w.a w.imm
    let k := ctz 64 v
    finishReg w.hdr w.d k f (if v = 0 then s else clearTags w f (2 ^ k) s)

/-! Remote stores (R113, R186, R203, R204). -/

/-- The clusters a multicast mask names, on a package (R186). -/
def mcstClusters (pkg m : Nat) : List Nat := ((upFrom 0 128).filter (bitOf m)).map fun i => pkg * 128 + i

/-- The clusters a journal entry has as destinations: for a multicast, those named. -/
def journalDests (j : JEntry) : List Nat :=
  if j.kind = 2 then mcstClusters (bitsOf j.addr.toNat 55 46) j.parts.toNat else [winCluster j.addr.toNat]

/-- Every destination of the entry lies within the S-instance of a core (R113, R186). -/
def wholeWithin (core scope : Nat) (j : JEntry) : Bool :=
  if scope = 6 then true
  else if j.kind = 2 || bitOf j.addr.toNat 38 then
    (journalDests j).all fun c => decide (3 ≤ scope) && levelInst (c * 16) scope == levelInst core scope
  else if scope ≤ 1 then winCore j.addr.toNat == core
  else levelInst (winCore j.addr.toNat) scope == levelInst core scope

/-- A destination cluster, or core, of the entry lies within the S-instance of a core (R20, R114). -/
def destWithin (core scope : Nat) (j : JEntry) : Bool :=
  if scope = 6 then true
  else if j.kind = 2 || bitOf j.addr.toNat 38 then
    (journalDests j).any fun c => decide (3 ≤ scope) && levelInst (c * 16) scope == levelInst core scope
  else if scope ≤ 1 then winCore j.addr.toNat == core
  else levelInst (winCore j.addr.toNat) scope == levelInst core scope

/-- SFENCE (R113, R186, R202): a refused entry counts as answered. -/
def execSfence (w : RWord) (s : State) : Out :=
  withIssue (.sfence w) w.hdr [] s fun f s =>
    let busy := (coreOf s s.iss.core).journal.any fun p =>
      p.2.state == 1 && p.2.frame == f && wholeWithin s.iss.core (qScope w.qual) p.2
    if busy then block .retry f s else finish w.hdr f s

def setLastMcst (s : State) (c k : Nat) (v : BitVec 16) : State := modSlot s c k fun sl => { sl with lastMcst := v }

/-- A slot's last MCST is now one that takes the journal entry numbered `q`, or one of no destination (R205). -/
def noteMcst (s : State) (c k : Nat) (v : BitVec 16) (q : Option (BitVec 16)) : State :=
  modSlot s c k fun sl => { sl with lastMcst := v, mcst := q }

/-- MCST (R186, R203). -/
def execMcst (w : RWord) (s : State) : Out :=
  withIssue (.mcst w) w.hdr [w.a, w.b, w.c] s fun f s =>
    match ctxOf s f with
    | none => s
    | some x =>
      let n := wBytes (tyOf w.hdr)
      let a := readReg s f w.a
      let m := readReg s f w.b % 2 ^ 128
      let cs := mcstClusters (bitsOf a 55 46) m
      if !inWindow a || !bitOf a 38 || bitsOf a 45 39 != 0 || bitsOf a 37 22 != 0 || bitsOf a 21 0 % n != 0 then
        trapNow 0x0D 1 0 f s
      else if m = 0 then
        withEntry w.d 0 f s fun e s =>
          finish w.hdr f (sendResult (noteMcst s x.core x.slot 1 none) f e [regWrite w.d 0] [])
      else if !cs.all fun c => inPart s (ctxPart s x) c then trapNow 0x08 0 0 f s
      else match freeJournal s x.core with
        | none => hold .retry f s
        | some k => withEntry w.d 0 f s fun e s =>
            finish w.hdr f (openJournal (noteMcst s x.core x.slot 3 (some (coreOf s x.core).jnext)) x.core k
              { state := 1, frame := f, slot := x.slot, kind := 2, size := BitVec.ofNat 3 n.log2, addr := BitVec.ofNat 64 a,
                data := BitVec.ofNat 64 (readReg s f w.c % 2 ^ (8 * n)), rel := qRel w.qual, scope := qScope w.qual,
                sent := !qRel w.qual, todo := cs, parts := BitVec.ofNat 128 m, entry := some e, pc := s.iss.pc })

/-- The two parts of a journal entry (R184). -/
def journalWord (j : JEntry) (part : Nat) : Nat :=
  if part = 1 then j.addr.toNat
  else j.jseq.toNat * 2 ^ 48 + j.slot * 2 ^ 20 + j.cause.toNat * 2 ^ 8 + j.size.toNat * 2 ^ 5 + j.kind.toNat * 2 ^ 2 +
    j.state.toNat

/-- JRD (R204): zero for an entry of another context or a malformed index. -/
def execJrd (w : RWord) (s : State) : Out :=
  withIssue (.jrd w) w.hdr [w.a] s fun f s =>
    let k := src s f w.a w.imm
    let j := jentry s s.iss.core k
    finishReg w.hdr w.d (if k < 64 && j.state != 0 && j.frame == f then journalWord j (qExtra w.qual % 2) else 0) f s

/-- The binding of a class on a core: the context's own task first (R179, R205). -/
def classBinding (s : State) (c b k : Nat) : Option (Nat × Ctx) :=
  let of (t : Task) : Option (Nat × Ctx) :=
    (t.svc.find? fun p => p.1 == k).bind fun p => (ctxOf s p.2).map fun x => (p.2, x)
  (of (taskOf s c b)).or ((coreOf s c).tasks.findSome? fun p => of p.2)

-- DEDUCED, log 66. Unsafe.
/-- MQUERY's word (R205). -/
def mqueryWord (s : State) (f : Nat) (x : Ctx) (sel : Nat) : Nat :=
  let c := coreOf s x.core
  let sl := slotOf s x.core x.slot
  if sel ≤ 7 then
    let n := if sel = 0 then c.taskQ.length else if sel = 2 then c.capQ.length else (SMap.get [] c.classQ sel).length
    let b := match classBinding s x.core x.bind sel with
      | some (_, y) => 2 ^ 6 + y.slot * 2 ^ 8
      | none => 0
    n % 64 + b + (SMap.get 0 c.refused sel).toNat * 2 ^ 16
  else if sel = 8 then sl.lastSend.toNat
  else if sel = 9 then sl.lastMcst.toNat
  else if sl.quiet then 0
  else
    let mine := (c.journal.filter fun p => p.2.state != 0 && p.2.frame == f).length
    let used := (c.journal.filter fun p => p.2.state != 0).length
    mine + (64 - used) * 2 ^ 8 + c.jnext.toNat * 2 ^ 16

/-- MQUERY (R205). -/
def execMquery (w : RWord) (s : State) : Out :=
  withIssue (.mquery w) w.hdr [] s fun f s =>
    match ctxOf s f with
    | none => s
    | some x => finishReg w.hdr w.d (mqueryWord s f x w.imm.toNat) f s

end Sys2Proof.Machine
end

