-- ==== Sys2Proof/Machine/MsgEvents.lean ====
section
/-! DEFINITION. Events of the message engine: window accesses at their destination ports (R95, R112,
R115 to R117, R185, R303), the journal (R114, R184, R186), messages, task queue entries (R27, R28,
R181) and engine arrivals at barriers (R189). -/

namespace Sys2Proof.Machine

/-! The trace ring (R116, R117). -/

-- DESIGN CHOICE, log 67. Unsafe.
-- DESIGN CHOICE, log 21. Safe.
/-- An applied remote access recorded by a cluster's port. With stop set it records while full is clear, also where
software has cleared full and the ring has not been started anew. -/
def traceRecord (s : State) (cl srcCore kind size jseq off : Nat) : State :=
  modCluster s cl fun x =>
    if !x.trEn || (x.trStop && x.trFull) then x
    else
      let e := s.time.toNat * 2 ^ 64 + coordWord srcCore + kind * 2 ^ 41 + size * 2 ^ 38 + jseq % 2 ^ 16 * 2 ^ 22 + off
      { x with
        trace := SMap.set 0 x.trace x.trHead.toNat (BitVec.ofNat 128 e)
        trHead := x.trHead + 1
        trFull := x.trFull || decide (1023 ≤ x.trCount.toNat)
        trCount := if x.trCount.toNat < 1024 then x.trCount + 1 else x.trCount }

/-! Accesses at a port. -/

/-- How a destination port meets a window access to flat memory. -/
inductive PortAnswer where
  /-- a bank in transition holds it -/
  | held
  | refused (cause : Nat)
  /-- a word of core-local memory or of a scratch bank -/
  | word (flat : Nat)
  /-- a FIFO bank, by cluster, bank and offset -/
  | port (cl bank off : Nat)
  deriving DecidableEq, Repr

/-- The partition that a cluster belongs to. -/
def partOfCluster (s : State) (cl : Nat) : Nat :=
  match s.parts.find? fun p => inPart s p.1 cl with
  | some p => p.1
  | none => 0

-- DESIGN CHOICE, log 57. Safe.
/-- The port's decision (R95, R185): a destination out of reach, out of the partition, or in a mode that
refuses. -/
def portOf (s : State) (core flat : Nat) : PortAnswer :=
  let region := flat / 2 ^ 64
  let isCl := decide (2 ^ 24 ≤ region)
  let cl := if isCl then region - 2 ^ 24 else clusterOf (region - 2 ^ 23)
  let off := flat % 2 ^ 64
  let b := off / 2 ^ 17
  if !reachable s (dieOf core) (dieOfCluster cl) then .refused 3
  else if !inPart s (partOfCluster s (clusterOf core)) cl then .refused 5
  else if !isCl then .word flat
  else if inTransition s cl b then .held
  else match bankMode s cl b with
    | 2 => .word flat
    | 3 => .port cl b (off % 2 ^ 17)
    | _ => .refused 1

/-- The result of a window load that is refused: cause 8, taken at the run's end (R115). -/
def refusedLoad (s : State) (r : Req) : State := reqResult s r [] [reqTrap r 0x04 8 r.off]

def dropWreq (s : State) (r : Req) : State := { s with wreqs := s.wreqs.filter fun q => q.ord != r.ord }

/-- A window load or LDSYNC of a word: an LDSYNC waits for it to be full (R107). -/
def wordLoad (s : State) (r : Req) (flat : Nat) : State :=
  if r.op == 4 && !isFull s flat then s
  else
    let s1 := dropWreq s r
    let s1 := if r.op == 4 && r.take then setFull s1 flat false else s1
    if poisoned s flat r.size then reqResult (logPoison s1 r.frame flat r.pc) r [] [reqTrap r 0x0B 0 0]
    else reqResult s1 r (reqWrites r (if r.op == 4 then readBytes s flat r.size else threadBytes s flat r.size)) []

/-- WINDOW_LOAD_SERVE: the n-th window request, a load whose turn it is, is served at its port (R115). -/
def execWindowLoadServe (n : Nat) (s : State) : Out :=
  .next <| match s.wreqs[n]? with
    | none => s
    | some r =>
      if opWrites r.op || !reqReady s r then s
      else match portOf s r.core (winFlat r.addr.toNat) with
        | .held => s
        | .refused _ => refusedLoad (dropWreq s r) r
        | .word flat => wordLoad s r flat
        | .port cl b off =>
          let q := fifoOf s cl b
          if r.op != 0 || r.size != 8 then refusedLoad (dropWreq s r) r
          else if off = 8 then
            if !q.isEmpty && !(fifoWaiters s cl b true).isEmpty then s
            else match q with
            | [] => refusedLoad (dropWreq s r) r
            | v :: rest => reqResult (setFifo (dropWreq s r) cl b rest) r (reqWrites r v.toNat) []
          else if off = 16 then reqResult (dropWreq s r) r (reqWrites r q.length) []
          else refusedLoad (dropWreq s r) r

-- DESIGN CHOICE, log 21. Safe.
/-- REMOTE_ATOMIC_APPLY: the n-th window request, an atomic whose turn it is, is applied at its port as one
event (R106, R166, R167). An atomic has no journal entry, and R117 states no jseq for it. -/
def execRemoteAtomicApply (n : Nat) (s : State) : Out :=
  .next <| match s.wreqs[n]? with
    | none => s
    | some r =>
      if !opWrites r.op || !reqReady s r then s
      else match portOf s r.core (winFlat r.addr.toNat) with
        | .held => s
        | .word flat =>
          let s1 := dropWreq s r
          if poisoned s flat r.size then reqResult (logPoison s1 r.frame flat r.pc) r [] [reqTrap r 0x0B 0 0]
          else
            let old := readBytes s flat r.size
            let s1 := match atomicNew r old with
              | some v => writeBytes (endOlder s1 none flat r.size) flat r.size v
              | none => s1
            let s1 := if clusBase 0 ≤ flat
              then traceRecord s1 (winCluster r.addr.toNat) r.core 2 r.size.log2 (Config.pick (s.tick * 2 ^ 80)) (flat % 2 ^ 64)
              else s1
            reqResult s1 r (reqWrites r old) []
        | _ => refusedLoad (dropWreq s r) r

/-! Remote stores (R112, R185). -/

/-- The flat address of one part of a journal entry. -/
def partFlat (j : JEntry) (cl : Nat) : Nat :=
  if j.kind = 2 then clusBase cl + fld j.addr 21 0 else winFlat j.addr.toNat

/-- A part's turn: sent; every earlier remote store of the context to the same memory applied (R112); and
every earlier access of the context that R103 a or e orders before it performed. -/
def partReady (s : State) (core : Nat) (j : JEntry) (cl : Nat) : Bool :=
  let flat := partFlat j cl
  j.state == 1 && j.sent && j.todo.contains cl && !routeWaits s (dieOf core) (flatDie flat) j.ord &&
    ((coreOf s core).journal.all fun p =>
      !(p.2.state == 1 && p.2.frame == j.frame && decide (p.2.ord < j.ord)) ||
        p.2.todo.all fun c => partFlat p.2 c / 2 ^ 64 != flat / 2 ^ 64) &&
    ((outstanding s j.frame).all fun r =>
      !decide (r.ord < j.ord) || (!qAcq r.qual && reqPlace s r != some (nearPlace s flat)))

/-- A part is applied: the word, or the tail of a FIFO bank; the cause of a refusal otherwise (R185, R303). -/
def applyPart (s : State) (core : Nat) (j : JEntry) (cl : Nat) : Option (Option Nat × State) :=
  let flat := partFlat j cl
  let n := 2 ^ j.size.toNat
  let traced (s : State) : State :=
    if clusBase 0 ≤ flat then
      traceRecord s cl core (if j.kind = 2 then 1 else if j.kind = 1 then 3 else 0) j.size.toNat j.jseq.toNat (flat % 2 ^ 64)
    else s
  match portOf s core flat with
  | .held => none
  | .refused c => some (some c, s)
  | .word flat =>
    if n < 8 && poisoned s flat n then
      some (some 4, logPoisonFor s (partOfCluster s (clusterOf core)) (ctxIdent s j.frame) flat j.pc)
    else
      let s := writeBytes (endOlder s none flat n) flat n j.data.toNat
      some (none, traced (if j.kind = 1 then setFull s flat true else s))
  | .port c b off =>
    if off ≠ 0 || n ≠ 8 then some (some 1, s)
    else if 16384 ≤ (fifoOf s c b).length then some (some 2, s)
    else if !(fifoWaiters s c b false).isEmpty then none
    else some (none, traced (setFifo s c b (fifoOf s c b ++ [j.data])))

/-- The stores of a core that a port counts among the last 65,536 entries of their source, as of an entry (R397). -/
def recentStores (l : List (Nat × Nat × BitVec 16)) (core num : Nat) : List (Nat × Nat × BitVec 16) :=
  l.filter fun a => a.1 == core && decide (num < a.2.1 + 65536)

/-- The port has applied a store of that core and sequence number among them: this one is a copy, and discarded (R397). -/
def appliedBefore (s : State) (cl core : Nat) (j : JEntry) : Bool :=
  (recentStores (clusterSt s cl).applied core j.num).any fun a => a.2.2 == j.jseq

/-- The port keeps what it has applied, and of that core no more than those. -/
def noteApplied (s : State) (cl core : Nat) (j : JEntry) : State :=
  modCluster s cl fun x =>
    { x with applied := (core, j.num, j.jseq) :: (x.applied.filter (·.1 != core) ++ recentStores x.applied core j.num) }

/-- REMOTE_STORE_APPLY: the part for cluster `part` of a core's journal entry reaches its port (R112). -/
def execRemoteStoreApply (core entry part : Nat) (s : State) : Out :=
  .next <|
    let j := jentry s core entry
    if !partReady s core j part then s
    else if appliedBefore s part core j then setJentry s core entry { j with todo := j.todo.erase part }
    else match applyPart s core j part with
      | none => s
      | some (c, s) =>
        let s := if c.isNone then noteApplied s part core j else s
        let j := { j with todo := j.todo.erase part }
        setJentry s core entry (match c with
          | none => { j with applied := j.applied ++ [part] }
          | some c => { j with refusals := j.refusals + 1, why := if j.kind = 2 then 0 else BitVec.ofNat 8 c })

/-- The slot from which a context issued still holds it (R205). -/
def stillIn (s : State) (core k f : Nat) : Bool :=
  (slotOf s core k).act.frame == some f && (ctxOf s f).isSome

-- DESIGN CHOICE, log 96. Unsafe.
/-- JOURNAL_ACK: the last acknowledgement of an entry arrives and frees it; a multicast's verdict is written
(R112, R186, R203). -/
def execJournalAck (core entry : Nat) (s : State) : Out :=
  .next <|
    let j := jentry s core entry
    if !(j.state == 1 && j.sent && j.todo.isEmpty && (j.refusals == 0 || j.kind == 2)) then s
    else
      let s := setJentry s core entry {}
      if j.kind = 2 then
        let s := if stillIn s core j.slot j.frame && (slotOf s core j.slot).mcst == some j.jseq
          then setLastMcst s core j.slot (BitVec.ofNat 16 (if j.refusals = 0 then 0 else 2 + j.refusals * 2 ^ 8)) else s
        match j.entry with
        | none => s
        | some e => sendResult s j.frame e
            [regWrite (BitVec.ofNat 8 (entryOf s j.frame e)) (predAll (j.refusals == 0))] []
      else s

-- DEDUCED, log 80. Safe.
/-- Parts applied whose acknowledgement a failed route has cut off (R395). -/
def lostParts (s : State) (core : Nat) (j : JEntry) : List Nat :=
  j.applied.filter fun cl => !reachable s (dieOf core) (dieOfCluster cl)

-- DEDUCED, log 80. Safe.
/-- JOURNAL_REFUSAL: a refusal arrives; the entry is marked and apend set, or it is freed when its context has
ended (R137, R184). A part in flight as its route fails is refused with cause 3 though it may have been applied; of a
multicast such parts are counted (R186, R395). -/
def execJournalRefusal (core entry : Nat) (s : State) : Out :=
  .next <|
    let j := jentry s core entry
    let lost := lostParts s core j
    if !(j.state == 1 && j.sent && j.todo.isEmpty && (j.refusals != 0 || !lost.isEmpty)) then s
    else if j.kind = 2 then
      setJentry s core entry
        { j with refusals := j.refusals + lost.length, applied := j.applied.filter fun cl => !lost.contains cl }
    else if j.dead then setJentry s core entry {}
    else setApend (setJentry s core entry { j with state := 2, cause := if j.refusals = 0 then 3 else j.why }) j.frame

-- DEDUCED, log 20. Unsafe.
/-- RELEASE_STORE_SEND: a held release store is sent once R114 is met, and what R103 f orders before it is performed. -/
def execReleaseStoreSend (core entry : Nat) (s : State) : Out :=
  .next <|
    let j := jentry s core entry
    let earlier := (coreOf s core).journal.any fun p =>
      p.2.state == 1 && p.2.frame == j.frame && decide (p.2.ord < j.ord) && destWithin core j.scope p.2
    if j.state == 1 && !j.sent && cachedBefore s j.frame j.ord && windowBefore s j.frame j.ord && !earlier
    then setJentry s core entry { j with sent := true } else s

/-- RELEASE_MESSAGE_SEND: the n-th message, held for a release, is sent once R111 is met. -/
def execReleaseMessageSend (n : Nat) (s : State) : Out :=
  .next <| match s.net[n]? with
    | none => s
    | some m => if m.held && cachedBefore s m.frame m.ord
        then { s with net := s.net.set n { m with held := false } } else s

/-! Messages (R27, R181). -/

/-- A message's turn: it is sent, and none of its class from its source to its destination is before it (R110). -/
def msgTurn (s : State) (n : Nat) (m : Msg) : Bool :=
  !m.held && (s.net.take n).all fun q => !(q.cls == m.cls && q.src == m.src && q.dst == m.dst)

/-- The verdict of a message returns to its sender: a predicate, a refusal's status for MQUERY (R29, R195). -/
def msgVerdict (s : State) (m : Msg) (code : Nat) : State :=
  match m.entry with
  | none => s
  | some e =>
    let s := if code ≠ 0 && stillIn s m.src m.slot m.frame
      then modSlot s m.src m.slot fun sl => { sl with lastSend := BitVec.ofNat 3 code } else s
    sendResult s m.frame e [regWrite (BitVec.ofNat 8 (entryOf s m.frame e)) (predAll (code == 0))] []

/-- Count a refusal or discard of a class at a core (R205). -/
def countRefused (s : State) (core k : Nat) : State :=
  modCore s core fun x => { x with refused := SMap.set 0 x.refused k (SMap.get 0 x.refused k + 1) }

-- DESIGN CHOICE, log 97. Unsafe.
def refuseMsg (s : State) (m : Msg) (code : Nat) : State :=
  let s := msgVerdict (if code = 5 then s else countRefused s m.dst m.cls) m code
  if m.call then modCore s m.src fun x => { x with reserved1 := x.reserved1 - 1 } else s

/-- The bind record of the task on a core that a class is bound to (R179). -/
def classOwner (s : State) (core k : Nat) : Option Nat :=
  ((coreOf s core).tasks.find? fun p => p.2.svc.any fun q => q.1 == k).map Prod.fst

/-- A task on the core belongs to the launch. -/
def launchLive (s : State) (core : Nat) (l : Word) : Bool :=
  (coreOf s core).tasks.any fun p => launchId p.2.token == l.toNat

/-- The ready bit of the service context of a class, where it is bound (R27). -/
def setReady (s : State) (core k : Nat) : State :=
  match classBinding s core ((coreOf s core).cur.getD 32) k with
  | some (f, x) => if (slotOf s core x.slot).act.frame = some f
      then modSlot s core x.slot fun sl => { sl with ready := true } else s
  | none => s

/-- A refused residency-miss message is to be sent again (R356). -/
def missRefused (s : State) (m : Msg) : State :=
  modExpert s (pkgOf m.src * 16384 + fld (m.words.getD 0 0) 13 0) fun e => { e with miss := true }

/-- MESSAGE_ARRIVAL: the n-th message reaches its core (R27, R181, R182). A mailbox notice that finds no place
waits, so that nothing is lost (R378). -/
def execMessageArrival (n : Nat) (s : State) : Out :=
  .next <| match s.net[n]? with
    | none => s
    | some m =>
      if m.cls = 0 || !msgTurn s n m || routeWaits s (dieOf m.src) (dieOf m.dst) m.ord then s
      else
        let s0 := s
        let s := { s with net := s.net.eraseIdx n }
        let q := SMap.get [] (coreOf s m.dst).classQ m.cls
        let refuse (s : State) (code : Nat) :=
          if m.hw && m.cls == 7 then s0
          else if m.hw && m.cls == 3 then missRefused (refuseMsg s m code) m
          else refuseMsg s m code
        let enqueue (s : State) (b : Nat) :=
          modCore s m.dst fun x => { x with classQ := SMap.set [] x.classQ m.cls (q ++ [{ m with own := b }]) }
        if m.cls = 1 then
          if launchLive s m.dst m.launch then enqueue s 0
          else modCore (countRefused s m.dst 1) m.dst fun x => { x with reserved1 := x.reserved1 - 1 }
        else if !reachable s (dieOf m.src) (dieOf m.dst) then refuse s 5
        else match classOwner s m.dst m.cls with
          | none => refuse s 1
          | some b => if 32 ≤ q.length then refuse s 2 else msgVerdict (setReady (enqueue s b) m.dst m.cls) m 0

/-! The task queue (R28). -/

/-- Some slot from 1 to 15 is neither a service slot nor reserved by R25. -/
def queueSlot (s : State) (core b : Nat) : Bool :=
  let t := taskOf s core b
  (upFrom 1 (if t.red then 7 else 15)).any fun k =>
    !((taskCtxs s core b).any fun p => p.2.slot == k && ctxKind s p.1 == 2)

/-- TASK_QUEUE_ENTRY_ARRIVAL: the n-th message, a task queue entry, is accepted or refused (R28, R181). -/
def execTaskQueueEntryArrival (n : Nat) (s : State) : Out :=
  .next <| match s.net[n]? with
    | none => s
    | some m =>
      if m.cls ≠ 0 || !msgTurn s n m || routeWaits s (dieOf m.src) (dieOf m.dst) m.ord then s
      else
        let s := { s with net := s.net.eraseIdx n }
        if !reachable s (dieOf m.src) (dieOf m.dst) then refuseMsg s m 5
        else match (coreOf s m.dst).cur with
          | none => refuseMsg s m 3
          | some b =>
            if launchId (taskOf s m.dst b).token != m.launch.toNat || (taskOf s m.dst b).ending.isSome then refuseMsg s m 3
            else if 16 ≤ (coreOf s m.dst).taskQ.length then refuseMsg s m 2
            else if !queueSlot s m.dst b then refuseMsg s m 4
            else msgVerdict (modCore s m.dst fun x => { x with taskQ := x.taskQ ++ [{ m with entry := none }] }) m 0

/-- TASK_QUEUE_HELPER_START: the oldest entry of the dispatched task's launch starts as a helper (R28). -/
def execTaskQueueHelperStart (core : Nat) (s : State) : Out :=
  .next <|
    let c := coreOf s core
    match c.cur with
    | none => s
    | some b =>
      let l := launchId (taskOf s core b).token
      if c.swap.isSome || (taskOf s core b).ending.isSome || 10 ≤ liveHelpers s core b then s
      else match c.taskQ.find? fun m => m.launch.toNat == l with
        | none => s
        | some m =>
          match startContext s core b 1 0 (m.words.headD 0) m.words.tail
              (if m.call then some (m.src, m.tag, m.launch) else none) with
          | none => s
          | some (_, s) => modCore s core fun x => { x with taskQ := x.taskQ.eraseP fun m => m.launch.toNat == l }

/-! Engine arrivals (R189). -/

/-- BARRIER_ARRIVAL: the n-th engine arrival reaches its barrier, after the operation's status has been written (R246)
and where its carrier is up (R11); at core level its task's, unless the task has ended (32). -/
def execBarrierArrival (n : Nat) (s : State) : Out :=
  .next <| match s.arrivals[n]? with
    | none => s
    | some a =>
      let early := match a.after with
        | some (f, e) => s.rets.any fun r => r.frame == f && r.entry == e
        | none => false
      if early || !carrierUp s a.core (a.key / 2 ^ 32 % 256) then s
      else
      let s := { s with arrivals := s.arrivals.eraseIdx n }
      let i : BarrierId := { level := a.key / 2 ^ 32 % 256, num := a.key % 16, core := a.core, bind := a.bind, key := a.key }
      if i.level = 1 && 32 ≤ i.bind then s else engineArrive s (a.key / 2 ^ 40) i a.member

end Sys2Proof.Machine
end

