-- ==== Sys2Proof/Machine/Slices.lean ====
section
/-! DEFINITION. The memory-slice instructions (R317 to R324), sector pins (R315), bank modes (R302),
counters (R316), and their events. -/

namespace Sys2Proof.Machine

def cwSeg (w : RWord) : Nat := fld w.imm 24 22

/-- A result for a context that may have ended meanwhile. -/
def sendIfLive (s : State) (f e : Nat) (v : Nat) : State :=
  if (ctxOf s f).isSome then sendResult s f e [regWrite (BitVec.ofNat 8 (entryOf s f e)) v] [] else s

/-! Ranges (R318). -/

/-- The lines from virtual line number `l`, `n` of them, that this package homes, and those that it may hold copies of; a
line past the paged space has no translation. -/
def rangeTargets (core slot part : Nat) : Nat → Nat → State → State × List Target
  | _, 0, s => (s, [])
  | l, n + 1, s =>
    if 2 ^ 57 ≤ 256 * l then (s, [])
    else
      let (s, a) := engineXlate s core slot part (256 * l)
      let (s, rest) := rangeTargets core slot part (l + 1) n s
      match a with
      | .page level e =>
        let t := target s.pkg (256 * l) level e
        (s, if t.rc || (t.home.isSome && (targetReach s (dieOf core) t || targetWaits s (dieOf core) s.ord t)) then t :: rest else rest)
      | .bad _ _ => (s, rest)

/-- The range check, then `body` with the first line and the number of lines. -/
def withRange (i : Instr) (w : RWord) (specs : List (BitVec 8)) (s : State)
    (body : Nat → Ctx → Nat → Nat → State → State) : Out :=
  withIssue i w.hdr ([w.a, w.b, BitVec.ofNat 8 (0xC0 + cwSeg w)] ++ specs) s fun f s =>
    match ctxOf s f with
    | none => s
    | some x =>
      let n := readReg s f w.b
      let off : Int := (readReg s f w.a : Nat)
      match checkSeg s x (readSeg s f (cwSeg w))
          { need := needRd, size := n, align := 1, long := decide (2 ^ 32 < n), kinds := [0] } off with
      | .error c => trapNow 0x04 c (eaddrOf off) f s
      | .ok a => body f x (a / 256) (if n = 0 then 0 else (a + n - 1) / 256 - a / 256 + 1) s

/-! PFR (R319). -/

/-- The tag of a queued copy command (R295). -/
def copyTag (q : CopyCmd) : Nat := fld q.word.imm 31 26

/-- A queued copy command or an outstanding PFR of the core holds the tag. -/
def tagBusy (s : State) (core tag : Nat) : Bool :=
  ((coreOf s core).copyQ.any fun q => copyTag q == tag) || (coreOf s core).pfrs.any fun p => p.tag == some tag

/-- A tag bit of the task at a bind record; a task that has ended (32) has none. -/
def setTag (s : State) (core bind tag : Nat) (v : Bool) : State :=
  if 32 ≤ bind then s
  else modTask s core bind fun t =>
    { t with tags := if v then t.tags ||| BitVec.ofNat 64 (2 ^ tag) else t.tags &&& ~~~(BitVec.ofNat 64 (2 ^ tag)) }

/-- The engine arrival that a barrier specification names (R250); level 0 names none. -/
def specArrival (s : State) (x : Ctx) (v : Nat) : Option Arrival :=
  let level := bitsOf v 2 0
  if level = 0 || level = 7 then none
  else
    let i := barrierId (ctxPart s x) x.core x.bind level (bitsOf v 7 4)
    some { key := i.key, core := x.core, bind := x.bind, member := if level = 1 then x.slot else x.core }

def pushArrival (s : State) (a : Option Arrival) : State :=
  match a with
  | some a => { s with arrivals := s.arrivals ++ [a] }
  | none => s

/-- A PFR ends: its tag is set or its arrival made. -/
def endPfr (s : State) (core : Nat) (p : Pfr) : State :=
  match p.tag with
  | some t => setTag s core p.bind t true
  | none => pushArrival s p.arrival

/-- PFR and PFR.bar (R319). -/
def prefetchRange (i : Instr) (w : RWord) (bar : Bool) (s : State) : Out :=
  withRange i w (if bar then [w.c] else []) s fun f x l n s =>
    let tag := fld w.imm 31 26
    if !bar && tagBusy s x.core tag then hold .retry f s
    else if 8 ≤ (coreOf s x.core).pfrs.length then hold .retry f s
    else
      let s := if bar then s else setTag s x.core x.bind tag false
      let (s, ts) := rangeTargets x.core x.slot (ctxPart s x) l n s
      let p : Pfr := { tag := if bar then none else some tag
                       arrival := if bar then specArrival s x (readReg s f w.c) else none
                       lines := ts.filter fun t => t.home.isSome, bind := x.bind, frame := f }
      finish w.hdr f (if n = 0 then endPfr s x.core p else modCore s x.core fun c => { c with pfrs := c.pfrs ++ [p] })

def execPfr (w : RWord) (s : State) : Out := prefetchRange (.pfr w) w false s
def execPfrBar (w : RWord) (s : State) : Out := prefetchRange (.pfrBar w) w true s

/-- A whole line becomes held at its home slice. -/
def ensureLine (s : State) (t : Target) : State :=
  match t.home with
  | none => s
  | some n => askSectors s n (lineSectors t)

/-- PFR_COMPLETE: the n-th PFR of a core ends, every line of its range held or skipped (R319). -/
def execPfrComplete (core n : Nat) (s : State) : Out :=
  .next <| match (coreOf s core).pfrs[n]? with
    | none => s
    | some p => endPfr (modCore (p.lines.foldl ensureLine s) core fun c => { c with pfrs := c.pfrs.eraseIdx n }) core p

/-! RFLUSH and RINVAL (R320). -/

def flushRange (i : Instr) (w : RWord) (inval : Bool) (s : State) : Out :=
  withRange i w [] s fun f x l n s =>
    match x.wait with
    | some (.request o) => if s.flushes.any fun r => r.ord == o then block (.request o) f s else finish w.hdr f s
    | _ =>
      if n = 0 then finish w.hdr f s
      else if !allPerformed s x.core f then block .retry f s
      else
        let (s, ts) := rangeTargets x.core x.slot (ctxPart s x) l n s
        block (.request s.ord) f
          { s with
            flushes := s.flushes ++ [{ ord := s.ord, frame := f, lines := ts.map (·.flat / 256), inval := inval }]
            ord := s.ord + 1 }

def execRflush (w : RWord) (s : State) : Out := flushRange (.rflush w) w false s
def execRinval (w : RWord) (s : State) : Out := flushRange (.rinval w) w true s

/-- The copies of another package's line that clusters hold are dropped (R96, R320). -/
def dropCopies (s : State) (line : Nat) : State :=
  ((s.clusters.filter fun p => p.2.cache.any fun l => l.line == line).map Prod.fst).foldl
    (fun s cl => dropClusterLine s cl line) s

/-- A line's dirty sectors are written back; under RINVAL every copy is dropped, and what backing memory holds is read
from then on; pinned sectors stay (R309, R315, R320). -/
def flushLine (s : State) (inval : Bool) (line : Nat) : State :=
  match holderOf s line with
  | none => if inval then dropCopies s line else s
  | some (n, l) =>
    let out := (upFrom 0 2).filter fun sec => !pinnedSec l sec
    let s := out.foldl (fun s sec => writeBack s n l sec) s
    let clean := { l with dirty := l.dirty &&& l.pinned }
    if !inval then modSlice s n fun x => { x with lines := x.lines.map fun m => if m.line = line then clean else m }
    else
      let cs := sharerClusters s.pkg l.sharers
      let s := cs.foldl (fun s c => dropClusterLine s c line) s
      let s := out.foldl (fun s sec => if heldSec l sec then revealSector s (secFlat line sec) else s) s
      let kept := if l.pinned = 0 then none else some { clean with held := l.held &&& l.pinned, sharers := 0 }
      let s := modSlice s n fun x =>
        { x with lines := x.lines.filterMap fun m => if m.line = line then kept else some m }
      touchWatch (countSlice s n 11 cs.length) line

/-- SECTOR_WRITE_BACK_COMPLETE: the n-th RFLUSH or RINVAL gets a line further; after its last its slot runs on. -/
def execSectorWriteBackComplete (n : Nat) (s : State) : Out :=
  .next <| match s.flushes[n]? with
    | none => s
    | some r => match r.lines with
      | [] => { s with flushes := s.flushes.eraseIdx n }
      | l :: rest =>
        let s := flushLine s r.inval l
        if rest = [] then { s with flushes := s.flushes.eraseIdx n }
        else { s with flushes := s.flushes.set n { r with lines := rest } }

/-! Pins (R315, R321). -/

/-- Pinned sectors of a set. -/
def setPins (s : State) (n set : Nat) : Nat := ((setLines s n set).map fun l => popcount 2 l.pinned.toNat).sum

-- DEDUCED, log 55. Safe.
/-- A held sector is stored anew in a form, with its pin and dirty bit; evictions for it are no growth (R312, R315, R316). -/
def storeForm (s : State) (n : Nat) (l : SLine) (sec form : Nat) (pinned dirty : BitVec 2) : State :=
  let s := makeRoom n l.set 10 [l.line] (formBillets form - formBillets (formOf l sec)) 24 s
  countSlice (slicePut s n { setForm l sec form with pinned := pinned, dirty := dirty }) n 13 (32 * formBillets form)

/-- Pin a sector of this package's DRAM: the status of R321. -/
def pinSector (s : State) (t : Target) : Nat × State :=
  match t.home with
  | none => (3, s)
  | some n =>
    let sec := t.flat / 128 % 2
    let line := t.flat / 256
    if (sline s n line).any fun l => pinnedSec l sec then (1, s)
    else if 2 ≤ setPins s n (sliceSet t.off) then (2, s)
    else
      let s := askSectors s n [t]
      match sline s n line with
      | none => (3, s)
      | some l => (0, touchWatch (storeForm s n l sec (4 + 8 * 4) (l.pinned ||| secBit sec) l.dirty) line)

/-- Release a pin: its contents go to DRAM (R321). -/
def unpinSector (s : State) (t : Target) : Nat × State :=
  match t.home with
  | none => (3, s)
  | some n =>
    let sec := t.flat / 128 % 2
    let line := t.flat / 256
    match sline s n line with
    | none => (1, s)
    | some l =>
      if !pinnedSec l sec then (1, s)
      else
        let form := sectorForm s (secFlat line sec) t.cmp false
        (0, touchWatch (storeForm (writeBack s n { l with dirty := l.dirty ||| secBit sec } sec) n { l with cmp := t.cmp } sec form (l.pinned &&& ~~~(secBit sec))
          (l.dirty &&& ~~~(secBit sec))) line)

/-- SECPIN and SECPIN.un (R321). -/
def sectorPin (i : Instr) (w : RWord) (act : State → Target → Nat × State) (s : State) : Out :=
  withIssue i w.hdr [w.a, BitVec.ofNat 8 (0xC0 + cwSeg w)] s fun f s =>
    match ctxOf s f with
    | none => s
    | some x =>
      let off : Int := (readReg s f w.a : Nat)
      if !supervisor s f then trapNow 0x05 2 0 f s
      else match checkSeg s x (readSeg s f (cwSeg w))
          { need := needRd + needWr, size := 128, align := 128, kinds := [0] } off with
      | .error c => trapNow 0x04 c (eaddrOf off) f s
      | .ok a => withEntry w.d 0 f s fun e v =>
          let (v, p) := engineXlate v x.core x.slot (ctxPart v x) a
          let done (st : Nat) (u : State) := finish w.hdr f (sendResult u f e [regWrite w.d st] [])
          match p with
          | .bad _ _ => done 3 v
          | .page level pte =>
            let t := target v.pkg a level pte
            if pteTgt pte ≠ 0 then done 3 v
            else if targetWaits v (dieOf x.core) v.ord t then hold .retry f s
            else if targetReach v (dieOf x.core) t then done (act v t).1 (act v t).2
            else done 3 v

def execSecpin (w : RWord) (s : State) : Out := sectorPin (.secpin w) w pinSector s
def execSecpinUn (w : RWord) (s : State) : Out := sectorPin (.secpinUn w) w unpinSector s

/-! BMODE (R302, R322). -/

/-- The first of the banks to be switched enters transition: a local access that waits on its queue ends (R302). -/
def startSwitch (s : State) (cl : Nat) : State :=
  match (clusterSt s cl).switching with
  | [] => s
  | w :: _ =>
    let ended (x : Ctx) : Ctx := match x.wait with
      | some (.fifoHead c b _) => if c = cl ∧ b = w.bank then { x with wait := some (.fifoGone true) } else x
      | some (.fifoTail c b _) => if c = cl ∧ b = w.bank then { x with wait := some (.fifoGone false) } else x
      | _ => x
    { s with ctxs := SMap.mapOn none (fun _ o => o.map ended) s.ctxs }

/-- BMODE: statuses 4, 2 and 1 in that order; done banks go through transition one after another. A BMODE of
another core still being applied holds this one. -/
def execBmode (w : RWord) (s : State) : Out :=
  withIssue (.bmode w) w.hdr [w.a] s fun f s =>
    match ctxOf s f with
    | none => s
    | some x =>
      let cl := clusterOf x.core
      let m := readReg s f w.a
      let mode := fld w.imm 1 0
      let c := clusterSt s cl
      let banks := (upFrom 0 32).filter fun k => bitOf m k
      let ways := (upFrom 0 32).filter fun k => if bitOf m k then mode == 1 else bankMode s cl k == 1
      let verdict (v : Nat) := finishLong w.hdr w.d v f s
      if m / 2 ^ 32 ≠ 0 then verdict 4
      else if banks.any fun k => c.reserved.getLsbD k then verdict 2
      else if !c.switching.isEmpty then hold .retry f s
      else if banks ≠ [] && decide (ways.length < 4) then verdict 1
      else
        let todo := banks.filter fun k => bankMode s cl k != mode
        if todo = [] then verdict 0
        else withEntry w.d 0 f s fun e s =>
          finish w.hdr f (startSwitch (modCluster s cl fun c =>
            { c with switching := todo.map fun k => { bank := k, mode := BitVec.ofNat 2 mode }
                     jobs := c.jobs ++ [{ frame := f, entry := e }] }) cl)

/-- Remove every listed byte, bit or mark of a bank's range, and every older word that an engine might still read there. -/
def clearRange (s : State) (lo n : Nat) : State :=
  let out (k : Nat) : Bool := !(decide (lo ≤ k) && decide (k < lo + n))
  { s with mem := s.mem.filter fun p => out p.1
           full := s.full.filter fun p => out (8 * p.1)
           poison := s.poison.filter fun p => out (8 * p.1)
           cores := (endOlder s none lo n).cores }

/-- A bank's content is discarded, with its marks (R302): which of the cached lines a cache-way bank held is not stated. -/
def discardBank (s : State) (cl b : Nat) : State :=
  let s := clearRange s (clusBase cl + b * 2 ^ 17) (2 ^ 17)
  match bankMode s cl b with
  | 1 =>
    let gone := (clusterSt s cl).cache.filter fun l => Config.pick (s.tick * 2 ^ 80 + l.line) % 2 == 1
    gone.foldl (fun s l => unshare (dropClusterLine s cl l.line) cl l.line) s
  | 3 => setFifo s cl b []
  | _ => s

-- DESIGN CHOICE, log 8. Safe.
/-- Every set of the cluster cache fits the ways that remain. -/
def trimAll (s : State) (cl : Nat) : State :=
  (((clusterSt s cl).cache.map CLine.set).eraseDups).foldl (fun s set => trimCluster cl set (2 ^ 200) false 64 s) s

/-- A bank takes its new mode. -/
def setBankMode (s : State) (cl b : Nat) (mode : BitVec 2) : State :=
  trimAll (modCluster (discardBank s cl b) cl fun c => { c with modes := SMap.set 1 c.modes b mode }) cl

/-- A write of a row in hand of one of the cluster's copy engines goes to the bank: it has been accepted (R302). -/
def rowWrites (s : State) (cl b : Nat) : Bool :=
  (upFrom (16 * cl) 16).any fun c => (coreOf s c).copyQ.any fun q => match q.hand with
    | some h => h.puts.flatten.any fun p => match p with
      | .near flat _ _ => flat / 2 ^ 17 == (clusBase cl + b * 2 ^ 17) / 2 ^ 17
      | .empty flat => flat / 2 ^ 17 == (clusBase cl + b * 2 ^ 17) / 2 ^ 17
      | _ => false
    | none => false

/-- BANK_MODE_SWITCH_COMPLETE: the bank in transition, whose accepted accesses are complete, takes its mode; the last of
a BMODE writes its verdict (R302, R322). -/
def execBankModeSwitchComplete (cluster bank : Nat) (s : State) : Out :=
  .next <| match (clusterSt s cluster).switching with
    | [] => s
    | w :: rest =>
      if w.bank ≠ bank || rowWrites s cluster bank then s
      else
        let s := setBankMode s cluster bank w.mode
        let s := modCluster s cluster fun c => { c with switching := rest }
        if rest ≠ [] then startSwitch s cluster
        else
          let jobs := (clusterSt s cluster).jobs
          jobs.foldl (fun s j => sendIfLive s j.frame j.entry 0) (modCluster s cluster fun c => { c with jobs := [] })

/-! CTRRD (R316, R323). -/

def sliceCounter (s : State) (n sel : Nat) : Nat :=
  let x := sliceSt s n
  if sel ≤ 8 then (x.lines.filter fun l => lineBillets l == sel).length
  else if sel = 14 then (x.lines.map fun l => popcount 2 l.pinned.toNat).sum
  else (SMap.get 0 x.counters sel).toNat

def clusterCounter (s : State) (cl sel : Nat) : Nat :=
  if sel = 0 then packBits 2 ((upFrom 0 32).map fun k => bankMode s cl k)
  else (SMap.get 0 (clusterSt s cl).counters sel).toNat

def execCtrrd (w : RWord) (s : State) : Out :=
  withIssue (.ctrrd w) w.hdr (if fld w.imm 8 8 = 1 then [] else [w.a]) s fun f s =>
    match ctxOf s f with
    | none => s
    | some x =>
      let sel := fld w.imm 7 0
      let a := readReg s f w.a
      let v := if fld w.imm 8 8 = 1 then clusterCounter s (clusterOf x.core) sel
        else if 64 ≤ a then 0 else sliceCounter s (dieOf x.core * 64 + a) sel
      finishLong w.hdr w.d v f s

end Sys2Proof.Machine
end

