-- ==== Sys2Proof/Machine/Experts.lean ====
section
/-! DEFINITION. The expert residency table (R352 to R358, R365, R366): entries and their four copies, the
sluice, the window check, offers, residency-miss messages, and the expert instructions. An entry is named by
its package times 16,384 plus its number. -/

namespace Sys2Proof.Machine

/-! Entries (R352, R353). -/

/-- The home die and the home cluster of a replicated part. -/
def homeDie (k : Nat) (r : ExRep) : Nat := k / 16384 * 4 + r.home.toNat / 32
def homeCluster (k : Nat) (r : ExRep) : Nat := k / 16384 * 128 + r.home.toNat

/-- Updates of an entry are on their way to a die. -/
def updatesDue (s : State) (die k : Nat) : Bool := s.updates.any fun u => u.die == die && u.expert == k

-- DEDUCED, log 51. Safe.
/-- A die's copy of the replicated part; the home die's is the entry itself, once every version made at a former home has
reached it (R353). -/
def repAt (s : State) (die k : Nat) : ExRep :=
  let r := (expertSt s k).rep
  if homeDie k r = die && !updatesDue s die k then r else SMap.get {} s.copies (die * 16384 + k % 16384)

def stateOf (e : Expert) : Nat := e.rep.state.toNat

-- DESIGN CHOICE, log 77. Unsafe.
/-- The format version of the updates that a die's firmware sends (R383). -/
def updateFormat (s : State) (die : Nat) : Nat :=
  if (dieSt s die).image = 0 then 1 else Config.residencyFormat (dieSt s die).image

/-- A change: in the home die's copy first, one version further, and an update on its way to the copies of the package's
other dies (R353). -/
def changeRep (s : State) (k : Nat) (g : ExRep → ExRep) : State :=
  let r := (expertSt s k).rep
  let r' := { g r with ver := r.ver + 1 }
  let home := homeDie k r
  let s := modExpert s k fun e => { e with rep := r' }
  { s with copies := SMap.set {} s.copies (home * 16384 + k % 16384) r'
           updates := s.updates ++ ((upFrom (k / 16384 * 4) 4).filter (· != home)).map fun d =>
             { die := d, expert := k, rep := r', src := home, fmt := updateFormat s home } }

/-- The first update of an entry for a die is taken from the broadcast. -/
def takeUpdate (d k : Nat) : List ExUpdate → Option (ExUpdate × List ExUpdate)
  | [] => none
  | u :: rest =>
    if u.die = d && u.expert == k then some (u, rest)
    else (takeUpdate d k rest).map fun p => (p.1, u :: p.2)

-- DEDUCED, log 51. Safe.
/-- The results of changing instructions whose version all four copies hold (R353). -/
def completeWaiters (s : State) (k : Nat) : State :=
  let done (w : Nat × Nat × Word × BitVec 32) : Bool := !(s.updates.any fun u => u.expert == k && u.rep.ver == w.2.2.2)
  let ws := (expertSt s k).waiters
  (ws.filter done).foldl (fun s w => sendIfLive s w.1 w.2.1 w.2.2.1.toNat)
    (modExpert s k fun e => { e with waiters := e.waiters.filter fun w => !done w })

/-- The broadcast reaches a die: over the base links through BD (R353). -/
def updateReaches (s : State) (u : ExUpdate) : Bool := baseUp s u.src && baseUp s u.die

-- DESIGN CHOICE, log 77. Unsafe.
/-- An update of a version that is not supported: the die stops admitting capsules and reports an uncorrectable error
(R383). -/
def refuseUpdate (s : State) (die : Nat) (u : ExUpdate) : State :=
  logError (modDie s die fun x => { x with closed := true }) u.rep.part.toNat 1 6 (die % 4 * 2 ^ 60 + (40 + die % 4)) 8 0 0 0 []

/-- RESIDENCY_BROADCAST_APPLY: a die applies the next version of an entry (R353), or refuses it (R383). -/
def execResidencyBroadcastApply (die expert : Nat) (s : State) : Out :=
  .next <| match takeUpdate die expert s.updates with
    | none => s
    | some (u, rest) =>
      if !updateReaches s u || (dieSt s die).closed then s
      else if u.fmt ≠ 1 then refuseUpdate s die u
      else completeWaiters { s with updates := rest
                                    copies := SMap.set {} s.copies (die * 16384 + expert % 16384) u.rep } expert

/-! Residency-miss messages (R356). -/

-- DEDUCED, log 51. Safe.
/-- The residency service core of an entry's home die (R356, R380). -/
def residencyCore (s : State) (k : Nat) (r : ExRep) : Nat :=
  let w := bitsOf (partOf s r.part.toNat).resCores.toNat (16 * (r.home.toNat / 32) + 8) (16 * (r.home.toNat / 32))
  homeDie k r * 512 + w

/-- The message, sent or sent again. -/
def sendMiss (s : State) (k : Nat) (time : Word) : State :=
  let e := expertSt s k
  let w0 := e.rep.ver.toNat * 2 ^ 32 + e.parked.length % 2 ^ 16 * 2 ^ 16 + k % 16384
  let s := pushMsg s
    { cls := 3, src := homeDie k e.rep * 512, dst := residencyCore s k e.rep, tag := 0, status := 0
      words := [BitVec.ofNat 64 w0, time], call := false, launch := 0, frame := 0, slot := 0, entry := none
      held := false, ord := 0, hw := true }
  modExpert s k fun e => { e with miss := false, missTime := time, missSent := s.time }

/-- RESIDENCY_MISS_RESEND: 1,000 ns after a refused message, while the entry stays fetching (R356). -/
def execResidencyMissResend (expert : Nat) (s : State) : Out :=
  .next <|
    let e := expertSt s expert
    if e.miss && stateOf e == 1 && decide (e.missSent.toNat + 1000 ≤ s.time.toNat) then sendMiss s expert e.missTime
    else s

/-! The sluice (R355). -/

-- DESIGN CHOICE, log 11. Safe.
/-- Slots of a die's sluice in the banks reserved for it, 32 to a bank. -/
def bankSlots (die : Nat) : Nat := 32 * ((upFrom 0 32).filter (Config.sluiceBanks die).2.getLsbD).length

-- DESIGN CHOICE, log 11. Safe.
/-- Slots in its spill area, so that the sluice has between 32 and 2^20 - 1. -/
def spillSlots (die : Nat) : Nat := max (32 - bankSlots die) (min (Config.sluiceSlots die) (2 ^ 20 - 1 - bankSlots die))

/-- The slots of a die's sluice: those of the reserved banks, then those of the spill area. -/
def sluiceSize (die : Nat) : Nat := bankSlots die + spillSlots die

-- DEDUCED, log 51. Safe.
-- DESIGN CHOICE, log 11. Safe.
/-- A free slot of a die's sluice; which one is not promised. -/
def freeSluice (s : State) (die : Nat) : Option Nat :=
  let free := (upFrom 0 (sluiceSize die)).filter fun n => !(dieSt s die).sluice.contains n
  free[Config.pick (s.tick * 2 ^ 80) % free.length]?

/-- `shead` and `stail` name the first and the last slot while any capsule is parked. -/
def slotEnds (e : Expert) : Expert :=
  { e with shead := match e.parked.head? with
             | some p => BitVec.ofNat 20 p.1
             | none => e.shead
           stail := match e.parked.getLast? with
             | some p => BitVec.ofNat 20 p.1
             | none => e.stail }

-- DESIGN CHOICE, log 8. Safe.
/-- Park at the tail of the entry's sluice, or bounce with code 7 (R354, R355). -/
def parkCapsule (s : State) (k : Nat) (c : Capsule) : State :=
  let e := expertSt s k
  let d := homeDie k e.rep
  match freeSluice s d with
  | some n =>
    if 65535 ≤ e.parked.length then
      throwCapsule s c d none { code := 7, atCore := none, die := d, detail := (dieSt s d).retryNs }
    else
      modDie (modExpert s k fun e => slotEnds { e with parked := e.parked ++ [(n, c)] }) d fun x =>
        { x with sluice := n :: x.sluice }
  | none => throwCapsule s c d none { code := 7, atCore := none, die := d, detail := (dieSt s d).retryNs }

/-- The oldest capsule has left the sluice. -/
def leaveSluice (s : State) (k : Nat) : State :=
  let e := expertSt s k
  let n := (e.parked.head?.map Prod.fst).getD 0
  let s := modDie s (homeDie k e.rep) fun x => { x with sluice := x.sluice.erase n }
  modExpert s k fun e => slotEnds { e with parked := e.parked.drop 1, offered := false, checked := false, tries := 0 }

/-! Delivery (R354, R355). -/

/-- A capsule's deadline has passed (R347 step 3). -/
def expired (s : State) (c : Capsule) : Bool := headWord c 3 != 0 && decide (headWord c 3 < s.time.toNat)

/-- The window check: dup or stale set, and the window with the capsule counted. -/
def windowCheck (e : Expert) (c : Capsule) : Expert × Capsule :=
  let r := bitsOf (headWord c 2) 15 0
  let t := bitsOf (headWord c 2) 43 32
  let d := (r + 2 ^ 16 - e.round.toNat) % 2 ^ 16
  let flag (c : Capsule) (i : Nat) : Capsule := setWord0 c i i 1
  if d = 0 then
    if SMap.get false e.win t then (e, flag c 32) else ({ e with win := SMap.set false e.win t true }, c)
  else if d < 32768 then ({ e with round := BitVec.ofNat 16 r, win := SMap.set false [] t true }, c)
  else (e, flag c 33)

/-- Replica `j` as its byte of `repl`. -/
def replica (r : ExRep) (j : Nat) : Nat := bitsOf r.repl.toNat (8 * j + 7) (8 * j)

/-- Whether target `n` serves the expert: 0 the home, 1 to 4 a valid replica. -/
def targetValid (r : ExRep) (n : Nat) : Bool := n == 0 || bitOf (replica r (n - 1)) 7

/-- The first valid target from `n` on, in the order home, replica 0 to 3, wrapping. -/
def validFrom (r : ExRep) (n : Nat) : Nat :=
  (((upFrom 0 5).map fun i => (n + i) % 5).find? (targetValid r)).getD 0

def targetCluster (k : Nat) (r : ExRep) (n : Nat) : Nat :=
  if n = 0 then homeCluster k r else k / 16384 * 128 + replica r (n - 1) % 128

/-- The cluster that rr names, and rr advanced. -/
def nextTarget (s : State) (k : Nat) : Nat × State :=
  let e := expertSt s k
  let n := validFrom e.rep (min 4 e.rr.toNat)
  (targetCluster k e.rep n, modExpert s k fun e => { e with rr := BitVec.ofNat 3 (validFrom e.rep ((n + 1) % 5)) })

def targetCount (r : ExRep) : Nat := ((upFrom 0 5).filter (targetValid r)).length

/-- The code that a capsule meets on its way from a die to a cluster, as a place of kind 1 (R344, R347, R354). -/
def clusterFault (s : State) (c : Capsule) (d cl : Nat) : Option Nat :=
  if !inPart s c.part cl then some 10
  else if routeWaits s d (dieOfCluster cl) s.ord then none
  else if !reachable s d (dieOfCluster cl) then some 11 else none

-- DEDUCED, log 50. Unsafe.
/-- A capsule on its way from a die to a cluster; one of another die passes the ingress of each die that it enters
(R347). -/
def toCluster (s : State) (c : Capsule) (d cl : Nat) (expert : Option Nat) : CapFly :=
  let e := dieOfCluster cl
  { cap := c, die := if e = d ∨ routeWaits s d e s.ord then d else nextDie s d e, dest := some (.cluster cl)
    enter := e != d, expert := expert }

/-- A resident expert's capsule sets out for a cluster (R354). -/
def deliverExpert (s : State) (k : Nat) (c : Capsule) : State :=
  let d := homeDie k (expertSt s k).rep
  if expired s c then throwCapsule s c d none { code := 1, atCore := none, die := d }
  else
    let w := windowCheck (expertSt s k) c
    let (cl, s) := nextTarget (modExpert s k fun _ => w.1) k
    match clusterFault s w.2 d cl with
    | some code => throwCapsule s w.2 d none { code := code, atCore := none, die := d }
    | none => { s with caps := s.caps ++ [toCluster s w.2 d cl none] }

/-- The oldest parked capsule is offered: at its first offer its deadline and window are checked and rel is
set (R357). A capsule whose deadline has passed, or that may not reach its cluster, leaves, and the next is offered. -/
def offerHead (k : Nat) : Nat → State → State
  | 0, s => s
  | fuel + 1, s =>
    let e := expertSt s k
    match e.parked with
    | [] => s
    | (n, c) :: rest =>
      if e.offered || decide (stateOf e < 2) then s
      else if !e.checked && expired s c then
        let d := homeDie k e.rep
        offerHead k fuel (throwCapsule (leaveSluice s k) c d none { code := 1, atCore := none, die := d })
      else
        let w := if e.checked then (e, c) else
          let w := windowCheck e c
          (w.1, setWord0 w.2 36 36 1)
        let s := modExpert s k fun _ => { w.1 with parked := (n, w.2) :: rest, checked := true, offered := true }
        let (cl, s) := nextTarget s k
        let d := homeDie k e.rep
        match clusterFault s w.2 d cl with
        | some code => offerHead k fuel (throwCapsule (leaveSluice s k) w.2 d none { code := code, atCore := none, die := d })
        | none => { s with caps := s.caps ++ [toCluster s w.2 d cl (some k)] }

/-- Offers go on while the expert is resident. -/
def release (s : State) (k : Nat) : State := offerHead k ((expertSt s k).parked.length + 1) s

/-- SLUICE_REOFFER: a refusal has returned and a valid target is left to try (R357). -/
def execSluiceReoffer (expert : Nat) (s : State) : Out :=
  .next <|
    let e := expertSt s expert
    if 0 < e.tries && decide (e.tries < targetCount e.rep) then release s expert else s

/-- SLUICE_REOFFER_TIMER: every valid target has refused, and 1,000 ns have passed (R357). -/
def execSluiceReofferTimer (expert : Nat) (s : State) : Out :=
  .next <|
    let e := expertSt s expert
    if decide (targetCount e.rep ≤ e.tries) && decide (e.offerAt.toNat + 1000 ≤ s.time.toNat) then release s expert
    else s

/-- Resolution at the home die's ingress (R354). -/
def resolveExpert (s : State) (k : Nat) (c : Capsule) : State :=
  let e := expertSt s k
  let d := homeDie k e.rep
  if e.rep.part.toNat ≠ c.part then throwCapsule s c d none { code := 8, atCore := none, die := d }
  else if !e.parked.isEmpty || decide (stateOf e < 2) then
    let s := if stateOf e = 0 then
        let s := changeRep s k fun r => { r with state := 1 }
        sendMiss s k s.time
      else s
    parkCapsule s k c
  else deliverExpert s k c

/-! The expert instructions (R365, R366). -/

/-- The entry an operand names, if it is in range and of the issuer's partition. -/
def expertOf (s : State) (x : Ctx) (v : Nat) : Option Nat :=
  let k := pkgOf x.core * 16384 + v
  if 16384 ≤ v then none
  else if (expertSt s k).rep.part.toNat = ctxPart s x then some k else none

/-- Words 0 to 3 of an entry, the replicated part (R352). -/
def repWord (r : ExRep) (n : Nat) : Nat :=
  match n with
  | 0 => r.state.toNat * 2 ^ 62 + r.part.toNat * 2 ^ 54 + r.home.toNat * 2 ^ 47 + r.pins.toNat * 2 ^ 32 + r.ver.toNat
  | 1 => r.raddr.toNat
  | 2 => r.size.toNat * 2 ^ 32 + r.repl.toNat
  | _ => r.taddr.toNat

/-- Words 4 on, the home part. -/
def homeWord (e : Expert) (n : Nat) : Nat :=
  if n = 4 then
    e.shead.toNat * 2 ^ 44 + e.stail.toNat * 2 ^ 24 + e.parked.length % 2 ^ 16 * 2 ^ 8 + e.rr.toNat * 2 ^ 5
  else if n = 5 then e.round.toNat * 2 ^ 48
  else packBits 1 ((upFrom (64 * (n - 6)) 64).map fun b => if SMap.get false e.win b then 1 else 0)

/-- EXQ (R365). -/
def execExq (w : RWord) (s : State) : Out :=
  withIssue (.exq w) w.hdr [w.a] s fun f s =>
    match ctxOf s f with
    | none => s
    | some x =>
      let v := readReg s f w.a
      let part := fld w.imm 2 0
      let e := if part = 6 then (if bitsOf v 63 22 ≠ 0 || bitsOf v 15 14 ≠ 0 then none else expertOf s x (bitsOf v 13 0))
        else expertOf s x v
      let r := match e with
        | none => 0
        | some k =>
          if part < 4 then repWord (repAt s (dieOf x.core) k) part
          else homeWord (expertSt s k) (if part = 6 then 6 + bitsOf v 21 16 else part)
      finishLong w.hdr w.d r f s

-- DEDUCED, log 51. Safe.
/-- The home has moved to a die that still lacks versions of the entry: no version is made there before it has them
(R353). -/
def homeBehind (s : State) (k : Nat) : Bool := updatesDue s (homeDie k (expertSt s k).rep) k

-- DEDUCED, log 51. Safe.
/-- A changing instruction: every earlier access performed, a status, and where it is 0 the change, whose result
comes when the four copies hold it (R353, R366). -/
def expertChange (i : Instr) (w : RWord) (guarded : Bool) (operands : Nat → State → Bool)
    (status : Expert → Nat → Nat) (act : Nat → State → State) (s : State) : Out :=
  withIssue i w.hdr [w.a, w.b, w.c] s fun f s =>
    match ctxOf s f with
    | none => s
    | some x =>
      if guarded && !supervisor s f && !(ctxKind s f == 2 && ctxClass s f == 3) then trapNow 0x0D 11 0 f s
      else if !allPerformed s x.core f then hold .retry f s
      else if (expertOf s x (readReg s f w.a)).any (homeBehind s) then hold .retry f s
      else withEntry w.d 0 f s fun e s =>
        match expertOf s x (readReg s f w.a) with
        | none => finish w.hdr f (sendResult s f e [regWrite w.d 4] [])
        | some k =>
          let st := if operands f s then status (expertSt s k) k else 4
          if st ≠ 0 then finish w.hdr f (sendResult s f e [regWrite w.d st] [])
          else
            let s := act k (finish w.hdr f s)
            modExpert s k fun q => { q with waiters := q.waiters ++ [(f, e, 0, q.rep.ver)] }

/-- EXPIN. -/
def execExpin (w : RWord) (s : State) : Out :=
  expertChange (.expin w) w false (fun _ _ => true)
    (fun e _ => if stateOf e < 2 then 1 else if e.rep.pins = BitVec.allOnes 15 then 3 else 0)
    (fun k s => changeRep s k fun r => { r with pins := r.pins + 1, state := 3 }) s

/-- EXUNPIN. -/
def execExunpin (w : RWord) (s : State) : Out :=
  expertChange (.exunpin w) w false (fun _ _ => true) (fun e _ => if e.rep.pins = 0 then 1 else 0)
    (fun k s => changeRep s k fun r => { r with pins := r.pins - 1, state := if r.pins = 1 then 2 else r.state }) s

/-- EXLOAD: the parked capsules are released (R357). -/
def execExload (w : RWord) (s : State) : Out :=
  let home := fld w.imm 6 0
  match issuer s with
  | none => .refused .noContext
  | some f =>
    let gb := readReg s f w.b
    let gc := readReg s f w.c
    expertChange (.exload w) w true (fun _ _ => bitsOf gc 63 32 == 0)
      (fun e _ => if stateOf e = 3 then 2
        else if !e.parked.isEmpty && home / 32 != e.rep.home.toNat / 32 then 3 else 0)
      (fun k s => release (changeRep s k fun r =>
        { r with raddr := BitVec.ofNat 64 gb, size := BitVec.ofNat 32 gc, home := BitVec.ofNat 7 home, state := 2 }) k) s

/-- EXEVICT: with capsules parked the entry is fetching and its miss is announced at once (R366). -/
def execExevict (w : RWord) (s : State) : Out :=
  expertChange (.exevict w) w true (fun _ _ => true)
    (fun e _ => if stateOf e < 2 then 1 else if stateOf e = 3 then 2 else 0)
    (fun k s =>
      let busy := !(expertSt s k).parked.isEmpty
      let s := changeRep s k fun r => { r with state := if busy then 1 else 0, raddr := 0, size := 0, repl := 0 }
      if busy then sendMiss s k s.time else s) s

/-- EXREPL. -/
def execExrepl (w : RWord) (s : State) : Out :=
  let j := fld w.imm 1 0
  match issuer s with
  | none => .refused .noContext
  | some f =>
    let gb := readReg s f w.b
    expertChange (.exrepl w) w true (fun _ _ => bitsOf gb 63 8 == 0)
      (fun e _ =>
        let taken := gb % 128 == e.rep.home.toNat ||
          (upFrom 0 4).any fun i => i != j && bitOf (replica e.rep i) 7 && replica e.rep i % 128 == gb % 128
        if bitOf gb 7 && taken then 3 else 0)
      (fun k s => changeRep s k fun r =>
        { r with repl := BitVec.ofNat 32 (putBits r.repl.toNat (8 * j + 7) (8 * j) gb) }) s

end Sys2Proof.Machine
end

