-- ==== Sys2Proof/Machine/Capsules.lean ====
section
/-! DEFINITION. Capsules (R340 to R351, R359 to R364, R368): die and core ingresses, and the capsule
instructions. -/

namespace Sys2Proof.Machine

/-! Form and place (R342 to R344, R346). -/

/-- The head's form, its version apart: hops, lengths, reserved bits and the fault place. -/
def headForm (c : Capsule) : Bool :=
  let w := headWord c 0
  decide (1 ≤ capItlen c ∧ capItlen c ≤ 16) && decide (1 ≤ capUnits c ∧ capUnits c ≤ 30) &&
    bitsOf w 47 37 == 0 && bitsOf w 16 0 == 0 &&
    ((upFrom 0 (capItlen c)).all fun k => hopOk (capHop c k)) &&
    hopOk (capFaultPlace c) && hopKind (capFaultPlace c) != 2

/-- The hop a capsule travels to: its fault place, its source with op 63, or the hop at its cursor. -/
def capPlace (c : Capsule) : Nat :=
  if capDiv c then capFaultPlace c else if capBnc c then 3 * 2 ^ 62 + 63 * 2 ^ 56 else capHop c (capCursor c)

/-- The place lies in the source's partition (R344). -/
def placeInside (s : State) (c : Capsule) (h : Nat) : Bool :=
  match hopKind h with
  | 3 => true
  | 2 => bitsOf h 55 46 == s.pkg || (partOf s c.part).pods.getLsbD (bitsOf h 55 46)
  | _ => inPart s c.part (hopCluster h)

/-- The entry of a kind 2 place. -/
def placeExpert (h : Nat) : Nat := bitsOf h 55 46 * 16384 + hopExp h

/-- The die a place lies on, as die `d` finds it (R347 step 4, R353). -/
def placeDie (s : State) (d : Nat) (c : Capsule) (h : Nat) : Nat :=
  match hopKind h with
  | 3 => dieOf (capSource c)
  | 2 =>
    let k := placeExpert h
    homeDie k (repAt s d k)
  | _ => dieOfCluster (hopCluster h)

/-! Order (R349). -/

/-- How far a capsule is on its way. -/
def capProgress (s : State) (q : CapFly) : Nat :=
  if q.dest.isSome && !q.enter then 2 else if placeDie s q.die q.cap (capPlace q.cap) = q.die then 1 else 0

-- DEDUCED, log 50. Unsafe.
/-- A capsule whose order is kept: its source and the core it is for. -/
def orderKey (q : CapFly) : Option (Nat × Nat) :=
  if capDiv q.cap || capBnc q.cap || hopKind (capPlace q.cap) != 0 then none
  else some (capSource q.cap, hopCore (capPlace q.cap))

-- DEDUCED, log 50. Unsafe.
/-- No capsule of the same source and place stands before the n-th. -/
def capTurn (s : State) (n : Nat) (q : CapFly) : Bool :=
  (s.caps.take n).all fun p =>
    !((orderKey q).isSome && orderKey p == orderKey q && decide (capProgress s p ≤ capProgress s q))

/-! Die ingress (R347). -/

/-- A fault at a die ingress. -/
def ingressFault (s : State) (c : Capsule) (die code detail : Nat) : State :=
  throwCapsule s c die none { code := code, atCore := none, die := die, detail := detail }

/-- A capsule leaves the send buffer of its core (R361). -/
def freeBuffer (s : State) (q : CapFly) : State :=
  match q.holder with
  | some c => modCore s c fun x => { x with sendBuf := x.sendBuf - 1 }
  | none => s

-- DEDUCED, log 50. Unsafe.
/-- Steps 4 to 6 of R347; `keep` puts the capsule back into its place in the fabric. -/
def forwardCapsule (s : State) (q : CapFly) (keep : State → CapFly → State) : State :=
  let c := q.cap
  let h := capPlace c
  let d := placeDie s q.die c h
  if !placeInside s c h then ingressFault s c q.die 10 0
  else if !reachable s q.die d then ingressFault s c q.die 11 0
  else if d ≠ q.die then keep s { q with die := nextDie s q.die d, holder := none }
  else match hopKind h with
    | 0 => keep s { q with dest := some (.core (hopCore h)), holder := none }
    | 1 => keep s { q with dest := some (.cluster (hopCluster h)), holder := none }
    | 2 => resolveExpert s (placeExpert h) c
    | _ => keep s { q with dest := some (.core (capSource c)), holder := none }

/-- A capsule for a sluice's offer has been taken by its cluster, or has left the sluice for good (R357). -/
def offerTaken (s : State) (q : CapFly) : State :=
  match q.expert with
  | some k => release (leaveSluice s k) k
  | none => s

-- DEDUCED, log 50. Unsafe.
/-- A resolved capsule enters a die on its way to its cluster: its deadline is checked, and it is there or goes on. -/
def enterDie (s out : State) (q : CapFly) (n d : Nat) : State :=
  let keep (q : CapFly) : State := { s with caps := s.caps.set n q }
  if !capDiv q.cap && !capBnc q.cap && expired s q.cap then offerTaken (ingressFault out q.cap q.die 1 0) q
  else if q.die = d then keep { q with enter := false }
  else if capWaits s q.die d then s
  else if !reachable s q.die d then offerTaken (ingressFault out q.cap q.die 11 0) q
  else keep { q with die := nextDie s q.die d }

/-- The die of a delivery. -/
def destDie : Option CapDest → Nat → Nat
  | some (.cluster cl), _ => dieOfCluster cl
  | some (.core c), _ => dieOf c
  | none, d => d

-- DESIGN CHOICE, log 85. Unsafe.
/-- CAPSULE_DIE_INGRESS: the n-th capsule passes the ingress of the die it is at (R347). One that is at a die that has gone
out is diverted from its source's die with code 11 (R395). -/
def execCapsuleDieIngress (n : Nat) (s : State) : Out :=
  .next <| match s.caps[n]? with
    | none => s
    | some q =>
      if (q.dest.isSome && !q.enter) || !capTurn s n q || (dieSt s q.die).closed then s
      else
        let s0 := s
        let s := freeBuffer s q
        let out := { s with caps := s.caps.eraseIdx n }
        let keep (_ : State) (q : CapFly) : State := { s with caps := s.caps.set n q }
        let c := q.cap
        let clean := !capDiv c && !capBnc c
        if !(dieSt s q.die).up then
          offerTaken (throwCapsule out c (dieOf (capSource c)) none { code := 11, atCore := none, die := q.die }) q
        else if q.enter then enterDie s out q n (destDie q.dest q.die)
        else if clean && capVer c != 1 then ingressFault out c q.die 4 0x0101
        else if clean && (!headForm c || decide (capItlen c ≤ capCursor c)) then ingressFault out c q.die 3 0
        else if clean && expired s c then ingressFault out c q.die 1 0
        else if capWaits s q.die (placeDie s q.die c (capPlace c)) then s0
        else forwardCapsule out q keep

/-! Core ingress (R344, R347, R348). -/

/-- A core with a bound capsule service context. -/
def capBound (s : State) (core : Nat) : Bool :=
  (coreOf s core).tasks.any fun p => p.2.svc.any fun q => q.1 == 2 && (ctxOf s q.2).isSome

def capRoom (s : State) (core : Nat) : Nat := (coreOf s core).capQ.length

-- DEDUCED, log 50. Unsafe.
/-- The core a delivery chooses: the bound one whose queue holds fewest, the lowest on a tie; or the code of the
refusal. -/
def chooseCore (s : State) (cands : List Nat) : Except Nat Nat :=
  let bound := cands.filter (capBound s)
  match bound.foldl (fun best c => match best with
    | none => some c
    | some b => if capRoom s c < capRoom s b then some c else some b) none with
  | none => .error 5
  | some c => if 8 ≤ capRoom s c then .error 6 else .ok c

def offerRefused (s : State) (k : Nat) : State :=
  modExpert s k fun e => { e with offered := false, tries := e.tries + 1, offerAt := s.time }

-- DESIGN CHOICE, log 85. Unsafe.
/-- A named core counts the refusal of a capsule on its class 2 (R205); of a whole cluster's no core is named. -/
def refuseAt (s : State) : CapDest → State
  | .core c => countRefused s c 2
  | .cluster _ => s

/-- CAPSULE_CORE_INGRESS: the n-th capsule reaches the core chosen for it, and is queued or refused. -/
def execCapsuleCoreIngress (n : Nat) (s : State) : Out :=
  .next <| match s.caps[n]? with
    | none => s
    | some q => match q.dest with
      | none => s
      | some dest =>
        if q.enter || !capTurn s n q then s
        else
          let out := { s with caps := s.caps.eraseIdx n }
          let c := q.cap
          let cands := match dest with
            | .core c => [c]
            | .cluster cl => upFrom (cl * 16) 16
          -- the core that a record of a refusal by a whole cluster names is left open
          let at_ := match dest with
            | .core c => c
            | .cluster cl => cl * 16 + Config.pick (s.tick * 2 ^ 80) % 16
          let throw_ (core code : Nat) : State :=
            throwCapsule out c (dieOf core) none { code := code, atCore := some core }
          if !(dieSt s (dieOf at_)).up then offerTaken (ingressFault out c q.die 11 0) q
          else match chooseCore s cands with
            | .ok core =>
              if !capDiv c && !capBnc c && expired s c then offerTaken (throw_ core 1) q
              else
                let b := (classOwner s core 2).getD 32
                offerTaken (setReady (modCore out core fun x => { x with capQ := x.capQ ++ [(b, c)] }) core 2) q
            | .error code =>
              if !capDiv c && !capBnc c && expired s c then offerTaken (throw_ at_ 1) q
              else match q.expert with
                | some k => offerRefused out k
                | none => refuseAt (throw_ at_ code) dest

/-! Receiving (R360, R368). -/

/-- The handler index (R346). -/
def handlerOp (c : Capsule) : Nat := hopOp (capPlace c)

/-- Where CAPRECV puts the tile. -/
inductive TilePlace where
  | memory (flat : Nat)
  | fifo (cl bank : Nat)
  | held
  deriving DecidableEq, Repr

/-- The banks of a kind 2 range, none for another kind. -/
def rangeBanks (g : Seg) (a n : Nat) : List Nat :=
  if segKind g = 2 then upFrom (a / 2 ^ 17) ((a + n - 1) / 2 ^ 17 - a / 2 ^ 17 + 1) else []

/-- The check of sT (R360): the cause, or the place. -/
def checkStaging (s : State) (x : Ctx) (g : Seg) (off : Nat) : Except Nat TilePlace :=
  let a := lowBits 64 (g.base.toNat + off)
  let cl := clusterOf x.core
  if bankHeld s x g off then .ok .held
  else if segKind g = 2 && bankMode s cl (a / 2 ^ 17) == 3 && decide (a < 2 ^ 22) then
    match checkSeg s x g { need := needWr, size := 8, align := 8, kinds := [1, 2], ports := [0] } off with
    | .error c => .error c
    | .ok a => .ok (.fifo cl (a / 2 ^ 17))
  else match checkSeg s x g { need := needWr, size := 3840, align := 8, kinds := [1, 2] } off with
    | .error c => .error c
    | .ok a =>
      if (rangeBanks g a 3840).any fun b => inTransition s cl b then .ok .held
      else if (rangeBanks g a 3840).any fun b => bankMode s cl b != 2 then .error 6
      else .ok (.memory (nearFlat x (segKind g) a))

-- DEDUCED, log 15. Unsafe.
/-- The tile's words may be written now, as accesses of the context (R103, R368). -/
def tileReady (s : State) (core f : Nat) (p : TilePlace) (n : Nat) : Bool :=
  match p with
  | .memory flat => (upFrom (flat / 8) n).all fun k => mayPerform s core f 0 (nearPlace s (8 * k))
  | .fifo cl b => mayPerform s core f 0 (nearPlace s (clusBase cl + b * 2 ^ 17))
  | .held => true

/-- Words written at core scope that the core's engines read, set full (R107, R368). -/
def putTile (s : State) (p : TilePlace) (ws : List Word) : State :=
  match p with
  | .memory flat =>
    let n := 8 * ws.length
    (upFrom (flat / 8) ((flat + n + 7) / 8 - flat / 8)).foldl (fun s k => setFull s (8 * k) true)
      (writeBytes (endOlder s none flat n) flat n (packBits 64 (ws.map BitVec.toNat)))
  | .fifo cl b => setFifo s cl b (fifoOf s cl b ++ ws)
  | .held => s

/-- What taking a capsule needs: the context's frame, registers to write, the table's place, the staging place. -/
structure RecvAt where
  w : RWord
  f : Nat
  core : Nat
  table : Nat
  place : TilePlace
  deriving DecidableEq, Repr

/-- The capsule is received and becomes current. -/
def takeCapsule (r : RecvAt) (c : Capsule) (pc : Nat) (s : State) : State :=
  let s := putTile s r.place c.tile
  let head := packBits 64 (c.head.map BitVec.toNat)
  let s := writeReg s r.f r.w.b (head % 2 ^ 1024)
  let s := writeReg s r.f (vSpec (idx r.w.b + 1)) (head / 2 ^ 1024)
  let s := writeReg s r.f r.w.d pc
  let at_ := match r.place with
    | .memory flat => some flat
    | _ => none
  finish r.w.hdr r.f (modCtx s r.f fun x => { x with cap := some { c with thrown := false }, capAt := at_ })

/-- The first capsule of the context's task is gone; where none is left the ready bit is cleared (R27, R179). -/
def popCapsule (s : State) (core f : Nat) : State :=
  match ctxOf s f with
  | some x =>
    let s := modCore s core fun c => { c with capQ := c.capQ.eraseP fun p => p.1 == x.bind }
    if hasMessage s core x.bind 2 then s else modSlot s core x.slot fun sl => { sl with ready := false }
  | none => s

/-- The loop of R360 over the capsules queued for the context's task. -/
def recvLoop (r : RecvAt) : List Capsule → State → State
  | [], s => block (.recv 2) r.f s
  | c :: rest, s =>
    let full := match r.place with
      | .fifo cl b => decide (16384 < (fifoOf s cl b).length + 16 * capUnits c)
      | _ => false
    let at_ := r.table + 16 * handlerOp c
    let ent := readBytes s (at_ + 8) 8
    let refuse (cause : Nat) : State :=
      throwCapsule (popCapsule s r.core r.f) c (dieOf r.core) none
        { code := 9, cause := cause, atCore := some r.core }
    if full then block (.recv 2) r.f s
    else if poisoned s at_ 16 then trapNow 0x0B 0 0 r.f (logPoison s r.f (firstPoison s at_ 16) s.iss.pc)
    else if !bitOf ent 63 then recvLoop r rest (refuse 1)
    else if bitsOf ent 55 48 ≠ 0xFF && bitsOf ent 55 48 != capCls c then recvLoop r rest (refuse 2)
    else if !tileReady s r.core r.f r.place (16 * capUnits c) then hold .retry r.f s
    else takeCapsule r c (readBytes s at_ 8) (popCapsule s r.core r.f)

/-- The context bound to class 2 (R359). -/
def capService (s : State) (f : Nat) : Bool := ctxKind s f == 2 && ctxClass s f == 2

/-- CAPRECV (R360). -/
def execCaprecv (w : RWord) (s : State) : Out :=
  let sT := fld w.imm 2 0
  let sH := fld w.imm 5 3
  withIssue (.caprecv w) w.hdr [w.a, w.c, BitVec.ofNat 8 (0xC0 + sT), BitVec.ofNat 8 (0xC0 + sH)] s fun f s =>
    match ctxOf s f with
    | none => s
    | some x =>
      let offH := readReg s f w.c
      let offT := readReg s f w.a
      if !capService s f then trapNow 0x0D 3 0 f s
      else if x.cap.isSome then trapNow 0x0D 10 0 f s
      else match checkSeg s x (readSeg s f sH) { need := needRd, size := 1024, align := 16, kinds := [1] } offH with
        | .error c => trapNow 0x04 c (eaddrOf offH) f s
        | .ok h => match checkStaging s x (readSeg s f sT) offT with
          | .error c => trapNow 0x04 c (eaddrOf offT) f s
          | .ok .held => hold .retry f s
          | .ok p => recvLoop { w := w, f := f, core := x.core, table := localBase x.core + h, place := p }
              (((coreOf s x.core).capQ.filter fun p => p.1 == x.bind).map Prod.snd) s

/-! Sending (R361, R362, R364). -/

/-- How a tile read ends. -/
inductive TileRead where
  | held
  | segment (cause : Nat)
  | poison (flat : Nat)
  | tile (ws : List Word)
  deriving DecidableEq, Repr

/-- The tile of `u` units at an offset of sT (R361): kind 1 or scratch, every earlier access of the context
performed. -/
def readCapTile (s : State) (x : Ctx) (f : Nat) (g : Seg) (off u : Nat) : TileRead :=
  let n := 128 * u
  let cl := clusterOf x.core
  if bankHeld s x g off then .held
  else match checkSeg s x g { need := needRd, size := n, align := 8, kinds := [1, 2] } off with
    | .error c => .segment c
    | .ok a =>
      let flat := nearFlat x (segKind g) a
      if (rangeBanks g a n).any fun b => inTransition s cl b then .held
      else if (rangeBanks g a n).any fun b => bankMode s cl b != 2 then .segment 6
      else if !allPerformed s x.core f then .held
      else if poisoned s flat n then .poison (firstPoison s flat n)
      else .tile ((splitBits 64 (n / 8) (readBytes s flat n)).map (BitVec.ofNat 64))

/-- Both capsules of the send buffer are in use (R361). -/
def bufferFull (s : State) (core : Nat) : Bool := decide (2 ≤ (coreOf s core).sendBuf)

/-- A capsule leaves a core through its send buffer. -/
def launchCapsule (s : State) (core : Nat) (c : Capsule) : State :=
  let s := modCore s core fun x => { x with sendBuf := x.sendBuf + 1 }
  { s with caps := s.caps ++ [{ cap := c, die := dieOf core, holder := some core }] }

/-- The head as CAPSEND leaves it: the source named, flags, cursor and fault record zero, no hop past the
itinerary. -/
def sealHead (core : Nat) (c : Capsule) : Capsule :=
  let c := setWord0 (setWord0 c 36 32 0) 26 22 0
  let c := setHeadWord c 4 (coordWord core)
  let c := (upFrom 6 5).foldl (fun c k => setHeadWord c k 0) c
  (upFrom (capItlen c) (16 - capItlen c)).foldl (fun c k => setHeadWord c (16 + k) 0) c

-- DEDUCED, log 50. Unsafe.
/-- CAPSEND (R361). -/
def execCapsend (w : RWord) (s : State) : Out :=
  let sT := fld w.imm 2 0
  withIssue (.capsend w) w.hdr [w.a, vSpec (idx w.a + 1), w.b, BitVec.ofNat 8 (0xC0 + sT)] s fun f s =>
    match ctxOf s f with
    | none => s
    | some x =>
      let head := readReg s f w.a + readReg s f (vSpec (idx w.a + 1)) * 2 ^ 1024
      let off := readReg s f w.b
      let c : Capsule := { head := (splitBits 64 32 head).map (BitVec.ofNat 64), tile := [], part := ctxPart s x }
      if bufferFull s x.core then hold .retry f s
      else if capVer c ≠ 1 || !headForm c then trapNow 0x0D 8 0 f s
      else match readCapTile s x f (readSeg s f sT) off (capUnits c) with
        | .held => hold .retry f s
        | .segment k => trapNow 0x04 k (eaddrOf off) f s
        | .poison flat => trapNow 0x0B 0 0 f (logPoison s f flat s.iss.pc)
        | .tile ws => finish w.hdr f (launchCapsule s x.core (sealHead x.core { c with tile := ws }))

/-- A trap that leaves the current capsule current (R351, R362). -/
def trapKeeping (cause : Nat) (addr : Word) (f : Nat) (s : State) : State :=
  setEnd (takeTrap s f { code := 0x04, cause := BitVec.ofNat 8 cause, addr := addr, pc := s.iss.pc, word := s.iss.word,
                         async := false, keep := true }) .trapped

/-- The instructions on the current capsule (R359): the class 2 context, and a capsule in hand. -/
def withCurrent (i : Instr) (w : RWord) (specs : List (BitVec 8)) (s : State)
    (body : Nat → Ctx → Capsule → State → State) : Out :=
  withIssue i w.hdr specs s fun f s =>
    match ctxOf s f with
    | none => s
    | some x =>
      if !capService s f then trapNow 0x0D 3 0 f s
      else match x.cap with
        | none => trapNow 0x0D 9 0 f s
        | some c => body f x c s

def setCurrent (s : State) (f : Nat) (c : Option Capsule) : State := modCtx s f fun x => { x with cap := c }

/-- CAPNEXT (R362). -/
def execCapnext (w : RWord) (s : State) : Out :=
  let sT := fld w.imm 2 0
  withCurrent (.capnext w) w [w.a, BitVec.ofNat 8 (0xC0 + sT)] s fun f x c s =>
    let u := fld w.imm 12 8
    let c := if u = 0 then c else setWord0 c 21 17 u
    let off := readReg s f w.a
    let last := capCursor c + 1 == capItlen c
    if !last && bufferFull s x.core then hold .retry f s
    else match readCapTile s x f (readSeg s f sT) off (capUnits c) with
      | .held => hold .retry f s
      | .segment k => trapKeeping k (eaddrOf off) f (setCurrent s f (some c))
      | .poison flat => trapNow 0x0B 0 0 f (logPoison (setCurrent s f (some c)) f flat s.iss.pc)
      | .tile ws =>
        let c := setWord0 (setWord0 { c with tile := ws } 36 32 0) 26 22 (capCursor c + 1)
        let s := setCurrent s f none
        finishReg w.hdr w.d (if last then 1 else 0) f (if last then s else launchCapsule s x.core c)

/-- The itinerary: hops 0 to 15. -/
def capHops (c : Capsule) : List Word := (c.head.drop 16).take 16
def setHops (c : Capsule) (hs : List Word) (n : Nat) : Capsule :=
  setWord0 { c with head := c.head.take 16 ++ hs } 31 27 n

/-- An itinerary instruction's end: the changed head and 0, or 1 (R363). -/
def editHead (w : RWord) (f : Nat) (s : State) (c : Option Capsule) : State :=
  match c with
  | some c => finishReg w.hdr w.d 0 f (setCurrent s f (some c))
  | none => finishReg w.hdr w.d 1 f s

/-- CAPINS (R363). -/
def execCapins (w : RWord) (s : State) : Out :=
  withCurrent (.capins w) w [w.a] s fun f _ c s =>
    let h := readReg s f w.a
    let j := capCursor c + fld w.imm 3 0
    if !hopOk h then trapNow 0x0D 8 0 f s
    else editHead w f s <|
      if capItlen c < 16 && decide (j ≤ capItlen c) then
        let hs := capHops c
        some (setHops c ((hs.take j ++ BitVec.ofNat 64 h :: hs.drop j).take 16) (capItlen c + 1))
      else none

-- DEDUCED, log 50. Unsafe.
/-- CAPSKIP (R363). -/
def execCapskip (w : RWord) (s : State) : Out :=
  withCurrent (.capskip w) w [] s fun f _ c s =>
    let j := capCursor c + fld w.imm 3 0
    editHead w f s <|
      if j < capItlen c then
        let hs := capHops c
        some (setHops c (hs.take j ++ hs.drop (j + 1) ++ [0]) (capItlen c - 1))
      else none

/-- CAPREPL (R363): a hop, or with k = 0 the fault place. -/
def execCaprepl (w : RWord) (s : State) : Out :=
  withCurrent (.caprepl w) w [w.a] s fun f _ c s =>
    let h := readReg s f w.a
    let k := fld w.imm 3 0
    let j := capCursor c + k
    if !hopOk h || (k == 0 && hopKind h == 2) then trapNow 0x0D 8 0 f s
    else editHead w f s <|
      if k = 0 then some (setHeadWord c 5 h)
      else if j < capItlen c then some (setHeadWord c (16 + j) h)
      else none

/-- CAPFAIL (R364): diverted with code 12 through the send buffer; a release waits (R350). -/
def execCapfail (w : RWord) (s : State) : Out :=
  withCurrent (.capfail w) w [w.a] s fun f x c s =>
    let v := readReg s f w.a
    if bufferFull s x.core then hold .retry f s
    else if qRel w.qual && !allPerformed s x.core f then hold .retry f s
    else
      let s := modCore (setCurrent s f none) x.core fun k => { k with sendBuf := k.sendBuf + 1 }
      finish w.hdr f (throwCapsule s { c with tile := currentTile s x c } (dieOf x.core) (some x.core)
        { code := 12, cause := fld w.imm 7 0, atCore := some x.core, detail := v, pc := s.iss.pc.toNat })

/-- CAPDROP (R364). -/
def execCapdrop (w : RWord) (s : State) : Out :=
  withCurrent (.capdrop w) w [] s fun f _ _ s => finish w.hdr f (setCurrent s f none)

end Sys2Proof.Machine
end

