-- ==== Sys2Proof/Machine/Fetch.lean ====
section
/-! DEFINITION. Fetch lines (R48 to R53): the line word and its checks, finding a line, legal entries,
and the events that bring lines in. -/

namespace Sys2Proof.Machine

/-! The line word (R49), bits 480 to 511 of a line. -/

def lineWord (l : BitVec 512) : Nat := fld l 511 480
def slotWord (l : BitVec 512) (k : Nat) : BitVec 96 := l.extractLsb' (96 * k) 96
def lineTmask (l : BitVec 512) (k : Nat) : Bool := bitOf (lineWord l) (27 + k)
/-- Slots j and j + 1 may pair. -/
def linePair (l : BitVec 512) (j : Nat) : Bool := decide (j < 4) && bitOf (lineWord l) (23 + j)

/-- The exclusive OR of the lowest `n` bits. -/
def parityOf (n x : Nat) : Bool := popcount n x % 2 == 1

/-- All 16 parity bits hold (R49, R51). -/
def lineParity (l : BitVec 512) : Bool :=
  ((upFrom 0 15).all fun i => parityOf 32 (fld l (32 * i + 31) (32 * i)) == bitOf (lineWord l) i) &&
    parityOf 16 (bitsOf (lineWord l) 31 16) == bitOf (lineWord l) 15

/-- The reserved bits are zero and no two adjacent pair bits are set (R49, R51). -/
def lineForm (l : BitVec 512) : Bool :=
  bitsOf (lineWord l) 22 16 == 0 &&
    (upFrom 0 3).all fun j => !(bitOf (lineWord l) (23 + j) && bitOf (lineWord l) (24 + j))

/-! Program counters (R50). -/

def pcLine (pc : Word) : Nat := fld pc 63 6 * 64
def pcSlot (pc : Word) : Nat := fld pc 2 0
/-- Bits [5:3] zero and a slot from 0 to 4 (R50, R53). -/
def pcWellFormed (pc : Word) : Bool := fld pc 5 3 == 0 && decide (pcSlot pc < 5)

/-! Finding a line. -/

def icacheLine (s : State) (c flat : Nat) : Option (BitVec 512) :=
  ((coreOf s c).icache.find? fun p => p.1 == flat / 64).map Prod.snd

/-- A fetch request of a context (R333 op 6). -/
def fetchReq (c k f va : Nat) : Req :=
  { ord := 0, core := c, slot := k, frame := f, pc := BitVec.ofNat 64 va, word := 0, op := 6, fn := 0, qual := 0,
    size := 8, addr := BitVec.ofNat 64 va, off := BitVec.ofNat 64 va, elem := 0xFF, data := 0, data2 := 0, ty := 0,
    dst := 0, fdst := 0, take := false, entry := none, target := none }

inductive LineAt where
  /-- the line, and where it was fetched from -/
  | ready (t : Target) (l : BitVec 512)
  /-- a fetch is under way -/
  | wait (s : State)
  /-- the address is not in the paged space, so no line is there -/
  | outside
  deriving DecidableEq, Repr

-- DESIGN CHOICE, log 64. Unsafe.
-- DEDUCED, log 45. Safe.
/-- The fetch line at a virtual address for a context in its slot, or its fetch begun. -/
def lineAt (s : State) (f va : Nat) : LineAt :=
  match ctxOf s f with
  | none => .outside
  | some x =>
    if bitsOf va 63 57 != 0 then .outside
    else if s.reqs.any fun r => r.frame == f && r.op == 6 then .wait s
    else match microLookup s x.core x.slot va with
      | some e =>
        let t := target s.pkg va e.level e.pte.toNat
        if !pteX e.pte.toNat then .wait (pushReq s (fetchReq x.core x.slot f va))
        else match icacheLine s x.core t.flat with
          | some l => .ready t l
          | none => .wait (pushReq s (fetchReq x.core x.slot f va))
      | none => .wait (pushReq s (fetchReq x.core x.slot f va))

inductive EntryCheck where
  | legal
  | illegal
  | wait (s : State)
  deriving DecidableEq, Repr

-- DESIGN CHOICE, log 65. Unsafe.
/-- Whether a target is a legal entry (R53); its mark is read from the line as it is held, before anything issues from
that line and checks it (R51). -/
def entryCheck (s : State) (f : Nat) (t : Word) : EntryCheck :=
  if !pcWellFormed t then .illegal
  else match lineAt s f (pcLine t) with
    | .ready _ l => if lineTmask l (pcSlot t) then .legal else .illegal
    | .wait s => .wait s
    | .outside => .illegal

/-! Lines arriving. -/

-- DEDUCED, log 45. Safe.
-- DESIGN CHOICE, log 8. Safe.
/-- Put a line that has been read into the core's instruction cache of 1,024 lines (R15). -/
def cacheLine (s : State) (c flat v : Nat) : State :=
  modCore s c fun x =>
    let keep := if x.icache.length < 1024 then x.icache else x.icache.eraseIdx (Config.pick s.tick % 1024)
    { x with icache := SMap.insert keep (flat / 64) (BitVec.ofNat 512 v) }

/-- The 64 bytes at a target are fetched through the cluster port (R52, R305). -/
def fetchLine (s : State) (c : Nat) (t : Target) : State :=
  let s := noteFetch s (clusterOf c) t
  cacheLine s c t.flat (loadBytes s (clusterOf c) { t with flat := t.flat / 64 * 64 } 64)

/-- A core's corrected-error and instruction-drop counts and their records at multiples of 4,096
(R390). -/
def countDrop (s : State) (c part : Nat) : State :=
  let s := modCore s c fun x => { x with dropped := x.dropped + 1 }
  let n := (coreOf s c).dropped.toNat
  if n % 4096 = 0 then logError s part 8 5 (dieOf c % 4 * 2 ^ 60) 8 0 0 n [] else s

def countCorrected (s : State) (c part : Nat) : State :=
  let s := modCore s c fun x => { x with corrected := x.corrected + 1 }
  let n := (coreOf s c).corrected.toNat
  if n % 4096 = 0 then logError s part 2 5 (dieOf c % 4 * 2 ^ 60) 8 0 0 n [] else s

/-- A trap of a fetch: at the instruction about to issue (R388, R398). -/
def fetchTrap (s : State) (f code cause : Nat) (addr : Word) : State :=
  takeTrap s f { code := BitVec.ofNat 8 code, cause := BitVec.ofNat 8 cause, addr := addr, pc := ctxPc s f,
                 word := 0, async := false }

/-- The line after the program counter's is fetched ahead of issue; one that faults is dropped and counted (R52). -/
def fetchAhead (s : State) (core slot f : Nat) (x : Ctx) : State :=
  let va := pcLine (ctxPc s f) + 64
  if bitsOf va 63 57 != 0 then countDrop s core (ctxPart s x)
  else match engineXlate s core slot (ctxPart s x) va with
    | (s, .page level e) =>
      let t := target s.pkg va level e
      if targetWaits s (dieOf core) s.ord t then s
      else if !pteX e || poisoned s t.flat 64 || !targetReach s (dieOf core) t then countDrop s core (ctxPart s x)
      else fetchLine s core t
    | (s, .bad _ _) => countDrop s core (ctxPart s x)

-- DESIGN CHOICE, log 90. Unsafe.
-- DEDUCED, log 45. Safe.
/-- INSTRUCTION_FETCH_COMPLETE (R52): the slot's fetch arrives; with none under way, a line ahead. -/
def execInstructionFetchComplete (core slot : Nat) (s : State) : Host.Outcome State Fault Refusal :=
  .next <|
    match s.reqs.find? fun r => r.core == core && r.slot == slot && r.op == 6 with
    | some r => match r.target with
      | none => s
      | some t =>
        let s1 := dropReq s r
        if targetWaits s (dieOf core) r.ord t then s
        else if !targetReach s (dieOf core) t then fetchTrap s1 r.frame 0x04 8 r.addr
        else if poisoned s t.flat 64 then fetchTrap (logPoison s1 r.frame t.flat (ctxPc s r.frame)) r.frame 0x0B 0 0
        else fetchLine s1 core t
    | none => match (slotOf s core slot).act.frame with
      | none => s
      | some f => match ctxOf s f with
        | none => s
        | some x => fetchAhead s core slot f x

-- DESIGN CHOICE, log 90. Unsafe.
/-- LINE_REFETCH (R51): the discarded line is fetched once more, through the cluster port (R14). -/
def execLineRefetch (core slot : Nat) (s : State) : Host.Outcome State Fault Refusal :=
  .next <|
    match (slotOf s core slot).fetch, (slotOf s core slot).act.frame with
    | .again t, some f =>
      let idle := modSlot s core slot fun x => { x with fetch := .idle }
      if targetWaits s (dieOf core) s.ord t then s
      else if !targetReach s (dieOf core) t then fetchTrap idle f 0x04 8 (BitVec.ofNat 64 (pcLine (ctxPc s f)))
      else if poisoned s t.flat 64 then fetchTrap (logPoison idle f t.flat (ctxPc s f)) f 0x0B 0 0
      else modSlot (fetchLine s core t) core slot fun x => { x with fetch := .refetched t.flat }
    | _, _ => s

end Sys2Proof.Machine
end

