-- ==== Sys2Proof/Machine/Control.lean ====
section
/-! DEFINITION. Thread engine: control transfer, traps, contexts and launches (R154 to R163). -/

namespace Sys2Proof.Machine

/-- Where control goes after the instruction, or after its pair (R54). -/
def setNext (s : State) (t : Word) : State := { s with iss := { s.iss with next := t } }

/-- A jump to a legal entry, its link written first; an illegal one traps and the jump has no effect; a
target line not yet fetched holds the jump as an instruction-cache miss does (R53, R154, R155). -/
def jumpTo (h : Hdr) (link : BitVec 8) (t : Word) (f : Nat) (s : State) : State :=
  match entryCheck s f t with
  | .illegal => trapNow 0x03 0 t f s
  | .wait s => hold .retry f s
  | .legal => finish h f (setNext (writeReg s f link s.iss.next.toNat) t)

/-- The target of format B (R63). -/
def branchTarget (pc : Word) (w : BWord) : Word :=
  n64 ((pcLine pc : Int) + sextInt 29 w.disp.toNat * 64 + (w.slot.toNat : Int))

/-- take of R154. -/
def branchTaken (fn cond : Nat) : Bool :=
  match fn with
  | 0 => true
  | 1 => cond == 0
  | _ => cond != 0

def execBr (w : BWord) (s : State) : Out :=
  withIssue (.br w) w.hdr [w.cond] s fun f s =>
    if branchTaken (fnOf w.hdr) (readReg s f w.cond) then jumpTo w.hdr 0 (branchTarget s.iss.pc w) f s
    else finish w.hdr f s

def execCall (w : BWord) (s : State) : Out :=
  withIssue (.call w) w.hdr [] s fun f s => jumpTo w.hdr w.link (branchTarget s.iss.pc w) f s

def execRet (w : RWord) (s : State) : Out :=
  withIssue (.ret w) w.hdr [w.a] s fun f s => jumpTo w.hdr 0 (BitVec.ofNat 64 (readReg s f w.a)) f s

def execJmp (w : RWord) (s : State) : Out :=
  withIssue (.jmp w) w.hdr [w.a] s fun f s => jumpTo w.hdr w.d (BitVec.ofNat 64 (readReg s f w.a)) f s

/-- TRAP (R156): the exact trap `0x0A` with its cause. -/
def execTrap (w : RWord) (s : State) : Out :=
  withIssue (.trap w) w.hdr [] s fun f s => trapNow 0x0A (fld w.imm 7 0) 0 f s

/-! Refused remote stores (R137, R184). -/

/-- The context's earliest refused journal entry. -/
def nextRefused (s : State) (core f : Nat) : Option Nat :=
  (upFrom 0 64).foldl (fun best k =>
    let j := jentry s core k
    if j.state == 2 && j.frame == f then
      match best with
      | none => some k
      | some b => if j.ord < (jentry s core b).ord then some k else some b
    else best) none

/-- The asynchronous trap of a refused store is taken (R137). -/
def takeAsync (s : State) (f : Nat) (x : Ctx) (k : Nat) : State :=
  let j := jentry s x.core k
  let t : TrapInfo := { code := 0x09, cause := BitVec.ofNat 8 k, addr := j.addr, pc := ctxPc s f, word := 0, async := true }
  takeTrap (modCtx s f fun x => { x with served := some k }) f t

/-- A handled refusal's entry is freed, and apend follows the ones left (R184). -/
def freeServed (s : State) (f : Nat) : State :=
  match ctxOf s f with
  | none => s
  | some x => match x.served with
    | none => s
    | some k =>
      let s := modCtx (setJentry s x.core k {}) f fun x => { x with served := none }
      setStatus s f 2 2 (if (nextRefused s x.core f).isSome then 1 else 0)

/-- TRET (R135, R157): with inh clear the privilege trap; a malformed `sys.epc` traps and escalates. -/
def execTret (w : RWord) (s : State) : Out :=
  withIssue (.tret w) w.hdr [] s fun f s =>
    let st := statusOf s f
    if !stInh st then trapNow 0x05 2 0 f s
    else unmarked f [wEpc, wEstat] s fun s =>
      if !pcWellFormed (readFrame s f wEpc) then trapNow 0x03 0 (readFrame s f wEpc) f s
      else
        let s := keepRunFaults (leaveHandler s f) f
        unmask st f (finish w.hdr f (freeServed (setNext s (ctxPc s f)) f))

def execNop (w : RWord) (s : State) : Out := withIssue (.nop w) w.hdr [] s fun f s => finish w.hdr f s

/-! Contexts (R159 to R162). -/

/-- The issuing context is its task's control context, whose segments a START reads and copies (R128). -/
def controlIssues (s : State) : Bool :=
  match issuer s with
  | some f => isControl s f
  | none => false

/-- START and START.svc (R159): the verdict is long; every earlier access of the issuer comes before the
new context's. -/
def startCommon (i : Instr) (w : RWord) (kind cls : Nat) (s : State) (room : Nat → Ctx → State → Bool) : Out :=
  withIssue i w.hdr ([w.a, w.b, w.c] ++ if controlIssues s then segSpecs else []) s fun f s =>
    if !allPerformed s s.iss.core f then hold .retry f s
    else withEntry w.d 0 f s fun e s =>
      let done (s : State) (ok : Bool) := finish w.hdr f (sendResult s f e [regWrite w.d (predAll ok)] [])
      match ctxOf s f with
      | none => done s false
      | some x =>
        let t := ctxTask s x
        if isControl s f && room f x s then
          match startContext s x.core x.bind kind cls (BitVec.ofNat 64 (readReg s f w.a))
              [BitVec.ofNat 64 (readReg s f w.b), BitVec.ofNat 64 (readReg s f w.c), BitVec.ofNat 64 t.count] none with
          | none => done s false
          | some (g, s) =>
            let s := if kind = 2 then modTask s x.core x.bind fun t => { t with svc := SMap.insert t.svc cls g } else s
            let s := if kind = 2 then modSlot s x.core ((ctxOf s g).elim 0 Ctx.slot) fun sl =>
                { sl with ready := hasMessage s x.core x.bind cls } else s
            done s true
        else done s false

def execStart (w : RWord) (s : State) : Out :=
  startCommon (.start w) w 1 0 s fun _ x s => decide (liveHelpers s x.core x.bind < 10)

def execStartSvc (w : RWord) (s : State) : Out :=
  startCommon (.startSvc w) w 2 (fld w.imm 2 0) s fun _ x s =>
    (coreOf s x.core).tasks.all fun t => t.2.svc.all fun p => p.1 != fld w.imm 2 0

/-- A context retires (R24, R160): a control context's exit ends its task and frees slot 0. A pre-emption request of its is
answered with status *exited* (R138). -/
def retire (s : State) (f : Nat) : State :=
  match ctxOf s f with
  | none => s
  | some x =>
    let s := if (coreOf s x.core).preReq && stPpend (statusOf s f)
      then modCore s x.core fun c => { c with exited := x.slot :: c.exited } else s
    if isControl s f then endTask s x.core x.bind .retired else endContext s f

-- DESIGN CHOICE, log 91. Unsafe.
/-- EXIT (R160): after the context's long results (R42) and journal entries; a refused entry traps first. -/
def execExit (w : RWord) (s : State) : Out :=
  withIssue (.exit w) w.hdr [] s fun f s =>
    match ctxOf s f with
    | none => s
    | some x =>
      if !(outstanding s f).isEmpty || !noPending s f then hold .retry f s
      else if !(runLate s f x).isEmpty then setEnd (resolveTrap s f) .trapped
      else match nextRefused s x.core f with
        | some k => setEnd (takeAsync s f x k) .trapped
        | none =>
          if (upFrom 0 64).any fun k => (jentry s x.core k).state == 1 && (jentry s x.core k).frame == f
          then hold .retry f s
          else setEnd (retire s f) .completed

/-- JOIN (R161). -/
def execJoin (w : RWord) (s : State) : Out :=
  withIssue (.join w) w.hdr [] s fun f s =>
    match ctxOf s f with
    | none => s
    | some x =>
      if isControl s f && decide (0 < liveHelpers s x.core x.bind) then block .retry f s
      else finish w.hdr f s

-- DEDUCED, log 27. Unsafe.
/-- PPOINT (R125, R126, R162): the mask is recorded; with a pre-emption pending and not masked the context
stops here for the switch, which a control context takes. -/
def execPpoint (w : RWord) (s : State) : Out :=
  withIssue (.ppoint w) w.hdr [w.a] s fun f s =>
    let m := BitVec.ofNat 128 (readReg s f w.a)
    let s := modCtx (finish w.hdr f s) f fun x => { x with live := some m }
    if (coreOf s s.iss.core).preReq && unmasked s s.iss.core then
      let s := modCtx s f fun x => { x with wait := some .ppoint }
      if isControl s f || (coreOf s s.iss.core).due == some f then takePreempt s s.iss.core else s
    else s

/-! Launches (R163). -/

/-- The token a die's millwright core gives next (R371). -/
def takeToken (s : State) (d : Nat) : Word × State :=
  let n := (dieSt s d).seqTok
  (BitVec.ofNat 64 (d / 4 % 1024 * 2 ^ 54 + d % 4 * 2 ^ 52 + n.toNat),
    modDie s d fun x => { x with seqTok := n + 1 })

/-- Accept a record of 16 words into a die's device launch queue (R163). -/
def acceptLaunch (s : State) (core part v : Nat) : Word × State :=
  let (tok, s) := takeToken s (dieOf core)
  let l : Launch := { token := tok, words := (splitBits 64 16 v).map (BitVec.ofNat 64), die := dieOf core, part := part
                      ord := s.ord }
  let s := { s with ord := s.ord + 1 }
  (tok, modDie s (dieOf core) fun x => { x with devQ := x.devQ ++ [l] })

/-- The destination of a LAUNCH through the window serves the record's words: the bank is in scratch mode (R95). -/
def winServes (s : State) (a : Nat) : Bool := !bitOf a 38 || bankMode s (winCluster a) (bitsOf a 21 0 / 2 ^ 17) == 2

/-- The bank that a LAUNCH's record lies in is in transition: its own cluster's, or the window's destination (R95, R302). -/
def launchHeld (s : State) (x : Ctx) (g : Seg) (off : Int) : Bool :=
  let a := lowBits 64 (g.base.toNat + off)
  bankHeld s x g off || (segKind g == 3 && bitOf a 38 && inTransition s (winCluster a) (bitsOf a 21 0 / 2 ^ 17))

-- DESIGN CHOICE, log 70. Unsafe.
/-- The die's millwright core reads the record and accepts it, its token the result; a full queue, or a die
whose firmware does not run, refuses it with 0, and so does a record that has no valid translation or holds a poisoned word, of which R178 lets LAUNCH raise no trap. -/
def readLaunch (w : RWord) (f e : Nat) (x : Ctx) (at_ : Option Nat) (s : State) : State :=
  let answer (v : Word) (s : State) : State := finish w.hdr f (sendResult s f e [regWrite w.d v.toNat] [])
  match at_ with
  | none => answer 0 s
  | some flat =>
    if !firmwareRuns s (dieOf x.core) then answer 0 s
    else if poisoned s flat 128 then answer 0 (logPoison s f (firstPoison s flat 128) s.iss.pc)
    else if 64 ≤ ((dieSt s (dieOf x.core)).devQ.filter fun l => l.src == 0).length then answer 0 s
    else
      let (tok, s) := acceptLaunch s x.core (ctxPart s x) (readBytes s flat 128)
      answer tok s

/-- LAUNCH (R163): every earlier access comes before the record read. -/
def execLaunch (w : RWord) (s : State) : Out :=
  withIssue (.launch w) w.hdr [w.a, w.b] s fun f s =>
    match ctxOf s f with
    | none => s
    | some x =>
      let g := readSeg s f (idx w.a)
      let off : Int := (readReg s f w.b : Nat)
      match checkSeg s x g { need := needRd, size := 128, align := 128 } off with
      | .error c => if launchHeld s x g off then hold .retry f s else trapNow 0x04 c (eaddrOf off) f s
      | .ok a =>
        if launchHeld s x g off || !allPerformed s x.core f then hold .retry f s
        else withEntry w.d 0 f s fun e s' =>
          match segKind g with
          | 0 => match engineXlate s' x.core x.slot (ctxPart s x) a with
            | (s', .page level pte) =>
              let t := target s.pkg a level pte
              if targetWaits s (dieOf x.core) s.ord t then hold .retry f s
              else if targetReach s (dieOf x.core) t then readLaunch w f e x (some t.flat) (noteSlice s' t)
              else trapNow 0x04 8 (eaddrOf off) f s
            | (s', .bad _ _) => readLaunch w f e x none s'
          | 3 =>
            if routeWaits s (dieOf x.core) (dieOfCluster (winCluster a)) s.ord then hold .retry f s
            else if reachable s (dieOf x.core) (dieOfCluster (winCluster a)) && winServes s a
            then readLaunch w f e x (some (winFlat a)) s'
            else trapNow 0x04 8 (eaddrOf off) f s
          | k => readLaunch w f e x (some (nearFlat x k a)) s'

end Sys2Proof.Machine
end

