-- ==== Sys2Proof/Machine/Floats.lean ====
section
/-! DEFINITION. Floating-point formats, exact values, rounding, overflow, stochastic rounding and the
functions with error bounds (R71 to R77, R81 to R91, R416). A value is an exact rational until it is rounded. -/

namespace Sys2Proof.Machine

/-- How a format uses its top exponent code (R72). -/
inductive TopCode where
  | ieee
  | e4m3
  | e2m1
  deriving DecidableEq, Repr

/-- A floating-point format (R71). -/
structure Fmt where
  eb : Nat
  mb : Nat
  bias : Nat
  top : TopCode
  deriving DecidableEq, Repr

def Fmt.width (p : Fmt) : Nat := 1 + p.eb + p.mb

/-- The format of a type code; a complex type's parts' (R73). -/
def fmtOf : Nat → Fmt
  | 9 => ⟨5, 10, 15, .ieee⟩
  | 10 => ⟨8, 7, 127, .ieee⟩
  | 12 => ⟨4, 3, 7, .e4m3⟩
  | 13 => ⟨5, 2, 15, .ieee⟩
  | 14 => ⟨2, 1, 1, .e2m1⟩
  | 15 => ⟨8, 7, 127, .ieee⟩
  | 17 => ⟨5, 10, 15, .ieee⟩
  | _ => ⟨8, 23, 127, .ieee⟩

/-- The part type of a complex type. -/
def partType : Nat → Nat
  | 15 => 10 | 17 => 9 | _ => 11

/-- An exact value: `(-1)^neg * n / d * 2^e`, zero keeping its sign. -/
inductive Num where
  | nan
  | inf (neg : Bool)
  | rat (neg : Bool) (n d : Nat) (e : Int)
  deriving DecidableEq, Repr

def signCode (p : Fmt) (neg : Bool) (code : Nat) : Nat := if neg then 2 ^ (p.eb + p.mb) + code else code
def infCode (p : Fmt) : Nat := (2 ^ p.eb - 1) * 2 ^ p.mb

/-- The largest finite code (R71, R72). -/
def maxCode (p : Fmt) : Nat :=
  match p.top with
  | .ieee => infCode p - 1
  | .e4m3 => 2 ^ (p.eb + p.mb) - 2
  | .e2m1 => 2 ^ (p.eb + p.mb) - 1

/-- The canonical NaN (R74); `e2m1` has none and takes +0 (R82). -/
def nanCode (p : Fmt) : Nat :=
  match p.top with
  | .ieee => infCode p + 2 ^ (p.mb - 1)
  | .e4m3 => 2 ^ (p.eb + p.mb) - 1
  | .e2m1 => 0

/-- Flushing concerns `f16`, `bf16` and `f32` only (R75). -/
def flushes (p : Fmt) : Bool := p.eb == 8 || p.mb == 10

/-- The value a code denotes (R71, R72), its subnormals flushed under `.ftz` (R75). -/
def decodeF (ftz : Bool) (p : Fmt) (x : Nat) : Num :=
  let neg := bitOf x (p.eb + p.mb)
  let e := x / 2 ^ p.mb % 2 ^ p.eb
  let m := x % 2 ^ p.mb
  if e = 0 then
    .rat neg (if ftz && flushes p then 0 else m) 1 (1 - p.bias - p.mb)
  else if p.top == .ieee && e == 2 ^ p.eb - 1 then (if m = 0 then .inf neg else .nan)
  else if p.top == .e4m3 && e == 15 && m == 7 then .nan
  else .rat neg (2 ^ p.mb + m) 1 (e - p.bias - p.mb)

/-- An integer's value. -/
def numOfInt (x : Int) : Num := .rat (decide (x < 0)) x.natAbs 1 0

/-- Numerator and denominator of `n / d * 2^e` with the power of two taken in. -/
def scaleNum (n : Nat) (e : Int) : Nat := n * 2 ^ e.toNat
def scaleDen (d : Nat) (e : Int) : Nat := d * 2 ^ (-e).toNat

/-- `floor (log2 (n / d * 2^e))` of a positive value. -/
def floorLog (n d : Nat) (e : Int) : Int :=
  let k : Int := (n.log2 : Int) - d.log2
  let below := decide (scaleNum n (-k) < scaleDen d (-k))
  (if below then k - 1 else k) + e

/-! sys.lfsr (R86). -/

def lfsrStep (x : BitVec 32) : BitVec 32 :=
  if x.getLsbD 0 then (x >>> 1) ^^^ 0x80200003#32 else x >>> 1

def lfsrSteps : Nat → BitVec 32 → BitVec 32
  | 0, x => x
  | n + 1, x => lfsrSteps n (lfsrStep x)

/-! Rounding (R82, R85). -/

/-- A rounding in progress: the mode, `.sat`, `.ftz`, and whether `rm` 4 applies. -/
structure Rnd where
  rm : Nat := 0
  sat : Bool := false
  ftz : Bool := false
  deriving DecidableEq, Repr

/-- The result past the largest finite magnitude (R82 step 3). -/
def overflowCode (p : Fmt) (r : Rnd) (neg : Bool) : Nat :=
  let toInf := r.rm == 0 || r.rm == 4 || (r.rm == 2 && neg) || (r.rm == 3 && !neg)
  match p.top with
  | .e2m1 => signCode p neg (maxCode p)
  | .e4m3 => signCode p neg (if r.sat then maxCode p else 2 ^ (p.eb + p.mb) - 1)
  | .ieee => signCode p neg (if r.sat || !toInf then maxCode p else infCode p)

/-- Whether the magnitude `lo + rem / D`, `0 < rem < D`, goes up to `lo + 1`: `rm` on the sign (R58, R85). -/
def roundsUp (rm : Nat) (neg : Bool) (lo rem D : Nat) (lfsr : BitVec 32) : Bool :=
  match rm with
  | 0 => decide (D < 2 * rem) || (2 * rem == D && lo % 2 == 1)
  | 1 => false
  | 2 => neg
  | 3 => !neg
  | _ =>
    let r := fld lfsr 23 0
    if neg then decide ((D - rem) * 2 ^ 24 / D ≤ r) else decide (r < rem * 2 ^ 24 / D)

/-- The power of two of the last place of a positive value in a format. -/
def lastPlace (p : Fmt) (n d : Nat) (e : Int) : Int :=
  max (floorLog n d e - p.mb) (1 - p.bias - p.mb)

/-- Whether stochastic rounding takes the greater of the neighbours of a value of the unbounded-exponent set past the
largest finite one, where the value itself is not representable (R85): `first` says that it begins a binade, below which
the spacing is half as wide. -/
def takesUpper (neg first : Bool) (lfsr : BitVec 32) : Bool :=
  decide (fld lfsr 23 0 < if first then (if neg then 2 ^ 25 / 3 else 2 ^ 24 / 3) else 2 ^ 23)

/-- The code of an exact value in a format, with the register advanced where R85 advances it. -/
def roundF (p : Fmt) (r : Rnd) (lfsr : BitVec 32) : Num → Nat × BitVec 32
  | .nan => (nanCode p, lfsr)
  | .inf neg =>
    (if p.top == .ieee && !r.sat then signCode p neg (infCode p) else overflowCode p r neg, lfsr)
  | .rat neg n d e =>
    if n = 0 then (signCode p neg 0, lfsr)
    else
      let q := lastPlace p n d e
      let N := scaleNum n (e - q)
      let D := scaleDen d (e - q)
      let lo := N / D
      let rem := N % D
      let at_ (sig : Nat) : Nat := sig + (q - (1 - p.bias - p.mb)).toNat * 2 ^ p.mb
      let past := rem == 0 && r.rm == 4 && decide (maxCode p < at_ lo)
      let code :=
        if past then (if takesUpper neg (lo == 2 ^ p.mb) lfsr != neg then at_ lo + 1 else at_ lo - 1)
        else if rem ≠ 0 && roundsUp r.rm neg lo rem D lfsr then at_ (lo + 1) else at_ lo
      let out :=
        if maxCode p < code then overflowCode p r neg
        else if r.ftz && flushes p && decide (code < 2 ^ p.mb) then signCode p neg 0
        else signCode p neg code
      (out, if (rem ≠ 0 && r.rm == 4) || past then lfsrSteps 32 lfsr else lfsr)

/-- Rounding that never uses the register. -/
def roundNow (p : Fmt) (r : Rnd) (x : Num) : Nat := (roundF p r 1 x).1

/-- The integer a value rounds to under `rm` (R84). -/
def roundInt (rm : Nat) (lfsr : BitVec 32) (neg : Bool) (n d : Nat) (e : Int) : Int × BitVec 32 :=
  let N := scaleNum n e
  let D := scaleDen d e
  let rem := N % D
  let m := if rem ≠ 0 && roundsUp rm neg (N / D) rem D lfsr then N / D + 1 else N / D
  (if neg then -(m : Int) else m, if rem ≠ 0 && rm == 4 then lfsrSteps 32 lfsr else lfsr)

/-! Exact arithmetic (R74, R416). -/

def isNegNum : Num → Bool
  | .rat neg _ _ _ => neg
  | .inf neg => neg
  | .nan => false

def negNum : Num → Num
  | .nan => .nan
  | .inf s => .inf (!s)
  | .rat s n d e => .rat (!s) n d e

/-- An exact sum; `rdn` gives a zero sum of addends of opposite sign its sign (R416). -/
def addNum (rdn : Bool) : Num → Num → Num
  | .nan, _ => .nan
  | _, .nan => .nan
  | .inf s, .inf t => if s = t then .inf s else .nan
  | .inf s, _ => .inf s
  | _, .inf t => .inf t
  | .rat s n d e, .rat t m c f =>
    let k := min e f
    let x : Int := (scaleNum n (e - k) * c : Nat)
    let y : Int := (scaleNum m (f - k) * d : Nat)
    let z := (if s then -x else x) + (if t then -y else y)
    if z = 0 then .rat (if s = t then s else rdn) 0 1 0
    else .rat (decide (z < 0)) z.natAbs (d * c) k

def mulNum : Num → Num → Num
  | .nan, _ => .nan
  | _, .nan => .nan
  | .inf s, .inf t => .inf (s != t)
  | .inf s, .rat t n _ _ => if n = 0 then .nan else .inf (s != t)
  | .rat s n _ _, .inf t => if n = 0 then .nan else .inf (s != t)
  | .rat s n d e, .rat t m c f => .rat (s != t) (n * m) (d * c) (e + f)

def divNum : Num → Num → Num
  | .nan, _ => .nan
  | _, .nan => .nan
  | .inf _, .inf _ => .nan
  | .inf s, .rat t _ _ _ => .inf (s != t)
  | .rat s _ _ _, .inf t => .rat (s != t) 0 1 0
  | .rat s n d e, .rat t m c f =>
    if m = 0 then (if n = 0 then .nan else .inf (s != t))
    else .rat (s != t) (n * c) (d * m) (e - f)

/-- Comparison: none when one is a NaN (R218); zeros are equal. -/
def cmpNum : Num → Num → Option Ordering
  | .nan, _ => none
  | _, .nan => none
  | .inf s, .inf t => some (if s = t then .eq else if s then .lt else .gt)
  | .inf s, _ => some (if s then .lt else .gt)
  | _, .inf t => some (if t then .gt else .lt)
  | .rat s n d e, .rat t m c f =>
    let k := min e f
    let x : Int := (scaleNum n (e - k) * c : Nat)
    let y : Int := (scaleNum m (f - k) * d : Nat)
    some (compare (if s then -x else x) (if t then -y else y))

/-- A condition of R58 on floats (R218). -/
def condNum (c : Nat) (a b : Num) : Bool :=
  match cmpNum a b with
  | none => c == 1
  | some o => match c with
    | 0 => o == .eq
    | 1 => o != .eq
    | 2 => o == .lt
    | 3 => o != .gt
    | 4 => o == .gt
    | _ => o != .lt

/-- The exact sum of a step's terms: NaN for a NaN or infinities of both signs; an exact zero is +0 unless
every term is −0 (R88). -/
def sumNum : List Num → Num
  | [] => .rat false 0 1 0
  | [x] => x
  | x :: rest => addNum false x (sumNum rest)

/-! Min and max (R213). -/

/-- The smaller or greater of two codes: NaN gives the canonical NaN, −0 is below +0, the operand keeps its
bits but for a flush. -/
def pickF (p : Fmt) (ftz greater : Bool) (x y : Nat) : Nat :=
  let fx := if ftz && flushes p && x / 2 ^ p.mb % 2 ^ p.eb == 0 then signCode p (bitOf x (p.eb + p.mb)) 0 else x
  let fy := if ftz && flushes p && y / 2 ^ p.mb % 2 ^ p.eb == 0 then signCode p (bitOf y (p.eb + p.mb)) 0 else y
  match cmpNum (decodeF false p fx) (decodeF false p fy) with
  | none => nanCode p
  | some .lt => if greater then fy else fx
  | some .gt => if greater then fx else fy
  | some .eq => if bitOf fx (p.eb + p.mb) != greater then fx else fy

/-! Square root (R215): the root of a power-of-four multiple, with a sticky half place when inexact. -/

def isqrtFrom (n : Nat) : Nat → Nat → Nat
  | 0, r => r
  | k + 1, r => isqrtFrom n k (if (r + 2 ^ k) * (r + 2 ^ k) ≤ n then r + 2 ^ k else r)

/-- `floor (sqrt n)` for `n < 2^400`. -/
def isqrt (n : Nat) : Nat := isqrtFrom n 200 0

/-- The root of a positive `n / d * 2^e` to more than 90 bits. -/
def sqrtRat (n d : Nat) (e : Int) : Num :=
  let k : Int := 200 - (n.log2 : Int) + d.log2
  let k := if (e - k) % 2 = 0 then k else k + 1
  let N := scaleNum n k
  let D := scaleDen d k
  let r := isqrt (N / D)
  if r * r * D = N then .rat false r 1 ((e - k) / 2)
  else .rat false (2 * r + 1) 1 ((e - k) / 2 - 1)

def sqrtNum : Num → Num
  | .nan => .nan
  | .inf s => if s then .nan else .inf false
  | .rat s n d e => if n = 0 then .rat s 0 1 0 else if s then .nan else sqrtRat n d e

/-! The functions with error bounds (R87, R216). -/

/-- `2^(2^-1), 2^(2^-2), ...` scaled by 2^96. -/
def exp2Roots : Nat → Nat → List Nat
  | 0, _ => []
  | n + 1, c => let r := isqrt (c * 2 ^ 96); r :: exp2Roots n r

/-- `2^f * 2^96` for the fraction `f = bits / 2^64`, to more than 64 bits. -/
def exp2Frac (bits : Nat) : Nat :=
  ((exp2Roots 64 (2 ^ 97)).zip ((upFrom 0 64).map fun i => bitOf bits (63 - i))).foldl
    (fun acc p => if p.2 then acc * p.1 / 2 ^ 96 else acc) (2 ^ 96)

-- DESIGN CHOICE, log 10. Unsafe.
/-- `2^x` of a finite value, to more than 60 bits; exact for an integer. -/
def exp2Rat (neg : Bool) (n d : Nat) (e : Int) : Num :=
  let x : Int := (scaleNum n (e + 64) / scaleDen d (e + 64) : Nat)
  let exact := scaleNum n (e + 64) % scaleDen d (e + 64) == 0
  let y := if neg then (if exact then -x else -x - 1) else x
  let i := y / 2 ^ 64
  let f := (y % 2 ^ 64).toNat
  if f = 0 && exact then .rat false 1 1 i else .rat false (exp2Frac f) 1 (i - 96)

/-- Bits of `log2 z`, `z` in [1, 2) scaled by 2^96, most significant first. -/
def log2Bits : Nat → Nat → Nat → Nat
  | 0, _, acc => acc
  | n + 1, z, acc =>
    let y := z * z / 2 ^ 96
    if 2 ^ 97 ≤ y then log2Bits n (y / 2) (2 * acc + 1) else log2Bits n y (2 * acc)

-- DESIGN CHOICE, log 10. Unsafe.
/-- `log2 x` of a positive finite value, within 2^-60; exact for a power of two. -/
def log2Rat (n d : Nat) (e : Int) : Num :=
  let k := floorLog n d e
  let z := scaleNum n (e - k + 96) / scaleDen d (e - k + 96)
  let y : Int := k * 2 ^ 64 + (log2Bits 64 z 0 : Nat)
  .rat (decide (y < 0)) y.natAbs 1 (-64)

/-- Whether a function's value is exact by R87: an exact power of two. -/
def powerOfTwo (n d : Nat) (e : Int) : Bool :=
  let k := floorLog n d e
  scaleNum n (e - k) == scaleDen d (e - k)

def isIntRat (n d : Nat) (e : Int) : Bool := scaleNum n e % scaleDen d e == 0

/-- What R87 fixes of a function's value: exactly, or within a bound given as units in the last place or as
an absolute power of two. -/
inductive Bounded where
  | exact (x : Num)
  | ulps (k : Nat) (x : Num)
  | within (e : Int) (x : Num)
  deriving DecidableEq, Repr

/-- VRCP, VRSQ, VEXP2, VLOG2 by their major opcode (R87). -/
def boundedFn (op : Nat) (x : Num) : Bounded :=
  match op, x with
  | _, .nan => .exact .nan
  | 0x86, .inf s => .exact (.rat s 0 1 0)
  | 0x86, .rat s n d e => if n = 0 then .exact (.inf s) else .ulps 1 (.rat s d n (-e))
  | 0x87, .inf s => .exact (if s then .nan else .rat false 0 1 0)
  | 0x87, .rat s n d e =>
    if n = 0 then .exact (.inf s) else if s then .exact .nan else .ulps 1 (sqrtRat d n (-e))
  | 0x88, .inf s => .exact (if s then .rat false 0 1 0 else .inf false)
  | 0x88, .rat s n d e =>
    if n = 0 || isIntRat n d e then
      .exact (.rat false 1 1 (max (-1000) (min 1000 (let m : Int := (scaleNum n e / scaleDen d e : Nat); if s then -m else m))))
    else if decide (1000 < scaleNum n e / scaleDen d e) then .ulps 2 (.rat false 1 1 (if s then -1000 else 1000))
    else .ulps 2 (exp2Rat s n d e)
  | _, .inf s => .exact (if s then .nan else .inf false)
  | _, .rat s n d e =>
    if n = 0 then .exact (.inf true)
    else if s then .exact .nan
    else if powerOfTwo n d e then .exact (numOfInt (floorLog n d e))
    else if floorLog n d e = 0 || floorLog n d e = -1 then .within (-22) (log2Rat n d e)
    else .ulps 2 (log2Rat n d e)

-- DESIGN CHOICE, log 10. Unsafe.
/-- `|x - y| ≤ b` of finite values; `b` a positive number. -/
def within (x y b : Num) : Bool :=
  let d := match addNum false x (negNum y) with
    | .rat _ n c e => Num.rat false n c e
    | z => z
  match cmpNum d b with
  | some .gt => false
  | some _ => true
  | none => false

/-- An `f32` code meets a bound about a finite value. An infinity stands for the first value past the
format. -/
def meets (y b : Num) (code : Nat) : Bool :=
  let p := fmtOf 11
  match decodeF false p code with
  | .nan => false
  | .inf s => within (.rat s 1 1 128) y b
  | x => within x y b

-- DESIGN CHOICE, log 10. Unsafe.
/-- The `f32` result of a bounded function: any code inside the bound, the nearest where the free choice is
not one (R87, R216). -/
def boundedF32 (op ty bits : Nat) (v : Bounded) : Nat :=
  let p := fmtOf 11
  let free := Config.boundPick op ty bits % 2 ^ 32
  match v with
  | .exact x => roundNow p {} x
  | .ulps k x =>
    match x with
    | .rat _ n d e => if meets x (.rat false k 1 (lastPlace p n d e)) free then free else roundNow p {} x
    | _ => roundNow p {} x
  | .within b x => if meets x (.rat false 1 1 b) free then free else roundNow p {} x

/-- The value a bound is about. -/
def Bounded.about : Bounded → Num
  | .exact x => x
  | .ulps _ x => x
  | .within _ x => x

-- DESIGN CHOICE, log 10. Unsafe.
/-- A bounded function on a code: evaluated in `f32`, rounded once to the type, with `.sat` and `.ftz`; a result that is
zero keeps the sign of the exact one (R416). -/
def boundedOp (op ty : Nat) (sat ftz : Bool) (x : Nat) : Nat :=
  let p := fmtOf ty
  let r : Rnd := { sat := sat, ftz := ftz }
  let v := boundedFn op (decodeF ftz p x)
  match v with
  | .exact y => roundNow p r y
  | _ =>
    let y := roundNow p r (decodeF false (fmtOf 11) (boundedF32 op ty x v))
    if y % 2 ^ (p.eb + p.mb) = 0 then signCode p (isNegNum v.about) 0 else y

/-! Conversions (R81 to R85). -/

/-- `w` bits of an integer under `.sat` (R83, R84). -/
def intCode (ty : Nat) (sat : Bool) (y : Int) : Nat :=
  let w := tyWidth ty
  let lo : Int := if tySigned ty then -(2 ^ (w - 1) : Int) else 0
  let hi : Int := if tySigned ty then 2 ^ (w - 1) - 1 else 2 ^ w - 1
  lowBits w (if sat then max lo (min hi y) else y)

/-- The value of an element of a real type. -/
def numOf (ftz : Bool) (ty x : Nat) : Num :=
  if tyInt ty then numOfInt (if tySigned ty then sextInt (tyWidth ty) x else (x % 2 ^ tyWidth ty : Nat))
  else decodeF ftz (fmtOf ty) x

/-- One real part of a conversion. -/
def convertReal (st dt : Nat) (r : Rnd) (lfsr : BitVec 32) (x : Nat) : Nat × BitVec 32 :=
  let v := numOf r.ftz st x
  if tyInt dt then
    match v with
    | .nan => (0, lfsr)
    | .inf s => (if r.sat then intCode dt true (if s then -(2 ^ 64) else 2 ^ 64) else 0, lfsr)
    | .rat s n d e => let y := roundInt r.rm lfsr s n d e; (intCode dt r.sat y.1, y.2)
  else roundF (fmtOf dt) r lfsr v

/-- An element's conversion (R81), into its own type too (R82); complex types part by part. -/
def convert (st dt : Nat) (r : Rnd) (lfsr : BitVec 32) (x : Nat) : Nat × BitVec 32 :=
  if tyC st && tyC dt then
    let a := partType st
    let b := partType dt
    let re := convertReal a b r lfsr (x % 2 ^ tyWidth a)
    let im := convertReal a b r re.2 (x / 2 ^ tyWidth a % 2 ^ tyWidth a)
    (re.1 + im.1 * 2 ^ tyWidth b, im.2)
  else convertReal st dt r lfsr x

/-! Scaled FP4 (R76, R77). -/

/-- The value of a block code's scale: `(32 + m) * 2^(e - 8)`; none for a zero block. -/
def blockScale (code : Nat) : Option Num :=
  if code % 256 = 0 then none
  else some (.rat false (32 + code % 32) 1 ((bitsOf code 7 5 : Nat) - 8))

/-- An element's value under its block code and its band's two scales (R77). -/
def fp4Value (elem code s0 s1 : Nat) : Num :=
  match blockScale code with
  | none => .rat false 0 1 0
  | some b => mulNum (mulNum (decodeF false (fmtOf 14) elem) b)
      (decodeF false (fmtOf 10) (if bitOf code 8 then s1 else s0))

/-- One step of a matrix product: `round(acc + round(s))` in `f32` (R88). -/
def stepF32 (sat : Bool) (acc : Nat) (s : Num) : Nat :=
  let p := fmtOf 11
  let r : Rnd := { sat := sat }
  roundNow p r (addNum false (decodeF false p acc) (decodeF false p (roundNow p r s)))

end Sys2Proof.Machine
end

