-- ==== Sys2Proof/Machine/Matrix.lean ====
section
/-! DEFINITION. The matrix engine (R237 to R257): accumulators, steps, checks, the ring. -/

namespace Sys2Proof.Machine

/-! Fields of the control word (R250). -/

def mxAcc (w : RWord) : Nat := fld w.imm 2 0
def mxZ (w : RWord) : Bool := fld w.imm 3 3 == 1
def mxSA (w : RWord) : Nat := fld w.imm 6 4
def mxSB (w : RWord) : Nat := fld w.imm 9 7
def mxSteps (w : RWord) : Nat := fld w.imm 15 10 + 1
def mxS0 (w : RWord) : Nat := fld w.imm 21 16
def mxRing (w : RWord) : Nat := fld w.imm 25 22
def mxBx (w : RWord) : Bool := fld w.imm 26 26 == 1
def mxR (w : RWord) : Bool := fld w.imm 27 27 == 1
/-- `.trap` (R250). -/
def qTrap (q : BitVec 8) : Bool := qExtra q % 2 == 1

/-- Type code of a tile's operands; `bx` gives B the other 8-bit float type. -/
def tyA (w : RWord) : Nat := tyOf w.hdr
def tyB (w : RWord) : Nat := if mxBx w then 25 - tyOf w.hdr else tyOf w.hdr

/-- Sizes of the A and the B tile (R238, R255). -/
def tileA (ty : Nat) : Nat := if ty = 14 then 1536 else 1024
def tileB (ty : Nat) : Nat := if ty = 14 then 1536 else if ty = 15 then 512 else 1024

def offA (m : MxOp) : Nat := fld m.ra 31 0
def offB (m : MxOp) : Nat := fld m.ra 63 32

/-! Accumulators (R237). -/

def accOf (s : State) (core k : Nat) : AccBits := SMap.get 0 (coreOf s core).acc k
def setAcc (s : State) (core k : Nat) (v : AccBits) : State :=
  modCore s core fun x => { x with acc := SMap.set 0 x.acc k v }

/-! Checks (R240). -/

def needEng : Nat := 32

/-- An engine operand in core-local memory: code and cause of the first failure, or its flat address. The
kind comes first, then R98, `fmt` and `geom`. -/
def engineTile (s : State) (x : Ctx) (g : Seg) (need size align ety : Nat) (geoms : List Nat) (off : Nat) :
    Except (Nat × Nat) Nat :=
  if segKind g ≠ 1 then .error (0x04, 5)
  else match checkSeg s x g { need := need + needEng, size := size, align := align, kinds := [1] } (off : Int) with
    | .error c => .error (0x04, c)
    | .ok a =>
      if segFmt g ≠ 0 && segFmt g ≠ ety then .error (0x02, 1)
      else if !geoms.contains (segGeom g) then .error (0x02, 2)
      else .ok (localBase x.core + a)

def geomsOf (ty : Nat) : List Nat := if ty = 14 then [0, 1] else [0]

/-- A failure: code, cause, offset. -/
abbrev Failure := Nat × Nat × Nat

def withOff (off : Nat) (r : Except (Nat × Nat) Nat) : Except Failure Nat :=
  match r with
  | .error e => .error (e.1, e.2, off)
  | .ok a => .ok a

-- DEDUCED, log 47. Unsafe.
/-- The A tile of step `k` of an operation. -/
def checkA (s : State) (x : Ctx) (m : MxOp) (k : Nat) : Except Failure Nat :=
  let t := tileA (tyA m.word)
  let off := offA m + k * t
  withOff off (engineTile s x (readSeg s m.frame (mxSA m.word)) needRd t 32 (tyA m.word) (geomsOf (tyA m.word)) off)

-- DEDUCED, log 47. Unsafe.
/-- The B tile of step `k`, whose segment names no other type than `ety`. -/
def checkB (s : State) (x : Ctx) (m : MxOp) (ety k : Nat) : Except Failure Nat :=
  let t := tileB (tyA m.word)
  let off := offB m + k * t
  withOff off (engineTile s x (readSeg s m.frame (mxSB m.word)) needRd t 32 ety (geomsOf ety) off)

-- DEDUCED, log 47. Unsafe.
/-- The band-scale table of an `e2m1` operation (R239, R240). -/
def checkBands (s : State) (x : Ctx) (m : MxOp) : Except Failure Nat :=
  let off := m.rc.toNat
  withOff off (engineTile s x (readSeg s m.frame (mxSA m.word)) needRd 256 4 (tyA m.word) (geomsOf (tyA m.word)) off)

/-- A barrier specification of `g[b]` is malformed (R240). -/
def badSpec (v : Nat) : Bool := bitsOf v 63 8 != 0 || bitOf v 3 || bitsOf v 2 0 == 7

/-! Reading tiles (R238, R241, R242). -/

/-- The swizzle of a core-local address (R242). -/
def swizzleFrom (v : Nat) : Nat → Nat → Nat → Nat
  | 0, _, x => x
  | n + 1, j, x =>
    let t := bitsOf v (10 * j + 9) (10 * j + 5)
    let b := bitsOf v (10 * j + 4) (10 * j)
    swizzleFrom v n (j + 1)
      (if t ≠ b && decide (b ≤ 17) && decide (t ≤ 17) && bitOf x b then x ^^^ 2 ^ t else x)

def swizzle (v : Word) (x : Nat) : Nat := swizzleFrom v.toNat (min 6 (fld v 62 60)) 0 x

/-- The swizzle a core's task has selected for its A tiles; none reads straight (R243). -/
def aSwizzle (s : State) (x : Ctx) : Word :=
  let t := ctxTask s x
  if t.swzSel = 0 then 0 else SMap.get 0 t.swz (t.swzSel.toNat - 1)

/-- A tile as an engine reads it, each word from its swizzled place. -/
def readTile (s : State) (core flat n : Nat) (v : Word) : Nat :=
  if fld v 62 60 = 0 then engineBytes s core false flat n
  else
    let base := localBase core
    packBits 64 ((upFrom 0 (n / 8)).map fun k => engineBytes s core false (base + swizzle v (flat - base + 8 * k)) 8)

/-- A poisoned word among those a tile reads. -/
def tilePoison (s : State) (core flat n : Nat) (v : Word) : Option Nat :=
  if fld v 62 60 = 0 then (if poisoned s flat n then some (firstPoison s flat n) else none)
  else
    let base := localBase core
    ((upFrom 0 (n / 8)).map fun k => base + swizzle v (flat - base + 8 * k)).find? fun a => poisoned s a 8

/-- Byte and element views of a tile held as a number. -/
def tileBits (t byte n : Nat) : Nat := t / 2 ^ (8 * byte) % 2 ^ n

/-- Element `t` of row `i` of a real tile (R238, R80). -/
def tileElem (ty tile bands i t : Nat) : Num :=
  if ty = 14 then
    let code := tileBits tile (32 * i + t / 2) 8 / 2 ^ (4 * (t % 2)) % 16
    let cont (c : Nat) : Nat := tileBits tile (1024 + 16 * i + 2 * c) 16
    let band := bitsOf (cont 0) 14 9
    fp4Value code (cont (t / 8) % 512) (tileBits bands (4 * band) 16) (tileBits bands (4 * band + 2) 16)
  else
    let w := tyWidth ty
    decodeF false (fmtOf ty) (tileBits tile (32 * i + w / 8 * t) w)

/-! Step arithmetic (R88 to R90, R239). -/

def stepDepth (ty : Nat) : Nat := if ty = 10 then 16 else if ty = 14 then 64 else if ty = 15 then 8 else 32

def accElem (acc : AccBits) (k : Nat) : Nat := fld acc (32 * k + 31) (32 * k)

/-- The new bits of element (i, j) after a step. -/
def stepElem (ta tb : Nat) (a b bands acc i j : Nat) : Nat :=
  let n := stepDepth ta
  if ta = 1 || ta = 5 then
    let v (x i t : Nat) : Int := asInt ta (tileBits x (32 * i + t) 8)
    lowBits 32 (sextInt 32 acc + ((upFrom 0 n).map fun t => v a i t * v b j t).sum)
  else if ta = 15 then
    let re (x i t : Nat) : Num := decodeF false (fmtOf 10) (tileBits x (32 * i + 4 * t) 16)
    let im (x i t : Nat) : Num := decodeF false (fmtOf 10) (tileBits x (32 * i + 4 * t + 2) 16)
    let c := j / 2
    let terms := (upFrom 0 n).flatMap fun t =>
      if j % 2 = 0 then [mulNum (re a i t) (re b c t), negNum (mulNum (im a i t) (im b c t))]
      else [mulNum (re a i t) (im b c t), mulNum (im a i t) (re b c t)]
    stepF32 false acc (sumNum terms)
  else
    stepF32 false acc (sumNum ((upFrom 0 n).map fun t => mulNum (tileElem ta a bands i t) (tileElem tb b bands j t)))

/-- One step on a whole accumulator. -/
def stepAcc (w : RWord) (a b bands : Nat) (acc : AccBits) : AccBits :=
  BitVec.ofNat 32768 (packBits 32 ((upFrom 0 1024).map fun k =>
    stepElem (tyA w) (tyB w) a b bands (accElem acc k) (k / 32) (k % 32)))

/-! Status words and ends (R245, R246). -/

def statusWord (step member code cause : Nat) (nba : Bool) (status : Nat) : Nat :=
  step * 2 ^ 48 + member * 2 ^ 44 + cause * 2 ^ 32 + code * 2 ^ 24 + (if nba then 2 ^ 8 else 0) + status

/-- The trap of a failure under `.trap` (R252). -/
def engineTrap (pc : Word) (word : BitVec 96) (code cause : Nat) (addr : Nat) : TrapInfo :=
  { code := BitVec.ofNat 8 code, cause := BitVec.ofNat 8 cause, addr := BitVec.ofNat 64 addr, pc := pc, word := word,
    async := false }

def failTrap (pc : Word) (word : BitVec 96) (q : BitVec 8) (f : Failure) : Option TrapInfo :=
  if qTrap q then some (if f.1 = 0x02 then engineTrap pc word 0x02 f.2.1 f.2.2 else engineTrap pc word 0x0C 1 f.2.2)
  else none

/-- An engine's status goes to its entry, and its trap is taken once it has landed. -/
def deliver (s : State) (frame entry : Nat) (d : BitVec 8) (v : Nat) (t : Option TrapInfo) : State :=
  let s := sendResult s frame entry [regWrite d v] []
  match t with
  | some t => takeTrap s frame t
  | none => s

/-- The core is a member of the barrier it names, or names none (R245, R246). -/
def specMember (s : State) (x : Ctx) (v : Nat) : Bool :=
  let level := bitsOf v 2 0
  if level = 0 then true
  else
    let i := barrierId (ctxPart s x) x.core x.bind level (bitsOf v 7 4)
    inMask s (ctxPart s x) level (barrierOf s i).mask (if level = 1 then x.slot else x.core)

/-- A member's operation ends: status, trap, and for a ring, once the status is written, the arrival at its barrier
(R246); a context that was ended meanwhile ends now, and takes no status that it had not claimed (R24). -/
def endOp (s : State) (core : Nat) (m : MxOp) (ring : Bool) (status : Bool → Nat) (t : Option TrapInfo) : State :=
  let s := modCore s core fun x => { x with mx := none }
  match ctxOf s m.frame with
  | none => s
  | some x =>
    let v := m.rb.toNat
    let member := !ring || specMember s x v
    let s := if m.claimed then deliver s m.frame m.entry m.word.d (status (!member)) t else settleRacing s m.frame
    let s := if ring && member then pushArrival s ((specArrival s x v).map fun a =>
      { a with after := if m.claimed then some (m.frame, m.entry) else none }) else s
    settleEnd s m.frame

/-- The instruction's issue is over and its slot leaves the rotation until the status (R32). -/
def finishWaiting (h : Hdr) (f e : Nat) (s : State) : State :=
  modCtx (finish h f s) f fun x => { x with wait := some (.engine e) }

/-! Issue. -/

/-- A matrix or walk instruction's common start: the slot bound (R31), the accumulators restored (R127), the
engine free of another operation. -/
def matrixStart (body : Nat → Ctx → State → State) (f : Nat) (s : State) : State :=
  match ctxOf s f with
  | none => s
  | some x =>
    if !matrixBound s f then trapNow 0x06 0 0 f s
    else
      let c := coreOf s x.core
      let other := match c.mx with
        | some m => m.frame != f
        | none => false
      if !c.accJobs.isEmpty || other || c.wk.isSome then hold .retry f s
      else body f x (modCore s x.core fun c => { c with accUsed := true })

def withMatrix (i : Instr) (w : RWord) (s : State) (body : Nat → Ctx → State → State) : Out :=
  withIssue i w.hdr [w.a, w.b, w.c] s (matrixStart body)

/-- The record of an operation being issued. -/
def newOp (s : State) (op : Nat) (w : RWord) (f : Nat) (x : Ctx) (entry : Nat) : MxOp :=
  { op := op, word := w, frame := f, slot := x.slot, pc := s.iss.pc, iword := s.iss.word, entry := entry,
    ra := BitVec.ofNat 64 (readReg s f w.a), rb := BitVec.ofNat 64 (readReg s f w.b),
    rc := BitVec.ofNat 64 (readReg s f w.c), leader := x.core }

/-- MZERO (R251). -/
def execMzero (w : RWord) (s : State) : Out :=
  withMatrix (.mzero w) w s fun f x s =>
    finish w.hdr f ((upFrom 0 8).foldl (fun s k => if bitOf w.imm.toNat k then setAcc s x.core k 0 else s) s)

/-- MSWZ (R243, R251). -/
def execMswz (w : RWord) (s : State) : Out :=
  withMatrix (.mswz w) w s fun f x s =>
    finish w.hdr f (modTask s x.core x.bind fun t => { t with swzSel := BitVec.ofNat 3 (fld w.imm 2 0) })

/-- MMA and MCMA start (R252). -/
def singleOp (i : Instr) (op : Nat) (w : RWord) (s : State) : Out :=
  withMatrix i w s fun f x s =>
    withEntry w.d 0 f s fun e s =>
      finishWaiting w.hdr f e (modCore s x.core fun c =>
        { c with mx := some { newOp s op w f x e with running := true, claimed := true } })

def execMma (w : RWord) (s : State) : Out := singleOp (.mma w) 0xC1 w s
def execMcma (w : RWord) (s : State) : Out := singleOp (.mcma w) 0xC2 w s

/-- Bytes into core-local or scratch memory by an engine of a core, their words set full (R107); the core's
engines read them from now on (R291). -/
def engineStore (s : State) (flat n v : Nat) : State :=
  (upFrom (flat / 8) ((flat + n + 7) / 8 - flat / 8)).foldl (fun s k => setFull s (8 * k) true)
    (writeBytes (endOlder s none flat n) flat n v)

-- DESIGN CHOICE, log 17. Unsafe.
/-- Words written by a matrix or walk operation of a context, whose other agents see each when they will until it has
completed (R108). -/
def opStore (s : State) (f flat n v : Nat) : State :=
  let us := racingWords s f flat n v
  { engineStore s flat n v with racing := us ++ s.racing.filter fun u => !us.any fun w => w.addr == u.addr }

/-- The form of MLDA and MSTA (R253): offsets, check, poison, then the move. -/
def imageMove (i : Instr) (store : Bool) (w : RWord) (s : State) : Out :=
  withMatrix i w s fun f x s =>
    withEntry w.d 0 f s fun e s =>
      let ga := readReg s f w.a
      let off := bitsOf ga 31 0
      let need := if store then needWr else needRd
      let r := if bitsOf ga 63 32 ≠ 0 then .error ((0x04, 3, ga) : Failure)
        else withOff off (engineTile s x (readSeg s f (mxSA w)) need 4096 32 (tyOf w.hdr) [0] off)
      let bad (s : State) (z : Failure) : State :=
        finishWaiting w.hdr f e (deliver s f e w.d (statusWord 0 0 z.1 z.2.1 false 1)
          (failTrap s.iss.pc s.iss.word w.qual z))
      match r with
      | .error z => bad s z
      | .ok flat =>
        let done (s : State) : State := finishWaiting w.hdr f e (deliver s f e w.d 0 none)
        if store then done (opStore s f flat 4096 (accOf s x.core (mxAcc w)).toNat)
        else if poisoned s flat 4096 then bad (logPoison s f (firstPoison s flat 4096) s.iss.pc) (0x0B, 0, off)
        else done (setAcc s x.core (mxAcc w) (BitVec.ofNat 32768 (engineBytes s x.core false flat 4096)))

def execMlda (w : RWord) (s : State) : Out := imageMove (.mlda w) false w s
def execMsta (w : RWord) (s : State) : Out := imageMove (.msta w) true w s

-- DEDUCED, log 47. Unsafe.
/-- A member waits for its ring operation: the program counter stays at its instruction, whose arming is its
issue (R248, R254); as the second of a pair it goes on from there where the pair does (R54). -/
def armedWait (f : Nat) (s : State) : State :=
  let after := if s.iss.next = pcNext s.iss.pc then none else some s.iss.next
  setEnd (modCtx (writeFrame s f wPc s.iss.pc) f fun x => { x with wait := some .retry, after := after, live := none }) .completed

/-- The operation that the context has armed with the instruction at issue, and whose instruction has not completed. -/
def armedOp (s : State) (f : Nat) : Option MxOp :=
  (coreOf s s.iss.core).mx.filter fun m => m.frame == f && !m.claimed && m.pc == s.iss.pc

-- DEDUCED, log 47. Unsafe.
/-- The guard of an instruction that has armed is not read again, nor that of a leader whose operation has started; a
leader that still holds at issue reads it, and where it is false its arming is withdrawn (R56, R254). -/
def ringAgain (op : Nat) (w : RWord) (s : State) (body : Nat → State → State) (first : State → Out) : Out :=
  match issuer s with
  | none => first s
  | some f => match armedOp s f with
    | none => first s
    | some m =>
      if m.running || op == 0xC5 then .next (body f s)
      else first (if guardTrue s f w.hdr then s else withdrawArm s f)

-- DEDUCED, log 47. Unsafe.
/-- MARM, MGANG and MRING (R254, R255): arm, wait for the start, and then complete the issue. -/
def ringIssue (i : Instr) (op : Nat) (w : RWord) (s : State) : Out :=
  let body (f : Nat) (x : Ctx) (s : State) : State :=
    match (coreOf s x.core).mx with
    | some m =>
      if m.running then
        withEntry w.d 0 f s fun e s =>
          finishWaiting w.hdr f e (modCore s x.core fun c => { c with mx := some { m with claimed := true, entry := e } })
      else hold .retry f s
    | none =>
      if badSpec (readReg s f w.b) then
        withEntry w.d 0 f s fun e s =>
          finishWaiting w.hdr f e (deliver s f e w.d
            (statusWord (if op = 0xC6 then mxS0 w else 0) (x.core % 4) 0x02 3 false 1)
            (failTrap s.iss.pc s.iss.word w.qual (0x02, 3, 0)))
      else if (freeEntry s f).isNone then hold .retry f s
      else
        let s := modCore s x.core fun c => { c with mx := some (newOp s op w f x 0) }
        if op = 0xC5 then armedWait f s else hold .retry f s
  ringAgain op w s (matrixStart body) fun s => withMatrix i w s body

/-- MARM (R254). -/
def execMarm (w : RWord) (s : State) : Out := ringIssue (.marm w) 0xC5 w s

-- DEDUCED, log 47. Unsafe.
/-- A leader's form: its own bit of the mask must be set (R250). -/
def leaderIssue (i : Instr) (op : Nat) (w : RWord) (s : State) : Out :=
  if legal i && !bitOf (mxRing w) (s.iss.core % 4) then
    match issuer s with
    | none => .refused .noContext
    | some f => .next (trapNow 0x01 0 0 f s)
  else ringIssue i op w s

def execMgang (w : RWord) (s : State) : Out := leaderIssue (.mgang w) 0xC6 w s
def execMring (w : RWord) (s : State) : Out := leaderIssue (.mring w) 0xC7 w s

/-! GANG_START (R244, R248, R254, R255). -/

/-- The members of a leader's ring in wire order from it (R244). -/
def ringCores (leader mask : Nat) : List Nat :=
  (upFrom 0 4).filterMap fun i =>
    let k := (leader + i) % 4
    if bitOf mask k then some (leader / 4 * 4 + k) else none

/-- Core `c` waits as a member with the matching r. -/
def armedFor (s : State) (r : Bool) (c : Nat) : Bool :=
  match (coreOf s c).mx with
  | some m => m.op == 0xC5 && !m.running && mxR m.word == r
  | none => false

/-- Core `c` leads a ring operation that can start: every other member armed. -/
def canStart (s : State) (c : Nat) : Bool :=
  match (coreOf s c).mx with
  | some m =>
    (m.op == 0xC6 || m.op == 0xC7) && !m.running &&
      ((ringCores c (mxRing m.word)).drop 1).all (armedFor s (m.op == 0xC7))
  | none => false

/-- A lower-numbered leader of the quad that can start with a member in common starts first (R254). -/
def yieldsStart (s : State) (c : Nat) (m : MxOp) : Bool :=
  (upFrom (c / 4 * 4) (c % 4)).any fun k =>
    canStart s k && match (coreOf s k).mx with
      | some l => mxRing l.word &&& mxRing m.word != 0
      | none => false

-- DEDUCED, log 47. Unsafe.
/-- A member loads its own B tile into its latch, or keeps the failure (R254, R255). -/
def loadMember (s : State) (core : Nat) (lead m : MxOp) : State :=
  match ctxOf s m.frame with
  | none => s
  | some x =>
    let put (s : State) (fail : Option Failure) : State :=
      let k := if lead.op = 0xC6 then mxS0 lead.word else 0
      modCore s core fun c =>
        { c with mx := some { m with running := true, leader := lead.leader, hop := 0, step := k, fail := fail } }
    if lead.op = 0xC6 && (tyA m.word != tyA lead.word || mxBx m.word != mxBx lead.word) then put s (some (0x02, 1, 0))
    else
      let n := tileB (tyA m.word)
      match checkB s x m (if lead.op = 0xC7 then tyA m.word else tyB m.word) 0 with
      | .error z => put s (some z)
      | .ok flat =>
        let dst : Except Failure Nat := if lead.op = 0xC7 then
            withOff (offA m) (engineTile s x (readSeg s m.frame (mxSA m.word)) needWr n 32 (tyA m.word) [0] (offA m))
          else .ok 0
        match dst with
        | .error z => put s (some z)
        | .ok _ =>
          if poisoned s flat n then put (logPoison s m.frame (firstPoison s flat n) m.pc) (some (0x0B, 0, offB m))
          else put (modCore s core fun c => { c with bLatch := BitVec.ofNat 12288 (engineBytes s core false flat n) }) none

/-- GANG_START: one event for all members. -/
def execGangStart (core : Nat) (s : State) : Out :=
  .next <| match (coreOf s core).mx with
    | none => s
    | some lead =>
      if canStart s core && !yieldsStart s core lead then
        (ringCores core (mxRing lead.word)).foldl (fun s c =>
          match (coreOf s c).mx with
          | some m => loadMember s c lead m
          | none => s) s
      else s

/-! MATRIX_STEP (R238, R244 to R247, R252, R254, R255). -/

/-- A member of a ring with its operation. -/
def ringOps (s : State) (lead : MxOp) : List (Nat × Option MxOp) :=
  (ringCores lead.leader (mxRing lead.word)).map fun c =>
    (c, ((coreOf s c).mx).filter fun m => m.running && m.leader == lead.leader)

/-- A ring operation ends in failure: failing members report it, the others name the lowest (R245, R254). -/
def abortRing (s : State) (step : Nat) (ms : List (Nat × Option MxOp)) (fails : List (Nat × Failure)) : State :=
  let gone := (ms.filter fun p => p.2.isNone).map fun p => p.1 % 4
  let low := (fails.map fun p => p.1 % 4).foldl min (gone.foldl min 3)
  ms.foldl (fun s p => match p.2 with
    | none => s
    | some m =>
      match fails.find? fun q => q.1 == p.1 with
      | some q =>
        endOp s p.1 m true (fun nba => statusWord step (p.1 % 4) q.2.1 q.2.2.1 nba 1)
          (failTrap m.pc m.iword m.word.qual q.2)
      | none =>
        endOp s p.1 m true (fun nba => statusWord step low 0 0 nba 2)
          (if qTrap m.word.qual then some (engineTrap m.pc m.iword 0x0C 2 0) else none)) s

/-- A ring operation completes. -/
def completeRing (s : State) (step : Nat) (ms : List (Nat × Option MxOp)) : State :=
  ms.foldl (fun s p => match p.2 with
    | none => s
    | some m => endOp s p.1 m true (fun nba => statusWord step 0 0 0 nba 0) none) s

/-- A hop: each member's tile moves to the member at the next position (R244). -/
def hopTiles (s : State) (cs : List Nat) : State :=
  let tiles := cs.map fun c => (coreOf s c).bLatch
  let moved := (tiles.getLast?.toList ++ tiles).take cs.length
  (cs.zip moved).foldl (fun s p => modCore s p.1 fun c => { c with bLatch := p.2 }) s

/-- A member's checks for a step (R240, R247): its failure, or the addresses of its A tile, its B tile where
it is read from memory, and its band table. -/
def stepChecks (s : State) (x : Ctx) (m : MxOp) (k : Nat) (first single : Bool) : Except Failure (Nat × Nat × Nat) :=
  match checkA s x m k with
  | .error z => .error z
  | .ok a =>
    match (if single then checkB s x m (tyB m.word) k else .ok 0) with
    | .error z => .error z
    | .ok b =>
      match (if tyA m.word = 14 then checkBands s x m else .ok 0) with
      | .error z => if first then .error z else .ok (a, b, 0)
      | .ok t =>
        let v := aSwizzle s x
        let offa := offA m + k * tileA (tyA m.word)
        match tilePoison s x.core a (tileA (tyA m.word)) v with
        | some z => .error (0x0B, z, offa)
        | none =>
          if single && poisoned s b (tileB (tyA m.word)) then
            .error (0x0B, firstPoison s b (tileB (tyA m.word)), offB m + k * tileB (tyA m.word))
          else if tyA m.word = 14 && poisoned s t 256 then .error (0x0B, firstPoison s t 256, m.rc.toNat)
          else .ok (a, b, t)

/-- The failure as it is reported: poison is logged, and has cause 0 (R388). -/
def reportFail (s : State) (m : MxOp) (z : Failure) : State × Failure :=
  if z.1 = 0x0B && z.2.1 ≠ 0 then (logPoison s m.frame z.2.1 m.pc, (0x0B, 0, z.2.2)) else (s, z)

/-- A member's step: its accumulator plus its A tile times the tile it holds. -/
def applyStep (s : State) (core : Nat) (x : Ctx) (m : MxOp) (first single : Bool) (a : Nat × Nat × Nat) : State :=
  let ta := readTile s core a.1 (tileA (tyA m.word)) (aSwizzle s x)
  let tb := if single then engineBytes s core false a.2.1 (tileB (tyA m.word)) else (coreOf s core).bLatch.toNat
  let bands := if tyA m.word = 14 then engineBytes s core false a.2.2 256 else 0
  let old := if first && mxZ m.word then 0 else accOf s core (mxAcc m.word)
  setAcc s core (mxAcc m.word) (stepAcc m.word ta tb bands old)

/-- One step of MMA or MCMA (R252). -/
def stepSingle (s : State) (core : Nat) (m : MxOp) : State :=
  match ctxOf s m.frame with
  | none => modCore s core fun c => { c with mx := none }
  | some x =>
    match stepChecks s x m m.step (m.step == 0) true with
    | .error z =>
      let p := reportFail s m z
      endOp p.1 core m false (fun _ => statusWord m.step 0 p.2.1 p.2.2.1 false 1) (failTrap m.pc m.iword m.word.qual p.2)
    | .ok a =>
      let s := applyStep s core x m (m.step == 0) true a
      if m.step + 1 < mxSteps m.word then
        modCore s core fun c => { c with mx := some { m with step := m.step + 1 } }
      else endOp s core m false (fun _ => statusWord (mxSteps m.word) 0 0 0 false 0) none

/-- Every member's checks of a gang step: the failures, with their poison logged. -/
def gangFails (s : State) (k : Nat) (first : Bool) (ms : List (Nat × Option MxOp)) : State × List (Nat × Failure) :=
  ms.foldl (fun acc p => match p.2 with
    | none => acc
    | some m =>
      match (if first then m.fail else none) with
      | some z => (acc.1, acc.2 ++ [(p.1, z)])
      | none => match ctxOf s m.frame with
        | none => acc
        | some x => match stepChecks s x m k first false with
          | .ok _ => acc
          | .error z => let q := reportFail acc.1 m z; (q.1, acc.2 ++ [(p.1, q.2)])) (s, [])

/-- One hop or step of a gang (R254). -/
def stepGang (s : State) (lead : MxOp) (ms : List (Nat × Option MxOp)) : State :=
  let cs := ms.map Prod.fst
  let s0 := mxS0 lead.word
  let put (s : State) (m : MxOp) : State := modCore s lead.leader fun c => { c with mx := some m }
  if lead.hop < s0 then put (hopTiles s cs) { lead with hop := lead.hop + 1 }
  else
    let k := lead.step
    let first := k == s0
    let r := gangFails s k first ms
    if !r.2.isEmpty then abortRing r.1 k ms r.2
    else
      let s1 := ms.foldl (fun acc p => match p.2 with
        | none => acc
        | some m => match ctxOf s m.frame with
          | none => acc
          | some x => match stepChecks s x m k first false with
            | .ok a => applyStep acc p.1 x m first false a
            | .error _ => acc) s
      if k + 1 < mxSteps lead.word then put (hopTiles s1 cs) { lead with step := k + 1 }
      else completeRing s1 (mxSteps lead.word) ms

/-- The tiles of MRING land at their members' A offsets (R255). -/
def landRing (s : State) (ms : List (Nat × Option MxOp)) : State :=
  ms.foldl (fun s p => match p.2 with
    | none => s
    | some m => match ctxOf s m.frame with
      | none => s
      | some x =>
        let n := tileB (tyA m.word)
        match engineTile s x (readSeg s m.frame (mxSA m.word)) needWr n 32 (tyA m.word) [0] (offA m) with
        | .ok flat => opStore s m.frame flat n ((coreOf s p.1).bLatch.toNat % 2 ^ (8 * n))
        | .error _ => s) s

/-- One hop of MRING; the last writes the tiles (R255). -/
def stepRing (s : State) (lead : MxOp) (ms : List (Nat × Option MxOp)) : State :=
  let cs := ms.map Prod.fst
  let h := mxS0 lead.word
  let fails := ms.filterMap fun p => p.2.bind fun m => m.fail.map fun z => (p.1, z)
  if lead.hop = 0 && !fails.isEmpty then abortRing s 0 ms fails
  else
    let s := hopTiles s cs
    if lead.hop + 1 < h then modCore s lead.leader fun c => { c with mx := some { lead with hop := lead.hop + 1 } }
    else completeRing (landRing s ms) h ms

/-- The operation's instruction has completed its issue, or its context issues nothing more (R24). -/
def opClaimed (s : State) (m : MxOp) : Bool :=
  m.claimed || match ctxOf s m.frame with
    | none => true
    | some x => x.dying || (ctxTask s x).ending.isSome

-- DESIGN CHOICE, log 17. Unsafe.
/-- MATRIX_STEP: one step or hop of the operation that core `core` runs or leads. -/
def execMatrixStep (core : Nat) (s : State) : Out :=
  .next <| match (coreOf s core).mx with
    | none => s
    | some m =>
      if !m.running || !opClaimed s m then s
      else if m.op = 0xC1 || m.op = 0xC2 then stepSingle s core m
      else if m.leader ≠ core then
        match (coreOf s m.leader).mx with
        | some l => if l.running && l.leader == m.leader then s else abortRing s m.step [(m.leader, none), (core, some m)] []
        | none => abortRing s m.step [(m.leader, none), (core, some m)] []
      else
        let ms := ringOps s m
        if ms.any fun p => p.2.isNone then abortRing s m.step ms []
        else if !(ms.all fun p => match p.2 with
            | some q => opClaimed s q
            | none => false) then s
        else if m.op = 0xC6 then stepGang s m ms else stepRing s m ms

end Sys2Proof.Machine
end

