-- ==== Sys2Proof/Machine/Walk.lean ====
section
/-! DEFINITION. The walk engine (R258 to R277): node records, outputs and rules, rounds, the state block,
summaries. -/

namespace Sys2Proof.Machine

/-! Fields of the control word (R269). -/

def wkRf (w : RWord) : Bool := fld w.imm 27 27 == 1
def wkSN (w : RWord) : Nat := fld w.imm 26 24
def wkSR (w : RWord) : Nat := fld w.imm 23 21
def wkSS (w : RWord) : Nat := fld w.imm 20 18
def wkN (w : RWord) : Nat := fld w.imm 17 13 + 1
def wkD (w : RWord) : Nat := fld w.imm 11 0 + 1
/-- The stride of the row tile (R269). -/
def rowStride (ty d : Nat) : Nat := 32 * ((d * tyWidth ty + 255) / 256)

/-! Node headers (R259, R260). -/

def hdMark (h : Nat) : Nat := bitsOf h 63 56
def hdVer (h : Nat) : Nat := bitsOf h 55 52
def hdFmt (h : Nat) : Nat := bitsOf h 51 47
def hdRule (h : Nat) : Nat := bitsOf h 46 45
def hdLeaf (h : Nat) : Bool := bitOf h 44
def hdLprod (h : Nat) : Bool := bitOf h 43
def hdM (h : Nat) : Nat := bitsOf h 42 38 + 1
def hdD (h : Nat) : Nat := bitsOf h 37 26 + 1
def hdCount (h : Nat) : Nat := bitsOf h 25 18 + 1
def hdPa (h : Nat) : Nat := bitsOf h 127 96
def hdPb (h : Nat) : Nat := bitsOf h 95 64
def hdLeafId (h : Nat) : Nat := bitsOf h 191 160
/-- The node has a matrix (R258). -/
def hdMatrix (h : Nat) : Bool := !hdLeaf h || hdLprod h

/-- Every reserved bit, and every field that must be zero, is zero (R260 check 2). -/
def hdZeros (h : Nat) : Bool :=
  bitsOf h 255 192 == 0 && bitsOf h 159 128 == 0 && bitsOf h 17 0 == 0 &&
    (if hdLeaf h then
      hdRule h == 0 && bitsOf h 25 18 == 0 && hdPa h == 0 && hdPb h == 0 && (hdLprod h || bitsOf h 42 38 == 0)
     else
      hdLeafId h == 0 && !hdLprod h && (decide (2 ≤ hdRule h) || hdPa h == 0) && (hdRule h == 3 || hdPb h == 0))

def isFinite : Num → Bool
  | .rat _ _ _ _ => true
  | _ => false

def isNaN : Num → Bool
  | .nan => true
  | _ => false

def f32Of (x : Nat) : Num := decodeF false (fmtOf 11) x

/-- The cause of the first check of R260 that fails; 0 for a valid header. -/
def headerCause (h ty d : Nat) : Nat :=
  if hdMark h ≠ 0xA5 || hdVer h ≠ 1 then 1
  else if !hdZeros h then 2
  else if hdFmt h ≠ ty && hdFmt h ≠ 14 then 3
  else if hdD h ≠ d then 4
  else if !hdLeaf h && ((hdRule h == 0 && hdCount h != hdM h) ||
      ((hdRule h == 1 || hdRule h == 2) && hdCount h != 2)) then 5
  else if !hdLeaf h && ((hdRule h == 2 && isNaN (f32Of (hdPa h))) ||
      (hdRule h == 3 && !(isFinite (f32Of (hdPa h)) && isFinite (f32Of (hdPb h))))) then 6
  else 0

/-- C of R258. -/
def columnSize (h : Nat) : Nat :=
  if hdFmt h = 14 then 256 * ((hdD h + 383) / 384) else 256 * ((hdD h * tyWidth (hdFmt h) + 2047) / 2048)

def childTable (h : Nat) : Nat := 256 + if hdMatrix h then hdM h * columnSize h else 0
def recordSize (h : Nat) : Nat := childTable h + if hdLeaf h then 0 else 8 * hdCount h

/-! Reading a record (R264). -/

/-- The parts of a range of addresses between multiples of 64 KiB, the least a page covers. -/
def pageParts : Nat → Nat → Nat → List (Nat × Nat)
  | 0, _, _ => []
  | fuel + 1, va, n =>
    if n = 0 then []
    else
      let k := min n (2 ^ 16 - va % 2 ^ 16)
      (va, k) :: pageParts fuel (va + k) (n - k)

/-- A translated part of a range: address, length, level and entry. -/
structure Page where
  va : Nat
  len : Nat
  level : Nat
  e : Nat
  deriving DecidableEq, Repr

/-- Traffic to some home of a part waits for the change of its route (R398). -/
def pageWaits (s : State) (die : Nat) (p : Page) : Bool :=
  (upFrom (p.va / 1024) ((p.va + p.len + 1023) / 1024 - p.va / 1024)).any fun k =>
    targetWaits s die s.ord (target s.pkg (max p.va (1024 * k)) p.level p.e)

/-- Translations of every part; none when one has none. -/
def xlateParts (xl : State → Nat → State × Found) : List (Nat × Nat) → State → State × Option (List Page)
  | [], s => (s, some [])
  | (va, n) :: rest, s =>
    match xl s va with
    | (s, .bad _ _) => (s, none)
    | (s, .page level e) =>
      match xlateParts xl rest s with
      | (s, none) => (s, none)
      | (s, some l) => (s, some ({ va := va, len := n, level := level, e := e } :: l))

def pageTarget (s : State) (p : Page) : Target := target s.pkg p.va p.level p.e

/-- The home slices note the read of a part, a sector at a time (R313). -/
def notePage (s : State) (p : Page) : State :=
  (upFrom (p.va / 128) ((p.va + p.len + 127) / 128 - p.va / 128)).foldl (fun s k =>
    noteSlice s (target s.pkg (max p.va (128 * k)) p.level p.e)) s

/-- Every home of a part can be reached from a die: an interleaved page has one for each 1 KiB (R328, R398). -/
def pageReach (s : State) (die : Nat) (p : Page) : Bool :=
  (upFrom (p.va / 1024) ((p.va + p.len + 1023) / 1024 - p.va / 1024)).all fun k =>
    targetReach s die (target s.pkg (max p.va (1024 * k)) p.level p.e)

/-- The bytes of translated parts, as an engine reads them. -/
def readPages (s : State) (core : Nat) (copy : Bool) : List Page → Nat
  | [] => 0
  | p :: rest => engineBytes s core copy (pageTarget s p).flat p.len + readPages s core copy rest * 2 ^ (8 * p.len)

/-- Codes 5, 1, 8 and 7 on a range of sN: fault code and cause, or the parts. -/
def nodeRange (s : State) (x : Ctx) (f : Nat) (pc : Word) (g : Seg) (ptr n : Nat) : State × Except (Nat × Nat) (List Page) :=
  match checkSeg s x g { need := needRd + needEng, size := n, align := 256, kinds := [0] } (ptr : Int) with
  | .error c => (s, .error (5, c))
  | .ok va =>
    match xlateParts (fun s va => engineXlate s x.core x.slot (ctxPart s x) va) (pageParts (n / 2 ^ 16 + 2) va n) s with
    | (s, none) => (s, .error (1, 0))
    | (s, some ps) =>
      if !ps.all (pageReach s (dieOf x.core)) then (s, .error (8, 0))
      else match ps.find? fun p => poisoned s (pageTarget s p).flat p.len with
        | some p => (logPoison s f (firstPoison s (pageTarget s p).flat p.len) pc, .error (7, 0))
        | none => (s, .ok ps)

/-- Traffic to a home of a range of sN waits for the change of its route (R398). -/
def rangeWaits (s : State) (x : Ctx) (g : Seg) (ptr n : Nat) : Bool :=
  match checkSeg s x g { need := needRd + needEng, size := n, align := 256, kinds := [0] } (ptr : Int) with
  | .error _ => false
  | .ok va =>
    match (xlateParts (fun s va => engineXlate s x.core x.slot (ctxPart s x) va) (pageParts (n / 2 ^ 16 + 2) va n) s).2 with
    | none => false
    | some ps => ps.any (pageWaits s (dieOf x.core))

/-- A node's header and its record's bytes. -/
structure Node where
  hdr : Nat
  raw : Nat
  deriving DecidableEq, Repr

/-- Code 2 on the pages of a record (R264, R329). -/
def pageFormat (h : Nat) (ps : List Page) : Option (Nat × Nat) :=
  match ps.find? fun p => pteFmt p.e != hdFmt h || (hdFmt h == 14 && pteGeom p.e != 2) with
  | none => none
  | some p => some (2, if pteFmt p.e ≠ hdFmt h then 1 else 2)

/-- The two passes of R264 on the record at a node pointer: fault code and cause, or the node. -/
def readNode (s : State) (x : Ctx) (f : Nat) (pc : Word) (g : Seg) (ty d ptr : Nat) : State × Except (Nat × Nat) Node :=
  if ptr = 0 then (s, .error (6, 0))
  else if ptr % 256 ≠ 0 then (s, .error (4, 0))
  else match nodeRange s x f pc g ptr 256 with
    | (s, .error z) => (s, .error z)
    | (s, .ok hp) =>
      let h := readPages s x.core false hp % 2 ^ 256
      let s := hp.foldl (notePage) s
      let c := headerCause h ty d
      if c ≠ 0 then (s, .error (3, c))
      else match nodeRange s x f pc g ptr (recordSize h) with
        | (s, .error z) => (s, .error z)
        | (s, .ok ps) =>
          match pageFormat h ps with
          | some z => (s, .error z)
          | none => (ps.foldl (notePage) s, .ok { hdr := h, raw := readPages s x.core false ps })

-- DEDUCED, log 48. Unsafe.
/-- Traffic to a home of the record at a node pointer waits. -/
def nodeWaits (s : State) (x : Ctx) (f : Nat) (pc : Word) (g : Seg) (ptr : Nat) : Bool :=
  rangeWaits s x g ptr 256 || match nodeRange s x f pc g ptr 256 with
    | (_, .error _) => false
    | (s, .ok hp) => rangeWaits s x g ptr (recordSize (readPages s x.core false hp % 2 ^ 256))

/-! What a node does to a row (R261 to R263). -/

/-- Element `t` of column `j` of the node matrix (R258, R78). -/
def nodeElem (n : Node) (j t : Nat) : Num :=
  let base := 256 + j * columnSize n.hdr
  if hdFmt n.hdr = 14 then
    let line := tileBits n.raw (base + 256 * (t / 384)) 2048
    let k := t % 384
    fp4Value (line / 2 ^ (4 * k) % 16) (line / 2 ^ (1536 + 9 * (k / 8)) % 2 ^ 9) (bitsOf line 1983 1968)
      (bitsOf line 1999 1984)
  else
    let w := tyWidth (hdFmt n.hdr)
    decodeF false (fmtOf (hdFmt n.hdr)) (tileBits n.raw (base + w / 8 * t) w)

/-- o_j of a row (R261). -/
def nodeOut (ty d : Nat) (row : Nat) (n : Node) (j : Nat) : Nat :=
  let w := tyWidth ty
  roundNow (fmtOf 11) {} (sumNum ((upFrom 0 d).map fun t =>
    mulNum (decodeF false (fmtOf ty) (row / 2 ^ (w * t) % 2 ^ w)) (nodeElem n j t)))

/-- `floor` of a finite value. -/
def floorNum (neg : Bool) (n d : Nat) (e : Int) : Int :=
  let x : Int := scaleNum n e
  let y : Int := scaleDen d e
  (if neg then -x else x) / y

/-- The lowest index of the largest of a list of outputs; −0 and +0 are equal. -/
def argmax : List Nat → Nat → Nat → Num → Nat
  | [], _, best, _ => best
  | o :: rest, j, best, v =>
    if cmpNum (f32Of o) v = some .gt then argmax rest (j + 1) j (f32Of o) else argmax rest (j + 1) best v

/-- The child a rule chooses, or the lowest output that stops the row (R262). -/
def chooseChild (h : Nat) (os : List Nat) : Except Nat Nat :=
  let o := f32Of (os.headD 0)
  if hdRule h = 0 then
    match (os.zipIdx).find? fun p => isNaN (f32Of p.1) with
    | some p => .error p.2
    | none => .ok (argmax (os.drop 1) 1 0 o)
  else if isNaN o then .error 0
  else match hdRule h with
    | 1 => .ok (if condNum 5 o (numOfInt 0) then 1 else 0)
    | 2 => .ok (if condNum 5 o (f32Of (hdPa h)) then 1 else 0)
    | _ => match addNum false (mulNum o (f32Of (hdPa h))) (f32Of (hdPb h)) with
      | .nan => .error 0
      | .inf s => .ok (if s then 0 else hdCount h - 1)
      | .rat s n d e => .ok (min (floorNum s n d e).toNat (hdCount h - 1))

/-- The output row of a leaf (R263). -/
def leafRow (ty d row : Nat) (n : Node) (e : WEntry) : Nat :=
  let os := if hdLprod n.hdr then packBits 32 ((upFrom 0 (hdM n.hdr)).map (nodeOut ty d row n)) else 0
  hdLeafId n.hdr + e.depth.toNat * 2 ^ 32 + e.node.toNat * 2 ^ 64 + os * 2 ^ 1024

/-- One row at a node whose record passed its checks (R265): its entry, and an output row. -/
def advanceRow (ty d row : Nat) (n : Node) (e : WEntry) : WEntry × Option Nat :=
  if e.depth.toNat = 64 && !hdLeaf n.hdr then ({ e with status := 5, aux := 0 }, none)
  else if hdLeaf n.hdr then
    ({ e with status := 2, aux := BitVec.ofNat 32 (hdLeafId n.hdr) }, some (leafRow ty d row n e))
  else
    match chooseChild n.hdr ((upFrom 0 (if hdRule n.hdr = 0 then hdM n.hdr else 1)).map (nodeOut ty d row n)) with
    | .error j => ({ e with status := 4, aux := BitVec.ofNat 32 j }, none)
    | .ok c =>
      ({ e with node := BitVec.ofNat 64 (tileBits n.raw (childTable n.hdr + 8 * c) 64)
                depth := e.depth + 1
                aux := BitVec.ofNat 32 c }, none)

/-! The state block (R264). -/

def entryBits (e : WEntry) : Nat :=
  e.status.toNat + e.depth.toNat * 2 ^ 8 + e.fcode.toNat * 2 ^ 16 + e.cause.toNat * 2 ^ 24 + e.aux.toNat * 2 ^ 32 +
    e.node.toNat * 2 ^ 64

/-- An entry as it is read; a depth above 64 reads as 64. -/
def entryFrom (v : Nat) : WEntry :=
  { node := BitVec.ofNat 64 (bitsOf v 127 64), aux := BitVec.ofNat 32 (bitsOf v 63 32)
    cause := BitVec.ofNat 8 (bitsOf v 31 24), fcode := BitVec.ofNat 8 (bitsOf v 23 16)
    depth := BitVec.ofNat 8 (min 64 (bitsOf v 15 8)), status := BitVec.ofNat 8 (bitsOf v 7 0) }

/-- Write the entries that changed, their words set full (R107, R265). -/
def putEntries (s : State) (f at_ : Nat) : Nat → List WEntry → List WEntry → State
  | i, o :: os, n :: ns =>
    putEntries (if o = n then s else opStore s f (at_ + 16 * i) 16 (entryBits n)) f at_ (i + 1) os ns
  | _, _, _ => s

def countStatus (es : List WEntry) (k : Nat) : Nat := (es.filter fun e => e.status.toNat == k).length

/-- The summary's status (R270). -/
def summaryStatus (es : List WEntry) : Nat :=
  if 0 < countStatus es 1 then 3
  else if 0 < countStatus es 3 + countStatus es 4 + countStatus es 5 then 2 else 0

/-- The summary of a walk that has walked (R270). -/
def summaryWord (es : List WEntry) (rounds : Nat) : Nat :=
  countStatus es 2 * 2 ^ 52 + countStatus es 3 * 2 ^ 46 + countStatus es 4 * 2 ^ 40 + countStatus es 5 * 2 ^ 34 +
    countStatus es 1 * 2 ^ 28 + rounds * 2 ^ 20 + summaryStatus es

-- DEDUCED, log 48. Unsafe.
/-- The trap of a finished walk under `.trap` (R274). -/
def walkTrap (pc : Word) (word : BitVec 96) (q : BitVec 8) (es : List WEntry) : Option TrapInfo :=
  if qTrap q && summaryStatus es == 2 then
    (es.find? fun e => e.status == 3).map fun e => engineTrap pc word 0x0C 3 e.node.toNat
  else none

/-! The instructions (R271 to R276). -/

/-- Two byte ranges overlap. -/
def rangesMeet (a n b m : Nat) : Bool := decide (a < b + m) && decide (b < a + n)

/-- The checks of R271: code and cause (with code 0x0B, 16 times the poisoned word's address), or where the row tile, state block and output tile lie. -/
def walkChecks (s : State) (x : Ctx) (f : Nat) (w : RWord) (ga gc : Nat) : Except (Nat × Nat) (Nat × Nat × Nat) :=
  let gR := readSeg s f (wkSR w)
  let gS := readSeg s f (wkSS w)
  let ty := tyOf w.hdr
  let n := wkN w
  let chk (g : Seg) (need size align off : Nat) :=
    checkSeg s x g { need := need + needEng, size := size, align := align, kinds := [1] } (off : Int)
  let lr := n * rowStride ty (wkD w)
  if segKind gR ≠ 1 || segKind gS ≠ 1 || segKind (readSeg s f (wkSN w)) ≠ 0 then .error (0x04, 5)
  else match chk gR needRd lr 32 (bitsOf ga 31 0) with
  | .error c => .error (0x04, c)
  | .ok ar => match chk gS (needRd + needWr) (16 * n) 16 (bitsOf ga 63 32) with
    | .error c => .error (0x04, c)
    | .ok ab => match chk gS needWr (256 * n) 32 (bitsOf gc 31 0) with
      | .error c => .error (0x04, c)
      | .ok ao =>
        if (segFmt gR ≠ 0 && segFmt gR ≠ ty) || segFmt gS ≠ 0 then .error (0x02, 1)
        else if segGeom gR ≠ 0 || segGeom gS ≠ 0 then .error (0x02, 2)
        else if rangesMeet ar lr ab (16 * n) || rangesMeet ar lr ao (256 * n) || rangesMeet ab (16 * n) ao (256 * n)
          then .error (0x02, 4)
        else if bitsOf gc 63 32 ≠ 0 then .error (0x04, 3)
        else
          let b := localBase x.core
          if poisoned s (b + ar) lr then .error (0x0B, firstPoison s (b + ar) lr * 16)
          else if poisoned s (b + ab) (16 * n) then .error (0x0B, firstPoison s (b + ab) (16 * n) * 16)
          else .ok (b + ar, b + ab, b + ao)

-- DEDUCED, log 48. Unsafe.
/-- A pre-emption of the task in slot 0 is pending (R46, R266). -/
def yieldWanted (s : State) (core : Nat) : Bool := (coreOf s core).preReq || (coreOf s core).swap.isSome

/-- The context of a walk is to end, or its task is (R24). -/
def walkEnding (s : State) (f : Nat) : Bool :=
  match ctxOf s f with
  | none => false
  | some x => x.dying || (ctxTask s x).ending.isSome

-- DEDUCED, log 60. Safe.
/-- A boundary of a walk (R266): it ends with its summary when no row is running or a pre-emption is pending, or where
its context ends; else the engine holds it for its next round. -/
def walkBoundary (s : State) (core : Nat) (k : WalkOp) : State :=
  if countStatus k.entries 1 = 0 || yieldWanted s core || walkEnding s k.frame then
    settleEnd (deliver (modCore s core fun c => { c with wk := none }) k.frame k.entry k.word.d
      (summaryWord k.entries k.rounds) (walkTrap k.pc k.iword k.word.qual k.entries)) k.frame
  else modCore s core fun c => { c with wk := some k }

-- DEDUCED, log 48. Unsafe.
/-- The trap of a walk that failed its checks (R274). -/
def walkFailTrap (s : State) (q : BitVec 8) (z : Nat × Nat) : Option TrapInfo :=
  if qTrap q then
    some (if z.1 = 0x02 then engineTrap s.iss.pc s.iss.word 0x02 z.2 0 else engineTrap s.iss.pc s.iss.word 0x0C 1 0)
  else none

-- DEDUCED, log 48. Unsafe.
/-- The entries a WALK starts with (R272), or those a resume continues (R273). -/
def startEntries (resume : Bool) (w : RWord) (root : Word) (old : List WEntry) : List WEntry :=
  if resume then
    old.map fun e => if e.status = 3 && wkRf w then { e with status := 1, fcode := 0, cause := 0 } else e
  else List.replicate (wkN w) { node := root, aux := 0xFFFFFFFF, cause := 0, fcode := 0, depth := 0, status := 1 }

/-- WALK and WALK.resume: the checks and the entries; rounds follow (R271 to R273). -/
def walkStart (i : Instr) (resume : Bool) (w : RWord) (s : State) : Out :=
  withMatrix i w s fun f x s =>
    withEntry w.d 0 f s fun e s =>
      let ga := readReg s f w.a
      let gc := readReg s f w.c
      let root : Word := if resume then 0 else BitVec.ofNat 64 (readReg s f w.b)
      match walkChecks s x f w ga gc with
      | .error z =>
        let s := if z.1 = 0x0B then logPoison s f (z.2 / 16) s.iss.pc else s
        finishWaiting w.hdr f e (deliver s f e w.d (z.2 % 16 * 2 ^ 16 + z.1 * 2 ^ 8 + 1) (walkFailTrap s w.qual z))
      | .ok (ar, ab, ao) =>
        let n := wkN w
        let old := (upFrom 0 n).map fun i => entryFrom (engineBytes s x.core false (ab + 16 * i) 16)
        let es := startEntries resume w root old
        let k : WalkOp :=
          { word := w, frame := f, slot := x.slot, pc := s.iss.pc, iword := s.iss.word, entry := e
            sN := readSeg s f (wkSN w), rows := engineBytes s x.core false ar (n * rowStride (tyOf w.hdr) (wkD w))
            blockAt := ab, outAt := ao, entries := es }
        let s := if resume then putEntries s f ab 0 old es
          else (es.zipIdx).foldl (fun s p => opStore s f (ab + 16 * p.2) 16 (entryBits p.1)) s
        finishWaiting w.hdr f e (walkBoundary s x.core k)

def execWalk (w : RWord) (s : State) : Out := walkStart (.walk w) false w s
def execWalkResume (w : RWord) (s : State) : Out := walkStart (.walkResume w) true w s

-- DESIGN CHOICE, log 83. Unsafe.
/-- WSTAT (R275); a poisoned entry is reported (R388, R389), and the result is that of a failure. -/
def execWstat (w : RWord) (s : State) : Out :=
  withMatrix (.wstat w) w s fun f x s =>
    withEntry w.d 0 f s fun e s =>
      let g := readSeg s f (wkSS w)
      let off := bitsOf (readReg s f w.a) 63 32
      let n := wkN w
      let done (v : Nat) (s : State) : State := finishWaiting w.hdr f e (deliver s f e w.d v none)
      match engineTile s x g (needRd + needWr) (16 * n) 16 0 [0] off with
      | .error _ => done (2 ^ 63) s
      | .ok at_ =>
        if poisoned s at_ (16 * n) then done (2 ^ 63) (logPoison s f (firstPoison s at_ (16 * n)) s.iss.pc)
        else
          let hit := (upFrom 0 n).filter fun i => engineBytes s x.core false (at_ + 16 * i) 1 == fld w.imm 3 0
          done ((hit.map fun i => 2 ^ i).sum + hit.length * 2 ^ 32) s

/-- The first child pointer that fails codes 6, 4 or 5: its code, cause and index (R276). -/
def childFault (s : State) (x : Ctx) (g : Seg) (n : Node) : Option (Nat × Nat × Nat) :=
  (upFrom 0 (hdCount n.hdr)).findSome? fun k =>
    let p := tileBits n.raw (childTable n.hdr + 8 * k) 64
    if p = 0 then some (6, 0, k)
    else if p % 256 ≠ 0 then some (4, 0, k)
    else match checkSeg s x g { need := needRd + needEng, size := 256, align := 256, kinds := [0] } (p : Int) with
      | .error c => some (5, c, k)
      | .ok _ => none

/-- WCHK (R276). -/
def execWchk (w : RWord) (s : State) : Out :=
  withMatrix (.wchk w) w s fun f x s =>
    if nodeWaits s x f s.iss.pc (readSeg s f (wkSN w)) (readReg s f w.b) then hold .retry f s else
    withEntry w.d 0 f s fun e s =>
      let g := readSeg s f (wkSN w)
      let r := readNode s x f s.iss.pc g (tyOf w.hdr) (wkD w) (readReg s f w.b)
      let v := match r.2 with
        | .error z => z.1 + z.2 * 2 ^ 8
        | .ok n =>
          match (if hdLeaf n.hdr then none else childFault r.1 x g n) with
          | some z => z.1 + z.2.1 * 2 ^ 8 + z.2.2 * 2 ^ 16 + 2 ^ 24
          | none => n.hdr % 2 ^ 64
      finishWaiting w.hdr f e (deliver r.1 f e w.d v none)

/-! WALK_ROUND (R265). -/

/-- The distinct node pointers of the running rows, ascending. -/
def runningNodes (es : List WEntry) : List Nat :=
  (es.filterMap fun e => if e.status = 1 then some e.node.toNat else none).foldr
    (fun p l => if l.contains p then l else (l.filter (· < p)) ++ p :: l.filter (p < ·)) []

/-- Row `i` of the tile. -/
def walkRow (k : WalkOp) (i : Nat) : Nat :=
  let n := rowStride (tyOf k.word.hdr) (wkD k.word)
  k.rows / 2 ^ (8 * n * i) % 2 ^ (8 * n)

/-- One group of a round: the record is read once for all its rows. -/
def walkGroup (x : Ctx) (k : WalkOp) (acc : State × List WEntry) (ptr : Nat) : State × List WEntry :=
  let ty := tyOf k.word.hdr
  let d := wkD k.word
  let r := readNode acc.1 x k.frame k.pc k.sN ty d ptr
  let mine (e : WEntry) : Bool := e.status == 1 && e.node.toNat == ptr
  match r.2 with
  | .error z =>
    (r.1, acc.2.map fun e =>
      if mine e then { e with status := 3, fcode := BitVec.ofNat 8 z.1, cause := BitVec.ofNat 8 z.2 } else e)
  | .ok n =>
    let steps := (acc.2.zipIdx).map fun p =>
      if mine p.1 then (advanceRow ty d (walkRow k p.2) n p.1, p.2) else ((p.1, none), p.2)
    (steps.foldl (fun s q => match q.1.2 with
      | some row => opStore s k.frame (k.outAt + 256 * q.2) 256 row
      | none => s) r.1, steps.map fun q => q.1.1)

/-- The groups of a round, each over the rows that stood at its pointer when the round began. -/
def walkGroups (x : Ctx) (k : WalkOp) (s : State) : State × List WEntry :=
  let start := k.entries
  (runningNodes start).foldl (fun acc ptr =>
    let r := walkGroup x k (acc.1, start) ptr
    (r.1, ((start.zip acc.2).zip r.2).map fun p =>
      if p.1.1.status == 1 && p.1.1.node.toNat == ptr then p.2 else p.1.2)) (s, start)

-- DESIGN CHOICE, log 17. Unsafe.
-- DESIGN CHOICE, log 9. Safe.
/-- WALK_ROUND: every running row advances one level or stops, the changed entries are written, and the walk
ends at the boundary or goes on; `a7` is left undefined (R265, R266, R268). -/
def execWalkRound (core : Nat) (s : State) : Out :=
  .next <| match (coreOf s core).wk with
    | none => s
    | some k =>
      match ctxOf s k.frame with
      | none => modCore s core fun c => { c with wk := none }
      | some x =>
        if yieldWanted s core || walkEnding s k.frame then walkBoundary s core k
        else if (runningNodes k.entries).any (nodeWaits s x k.frame k.pc k.sN) then s
        else
          let r := walkGroups x k s
          let s := putEntries r.1 k.frame k.blockAt 0 k.entries r.2
          walkBoundary (setAcc s core 7 (Config.accAfterWalk s.tick)) core { k with entries := r.2, rounds := k.rounds + 1 }

end Sys2Proof.Machine
end

