-- ==== Sys2Proof/Machine/Copy.lean ====
section
/-! DEFINITION. The copy engine (R279 to R300): acceptance, the checks of operands and of rows, swizzled
and converted rows, gather and scatter, FP4 reshaping, records and tags. -/

namespace Sys2Proof.Machine

/-! Fields of the control word (R293). -/

def cpSD (w : RWord) : Nat := fld w.imm 25 23
def cpSS (w : RWord) : Nat := fld w.imm 22 20
def cpSI (w : RWord) : Nat := fld w.imm 19 17
def cpSwz (w : RWord) : Nat := fld w.imm 16 14
def cpCv (w : RWord) : Nat := fld w.imm 13 12
def cpK (w : RWord) : Nat := fld w.imm 5 0

/-! Acceptance (R279). -/

/-- A tag's completion record of the task at a bind record; a task that has ended (32) has none. -/
def setCopyRec (s : State) (core bind tag : Nat) (g : CopyRec → CopyRec) : State :=
  if 32 ≤ bind then s
  else modTask s core bind fun t => { t with recs := SMap.set {} t.recs tag (g (SMap.get {} t.recs tag)) }

/-- A command is held at issue: the queue full, or its tag in use (R32, R279, R319). -/
def copyHeld (s : State) (x : Ctx) (tag : Nat) : Bool :=
  decide (2 ≤ (coreOf s x.core).copyQ.length) || tagBusy s x.core tag

/-- The command as the engine captures it. -/
def captureCopy (s : State) (op : Nat) (w : RWord) (f : Nat) (x : Ctx) : CopyCmd :=
  { op := op, word := w, sD := readSeg s f (cpSD w), sS := readSeg s f (cpSS w), sI := readSeg s f (cpSI w)
    ra := BitVec.ofNat 64 (readReg s f w.a), rb := BitVec.ofNat 64 (readReg s f w.b)
    rc := BitVec.ofNat 64 (readReg s f w.c), rc1 := readG s f (idx w.c + 1)
    cfill := (ctxTask s x).cfill, frame := f, slot := x.slot, part := ctxPart s x, bind := x.bind
    id := ctxIdent s f, pc := s.iss.pc }

/-- The commands' common form: the slot bound, room for the command, and its acceptance. -/
def copyCommand (i : Instr) (op : Nat) (w : RWord) (specs : List (BitVec 8)) (s : State) : Out :=
  withIssue i w.hdr specs s fun f s =>
    match ctxOf s f with
    | none => s
    | some x =>
      let tag := fld w.imm 31 26
      if !copyBound s f then trapNow 0x06 0 0 f s
      else if copyHeld s x tag then hold .retry f s
      else
        let q := captureCopy s op w f x
        let s := setCopyRec (setTag s x.core x.bind tag false) x.core x.bind tag fun _ => { status := 1 }
        finish w.hdr f (modCore s x.core fun c => { c with copyQ := c.copyQ ++ [q] })

/-- A segment register as a specifier. -/
def sSpec (k : Nat) : BitVec 8 := BitVec.ofNat 8 (0xC0 + k)

def execCpy (w : RWord) (s : State) : Out :=
  copyCommand (.cpy w) 0xD8 w [w.a, w.b, w.c, sSpec (cpSS w), sSpec (cpSD w)] s
def execCpy2d (w : RWord) (s : State) : Out :=
  copyCommand (.cpy2d w) 0xD9 w [w.a, w.b, w.c, gSpec (idx w.c + 1), sSpec (cpSS w), sSpec (cpSD w)] s
def execCgath (w : RWord) (s : State) : Out :=
  copyCommand (.cgath w) 0xDA w
    [w.a, w.b, w.c, gSpec (idx w.c + 1), sSpec (cpSS w), sSpec (cpSD w), sSpec (cpSI w)] s
def execCscat (w : RWord) (s : State) : Out :=
  copyCommand (.cscat w) 0xDB w
    [w.a, w.b, w.c, gSpec (idx w.c + 1), sSpec (cpSS w), sSpec (cpSD w), sSpec (cpSI w)] s
def execCfill (w : RWord) (s : State) : Out :=
  copyCommand (.cfill w) 0xDC w [w.a, w.b, w.c, sSpec (cpSD w)] s
def execCswz (w : RWord) (s : State) : Out := copyCommand (.cswz w) 0xDD w [w.a] s
def execFemark (w : RWord) (s : State) : Out :=
  copyCommand (.femark w) 0xDE w [w.b, w.c, sSpec (cpSD w)] s

/-! Records (R281). -/

def recPart0 (r : CopyRec) : Nat :=
  r.done.toNat * 2 ^ 42 + r.oob.toNat * 2 ^ 20 + r.cause.toNat * 2 ^ 16 + r.code.toNat * 2 ^ 8 + r.status.toNat
def recPart1 (r : CopyRec) : Nat := r.frow.toNat * 2 ^ 42 + r.foff.toNat

/-- CSTAT (R296). -/
def execCstat (w : RWord) (s : State) : Out :=
  withIssue (.cstat w) w.hdr [w.a] s fun f s =>
    match ctxOf s f with
    | none => s
    | some x =>
      if !copyBound s f then trapNow 0x06 0 0 f s
      else
        let a := src s f w.a w.imm
        let r := SMap.get {} (ctxTask s x).recs (a % 64)
        finishReg w.hdr w.d (if 64 ≤ a then 0 else if qExtra w.qual % 2 = 1 then recPart1 r else recPart0 r) f s

/-- The record is written, then the tag bit is set (R280). -/
def closeCopy (s : State) (core : Nat) (q : CopyCmd) (g : CopyRec → CopyRec) : State :=
  setTag (setCopyRec s core q.bind (copyTag q) g) core q.bind (copyTag q) true

/-- The head of the queue ends. -/
def endCopy (s : State) (core : Nat) (q : CopyCmd) (g : CopyRec → CopyRec) : State :=
  closeCopy (modCore s core fun c => { c with copyQ := c.copyQ.drop 1 }) core q g

-- DEDUCED, log 49. Unsafe.
/-- The mask of the tags of a list of commands. -/
def tagMask (qs : List CopyCmd) : Nat := qs.foldl (fun m q => m ||| 2 ^ copyTag q) 0

-- DEDUCED, log 49. Unsafe.
/-- CCANCEL (R296): a command with a row in hand stops once that row is finished; any other ends now. -/
def execCcancel (w : RWord) (s : State) : Out :=
  withIssue (.ccancel w) w.hdr [w.a] s fun f s =>
    match ctxOf s f with
    | none => s
    | some x =>
      if !copyBound s f then trapNow 0x06 0 0 f s
      else
        let m := src s f w.a w.imm
        let hit (q : CopyCmd) : Bool := q.bind == x.bind && bitOf m (copyTag q)
        let qs := (coreOf s x.core).copyQ.filter hit
        let s := modCore s x.core fun c => { c with copyQ :=
          (c.copyQ.filter fun q => !hit q || q.hand.isSome).map fun q => if hit q then { q with stop := true } else q }
        let s := (qs.filter fun q => q.hand.isNone).foldl (fun s q => closeCopy s x.core q fun r => { r with status := 4 }) s
        finishReg w.hdr w.d (tagMask qs) f s

/-! Operands (R283, R294). -/

def cqCv (q : CopyCmd) : Nat := cpCv q.word
def cqTy (q : CopyCmd) : Nat := tyOf q.word.hdr
def cqFp4 (q : CopyCmd) : Bool := decide (2 ≤ cqCv q)
/-- The commands whose `g[c]` holds a row length and a row count. -/
def cqShape (q : CopyCmd) : Bool := decide (0xD9 ≤ q.op ∧ q.op ≤ 0xDB)
def cqLen (q : CopyCmd) : Nat := fld q.rc 31 0
def cqRows (q : CopyCmd) : Nat := fld q.rc 51 32
def cqLo (q : CopyCmd) : Nat := fld q.rc1 31 0
def cqHi (q : CopyCmd) : Nat := fld q.rc1 63 32

/-- A source length at the destination's width (R288). -/
def scaled (q : CopyCmd) (n : Nat) : Nat :=
  if cqCv q = 1 then n * tyWidth (cqTy q) / tyWidth (segFmt q.sS) else n

/-- The offsets a command holds, with the multiple each must be. -/
def copyOffsets (q : CopyCmd) : List (Nat × Nat) :=
  (if q.op = 0xDC || q.op = 0xDE then [] else [(q.ra.toNat, 8)]) ++ [(q.rb.toNat, 8)] ++
    (if q.op = 0xDA || q.op = 0xDB then [(cqLo q, 4)] else if cqFp4 q then [(cqHi q, 4)] else [])

-- DEDUCED, log 49. Unsafe.
/-- The lengths and strides that must be multiples of 8, on both sides under conversion. -/
def copyLengths (q : CopyCmd) : List Nat :=
  [cqLen q] ++ (if cqCv q = 1 then [scaled q (cqLen q)] else []) ++
    (if q.op = 0xD9 then
      cqLo q :: (if cqFp4 q then [] else cqHi q :: (if cqCv q = 1 then [scaled q (cqHi q)] else []))
     else [])

/-- A shape inside the limits of R289. -/
def fp4ShapeOk (q : CopyCmd) : Bool :=
  decide (1 ≤ cqRows q ∧ cqRows q ≤ 32) && decide (1 ≤ cqLen q / 256) && cqLen q % 256 == 0 && cqLo q % 256 == 0

/-- A fault of a command: code, cause, and the offset that failed. -/
structure CopyFault where
  code : Nat
  cause : Nat
  off : Nat
  deriving DecidableEq, Repr

/-- What the operand checks of R294 find. `free` stands where no segment offset failed. -/
inductive OperandCheck where
  | fault (z : CopyFault)
  | empty
  | rows
  deriving DecidableEq, Repr

-- DEDUCED, log 49. Unsafe.
def checkOperands (q : CopyCmd) (free : Nat) : OperandCheck :=
  if q.op = 0xDD then .rows
  else if (if cqShape q then fld q.rc 63 52 else fld q.rc 63 32) ≠ 0 then .fault ⟨0x04, 3, free⟩
  else match (copyOffsets q).find? fun p => p.1 % p.2 != 0 with
    | some p => .fault ⟨0x04, 4, p.1⟩
    | none =>
      if (copyLengths q).any fun n => n % 8 != 0 then .fault ⟨0x04, 4, free⟩
      else if cqFp4 q && !fp4ShapeOk q then .fault ⟨0x02, 4, free⟩
      else if cqLen q = 0 || (cqShape q && cqRows q == 0) then .empty
      else .rows

/-- The rows of a command (R283). -/
def copyRows (q : CopyCmd) : Nat :=
  if q.op = 0xDD then 1 else if cqShape q then cqRows q else (cqLen q + 4095) / 4096

def faultRec (z : CopyFault) (row : Nat) (r : CopyRec) : CopyRec :=
  { r with status := 3, code := BitVec.ofNat 8 z.code, cause := BitVec.ofNat 4 z.cause
           frow := BitVec.ofNat 22 row, foff := BitVec.ofNat 32 z.off }

-- DEDUCED, log 49. Unsafe.
/-- COPY_COMMAND_START: the head begins: its swizzle register is read and its operands checked (R280, R287,
R294). -/
def execCopyCommandStart (core : Nat) (s : State) : Out :=
  .next <| match (coreOf s core).copyQ with
    | [] => s
    | q :: rest =>
      if q.started then s
      else match checkOperands q (Config.pick (s.tick * 2 ^ 80)) with
        | .fault z => endCopy s core q (faultRec z 0)
        | .empty => endCopy s core q fun r => { r with status := 2 }
        | .rows =>
          let v := if cpSwz q.word = 0 then 0 else SMap.get 0 (taskOf s core q.bind).swz (cpSwz q.word - 1)
          modCore s core fun c => { c with copyQ := { q with started := true, swz := v } :: rest }

/-! Ranges (R284). -/

/-- A range that a row touches. -/
structure CopyRange where
  seg : Seg
  off : Nat
  size : Nat
  need : Nat
  align : Nat := 8
  kinds : List Nat := [0, 1, 2, 3]
  /-- formats that pass -/
  fmts : Nat → Bool := fun _ => true
  geoms : List Nat := [0]
  /-- the line side of an FP4 conversion, whose pages must have geometry 2 (R329) -/
  line : Bool := false

/-- Where a checked range lies. -/
inductive Place where
  | near (kind flat : Nat)
  | paged (ps : List Page)
  | window (a : Nat)
  deriving DecidableEq, Repr

/-- A range's check: it waits for a bank in transition, fails, or lies somewhere. -/
inductive RangeCheck where
  | held
  | fail (z : CopyFault)
  | ok (p : Place)
  deriving DecidableEq, Repr

/-- The banks of `n` bytes at a cluster memory offset. -/
def banksOf (a n : Nat) : List Nat := upFrom (a / 2 ^ 17) ((a + n - 1) / 2 ^ 17 - a / 2 ^ 17 + 1)

/-- R98 on a whole range: its last byte too lies in the memory of its kind, in scratch banks, or in the
window and partition. -/
def rangeCause (s : State) (core part : Nat) (r : CopyRange) : Except Nat Nat :=
  match checkSegAt s core part r.seg { need := r.need + needEng, size := r.size, align := r.align } (r.off : Int) with
  | .error c => .error c
  | .ok a =>
    let last := a + r.size - 1
    match segKind r.seg with
    | 0 => if 2 ^ 57 ≤ last then .error 5 else .ok a
    | 1 => .ok a
    | 2 => if (banksOf a r.size).any fun b => bankMode s (clusterOf core) b != 2 then .error 6 else .ok a
    | _ =>
      if !(inWindow last && winClean last) then .error 5
      else if !inPart s part (winCluster last) then .error 7
      else .ok a

/-- An engine translation for a command: through the slot's micro-TLB while its task is in slot 0, else
through the cluster TLB (R292, R330). -/
def copyXlate (s : State) (core : Nat) (q : CopyCmd) (va : Nat) : State × Found :=
  if (coreOf s core).cur = some q.bind then engineXlate s core q.slot q.part va
  else portXlate s (clusterOf core) q.part va

/-- The pages of a paged range: code `0x07` where one is invalid or not writable, or refused (R284, R329,
R398). -/
def pagedRange (s : State) (core : Nat) (q : CopyCmd) (r : CopyRange) (a : Nat) : State × RangeCheck :=
  match xlateParts (fun s va => copyXlate s core q va) (pageParts (r.size / 2 ^ 16 + 2) a r.size) s with
  | (s, none) => (s, .fail ⟨0x07, 0, r.off⟩)
  | (s, some ps) =>
    if r.need &&& needWr ≠ 0 && ps.any fun p => !pteW p.e then (s, .fail ⟨0x07, 0, r.off⟩)
    else if q.row = 0 && r.line && ps.any fun p => pteGeom p.e != 2 then (s, .fail ⟨0x02, 2, r.off⟩)
    else if ps.any (pageWaits s (dieOf core)) then (s, .held)
    else if !ps.all (pageReach s (dieOf core)) then (s, .fail ⟨0x04, 8, r.off⟩)
    else (s, .ok (.paged ps))

-- DEDUCED, log 49. Unsafe.
/-- The checks of R284 on one range, in their order. What row 0 found of a captured segment's `fmt` and `geom` every later
row finds; a range that row 0 does not touch is checked at the first row that does. -/
def checkRange (s : State) (core : Nat) (q : CopyCmd) (r : CopyRange) : State × RangeCheck :=
  if !r.kinds.contains (segKind r.seg) then (s, .fail ⟨0x04, 5, r.off⟩)
  else if segKind r.seg = 2 &&
      (banksOf (lowBits 64 (r.seg.base.toNat + r.off)) r.size).any fun b => inTransition s (clusterOf core) b
    then (s, .held)
  else match rangeCause s core q.part r with
    | .error c => (s, .fail ⟨0x04, c, r.off⟩)
    | .ok a =>
      if !r.fmts (segFmt r.seg) then (s, .fail ⟨0x02, 1, r.off⟩)
      else if !r.geoms.contains (segGeom r.seg) then (s, .fail ⟨0x02, 2, r.off⟩)
      else match segKind r.seg with
        | 0 => pagedRange s core q r a
        | 1 => (s, .ok (.near 1 (localBase core + a)))
        | 2 => (s, .ok (.near 2 (clusBase (clusterOf core) + a)))
        | _ => (s, .ok (.window a))

/-! Reading a range. -/

/-- Words of a window range whose port holds them (R95). -/
def windowHeld (s : State) (core a n : Nat) : Bool :=
  (upFrom 0 ((n + 7) / 8)).any fun k => portOf s core (winFlat (a + 8 * k)) == .held

/-- One read through the window of `u` bytes (R115, R303): its value, or the fault. -/
def windowRead1 (s : State) (core : Nat) (q : CopyCmd) (a u off : Nat) : State × Except CopyFault Nat :=
  let refused : CopyFault := ⟨0x04, 8, off⟩
  match portOf s core (winFlat a) with
  | .word flat =>
    if poisoned s flat u then (logPoisonFor s q.part q.id flat q.pc, .error ⟨0x0B, 0, off⟩)
    else (s, .ok (engineBytes s core true flat u))
  | .port cl b 8 =>
    match fifoOf s cl b with
    | v :: rest => if u = 8 then (setFifo s cl b rest, .ok v.toNat) else (s, .error refused)
    | [] => (s, .error refused)
  | .port cl b 16 => if u = 8 then (s, .ok (fifoOf s cl b).length) else (s, .error refused)
  | _ => (s, .error refused)

-- DEDUCED, log 49. Unsafe.
/-- A window range read in units of `u` bytes, ascending. -/
def windowRead (core : Nat) (q : CopyCmd) (u : Nat) : Nat → Nat → Nat → State → State × Except CopyFault Nat
  | 0, _, _, s => (s, .ok 0)
  | n + 1, a, off, s =>
    match windowRead1 s core q a u off with
    | (s, .error z) => (s, .error z)
    | (s, .ok v) =>
      match windowRead core q u n (a + u) (off + u) s with
      | (s, .error z) => (s, .error z)
      | (s, .ok t) => (s, .ok (v % 2 ^ (8 * u) + t * 2 ^ (8 * u)))

/-- The first poisoned word of the parts of a paged range: its flat address and its distance from the start. -/
def pagesPoison (s : State) : List Page → Nat → Option (Nat × Nat)
  | [], _ => none
  | p :: rest, d =>
    let flat := (pageTarget s p).flat
    if poisoned s flat p.len then some (firstPoison s flat p.len, d + (firstPoison s flat p.len - flat))
    else pagesPoison s rest (d + p.len)

/-- The bytes of a checked range (R285, R291), or the fault that met them. -/
def readPlace (s : State) (core : Nat) (q : CopyCmd) (p : Place) (n off : Nat) : State × Except CopyFault Nat :=
  match p with
  | .near _ flat =>
    if poisoned s flat n then
      let a := firstPoison s flat n
      (logPoisonFor s q.part q.id a q.pc, .error ⟨0x0B, 0, off + (a - flat)⟩)
    else (s, .ok (engineBytes s core true flat n))
  | .paged ps => match pagesPoison s ps 0 with
    | some z => (logPoisonFor s q.part q.id z.1 q.pc, .error ⟨0x0B, 0, off + z.2⟩)
    | none => (ps.foldl notePage s, .ok (readPages s core true ps))
  | .window a =>
    let u := if a % 8 = 0 && n % 8 = 0 then 8 else 4
    windowRead core q u (n / u) a off s

/-! Writing a range. -/

/-- What a row writes: bytes, or empty marks (R295). -/
inductive CopyData where
  | bytes (v : Nat)
  | marks
  deriving DecidableEq, Repr

/-- The swizzled place of a word of core-local memory (R287). -/
def swizzled (core : Nat) (v : Word) (flat : Nat) : Nat := localBase core + swizzle v (flat - localBase core)

/-- The writes of `n` bytes to core-local or cluster memory, one for each word. -/
def nearPuts (core : Nat) (v : Word) (local_ : Bool) (flat n : Nat) (d : CopyData) : List Put :=
  (upFrom 0 (n / 8)).map fun k =>
    let a := if local_ then swizzled core v (flat + 8 * k) else flat + 8 * k
    match d with
    | .bytes x => .near a 8 (x / 2 ^ (64 * k) % 2 ^ 64)
    | .marks => .empty a

/-- The writes of a translated part, one for each word; the first of a sector is the request at its home (R316). -/
def pagePuts (s : State) (p : Page) (off v : Nat) : List Put :=
  (upFrom 0 (p.len / 8)).map fun k =>
    let va := p.va + 8 * k
    .paged (target s.pkg va p.level p.e) 8 (v / 2 ^ (64 * k) % 2 ^ 64) (k == 0 || va % 128 == 0) (off + 8 * k)

def pagesPuts (s : State) : List Page → Nat → Nat → List Put
  | [], _, _ => []
  | p :: rest, off, v => pagePuts s p off v ++ pagesPuts s rest (off + p.len) (v / 2 ^ (8 * p.len))

/-- The words of a window range, to be sent in ascending order (R110, R290). -/
def windowPuts (a off n : Nat) (d : CopyData) : List (List Put) :=
  (upFrom 0 (n / 8)).map fun k => [.window (a + 8 * k) (off + 8 * k) (match d with
    | .bytes v => some (BitVec.ofNat 64 (v / 2 ^ (64 * k)))
    | .marks => none)]

/-- The writes of a row to a checked range. -/
def placePuts (s : State) (core : Nat) (q : CopyCmd) (p : Place) (n off : Nat) (d : CopyData) : List (List Put) :=
  match p, d with
  | .near kind flat, _ => [nearPuts core q.swz (kind == 1) flat n d]
  | .paged ps, .bytes v => [pagesPuts s ps off v]
  | .paged _, .marks => []
  | .window a, _ => windowPuts a off n d

/-- What one write of a row came to: done, held at its port, or refused there. -/
inductive PutEnd where
  | done (s : State)
  | held
  | refused
  deriving DecidableEq, Repr

/-- One word sent to a port as a remote store without a journal entry (R290). -/
def windowPut (s : State) (core a : Nat) (v : Option Word) : PutEnd :=
  let flat := winFlat a
  let traced (s : State) : State :=
    if clusBase 0 ≤ flat then traceRecord s (winCluster a) core 0 3 0 (flat % 2 ^ 64) else s
  match portOf s core flat, v with
  | .held, _ => .held
  | .word flat, some x => .done (traced (engineStore s flat 8 x.toNat))
  | .word flat, none => .done (traced (setFull s flat false))
  | .port cl b 0, some x =>
    if 16384 ≤ (fifoOf s cl b).length then .refused else .done (traced (setFifo s cl b (fifoOf s cl b ++ [x])))
  | _, _ => .refused

-- DEDUCED, log 49. Unsafe.
/-- One write of a row is performed: bytes set their words full (R107, R290); one to a page whose home has gone out of reach
since is refused (R398). -/
def takePut (s : State) (core : Nat) : Put → PutEnd
  | .near flat n v => .done (engineStore s flat n v)
  | .empty flat => .done (setFull s flat false)
  | .paged t n v asked _ =>
    if targetWaits s (dieOf core) s.ord t then .held
    else if !targetReach s (dieOf core) t then .refused
    else .done (homeWriteIn [] asked s (.cluster (clusterOf core)) t n v)
  | .window a _ v => windowPut s core a v

/-- The offset that a refused write reports. -/
def putOff : Put → Nat
  | .window _ off _ => off
  | .paged _ _ _ _ off => off
  | _ => 0

-- DESIGN CHOICE, log 17. Unsafe.
/-- The write that comes next, any of its group (R108), and the writes left. -/
def nextPut (tick : Nat) : List (List Put) → Option (Put × List (List Put))
  | [] => none
  | [] :: rest => nextPut tick rest
  | (p :: ps) :: rest =>
    let i := Config.pick (tick * 2 ^ 80) % (ps.length + 1)
    some ((p :: ps).getD i p, (p :: ps).eraseIdx i :: rest)

/-! Rows. -/

/-- What a row came to: it waits for a bank, is read whole with its writes to come and what the engine keeps for
the rows after it, or faults. -/
inductive RowEnd where
  | wait
  | write (h : RowInHand) (batch : List Nat)
  | fault (z : CopyFault) (row : Nat)
  deriving DecidableEq, Repr

/-- Check a range, then go on with its place. -/
def withPlace (s : State) (core : Nat) (q : CopyCmd) (r : CopyRange)
    (body : State → Place → State × RowEnd) : State × RowEnd :=
  match checkRange s core q r with
  | (s, .held) => (s, .wait)
  | (s, .fail z) => (s, .fault z q.row)
  | (s, .ok p) => match p with
    | .window a => if windowHeld s core a r.size then (s, .wait) else body s p
    | _ => body s p

/-- Read a checked range, then go on with its bytes. -/
def withBytes (s : State) (core : Nat) (q : CopyCmd) (r : CopyRange) (p : Place)
    (body : State → Nat → State × RowEnd) : State × RowEnd :=
  match readPlace s core q p r.size r.off with
  | (s, .error z) => (s, .fault z q.row)
  | (s, .ok v) => body s v

/-- A row that is to be written to a checked range. -/
def finishRow (s : State) (core : Nat) (q : CopyCmd) (r : CopyRange) (p : Place) (oob : Bool) (d : CopyData) :
    State × RowEnd :=
  (s, .write { puts := placePuts s core q p r.size r.off d, oob := oob } q.batch)

/-- A row's elements at the destination's type (R288). -/
def convertRow (q : CopyCmd) (n v : Nat) : Nat :=
  if cqCv q = 1 then
    let st := segFmt q.sS
    let dt := cqTy q
    let ws := tyWidth st
    packBits (tyWidth dt) ((upFrom 0 (8 * n / ws)).map fun k =>
      (convert st dt { rm := 0, sat := qExtra q.word.qual % 2 == 1 } 1 (v / 2 ^ (ws * k) % 2 ^ ws)).1)
  else v

/-- A word repeated over `n` bytes. -/
def repeatWord (x : Word) (n : Nat) : Nat := packBits 64 (List.replicate (n / 8) x.toNat)

/-- The formats of the source and of the destination that pass (R282). -/
def srcFmts (q : CopyCmd) (t : Nat) : Bool := cqCv q != 1 || cvtPair t (cqTy q)
def dstFmts (q : CopyCmd) (t : Nat) : Bool := cqCv q == 0 || t == 0 || t == cqTy q

def srcRange (q : CopyCmd) (off n : Nat) : CopyRange :=
  { seg := q.sS, off := off, size := n, need := needRd, fmts := srcFmts q }
def dstRange (q : CopyCmd) (off n : Nat) : CopyRange :=
  { seg := q.sD, off := off, size := n, need := needWr, fmts := dstFmts q }

-- DEDUCED, log 49. Unsafe.
/-- A row from a source range to a destination range. -/
def moveRow (s : State) (core : Nat) (q : CopyCmd) (so dof n : Nat) : State × RowEnd :=
  let a := srcRange q so n
  let b := dstRange q dof (scaled q n)
  withPlace s core q a fun s pa =>
    withPlace s core q b fun s pb =>
      withBytes s core q a pa fun s v => finishRow s core q b pb false (.bytes (convertRow q n v))

-- DEDUCED, log 49. Unsafe.
/-- The bytes of a gathered row whose index is out of bound: under conversion from a source that has no element format the
spec gives the row no width. -/
def fillLen (s : State) (q : CopyCmd) : Nat :=
  if cqCv q = 1 && tyWidth (segFmt q.sS) == 0 then 8 * (Config.pick (s.tick * 2 ^ 80) % (cqLen q + 1)) else scaled q (cqLen q)

/-- Row `k` of a CGATH with index `i` (R286). -/
def gatherRow (s : State) (core : Nat) (q : CopyCmd) (i : Nat) : State × RowEnd :=
  let n := cqLen q
  if i < cqHi q then moveRow s core q (q.ra.toNat + i * n) (q.rb.toNat + q.row * scaled q n) n
  else
    let b := dstRange q (q.rb.toNat + q.row * fillLen s q) (fillLen s q)
    withPlace s core q b fun s pb => finishRow s core q b pb true (.bytes (repeatWord q.cfill (fillLen s q)))

/-- Row `k` of a CSCAT with index `i` (R286). -/
def scatterRow (s : State) (core : Nat) (q : CopyCmd) (i : Nat) : State × RowEnd :=
  let n := cqLen q
  if i < cqHi q then moveRow s core q (q.ra.toNat + q.row * n) (q.rb.toNat + i * scaled q n) n
  else (s, .write { puts := [], oob := true } q.batch)

/-- The index of row `k`, from the batch that is read at its first row (R286). -/
def withIndex (s : State) (core : Nat) (q : CopyCmd) (body : State → CopyCmd → Nat → State × RowEnd) : State × RowEnd :=
  if q.row % 8 = 0 then
    let m := min 8 (cqRows q - q.row)
    let r : CopyRange :=
      { seg := q.sI, off := cqLo q + 4 * q.row, size := 4 * m, need := needRd, align := 4 }
    withPlace s core q r fun s p =>
      withBytes s core q r p fun s v => body s { q with batch := splitBits 32 m v } (v % 2 ^ 32)
  else body s q (q.batch.getD (q.row % 8) 0)

/-! FP4 between lines and tiles (R289). -/

def fp4Fmts (t : Nat) : Bool := t == 0 || t == 14

/-- The line side's row. -/
def lineRange (q : CopyCmd) (g : Seg) (off need : Nat) : CopyRange :=
  { seg := g, off := off, size := cqLen q, need := need, geoms := [2], line := true
    fmts := fun t => if need = needRd then t == 14 else fp4Fmts t }

/-- The tile side, whole. -/
def tileRange (q : CopyCmd) (g : Seg) (off need : Nat) : CopyRange :=
  { seg := g, off := off, size := 1536 * (6 * (cqLen q / 256)), need := need, kinds := [1], geoms := [0, 1]
    fmts := fp4Fmts }

/-- Entry `b` of the band-scale table. -/
def bandRange (q : CopyCmd) (g : Seg) (b need : Nat) : CopyRange :=
  { seg := g, off := cqHi q + 4 * b, size := 4, need := need, align := 4, kinds := [1], geoms := [0, 1]
    fmts := fp4Fmts }

def placeFlat : Place → Nat
  | .near _ flat => flat
  | _ => 0

/-- Row `i` of tile `t` of a row of lines: the elements, and the containers. -/
def tileRowData (q : CopyCmd) (v t : Nat) : Nat :=
  let line := v / 2 ^ (2048 * (t / 6)) % 2 ^ 2048
  line / 2 ^ (256 * (t % 6)) % 2 ^ 256 +
    packBits 16 ((upFrom 0 8).map fun c =>
      line / 2 ^ (1536 + 9 * (8 * (t % 6) + c)) % 2 ^ 9 + if c = 0 then cpK q.word * 2 ^ 9 else 0) * 2 ^ 256

/-- The writes of row `i` of tile `t`: 32 bytes of elements and 16 of containers (R80). -/
def tileRowPuts (core : Nat) (q : CopyCmd) (flat i d t : Nat) : List Put :=
  let base := flat + 1536 * t
  nearPuts core q.swz true (base + 32 * i) 32 (.bytes (d % 2 ^ 256)) ++
    nearPuts core q.swz true (base + 1024 + 16 * i) 16 (.bytes (d / 2 ^ 256))

-- DEDUCED, log 49. Unsafe.
/-- A row of lines to tiles (cv = 2). The last row is followed by the tile rows past R and then by the table entry, whose
range row 0 and the last row check. -/
def linesToTiles (s : State) (core : Nat) (q : CopyCmd) : State × RowEnd :=
  let a := lineRange q q.sS (q.ra.toNat + q.row * cqLo q) needRd
  let b := tileRange q q.sD q.rb.toNat needWr
  let tiles := upFrom 0 (6 * (cqLen q / 256))
  let last := q.row + 1 == cqRows q
  let go (s : State) (pa : Place) (tbl : Nat) : State × RowEnd :=
    withPlace s core q b fun s pb =>
      withBytes s core q a pa fun s v =>
        let rowPuts (i : Nat) (data : Nat → Nat) := tiles.flatMap fun t => tileRowPuts core q (placeFlat pb) i (data t) t
        let scales := if q.row = 0 then bitsOf v 1999 1968 else q.batch.headD 0
        let past := (upFrom (cqRows q) (32 - cqRows q)).map fun i => rowPuts i fun _ => 0
        (s, .write { puts := rowPuts q.row (tileRowData q v) :: (if last then past ++ [[.near tbl 4 scales]] else [])
                     oob := false } [scales])
  withPlace s core q a fun s pa =>
    if q.row = 0 || last then
      withPlace s core q (bandRange q q.sD (cpK q.word) needWr) fun s p => go s pa (placeFlat p)
    else go s pa 0

/-- What row `i` reads of a tile: 32 bytes of elements and 16 of containers. -/
def tileRowBytes (s : State) (core flat t i : Nat) : Nat :=
  let base := flat + 1536 * t
  engineBytes s core true (base + 32 * i) 32 + engineBytes s core true (base + 1024 + 16 * i) 16 * 2 ^ 256

/-- A poisoned word of row `i` of the tiles. -/
def tileRowPoison (s : State) (flat i : Nat) (tiles : List Nat) : Option Nat :=
  tiles.findSome? fun t =>
    let base := flat + 1536 * t
    if poisoned s (base + 32 * i) 32 then some (firstPoison s (base + 32 * i) 32)
    else if poisoned s (base + 1024 + 16 * i) 16 then some (firstPoison s (base + 1024 + 16 * i) 16)
    else none

/-- Line `l` of a row from its six tiles' rows and the band's two scales. -/
def lineFrom (rows : List Nat) (scales l : Nat) : Nat :=
  let six := (rows.drop (6 * l)).take 6
  packBits 256 (six.map fun d => d % 2 ^ 256) +
    packBits 9 ((six.flatMap fun d => splitBits 16 8 (d / 2 ^ 256)).map fun c => c % 2 ^ 9) * 2 ^ 1536 +
    scales * 2 ^ 1968

-- DEDUCED, log 49. Unsafe.
/-- A row of tiles to lines (cv = 3). The band field of the row's first container names the table entry whose range is
checked; where that container is poisoned no entry is named. -/
def tilesToLines (s : State) (core : Nat) (q : CopyCmd) : State × RowEnd :=
  let a := tileRange q q.sS q.ra.toNat needRd
  let b := lineRange q q.sD (q.rb.toNat + q.row * cqLo q) needWr
  let tiles := upFrom 0 (6 * (cqLen q / 256))
  withPlace s core q a fun s pa =>
    let flat := placeFlat pa
    let rows := tiles.map fun t => tileRowBytes s core flat t q.row
    let e := bandRange q q.sS (bitsOf (rows.headD 0) 270 265) needRd
    let go (s : State) (pe : Place) : State × RowEnd :=
      withPlace s core q b fun s pb =>
        match tileRowPoison s flat q.row tiles with
        | some p => (logPoisonFor s q.part q.id p q.pc, .fault ⟨0x0B, 0, q.ra.toNat + (p - flat)⟩ q.row)
        | none => withBytes s core q e pe fun s sc =>
            finishRow s core q b pb false
              (.bytes (packBits 2048 ((upFrom 0 (cqLen q / 256)).map fun l => lineFrom rows sc l)))
    if poisoned s (flat + 1024 + 16 * q.row) 2 then go s pa else withPlace s core q e go

/-! COPY_ROW (R283 to R289, R299). -/

/-- The pair rule of R287, on a value for `swz`k. -/
def pairRule (v : Nat) : Nat :=
  (upFrom 0 6).foldl (fun v j =>
    let t := bitsOf v (10 * j + 9) (10 * j + 5)
    if t < 3 then putBits v (10 * j + 4) (10 * j) t else v) (v % 2 ^ 63)

/-- The row a command is at: checked and read. -/
def copyOne (s : State) (core : Nat) (q : CopyCmd) : State × RowEnd :=
  let off := 4096 * q.row
  let n := min 4096 (cqLen q - off)
  match q.op with
  | 0xD8 => moveRow s core q (q.ra.toNat + off) (q.rb.toNat + scaled q off) n
  | 0xD9 =>
    if cqCv q = 2 then linesToTiles s core q
    else if cqCv q = 3 then tilesToLines s core q
    else moveRow s core q (q.ra.toNat + q.row * cqLo q) (q.rb.toNat + q.row * scaled q (cqHi q)) (cqLen q)
  | 0xDA => withIndex s core q fun s q i => gatherRow s core q i
  | 0xDB => withIndex s core q fun s q i => scatterRow s core q i
  | 0xDC =>
    let b := dstRange q (q.rb.toNat + off) n
    withPlace s core q b fun s p => finishRow s core q b p false (.bytes (repeatWord q.ra n))
  | 0xDD =>
    (if 32 ≤ q.bind then s else modTask s core q.bind fun t =>
      { t with swz := SMap.set 0 t.swz (fld q.word.imm 1 0) (BitVec.ofNat 64 (pairRule q.ra.toNat)) },
      .write { puts := [], oob := false } [])
  | _ =>
    let b := { dstRange q (q.rb.toNat + off) n with need := needWr + needFe, kinds := [1, 2, 3] }
    withPlace s core q b fun s p => finishRow s core q b p false .marks

/-- A finished row's count, as one write of part 0 (R299). -/
def countRow (oob : Bool) (r : CopyRec) : CopyRec :=
  { r with done := r.done + 1, oob := if oob then r.oob + 1 else r.oob }

/-- The head of the queue changes. -/
def setHead (s : State) (core : Nat) (q : CopyCmd) : State := modCore s core fun c => { c with copyQ := q :: c.copyQ.drop 1 }

/-- A row is finished: it is counted, as one write of its record (R299). -/
def finishHand (s : State) (core : Nat) (q : CopyCmd) (h : RowInHand) : State :=
  setHead (setCopyRec s core q.bind (copyTag q) (countRow h.oob)) core { q with row := q.row + 1, hand := none }

/-- One write of the row in hand (R108), or the row's end. A refused write ends the command at the row (R290). -/
def writeHand (s : State) (core : Nat) (q : CopyCmd) (h : RowInHand) : State :=
  match nextPut s.tick h.puts with
  | none => finishHand s core q h
  | some (p, rest) => match takePut s core p with
    | .done s => setHead s core { q with hand := some { h with puts := rest } }
    | .held => s
    | .refused => endCopy s core q (faultRec ⟨0x04, 8, putOff p⟩ q.row)

-- DESIGN CHOICE, log 17. Unsafe.
/-- COPY_ROW: the started head's next row is checked and read, then written word by word and counted, one event each; once
every row is, or at a row boundary where it has been cancelled, the command ends (R108, R280, R283, R296, R299). -/
def execCopyRow (core : Nat) (s : State) : Out :=
  .next <| match (coreOf s core).copyQ with
    | [] => s
    | q :: _ =>
      if !q.started then s
      else match q.hand with
        | some h => writeHand s core q h
        | none =>
          if q.stop then endCopy s core q fun r => { r with status := 4 }
          else if copyRows q ≤ q.row then endCopy s core q fun r => { r with status := 2 }
          else match copyOne s core q with
            | (_, .wait) => s
            | (s, .fault z row) => endCopy s core q (faultRec z row)
            | (s, .write h batch) => setHead s core { q with hand := some h, batch := batch }

end Sys2Proof.Machine
end

