-- ==== Sys2Proof/Machine/SwitchEvents.lean ====
section
/-! DEFINITION. Events of dispatch and switching (R43 to R46, R123 to R127, R139, R376), and of the
supervisor: mailbox posts (R378) and fault replies (R134, R334, R379). -/

namespace Sys2Proof.Machine

/-! Switching. -/

-- DEDUCED, log 28. Unsafe.
/-- TIME_SLICE_END (R44, R376): the slice of the task in slot 0 has passed in package time. -/
def execTimeSliceEnd (core : Nat) (s : State) : Out :=
  .next <|
    let c := coreOf s core
    match c.cur with
    | none => s
    | some b =>
      let slice := c.sliceUs * 1000
      if c.swap.isSome || decide (s.time.toNat < c.sliceAt.toNat + slice) then s else sliceEnd s core b

/-- PREEMPTION_REQUEST (R43, R126): ppend is set in every context of the task and the grace window begins. -/
def execPreemptionRequest (core : Nat) (s : State) : Out :=
  .next <|
    if !wantsPreempt s core then s
    else match (coreOf s core).cur with
      | none => s
      | some b =>
        let s := ((taskCtxs s core b).map Prod.fst).foldl (fun s f => setStatus s f 3 3 1) s
        modCore s core fun x => { x with preReq := true, stopped := false, due := none, exited := [], preAt := s.time, preCycles := 0
                                         grace := (partOf s (taskOf s core b).part).grace }

/-- An island's clock, in steps of 100 MHz (R413, R415). -/
def islandClock (s : State) (cl : Nat) : Nat := if (clusterSt s cl).hot then 6 else (clusterSt s cl).clock

-- DEDUCED, log 29. Unsafe.
/-- Cycles of the island's clock, in tenths, since a request's count was last brought up to date. -/
def cyclesSince (s : State) (core : Nat) : Nat :=
  (s.time.toNat - (coreOf s core).preAt.toNat) * islandClock s (clusterOf core)

-- DEDUCED, log 29. Unsafe.
/-- An island's clock is about to change: the cycles that open requests have run for are counted at the clock that was
(R19, R126). -/
def countCycles (s : State) (cl : Nat) : State :=
  (upFrom (16 * cl) 16).foldl (fun s c =>
    if (coreOf s c).preReq then modCore s c fun x => { x with preAt := s.time, preCycles := x.preCycles + cyclesSince s c }
    else s) s

-- DEDUCED, log 29. Unsafe.
/-- The grace window of a request has run out, in cycles of the island's clock (R126, R380). -/
def graceEnded (s : State) (core : Nat) : Bool :=
  decide ((coreOf s core).grace * 10 ≤ (coreOf s core).preCycles + cyclesSince s core)

-- DEDUCED, log 29. Unsafe.
/-- GRACE_WINDOW_EXPIRY (R126): no context issues past the window's end; the switch is taken whatever pmask
holds, and every dirty line is spilled. -/
def execGraceWindowExpiry (core : Nat) (s : State) : Out :=
  .next <|
    let c := coreOf s core
    match c.cur with
    | none => s
    | some b =>
      if !c.preReq || c.stopped || c.swap.isSome || !graceEnded s core then s
      else
        let s := ((taskCtxs s core b).map Prod.fst).foldl (fun s f => modCtx s f fun x => { x with live := none }) s
        takePreempt (modCore s core fun x => { x with stopped := true }) core

/-- SHADOW_BANK_LOAD_COMPLETE (R123 stage 1): the incoming frame of a slot is in its free shadow bank. -/
def execShadowBankLoadComplete (core slot : Nat) (s : State) : Out :=
  .next <| match (coreOf s core).swap with
    | none => s
    | some w =>
      if !w.slots.contains slot || w.loaded.contains slot || (slotOf s core slot).shadow.frame.isSome then s
      else
        let inc := match w.next with
          | some b => ((taskCtxs s core b).find? fun p => p.2.slot == slot).map Prod.fst
          | none => none
        let s := match inc with
          | some f => modSlot (devRead s (f * 8192) 40) core slot fun sl => { sl with shadow := loadBank s f }
          | none => s
        modCore s core fun x => { x with swap := some { w with loaded := slot :: w.loaded } }

/-- BANK_EXCHANGE (R43, R123 stage 2): every incoming frame is loaded, the outgoing task can leave, and the
shadow banks its frames move to are free. -/
def execBankExchange (core : Nat) (s : State) : Out :=
  .next <| match (coreOf s core).swap with
    | none => s
    | some w =>
      let out := match (coreOf s core).cur with
        | some b => (taskSlots s core b).filter fun k => !w.slots.contains k
        | none => []
      if (w.slots.all fun k => w.loaded.contains k) && mayLeave s core &&
          (out.all fun k => (slotOf s core k).shadow.frame.isNone)
      then dispatchFree (exchange s core w) core else s

-- DEDUCED, log 30. Safe.
/-- SPILL_COMPLETE (R123 stage 3): an outgoing frame has been written and its shadow bank is free. -/
def execSpillComplete (core slot : Nat) (s : State) : Out :=
  .next <| match (slotOf s core slot).shadow.frame with
    | none => s
    | some f => match ctxOf s f with
      | none => s
      | some x =>
        let incoming := match (coreOf s core).swap with
          | some w => w.loaded.contains slot
          | none => false
        if !x.saving || incoming then s
        else modSlot (spillBank s (clusterOf core) (slotOf s core slot).shadow f x.live) core slot fun sl => { sl with shadow := {} }

/-! The accumulators (R127). -/

/-- The paged address of sector `n` of a task's accumulator save area (R121, R127). -/
def accSaveAt (s : State) (core b n : Nat) : Nat := (readFrame s (taskOf s core b).ctl wAccSave).toNat + 128 * n

-- DESIGN CHOICE, log 25. Unsafe.
/-- The area's sectors from `n` on, translated at the cluster port (R127, R330); none while one has no page, may not be
written or is out of reach. -/
def accTargets (core b : Nat) : List Nat → State → Option (State × List Target)
  | [], s => some (s, [])
  | n :: rest, s =>
    let va := accSaveAt s core b n
    if bitsOf va 63 57 != 0 then none
    else match portXlate s (clusterOf core) (taskOf s core b).part va with
      | (s, .page level e) =>
        let t := target s.pkg va level e
        if pteW e && targetReach s (dieOf core) t then (accTargets core b rest s).map fun p => (p.1, t :: p.2) else none
      | (_, .bad _ _) => none

/-- ACCUMULATOR_SAVE (R127): `a0` to `a7`, 4,096 bytes each, a sector at a time. -/
def execAccumulatorSave (core : Nat) (s : State) : Out :=
  .next <| match (coreOf s core).accJobs with
    | .save b :: rest => match accTargets core b (upFrom 0 256) s with
      | none => s
      | some (s, ts) =>
        let s := (ts.zipIdx).foldl (fun s p => homeWrite s (.cluster (clusterOf core)) p.1 128
          ((SMap.get 0 (coreOf s core).acc (p.2 / 32)).toNat / 2 ^ (1024 * (p.2 % 32)) % 2 ^ 1024)) s
        modTask (modCore s core fun x => { x with accJobs := rest }) core b fun t => { t with accSaved := true }
    | _ => s

/-- ACCUMULATOR_RESTORE (R23, R127): from the save area, or zero for a task that has saved none. -/
def execAccumulatorRestore (core : Nat) (s : State) : Out :=
  .next <| match (coreOf s core).accJobs with
    | .restore b :: rest =>
      if !(taskOf s core b).accSaved then modCore s core fun x => { x with accJobs := rest, acc := [] }
      else match accTargets core b (upFrom 0 256) s with
        | none => s
        | some (s, ts) =>
          let v := packBits 1024 (ts.map fun t => readBytes s t.flat 128)
          let acc : SMap AccBits := (upFrom 0 8).foldl (fun m k => SMap.set 0 m k (BitVec.ofNat 32768 (v / 2 ^ (32768 * k)))) []
          modCore (ts.foldl noteSlice s) core fun x => { x with accJobs := rest, acc := acc }
    | _ => s

/-- A context is saved (R139): spill and accumulator save done, its journal entries answered and its release stores
performed; loads, atomics and fault-ring entries land in the frame later. -/
def contextSaved (s : State) (f : Nat) (x : Ctx) : Bool :=
  let c := coreOf s x.core
  (slotOf s x.core x.slot).shadow.frame != some f && !c.accJobs.contains (.save x.bind) &&
    (c.journal.all fun p => !(p.2.frame == f && p.2.state == 1)) &&
    s.reqs.all fun r => !(r.frame == f && (r.op == 1 || r.op == 5) && qRel r.qual)

/-- CONTEXT_SAVED_REPORT (R46, R139, R292): the context is saved, and the task's copy commands and PFR have ended. -/
def execContextSavedReport (frame : Nat) (s : State) : Out :=
  .next <| match ctxOf s frame with
    | none => s
    | some x =>
      let copies := ((coreOf s x.core).copyQ.any fun q => q.bind == x.bind) || (coreOf s x.core).pfrs.any fun p => p.bind == x.bind
      if x.saving && !copies && contextSaved s frame x
      then modCtx s frame fun x => { x with saving := false, saved := true } else s

/-! The mailbox (R378). -/

-- DEDUCED, log 26. Safe.
/-- A partition's mailbox has a free entry, and the millwright core that posts there runs (R13). -/
def mailRoom (s : State) (m : Mail) : Bool :=
  decide ((partOf s m.part).mbTail < (partOf s m.part).mbHead + 4096) && firmwareRuns s (dieOf (partOf s m.part).supCore)

-- DEDUCED, log 26. Safe.
/-- MAILBOX_POST: the first waiting message whose ring has room is appended, and the class 7 notice sent. -/
def execMailboxPost (s : State) : Out :=
  .next <| match s.mail.find? (mailRoom s) with
    | none => s
    | some m =>
      let p := partOf s m.part
      let k := p.mbTail % 4096
      let s := { s with mail := s.mail.eraseP (mailRoom s) }
      let s := homeWrite s .other (dramTarget (p.mailbox + 32 * k)) 32 (packBits 64 [m.ctxid.toNat, m.pc.toNat, m.code.toNat, m.addr.toNat])
      let s := modPart s m.part fun p => { p with mbTail := p.mbTail + 1 }
      pushMsg s { cls := 7, src := dieOf p.supCore * 512, dst := p.supCore, tag := 0, status := 0,
                  words := [BitVec.ofNat 64 k], call := false, launch := 0, frame := 0, slot := 0, entry := none,
                  held := false, ord := 0, hw := true }

/-! Fault replies (R134, R334, R379). -/

/-- The context is parked for a reply (R134). -/
def awaitsReply (s : State) (f : Nat) (x : Ctx) : Bool := x.park.isSome || decide (0 < ringCount s f)

-- DESIGN CHOICE, log 22. Safe.
/-- The contexts of a partition that a reply may act on; where several share the `sys.ctxid`, which of them is
not stated. -/
def replyTargets (s : State) (part : Nat) (id : Word) : List (Nat × Ctx) :=
  (ctxList s).filter fun p => !p.2.trail && ctxPart s p.2 == part && ctxIdent s p.1 == id && awaitsReply s p.1 p.2

-- DESIGN CHOICE, log 22. Safe.
def replyTarget (s : State) (part : Nat) (id : Word) : Option (Nat × Ctx) :=
  let l := replyTargets s part id
  l[Config.pick (s.tick * 2 ^ 80) % l.length]?

-- DEDUCED, log 24. Unsafe.
/-- The access of the entry at place `k` goes to its home, in the order that R103 sets (R335), and the entry is freed once
it has been performed; a fetch is made again when the context next issues. -/
def replayAccess (s : State) (f k : Nat) (r : Req) (t : Target) : State :=
  if r.op == 6 || r.take then freeRing s f k else { s with reqs := s.reqs ++ [{ r with target := some t, ring := some k }] }

-- DEDUCED, log 24. Unsafe.
/-- A resolved entry is replayed; one that faults again is pending once more (R334). -/
def replayEntry (part : Nat) (f : Nat) (s : State) (k : Nat) : State :=
  if ringState s f k ≠ 2 || replaying s f k then s
  else match ringReq s f k with
    | none => freeRing s f k
    | some r =>
      let again (s : State) (cause level : Nat) : State :=
        postFault (homeWrite s .other (dramTarget (ringAddr s f k)) 64
          (faultEntry r (BitVec.ofNat 16 (ringSeq s f k)) cause level 1)) part f r
      match portXlate s (clusterOf r.core) part r.addr.toNat with
      | (s, .bad c level) => again s c level
      | (s, .page level e) => match permFault r.op e with
        | some c => again s c level
        | none => replayAccess s f k r (target s.pkg r.addr.toNat level e)

/-- Free entries of a ring unperformed, but for those that are being performed: loads leave their destinations, and their
results are over; `marks` are the writes that an entry leaves behind (R334). -/
def freeAll (s : State) (f : Nat) (marks : Req → List RegWrite) (ks : List Nat) : State :=
  (ks.filter fun k => !replaying s f k).foldl (fun s k =>
    let r := ringReq s f k
    let s := freeRing s f k
    match r with
    | some r => reqResult s r (marks r) []
    | none => s) s

/-- The trap of a declined entry: at its instruction, which for a fetch is the one about to issue (R333, R334). -/
def declinedTrap (s : State) (f : Nat) (r : Req) : TrapInfo :=
  reqTrap (if r.op = 6 then { r with pc := ctxPc s f } else r) 0x07 0 r.addr

/-- The declined entry of lowest seq: a lane of VGATH or VSCAT is faulted; any other frees every declined entry and
traps (R225, R334). -/
def declineEntries (f : Nat) (s : State) : State :=
  let ks := (ringPlaces s f).filter fun k => ringState s f k == 3
  match ks with
  | [] => s
  | k :: _ => match ringReq s f k with
    | none => freeRing s f k
    | some r =>
      if r.fdst ≠ 0 then freeAll s f laneFault [k]
      else takeTrap (freeAll s f laneFault ks) f (declinedTrap s f r)

/-- Action 0 on the fault ring, whose entries are read at their home slices (R334). -/
def replayRing (s : State) (part f : Nat) : State :=
  let s := noteFrame s f wRing
  let s := (ringPlaces s f).foldl (fun s k => noteSlice s (dramTarget (ringAddr s f k))) s
  resumeTask (declineEntries f ((ringPlaces s f).foldl (replayEntry part f) s)) f

/-- Action 1 or 0 on a parked context: where it continues, and the value of a skipped SVC (R54, R134, R176). A retry of
a trap at an entry repeats the check of R53. -/
def unpark (s : State) (f : Nat) (x : Ctx) (skip : Bool) (value : Word) : State :=
  match x.park with
  | none => s
  | some (.escalated t) =>
    let past := skip && !t.async
    modCtx (writeFrame s f wPc (if past then pcNext t.pc else t.pc)) f fun x =>
      { x with park := none, wait := none, entry := x.entry && !past }
  | some (.svc pc _ d _) =>
    if skip then
      match freeEntry s f with
      | none => modCtx (writeReg s f d value.toNat) f fun x => { x with park := none }
      | some e => modCtx (sendResult (openEntry s f e d 0) f e [regWrite d value.toNat] []) f fun x => { x with park := none }
    else modCtx (writeFrame s f wPc pc) f fun x => { x with park := none }

-- DESIGN CHOICE, log 23. Unsafe.
/-- The trap that action 2 enters the handler with. -/
def vectorTrap (s : State) (f : Nat) (x : Ctx) : TrapInfo :=
  match x.park with
  | some (.escalated t) => t
  | some (.svc pc _ _ word) => { code := 0, cause := 0, addr := 0, pc := pc, word := word, async := false }
  | none => match (ringPlaces s f).head?.bind (ringReq s f) with
    | some r => declinedTrap s f r
    | none => { code := 0x07, cause := 0, addr := 0, pc := ctxPc s f, word := 0, async := false }

/-- Dispatch wherever slot 0 has become free. -/
def dispatchAll (s : State) : State := (s.cores.map Prod.fst).foldl dispatchFree s

/-- The refusal whose escalated trap the reply ends is over: its entry is freed (R184). -/
def freeAnswered (s : State) (f : Nat) : State :=
  match ctxOf s f with
  | none => s
  | some x => match x.park, x.served with
    | some (.escalated t), some k =>
      if !(t.async && t.code == 0x09) then s
      else
        let s := modCtx (setJentry s x.core k {}) f fun x => { x with served := none }
        setStatus s f 2 2 (if (coreOf s x.core).journal.any fun p => p.2.state == 2 && p.2.frame == f then 1 else 0)
    | _, _ => s

-- DESIGN CHOICE, log 23. Unsafe.
/-- The effect of one reply on its context (R134); none when it is discarded. -/
def applyReply (s : State) (part f : Nat) (x : Ctx) (action : Nat) (value : Word) : Option State :=
  match action with
  | 0 => some (replayRing (unpark (freeAnswered s f) f x false value) part f)
  | 1 =>
    let s := freeAll s f (fun _ => []) (ringPlaces s f)
    some (resumeTask (unpark (freeAnswered s f) f x true value) f)
  | 2 =>
    if readFrame s f wTvec = 0 then none
    else
      let t := { vectorTrap s f x with keep := true, force := true }
      let s := setStatus (freeAll (freeAnswered s f) f (fun _ => []) (ringPlaces s f)) f 5 5 0
      some (resumeTask (modCtx (takeTrap s f t) f fun x => { x with park := none }) f)
  | 3 => some (dispatchAll (killContext s f))
  | 4 => some (dispatchAll (killLaunch s (ctxTask s x).token))
  | _ => none

-- DEDUCED, log 26. Safe.
-- DEDUCED, log 24. Unsafe.
/-- FAULT_REPLY: the next record of a partition's reply ring is applied, or discarded and counted (R379). -/
def execFaultReply (part : Nat) (s : State) : Out :=
  .next <|
    let p := partOf s part
    let tail := (readWord s p.replyTail).toNat % 4096
    let k := p.replyHead % 4096
    if !p.exists_ || tail = k || !firmwareRuns s (dieOf p.supCore) then s
    else
      let w (i : Nat) : Word := readWord s (p.replyRing + 32 * k + 8 * i)
      let s := noteSlice (noteSlice s (dramTarget p.replyTail)) (dramTarget (p.replyRing + 32 * k))
      let s := modPart s part fun p => { p with replyHead := (k + 1) % 4096 }
      let done := if fld (w 1) 63 56 ≠ 1 then none
        else (replyTarget s part (w 0)).bind fun q =>
          applyReply (noteFrame (noteFrame s q.1 wStatus) q.1 wEpc) part q.1 q.2 (fld (w 1) 2 0) (w 2)
      match done with
      | some s => s
      | none => modPart s part fun p => { p with discarded := p.discarded + 1 }

end Sys2Proof.Machine
end

