-- ==== Sys2Proof/Machine/Launches.lean ====
section
/-! DEFINITION. Launches (R22, R23, R370 to R374, R377), the host's queues (R381) and partitions
(R380), as the millwright cores' firmware serves them. -/

namespace Sys2Proof.Machine

/-! Fields of a launch record (R370). -/

def lWord (l : Launch) (k : Nat) : Nat := (l.words.getD k 0).toNat
def lFlag (l : Launch) (k : Nat) : Bool := bitOf (lWord l 0) k
def lPre (l : Launch) : Bool := lFlag l 44
def lGang (l : Launch) : Bool := lFlag l 43
def lRed (l : Launch) : Bool := lFlag l 42
def lFp (l : Launch) : Bool := lFlag l 41
def lKdl (l : Launch) : Bool := lFlag l 40
def lFpt (l : Launch) : Nat := bitsOf (lWord l 0) 39 36
def lPrio (l : Launch) : Nat := bitsOf (lWord l 0) 47 45
def lDeps (l : Launch) : List Nat := ((upFrom 4 4).map (lWord l)).filter (· != 0)

/-- The cores of a placement, in ascending order of coordinate (R23, R370). -/
def placement (w : Nat) : List Nat :=
  ((upFrom 0 4).filter fun d => bitOf w (12 + d)).flatMap fun d =>
    ((upFrom 0 32).filter fun c => bitOf w (16 + c)).flatMap fun c =>
      ((upFrom 0 16).filter fun k => bitOf w (48 + k)).map fun k => bitsOf w 9 0 * 2048 + d * 512 + c * 16 + k

/-! Fresh control contexts (R23, R128). -/

/-- A frame in memory holds a fresh context's words and nothing else in lines 0 to 39. -/
def writeFresh (s : State) (f : Nat) (ws : List (Nat × Word)) : State :=
  ws.foldl (fun s p => writeStored s f p.1 p.2) (devClear s (f * 8192) 40)

/-- A task is bound to a table entry of its core: its bind record, its frames and its control context, which
under the redundant flag has a trailing copy where the frames hold a pair (R23, R375, R391). -/
def bindTask (s : State) (core b : Nat) (t : Task) (r : Bind) (pc : Word) (gs : List Word) (twin : Option Nat) : State :=
  let kind := if t.priv = 1 then 3 else 0
  let id := ctxidWord (launchId t.token) t.index kind 0
  let words (k : Nat) := freshWords pc k t.priv.toNat 0 0x8080 id gs ++ controlSegs
  let x : Ctx := { core := core, slot := 0, bind := b, entry := true }
  let s := modTask s core b fun _ => t
  let s := modBind s core b fun _ =>
    { r with launch := BitVec.ofNat 32 (launchId t.token), task := BitVec.ofNat 16 t.index,
             fdie := BitVec.ofNat 2 (t.ctl * 8192 / 2 ^ 64), fofs := BitVec.ofNat 23 (t.ctl * 8192 % 2 ^ 64 / 2 ^ 13),
             rtime := BitVec.ofNat 55 s.time.toNat, fresh := true }
  let s := setCtx (writeFresh s t.ctl (words 0)) t.ctl (some { x with twin := twin })
  match twin with
  | some g => setCtx (writeFresh s g (words 8)) g (some { x with slot := 8, trail := true })
  | none => s

/-- The lowest free entry of a slot table. -/
def freeEntryOf (s : State) (core : Nat) : Option Nat := (upFrom 0 32).find? fun b => (bindOf s core b).state == 0

/-! Admission (R372). -/

def outcomeOf (s : State) (t : Nat) : Option (BitVec 8) := (s.outcomes.find? fun p => p.1.toNat == t).map Prod.snd

/-- A launch of the token is in a queue or in progress. -/
def tokenLive (s : State) (t : Nat) : Bool := (liveLaunches s).any fun l => l.token.toNat == t

/-- A record is refused: its completion record says why, and it produces no task (R372, R373). -/
def refuseLaunch (s : State) (l : Launch) (cause : Nat) : State :=
  completeLaunch s l 2 cause (if cause = 1 then 0x0101 else 0)

/-- Steps 1 to 5 of R372: the cause of a refusal. -/
def admissionCheck (s : State) (l : Launch) : Option Nat :=
  let w0 := lWord l 0
  let cores := placement (lWord l 8)
  if bitsOf w0 63 56 ≠ 1 then some 1
  else if bitsOf w0 55 48 ≠ 0 || bitsOf w0 35 20 ≠ 0 || bitsOf (lWord l 8) 11 10 ≠ 0 ||
      (upFrom 10 5).any fun k => lWord l k != 0 then some 4
  else if launchCount l = 0 || cores.length < launchCount l then some 2
  else if bitsOf (lWord l 8) 9 0 ≠ l.die / 4 || !(cores.all fun c => inPart s l.part (clusterOf c)) then some 3
  else if !((lDeps l).all fun t => (outcomeOf s t).isSome || tokenLive s t) then some 5
  else none

/-- Frames a task takes at admission (R417). -/
def taskFrames (l : Launch) : Nat := if lFp l then 1 else lFpt l + 1

-- DEDUCED, log 33. Unsafe.
/-- The frame of the trailing copy of a redundant task's control context (R391, R417): one of the reserved frames, or one
taken from the pool; a task of one frame has no copy. None while the pool has none free. -/
def twinFrame (s : State) (l : Launch) (fs : List Nat) : Option (Option Nat × State) :=
  if !lRed l || lFpt l = 0 then some (none, s)
  else if lFp l then (takePool l.part 1 s).map fun p => (p.1.head?, p.2)
  else some (fs[1]?, s)

-- DEDUCED, log 33. Unsafe.
/-- A task of the launch is written into a table entry in a state (R375); none while its copy's frame is not free. -/
def placeTask (s : State) (l : Launch) (i b : Nat) (state : BitVec 3) : Option (State × Launch) :=
  let core := l.placed.getD i 0
  let fs := l.frames.take (taskFrames l)
  let ctl := fs.headD 0
  (twinFrame s l fs).map fun (twin, s) =>
    let t : Task := { token := l.token, index := i, count := launchCount l, part := l.part, ctl := ctl
                      frames := ctl :: twin.toList
                      own := if lFp l then [] else fs
                      fpt := lFpt l, fp := lFp l, red := twin.isSome, pre := lPre l, priv := l.priv }
    let r : Bind := { dl := BitVec.ofNat 64 (launchDeadline l), gang := lGang l, pre := lPre l, red := lRed l
                      prio := BitVec.ofNat 3 (lPrio l), state := state }
    (bindTask s core b t r (BitVec.ofNat 64 (lWord l 1))
        [BitVec.ofNat 64 (lWord l 2), BitVec.ofNat 64 i, BitVec.ofNat 64 (launchCount l)] twin,
      { l with bound := i :: l.bound, frames := l.frames.drop (taskFrames l) })

/-- A task still to be bound. -/
def unplaced (l : Launch) (i : Nat) : Bool := !l.bound.contains i && !l.ended.contains i

-- DESIGN CHOICE, log 89. Unsafe.
/-- Tasks not yet bound whose core, on the die named, has a free entry are written, ready (R372 step 8). -/
def placeReady (die : Nat) : List Nat → State → Launch → State × Launch
  | [], s, l => (s, l)
  | i :: rest, s, l =>
    let core := l.placed.getD i 0
    if !unplaced l i || dieOf core != die || !firmwareRuns s die then placeReady die rest s l
    else match (freeEntryOf s core).bind fun b => placeTask s l i b 1 with
      | none => placeReady die rest s l
      | some (s, l) => placeReady die rest s l

/-- The die whose records are written next: the lowest that has a task that can be bound (R13). -/
def nextPlaceDie (s : State) (l : Launch) : Option Nat :=
  ((upFrom 0 (launchCount l)).find? fun i =>
    unplaced l i && firmwareRuns s (dieOf (l.placed.getD i 0)) && (freeEntryOf s (l.placed.getD i 0)).isSome).map
    fun i => dieOf (l.placed.getD i 0)

/-- Slot 0 of a core is free, or every record it holds or is to be given is preemptible (R377). -/
def gangRoom (s : State) (c : Nat) : Bool :=
  let x := coreOf s c
  (x.cur.toList ++ (x.swap.bind Swap.next).toList).all fun b => (bindOf s c b).pre

/-- The gang's tasks in turn; none where one cannot be written. -/
def placeAll : List Nat → State → Launch → Option (State × Launch)
  | [], s, l => some (s, l)
  | i :: rest, s, l => match (freeEntryOf s (l.placed.getD i 0)).bind fun b => placeTask s l i b 5 with
    | none => none
    | some (s, l) => placeAll rest s l

/-- A gang's records are written held, in one step, once all can be (R377). -/
def placeGang (s : State) (l : Launch) : Option (State × Launch) :=
  let tasks := (upFrom 0 (launchCount l)).filter (unplaced l)
  let ok (c : Nat) : Bool := (freeEntryOf s c).isSome && gangRoom s c && firmwareRuns s (dieOf c)
  if tasks.all fun i => ok (l.placed.getD i 0) then placeAll tasks s l else none

/-- Steps 6 to 8 of R372, as far as they go now; step 8 on one die, which writes its own tables (R13). `step` is the step a launch has come to; 9 is a gang whose
records are held, 10 a launch whose records are all written. -/
def advanceLaunch (s : State) (l : Launch) : State :=
  let s6 : Except State (State × Launch) :=
    if l.step ≠ 6 then .ok (s, l)
    else if (lDeps l).any (tokenLive s) then .error s
    else if (lDeps l).any fun t => outcomeOf s t != some 1 then .error (refuseLaunch s l 6)
    else .ok (s, { l with step := 7 })
  match s6 with
  | .error s => s
  | .ok (s, l) =>
    let n := launchCount l * taskFrames l
    let s7 : Except State (State × Launch) :=
      if l.step ≠ 7 then .ok (s, l)
      else if (partOf s l.part).poolFrames < n then .error (refuseLaunch s l 7)
      else match takePool l.part n s with
        | none => .error (setLaunch s l)
        | some (fs, s) => .ok (s, { l with step := 8, frames := fs })
    match s7 with
    | .error s => s
    | .ok (s, l) =>
      if l.step ≠ 8 then s
      else if lGang l then
        match placeGang s l with
        | none => setLaunch s l
        | some (s, l) => setLaunch s { l with step := 9 }
      else
        let tasks := upFrom 0 (launchCount l)
        let (s, l) := placeReady ((nextPlaceDie s l).getD l.die) tasks s l
        let s := setLaunch s { l with step := if tasks.any (unplaced l) then 8 else 10 }
        l.placed.foldl dispatchFree s

/-- A record of the same host queue comes before this one and is not admitted yet (R372). -/
def queueBefore (s : State) (l : Launch) : Bool :=
  l.src != 0 &&
    ((s.dies.any fun p => p.2.devQ.any fun m => m.src == l.src && decide (m.ord < l.ord)) ||
      s.launches.any fun m => m.src == l.src && decide (m.ord < l.ord) && decide (m.step < 9))

/-- LAUNCH_ADMISSION: the millwright core of a die takes the next record it may (R372). -/
def execLaunchAdmission (die : Nat) (s : State) : Out :=
  .next <| match (dieSt s die).devQ.find? fun l => !queueBefore s l with
    | none => s
    | some l =>
      if !firmwareRuns s die then s
      else
      let s := modDie s die fun d => { d with devQ := d.devQ.filter fun m => m.token != l.token }
      match admissionCheck s l with
      | some c => refuseLaunch s l c
      | none =>
        let l := { l with step := 6, placed := (placement (lWord l 8)).take (launchCount l) }
        advanceLaunch { s with launches := s.launches ++ [l] } l

/-- ADMISSION_RESUME: the n-th launch goes on with its admission where it waited (R372). -/
def execAdmissionResume (n : Nat) (s : State) : Out :=
  .next <| match s.launches[n]? with
    | none => s
    | some l => if l.step < 9 then advanceLaunch s l else s

-- DESIGN CHOICE, log 89. Unsafe.
/-- GANG_BIND_RELEASE: the n-th launch's held records become ready in one step (R377), on each die by its millwright core
(R13). -/
def execGangBindRelease (n : Nat) (s : State) : Out :=
  .next <| match s.launches[n]? with
    | none => s
    | some l =>
      if l.step ≠ 9 then s
      else
        let s := setLaunch s { l with step := 10 }
        let mine (s : State) (c : Nat) := ((coreOf s c).tasks.filter fun p => p.2.token == l.token).map Prod.fst
        let placed := l.placed.filter fun c => firmwareRuns s (dieOf c)
        let s := placed.foldl (fun s c => (mine s c).foldl (fun s b => modBind s c b fun r =>
          if r.state = 5 then { r with state := 1, rtime := BitVec.ofNat 55 s.time.toNat } else r) s) s
        placed.foldl dispatchFree s

/-- DEADLINE_PASS: the deadline of the n-th of the launches that have not ended has passed in package time (R374). -/
def execDeadlinePass (n : Nat) (s : State) : Out :=
  .next <| match (liveLaunches s)[n]? with
    | none => s
    | some l =>
      let r := missDeadline s l
      if r.2.missed = l.missed then s
      else
        let s := setLaunch r.1 r.2
        if lKdl l then dispatchAll (killLaunch s l.token) else s

/-! Host queues (R381, R412). -/

-- DESIGN CHOICE, log 12. Safe.
def queueOf (s : State) (q : Nat) : HostQueue := s.queues.get {} q
def setQueue (s : State) (q : Nat) (x : HostQueue) : State := { s with queues := SMap.set {} s.queues q x }

/-- Records of a ring: 2^4 to 2^16. -/
def ringSize (x : HostQueue) : Nat := 2 ^ max 4 (min x.log2 16)

/-- Bytes of a ring slot: a partition record at queue 0, a launch record elsewhere. -/
def slotBytes (q : Nat) : Nat := if q = 0 then 256 else 128
-- DESIGN CHOICE, log 12. Safe.
def slotAddr (x : HostQueue) (q k : Nat) : Nat := hostBase + x.base + slotBytes q * (k % ringSize x)

/-- The device writes its head index into the word after the ring. -/
def writeHead (s : State) (q : Nat) (x : HostQueue) : State :=
  portWrite s (hostBase + x.base + slotBytes q * ringSize x) 8 x.head

/-- The die that will admit a record of a queue (R372). -/
def recordDie (s : State) (q : Nat) (x : HostQueue) (k : Nat) : Nat :=
  let dm := bitsOf (portRead s (slotAddr x q k + 64) 8) 15 12
  s.pkg * 4 + (if dm = 0 then 0 else ctz 4 dm)

/-- A launch record of a host queue is accepted and forwarded to the die that will admit it (R372, R373). -/
def acceptHost (q : Nat) (x : HostQueue) (s : State) (k : Nat) : State :=
  let v := portRead s (slotAddr x q k) 128
  let words := splitBits 64 16 v
  let die := recordDie s q x k
  let (tok, s) := takeToken s die
  let l : Launch := { token := tok, words := words.map (BitVec.ofNat 64), die := die, part := x.part, src := q, ord := s.ord }
  let s := portWrite s (slotAddr x q k + 120) 8 tok.toNat
  modDie { s with ord := s.ord + 1 } die fun d => { d with devQ := d.devQ ++ [l] }

-- DESIGN CHOICE, log 84. Unsafe.
/-- A queue's records up to its tail are accepted in ring order; one whose die's base link is down waits, and those behind
it (R7, R372). -/
def acceptFrom (q : Nat) : Nat → State → State
  | 0, s => s
  | n + 1, s =>
    let x := queueOf s q
    if x.head = x.tail || !baseUp s (recordDie s q x x.head) then s
    else acceptFrom q n (setQueue (acceptHost q x s x.head) q { x with head := (x.head + 1) % ringSize x })

/-- A queue is served, and its head index written. -/
def serveQueue (s : State) (q : Nat) : State :=
  let s := acceptFrom q (ringSize (queueOf s q)) s
  writeHead s q (queueOf s q)

/-- Queues with records that wait are served again. -/
def serveQueues (s : State) : State :=
  ((s.queues.filter fun p => p.1 != 0 && p.2.enabled && p.2.head != p.2.tail).map Prod.fst).foldl serveQueue s

/-- A writer may ring a queue: its partition's queues, or, as the management function (none), queue 0 (R380, R381). -/
def mayRing (x : HostQueue) (queue : Nat) (writer : Option Nat) : Bool :=
  x.enabled && if queue = 0 then writer.isNone else writer == some x.part

/-- HOST_DOORBELL: a write of a queue's doorbell by the host's management function or by a function of a partition;
ignored and counted before stage 6, where the queue is not enabled, and where it is not the writer's (R381, R412). -/
def execHostDoorbell (queue : Nat) (value : Doorbell) (s : State) : Out :=
  .next <|
    let x := queueOf s queue
    if s.stage < 6 || !mayRing x queue value.writer then { s with ignored := s.ignored + 1 }
    else
      let size := ringSize x
      let tail := fld value.value 15 0 % size
      if queue = 0 then setQueue s 0 { x with tail := tail }
      else serveQueue (setQueue s queue { x with tail := tail }) queue

/-! Partitions (R380). -/

/-- The next record of the management queue. -/
def nextRecord (s : State) : Option (List Nat) :=
  let x := queueOf s 0
  if x.head = x.tail then none else some (splitBits 64 32 (portRead s (slotAddr x 0 x.head) 256))

def recWord (r : List Nat) (k : Nat) : Nat := r.getD k 0
def recOp (r : List Nat) : Nat := bitsOf (recWord r 0) 55 48
def recPart (r : List Nat) : Nat := bitsOf (recWord r 0) 47 40

/-- The outcome is written before the head advances (R380). -/
def endRecord (s : State) (status : Nat) : State :=
  let x := queueOf s 0
  let s := portWrite s (slotAddr x 0 x.head + 248) 8 status
  let x := { x with head := (x.head + 1) % ringSize x }
  writeHead (setQueue s 0 x) 0 x

/-- The fields of words 3 to 5 are in range. -/
def recTimes (r : List Nat) : Bool :=
  let us := bitsOf (recWord r 3) 31 0
  let g := recWord r 4
  bitsOf (recWord r 3) 63 33 == 0 && (us == 0 || decide (50 ≤ us ∧ us ≤ 1000000)) &&
    (g == 0 || decide (256 ≤ g ∧ g ≤ 65536))

def recFirst (r : List Nat) : Nat := bitsOf (recWord r 6) 31 16
def recCount (r : List Nat) : Nat := bitsOf (recWord r 6) 15 0

/-- What must be zero in a record of any op is (R380 status 5). -/
def recZeros (r : List Nat) : Bool :=
  bitsOf (recWord r 0) 39 0 == 0 && bitsOf (recWord r 3) 63 33 == 0 && bitsOf (recWord r 4) 63 32 == 0 &&
    bitsOf (recWord r 6) 63 32 == 0 && ((upFrom 0 4).all fun j => bitsOf (recWord r 7) (16 * j + 15) (16 * j + 9) == 0) &&
    bitsOf (recWord r 27) 63 16 == 0 && bitsOf (recWord r 27) 4 0 == 0 &&
    recWord r 28 == 0 && recWord r 29 == 0 && recWord r 30 == 0

/-- Every field of a create record is in range and what must be zero is (R380 status 5). -/
def recFields (r : List Nat) : Bool :=
  recTimes r && recZeros r &&
    (recCount r == 0 || (decide (1 ≤ recFirst r) && decide (recFirst r + recCount r ≤ 65536)))

def recClusters (r : List Nat) : Nat := recWord r 1 + recWord r 2 * 2 ^ 64
def recPods (r : List Nat) : Nat := packBits 64 ((upFrom 8 16).map (recWord r))
/-- The core whose slot table takes the supervisor's bind record. -/
def recSupCore (s : State) (r : List Nat) : Nat :=
  let w := recWord r 27
  s.pkg * 2048 + bitsOf w 15 14 * 512 + bitsOf w 13 9 * 16 + bitsOf w 8 5

-- DESIGN CHOICE, log 13. Unsafe.
/-- Offsets in a partition's device memory, from its 256 KiB-aligned base: root, mailbox, reply and error
rings of 128 KiB, repair ring of 32 KiB, the two tail words, the supervisor's frame, the spill areas, the frame pool. -/
def partLayout : List Nat := [0, 0x40000, 0x60000, 0xB8000, 0x80000, 0xA0000, 0xB8080]
def supFrameOff : Nat := 0xC0000
/-- Page tables below the root for the argument block and the program entry. -/
def tablesOff : Nat := 0xE0000
def spillOff : Nat := 0x200000
-- DESIGN CHOICE, log 13. Unsafe.
/-- The spill areas of the package's four sluices lie before the frame pool, of 4 KiB a slot (R355). -/
def poolAt (s : State) : Nat :=
  (spillOff + 4096 * ((upFrom (s.pkg * 4) 4).map spillSlots).sum + 0xFFFF) / 0x10000 * 0x10000
-- DESIGN CHOICE, log 25. Unsafe.
-- DESIGN CHOICE, log 13. Unsafe.
def partBytes (s : State) (frames : Nat) : Nat := poolAt s + 8192 * poolFrame 0 frames

/-- Bytes of a die's DRAM (R1, R2). -/
def dieBytes : Nat := 64 * 10 ^ 9

/-- The partitions whose memory lies on a die: first offset, and the offset past it. -/
def diePlaces (s : State) (die : Nat) : List (Nat × Nat) :=
  (s.parts.filter fun p => p.2.exists_ && p.2.root / 2 ^ 64 == die).map fun p =>
    (p.2.root % 2 ^ 64, p.2.root % 2 ^ 64 + p.2.bytes)

-- DESIGN CHOICE, log 13. Unsafe.
/-- Where `n` bytes of a die's DRAM are free: the lowest multiple of 256 KiB. -/
def freePlace (s : State) (die n : Nat) : Option Nat :=
  let used := diePlaces s die
  let fits (o : Nat) : Bool := decide (o + n ≤ dieBytes) && used.all fun p => decide (o + n ≤ p.1 || p.2 ≤ o)
  let cands := (0 :: used.map fun p => (p.2 + 0x3FFFF) / 0x40000 * 0x40000).filter fits
  cands.foldl (fun best o => match best with
    | none => some o
    | some b => some (min b o)) none

-- DESIGN CHOICE, log 32. Unsafe.
/-- A page of 64 KiB is mapped, to the same offset of host memory, for every access; tables that are missing are taken
from `next` on, and the first free place after them is answered. -/
def mapPage (die va : Nat) : Nat → Nat → Nat → State → Nat × State
  | 0, t, next, s =>
    (next, devWrite (devRead s (t + 16 * levelIndex va 0) 1) (t + 16 * levelIndex va 0)
      (0x210D + va / 2 ^ 16 % 2 ^ 41 * 2 ^ 16 + die % 4 * 2 ^ 84) 2)
  | level + 1, t, next, s =>
    let at_ := t + 16 * levelIndex va (level + 1)
    let e := readBytes s at_ 16
    let s := devRead s at_ 1
    if pteV e then mapPage die va level (dramBase (s.pkg * 4 + pteDie e) + pteTa e * 2 ^ 16) next s
    else
      let table := if level = 2 then (next + 0x1FFFF) / 0x20000 * 0x20000 else next
      mapPage die va level table (table + if level = 2 then 0x20000 else 0x10000)
        (devWrite s at_ (1 + table % 2 ^ 64 / 2 ^ 16 * 2 ^ 16 + die % 4 * 2 ^ 84) 2)

/-- Pages are mapped in a table. -/
def mapPages (die root : Nat) : List Nat → Nat → State → State
  | [], _, s => s
  | va :: rest, next, s =>
    let r := mapPage die va 3 root next s
    mapPages die root rest r.1 r.2

-- DESIGN CHOICE, log 32. Unsafe.
/-- The supervisor's context is bound with priv = 1 (R130, R380). Its priority and whether it is preemptible are
not stated. -/
def supervisorTask (s : State) (r : List Nat) (part core frame : Nat) : State :=
  let (tok, s) := takeToken s (dieOf core)
  match freeEntryOf s core with
  | none => s
  | some b =>
    let v := Config.pick (s.tick * 2 ^ 80)
    let t : Task := { token := tok, index := 0, count := 1, part := part, ctl := frame, frames := [frame], own := []
                      fpt := 15, fp := true, pre := v % 2 == 1, priv := 1 }
    let rec_ : Bind := { pre := v % 2 == 1, prio := BitVec.ofNat 3 (v / 2), state := 1 }
    dispatchFree (bindTask s core b t rec_ (BitVec.ofNat 64 (recWord r 25)) [BitVec.ofNat 64 (recWord r 26), 0, 1] none) core

-- DESIGN CHOICE, log 11. Safe.
/-- The millwright core reserves the banks of a die's sluice, in FIFO mode, where it has not yet (R301, R355). -/
def reserveSluice (s : State) (die : Nat) : State :=
  let c := Config.sluiceBanks die
  let cl := die * 32 + c.1 % 32
  if !firmwareRuns s die then s else
  if (clusterSt s cl).reserved ≠ 0 then s
  else modCluster ((upFrom 0 32).foldl (fun s b => if c.2.getLsbD b then setBankMode s cl b 3 else s) s) cl
    fun x => { x with reserved := c.2 }

-- DESIGN CHOICE, log 36. Safe.
/-- The outcome of a repair request arrives as a kind 7 record (R393). -/
def repairOutcome (s : State) (p unit at_ len status : Nat) (ranges : List (Nat × Nat)) : State :=
  logError s p 7 unit at_ len 0 0 status ranges

-- DESIGN CHOICE, log 38. Safe.
/-- Rows of a partition that found no spare are reported, with status 5, once it has a ring (R394). -/
def reportUnspared (s : State) (p : Nat) : State :=
  (upFrom (s.pkg * 4) 4).foldl (fun s d =>
    ((dieSt s d).unspared.filter fun e => e.2 == p).foldl (fun s e =>
        repairOutcome s p 4 (d % 4 * 2 ^ 60 + e.1) 128 5 [])
      (modDie s d fun x => { x with unspared := x.unspared.filter fun e => e.2 != p })) s

-- DESIGN CHOICE, log 32. Unsafe.
-- DESIGN CHOICE, log 13. Unsafe.
/-- Create a partition: its memory, its record, its argument block, its queues and its supervisor (R380). -/
def createPartition (s : State) (r : List Nat) : State :=
  let p := recPart r
  let core := recSupCore s r
  let die := dieOf core
  let off := (freePlace s die (recWord r 24)).getD 0
  let base := dramBase die + off
  let addrs := partLayout.map (base + ·)
  let a (k : Nat) := addrs.getD k 0
  let s := modDie (devClear s base (poolAt s / 128)) die fun d => { d with dramTop := max d.dramTop (off + recWord r 24) }
  let part : Part :=
    { exists_ := true, clusters := BitVec.ofNat 128 (recClusters r), pods := BitVec.ofNat 1024 (recPods r)
      sliceUs := if bitsOf (recWord r 3) 31 0 = 0 then 2000 else bitsOf (recWord r 3) 31 0
      aging := bitOf (recWord r 3) 32
      grace := if recWord r 4 = 0 then 4096 else recWord r 4
      poolFrames := recWord r 5, poolBase := (base + poolAt s) / 8192, poolCap := (recWord r 24 - poolAt s) / 65536, bytes := recWord r 24
      queueFirst := recFirst r, queueCount := recCount r, resCores := BitVec.ofNat 64 (recWord r 7)
      root := a 0, mailbox := a 1, replyRing := a 2, replyTail := a 3, errRing := a 4, repairRing := a 5, repairTail := a 6
      retryNs := (dieSt s die).retryNs, supCore := core }
  let s := { s with parts := SMap.set {} s.parts p part
                    barriers := s.barriers.filter fun q => q.1 / 2 ^ 40 != p }
  let s := (upFrom (recFirst r) (recCount r)).foldl (fun s q =>
    setQueue s q { queueOf s q with part := p, enabled := true }) s
  let lo (k : Nat) := a k % 2 ^ 64
  let block := [lo 0, lo 1, lo 2, lo 3, lo 4, lo 5, lo 6, (base + poolAt s) % 2 ^ 64] ++
    (upFrom 0 4).map (fun d => sluiceSize (s.pkg * 4 + d)) ++ [part.retryNs, 0, 0, 0]
  let s := (upFrom (s.pkg * 4) 4).foldl reserveSluice s
  let s := mapPages die (a 0) [recWord r 26, recWord r 26 + 127, recWord r 25, recWord r 25 + 63] (base + tablesOff) s
  let s := writeVirt p 40 s (recWord r 26) 128 (packBits 64 block)
  let frame := (base + supFrameOff) / 8192
  reportUnspared (supervisorTask (linkFrame s frame) r p core frame) p

-- DESIGN CHOICE, log 32. Unsafe.
/-- Another partition holds a cluster or host queue of the record. -/
def recTaken (s : State) (r : List Nat) : Bool :=
  let p := recPart r
  (partOf s p).exists_ ||
    s.parts.any fun q => q.2.exists_ && q.1 != p &&
      (q.2.clusters.toNat &&& recClusters r != 0 ||
        (recCount r != 0 && q.2.queueCount != 0 &&
          decide (recFirst r < q.2.queueFirst + q.2.queueCount) && decide (q.2.queueFirst < recFirst r + recCount r)))

-- DESIGN CHOICE, log 84. Unsafe.
/-- The supervisor can be bound: its die's base link is up, its millwright core runs, and the core's table has room. -/
def supervisorRoom (s : State) (r : List Nat) : Bool :=
  let core := recSupCore s r
  baseUp s (dieOf core) && firmwareRuns s (dieOf core) && (freeEntryOf s core).isSome

-- DESIGN CHOICE, log 84. Unsafe.
-- DESIGN CHOICE, log 32. Unsafe.
/-- PARTITION_CREATE: the next record of the management queue, when it creates, or has no version or op that is
supported (R380); it waits while its supervisor cannot be bound. -/
def execPartitionCreate (s : State) : Out :=
  .next <| match nextRecord s with
    | none => s
    | some r =>
      let v1 := bitsOf (recWord r 0) 63 56 == 1
      if v1 && (recOp r = 2 || recOp r = 3) then s
      else if !v1 || recOp r ≠ 1 then endRecord s 1
      else if !recFields r then endRecord s 5
      else if recTaken s r then endRecord s 2
      else if recWord r 24 < partBytes s (recWord r 5) || (freePlace s (dieOf (recSupCore s r)) (recWord r 24)).isNone then
        endRecord s 4
      else if !supervisorRoom s r then s
      else endRecord (createPartition s r) 0

/-- Every task of a partition, by core and entry. -/
def partTasks (s : State) (p : Nat) : List (Nat × Nat) :=
  s.cores.flatMap fun q => (q.2.tasks.filter fun t => t.2.part == p).map fun t => (q.1, t.1)

/-- Every launch and task of a partition is killed (R380). -/
def killPartition (s : State) (p : Nat) : State :=
  let s := (((liveLaunches s).filter fun l => l.part == p).map Launch.token).foldl killLaunch s
  (partTasks s p).foldl (fun s q => endTask s q.1 q.2 .killed) s

/-- Doorbells off, memory and clusters free, and no translation of it left (R380). -/
def freePartition (s : State) (p : Nat) : State :=
  let r := partOf s p
  let s := (upFrom r.queueFirst r.queueCount).foldl (fun s q =>
    setQueue s q { queueOf s q with part := 0, enabled := false }) s
  dispatchAll { s with
    parts := SMap.drop s.parts p
    barriers := s.barriers.filter fun q => q.1 / 2 ^ 40 != p
    clusters := SMap.mapOn {} (fun _ x => { x with tlb := x.tlb.filter fun e => e.tag != p }) s.clusters
    mail := s.mail.filter fun m => m.part != p }

-- DESIGN CHOICE, log 84. Unsafe.
/-- Nothing of a partition runs any more: no task, and no copy command. -/
def partGone (s : State) (p : Nat) : Bool :=
  (partTasks s p).isEmpty && s.cores.all fun q => q.2.copyQ.all fun c => c.part != p

/-- PARTITION_DESTROY: what the partition runs is killed, and once all of it has ended the partition is gone (R380). -/
def execPartitionDestroy (s : State) : Out :=
  .next <| match nextRecord s with
    | none => s
    | some r =>
      if bitsOf (recWord r 0) 63 56 ≠ 1 || recOp r ≠ 2 then s
      else if !recZeros r then endRecord s 5
      else if !(partOf s (recPart r)).exists_ then endRecord s 3
      else
        let s := killPartition s (recPart r)
        if partGone s (recPart r) then endRecord (freePartition s (recPart r)) 0 else s

/-- A core where a slice runs keeps the aging setting it has until that slice ends (R380). -/
def keepAging (s : State) (p : Nat) : State :=
  { s with cores := SMap.mapOn {} (fun c x =>
      if inPart s p (clusterOf c) && x.cur.isSome && x.aging.isNone then { x with aging := some (partOf s p).aging } else x) s.cores }

/-- PARTITION_SET: words 3, 4 and 5 alone (R380). -/
def execPartitionSet (s : State) : Out :=
  .next <| match nextRecord s with
    | none => s
    | some r =>
      if bitsOf (recWord r 0) 63 56 ≠ 1 || recOp r ≠ 3 then s
      else if !(partOf s (recPart r)).exists_ then endRecord s 3
      else if !recTimes r || !recZeros r then endRecord s 5
      else if (partOf s (recPart r)).poolCap < recWord r 5 then endRecord s 4
      else endRecord (modPart (keepAging s (recPart r)) (recPart r) fun p =>
        { p with sliceUs := if bitsOf (recWord r 3) 31 0 = 0 then 2000 else bitsOf (recWord r 3) 31 0
                 aging := bitOf (recWord r 3) 32
                 grace := if recWord r 4 = 0 then 4096 else recWord r 4
                 poolFrames := recWord r 5 }) 0

end Sys2Proof.Machine
end

