-- ==== Sys2Proof/Machine/Reliability.lean ====
section
/-! DEFINITION. Errors and repair (R389 to R394), links (R382, R395 to R397), dies out of service
(R398, R399), firmware (R384), bring-up and power (R412 to R415). -/

namespace Sys2Proof.Machine

/-! Records to partitions. -/

-- DESIGN CHOICE, log 36. Safe.
/-- A record of kind 4, 5 or 6 goes to every partition's ring; the unit field of kinds 5 and 6 is not stated. -/
def logAll (s : State) (kind number : Nat) : State :=
  (s.parts.filter fun p => p.2.exists_).foldl (fun s p =>
    logError s p.1 kind (if kind = 4 then 6 else Config.pick (s.tick * 2 ^ 80) % 8) number 0 0 0 0 []) s

/-! Images (R384). -/

-- DESIGN CHOICE, log 7. Safe.
/-- An image that the root of trust loads: a format version it reads, hash and signature right, and no version
below the fused counter. -/
def imageOk (i : FwImage) : Bool :=
  i.fmt == 1 && Config.sha256 i.body == i.hash && Config.rsaVerify i.fmt i.ver i.hash i.sig && decide (Config.rollback ≤ i.ver)

/-- An image of the store, by its number there (R8). -/
def storedImage (s : State) (n : Nat) : FwImage := s.store.get {} n

-- DESIGN CHOICE, log 43. Unsafe.
/-- What the store's owner has put there since a boot last read it (none: nothing). -/
def placeImage (s : State) (n : Nat) (img : Option FwImage) : State :=
  match img with
  | none => s
  | some i => { s with store := SMap.set {} s.store n i }

def placeImages (s : State) : Nat → List (Option FwImage) → State
  | _, [] => s
  | n, img :: rest => placeImages (placeImage s n img) (n + 1) rest

/-- What a report says of an image that is loaded (R384). -/
def noteImage (s : State) (n : Nat) (i : FwImage) : State :=
  { s with images := SMap.set none s.images n (if imageOk i then some (Config.sha256 i.body, i.ver) else none) }

/-! Dies out of service. -/

/-- A link trains in a new epoch (R382, R397). -/
def retrain (x : Link) (version : Nat) (features : BitVec 32) : Link :=
  { x with up := true, version := version, features := features, epoch := x.epoch + 1, rxSeq := 0, txSeq := 0
           replay := [], credits := [], fails := 0, nacks := 0, nackSlack := 0, out := [] }

/-- A link that is down carries nothing. -/
def downLink (x : Link) : Link :=
  { x with up := false, out := [], replay := [], waiting := [], fails := 0, nacks := 0, nackSlack := 0 }

-- DEDUCED, log 41. Unsafe.
/-- The UCIe links of a die to the other compute dies, by number (R7, R393). -/
def dieLinks (d : Nat) : List Nat := [36 + d % 4 / 2, 38 + d % 4 % 2]

-- DEDUCED, log 34. Unsafe.
/-- Tasks on a lost die that have not retired are reported failed, those still to be bound there too (R385). -/
def loseTasks (s : State) (d : Nat) : State :=
  let s := (s.cores.filter fun p => dieOf p.1 == d).foldl (fun s p =>
    (p.2.tasks.map Prod.fst).foldl (fun s b => endTask s p.1 b .lost) s) s
  s.launches.foldl (fun s l =>
    ((upFrom 0 (launchCount l)).filter fun i => unplaced l i && dieOf (l.placed.getD i 0) == d).foldl
      (fun s i => reportTask s l.token i .lost) s) s

-- DEDUCED, log 34. Unsafe.
/-- A die becomes unreachable: its barriers fail and a kind 5 record is written (R191, R398). -/
def dieOut (s : State) (d : Nat) : State :=
  logAll (failBarriers (modDie s d fun x => { x with up := false, outAt := s.ord }) d) 5 (d % 4)

-- DEDUCED, log 41. Unsafe.
-- DEDUCED, log 34. Unsafe.
/-- A link is down: a die whose links to the other dies are all down is lost (R191, R385, R398). -/
def linkLost (s : State) (link : Nat) : State :=
  (upFrom (s.pkg * 4) 4).foldl (fun s d =>
    if (dieSt s d).up && (dieLinks d).contains link && (dieLinks d).all fun l => !(linkSt s l).up
    then dieOut (loseTasks s d) d else s) s

/-! Repair requests (R393, R394). -/

/-- The next entry of a partition's repair ring: its four words. -/
def nextRepair (s : State) (p : Nat) : Option (List Nat) :=
  let r := partOf s p
  let k := r.repairHead % 1024
  if !r.exists_ || (readWord s r.repairTail).toNat % 1024 = k then none
  else some (splitBits 64 4 (readBytes s (r.repairRing + 32 * k) 32))

def repairKind (r : List Nat) : Nat := if bitsOf (r.getD 0 0) 63 56 = 1 then bitsOf (r.getD 0 0) 7 0 else 0

/-- The next entry is read at its home slice, with the tail word, and passed (R313, R393). -/
def takeRepair (s : State) (p : Nat) : State :=
  let r := partOf s p
  let s := noteSlice (noteSlice s (dramTarget r.repairTail)) (dramTarget (r.repairRing + 32 * (r.repairHead % 1024)))
  modPart s p fun r => { r with repairHead := (r.repairHead + 1) % 1024 }

/-- The sector a request names: its die and offset. -/
def repairSector (s : State) (r : List Nat) : Nat × Nat :=
  let w := r.getD 1 0
  (s.pkg * 4 + bitsOf w 61 60, bitsOf w 35 0 / 128 * 128)

-- DEDUCED, log 55. Safe.
/-- A sector that a partition's table maps, with the compression attribute of the page at `va` (R310, R327). -/
def sectorTarget (s : State) (p d off va : Nat) : Target :=
  let t := dramTarget (dramBase d + off)
  match walkTable s p va with
  | .page level e => { t with cmp := (target s.pkg va level e).cmp }
  | .bad _ _ => t

/-- A request on a sector that the partition's table maps (status 3 where it does not); the table is read at its home
slices. -/
def onSector (s : State) (p : Nat) (r : List Nat) (act : Nat → Nat → Target → State → Nat × State) : State :=
  let (d, off) := repairSector s r
  let s := noteTables (takeRepair s p) p
  let ranges := leavesFrom s (dramBase d + off) 128 4 (partOf s p).root 3 0
  let (st, s) := match ranges with
    | [] => (3, s)
    | v :: _ => act d off (sectorTarget s p d off v.1) s
  repairOutcome s p 4 (d % 4 * 2 ^ 60 + off) 128 st ranges

def listFull (s : State) (d : Nat) : Bool := decide (1024 ≤ (dieSt s d).repairs.length)
def addRepair (s : State) (d off p : Nat) (fuse : Bool) : State :=
  modDie s d fun x => { x with repairs := x.repairs ++ [(off, p, fuse)] }

/-- REPAIR_PIN: kind 1, and any entry of an unsupported version or kind (R393). -/
def execRepairPin (part : Nat) (s : State) : Out :=
  .next <| match nextRepair s part with
    | none => s
    | some r =>
      match repairKind r with
      | 1 => onSector s part r fun d off t s =>
          match pinSector s t with
          | (0, s') => if listFull s d then (4, s) else (0, addRepair s' d off part false)
          | p => p
      | 2 => s
      | 3 => s
      | 4 => s
      | 5 => s
      | _ => repairOutcome (takeRepair s part) part (Config.pick (s.tick * 2 ^ 80) % 8) 0 0 7 []

/-- REPAIR_FUSE: kind 2, the sector pinned at once and its row entered in the pending list (R394). -/
def execRepairFuse (part : Nat) (s : State) : Out :=
  .next <| match nextRepair s part with
    | none => s
    | some r =>
      if repairKind r ≠ 2 then s
      else onSector s part r fun d off t s =>
        if (dieSt s d).repairs.any fun e => e.1 == off && e.2.2 then (1, s)
        else if listFull s d then (4, s)
        else match pinSector s t with
          | (2, s) => (2, s)
          | (_, s) => (0, addRepair s d off part true)

/-- REPAIR_UNPIN: kind 3, the pin and its place in the list released (R394). -/
def execRepairUnpin (part : Nat) (s : State) : Out :=
  .next <| match nextRepair s part with
    | none => s
    | some r =>
      if repairKind r ≠ 3 then s
      else onSector s part r fun d off t s =>
        let (st, s) := unpinSector s t
        (st, modDie s d fun x => { x with repairs := x.repairs.filter fun e => !(e.1 == off && !e.2.2) })

/-- LINK_INJECTOR_SET: kind 5 (R396). -/
def execLinkInjectorSet (part : Nat) (s : State) : Out :=
  .next <| match nextRepair s part with
    | none => s
    | some r =>
      if repairKind r ≠ 5 then s
      else
        let k := bitsOf (r.getD 1 0) 5 0
        let v := r.getD 2 0
        let bad := decide (43 < k) || bitsOf v 60 58 != 0 || bitsOf v 62 61 == 3
        let s := takeRepair s part
        let s := if bad then s else modLink s k fun x => { x with injector := BitVec.ofNat 64 v, armedAt := x.sent }
        repairOutcome s part 6 0 0 (if bad then 7 else 0) []

/-! Warm reset of a die (R399). -/

/-- The partition holds all 32 clusters of a die. -/
def holdsDie (s : State) (p d : Nat) : Bool := (upFrom (d * 32) 32).all fun c => inPart s p c

-- DESIGN CHOICE, log 35. Unsafe.
/-- The die has stopped: every task has left its slots and been reported saved (R399 step 1), and its copy engines,
prefetches and journals have no work left. -/
def dieQuiet (s : State) (d : Nat) : Bool :=
  (s.cores.all fun p => dieOf p.1 != d || (p.2.cur.isNone && p.2.swap.isNone && p.2.accJobs.isEmpty && p.2.copyQ.isEmpty &&
    p.2.pfrs.isEmpty && p.2.journal.all fun q => q.2.state != 1)) &&
    (ctxList s).all fun p => dieOf p.2.core != d || !p.2.saving

/-- A line of a die that stops: its copies dropped, a dirty sector written back, and no sector held that is not
pinned (R399 step 3). -/
def stopLine (n : Nat) (s : State) (l : SLine) : State :=
  let s := (sharerClusters s.pkg l.sharers).foldl (fun s c => dropClusterLine s c l.line) s
  touchWatch ((upFrom 0 2).foldl (fun s k =>
    if l.pinned.getLsbD k then writeBack s n l k else releaseSector s n l k) s) l.line

/-- The cluster caches of a die are dropped, and its clusters are sharers of nothing that they held (R308, R399). -/
def dropCaches (s : State) (d : Nat) : State :=
  let s := s.clusters.foldl (fun s p => if dieOfCluster p.1 = d then p.2.cache.foldl (fun s l => unshare s p.1 l.line) s else s) s
  { s with clusters := SMap.mapOn {} (fun k x => if dieOfCluster k = d then { x with cache := [], expander := [] } else x) s.clusters }

/-- What a die's slices hold. -/
def dieLines (s : State) (d : Nat) : List (Nat × SLine) :=
  (s.slices.filter fun p => p.1 / 64 == d).flatMap fun p => p.2.lines.map fun l => (p.1, l)

/-- Step 3 (R399): write-backs and back-invalidations, its own cluster caches dropped, pins kept. -/
def writeBackDie (s : State) (d : Nat) : State :=
  let mine := dieLines s d
  let pins := mine.flatMap fun p =>
    ((upFrom 0 2).filter fun k => p.2.pinned.getLsbD k).map fun k => p.2.line * 256 + 128 * k
  let s := dropCaches (mine.foldl (fun s p => stopLine p.1 s p.2) s) d
  modDie { s with slices := SMap.mapOn {} (fun k x => if k / 64 = d then { x with lines := [] } else x) s.slices } d
    fun x => { x with resetStep := 4, pinsKept := x.pinsKept ++ pins }

/-- Step 4 (R399): its links go down and it is unreachable; it waits for its reset. -/
def linksDown (s : State) (d : Nat) : State :=
  dieOut ((dieLinks d ++ [40 + d % 4]).foldl (fun s l => modLink s l downLink) (modDie s d fun x => { x with resetStep := 5 })) d

-- DEDUCED, log 41. Unsafe.
/-- Between two dies, in both directions, nothing is on its way (R7, R398); what waits for a change of route is not. -/
def drained (s : State) (a b : Nat) : Bool :=
  let on (x y n : Nat) : Bool := ((x == a && y == b) || (x == b && y == a)) && !routeWaits s x y n
  let passed : List Nat := [nextDie s a b, nextDie s b a].filter fun x => x != a && x != b
  (s.reqs.all fun r => match r.target with
    | some t => !on (dieOf r.core) (targetDie t) r.ord
    | none => true) &&
  (s.wreqs.all fun r => !on (dieOf r.core) (flatDie (winFlat r.addr.toNat)) r.ord) &&
  (s.cores.all fun p => p.2.journal.all fun q => q.2.state != 1 ||
    (journalDests q.2).all fun cl => !on (dieOf p.1) (dieOfCluster cl) q.2.ord) &&
  (s.net.all fun m => !on (dieOf m.src) (dieOf m.dst) m.ord) &&
  (s.rets.all fun r => match ctxOf s r.frame with
    | some x => !(dieOf x.core == a || dieOf x.core == b)
    | none => true) &&
  s.caps.all fun c => !(passed.contains c.die && (c.dest.isNone || c.enter) && !(dieSt s c.die).closed)

/-- The two dies whose route passes a die: its neighbours on the horizontal and the vertical link (R7). -/
def crossing (d : Nat) : Nat × Nat := (d / 4 * 4 + (d % 4 ^^^ 1), d / 4 * 4 + (d % 4 ^^^ 2))

/-- Traffic between other dies has left the die: their route has changed, or one of them is out (R399 step 2). -/
def routesMoved (s : State) (d : Nat) : Bool :=
  let p := crossing d
  s.detours.contains p || !(dieSt s p.1).up || !(dieSt s p.2).up

/-- The die's own traffic, and what passes it, is done (R399 step 2). -/
def quiesced (s : State) (d : Nat) : Bool :=
  routesMoved s d && ((upFrom (d / 4 * 4) 4).filter (· != d)).all fun o => !(dieSt s o).up || drained s d o

-- DEDUCED, log 37. Unsafe.
/-- The next step of a die's warm reset, where the one it is in has ended: up to its links going down (R399). -/
def resetNext (s : State) (d : Nat) : Option State :=
  match (dieSt s d).resetStep with
  | 1 => if dieQuiet s d then some (modDie s d fun x => { x with resetStep := 2, outAt := s.ord }) else none
  | 2 => if quiesced s d then some (modDie s d fun x => { x with resetStep := 3 }) else none
  | 3 => some (writeBackDie s d)
  | 4 => some (if (dieLines s d).isEmpty then linksDown s d else writeBackDie s d)
  | _ => none

-- DEDUCED, log 37. Unsafe.
-- DEDUCED, log 34. Unsafe.
/-- WARM_RESET: a warm reset that is under way takes its next step; else the next entry of the repair ring, if of kind 4,
is accepted or refused (R393, R399). -/
def execWarmReset (part : Nat) (s : State) : Out :=
  .next <|
    match (upFrom (s.pkg * 4) 4).findSome? (resetNext s) with
    | some t => t
    | none => match nextRepair s part with
      | none => s
      | some r =>
        if repairKind r ≠ 4 then s
        else
          let d := s.pkg * 4 + bitsOf (r.getD 1 0) 1 0
          let s := takeRepair s part
          let out (st : Nat) := repairOutcome s part (Config.pick (s.tick * 2 ^ 80) % 8) 0 0 st []
          if !holdsDie s part d then out 6
          else if (dieSt s d).halted || !(dieSt s d).up then out 1
          else modDie s d fun x => { x with halted := true, resetStep := 1 }

-- DESIGN CHOICE, log 35. Unsafe.
/-- A reset of the die's own arrays: cluster memory in cache-way mode and its core-local memory cleared, caches, TLBs,
banks and accumulators empty, the queues, journals and counts of its message engines and its copy queues empty, every
`sys.lfsr` and every counter at its reset value (R86, R316); a port counts the stores of such a core anew. What its
millwright core keeps of tasks and their frames stays. -/
def resetArrays (s : State) (d : Nat) : State :=
  let out (k : Nat) : Bool :=
    let r := k / 2 ^ 64
    !(decide (2 ^ 23 ≤ r ∧ r < 2 ^ 24) && dieOf (r - 2 ^ 23) == d) && !(decide (2 ^ 24 ≤ r) && dieOfCluster (r - 2 ^ 24) == d)
  { s with
    mem := s.mem.filter fun p => out p.1
    full := s.full.filter fun p => out (8 * p.1)
    poison := s.poison.filter fun p => out (8 * p.1)
    clusters := SMap.mapOn {} (fun k x => if dieOfCluster k = d then { clock := x.clock, hot := x.hot }
      else { x with applied := x.applied.filter fun a => dieOf a.1 != d }) s.clusters
    caps := s.caps.map fun q => { q with holder := q.holder.filter fun c => dieOf c != d }
    ctxs := SMap.mapOn none (fun _ o => o.map fun x => if dieOf x.core = d then { x with served := none } else x) s.ctxs
    slices := SMap.mapOn {} (fun k x => if k / 64 = d then { x with counters := [], corrected := 0 } else x) s.slices
    lfsr := s.lfsr.filter fun p => dieOf (p.1 / 16) != d
    cores := SMap.mapOn {} (fun k x => if dieOf k = d then
      { table := x.table, tasks := x.tasks, cur := x.cur, aging := x.aging, sliceUs := x.sliceUs, grace := x.grace
        sliceAt := x.sliceAt } else x) s.cores }

-- DESIGN CHOICE, log 38. Safe.
/-- Pins reinstated at home slices (R315, R399). -/
def repin (s : State) (flats : List Nat) : State :=
  flats.foldl (fun s a => (pinSector s (dramTarget a)).2) s

-- DESIGN CHOICE, log 38. Safe.
-- DESIGN CHOICE, log 11. Safe.
/-- An entry of the pending list, beside the rows that this reset has replaced: a pin stays; a row takes one of its
bank's 4 spares and leaves the list; one that finds none becomes a pin, still to be reported (R394). -/
def applyRepair (p : Die × List (Nat × Nat)) (e : Nat × Nat × Bool) : Die × List (Nat × Nat) :=
  let row := Config.dramRow e.1
  let used := SMap.get 0 p.1.spares row.1
  if !e.2.2 then ({ p.1 with repairs := p.1.repairs ++ [e] }, p.2)
  else if p.2.contains row then p
  else if used < 4 then ({ p.1 with spares := SMap.set 0 p.1.spares row.1 (used + 1) }, row :: p.2)
  else ({ p.1 with repairs := p.1.repairs ++ [(e.1, e.2.1, false)], unspared := p.1.unspared ++ [(e.1, e.2.1)] }, p.2)

/-- Stage 3: pending rows are replaced while there are spares; a row without a spare, and every pin of the list,
is pinned (R315, R394). -/
def applyRepairs (s : State) (d : Nat) : State :=
  let x := ((dieSt s d).repairs.foldl applyRepair ({ dieSt s d with repairs := [] }, [])).1
  repin (modDie s d fun _ => x) (x.repairs.map fun e => dramBase d + e.1)

-- DESIGN CHOICE, log 38. Safe.
-- DEDUCED, log 37. Unsafe.
-- DESIGN CHOICE, log 35. Unsafe.
/-- DIE_READMIT: a die held in warm reset loads its firmware from the store, applies its pending repairs and rejoins, once
the traffic on the route that returns has drained (R7, R394, R399 steps 5 and 6, R412). -/
def execDieReadmit (die : Nat) (img : Option FwImage) (s : State) : Out :=
  .next <|
    let s := placeImage s (1 + die % 4) img
    let d := dieSt s die
    let img := storedImage s (1 + die % 4)
    let route := crossing die
    if d.resetStep ≠ 5 then s
    else if !imageOk img then noteImage (modDie s die fun x => { x with loaded := false }) (1 + die % 4) img
    else if s.detours.contains route && !drained s route.1 route.2 then s
    else
      let s := noteImage (resetArrays s die) (1 + die % 4) img
      let s := modDie s die fun x =>
        { x with up := true, loaded := true, image := img.ver, resetStep := 0, halted := false, closed := false, pinsKept := [] }
      let s := (dieLinks die ++ [40 + die % 4]).foldl (fun s l => modLink s l fun x => retrain x 2 x.features) s
      let s := { s with detours := s.detours.filter (· != route) }
      let s := if s.parts.any fun p => p.2.exists_ then reserveSluice s die else s
      let s := logAll (repin (applyRepairs s die) d.pinsKept) 6 (die % 4)
      let s := ((s.parts.filter fun p => p.2.exists_).map Prod.fst).foldl reportUnspared s
      let s := match s.parts.find? fun p => holdsDie s p.1 die with
        | some p => repairOutcome s p.1 (Config.pick (s.tick * 2 ^ 80 + 1) % 8) 0 0 0 []
        | none => s
      (s.cores.map Prod.fst).foldl (fun s c => if dieOf c = die then dispatchFree s c else s) (serveQueues s)

/-! Links (R382, R395 to R397). -/

/-- The 256 bits of a flit (R382). -/
def flitBits (seq : BitVec 12) (f : FlitOut) : BitVec 256 :=
  let up : BitVec 224 := seq ++ f.chan ++ f.type ++ (0 : BitVec 13) ++ f.payload
  up ++ Config.crc32 up

-- DESIGN CHOICE, log 78. Unsafe.
/-- Types that take a sequence number and are kept for replay: all but idle, ack and nack. -/
def numbered (type : BitVec 4) : Bool := type != 0 && type != 3

-- DESIGN CHOICE, log 78. Unsafe.
/-- Types that take a credit of their channel: request, data, barrier and control. -/
def takesCredit (type : BitVec 4) : Bool := numbered type && type != 5

/-- A flit may go: its channel has a credit and the replay buffer has room (R382). -/
def mayEmit (x : Link) (f : FlitOut) : Bool :=
  !numbered f.type || (decide (x.replay.length < 512) && (!takesCredit f.type || decide (0 < SMap.get 0 x.credits f.chan.toNat)))

/-- A flit goes out. -/
def emitFlit (x : Link) (f : FlitOut) : Link :=
  let w := flitBits x.txSeq f
  if !numbered f.type then { x with out := x.out ++ [w], sent := x.sent + 1 }
  else { x with
    out := x.out ++ [w], sent := x.sent + 1, replay := x.replay ++ [w], txSeq := x.txSeq + 1
    credits := if takesCredit f.type then SMap.set 0 x.credits f.chan.toNat (SMap.get 0 x.credits f.chan.toNat - 1) else x.credits }

/-- Flits go out in turn, and those that may not, or come after one of their channel that may not, wait; an ack or a nack
never does. -/
def pumpFlits : List FlitOut → Link → Link
  | [], x => x
  | f :: rest, x =>
    if mayEmit x f && !(numbered f.type && x.waiting.any fun w => w.chan == f.chan && takesCredit w.type == takesCredit f.type)
    then pumpFlits rest (emitFlit x f)
    else pumpFlits rest { x with waiting := x.waiting ++ [f] }

/-- What waits is tried again. -/
def pumpWaiting (x : Link) : Link := pumpFlits x.waiting { x with waiting := [] }

/-- A flit is handed to a port. -/
def sendFlit (s : State) (k : Nat) (f : FlitOut) : State := modLink s k (pumpFlits [f])

-- DESIGN CHOICE, log 78. Unsafe.
/-- An ack or nack flit that names a sequence number, and a flit that gives a channel one credit (R382). -/
def ackFlit (nack : Bool) (seq : BitVec 12) : FlitOut := { chan := 1, type := 3, payload := Config.ackPayload nack seq }
-- DESIGN CHOICE, log 78. Unsafe.
def creditFlit (chan : BitVec 3) : FlitOut := { chan := chan, type := 5, payload := Config.creditPayload }

/-- The flits from a sequence number on. -/
def fromSeq (seq : BitVec 12) (l : List (BitVec 256)) : List (BitVec 256) := l.dropWhile fun f => f.extractLsb' 244 12 != seq

/-- The partner has every flit up to a sequence number. -/
def ackedTo (x : Link) (seq : BitVec 12) : Link :=
  if x.replay.any fun f => f.extractLsb' 244 12 == seq then
    pumpWaiting { x with replay := (fromSeq seq x.replay).drop 1, nacks := 0, nackSlack := 0 }
  else x

-- DEDUCED, log 40. Unsafe.
/-- The partner asks for a replay from a sequence number: go-back-N (R382, R395). Each flit that was on its way behind the
one that failed brings a nack of the same number too, and is no failed replay. -/
def replayFrom (x : Link) (seq : BitVec 12) : Link :=
  let again := fromSeq seq x.replay
  if x.nackSeq = seq ∧ 0 < x.nackSlack then { x with nackSlack := x.nackSlack - 1 }
  else { x with
    nackSeq := seq, nacks := if x.nackSeq = seq then x.nacks + 1 else 1, nackSlack := again.length - 1
    out := x.out ++ again, sent := x.sent + again.length }

-- DESIGN CHOICE, log 78. Unsafe.
/-- What an accepted flit does (R382): a request, data, barrier or control flit of a channel in use is delivered, and
answered with an ack and its credit; an ack, a nack or a credit acts on what the port sends. -/
def takeFlit (s : State) (k : Nat) (f : BitVec 256) : State :=
  let chan := f.extractLsb' 241 3
  let type := f.extractLsb' 237 4
  let seq := f.extractLsb' 244 12
  let pay := f.extractLsb' 32 192
  let s := modLink s k fun x => { x with rxSeq := if numbered type then seq + 1 else seq, fails := 0 }
  let s := if numbered type then sendFlit s k (ackFlit false seq) else s
  if type = 3 then
    let a := Config.ackRead pay
    modLink s k fun x => if a.1 then replayFrom x a.2 else ackedTo x a.2
  else if type = 5 then
    modLink s k fun x => pumpWaiting { x with
      credits := SMap.set 0 x.credits chan.toNat (SMap.get 0 x.credits chan.toNat + Config.creditRead pay) }
  else if takesCredit type && chan.toNat < 5 && type.toNat < 7 then
    sendFlit (modLink s k fun x => { x with inbox := x.inbox ++ [f] }) k (creditFlit chan)
  else s

-- DEDUCED, log 40. Unsafe.
/-- A flit that is not the one awaited: one more failure of the number awaited, where it is the first or a replay has
begun again; one that comes further behind the flit that failed is none (R395). -/
def countFail (x : Link) (seq got : BitVec 12) : Link :=
  let dist := (got - seq).toNat
  { x with
    failSeq := seq, failDist := dist
    fails := if x.failSeq ≠ seq || x.fails = 0 then 1 else if dist ≤ x.failDist then x.fails + 1 else x.fails }

-- DESIGN CHOICE, log 7. Safe.
/-- FLIT_ARRIVAL: a flit of the link's epoch with its CRC right and its sequence number next is delivered; one
of an earlier epoch is discarded; any other is answered with a nack (R382, R395, R397). -/
def execFlitArrival (link epoch : Nat) (flit : BitVec 256) (s : State) : Out :=
  .next <|
    let x := linkSt s link
    if !x.up || epoch ≠ x.epoch then s
    else
      let good := Config.crc32 (flit.extractLsb' 32 224) == flit.extractLsb' 0 32 && flit.extractLsb' 224 13 == 0 &&
        flit.extractLsb' 244 12 == x.rxSeq
      if good then takeFlit s link flit
      else sendFlit (modLink s link fun x => countFail x x.rxSeq (flit.extractLsb' 244 12)) link (ackFlit true x.rxSeq)

/-- NACK_REPLAY: a nack names a sequence number; the port replays from it, go-back-N (R382, R395). -/
def execNackReplay (link : Nat) (seq : BitVec 12) (s : State) : Out :=
  .next <|
    let x := linkSt s link
    if !x.up then s
    else modLink s link fun x => replayFrom x seq

-- DEDUCED, log 40. Unsafe.
/-- LINK_DOWN: a sequence number has failed eight replays in a row: the link goes down, with a kind 4 record (R395). -/
def execLinkDown (link : Nat) (s : State) : Out :=
  .next <|
    let x := linkSt s link
    if !x.up || (x.fails < 9 && x.nacks < 9) then s
    else linkLost (logAll (modLink s link downLink) 4 link) link

-- DESIGN CHOICE, log 78. Unsafe.
/-- A link trains with what its partner offers: the lower of the two versions with the features both offer, in a new
epoch; a partner below version 1 is not brought up (R382, R397). -/
def trainLink (s : State) (link version : Nat) (features : BitVec 32) : State :=
  if version < 1 then linkLost (modLink s link downLink) link
  else modLink s link fun x => retrain x (min 2 version) (features &&& Config.linkFeatures link)

-- DESIGN CHOICE, log 87. Safe.
/-- LINK_TRAINING: once the stages that train links have begun (R412), a link trains, and what waited for it goes on. -/
def execLinkTraining (link version : Nat) (features : BitVec 32) (s : State) : Out :=
  .next (if s.stage < 5 then s else serveQueues (trainLink s link version features))

/-! The injector (R396). -/

-- DESIGN CHOICE, log 39. Unsafe.
/-- The lanes of a link: four of a Faloz Link port. -/
def laneCount (link : Nat) : Nat := if link < 36 then 4 else max 1 (Config.uciLanes link)

-- DESIGN CHOICE, log 39. Unsafe.
/-- The flit that an injector fires on, by its number among those the link has sent: the n-th of its lane after arming,
the flits of a link taking its lanes in turn. -/
def injectAt (link : Nat) (x : Link) : Nat :=
  let v := x.injector.toNat
  let l := laneCount link
  x.armedAt + (bitsOf v 57 52 % l + l - x.armedAt % l) % l + l * (max 1 (bitsOf v 31 0) - 1)

/-- An armed injector's flit has been sent. -/
def injectorDue (link : Nat) (x : Link) : Bool := bitOf x.injector.toNat 63 && decide (injectAt link x < x.sent)

/-- What it does to the flit at a place of the link: a bit inverted, the flit gone, or later by so many flits. -/
def inject (v k : Nat) (out : List (BitVec 256)) : List (BitVec 256) :=
  match out[k]? with
  | none => out
  | some f => match bitsOf v 62 61 with
    | 0 => out.set k (f ^^^ BitVec.ofNat 256 (2 ^ bitsOf v 39 32))
    | 1 => out.eraseIdx k
    | _ =>
      let rest := out.drop (k + 1)
      out.take k ++ rest.take (bitsOf v 51 40) ++ [f] ++ rest.drop (bitsOf v 51 40)

-- DESIGN CHOICE, log 39. Unsafe.
/-- INJECTOR_FIRE: an armed injector fires on its flit, once that has been sent, and is disarmed; a flit that is no longer
on the link is past its reach (R396). -/
def execInjectorFire (link : Nat) (s : State) : Out :=
  .next <|
    let x := linkSt s link
    let v := x.injector.toNat
    let past := x.sent - injectAt link x
    if !injectorDue link x then s
    else modLink s link fun x => { x with
      injector := BitVec.ofNat 64 (putBits v 63 63 0)
      out := if past ≤ x.out.length then inject v (x.out.length - past) x.out else x.out }

/-- ROUTE_CHANGE: once the old route has drained in both directions, the route between two diagonal dies leaves a die that
is out of service or stopping, or returns to R7 (R398, R399). -/
def execRouteChange (src dst : Nat) (s : State) : Out :=
  .next <|
    if src / 4 ≠ dst / 4 || src % 2 = dst % 2 || src / 2 = dst / 2 then s
    else match (routeOf false (src % 4) (dst % 4)).2 with
      | none => s
      | some x =>
        let d := dieSt s (src / 4 * 4 + x)
        let up := d.up && !linkClosed s (src / 4 * 4 + x)
        if !drained s src dst then s
        else if !up && !s.detours.contains (src, dst) then { s with detours := s.detours ++ [(src, dst)] }
        else if up then { s with detours := s.detours.filter (· != (src, dst)) }
        else s

-- DESIGN CHOICE, log 36. Safe.
/-- CORRECTED_ERROR_THRESHOLD: `count` more corrected errors of a core or slice; a kind 2 record where the total
crosses a multiple of 4,096 (R390). The array of a core is not stated. -/
def execCorrectedErrorThreshold (slice : Bool) (unit count : Nat) (s : State) : Out :=
  .next <|
    let crossed (a : Nat) : Bool := a / 4096 != (a + count) / 4096
    if slice then
      let old := (sliceSt s unit).corrected.toNat
      let s := modSlice s unit fun x => { x with corrected := x.corrected + BitVec.ofNat 64 count }
      if crossed old then
        (s.parts.filter fun p => (upFrom (unit / 64 * 32) 32).any fun c => inPart s p.1 c).foldl (fun s p =>
          logError s p.1 2 3 (unit / 64 % 4 * 2 ^ 60) 128 0 0 (old + count) []) s
      else s
    else
      let old := (coreOf s unit).corrected.toNat
      let s := modCore s unit fun x => { x with corrected := x.corrected + BitVec.ofNat 64 count }
      if crossed old then
        (s.parts.filter fun p => inPart s p.1 (clusterOf unit)).foldl (fun s p =>
          logError s p.1 2 (Config.pick (s.tick * 2 ^ 80) % 8) (dieOf unit % 4 * 2 ^ 60) 8 0 0 (old + count) []) s
      else s

/-! Power and bring-up (R412 to R415). -/

-- DEDUCED, log 42. Unsafe.
/-- An island is busy: one of its cores has a task in slot 0. -/
def islandBusy (s : State) (cl : Nat) : Bool := (upFrom (cl * 16) 16).any fun c => (coreOf s c).cur.isSome

def islands (s : State) : List Nat := upFrom (s.pkg * 128) 128

-- DEDUCED, log 42. Unsafe.
/-- GOVERNOR_TICK: every 10 µs, on the average of the last 1 ms; once that has passed 2,800 W, busy islands are lowered
until it falls below (R414). -/
def execGovernorTick (watts : Nat) (s : State) : Out :=
  .next <|
    let l := (watts :: s.power).take 100
    let avg := l.sum
    let lower := decide (2800 * l.length < avg) || (s.lowering && decide (2800 * l.length ≤ avg))
    let s := { s with power := l, lowering := lower }
    if lower then
      (islands s).foldl (fun s c => if islandBusy s c then
        modCluster (countCycles s c) c fun x => { x with clock := max 6 (x.clock - 1) } else s) s
    else if avg < 2700 * l.length then
      (islands s).foldl (fun s c => if (clusterSt s c).clock < 36 then
        modCluster (countCycles s c) c fun x => { x with clock := x.clock + 1 } else s) s
    else s


-- DEDUCED, log 42. Unsafe.
/-- THERMAL_THROTTLE: a junction has passed 105 °C (R415). -/
def execThermalThrottle (cluster : Nat) (s : State) : Out :=
  .next (modCluster (countCycles s cluster) cluster fun x => { x with hot := true })

-- DEDUCED, log 42. Unsafe.
/-- JUNCTION_BELOW_95C: the island runs at the governor's setting again (R415). -/
def execJunctionBelow95c (cluster : Nat) (s : State) : Out :=
  .next (modCluster (countCycles s cluster) cluster fun x => { x with hot := false })

-- DESIGN CHOICE, log 43. Unsafe.
/-- Memory outside a package: the host's, the tier devices', and that of other packages' dies. -/
def outsideRegion (pkg flat : Nat) : Bool :=
  let r := flat / 2 ^ 64
  decide (r < 2 ^ 23) && (decide (4096 ≤ r) || r / 4 != pkg)

-- DESIGN CHOICE, log 43. Unsafe.
/-- What it holds, where agents outside have changed it behind a held sector too (R309). -/
def outsideMem (s : State) : List Host.Cell := (s.behind.foldl putBehind s.mem).filter fun p => outsideRegion s.pkg p.1

-- DESIGN CHOICE, log 43. Unsafe.
/-- What outlasts a reset: the package's number, memory outside it, the firmware store, the pending repair lists and the
spare rows used, the rings the host has placed, what its partners offer, and the schedule. -/
def coldState (s : State) : State :=
  { State.reset with
    pkg := s.pkg, mem := outsideMem s, poison := s.poison.filter fun p => outsideRegion s.pkg (8 * p.1)
    partners := s.partners, podNumber := s.podNumber
    sched := s.sched, turn := s.turn, tick := s.tick, store := s.store
    dies := SMap.mapOn {} (fun _ d => { repairs := d.repairs, spares := d.spares, unspared := d.unspared }) s.dies
    queues := (s.queues.map fun p => (p.1, { base := p.2.base, log2 := p.2.log2 })).filter fun p => p.2 != {} }

/-- THERMAL_SHUTDOWN: the module removes its own power (R415). -/
def execThermalShutdown (s : State) : Out := .next { coldState s with powered := false }

-- DESIGN CHOICE, log 87. Safe.
/-- The package takes the number that pod training gives it (R382), which names its dies from then on. -/
def renumber (s : State) : State :=
  { s with
    pkg := s.podNumber
    mem := s.mem.filter fun p => outsideRegion s.podNumber p.1
    poison := s.poison.filter fun p => outsideRegion s.podNumber (8 * p.1)
    dies := s.dies.foldl (fun m p => SMap.set {} m (s.podNumber * 4 + p.1 % 4) p.2) [] }

-- DESIGN CHOICE, log 87. Safe.
/-- A read of BAR0 at an offset: zero until stage 6 begins, and beside the doorbells in its first 512 KiB (R381, R412). -/
def bar0Read (s : State) (off : Nat) : Word :=
  if s.stage < 6 || (decide (off < 2 ^ 19) && off % 8 != 0) then 0 else Config.bar0Word off

-- DESIGN CHOICE, log 43. Unsafe.
-- DESIGN CHOICE, log 38. Safe.
/-- POWER_ON_RESET: the stages of R412 in order; an image that fails its checks leaves its die, or the package,
unloaded (R384). -/
def execPowerOnReset (chief d0 d1 d2 d3 : Option FwImage) (s : State) : Out :=
  .next <|
    let s := placeImages (coldState s) 0 [chief, d0, d1, d2, d3]
    let chief := storedImage s 0
    if !imageOk chief then { s with stage := 1 }
    else
      let s := renumber s
      let imgs := (upFrom 0 4).map fun d => (d, storedImage s (1 + d))
      let die (d : Nat) := s.pkg * 4 + d
      let s := imgs.foldl (fun s p => modDie s (die p.1) fun x =>
        { x with up := imageOk p.2, loaded := imageOk p.2, image := if imageOk p.2 then p.2.ver else 0 }) s
      let ok := (imgs.filter fun p => imageOk p.2).map Prod.fst
      let s := ok.foldl (fun s d => applyRepairs s (die d)) s
      let ends : List (Nat × List Nat) :=
        [(36, [0, 1]), (37, [2, 3]), (38, [0, 2]), (39, [1, 3]), (40, [0]), (41, [1]), (42, [2]), (43, [3])]
      let s := ends.foldl (fun s p => if p.2.all fun d => ok.contains d
        then modLink s p.1 fun x => { x with up := true, version := 2, epoch := 1 } else s) s
      let s := s.partners.foldl (fun s p => if p.1 < 36 then trainLink s p.1 p.2.1 p.2.2 else s) s
      let s := setQueue s 0 { queueOf s 0 with enabled := true }
      { (upFrom 0 5).foldl (fun s n => noteImage s n (storedImage s n)) s with stage := 6, chief := chief.ver }

/-- ATTESTATION_REQUEST: a report of the loaded images' measurements and versions and the verifier's nonce, signed
with the device's key (R384). -/
def execAttestationRequest (nonce : BitVec 256) (s : State) : Out :=
  let loaded := s.images.filterMap Prod.snd
  .next { s with report := some (loaded, nonce, Config.deviceSign loaded nonce) }

end Sys2Proof.Machine
end

