-- ==== Sys2Proof/Machine/SysInstr.lean ====
section
/-! DEFINITION. Thread engine: system registers, segments, services and time (R173 to R177), and
translation maintenance (R336 to R339). -/

namespace Sys2Proof.Machine

/-- `sys.trctl` (R116). -/
def trctlWord (x : Cluster) : Nat :=
  x.trHead.toNat * 2 ^ 32 + (if x.trEn then 2 ^ 31 else 0) + (if x.trStop then 2 ^ 30 else 0) +
    (if x.trFull then 2 ^ 29 else 0) + x.trIdx.toNat * 2 ^ 16 + x.trCount.toNat

/-- A system register's value for a context (R173). -/
def sysRead (s : State) (f : Nat) (x : Ctx) (n : Nat) : Nat :=
  let cl := clusterSt s (clusterOf x.core)
  match n with
  | 0x000 => statusOf s f
  | 0x001 => (readFrame s f wTvec).toNat
  | 0x002 => (readFrame s (ctxTask s x).ctl wEngbind).toNat
  | 0x003 => (readFrame s f wTscr).toNat
  | 0x004 => (readFrame s f wCtxid).toNat
  | 0x008 => (readFrame s f wEpc).toNat
  | 0x009 => (readFrame s f wEcode).toNat
  | 0x00A => (readFrame s f wEaddr).toNat
  | 0x00B => (readFrame s f wEinst0).toNat
  | 0x00C => (readFrame s f wEinst1).toNat
  | 0x00D => (readFrame s f wEstat).toNat
  | 0x010 => (lfsrOf s x.core x.slot).toNat
  | 0x018 => (ctxTask s x).cfill.toNat
  | 0x020 => trctlWord cl
  | 0x021 => fld (SMap.get 0 cl.trace cl.trIdx.toNat) 127 64
  | 0x022 => fld (SMap.get 0 cl.trace cl.trIdx.toNat) 63 0
  | _ => 0

/-- Registers above task privilege (R173). -/
def sysPrivileged (n : Nat) : Bool := [0x020, 0x021, 0x022].contains n
/-- Registers that are read-only to every context that may read them (R173). -/
def sysReadOnly (n : Nat) : Bool := [0x004, 0x009, 0x00A, 0x00B, 0x00C, 0x00D, 0x021, 0x022].contains n

/-- The frame word that holds a system register, of the control context for `sys.engbind` (R118, R119). -/
def sysWord (s : State) (f : Nat) (x : Ctx) (n : Nat) : Option (Nat × Nat) :=
  match n with
  | 0x000 => some (f, wStatus)
  | 0x001 => some (f, wTvec)
  | 0x002 => some ((ctxTask s x).ctl, wEngbind)
  | 0x003 => some (f, wTscr)
  | 0x004 => some (f, wCtxid)
  | _ => if 8 ≤ n ∧ n ≤ 13 then some (f, wEpc + (n - 8)) else none

/-- RDSYS (R174). -/
def execRdsys (w : RWord) (s : State) : Out :=
  withIssue (.rdsys w) w.hdr [] s fun f s =>
    match ctxOf s f with
    | none => s
    | some x =>
      if sysPrivileged w.imm.toNat && !supervisor s f then trapNow 0x05 1 0 f s
      else match (sysWord s f x w.imm.toNat).filter fun p => wordMarked s p.1 p.2 with
        | some p => registerPoison f p.2 s
        | none => finishReg w.hdr w.d (sysRead s f x w.imm.toNat) f s

/-- WRSYS of a register without a row of its own (R173, R174, R297). -/
def execWrsys (w : RWord) (s : State) : Out :=
  withIssue (.wrsys w) w.hdr [w.a] s fun f s =>
    match ctxOf s f with
    | none => s
    | some x =>
      let n := w.imm.toNat
      let v := BitVec.ofNat 64 (readReg s f w.a)
      if (sysPrivileged n && !supervisor s f) || sysReadOnly n then trapNow 0x05 1 0 f s
      else finish w.hdr f (match n with
        | 0x001 => writeFrame s f wTvec v
        | 0x003 => writeFrame s f wTscr v
        | 0x008 => writeFrame s f wEpc v
        | 0x018 => modTask s x.core x.bind fun t => { t with cfill := v }
        | _ => s)

/-- WRSYS of `sys.status`: pmask, while inh is set (R122, R126). -/
def execStatusPmaskWrite (w : RWord) (s : State) : Out :=
  withIssue (.statusPmaskWrite w) w.hdr [w.a] s fun f s =>
    let st := statusOf s f
    let s := if stInh st then setStatus s f 4 4 (bitsOf (readReg s f w.a) 4 4) else s
    unmask st f (finish w.hdr f s)

/-- WRSYS of `sys.engbind` (R34, R35): by the control context alone; a change of the matrix binding waits
for the operation in flight. -/
def execEngbindWrite (w : RWord) (s : State) : Out :=
  withIssue (.engbindWrite w) w.hdr [w.a] s fun f s =>
    if !isControl s f then trapNow 0x05 1 0 f s
    else
      let old := (readFrame s f wEngbind).toNat
      let new := readReg s f w.a &&& 0x8F8F
      let c := coreOf s s.iss.core
      if bitsOf old 15 8 != bitsOf new 15 8 && (c.mx.isSome || c.wk.isSome) then hold .retry f s
      else finish w.hdr f (writeFrame s f wEngbind (BitVec.ofNat 64 new))

/-- WRSYS of `sys.lfsr`: zero stores 1 (R86, R174). -/
def execLfsrWrite (w : RWord) (s : State) : Out :=
  withIssue (.lfsrWrite w) w.hdr [w.a] s fun f s =>
    match ctxOf s f with
    | none => s
    | some x =>
      let v := BitVec.ofNat 32 (readReg s f w.a)
      finish w.hdr f (setLfsr s x.core x.slot (if v = 0 then 1 else v) x.twin.isSome)

/-- WRSYS of `sys.trctl` (R116). -/
def execTrctlWrite (w : RWord) (s : State) : Out :=
  withIssue (.trctlWrite w) w.hdr [w.a] s fun f s =>
    if !supervisor s f then trapNow 0x05 1 0 f s
    else
      let v := readReg s f w.a
      finish w.hdr f (modCluster s (clusterOf s.iss.core) fun x =>
        let start := bitOf v 31 && !x.trEn
        { x with
          trEn := bitOf v 31
          trStop := bitOf v 30
          trIdx := BitVec.ofNat 10 (bitsOf v 25 16)
          trFull := if start || bitOf v 29 then false else x.trFull
          trHead := if start then 0 else x.trHead
          trCount := if start then 0 else x.trCount })

/-- SEGGET (R175). -/
def execSegget (w : RWord) (s : State) : Out :=
  withIssue (.segget w) w.hdr [w.a] s fun f s =>
    let g := readSeg s f (idx w.a)
    finishReg w.hdr w.d (match w.imm.toNat with
      | 0 => g.base.toNat
      | 1 => g.limit.toNat
      | _ => g.attr.toNat) f s

/-- The segment SEGSET stores: reserved fields ignored, fe with kind 0 stored as 0 (R3, R175). -/
def storedSeg (base limit attr : Nat) : Seg :=
  let a := bitsOf attr 25 16 * 2 ^ 16 + bitsOf attr 5 0
  { base := BitVec.ofNat 64 base, limit := BitVec.ofNat 64 limit
    attr := BitVec.ofNat 32 (if bitsOf attr 25 24 = 0 then putBits a 4 4 0 else a) }

/-- A segment is a subset of a held valid one (R129). -/
def segSubset (new old : Seg) : Bool :=
  old.attr.getLsbD 0 && segKind new == segKind old && decide (old.base.toNat ≤ new.base.toNat) &&
    decide (new.base.toNat + new.limit.toNat ≤ old.base.toNat + old.limit.toNat) &&
    hasRights old (fld new.attr 5 0)

/-- A supervisor's segment lies within the partition's memory (R175). -/
def segInPartition (g : Seg) : Bool :=
  let z := g.base.toNat + g.limit.toNat
  match segKind g with
  | 0 => decide (z ≤ 2 ^ 57)
  | 1 => decide (z ≤ 2 ^ 18)
  | 2 => decide (z ≤ 2 ^ 22)
  | _ => decide (0xFD * 2 ^ 56 ≤ g.base.toNat) && decide (z ≤ 0xFE * 2 ^ 56)

/-- A SEGSET at task privilege of a valid segment is compared with every segment register (R129). -/
def segsetCompares (s : State) (w : RWord) : Bool :=
  match issuer s with
  | some f => !supervisor s f && (storedSeg (readReg s f w.a) (readReg s f w.b) (readReg s f w.c)).attr.getLsbD 0
  | none => false

/-- SEGSET (R129, R175). -/
def execSegset (w : RWord) (s : State) : Out :=
  withIssue (.segset w) w.hdr ([w.a, w.b, w.c] ++ if segsetCompares s w then segSpecs else []) s fun f s =>
    let g := storedSeg (readReg s f w.a) (readReg s f w.b) (readReg s f w.c)
    let ok := !g.attr.getLsbD 0 ||
      (if supervisor s f then segInPartition g else (upFrom 0 8).any fun k => segSubset g (readSeg s f k))
    if ok then finish w.hdr f (writeSeg s f (idx w.d) g) else trapNow 0x05 3 0 f s

/-- SVC (R176): the message is posted once every earlier access is performed, and the context parks; on a skip it goes on
past the instruction, or past its pair (R54). -/
def execSvc (w : RWord) (s : State) : Out :=
  withIssue (.svc w) w.hdr [w.a] s fun f s =>
    match ctxOf s f with
    | none => s
    | some x =>
      if !allPerformed s x.core f then hold .retry f s
      else
        let s := postMail s (ctxPart s x) (ctxIdent s f) s.iss.pc (BitVec.ofNat 64 (w.imm.toNat * 2 ^ 32))
          (BitVec.ofNat 64 (readReg s f w.a))
        modCtx (finish w.hdr f s) f fun x => { x with park := some (.svc s.iss.pc s.iss.next w.d s.iss.word) }

/-- RDTIME (R177). -/
def execRdtime (w : RWord) (s : State) : Out :=
  withIssue (.rdtime w) w.hdr [] s fun f s => finishReg w.hdr w.d s.time.toNat f s

/-! Translation maintenance. -/

/-- An entry maps a byte of the range (R337). -/
def tlbOverlaps (e : TlbEntry) (lo len : Nat) : Bool :=
  decide (0 < len) && decide (e.va < lo + len) && decide (lo < e.va + 2 ^ levelShift e.level)

/-- The cores in a drop's scope (R337). -/
def dropScope (s : State) (d : TlbDrop) (c : Nat) : Bool :=
  levelInst c d.scope == levelInst d.core d.scope && inPart s d.part (clusterOf c)

-- DEDUCED, log 45. Safe.
/-- An `.addr` drop with the ranges of the entries that it will drop (R337). -/
def noteSpans (s : State) (d : TlbDrop) : TlbDrop :=
  let mine (l : List TlbEntry) := (l.filter fun e => tlbOverlaps e d.lo d.len).map fun e => (e.va, 2 ^ levelShift e.level)
  { d with spans := if d.mode ≠ 0 then [] else
      (s.cores.flatMap fun p => if dropScope s d p.1 then mine p.2.utlb else []) ++
        s.clusters.flatMap fun p => if dropScope s d (p.1 * 16) then mine (p.2.tlb.filter fun e => e.tag == d.part) else [] }

/-- TLBINV (R336, R337): waits for the context's earlier accesses, then for the drop in every TLB in scope. -/
def execTlbinv (w : RWord) (s : State) : Out :=
  withIssue (.tlbinv w) w.hdr [w.a, w.b] s fun f s =>
    match ctxOf s f with
    | none => s
    | some x =>
      if !supervisor s f then trapNow 0x05 2 0 f s
      else match x.wait with
        | some (.request o) => if s.drops.any fun d => d.ord == o then block (.request o) f s else finish w.hdr f s
        | _ =>
          if !allPerformed s x.core f then block .retry f s
          else
            let len := src s f w.b w.imm
            let d := noteSpans s { ord := s.ord, frame := f, scope := qScope w.qual, core := x.core, part := ctxPart s x,
                                   mode := if fnOf w.hdr = 0 && 2 ^ 40 ≤ len then 2 else fnOf w.hdr,
                                   lo := readReg s f w.a, len := len }
            block (.request s.ord) f { s with drops := s.drops ++ [d], ord := s.ord + 1 }

/-- A drop reaches a core's micro-TLB entry or a cluster's (R337). -/
def dropsMicro (s : State) (d : TlbDrop) (c : Nat) (e : TlbEntry) : Bool :=
  match d.mode with
  | 0 => tlbOverlaps e d.lo d.len
  | 1 => match slotCtxId s c e.tag with
    | some id => id == d.lo
    | none => false
  | _ => true
where
  /-- `sys.ctxid` of the context in a slot. -/
  slotCtxId (s : State) (c k : Nat) : Option Nat :=
    (slotOf s c k).act.frame.map fun f => (ctxIdent s f).toNat

/-- An access is within one of the ranges. -/
def inSpans (r : Req) (l : List (Nat × Nat)) : Bool :=
  l.any fun p => decide (0 < p.2) && decide (r.addr.toNat < p.1 + p.2) && decide (p.1 < r.addr.toNat + r.size)

-- DEDUCED, log 45. Safe.
/-- An access in scope that used an entry to be dropped, or a copy row in hand of the partition that was translated, is
still to be performed (R337). -/
def dropBusy (s : State) (d : TlbDrop) : Bool :=
  (s.reqs.any fun r => r.target.isSome && dropScope s d r.core && (d.mode != 0 || inSpans r ((d.lo, d.len) :: d.spans))) ||
    s.cores.any fun p => dropScope s d p.1 && p.2.copyQ.any fun q => q.part == d.part && q.hand.isSome &&
      !(d.mode == 0 && d.len == 0)

/-- TLB_DROP_COMPLETE: the n-th drop is made in every TLB of the partition in its scope, once every access
translated through a dropped entry has been performed (R337). -/
def execTlbDropComplete (n : Nat) (s : State) : Out :=
  .next <| match s.drops[n]? with
    | none => s
    | some d =>
      let inScope (c : Nat) : Bool := dropScope s d c
      if dropBusy s d then s
      else
        { s with
          drops := s.drops.eraseIdx n
          cores := SMap.mapOn {} (fun c x => if inScope c
            then { x with utlb := x.utlb.filter fun e => !dropsMicro s d c e } else x) s.cores
          clusters := SMap.mapOn {} (fun cl x => if inScope (cl * 16)
            then { x with tlb := x.tlb.filter fun e =>
              !(e.tag == d.part && (d.mode == 2 || (d.mode == 0 && tlbOverlaps e d.lo d.len))) } else x) s.clusters }

/-- The result word of TLBQ (R338). -/
def tlbqWord (s : State) (part va : Nat) : Nat :=
  if bitsOf va 63 57 != 0 then 3 * 2 ^ 9 + 5 * 2 ^ 4
  else match walkTable s part va with
    | .bad c level => level * 2 ^ 9 + c * 2 ^ 4
    | .page level e =>
      let unit := match pteTgt e with
        | 1 => 0
        | 2 => ptePort e
        | _ => pteDie e
      (pteTa e + va % 2 ^ levelShift level / 2 ^ 16) % 2 ^ 44 * 2 ^ 16 + pteTgt e * 2 ^ 13 + unit * 2 ^ 11 + level * 2 ^ 9 + 1

/-- The walk of a TLBQ reads its entries at their home slices (R326, R338). -/
def tlbqNote (s : State) (part va : Nat) : State := if bitsOf va 63 57 != 0 then s else noteWalk s part va

/-- TLBQ (R338). -/
def execTlbq (w : RWord) (s : State) : Out :=
  withIssue (.tlbq w) w.hdr [w.a] s fun f s =>
    match ctxOf s f with
    | none => s
    | some x =>
      if !supervisor s f then trapNow 0x05 2 0 f s
      else finishLong w.hdr w.d (tlbqWord s (ctxPart s x) (readReg s f w.a)) f (tlbqNote s (ctxPart s x) (readReg s f w.a))

end Sys2Proof.Machine
end

