-- ==== Sys2Proof/Machine/Vector.lean ====
section
/-! DEFINITION. The vector engine (R208 to R236). -/

namespace Sys2Proof.Machine

/-! Elements, masks and operands (R208 to R210). -/

/-- Element `e` of a register of `w`-bit elements. -/
def lane (w x e : Nat) : Nat := x / 2 ^ (w * e) % 2 ^ w

/-- Whether the mask bit is set, as `pn` reads it (R209). -/
def maskAt (s : State) (f : Nat) (h : Hdr) : Nat → Bool :=
  let p := readReg s f (pSpec h.pg.toNat)
  fun i => maskBit p i h.pn

/-- `n` lanes of `w` bits, lane `e` active with mask bit `stride * e`; an inactive lane keeps its old value. -/
def mapLanes (w stride n : Nat) (mask : Nat → Bool) (old : Nat) (g : Nat → Nat) : Nat :=
  packBits w ((upFrom 0 n).map fun e => if mask (stride * e) then g e else lane w old e)

/-- Element `e` of operand b, or the one value every element reads (R210). -/
def operandB (s : State) (f w : Nat) (spec : BitVec 8) (imm : BitVec 32) : Nat → Nat :=
  let x := src s f spec imm
  if isV spec then lane w x else fun _ => x % 2 ^ w

def rndOf (q : BitVec 8) : Rnd := { rm := qRm q, sat := qSat q, ftz := qFtz q }

/-- The mask as bits. -/
def maskBits (s : State) (f : Nat) (h : Hdr) : Nat := readReg s f (pSpec h.pg.toNat) ^^^ (if h.pn then 2 ^ 128 - 1 else 0)

/-- What an element-by-element instruction reads. -/
def laneReads (n : Nat) (specs : List (BitVec 8)) (_ : Nat) (_ : State) (m : Nat) : List Nat := specs.flatMap (activeWords n m)

/-- What an instruction of `n`-bit elements reads whole once one of them is active. -/
def wholeReads (n : Nat) (specs : List (BitVec 8)) (_ : Nat) (_ : State) (m : Nat) : List Nat := wholeIf (someLane n m) specs

/-- Write a register and complete; a poisoned word that is written in part stays so (R387). -/
def finishPart (h : Hdr) (d : BitVec 8) (whole : Nat → Bool) (v f : Nat) (s : State) : State :=
  finish h f (keepMarks s f d whole (writeReg s f d v))

/-- A short instruction that writes the active elements, `g` giving the new bits of one from its number. -/
def laneBody (i : Instr) (w : RWord) (reads : Nat → State → Nat → List Nat) (s : State) (g : Nat → State → Nat → Nat) : Out :=
  withVector i w.hdr reads s fun f s =>
    let n := tyWidth (tyOf w.hdr)
    finishPart w.hdr w.d (laneWords true n (maskBits s f w.hdr)).contains
      (mapLanes n (n / 8) (1024 / n) (maskAt s f w.hdr) (readReg s f w.d) (g f s)) f s

/-- The same, element by element. -/
def laneOp (i : Instr) (w : RWord) (specs : List (BitVec 8)) (s : State) (g : Nat → State → Nat → Nat) : Out :=
  laneBody i w (laneReads (tyWidth (tyOf w.hdr)) specs) s g

/-- The same with operands a and b. -/
def laneOp2 (i : Instr) (w : RWord) (s : State) (g : Nat → Nat → Nat) : Out :=
  laneOp i w [w.a, w.b] s fun f s =>
    let n := tyWidth (tyOf w.hdr)
    let a := readReg s f w.a
    let b := operandB s f n w.b w.imm
    fun e => g (lane n a e) (b e)

/-- The active lanes' parts of a register, for a long result (R211). -/
def laneWrites (spec : BitVec 8) (w stride n : Nat) (mask : Nat → Bool) (g : Nat → Nat) : List RegWrite :=
  ((upFrom 0 n).filter fun e => mask (stride * e)).map fun e =>
    { spec := spec, lo := w * e, width := w, val := g e }

/-- A long element-by-element instruction. -/
def laneLong (i : Instr) (w : RWord) (specs : List (BitVec 8)) (s : State)
    (g : Nat → State → Nat → Nat) : Out :=
  let n := tyWidth (tyOf w.hdr)
  withVector i w.hdr (laneReads n specs) s fun f s =>
    if !someLane n (maskBits s f w.hdr) then finish w.hdr f s
    else withEntry w.d 0 f s fun e s =>
      finish w.hdr f (sendResult s f e (laneWrites w.d n (n / 8) (1024 / n) (maskAt s f w.hdr) (g f s)) [])

/-! Arithmetic (R213 to R218). -/

/-- An operation on the real and imaginary parts of two complex elements, or on two real elements. -/
def sumLane (ty : Nat) (r : Rnd) (minus : Bool) (a b : Nat) : Nat :=
  let real (t x y : Nat) : Nat :=
    let p := fmtOf t
    let v := decodeF r.ftz p y
    roundNow p r (addNum (r.rm == 2) (decodeF r.ftz p x) (if minus then negNum v else v))
  if tyInt ty then intCode ty r.sat (if minus then asInt ty a - asInt ty b else asInt ty a + asInt ty b)
  else if tyC ty then
    let t := partType ty
    let k := tyWidth t
    real t (a % 2 ^ k) (b % 2 ^ k) + real t (a / 2 ^ k) (b / 2 ^ k) * 2 ^ k
  else real ty a b

/-- VMUL (R213): each complex part is one rounding of its exact sum of two products. -/
def mulLane (ty : Nat) (r : Rnd) (a b : Nat) : Nat :=
  if tyInt ty then intCode ty r.sat (asInt ty a * asInt ty b)
  else if tyC ty then
    let p := fmtOf (partType ty)
    let k := p.width
    let v (x : Nat) : Num := decodeF r.ftz p (x % 2 ^ k)
    let rdn := r.rm == 2
    let re := addNum rdn (mulNum (v a) (v b)) (negNum (mulNum (v (a / 2 ^ k)) (v (b / 2 ^ k))))
    let im := addNum rdn (mulNum (v a) (v (b / 2 ^ k))) (mulNum (v (a / 2 ^ k)) (v b))
    roundNow p r re + roundNow p r im * 2 ^ k
  else
    let p := fmtOf ty
    roundNow p r (mulNum (decodeF r.ftz p a) (decodeF r.ftz p b))

/-- VFMA (R214). -/
def fmaLane (ty : Nat) (r : Rnd) (a b c : Nat) : Nat :=
  if tyInt ty then intCode ty r.sat (asInt ty a * asInt ty b + asInt ty c)
  else
    let p := fmtOf ty
    roundNow p r (addNum (r.rm == 2) (mulNum (decodeF r.ftz p a) (decodeF r.ftz p b)) (decodeF r.ftz p c))

/-- VMIN and VMAX (R213). -/
def pickLane (ty : Nat) (ftz greater : Bool) (a b : Nat) : Nat :=
  if tyInt ty then
    (if greater then (if asInt ty b ≤ asInt ty a then a else b)
     else (if asInt ty a ≤ asInt ty b then a else b))
  else pickF (fmtOf ty) ftz greater a b

-- DEDUCED, log 44. Unsafe.
/-- VABS (R217). -/
def absLane (ty : Nat) (sat neg : Bool) (a : Nat) : Nat :=
  let w := tyWidth ty
  if tyInt ty then
    let x := asInt ty a
    intCode ty (sat && tySigned ty) (if neg then -x else (x.natAbs : Int))
  else if neg then (a ^^^ 2 ^ (w - 1)) else a % 2 ^ (w - 1)

def execVadd (w : RWord) (s : State) : Out := laneOp2 (.vadd w) w s (sumLane (tyOf w.hdr) (rndOf w.qual) false)
def execVsub (w : RWord) (s : State) : Out := laneOp2 (.vsub w) w s (sumLane (tyOf w.hdr) (rndOf w.qual) true)
def execVmul (w : RWord) (s : State) : Out := laneOp2 (.vmul w) w s (mulLane (tyOf w.hdr) (rndOf w.qual))

/-- VFMA (R214). -/
def execVfma (w : RWord) (s : State) : Out :=
  laneOp (.vfma w) w [w.a, w.b, w.c] s fun f s =>
    let n := tyWidth (tyOf w.hdr)
    let a := readReg s f w.a
    let b := operandB s f n w.b w.imm
    let c := readReg s f w.c
    fun e => fmaLane (tyOf w.hdr) (rndOf w.qual) (lane n a e) (b e) (lane n c e)

/-- VDIV (R215). -/
def execVdiv (w : RWord) (s : State) : Out :=
  laneLong (.vdiv w) w [w.a, w.b] s fun f s =>
    let n := tyWidth (tyOf w.hdr)
    let p := fmtOf (tyOf w.hdr)
    let r := rndOf w.qual
    let a := readReg s f w.a
    let b := operandB s f n w.b w.imm
    fun e => roundNow p r (divNum (decodeF r.ftz p (lane n a e)) (decodeF r.ftz p (b e)))

/-- VSQRT (R215). -/
def execVsqrt (w : RWord) (s : State) : Out :=
  laneLong (.vsqrt w) w [w.a] s fun f s =>
    let n := tyWidth (tyOf w.hdr)
    let p := fmtOf (tyOf w.hdr)
    let r := rndOf w.qual
    let a := readReg s f w.a
    fun e => roundNow p r (sqrtNum (decodeF r.ftz p (lane n a e)))

/-- The form of VRCP, VRSQ, VEXP2 and VLOG2 (R216). -/
def boundedLanes (i : Instr) (op : Nat) (w : RWord) (s : State) : Out :=
  laneOp i w [w.a] s fun f s =>
    let n := tyWidth (tyOf w.hdr)
    let a := readReg s f w.a
    fun e => boundedOp op (tyOf w.hdr) (qSat w.qual) (qFtz w.qual) (lane n a e)

def execVrcp (w : RWord) (s : State) : Out := boundedLanes (.vrcp w) 0x86 w s
def execVrsq (w : RWord) (s : State) : Out := boundedLanes (.vrsq w) 0x87 w s
def execVexp2 (w : RWord) (s : State) : Out := boundedLanes (.vexp2 w) 0x88 w s
def execVlog2 (w : RWord) (s : State) : Out := boundedLanes (.vlog2 w) 0x89 w s

def execVmin (w : RWord) (s : State) : Out := laneOp2 (.vmin w) w s (pickLane (tyOf w.hdr) (qFtz w.qual) false)
def execVmax (w : RWord) (s : State) : Out := laneOp2 (.vmax w) w s (pickLane (tyOf w.hdr) (qFtz w.qual) true)

-- DEDUCED, log 44. Unsafe.
/-- VABS and VABS.neg (R217). -/
def execVabs (w : RWord) (s : State) : Out :=
  laneOp (.vabs w) w [w.a] s fun f s =>
    let n := tyWidth (tyOf w.hdr)
    let a := readReg s f w.a
    fun e => absLane (tyOf w.hdr) (qSat w.qual) (qExtra w.qual == 1) (lane n a e)

/-- The verdict of one element of VCMP (R218). -/
def cmpLane (ty : Nat) (ftz : Bool) (c a b : Nat) : Bool :=
  if tyInt ty then condInt c (asInt ty a) (asInt ty b)
  else condNum c (decodeF ftz (fmtOf ty) a) (decodeF ftz (fmtOf ty) b)

/-- VCMP (R218): the w/8 bits of each active element of p[d]. -/
def execVcmp (w : RWord) (s : State) : Out :=
  let ty := tyOf w.hdr
  let n := tyWidth ty
  withVector (.vcmp w) w.hdr (laneReads n [w.a, w.b]) s fun f s =>
    let a := readReg s f w.a
    let b := operandB s f n w.b w.imm
    finishPart w.hdr w.d (fun k => (upFrom (512 / n * k) (512 / n)).all (laneOn n (maskBits s f w.hdr)))
      (mapLanes (n / 8) (n / 8) (1024 / n) (maskAt s f w.hdr) (readReg s f w.d) fun e =>
        if cmpLane ty (qFtz w.qual) (qExtra w.qual) (lane n a e) (b e) then 2 ^ (n / 8) - 1 else 0) f s

/-- VSEL (R219). -/
def execVsel (w : RWord) (s : State) : Out :=
  let n := tyWidth (tyOf w.hdr)
  let reads (f : Nat) (s : State) (m : Nat) : List Nat :=
    wholeIf (someLane n m) [w.c] ++ activeWords n (m &&& readReg s f w.c) w.a ++
      activeWords n (m &&& (readReg s f w.c ^^^ (2 ^ 128 - 1))) w.b
  laneBody (.vsel w) w reads s fun f s =>
    let a := readReg s f w.a
    let b := operandB s f n w.b w.imm
    let c := readReg s f w.c
    fun e => if bitOf c (n / 8 * e) then lane n a e else b e

/-! Conversion and quantisation (R220, R221). -/

/-- The conversions of VCVT in ascending order of `i`, threading the rounding register (R85, R220): the
destination's lanes and the register. -/
def cvtLanes (st dt : Nat) (r : Rnd) (active : Nat → Bool) (from_ to_ : Nat → Nat) (a : Nat) :
    List Nat → Nat × BitVec 32 → Nat × BitVec 32
  | [], acc => acc
  | i :: rest, acc =>
    if active i then
      let x := lane (tyWidth st) a (from_ i)
      let y := if st = dt then (x, acc.2) else convert st dt r acc.2 x
      let w := tyWidth dt
      cvtLanes st dt r active from_ to_ a rest (putBits acc.1 (w * to_ i + w - 1) (w * to_ i) y.1, y.2)
    else cvtLanes st dt r active from_ to_ a rest acc

/-- The issuing slot's rounding register after an instruction (R86, R392). -/
def putLfsr (s : State) (f : Nat) (v : BitVec 32) : State :=
  if v = lfsrOf s s.iss.core s.iss.slot then s
  else setLfsr s s.iss.core s.iss.slot v (match ctxOf s f with
    | some x => x.twin.isSome
    | none => false)

/-- VCVT (R220). -/
def execVcvt (w : RWord) (s : State) : Out :=
  let st := fld w.imm 4 0
  let dt := tyOf w.hdr
  let ws := tyWidth st
  let wd := tyWidth dt
  let m := max ws wd
  let n := 1024 / m
  let p := fld w.imm 10 8
  let from_ (i : Nat) : Nat := if ws < wd then i + n * p else i
  let to_ (i : Nat) : Nat := if wd < ws then i + n * p else i
  let reads (_ : Nat) (_ : State) (k : Nat) : List Nat :=
    (((upFrom 0 n).filter (laneOn m k)).map fun i => (regWords w.a).1 + ws * from_ i / 64).eraseDups
  withVector (.vcvt w) w.hdr reads s fun f s =>
    let mask := maskAt s f w.hdr
    let out := cvtLanes st dt (rndOf w.qual) (fun i => mask (m / 8 * i)) from_ to_
      (readReg s f w.a) (upFrom 0 n) (readReg s f w.d, lfsrOf s s.iss.core s.iss.slot)
    let at_ (i : Nat) : Nat := wd * to_ i / 64
    let whole (k : Nat) : Bool :=
      decide (((upFrom 0 n).filter fun i => laneOn m (maskBits s f w.hdr) i && at_ i == k).length = 64 / wd)
    finishPart w.hdr w.d whole out.1 f (putLfsr s f out.2)

/-- A usable band scale is finite and greater than zero (R221). -/
def usableScale : Num → Bool
  | .rat neg n _ _ => !neg && decide (0 < n)
  | _ => false

def absNum : Num → Num
  | .nan => .rat false 0 1 0
  | .inf _ => .inf false
  | .rat _ n d e => .rat false n d e

def leNum (x y : Num) : Bool := condNum 3 x y
def quantLow : Num := .rat false 33 1 (-8)
def quantHigh : Num := .rat false 63 1 (-1)

/-- `amax / (6 * S)`. -/
def scaleRatio (amax sc : Num) : Num := divNum amax (mulNum (numOfInt 6) sc)
def inQuant (t : Num) : Bool := leNum quantLow t && leNum t quantHigh

/-- The smallest block scale code whose value is at least `t` (R76, R221). -/
def smallestCode (t : Num) : Nat :=
  ((upFrom 1 255).find? fun c => match blockScale c with
    | some v => leNum t v
    | none => false).getD 255

/-- The code and bsel of a block (R221). -/
def blockCode (amax s0 s1 : Num) : Nat × Nat :=
  if cmpNum amax (numOfInt 0) = some .eq || !usableScale s0 then (0, 0)
  else
    let t := scaleRatio amax s0
    if !inQuant t && usableScale s1 && inQuant (scaleRatio amax s1) then (smallestCode (scaleRatio amax s1), 1)
    else (smallestCode t, 0)

/-- The element codes of a block, threading the rounding register. -/
def quantBlock (rm : Nat) (unit : Num) : List Num → BitVec 32 → List Nat × BitVec 32
  | [], g => ([], g)
  | x :: rest, g =>
    let y := roundF (fmtOf 14) { rm := rm } g (divNum x unit)
    let z := quantBlock rm unit rest y.2
    (y.1 :: z.1, z.2)

/-- The eight blocks of VQF4: the 64 codes, the 8 block words and the register. -/
def quantRow (rm : Nat) (s0 s1 : Num) : Nat → List Num → BitVec 32 → List Nat × List Nat × BitVec 32
  | 0, _, g => ([], [], g)
  | n + 1, xs, g =>
    let x := (xs.take 8).map fun v => match v with
      | .nan => .rat false 0 1 0
      | v => v
    let amax := x.foldl (fun m v => if leNum m (absNum v) then absNum v else m) (numOfInt 0)
    let c := blockCode amax s0 s1
    let q := match blockScale c.1 with
      | none => (x.map fun _ => 0, g)
      | some v => quantBlock rm (mulNum v (if c.2 = 1 then s1 else s0)) x g
    let rest := quantRow rm s0 s1 n (xs.drop 8) q.2
    (q.1 ++ rest.1, (c.2 * 256 + c.1) :: rest.2.1, rest.2.2)

/-- VQF4 (R221). -/
def execVqf4 (w : RWord) (s : State) : Out :=
  let st := fld w.imm 4 0
  let ws := tyWidth st
  let at_ (k : Nat) : Nat := if ws = 8 then 64 * fld w.imm 8 8 + k else k
  let reads (_ : Nat) (_ : State) (m : Nat) : List Nat :=
    let on := (upFrom 0 64).filter fun k => bitOf m (ws / 8 * at_ k % 128)
    wholeIf (!on.isEmpty) [w.b] ++ (on.map fun k => (regWords w.a).1 + ws * at_ k / 64).eraseDups
  withVector (.vqf4 w) w.hdr reads s fun f s =>
    let mask := maskAt s f w.hdr
    let a := readReg s f w.a + (if ws = 32 then readReg s f (vSpec (idx w.a + 1)) * 2 ^ 1024 else 0)
    let active (k : Nat) : Bool := mask (ws / 8 * at_ k % 128)
    if (upFrom 0 64).any active then
      let g := readReg s f w.b
      let bf (x : Nat) : Num := decodeF false (fmtOf 10) (x % 2 ^ 16)
      let xs := (upFrom 0 64).map fun k =>
        if active k then numOf (qFtz w.qual) st (lane ws a (at_ k)) else .rat false 0 1 0
      let out := quantRow (qRm w.qual) (bf g) (bf (g / 2 ^ 16)) 8 xs (lfsrOf s s.iss.core s.iss.slot)
      let row := packBits 4 out.1 + packBits 16 out.2.1 * 2 ^ 256 + (fld w.imm 15 10 * 2 ^ 9) * 2 ^ 256
      let q := fld w.imm 9 9
      finishPart w.hdr w.d (fun k => k / 6 == q) (putBits (readReg s f w.d) (384 * q + 383) (384 * q) row) f
        (putLfsr s f out.2.2)
    else finish w.hdr f s

/-! Bit operations and lane movement (R222, R223, R227 to R230). -/

def bitLane (fn w a b : Nat) : Nat :=
  match fn with
  | 0 => a &&& b
  | 1 => a ||| b
  | 2 => a ^^^ b
  | 3 => a &&& (b ^^^ (2 ^ w - 1))
  | _ => a ^^^ (2 ^ w - 1)

/-- VBIT (R222). -/
def execVbit (w : RWord) (s : State) : Out :=
  laneOp2 (.vbit w) w s (bitLane (fnOf w.hdr) (tyWidth (tyOf w.hdr)))

def shiftLane (fn w a b : Nat) : Nat :=
  let n := shiftCount w b
  match fn with
  | 0 => a * 2 ^ n % 2 ^ w
  | 1 => a / 2 ^ n
  | _ => lowBits w (sextInt w a / 2 ^ n)

/-- VSH (R223). -/
def execVsh (w : RWord) (s : State) : Out :=
  laneOp2 (.vsh w) w s (shiftLane (fnOf w.hdr) (tyWidth (tyOf w.hdr)))

/-- VBCAST (R227). -/
def execVbcast (w : RWord) (s : State) : Out :=
  laneOp (.vbcast w) w [w.a] s fun f s =>
    let x := src s f w.a w.imm % 2 ^ tyWidth (tyOf w.hdr)
    fun _ => x

/-- VPERM (R228). -/
def execVperm (w : RWord) (s : State) : Out :=
  let n := tyWidth (tyOf w.hdr)
  laneBody (.vperm w) w (fun f s m => wholeReads n [w.a] f s m ++ laneReads n [w.b] f s m) s fun f s =>
    let a := readReg s f w.a
    let b := readReg s f w.b
    fun e => lane n a (lane n b e % (1024 / n))

/-- The patterns of VSHUF (R229). -/
def shufLane (pat k n w a b e : Nat) : Nat :=
  match pat with
  | 0 => lane w a ((e + k) % n)
  | 1 => if e + k < n then lane w a (e + k) else 0
  | 2 => if k ≤ e then lane w a (e - k) else 0
  | 3 => lane w (if e % 2 = 0 then a else b) (e / 2)
  | 4 => lane w (if e % 2 = 0 then a else b) (n / 2 + e / 2)
  | 5 => if e < n / 2 then lane w a (2 * e) else lane w b (2 * (e - n / 2))
  | 6 => if e < n / 2 then lane w a (2 * e + 1) else lane w b (2 * (e - n / 2) + 1)
  | 7 => lane w a (n - 1 - e)
  | _ => lane w a (e ^^^ 1)

/-- VSHUF (R229). -/
def execVshuf (w : RWord) (s : State) : Out :=
  let n := tyWidth (tyOf w.hdr)
  laneBody (.vshuf w) w (wholeReads n [w.a, w.b]) s fun f s =>
    let a := readReg s f w.a
    let b := readReg s f w.b
    shufLane (fld w.imm 3 0) (fld w.imm 15 8) (1024 / n) n a b

/-- VMOVX.ins (R230). -/
def execVmovxIns (w : RWord) (s : State) : Out :=
  let n := tyWidth (tyOf w.hdr)
  let e := fld w.imm 6 0
  withVector (.vmovxIns w) w.hdr (fun _ _ m => wholeIf (laneOn n m e) [w.a]) s fun f s =>
    if maskAt s f w.hdr (n / 8 * e) then
      finishPart w.hdr w.d (fun k => n == 64 && k == e) (putBits (readReg s f w.d) (n * e + n - 1) (n * e) (readReg s f w.a)) f s
    else finish w.hdr f s

/-- VMOVX.ext (R230). -/
def execVmovxExt (w : RWord) (s : State) : Out :=
  let n := tyWidth (tyOf w.hdr)
  let e := fld w.imm 6 0
  withVector (.vmovxExt w) w.hdr (fun _ _ m => if laneOn n m e then [(regWords w.a).1 + n * e / 64] else []) s fun f s =>
    if maskAt s f w.hdr (n / 8 * e) then finishReg w.hdr w.d (extend (tyOf w.hdr) (lane n (readReg s f w.a) e)) f s
    else finish w.hdr f s

/-! Reductions, rankings, dot products (R231 to R235). -/

/-- The operation of a reduction: 0 add, 1 min, 2 max (R91). -/
def reduceOp (fn ty : Nat) (r : Rnd) : Nat → Nat → Nat :=
  match fn with
  | 0 => sumLane ty r false
  | 1 => pickLane ty r.ftz false
  | _ => pickLane ty r.ftz true

/-- The identities of R91. -/
def reduceIdentity (fn ty : Nat) : Nat :=
  let w := tyWidth ty
  let p := fmtOf ty
  match fn with
  | 0 => if tyInt ty then 0 else signCode p true 0
  | 1 => if tyInt ty then lowBits w (tyMax ty) else infCode p
  | _ => if tyInt ty then lowBits w (tyMin ty) else signCode p true (infCode p)

def pairUp (op : Nat → Nat → Nat) : List Nat → List Nat
  | x :: y :: rest => op x y :: pairUp op rest
  | l => l

/-- The fixed tree of R91 over 2^k elements. -/
def reduceTree (op : Nat → Nat → Nat) : Nat → List Nat → Nat
  | 0, l => l.headD 0
  | k + 1, l => reduceTree op k (pairUp op l)

/-- The tree over the elements below `top`, every other and every inactive element the identity. -/
def reduceBelow (fn ty : Nat) (r : Rnd) (mask : Nat → Bool) (a top : Nat) : Nat :=
  let w := tyWidth ty
  let id := reduceIdentity fn ty
  reduceTree (reduceOp fn ty r) (1024 / w).log2
    ((upFrom 0 (1024 / w)).map fun e => if e < top && mask (w / 8 * e) then lane w a e else id)

/-- VRED (R231). -/
def execVred (w : RWord) (s : State) : Out :=
  withVector (.vred w) w.hdr (laneReads (tyWidth (tyOf w.hdr)) [w.a]) s fun f s =>
    let ty := tyOf w.hdr
    finishReg w.hdr w.d (extend ty
      (reduceBelow (fnOf w.hdr) ty (rndOf w.qual) (maskAt s f w.hdr) (readReg s f w.a) 128)) f s

/-- VSCAN (R232). -/
def execVscan (w : RWord) (s : State) : Out :=
  laneOp (.vscan w) w [w.a] s fun f s =>
    let ty := tyOf w.hdr
    let a := readReg s f w.a
    fun e => reduceBelow (2 * fnOf w.hdr) ty (rndOf w.qual) (maskAt s f w.hdr) a (e + 1)

/-- Whether an element's value ranks strictly before another's; a NaN ranks last (R233). -/
def ranksBefore (ty : Nat) (asc : Bool) (x y : Nat) : Bool :=
  if tyInt ty then (if asc then decide (asInt ty x < asInt ty y) else decide (asInt ty y < asInt ty x))
  else
    match decodeF false (fmtOf ty) x, decodeF false (fmtOf ty) y with
    | .nan, _ => false
    | _, .nan => true
    | u, v => cmpNum u v == some (if asc then .lt else .gt)

/-- Insert an element of a lower index than all of a ranked list. -/
def insertRank (before : Nat → Nat → Bool) (x : Nat × Nat) : List (Nat × Nat) → List (Nat × Nat)
  | [] => [x]
  | y :: rest => if before y.2 x.2 then y :: insertRank before x rest else x :: y :: rest

/-- Index and value of the active elements in rank order (R233). -/
def ranked (ty : Nat) (asc : Bool) (mask : Nat → Bool) (a : Nat) : List (Nat × Nat) :=
  let w := tyWidth ty
  (((upFrom 0 (1024 / w)).filter fun e => mask (w / 8 * e)).map fun e => (e, lane w a e)).foldr
    (insertRank (ranksBefore ty asc)) []

/-- VTOPK (R233). -/
def execVtopk (w : RWord) (s : State) : Out :=
  let ty := tyOf w.hdr
  let n := tyWidth ty
  withVector (.vtopk w) w.hdr (laneReads n [w.a]) s fun f s =>
    let k := fld w.imm 7 0
    let l := ranked ty (qExtra w.qual == 1) (maskAt s f w.hdr) (readReg s f w.a)
    let vals := packBits n ((upFrom 0 k).map fun i => ((l[i]?).map Prod.snd).getD 0)
    let idxs := packBits n ((upFrom 0 k).map fun i => ((l[i]?).map Prod.fst).getD (2 ^ n - 1))
    let d2 := vSpec (idx w.d + 1)
    let whole (j : Nat) : Bool := decide (64 * (j + 1) ≤ n * k)
    let s1 := keepMarks s f w.d whole (writeReg s f w.d (putBits (readReg s f w.d) (n * k - 1) 0 vals))
    finishPart w.hdr d2 whole (putBits (readReg s f d2) (n * k - 1) 0 idxs) f s1

/-- VARGMAX (R234). -/
def execVargmax (w : RWord) (s : State) : Out :=
  withVector (.vargmax w) w.hdr (laneReads (tyWidth (tyOf w.hdr)) [w.a]) s fun f s =>
    finishReg w.hdr w.d
      (match ranked (tyOf w.hdr) (qExtra w.qual == 1) (maskAt s f w.hdr) (readReg s f w.a) with
        | [] => 2 ^ 32 - 1
        | x :: _ => x.1 + x.2 * 2 ^ 32) f s

/-- One lane of VDOT (R235). -/
def dotLane (ty : Nat) (sat : Bool) (a b c e : Nat) : Nat :=
  let w := tyWidth ty
  let ks := upFrom (32 / w * e) (32 / w)
  if tyInt ty then
    intCode 3 sat (sextInt 32 c + (ks.map fun k => asInt ty (lane w a k) * asInt ty (lane w b k)).sum)
  else stepF32 sat c (sumNum (ks.map fun k =>
    mulNum (decodeF false (fmtOf ty) (lane w a k)) (decodeF false (fmtOf ty) (lane w b k))))

/-- VDOT (R235). -/
def execVdot (w : RWord) (s : State) : Out :=
  withVector (.vdot w) w.hdr (laneReads 32 [w.a, w.b, w.c]) s fun f s =>
    let a := readReg s f w.a
    let b := readReg s f w.b
    let c := readReg s f w.c
    finishPart w.hdr w.d (laneWords true 32 (maskBits s f w.hdr)).contains
      (mapLanes 32 4 32 (maskAt s f w.hdr) (readReg s f w.d) fun e =>
        dotLane (tyOf w.hdr) (qSat w.qual) a b (lane 32 c e) e) f s

/-! Memory (R224 to R226). -/

def activeLanes (s : State) (f : Nat) (h : Hdr) : List Nat :=
  let n := tyWidth (tyOf h)
  let mask := maskAt s f h
  (upFrom 0 (1024 / n)).filter fun e => mask (n / 8 * e)

/-- The check of R98 of every active lane in ascending order: the first failure's cause and offset, or each
lane's address. -/
def checkLanes (s : State) (x : Ctx) (g : Seg) (r : AccessRule) (off : Nat → Int) :
    List Nat → Except (Nat × Int) (List (Nat × Nat))
  | [] => .ok []
  | e :: rest =>
    match checkSeg s x g r (off e) with
    | .error c => .error (c, off e)
    | .ok a => match checkLanes s x g r off rest with
      | .error z => .error z
      | .ok l => .ok ((e, a) :: l)

/-- The kinds and modes of R224: no window (cause 5), no FIFO (cause 6). -/
def laneRule (need n : Nat) : AccessRule := { need := need, size := n, align := n, kinds := [0, 1, 2] }

/-- The paged requests of a vector access, in ascending lane order. -/
def pushLanes (s : State) (mk : Nat → Nat → Req) (grp : Nat) : List (Nat × Nat) → State
  | [] => s
  | (e, a) :: rest => pushLanes (pushReq s { mk e a with elem := BitVec.ofNat 8 e, grp := grp }) mk grp rest

/-- They share a number of their own (R226). -/
def pushGroup (s : State) (mk : Nat → Nat → Req) (ls : List (Nat × Nat)) : State :=
  pushLanes { s with ord := s.ord + 1 } mk (s.ord + 1) ls

-- DEDUCED, log 46. Unsafe.
/-- The poisoned lanes of a near access, logged, with the one trap that they bring (R136, R178, R388). -/
def lanePoison (s : State) (f n : Nat) (ls : List (Nat × Nat)) : State × List TrapInfo :=
  match ls.filter fun p => poisoned s p.2 n with
  | [] => (s, [])
  | ps => (ps.foldl (fun s p => logPoison s f p.2 s.iss.pc) s,
      [{ code := 0x0B, cause := 0, addr := 0, pc := s.iss.pc, word := s.iss.word, async := false }])

/-- The loaded lanes of a near access, poisoned ones left out. -/
def nearLaneWrites (s : State) (d : BitVec 8) (n : Nat) (ls : List (Nat × Nat)) : List RegWrite :=
  (ls.filter fun p => !poisoned s p.2 n).map fun p =>
    { spec := d, lo := p.1 * (8 * n), width := 8 * n, val := threadBytes s p.2 n }

def nearLaneStores (core f n v : Nat) : List (Nat × Nat) → State → State
  | [], s => s
  | (e, a) :: rest, s => nearLaneStores core f n v rest (nearStore s core f a n (lane (8 * n) v e) false)

-- DEDUCED, log 46. Unsafe.
/-- VLD and VST before their accesses (R224): held for a bank in transition, the first failing lane traps. -/
def laneAccess (i : Instr) (w : MWord) (data : List (BitVec 8)) (need : Nat) (s : State)
    (body : Nat → Ctx → Seg → (Nat → Int) → List (Nat × Nat) → State → State) : Out :=
  let n := wBytes (tyOf w.hdr)
  let reads (f : Nat) (s : State) (m : Nat) : List Nat :=
    laneReads (8 * n) data f s m ++ wholeReads (8 * n) (memSpecs w) f s m
  withVector i w.hdr reads s fun f s =>
    match ctxOf s f with
    | none => s
    | some x =>
      let g := readSeg s f w.seg.toNat
      let o := memOff s f w
      let off (e : Nat) : Int := o + (e * n : Nat)
      let es := activeLanes s f w.hdr
      if es.isEmpty then finish w.hdr f s
      else if es.any fun e => bankHeld s x g (off e) then hold .retry f s
      else match checkLanes s x g (laneRule need n) off es with
        | .error c => trapNow 0x04 c.1 (eaddrOf c.2) f s
        | .ok ls =>
          let near := ls.map fun p => (p.1, nearFlat x (segKind g) p.2)
          if segKind g != 0 && near.any fun p => !nearReady s f x w.qual p.2 then hold .retry f s
          else body f x g off (if segKind g = 0 then ls else near) s

/-- VLD (R224). -/
def execVld (w : MWord) (s : State) : Out :=
  laneAccess (.vld w) w [] needRd s fun f x g off ls s =>
    let n := wBytes (tyOf w.hdr)
    withEntry w.data 0 f s fun en s =>
      if segKind g = 0 then
        finish w.hdr f (pushGroup s (fun e a => scalarReq s f x w 0 (off e) a (some en)) ls)
      else
        let p := lanePoison s f n ls
        finish w.hdr f (sendResult p.1 f en (nearLaneWrites s w.data n ls) p.2)

/-- VST (R224): retires at issue. -/
def execVst (w : MWord) (s : State) : Out :=
  laneAccess (.vst w) w [w.data] needWr s fun f x g off ls s =>
    let n := wBytes (tyOf w.hdr)
    let v := readReg s f w.data
    if segKind g = 0 then
      finish w.hdr f (pushGroup s (fun e a =>
        { scalarReq s f x w 1 (off e) a none with data := BitVec.ofNat 64 (lane (8 * n) v e) }) ls)
    else finish w.hdr f (nearLaneStores x.core f n v ls s)

-- DEDUCED, log 46. Unsafe.
/-- VGATH and VSCAT before their accesses (R225): an invalid segment traps when a lane is active, every
other failure is a lane's. -/
def indexAccess (i : Instr) (w : MWord) (data : List (BitVec 8)) (need : Nat) (s : State)
    (body : Nat → Ctx → Seg → (Nat → Int) → List (Nat × Nat) → List Nat → State → State) : Out :=
  let vi := vSpec (idx w.data + 1)
  let reads (f : Nat) (s : State) (m : Nat) : List Nat :=
    laneReads 32 (vi :: data) f s m ++ wholeReads 32 (memSpecs { w with index := 0xFF }) f s m
  withVector i w.hdr reads s fun f s =>
    match ctxOf s f with
    | none => s
    | some x =>
      let g := readSeg s f w.seg.toNat
      let ix := readReg s f vi
      let off (e : Nat) : Int :=
        ((readReg s f w.base + lane 32 ix e * 2 ^ w.scale.toNat : Nat) : Int) + sextInt 32 w.offset.toNat
      let es := activeLanes s f w.hdr
      if es.isEmpty then finish w.hdr f s
      else if !g.attr.getLsbD 0 then trapNow 0x04 1 (eaddrOf (off (es.headD 0))) f s
      else if es.any fun e => bankHeld s x g (off e) then hold .retry f s
      else
        let chk (e : Nat) : Except Nat Nat := checkSeg s x g (laneRule need 4) (off e)
        let ls := es.filterMap fun e => match chk e with
          | .ok a => some (e, if segKind g = 0 then a else nearFlat x (segKind g) a)
          | .error _ => none
        let bad := es.filter fun e => match chk e with
          | .ok _ => false
          | .error _ => true
        if segKind g != 0 && ls.any fun p => !nearReady s f x w.qual p.2 then hold .retry f s
        else body f x g off ls bad s

/-- Elements of the fault predicate (R225). -/
def markLanes (p : BitVec 8) (v : Nat) (es : List Nat) : List RegWrite :=
  es.map fun e => { spec := p, lo := 4 * e, width := 4, val := v }

/-- VGATH (R225). -/
def execVgath (w : MWord) (s : State) : Out :=
  let p := pSpec (qExtra w.qual)
  indexAccess (.vgath w) w [] needRd s fun f x g off ls bad s =>
    withEntry w.data p f s fun en s =>
      if segKind g = 0 then
        let s1 := sendResult s f en (markLanes p 15 bad) []
        finish w.hdr f (pushGroup s1 (fun e a => { scalarReq s f x w 0 (off e) a (some en) with fdst := p }) ls)
      else
        let q := lanePoison s f 4 ls
        finish w.hdr f (sendResult q.1 f en
          (nearLaneWrites s w.data 4 ls ++ markLanes p 15 bad ++ markLanes p 0 (ls.map Prod.fst)) q.2)

-- DEDUCED, log 46. Unsafe.
/-- VSCAT (R225). -/
def execVscat (w : MWord) (s : State) : Out :=
  let p := pSpec (qExtra w.qual)
  indexAccess (.vscat w) w [w.data] needWr s fun f x g off ls bad s =>
    let v := readReg s f w.data
    withEntry p 0 f s fun en s =>
      if segKind g = 0 then
        let s1 := sendResult s f en (markLanes p 15 bad) []
        finish w.hdr f (pushGroup s1 (fun e a => { scalarReq s f x w 1 (off e) a (some en) with
          dst := 0, fdst := p, data := BitVec.ofNat 64 (lane 32 v e) }) ls)
      else
        finish w.hdr f (sendResult (nearLaneStores x.core f 4 v ls s) f en
          (markLanes p 15 bad ++ markLanes p 0 (ls.map Prod.fst)) [])

end Sys2Proof.Machine
end

