-- ==== Sys2Proof/Machine/Dispatch.lean ====
section
/-! DEFINITION. One arm for each constructor of Instr: a direct call of its meaning. -/

namespace Sys2Proof.Machine

def exec (i : Instr) (s : State) : Host.Outcome State Fault Refusal :=
  match i with
  | .add w => Sys2Proof.Machine.execAdd w s
  | .sub w => Sys2Proof.Machine.execSub w s
  | .mul w => Sys2Proof.Machine.execMul w s
  | .mulh w => Sys2Proof.Machine.execMulh w s
  | .div w => Sys2Proof.Machine.execDiv w s
  | .rem w => Sys2Proof.Machine.execRem w s
  | .min w => Sys2Proof.Machine.execMin w s
  | .max w => Sys2Proof.Machine.execMax w s
  | .lea w => Sys2Proof.Machine.execLea w s
  | .and w => Sys2Proof.Machine.execAnd w s
  | .or w => Sys2Proof.Machine.execOr w s
  | .xor w => Sys2Proof.Machine.execXor w s
  | .andn w => Sys2Proof.Machine.execAndn w s
  | .shl w => Sys2Proof.Machine.execShl w s
  | .shr w => Sys2Proof.Machine.execShr w s
  | .sra w => Sys2Proof.Machine.execSra w s
  | .rot w => Sys2Proof.Machine.execRot w s
  | .bfx w => Sys2Proof.Machine.execBfx w s
  | .bfi w => Sys2Proof.Machine.execBfi w s
  | .clz w => Sys2Proof.Machine.execClz w s
  | .ctz w => Sys2Proof.Machine.execCtz w s
  | .popc w => Sys2Proof.Machine.execPopc w s
  | .brev w => Sys2Proof.Machine.execBrev w s
  | .cmp w => Sys2Proof.Machine.execCmp w s
  | .sel w => Sys2Proof.Machine.execSel w s
  | .mov w => Sys2Proof.Machine.execMov w s
  | .movi w => Sys2Proof.Machine.execMovi w s
  | .plog w => Sys2Proof.Machine.execPlog w s
  | .br w => Sys2Proof.Machine.execBr w s
  | .call w => Sys2Proof.Machine.execCall w s
  | .ret w => Sys2Proof.Machine.execRet w s
  | .jmp w => Sys2Proof.Machine.execJmp w s
  | .trap w => Sys2Proof.Machine.execTrap w s
  | .tret w => Sys2Proof.Machine.execTret w s
  | .start w => Sys2Proof.Machine.execStart w s
  | .startSvc w => Sys2Proof.Machine.execStartSvc w s
  | .exit w => Sys2Proof.Machine.execExit w s
  | .join w => Sys2Proof.Machine.execJoin w s
  | .ppoint w => Sys2Proof.Machine.execPpoint w s
  | .launch w => Sys2Proof.Machine.execLaunch w s
  | .nop w => Sys2Proof.Machine.execNop w s
  | .ld w => Sys2Proof.Machine.execLd w s
  | .st w => Sys2Proof.Machine.execSt w s
  | .ldsync w => Sys2Proof.Machine.execLdsync w s
  | .stf w => Sys2Proof.Machine.execStf w s
  | .ldw w => Sys2Proof.Machine.execLdw w s
  | .cst w => Sys2Proof.Machine.execCst w s
  | .atom w => Sys2Proof.Machine.execAtom w s
  | .cas w => Sys2Proof.Machine.execCas w s
  | .fence w => Sys2Proof.Machine.execFence w s
  | .xfence w => Sys2Proof.Machine.execXfence w s
  | .rdsys w => Sys2Proof.Machine.execRdsys w s
  | .wrsys w => Sys2Proof.Machine.execWrsys w s
  | .segget w => Sys2Proof.Machine.execSegget w s
  | .segset w => Sys2Proof.Machine.execSegset w s
  | .svc w => Sys2Proof.Machine.execSvc w s
  | .pref w => Sys2Proof.Machine.execPref w s
  | .rdtime w => Sys2Proof.Machine.execRdtime w s
  | .tlbinv w => Sys2Proof.Machine.execTlbinv w s
  | .tlbq w => Sys2Proof.Machine.execTlbq w s
  | .send w => Sys2Proof.Machine.execSend w s
  | .recv w => Sys2Proof.Machine.execRecv w s
  | .recvnb w => Sys2Proof.Machine.execRecvnb w s
  | .callat w => Sys2Proof.Machine.execCallat w s
  | .spawn w => Sys2Proof.Machine.execSpawn w s
  | .reply w => Sys2Proof.Machine.execReply w s
  | .arrive w => Sys2Proof.Machine.execArrive w s
  | .bwait w => Sys2Proof.Machine.execBwait w s
  | .bsync w => Sys2Proof.Machine.execBsync w s
  | .bmask w => Sys2Proof.Machine.execBmask w s
  | .twaitany w => Sys2Proof.Machine.execTwaitany w s
  | .twaitall w => Sys2Proof.Machine.execTwaitall w s
  | .tfind w => Sys2Proof.Machine.execTfind w s
  | .sfence w => Sys2Proof.Machine.execSfence w s
  | .mcst w => Sys2Proof.Machine.execMcst w s
  | .jrd w => Sys2Proof.Machine.execJrd w s
  | .mquery w => Sys2Proof.Machine.execMquery w s
  | .vadd w => Sys2Proof.Machine.execVadd w s
  | .vsub w => Sys2Proof.Machine.execVsub w s
  | .vmul w => Sys2Proof.Machine.execVmul w s
  | .vfma w => Sys2Proof.Machine.execVfma w s
  | .vdiv w => Sys2Proof.Machine.execVdiv w s
  | .vsqrt w => Sys2Proof.Machine.execVsqrt w s
  | .vrcp w => Sys2Proof.Machine.execVrcp w s
  | .vrsq w => Sys2Proof.Machine.execVrsq w s
  | .vexp2 w => Sys2Proof.Machine.execVexp2 w s
  | .vlog2 w => Sys2Proof.Machine.execVlog2 w s
  | .vmin w => Sys2Proof.Machine.execVmin w s
  | .vmax w => Sys2Proof.Machine.execVmax w s
  | .vabs w => Sys2Proof.Machine.execVabs w s
  | .vcmp w => Sys2Proof.Machine.execVcmp w s
  | .vsel w => Sys2Proof.Machine.execVsel w s
  | .vcvt w => Sys2Proof.Machine.execVcvt w s
  | .vqf4 w => Sys2Proof.Machine.execVqf4 w s
  | .vbit w => Sys2Proof.Machine.execVbit w s
  | .vsh w => Sys2Proof.Machine.execVsh w s
  | .vld w => Sys2Proof.Machine.execVld w s
  | .vst w => Sys2Proof.Machine.execVst w s
  | .vgath w => Sys2Proof.Machine.execVgath w s
  | .vscat w => Sys2Proof.Machine.execVscat w s
  | .vbcast w => Sys2Proof.Machine.execVbcast w s
  | .vperm w => Sys2Proof.Machine.execVperm w s
  | .vshuf w => Sys2Proof.Machine.execVshuf w s
  | .vred w => Sys2Proof.Machine.execVred w s
  | .vscan w => Sys2Proof.Machine.execVscan w s
  | .vtopk w => Sys2Proof.Machine.execVtopk w s
  | .vargmax w => Sys2Proof.Machine.execVargmax w s
  | .vdot w => Sys2Proof.Machine.execVdot w s
  | .vmovxIns w => Sys2Proof.Machine.execVmovxIns w s
  | .vmovxExt w => Sys2Proof.Machine.execVmovxExt w s
  | .mzero w => Sys2Proof.Machine.execMzero w s
  | .mma w => Sys2Proof.Machine.execMma w s
  | .mcma w => Sys2Proof.Machine.execMcma w s
  | .mlda w => Sys2Proof.Machine.execMlda w s
  | .msta w => Sys2Proof.Machine.execMsta w s
  | .marm w => Sys2Proof.Machine.execMarm w s
  | .mgang w => Sys2Proof.Machine.execMgang w s
  | .mring w => Sys2Proof.Machine.execMring w s
  | .mswz w => Sys2Proof.Machine.execMswz w s
  | .walk w => Sys2Proof.Machine.execWalk w s
  | .walkResume w => Sys2Proof.Machine.execWalkResume w s
  | .wstat w => Sys2Proof.Machine.execWstat w s
  | .wchk w => Sys2Proof.Machine.execWchk w s
  | .cpy w => Sys2Proof.Machine.execCpy w s
  | .cpy2d w => Sys2Proof.Machine.execCpy2d w s
  | .cgath w => Sys2Proof.Machine.execCgath w s
  | .cscat w => Sys2Proof.Machine.execCscat w s
  | .cfill w => Sys2Proof.Machine.execCfill w s
  | .cswz w => Sys2Proof.Machine.execCswz w s
  | .femark w => Sys2Proof.Machine.execFemark w s
  | .cstat w => Sys2Proof.Machine.execCstat w s
  | .ccancel w => Sys2Proof.Machine.execCcancel w s
  | .pfr w => Sys2Proof.Machine.execPfr w s
  | .pfrBar w => Sys2Proof.Machine.execPfrBar w s
  | .rflush w => Sys2Proof.Machine.execRflush w s
  | .rinval w => Sys2Proof.Machine.execRinval w s
  | .secpin w => Sys2Proof.Machine.execSecpin w s
  | .secpinUn w => Sys2Proof.Machine.execSecpinUn w s
  | .bmode w => Sys2Proof.Machine.execBmode w s
  | .ctrrd w => Sys2Proof.Machine.execCtrrd w s
  | .caprecv w => Sys2Proof.Machine.execCaprecv w s
  | .capsend w => Sys2Proof.Machine.execCapsend w s
  | .capnext w => Sys2Proof.Machine.execCapnext w s
  | .capins w => Sys2Proof.Machine.execCapins w s
  | .capskip w => Sys2Proof.Machine.execCapskip w s
  | .caprepl w => Sys2Proof.Machine.execCaprepl w s
  | .capfail w => Sys2Proof.Machine.execCapfail w s
  | .capdrop w => Sys2Proof.Machine.execCapdrop w s
  | .exq w => Sys2Proof.Machine.execExq w s
  | .expin w => Sys2Proof.Machine.execExpin w s
  | .exunpin w => Sys2Proof.Machine.execExunpin w s
  | .exload w => Sys2Proof.Machine.execExload w s
  | .exevict w => Sys2Proof.Machine.execExevict w s
  | .exrepl w => Sys2Proof.Machine.execExrepl w s
  | .lineRefetch core slot => Sys2Proof.Machine.execLineRefetch core slot s
  | .instructionFetchComplete core slot => Sys2Proof.Machine.execInstructionFetchComplete core slot s
  | .longResultReturn n => Sys2Proof.Machine.execLongResultReturn n s
  | .trapEntry core slot => Sys2Proof.Machine.execTrapEntry core slot s
  | .windowLoadServe n => Sys2Proof.Machine.execWindowLoadServe n s
  | .remoteStoreApply core entry part => Sys2Proof.Machine.execRemoteStoreApply core entry part s
  | .remoteAtomicApply n => Sys2Proof.Machine.execRemoteAtomicApply n s
  | .journalAck core entry => Sys2Proof.Machine.execJournalAck core entry s
  | .journalRefusal core entry => Sys2Proof.Machine.execJournalRefusal core entry s
  | .releaseStoreSend core entry => Sys2Proof.Machine.execReleaseStoreSend core entry s
  | .releaseMessageSend n => Sys2Proof.Machine.execReleaseMessageSend n s
  | .messageArrival n => Sys2Proof.Machine.execMessageArrival n s
  | .taskQueueEntryArrival n => Sys2Proof.Machine.execTaskQueueEntryArrival n s
  | .taskQueueHelperStart core => Sys2Proof.Machine.execTaskQueueHelperStart core s
  | .barrierArrival n => Sys2Proof.Machine.execBarrierArrival n s
  | .timeSliceEnd core => Sys2Proof.Machine.execTimeSliceEnd core s
  | .preemptionRequest core => Sys2Proof.Machine.execPreemptionRequest core s
  | .graceWindowExpiry core => Sys2Proof.Machine.execGraceWindowExpiry core s
  | .shadowBankLoadComplete core slot => Sys2Proof.Machine.execShadowBankLoadComplete core slot s
  | .bankExchange core => Sys2Proof.Machine.execBankExchange core s
  | .spillComplete core slot => Sys2Proof.Machine.execSpillComplete core slot s
  | .accumulatorSave core => Sys2Proof.Machine.execAccumulatorSave core s
  | .accumulatorRestore core => Sys2Proof.Machine.execAccumulatorRestore core s
  | .contextSavedReport frame => Sys2Proof.Machine.execContextSavedReport frame s
  | .tlbMissWalk n => Sys2Proof.Machine.execTlbMissWalk n s
  | .faultReply part => Sys2Proof.Machine.execFaultReply part s
  | .mailboxPost => Sys2Proof.Machine.execMailboxPost s
  | .launchAdmission die => Sys2Proof.Machine.execLaunchAdmission die s
  | .admissionResume n => Sys2Proof.Machine.execAdmissionResume n s
  | .gangBindRelease n => Sys2Proof.Machine.execGangBindRelease n s
  | .deadlinePass n => Sys2Proof.Machine.execDeadlinePass n s
  | .hostDoorbell queue value => Sys2Proof.Machine.execHostDoorbell queue value s
  | .partitionCreate => Sys2Proof.Machine.execPartitionCreate s
  | .partitionDestroy => Sys2Proof.Machine.execPartitionDestroy s
  | .partitionSet => Sys2Proof.Machine.execPartitionSet s
  | .repairPin part => Sys2Proof.Machine.execRepairPin part s
  | .repairFuse part => Sys2Proof.Machine.execRepairFuse part s
  | .repairUnpin part => Sys2Proof.Machine.execRepairUnpin part s
  | .warmReset part => Sys2Proof.Machine.execWarmReset part s
  | .dieReadmit die img => Sys2Proof.Machine.execDieReadmit die img s
  | .linkInjectorSet part => Sys2Proof.Machine.execLinkInjectorSet part s
  | .injectorFire link => Sys2Proof.Machine.execInjectorFire link s
  | .flitArrival link epoch flit => Sys2Proof.Machine.execFlitArrival link epoch flit s
  | .nackReplay link seq => Sys2Proof.Machine.execNackReplay link seq s
  | .linkDown link => Sys2Proof.Machine.execLinkDown link s
  | .linkTraining link version features => Sys2Proof.Machine.execLinkTraining link version features s
  | .routeChange src dst => Sys2Proof.Machine.execRouteChange src dst s
  | .correctedErrorThreshold slice unit count => Sys2Proof.Machine.execCorrectedErrorThreshold slice unit count s
  | .storeApplyHome n => Sys2Proof.Machine.execStoreApplyHome n s
  | .lineFillServe n => Sys2Proof.Machine.execLineFillServe n s
  | .bankModeSwitchComplete cluster bank => Sys2Proof.Machine.execBankModeSwitchComplete cluster bank s
  | .pfrComplete core n => Sys2Proof.Machine.execPfrComplete core n s
  | .gangStart core => Sys2Proof.Machine.execGangStart core s
  | .matrixStep core => Sys2Proof.Machine.execMatrixStep core s
  | .walkRound core => Sys2Proof.Machine.execWalkRound core s
  | .copyCommandStart core => Sys2Proof.Machine.execCopyCommandStart core s
  | .copyRow core => Sys2Proof.Machine.execCopyRow core s
  | .capsuleDieIngress n => Sys2Proof.Machine.execCapsuleDieIngress n s
  | .capsuleCoreIngress n => Sys2Proof.Machine.execCapsuleCoreIngress n s
  | .residencyMissResend expert => Sys2Proof.Machine.execResidencyMissResend expert s
  | .sluiceReoffer expert => Sys2Proof.Machine.execSluiceReoffer expert s
  | .sluiceReofferTimer expert => Sys2Proof.Machine.execSluiceReofferTimer expert s
  | .residencyBroadcastApply die expert => Sys2Proof.Machine.execResidencyBroadcastApply die expert s
  | .trctlWrite w => Sys2Proof.Machine.execTrctlWrite w s
  | .lfsrWrite w => Sys2Proof.Machine.execLfsrWrite w s
  | .engbindWrite w => Sys2Proof.Machine.execEngbindWrite w s
  | .statusPmaskWrite w => Sys2Proof.Machine.execStatusPmaskWrite w s
  | .governorTick watts => Sys2Proof.Machine.execGovernorTick watts s
  | .thermalThrottle cluster => Sys2Proof.Machine.execThermalThrottle cluster s
  | .thermalShutdown => Sys2Proof.Machine.execThermalShutdown s
  | .powerOnReset chief d0 d1 d2 d3 => Sys2Proof.Machine.execPowerOnReset chief d0 d1 d2 d3 s
  | .attestationRequest nonce => Sys2Proof.Machine.execAttestationRequest nonce s
  | .notAnInstructionIssue word => Sys2Proof.Machine.execNotAnInstructionIssue word s
  | .junctionBelow95c cluster => Sys2Proof.Machine.execJunctionBelow95c cluster s
  | .sectorWriteBackComplete n => Sys2Proof.Machine.execSectorWriteBackComplete n s
  | .tlbDropComplete n => Sys2Proof.Machine.execTlbDropComplete n s

end Sys2Proof.Machine
end

