-- ==== Sys2Proof/Machine/Outside.lean ====
section
/-! DEFINITION. What happens to the machine from outside it, beside the events of the opcode table: errors in its arrays
(R386), other agents' writes to memory outside the package (R309, R381), the rings the host places (R381), and
flits handed to a port (R382). -/

namespace Sys2Proof.Machine

-- DESIGN CHOICE, log 79. Safe.
/-- The granule that an uncorrectable error poisons (R386): 8 bytes of SRAM, 32 of a die's DRAM, and of memory outside
the package the word that a poisoned read names (R381). First address and bytes. -/
def errorGranule (s : State) (flat : Nat) : Nat × Nat :=
  if flat / 2 ^ 64 < 4096 && !heldNow s flat then (flat / 32 * 32, 32) else (flat / 8 * 8, 8)

/-- Every word of a range is marked; one in a held sector is so there only (R387). -/
def poisonWords (s : State) (k n : Nat) : State :=
  let fresh := (wholeWords k n).filter fun w => heldNow s (8 * w) && !SMap.get false s.poison w
  { s with poison := (wholeWords k n).foldl (fun m w => SMap.set false m w true) s.poison
           copyMarks := fresh.foldl (fun m w => SMap.set false m w true) s.copyMarks }

/-- Memory that agents outside the package write: the host's, the tier devices', and other packages'. -/
def writtenOutside (s : State) (k : Nat) : Bool :=
  outsideRegion s.pkg k

/-- A byte that such an agent writes: behind a sector that a slice holds, or in memory (R309). -/
def outsideByte (s : State) (k : Nat) (b : Byte) : State :=
  if !writtenOutside s k then s
  else if heldNow s k then { s with behind := SMap.set none s.behind k (some b) }
  else endOlder { s with mem := writeByte s.mem k b } none k 1

def outsideBytes : Nat → Nat → Nat → State → State
  | _, 0, _, s => s
  | k, n + 1, v, s => outsideBytes (k + 1) n (v / 256) (outsideByte s k (BitVec.ofNat 8 v))

/-- Such an agent writes `n` bytes; a word that it writes whole in memory is poisoned no more (R387). -/
def outsideWrite (s : State) (flat n v : Nat) : State :=
  let whole := (wholeWords flat n).filter fun w => writtenOutside s (8 * w) && !heldNow s (8 * w)
  outsideBytes flat n v { s with poison := whole.foldl (fun m w => SMap.set false m w false) s.poison }

def flipBit (line bit : Nat) (p : Nat × BitVec 512) : Nat × BitVec 512 :=
  if p.1 = line then (p.1, p.2 ^^^ BitVec.ofNat 512 (2 ^ bit)) else p

-- DESIGN CHOICE, log 79. Safe.
/-- The effect of what happens outside. -/
def outsideStep (o : Outside) (s : State) : State :=
  match o with
  | .memoryError flat => let g := errorGranule s flat; poisonWords s g.1 g.2
  | .registerError core slot word shadow =>
    let mark (b : Bank) : Bank := if b.frame.isNone then b else { b with poison := b.poison ||| BitVec.ofNat 640 (2 ^ word) }
    modSlot s core slot fun sl => if shadow then { sl with shadow := mark sl.shadow } else { sl with act := mark sl.act }
  | .lineError core line bit => modCore s core fun x => { x with icache := x.icache.map (flipBit line bit) }
  | .outsideWrite flat n v => outsideWrite s flat n v
  | .ringPlace queue base log2 => setQueue s queue { queueOf s queue with base := base, log2 := max 4 (min log2 16) }
  | .partner link version features => { s with partners := SMap.set (0, 0) s.partners link (version, features) }
  | .podNumber n => { s with podNumber := n % 1024 }
  | .flitSend link f => if (linkSt s link).up then sendFlit s link f else s

end Sys2Proof.Machine
end

