-- ==== Sys2Proof/Machine/Slots.lean ====
section
/-! DEFINITION. Which slot issues and what (R36, R37, R51 to R54): eligibility, the least recent slot,
what comes at an instruction boundary before the next issue, the checks of the line, and pairs. -/

namespace Sys2Proof.Machine

/-- A wait for a local word's full bit is over too once its bank is no longer in scratch mode (R302). -/
def scratchGone (s : State) (a : Nat) : Bool :=
  let cl := a / 2 ^ 64 - 2 ^ 24
  let b := a % 2 ^ 64 / 2 ^ 17
  decide (clusBase 0 ≤ a) && (bankMode s cl b != 2 || inTransition s cl b)

/-- What a context waits for has come about (R36, R192). -/
def waitOver (s : State) (f : Nat) (x : Ctx) : Wait → Bool
  | .engine e => entryFree s f e
  | .retry => true
  | .full a => isFull s a || scratchGone s a
  | .recv 1 => (SMap.get [] (coreOf s x.core).classQ 1).any fun m =>
      m.launch.toNat == fld (ctxIdent s f) 63 32
  | .recv k => hasMessage s x.core x.bind k
  | .barrier key ph => waitEnded (barrierOf s (waitBarrier x key)) ph
  | .request o => !((s.wreqs.any fun r => r.ord == o) || (s.flushes.any fun r => r.ord == o) ||
      s.drops.any fun r => r.ord == o)
  | .fifoHead cl b o => !(fifoOf s cl b).isEmpty && fifoFirst s cl b true o
  | .fifoTail cl b o => decide ((fifoOf s cl b).length < 16384) && fifoFirst s cl b false o
  | .fifoGone _ => true
  | .barrierFailed _ _ => true
  | .ppoint => false

/-- The live context of a slot. -/
def slotCtx (s : State) (c k : Nat) : Option (Nat × Ctx) :=
  match (slotOf s c k).act.frame with
  | none => none
  | some f => (ctxOf s f).map fun x => (f, x)

/-- A ring operation has started for the context, whose instruction is then in flight (R248). -/
def opStarted (s : State) (c f : Nat) : Bool :=
  match (coreOf s c).mx with
  | some m => m.frame == f && m.running && !m.claimed
  | none => false

/-- The slot waits for its fetch. -/
def fetching (s : State) (c k f : Nat) : Bool :=
  (match (slotOf s c k).fetch with
    | .again _ => true
    | _ => false) || s.reqs.any fun r => r.frame == f && r.op == 6

/-- Eligible to issue (R36) but for its fetch: live, neither it nor its task at its end, not parked with long results
outstanding (R39), not past the end of a grace window (R126), unless to complete an operation in flight (R46), not
suspended (R332), no trap or reply awaited, not stalled by a translation, its wait over. -/
def willing (s : State) (c k : Nat) : Bool :=
  match slotCtx s c k with
  | none => false
  | some (f, x) =>
    !x.trail && !x.dying && (ctxTask s x).ending.isNone &&
      (!((coreOf s c).stopped && (coreOf s c).cur == some x.bind) || opStarted s c f) &&
      x.trap.isNone && x.park.isNone && ringCount s f == 0 &&
      !(s.reqs.any fun r => r.frame == f && r.op != 6 && r.target.isNone) &&
      (!x.parked || noPending s f) &&
      (match x.wait with
        | none => true
        | some w => waitOver s f x w)

-- DEDUCED, log 30. Safe.
/-- Eligible to issue (R36). -/
def eligible (s : State) (c k : Nat) : Bool :=
  willing s c k && match slotCtx s c k with
    | none => false
    | some (f, _) => !fetching s c k f

/-- The eligible slots in the order of R36: those that have not issued since they were bound, the lowest first, then the
others from the one that issued least recently. -/
def issueOrder (s : State) (c : Nat) : List Nat :=
  let ok := (upFrom 0 16).filter (eligible s c)
  let recent := (coreOf s c).recent
  (ok.filter fun k => !recent.contains k) ++ recent.reverse.filter ok.contains

/-- What an issue turns out to be. -/
inductive Prep where
  /-- nothing issues: the context takes a trap, waits for a line, or there is no slot -/
  | moved (s : State)
  | single (w : BitVec 96) (s : State)
  | pair (w1 w2 : BitVec 96) (s : State)
  deriving DecidableEq, Repr

def opClassT (w : BitVec 96) : Bool := let o := fld w 95 88; decide (1 ≤ o ∧ o ≤ 0x5F)
def opClassX (w : BitVec 96) : Bool := let o := fld w 95 88; decide (0x80 ≤ o ∧ o ≤ 0xDF)
def wordSw (w : BitVec 96) : Bool := w.getLsbD 81

/-- Slots j and j + 1 of a line issue as a pair (R37, R54). -/
def pairs (l : BitVec 512) (j : Nat) : Bool :=
  linePair l j && opClassT (slotWord l j) && opClassX (slotWord l (j + 1)) && !wordSw (slotWord l j)

/-- A trap at the instruction about to issue. -/
def preTrap (s : State) (f code : Nat) (addr : Word) (word : BitVec 96) : State :=
  takeTrap s f { code := BitVec.ofNat 8 code, cause := 0, addr := addr, pc := ctxPc s f, word := word, async := false }

/-- The issue record of the instruction at `pc` (R50, R54). -/
def startIssue (s : State) (c k : Nat) (pc next : Word) (w : BitVec 96) : State :=
  { s with iss := { core := c, slot := k, pc := pc, next := next, word := w, res := .completed } }

/-- The slot has issued, and its run goes on (R36, R38). -/
def noteIssue (s : State) (c k f : Nat) : State :=
  modCtx (modCore s c fun x => { x with recent := k :: x.recent.filter (· != k) }) f fun x => { x with parked := false }

/-- The word is an instruction that sets `pmask` in a handler (R122, R138). -/
def setsPmask (s : State) (f : Nat) (w : BitVec 96) : Bool :=
  match decodeWord w with
  | some (.statusPmaskWrite r) => legal (.statusPmaskWrite r) && guardTrue s f r.hdr && bitOf (readReg s f r.a) 4
  | _ => false

/-- The word is a PPOINT that takes effect (R126). -/
def isPpoint (s : State) (f : Nat) (w : BitVec 96) : Bool :=
  match decodeWord w with
  | some (.ppoint r) => legal (.ppoint r) && guardTrue s f r.hdr
  | _ => false

/-- A pre-emption pending at a handler's first instruction is taken there, unless that instruction sets pmask
(R138). -/
def preemptsEntry (s : State) (c f : Nat) (x : Ctx) (issues : Bool) (w : BitVec 96) : Bool :=
  !opStarted s c f && x.entry && stInh (statusOf s f) && stPpend (statusOf s f) && (coreOf s c).preReq && (coreOf s c).swap.isNone &&
    unmasked s c && !(issues && setsPmask s f w)

/-- A pre-emption due at the context's boundary is taken, unless a PPOINT issues there (R126). -/
def preemptsDue (s : State) (c f : Nat) (issues : Bool) (w : BitVec 96) : Bool :=
  !opStarted s c f && (coreOf s c).due == some f && unmasked s c && !(issues && isPpoint s f w)

-- DEDUCED, log 72. Unsafe.
-- DESIGN CHOICE, log 71. Unsafe.
/-- The checks of a fetched line in the order of R136 (R51, R53), the pre-emptions taken at the boundary, and the choice
of one instruction or a pair (R54). An entry is checked on each try until its instruction issues; where it is illegal no
instruction has been read. -/
def fromLine (s : State) (c k f : Nat) (x : Ctx) (t : Target) (l : BitVec 512) : Prep :=
  let pc := ctxPc s f
  let j := pcSlot pc
  let w := slotWord l j
  let again := (slotOf s c k).fetch == .refetched t.flat
  let clean (s : State) := modSlot s c k fun y => { y with fetch := .idle }
  if !lineParity l then
    if again then .moved (preTrap (clean s) f 0x02 0 w)
    else
      let s := modCore s c fun y => { y with icache := y.icache.filter fun p => p.1 != t.flat / 64 }
      .moved (modSlot s c k fun y => { y with fetch := .again t })
  else
    let s := clean (if again then countCorrected s c (ctxPart s x) else s)
    let entered := pcWellFormed pc && (!x.entry || lineTmask l j)
    let issues := lineForm l && entered
    if preemptsEntry s c f x issues w || preemptsDue s c f issues w then
      .moved (takePreempt (modCtx s f fun y => { y with wait := some .ppoint }) c)
    else if !lineForm l then .moved (preTrap s f 0x02 0 w)
    else if !entered then .moved (preTrap s f 0x03 pc 0)
    else
      let s := noteIssue (modCtx s f fun y => { y with entry := false }) c k f
      if pairs l j then .pair w (slotWord l (j + 1)) (startIssue s c k pc (pcNext (pcNext pc)) w)
      else .single w (startIssue s c k pc (x.after.getD (pcNext pc)) w)

-- DEDUCED, log 19. Unsafe.
/-- What the context waited for has been done for its instruction, which completes with no second effect: a barrier's
phase, a served window LDSYNC, a slice operation (R192). -/
def waitDone (s : State) (f : Nat) (x : Ctx) : Bool :=
  match x.wait with
  | some (.barrier k ph) => waitOver s f x (.barrier k ph)
  | some (.barrierFailed _ _) => true
  | some (.request o) => waitOver s f x (.request o)
  | _ => false

/-- What comes at the boundary before the next issue, if anything: the faults of a run that has ended (R115), those left
over from ended runs and the refusals of remote stores, these two outside a handler (R115, R137). -/
def boundaryFault (s : State) (c f : Nat) (x : Ctx) : Option State :=
  let inh := stInh (statusOf s f)
  if opStarted s c f || waitDone s f x then none
  else if x.parked && !(runLate s f x).isEmpty then some (resolveTrap s f)
  else if inh then none
  else if !x.lateDue.isEmpty then some (resolveDue s f)
  else (nextRefused s c f).map (takeAsync s f x)

/-- The next issue of a slot: what comes at the boundary first, then the line that holds the instruction. -/
def prepare (s : State) (c k : Nat) : Prep :=
  match slotCtx s c k with
  | none => .moved s
  | some (f, x) =>
    match boundaryFault s c f x with
    | some s => .moved s
    | none =>
      match lineAt s f (pcLine (ctxPc s f)) with
      | .outside => .moved (preTrap s f 0x03 (ctxPc s f) 0)
      | .wait s => .moved s
      | .ready t l => fromLine s c k f x t l

-- DEDUCED, log 27. Unsafe.
/-- A pre-emption pending over a context that R133 has parked is taken (R138). -/
def preemptsParked (s : State) (c : Nat) : Bool :=
  match (coreOf s c).cur with
  | none => false
  | some b => (coreOf s c).preReq && (coreOf s c).swap.isNone && unmasked s c &&
      (taskCtxs s c b).any fun p => stPpend (statusOf s p.1) &&
        match p.2.park with
        | some (.escalated _) => true
        | _ => false

/-- The second of a pair, once the first has completed (R54). -/
def secondIssue (s : State) (w : BitVec 96) : State :=
  { s with iss := { s.iss with pc := pcNext s.iss.pc, word := w, res := .completed } }

/-- A wait that an instruction has issued into, and that its pair does not undo. -/
def issuedWait : Option Wait → Bool
  | none => false
  | some .retry => false
  | some (.fifoTail _ _ _) => false
  | _ => true

/-- A pair whose second instruction must hold: neither has issued, and the slot holds as for the second, or still waits
as the first does (R54); a leader's arming stands (R254). -/
def pairHolds (before after : State) (c k : Nat) : State :=
  let before := modCore before c fun x => { x with mx := (coreOf after c).mx }
  match slotCtx before c k, slotCtx after c k with
  | some (f, x), some (_, y) => setEnd (if issuedWait x.wait then before else modCtx before f fun x => { x with wait := y.wait }) .held
  | _, _ => setEnd before .held

/-- Whether a try at a slot has issued an instruction: it neither held nor was a vain one of an instruction that had
blocked. -/
def hasIssued (before after : State) (c k : Nat) : Bool :=
  match after.iss.res with
  | .held => false
  | .blocked => match slotCtx before c k with
    | some (_, x) => x.wait.isNone || !x.issued
    | none => true
  | _ => true

/-- A try that has not issued leaves the slot's place in the order of R36. -/
def keepPlace (before after : State) (c : Nat) : State :=
  modCore after c fun x => { x with recent := (coreOf before c).recent }

-- DESIGN CHOICE, log 73. Unsafe.
-- DESIGN CHOICE, log 6. Safe.
-- DESIGN CHOICE, log 4. Safe.
/-- Package time passes and the counter of free values advances. Every reader at one moment reads one value. -/
def advance (s : State) : State :=
  { s with time := s.time + BitVec.ofNat 64 (Config.elapsedNs s.tick), tick := s.tick + 1 }

end Sys2Proof.Machine
end

