-- ==== Sys2Proof/Machine/Order.lean ====
section
/-! DEFINITION. What a move does, and the default order of a step whose schedule is empty: the events that the
state of the machine holds ready, and the core whose turn it is. An order is the model's own: the rules leave it open. Events that come
from outside (a doorbell, a flit, a temperature, a reset, an attestation, an error count) take place only where
the schedule names them. -/

namespace Sys2Proof.Machine

/-- Results, traps and the memory requests (R41, R133, R305 to R333). -/
def memoryEvents (s : State) : List Instr :=
  ((upFrom 0 s.rets.length).map .longResultReturn) ++
  ((ctxList s).filterMap fun p => if p.2.trap.isSome then some (.trapEntry p.2.core p.2.slot) else none) ++
  ((s.reqs.zipIdx).flatMap fun p =>
    if p.1.target.isNone then [.tlbMissWalk p.2]
    else if p.1.op == 6 then [.instructionFetchComplete p.1.core p.1.slot]
    else [.lineFillServe p.2, .storeApplyHome p.2]) ++
  ((upFrom 0 s.wreqs.length).flatMap fun n => [.windowLoadServe n, .remoteAtomicApply n]) ++
  ((upFrom 0 s.flushes.length).map .sectorWriteBackComplete) ++ ((upFrom 0 s.drops.length).map .tlbDropComplete) ++
  (s.clusters.flatMap fun p => match p.2.switching with
    | b :: _ => [.bankModeSwitchComplete p.1 b.bank]
    | [] => [])

/-- Messages, barriers and mail (R27, R28, R189, R378). -/
def messageEvents (s : State) : List Instr :=
  ((s.net.zipIdx).map fun p =>
    if p.1.held then .releaseMessageSend p.2
    else if p.1.cls = 0 then .taskQueueEntryArrival p.2 else .messageArrival p.2) ++
  ((upFrom 0 s.arrivals.length).map .barrierArrival) ++ (if s.mail.isEmpty then [] else [.mailboxPost])

/-- The events of one core's journal (R112, R114, R184). -/
def journalEvents (core : Nat) (k : Nat) (j : JEntry) : List Instr :=
  if j.state = 0 then []
  else (if j.sent then [] else [.releaseStoreSend core k]) ++ (j.todo.map fun part => .remoteStoreApply core k part) ++
    [.journalAck core k, .journalRefusal core k]

/-- The events of one core: journal, fetch, engines, switch, dispatch. -/
def coreEvents (c : Nat) (x : Core) : List Instr :=
  (x.journal.flatMap fun p => journalEvents c p.1 p.2) ++
  (x.slots.flatMap fun p =>
    (match p.2.fetch with
      | .again _ => [.lineRefetch c p.1]
      | _ => []) ++ (if p.2.shadow.frame.isSome then [.spillComplete c p.1] else [])) ++
  (if x.mx.isSome then [.gangStart c, .matrixStep c] else []) ++
  (if x.wk.isSome then [.walkRound c] else []) ++
  (if x.copyQ.isEmpty then [] else [.copyCommandStart c, .copyRow c]) ++
  ((upFrom 0 x.pfrs.length).map fun n => .pfrComplete c n) ++
  (if x.taskQ.isEmpty then [] else [.taskQueueHelperStart c]) ++
  (match x.swap with
    | some w => (w.slots.map fun k => .shadowBankLoadComplete c k) ++ [.bankExchange c]
    | none => []) ++
  (if x.accJobs.isEmpty then [] else [.accumulatorSave c, .accumulatorRestore c]) ++
  (if x.cur.isSome then [.timeSliceEnd c, .preemptionRequest c, .graceWindowExpiry c] else [])

/-- Capsules, the residency table and launches (R347 to R357, R372 to R377). -/
def fabricEvents (s : State) : List Instr :=
  ((s.caps.zipIdx).map fun p => if p.1.dest.isSome && !p.1.enter then .capsuleCoreIngress p.2 else .capsuleDieIngress p.2) ++
  (s.updates.map fun u => .residencyBroadcastApply u.die u.expert) ++
  (s.experts.flatMap fun p =>
    (if p.2.parked.isEmpty then [] else [.sluiceReoffer p.1, .sluiceReofferTimer p.1]) ++
      (if p.2.miss then [.residencyMissResend p.1] else [])) ++
  (s.dies.flatMap fun p => if p.2.devQ.isEmpty then [] else [.launchAdmission p.1]) ++
  ((upFrom 0 s.launches.length).flatMap fun n => [.admissionResume n, .gangBindRelease n]) ++
  ((upFrom 0 (liveLaunches s).length).map .deadlinePass) ++
  ((ctxList s).filterMap fun p => if p.2.saving then some (.contextSavedReport p.1) else none)

/-- What supervisors and the host have asked for (R379, R380, R393), and links. -/
def requestEvents (s : State) : List Instr :=
  (s.parts.flatMap fun p =>
    (if (readWord s p.2.replyTail).toNat % 4096 ≠ p.2.replyHead % 4096 then [.faultReply p.1] else []) ++
    (if (nextRepair s p.1).isSome then
      [.repairPin p.1, .repairFuse p.1, .repairUnpin p.1, .warmReset p.1, .linkInjectorSet p.1] else
      [])) ++
  (if s.dies.any fun d => decide (1 ≤ d.2.resetStep) && decide (d.2.resetStep ≤ 4) then [.warmReset 0] else []) ++
  ((s.dies.filter fun d => !d.2.up || linkClosed s d.1).map fun d => .routeChange (crossing d.1).1 (crossing d.1).2) ++
  (if (nextRecord s).isSome then [.partitionCreate, .partitionDestroy, .partitionSet] else []) ++
  (s.links.filterMap fun p => if injectorDue p.1 p.2 then some (.injectorFire p.1) else none) ++
  (s.links.filterMap fun p => if 9 ≤ p.2.fails || 9 ≤ p.2.nacks then some (.linkDown p.1) else none)

-- DESIGN CHOICE, log 3. Safe.
/-- Every event that may be ready. -/
def readyEvents (s : State) : List Instr :=
  memoryEvents s ++ messageEvents s ++ (s.cores.flatMap fun p => coreEvents p.1 p.2) ++ fabricEvents s ++
    requestEvents s

-- DESIGN CHOICE, log 16. Safe.
/-- An event that changes the state. -/
def acts (s : State) (e : Instr) : Bool :=
  match exec e s with
  | .next t => decide (t ≠ s)
  | _ => true

-- DESIGN CHOICE, log 3. Safe.
/-- The first ready event that acts. -/
def nextEvent (s : State) : Option Instr := (readyEvents s).find? (acts s)

-- DESIGN CHOICE, log 3. Safe.
/-- The core that issues after core `c`: the next above it that holds a context, else the lowest. -/
def coreAfter (s : State) (c : Nat) : Nat :=
  let cs := (ctxList s).map fun p => p.2.core
  let lowest (l : List Nat) : Option Nat := l.foldl (fun m k => match m with
    | none => some k
    | some a => some (min a k)) none
  ((lowest (cs.filter (c < ·))).or (lowest cs)).getD 0

/-! Moves. -/

/-- The meaning of a fetched word (R65 to R68). -/
def execWord (w : BitVec 96) (s : State) : Host.Outcome State Fault Refusal :=
  match decodeWord w with
  | some i => exec i s
  | none => exec (.notAnInstructionIssue w) s

/-! Redundant pairs (R391, R392). -/

/-- The words of a bank with the slot of the leading copy, or of the trailing one, in its status. -/
def withSlot (words : SMap Word) (k : Nat) : SMap Word :=
  SMap.set 0 words wStatus (BitVec.ofNat 64 (putBits (SMap.get 0 words wStatus).toNat 15 12 k))

/-- The machine with the trailing copy's registers where the leading copy's are. -/
def asTrailing (s : State) (c k : Nat) : State :=
  let t := (slotOf s c (k + 8)).act
  { modSlot s c k fun sl => { sl with act := { sl.act with words := withSlot t.words k, poison := t.poison } } with
    lfsr := SMap.set 0 s.lfsr (c * 16 + k) (lfsrOf s c (k + 8)) }

/-- Everything but the registers of the two copies: what the comparator sees of an action, and the queue of a result. -/
def outside (s : State) (c k : Nat) : State :=
  let blank (s : State) (j : Nat) : State := modSlot s c j fun sl => { sl with act := { sl.act with words := [], poison := 0 } }
  { blank (blank s k) (k + 8) with lfsr := SMap.set 0 (SMap.set 0 s.lfsr (c * 16 + k) 0) (c * 16 + k + 8) 0 }

/-- What the instruction leaves in the trailing copy's registers. -/
def withTrailing (s t : State) (c k : Nat) : State :=
  if (slotCtx s c k).isNone then s
  else
    let b := (slotOf t c k).act
    { modSlot s c (k + 8) fun sl => { sl with act := { sl.act with words := withSlot b.words (k + 8), poison := b.poison } } with
      lfsr := SMap.set 0 s.lfsr (c * 16 + k + 8) (lfsrOf t c k) }

-- DEDUCED, log 53. Unsafe.
/-- The meaning of a word for a pair (R392): the two copies run it on their own registers, and its effect is made once
where they agree in everything outside them; a disagreement is a mismatch, and nothing of the instruction is done. -/
def execBoth (w : BitVec 96) (s : State) : Host.Outcome State Fault Refusal :=
  let c := s.iss.core
  let k := s.iss.slot
  match slotCtx s c k with
  | none => execWord w s
  | some (f, x) =>
    if x.twin.isNone then execWord w s
    else match execWord w s, execWord w (asTrailing s c k) with
      | .next r, .next t =>
        if outside r c k = outside t c k then .next (withTrailing r t c k) else .next (setEnd (pairMismatch s f) .trapped)
      | o, _ => o

/-- The registers that a word of class X has as destinations (R54, R66, R225). -/
def secondDests (w : BitVec 96) : List (BitVec 8) :=
  match decodeWord w with
  | some (.vst _) => []
  | some (.vld m) => [m.data]
  | some (.vgath m) => [m.data, pSpec (qExtra m.qual)]
  | some (.vscat m) => [pSpec (qExtra m.qual)]
  | some _ => [(rOf w).d]
  | none => []

/-- Results of the first of a pair that are still to land, in registers that the second writes: the second's value
remains (R54). -/
def noteOver (w2 : BitVec 96) (s s1 s2 : State) : State :=
  match slotCtx s s.iss.core s.iss.slot with
  | none => s2
  | some (f, _) =>
    let opened := (upFrom 0 16).filter fun e => entryFree s f e && !entryFree s1 f e
    let mine (e : Nat) : List (BitVec 8) :=
      [bitsOf (entryOf s1 f e) 7 0, bitsOf (entryOf s1 f e) 15 8].map (BitVec.ofNat 8)
    let dests := if guardTrue s1 f (hdrOf w2) then (secondDests w2).filter fun d => (regWords d).2 != 0 else []
    let gone := opened.flatMap fun e => ((mine e).filter dests.contains).map fun d => (e, d)
    if gone.isEmpty then s2 else modCtx s2 f fun x => { x with overs := x.overs ++ gone }

/-- The second instruction of a pair after the first: with it both stand, or where it must hold neither has issued; a
first that blocks goes on waiting alone (R54). -/
def runSecond (w2 : BitVec 96) (s s1 : State) : Host.Outcome State Fault Refusal :=
  match execBoth w2 (secondIssue s1 w2) with
  | .next s2 =>
    if s2.iss.res = .held then .next (pairHolds s s2 s.iss.core s.iss.slot)
    else .next (if s1.iss.res = .blocked then s1 else if s2.iss.res = .completed then noteOver w2 s s1 s2 else s2)
  | o => o

/-- What an issue does (R37, R54). -/
def runPrep : Prep → Host.Outcome State Fault Refusal
  | .moved s => .next s
  | .single w s => execBoth w s
  | .pair w1 w2 s =>
    match execBoth w1 s with
    | .next s1 =>
      if (slotCtx s1 s.iss.core s.iss.slot).isSome && (s1.iss.res == .completed || s1.iss.res == .blocked)
      then runSecond w2 s s1 else .next s1
    | o => o

/-- The slots of a core are tried in order until one of them moves (R36). -/
def tryIssue (c : Nat) : List Nat → State → Host.Outcome State Fault Refusal
  | [], s => .next s
  | k :: rest, s =>
    match prepare s c k with
    | .moved t => .next t
    | p => match runPrep p with
      | .next t => if hasIssued s t c k then .next t else tryIssue c rest (keepPlace s t c)
      | o => o

/-- The slot whose context a pre-emption is due at, where its boundary is not yet known to be a PPOINT or not (R126). -/
def dueSlot (s : State) (c : Nat) : Option Nat :=
  match (coreOf s c).due with
  | none => none
  | some f => if !unmasked s c then none else (ctxOf s f).bind fun x => if x.core = c && willing s c x.slot then some x.slot else none

/-- A core issues from its next slot (R36); a pre-emption that is due comes first (R126, R138). -/
def issueFrom (c : Nat) (s : State) : Host.Outcome State Fault Refusal :=
  if preemptsParked s c || ((coreOf s c).due.isSome && (dueSlot s c).isNone && (coreOf s c).preReq && unmasked s c) then .next (takePreempt s c)
  else match dueSlot s c with
    | some k => tryIssue c ((if eligible s c k then [k] else []) ++ (issueOrder s c).filter (· != k)) s
    | none => tryIssue c (issueOrder s c) s

def perform (m : Move) (s : State) : Host.Outcome State Fault Refusal :=
  match m with
  | .event i => exec i s
  | .core c => issueFrom c s
  | .outside o => .next (outsideStep o s)

/-- A machine whose power is removed runs nothing but a power-on (R412, R415). -/
def mayRun (s : State) : Bool :=
  s.powered || match s.sched with
    | .event (.powerOnReset ..) :: _ => true
    | _ => false

-- DESIGN CHOICE, log 3. Safe.
/-- The move of a step with nothing scheduled: the first event that acts, else the issue of the core whose turn it
is. -/
def defaultMove (s : State) : Host.Outcome State Fault Refusal :=
  match nextEvent s with
  | some e => exec e s
  | none => issueFrom s.turn { s with turn := coreAfter s s.turn }

end Sys2Proof.Machine
end

