-- ==== Sys2Proof/Machine/Place.lean ====
section
/-! DEFINITION. Placing one instruction where the next issue of core 0, slot 0 fetches it: what a launch and a
fetch would have brought about (R23, R43, R52, R128). -/

namespace Sys2Proof.Machine

/-- A fetch line with one word in slot `j` and zeros in the others, every slot a legal entry, its parity right
(R49). -/
def lineWith (w : BitVec 96) (j : Nat) : BitVec 512 :=
  let body := w.toNat * 2 ^ (96 * j) + 31 * 2 ^ 507
  let bits := (upFrom 0 15).map fun i => if parityOf 32 (bitsOf body (32 * i + 31) (32 * i)) then 1 else 0
  let own := if parityOf 16 (bitsOf body 511 496) then 1 else 0
  BitVec.ofNat 512 (body + packBits 1 (bits ++ [own]) * 2 ^ 480)

/-- The frame of the context that is installed. -/
def seedFrame : Nat := 2
def seedPc : Word := 0x10000

/-- The partition and the task that the context belongs to, where the state has none. -/
def seedTask : Task := { token := 1, frames := [seedFrame], own := [seedFrame], ctl := seedFrame }

-- DESIGN CHOICE, log 52. Safe.
/-- A control context in slot 0 of core 0 as a bind leaves it (R23, R128), unless one is there. -/
def seedContext (s : State) : State :=
  if (slotCtx s 0 0).isSome then s
  else
    let s := modPart s 0 fun p => { p with exists_ := true, clusters := p.clusters ||| 1 }
    let s := modCore s 0 fun x =>
      { x with table := SMap.set {} x.table 0 { state := 2 }, tasks := SMap.set {} x.tasks 0 seedTask, cur := some 0 }
    let bank := freshBank seedFrame (freshWords seedPc 0 0 0 0 (ctxidWord 1 0 0 0) [] ++ controlSegs)
    setCtx (modSlot s 0 0 fun sl => { sl with act := bank }) seedFrame (some { core := 0, slot := 0, bind := 0 })

-- DESIGN CHOICE, log 52. Safe.
/-- Nothing keeps slot 0 of core 0 from issuing first. -/
def seedIdle (s : State) (f : Nat) : State :=
  let s := modCtx s f fun x =>
    { x with wait := none, park := none, trap := none, late := [], hlate := [], lateDue := [], parked := false
             entry := false, trail := false, dying := false }
  let s := modSlot s 0 0 fun sl => { sl with fetch := .idle }
  let s := modCore s 0 fun x =>
    { x with recent := x.recent.filter (· != 0), preReq := false, stopped := false, due := none
             tasks := SMap.mapOn {} (fun _ t => { t with ending := none }) x.tasks }
  { s with powered := true, reqs := s.reqs.filter fun r => !(r.frame == f && (r.target.isNone || r.op == 6)) }

-- DESIGN CHOICE, log 52. Safe.
/-- The line that holds the program counter is in the instruction cache and in memory, and its page in the
micro-TLB: a 64 KiB page at the same offset of die 0's DRAM. -/
def seedLine (s : State) (f : Nat) (w : BitVec 96) : State :=
  let pc := ctxPc s f
  let va := pcLine pc % 2 ^ 36
  let e := va / 2 ^ 16 * 2 ^ 16 + 0x10D
  let l := lineWith w (pcSlot pc)
  let s := modCore s 0 fun x =>
    { x with utlb := tlbInsert 16 (x.utlb.filter fun t => t.tag != 0) (tlbEntry 0 (pcLine pc) 0 e)
             icache := SMap.insert x.icache (va / 64) l }
  writeBytes s va 64 l.toNat

-- DESIGN CHOICE, log 52. Safe.
/-- The instruction that core 0 issues next. -/
def seedWord (s : State) (w : BitVec 96) : State :=
  let s := seedContext s
  match slotCtx s 0 0 with
  | none => s
  | some (f, _) => seedLine (seedIdle s f) f w

end Sys2Proof.Machine
end

