-- ==== Sys2Proof/Machine/Step.lean ====
section
/-! DEFINITION. One step: the next move of the schedule, or of the default order. -/

namespace Sys2Proof.Machine

-- DESIGN CHOICE, log 5. Safe.
-- DESIGN CHOICE, log 3. Safe.
/-- One step: time passes and the schedule names the move, or the default order does. -/
def step (s : State) : Host.Outcome State Fault Refusal :=
  if !mayRun s then .fault .powerRemoved
  else
    let s := advance s
    match s.sched with
    | m :: rest => perform m { s with sched := rest }
    | [] => defaultMove s

-- DESIGN CHOICE, log 52. Safe.
/-- A machine whose next step issues the given instruction: a control context in slot 0 of core 0, its line in the
instruction cache, and core 0 next to move. -/
def State.withFetchWord (s : State) (nbits w : Nat) : State :=
  { seedWord s (wordOfBytes (wordBytes (BitVec.ofNat 96 (w % 2 ^ nbits)))) with sched := [.core 0] }

end Sys2Proof.Machine
end

