-- ==== Sys2Proof/Safety.lean ====
section
/-! DEFINITION. The terms that statements about the machine use: the canonical forms a run keeps, when
a context can issue an instruction, and what an instruction leaves unchanged. -/

namespace Sys2Proof.Machine

/-! Canonical forms. -/

-- DESIGN CHOICE, log 1. Unsafe.
/-- Memory's canonical form: addresses strictly rising, no byte listed that an unlisted one reads as. -/
def Memory.wf (m : List Host.Cell) : Bool := SMap.wf 0 m

/-- The maps that memory lives in are canonical. -/
def tidyMemory (s : State) : Bool := Memory.wf s.mem && SMap.wf false s.full && SMap.wf false s.poison

/-- A bank that holds a frame holds lines 0 to 39 whole (R123). -/
def wholeBank (b : Bank) : Bool := b.frame.isNone || b.valid == BitVec.allOnes 40

/-- Every bank of every slot is whole or empty. -/
def wholeBanks (s : State) : Bool :=
  s.cores.all fun c => c.2.slots.all fun k => wholeBank k.2.act && wholeBank k.2.shadow

/-- A frame is the one in its context's slot, and its bank is whole (R123). -/
def inSlot (s : State) (f : Nat) : Bool :=
  match ctxOf s f with
  | none => false
  | some x => (slotOf s x.core x.slot).act.frame == some f && wholeBank (slotOf s x.core x.slot).act

/-- The trailing copy's frame, in a redundant pair (R391). -/
def twinOf (s : State) (f : Nat) : Option Nat := (ctxOf s f).bind Ctx.twin

/-- The context is bound: its frame, and its trailing copy's, are in their slots (R123, R391). -/
def bound (s : State) (f : Nat) : Bool :=
  inSlot s f && match twinOf s f with
    | none => true
    | some t => t != f && inSlot s t

/-! When a context can issue. -/

/-- Context `f` is in the issuing slot, the word is an instruction, and none of the frame words is poisoned. -/
def issues (i : Instr) (ws : List Nat) (s : State) (f : Nat) : Bool :=
  bound s f && issuer s == some f && legal i && (markedWord s f ws).isNone

/-- The same of the guard and of the registers that the instruction reads. -/
def mayIssue (i : Instr) (h : Hdr) (specs : List (BitVec 8)) (s : State) (f : Nat) : Bool :=
  issues i (guardWords h ++ specs.flatMap readWords) s f

/-- The same, with the guard true (R56). -/
def canIssue (i : Instr) (h : Hdr) (specs : List (BitVec 8)) (s : State) (f : Nat) : Bool :=
  mayIssue i h specs s f && guardTrue s f h

/-- The same of a vector instruction, whose guard is an element mask (R56). -/
def canVector (i : Instr) (h : Hdr) (specs : List (BitVec 8)) (s : State) (f : Nat) : Bool :=
  issues i ((if h.pg = 0 then [] else readWords (pSpec h.pg.toNat)) ++ specs.flatMap readWords) s f && !(h.pg == 0 && h.pn)

/-- A vector instruction under the guard code that is never true (R56). -/
def neverVector (i : Instr) (h : Hdr) (s : State) (f : Nat) : Bool := issues i [] s f && h.pg == 0 && h.pn

/-! Frames: what an instruction leaves unchanged. -/

/-- `t` is `s` but for bits of the bank of `f` (and its trailing copy's) and for the end of the issue: frame words
outside `words` keep their values and their poison marks, but for the program counter; no byte of memory changes, nor
anything else of the machine. -/
structure Wrote (s t : State) (f : Nat) (h : Hdr) (words : Nat → Prop) : Prop where
  rest : t = { s with cores := t.cores, ctxs := t.ctxs, iss := { s.iss with next := t.iss.next, res := .completed } }
  core : ∀ c, coreOf t c = { coreOf s c with slots := (coreOf t c).slots }
  slot : ∀ c k, slotOf t c k = { slotOf s c k with
    act := { (slotOf s c k).act with
      words := (slotOf t c k).act.words, dirty := (slotOf t c k).act.dirty, poison := (slotOf t c k).act.poison } }
  marks : ∀ g w, ¬ ((g = f ∨ twinOf s f = some g) ∧ (words w ∨ w = wPc)) → wordMarked t g w = wordMarked s g w
  kept : ∀ w, w < 1024 → ¬ words w → w ≠ wPc → readFrame t f w = readFrame s f w
  others : ∀ g, g ≠ f → twinOf s f ≠ some g → ∀ w, w < 1024 → readFrame t g w = readFrame s g w
  ctx : ctxOf t f = (ctxOf s f).map fun x => { x with wait := none, issued := false, after := none, parked := x.parked || h.sw, live := none }
  ctxs : ∀ g, g ≠ f → ctxOf t g = ctxOf s g

/-- The frame words of a register (R118). -/
def regHas (d : BitVec 8) (w : Nat) : Prop := (regWords d).1 ≤ w ∧ w < (regWords d).1 + (regWords d).2

/-- What a register holds after `v` is written to it: `g0` reads zero and `p0` all ones whatever is
written (R57). -/
def regValue (d : BitVec 8) (v : Nat) : Nat :=
  if isP d && idx d == 0 then 2 ^ 128 - 1 else v % 2 ^ (64 * (regWords d).2)

/-- Instruction `i` completes: register `d` (and the trailing copy's) holds `v`, the program counter moves on
to the next instruction (R50), nothing else changes. -/
def SetsReg (i : Instr) (h : Hdr) (d : BitVec 8) (v : Nat) (s : State) (f : Nat) : Prop :=
  ∃ t, exec i s = .next t ∧ Wrote s t f h (regHas d) ∧ t.iss.next = s.iss.next ∧ readReg t f d = regValue d v ∧
    ctxPc t f = s.iss.next ∧ ∀ g, twinOf s f = some g → readReg t g d = regValue d v ∧ ctxPc t g = s.iss.next

/-- Instruction `i` completes and changes nothing but the program counter and the parts in which `u` differs from
`s`: the bank words `ws` hold what `P` says. -/
def EndsAs (i : Instr) (h : Hdr) (ws : Nat → Prop) (s u : State) (f : Nat) (P : State → Prop) : Prop :=
  ∃ t, exec i s = .next t ∧ Wrote u t f h ws ∧ ctxPc t f = s.iss.next ∧ P t

/-- Entry `e` of the context's long results awaits `d0` and `d1`, and the others are as in `s` (R40, R119). -/
def Opened (s t : State) (f e : Nat) (d0 d1 : BitVec 8) : Prop :=
  entryOf t f e = 2 ^ 31 + d1.toNat * 2 ^ 8 + d0.toNat ∧ ∀ k, k < 16 → k ≠ e → entryOf t f k = entryOf s f k

/-- A long result on its way to a frame (R41). -/
def withRet (u : State) (f e : Nat) (ws : List RegWrite) (late : List TrapInfo) : State :=
  { u with rets := u.rets ++ [{ frame := f, entry := e, writes := ws, ready := true, late := late, ord := u.ord }]
           ord := u.ord + 1 }

/-- Instruction `i` completes with a long result outstanding, in the lowest free entry: the writes `ws` and the
faults `late` are on their way to its frame (R40, R41), the rest is as in `u`. -/
def SendsResult (i : Instr) (h : Hdr) (d0 d1 : BitVec 8) (ws : List RegWrite) (late : List TrapInfo) (s u : State)
    (f : Nat) : Prop :=
  ∃ e, freeEntry s f = some e ∧
    EndsAs i h (· = 102 + e / 2) s (withRet u f e ws late) f fun t => Opened s t f e d0 d1

/-- Instruction `i` does not complete: it holds for `w` and is issued again, and nothing else changes (R36). -/
def Holds (i : Instr) (w : Wait) (s : State) (f : Nat) : Prop :=
  ∃ x, ctxOf s f = some x ∧
    exec i s = .next { s with ctxs := SMap.set none s.ctxs f (some { x with wait := some w, issued := x.issued && x.wait.isSome }),
                              iss := { s.iss with res := .held } }

/-- Instruction `i` has issued and blocks for `w`: a liveness mask is discarded, and nothing else changes (R125, R192). -/
def Blocks (i : Instr) (w : Wait) (s : State) (f : Nat) : Prop :=
  ∃ x, ctxOf s f = some x ∧
    exec i s = .next { s with ctxs := SMap.set none s.ctxs f (some { x with wait := some w, issued := true, live := none }),
                              iss := { s.iss with res := .blocked } }

/-- The order of a context's arrival at a FIFO bank's port, that of its wait `w` there or the next one, and the order
after it (R304). -/
def Arrives (s : State) (x : Ctx) (w : Nat → Wait) (o next : Nat) : Prop :=
  (x.wait = some (w o) ∧ next = s.ord) ∨ ((∀ p, x.wait ≠ some (w p)) ∧ o = s.ord ∧ next = s.ord + 1)

/-- Instruction `i` completes and control goes to `T`; register `d` holds `v` (R154, R155). -/
def JumpsTo (i : Instr) (h : Hdr) (d : BitVec 8) (v : Nat) (T : Word) (s : State) (f : Nat) : Prop :=
  ∃ t, exec i s = .next t ∧ Wrote s t f h (regHas d) ∧ readReg t f d = regValue d v ∧ ctxPc t f = T

/-- A trap will be taken at once: no long result is outstanding (R42), no earlier fault of the run waits (R115) and
no capsule is held (R351). -/
def trapsAtOnce (s : State) (f : Nat) : Bool :=
  noPending s f && match ctxOf s f with
    | none => false
    | some x => (runLate s f x).isEmpty && x.cap.isNone

/-- The handler has been entered for `tr` (R133): the trap frame written (R120), inh set, control at `sys.tvec`; no
other word of the frame and no byte of memory changes. -/
structure Entered (s t : State) (f : Nat) (tr : TrapInfo) : Prop where
  epc : readFrame t f wEpc = tr.pc
  ecode : readFrame t f wEcode = codeWord tr
  eaddr : readFrame t f wEaddr = tr.addr
  einst0 : readFrame t f wEinst0 = BitVec.ofNat 64 (if tr.async then 0 else fld tr.word 63 0)
  einst1 : readFrame t f wEinst1 = BitVec.ofNat 64 (if tr.async then 0 else fld tr.word 95 64)
  estat : readFrame t f wEstat = readFrame s f wStatus
  status : readFrame t f wStatus = readFrame s f wStatus ||| 0x20#64
  pc : ctxPc t f = readFrame s f wTvec
  kept : ∀ w, w < 1024 → w ≠ wPc → w ≠ wStatus → ¬ (wEpc ≤ w ∧ w ≤ wEstat) → readFrame t f w = readFrame s f w
  mem : t.mem = s.mem

/-- The trap has escalated (R133): the context is parked, its frame is left as it was, and the fault message of its
identity, program counter, code word and address is on its way to the supervisor's mailbox. -/
structure Escalated (s t : State) (f : Nat) (tr : TrapInfo) : Prop where
  parked : (ctxOf t f).map Ctx.park = some (some (.escalated tr))
  frame : ∀ w, w < 1024 → readFrame t f w = readFrame s f w
  mail : t.mail = s.mail ++ [{ part := ((ctxOf s f).map (ctxPart s)).getD 0, ctxid := readFrame s f wCtxid, pc := tr.pc,
                               code := codeWord tr, addr := tr.addr }]
  mem : t.mem = s.mem

/-- An exact trap of the instruction being issued. -/
def exactTrap (s : State) (code cause : Nat) (addr : Word) : TrapInfo :=
  { code := BitVec.ofNat 8 code, cause := BitVec.ofNat 8 cause, addr := addr, pc := s.iss.pc, word := s.iss.word,
    async := false }

/-- Instruction `i` takes the exact trap: the handler is entered, or the trap escalates (R133). -/
def Traps (i : Instr) (code cause : Nat) (addr : Word) (s : State) (f : Nat) : Prop :=
  ∃ t, exec i s = .next t ∧ t.iss.res = .trapped ∧
    (delivered s f (exactTrap s code cause addr) = true → Entered s t f (exactTrap s code cause addr)) ∧
    (delivered s f (exactTrap s code cause addr) = false → Escalated s t f (exactTrap s code cause addr))

/-! Vectors. -/

/-- A vector instruction completes: element `e` of `m` elements of `w` bits of register `d` holds what `g` gives it where
its mask bit, bit `stride * e`, is set, and keeps its value where it is not (R56, R209). -/
def SetsLanes (i : Instr) (h : Hdr) (d : BitVec 8) (w stride m : Nat) (s : State) (f : Nat) (g : Nat → Nat) : Prop :=
  ∃ y, SetsReg i h d y s f ∧
    ∀ e, e < m → lane w y e = if maskAt s f h (stride * e) = true then g e % 2 ^ w else lane w (readReg s f d) e

/-! Memory. -/

/-- The FIFO bank that the context waited at has been switched (R302). -/
def fifoSwitched (x : Ctx) : Bool :=
  match x.wait with
  | some (.fifoGone _) => true
  | _ => false

/-- A thread memory instruction of a context that can issue reaches its segment check: its bank is not in transition, and
was not switched while it waited (R95, R302). -/
def reachesCheck (i : Instr) (w : MWord) (specs : List (BitVec 8)) (s : State) (f : Nat) (x : Ctx) : Prop :=
  canIssue i w.hdr specs s f = true ∧ ctxOf s f = some x ∧ fifoSwitched x = false ∧
    bankHeld s x (readSeg s f w.seg.toNat) (memOff s f w) = false

/-- The bytes of `t` are those of `s`, but for `n` bytes at `k`, which hold `v` little-endian (R2). -/
def Stored (s t : State) (k n v : Nat) : Prop :=
  (∀ j, j < n → readByte t (k + j) = BitVec.ofNat 8 (v / 256 ^ j)) ∧ ∀ a, (a < k ∨ k + n ≤ a) → readByte t a = readByte s a

/-- No byte of memory changes, but where a line leaves its slice and shows what an agent outside the package had written
behind it (R309). -/
def SameBytes (s t : State) : Prop := ∀ a, (∀ p, p ∈ s.behind → p.1 ≠ a) → readByte t a = readByte s a

/-- A store at a home slice: as `Stored`, and lines may leave their slices for it (R308, R309). -/
def StoredAtHome (s t : State) (k n v : Nat) : Prop :=
  (∀ j, j < n → readByte t (k + j) = BitVec.ofNat 8 (v / 256 ^ j)) ∧
    ∀ a, (a < k ∨ k + n ≤ a) → (∀ p, p ∈ s.behind → p.1 ≠ a) → readByte t a = readByte s a

end Sys2Proof.Machine
end

