-- ==== Sys2Proof/WellFormed.lean ====
section
/-! DEFINITION. Well-formed instructions: those whose word is an instruction under R68. -/

namespace Sys2Proof

/-- The word of `i` is an instruction (R68). -/
abbrev WellFormed (i : Instr) : Prop := Machine.legal i = true

end Sys2Proof
end

