-- ==== Sys2Proof/Certificates/Slice0/Obligations.lean ====
section
/-! DEFINITION. The statements made of this model, for the provers. `SetsReg`, `SendsResult`, `EndsAs` and `Holds`
(Safety.lean) each say that `exec` answers a next state and what that state holds, with the frame. -/

open Sys2Proof Sys2Proof.Machine

/-! The thread engine: arithmetic, logic, compares and moves (R143 to R153). -/

/-- The y column of R143's table, each put with wrap or, under `.sat`, clamped.
R144: the quotient truncated toward zero, the remainder with the sign of A, and the values for B = 0; both
results are long and neither instruction traps. -/
def Obligations.IntegerArithmetic : Prop :=
  (∀ (w : RWord) (s : State) (f : Nat) (A B : Int) (t : Nat),
      t = tyOf w.hdr → A = val s f t w.a w.imm → B = val s f t w.b w.imm →
      (canIssue (.add w) w.hdr [w.a, w.b] s f = true →
        SetsReg (.add w) w.hdr w.d (putSat (qSat w.qual) t (A + B)) s f) ∧
      (canIssue (.sub w) w.hdr [w.a, w.b] s f = true →
        SetsReg (.sub w) w.hdr w.d (putSat (qSat w.qual) t (A - B)) s f) ∧
      (canIssue (.mul w) w.hdr [w.a, w.b] s f = true →
        SetsReg (.mul w) w.hdr w.d (putSat (qSat w.qual) t (A * B)) s f) ∧
      (canIssue (.mulh w) w.hdr [w.a, w.b] s f = true →
        SetsReg (.mulh w) w.hdr w.d (putVal t (A * B / 2 ^ tyWidth t)) s f) ∧
      (canIssue (.min w) w.hdr [w.a, w.b] s f = true →
        SetsReg (.min w) w.hdr w.d (putVal t (min A B)) s f) ∧
      (canIssue (.max w) w.hdr [w.a, w.b] s f = true →
        SetsReg (.max w) w.hdr w.d (putVal t (max A B)) s f)) ∧
  (∀ (w : RWord) (s : State) (f : Nat) (A B q : Int) (t : Nat),
      t = tyOf w.hdr → A = val s f t w.a w.imm → B = val s f t w.b w.imm →
      q = (if B = 0 then (if tySigned t then -1 else 2 ^ tyWidth t - 1) else A.tdiv B) →
      (freeEntry s f).isSome = true →
      (canIssue (.div w) w.hdr [w.a, w.b] s f = true →
        SendsResult (.div w) w.hdr w.d 0 [regWrite w.d (putSat (qSat w.qual) t q)] [] s s f) ∧
      (canIssue (.rem w) w.hdr [w.a, w.b] s f = true →
        SendsResult (.rem w) w.hdr w.d 0 [regWrite w.d (putVal t (if B = 0 then A else A - q * B))] [] s s f))

/-- R146: AND, OR, XOR and ANDN bit by bit, and the shifts by n = src(b)[5:0] mod w, on the low w bits.
R145, R147, R148: an address; a bit field read, and replaced; leading and trailing zeros, ones counted, bits
reversed. -/
def Obligations.LogicShiftsAndFields : Prop :=
  (∀ (w : RWord) (s : State) (f t A B n : Nat),
      t = tyOf w.hdr → A = src s f w.a w.imm % 2 ^ tyWidth t → B = src s f w.b w.imm % 2 ^ tyWidth t →
      n = src s f w.b w.imm % 64 % tyWidth t →
      (canIssue (.and w) w.hdr [w.a, w.b] s f = true → SetsReg (.and w) w.hdr w.d (putVal t (A &&& B : Nat)) s f) ∧
      (canIssue (.or w) w.hdr [w.a, w.b] s f = true → SetsReg (.or w) w.hdr w.d (putVal t (A ||| B : Nat)) s f) ∧
      (canIssue (.xor w) w.hdr [w.a, w.b] s f = true → SetsReg (.xor w) w.hdr w.d (putVal t (A ^^^ B : Nat)) s f) ∧
      (canIssue (.andn w) w.hdr [w.a, w.b] s f = true →
        SetsReg (.andn w) w.hdr w.d (putVal t (A &&& ((2 ^ tyWidth t - 1) ^^^ B) : Nat)) s f) ∧
      (canIssue (.shl w) w.hdr [w.a, w.b] s f = true → SetsReg (.shl w) w.hdr w.d (putVal t (A * 2 ^ n : Nat)) s f) ∧
      (canIssue (.shr w) w.hdr [w.a, w.b] s f = true → SetsReg (.shr w) w.hdr w.d (putVal t (A / 2 ^ n : Nat)) s f) ∧
      (canIssue (.sra w) w.hdr [w.a, w.b] s f = true →
        SetsReg (.sra w) w.hdr w.d (putVal t (sextInt (tyWidth t) A / 2 ^ n)) s f) ∧
      (canIssue (.rot w) w.hdr [w.a, w.b] s f = true →
        ∃ y, SetsReg (.rot w) w.hdr w.d (putVal t (y : Nat)) s f ∧ y < 2 ^ tyWidth t ∧
          ∀ k, k < tyWidth t → y.testBit k = A.testBit ((k + tyWidth t - n) % tyWidth t))) ∧
  (∀ (w : RWord) (s : State) (f t A B x pos len : Nat),
      t = tyOf w.hdr → A = readReg s f w.a → B = readReg s f w.b → x = A % 2 ^ tyWidth t →
      pos = fld w.imm 5 0 → len = fld w.imm 13 8 + 1 →
      (canIssue (.lea w) w.hdr [w.a, w.b] s f = true →
        SetsReg (.lea w) w.hdr w.d (n64 ((A : Int) + B * 2 ^ qExtra w.qual + w.imm.toInt)).toNat s f) ∧
      (canIssue (.bfx w) w.hdr [w.a] s f = true →
        SetsReg (.bfx w) w.hdr w.d
          (if tySigned t then lowBits 64 (sextInt len (bitsOf A (pos + len - 1) pos)) else bitsOf A (pos + len - 1) pos) s f) ∧
      (canIssue (.bfi w) w.hdr [w.a, w.b] s f = true →
        ∃ y, SetsReg (.bfi w) w.hdr w.d y s f ∧
          ∀ k, y.testBit k = if pos ≤ k ∧ k < pos + len then B.testBit (k - pos) else A.testBit k) ∧
      (canIssue (.clz w) w.hdr [w.a] s f = true →
        ∃ y, SetsReg (.clz w) w.hdr w.d y s f ∧ y ≤ tyWidth t ∧
          (∀ k, tyWidth t - y ≤ k → x.testBit k = false) ∧ (y < tyWidth t → x.testBit (tyWidth t - 1 - y) = true)) ∧
      (canIssue (.ctz w) w.hdr [w.a] s f = true →
        ∃ y, SetsReg (.ctz w) w.hdr w.d y s f ∧ y ≤ tyWidth t ∧
          (∀ k, k < y → x.testBit k = false) ∧ (y < tyWidth t → x.testBit y = true)) ∧
      (canIssue (.popc w) w.hdr [w.a] s f = true →
        SetsReg (.popc w) w.hdr w.d ((List.range (tyWidth t)).countP x.testBit) s f) ∧
      (canIssue (.brev w) w.hdr [w.a] s f = true →
        ∃ y, SetsReg (.brev w) w.hdr w.d y s f ∧ y < 2 ^ tyWidth t ∧
          ∀ k, k < tyWidth t → y.testBit k = x.testBit (tyWidth t - 1 - k)))

/-- R149, with its encoding (op 0x18, d a predicate, a a general register, b one or the immediate, ty 1 to 8, the six
conditions, no `.sat`): all 128 bits of p[d] are set when the condition holds of val(a) and val(b), and cleared when it
does not. -/
def Obligations.CompareSetsPredicate : Prop :=
  ∀ (w : RWord) (s : State) (f : Nat) (A B : Int) (holds : Prop),
    (WellFormed (.cmp w) → (∃ e, encode (.cmp w) = some e ∧ e.extractLsb' 88 8 = 0x18#8) ∧ 1 ≤ tyOf w.hdr ∧ tyOf w.hdr ≤ 8 ∧
      isP w.d = true ∧ isG w.a = true ∧ (isG w.b = true ∨ w.b = 0xFF#8) ∧ qExtra w.qual ≤ 5 ∧ qSat w.qual = false) ∧
    (canIssue (.cmp w) w.hdr [w.a, w.b] s f = true →
      A = val s f (tyOf w.hdr) w.a w.imm → B = val s f (tyOf w.hdr) w.b w.imm →
      (holds ↔ match qExtra w.qual with
        | 0 => A = B
        | 1 => A ≠ B
        | 2 => A < B
        | 3 => A ≤ B
        | 4 => A > B
        | _ => A ≥ B) →
      (holds → SetsReg (.cmp w) w.hdr w.d (2 ^ 128 - 1) s f) ∧ (¬ holds → SetsReg (.cmp w) w.hdr w.d 0 s f))

/-- R150, with its encoding: op 0x19, ty 0, d and a general registers, b a register or the immediate, c a
predicate. -/
def Obligations.SelectByPredicate : Prop :=
  ∀ (w : RWord) (s : State) (f : Nat),
    (WellFormed (.sel w) → (∃ e, encode (.sel w) = some e ∧ e.extractLsb' 88 8 = 0x19#8) ∧ tyOf w.hdr = 0 ∧
      isG w.d = true ∧ isG w.a = true ∧ (isG w.b = true ∨ w.b = 0xFF#8) ∧ isP w.c = true) ∧
    (canIssue (.sel w) w.hdr [w.a, w.b, w.c] s f = true →
      SetsReg (.sel w) w.hdr w.d
        (if (readReg s f w.c).testBit 0 then readReg s f w.a else src s f w.b w.imm) s f)

/-- R151, R152, R153: MOV, MOVI (every 64-bit part of a vector register) and PLOG over all 128 bits. -/
def Obligations.MovesAndPredicateLogic : Prop :=
  ∀ (w : RWord) (l : LWord) (s : State) (f : Nat),
    (canIssue (.mov w) w.hdr [w.a] s f = true → SetsReg (.mov w) w.hdr w.d (src s f w.a w.imm) s f) ∧
    (canIssue (.movi l) l.hdr [] s f = true → isG l.d = true → SetsReg (.movi l) l.hdr l.d l.imm.toNat s f) ∧
    (canIssue (.movi l) l.hdr [] s f = true → isV l.d = true →
      ∃ y, SetsReg (.movi l) l.hdr l.d y s f ∧ ∀ k, k < 16 → bitsOf y (64 * k + 63) (64 * k) = l.imm.toNat) ∧
    (canIssue (.plog w) w.hdr [w.a, w.b] s f = true →
      ∃ y, SetsReg (.plog w) w.hdr w.d y s f ∧ ∀ k, k < 128 → y.testBit k =
        match fnOf w.hdr with
        | 0 => (readReg s f w.a).testBit k && (readReg s f w.b).testBit k
        | 1 => (readReg s f w.a).testBit k || (readReg s f w.b).testBit k
        | 2 => (readReg s f w.a).testBit k ^^ (readReg s f w.b).testBit k
        | _ => (readReg s f w.a).testBit k && !(readReg s f w.b).testBit k)

/-! Control transfer, traps and contexts (R53, R133 to R137, R154 to R163). -/

/-- R154, R155, R53: a branch not taken goes on; a branch, call, return or jump to a legal entry, one whose line `l` has
the slot's tmask bit set, goes there, and a call or jump writes its link (none for register 0). -/
def Obligations.ControlTransfers : Prop :=
  ∀ (b : BWord) (w : RWord) (s : State) (f : Nat) (T U : Word) (taken : Prop),
    (taken ↔ fnOf b.hdr = 0 ∨ (fnOf b.hdr = 1 ∧ readReg s f b.cond = 0) ∨ (fnOf b.hdr = 2 ∧ readReg s f b.cond ≠ 0)) →
    T = n64 ((s.iss.pc.toNat / 64 * 64 : Nat) + b.disp.toInt * 64 + b.slot.toNat) →
    U = BitVec.ofNat 64 (readReg s f w.a) →
    (canIssue (.br b) b.hdr [b.cond] s f = true → ¬ taken → EndsAs (.br b) b.hdr (fun _ => False) s s f fun _ => True) ∧
    (∀ flat l, b.slot.toNat < 5 → lineAt s f (T.toNat / 64 * 64) = .ready flat l →
      l.getLsbD (480 + 27 + b.slot.toNat) = true →
      (canIssue (.br b) b.hdr [b.cond] s f = true → taken → JumpsTo (.br b) b.hdr 0 0 T s f) ∧
      (canIssue (.call b) b.hdr [] s f = true → JumpsTo (.call b) b.hdr b.link s.iss.next.toNat T s f)) ∧
    (∀ flat l, fld U 5 3 = 0 → fld U 2 0 < 5 → lineAt s f (U.toNat / 64 * 64) = .ready flat l →
      l.getLsbD (480 + 27 + fld U 2 0) = true →
      (canIssue (.ret w) w.hdr [w.a] s f = true → JumpsTo (.ret w) w.hdr 0 0 U s f) ∧
      (canIssue (.jmp w) w.hdr [w.a] s f = true → JumpsTo (.jmp w) w.hdr w.d s.iss.next.toNat U s f))

/-- R53, R154, R155: a jump to an address with bits [5:3] set, or with a slot above 4, a branch or call to a slot above 4,
and any of these to a slot whose tmask bit is clear, takes trap 0x03 at the jump, with the target in `sys.eaddr`; no link
is written.
R156, R133: TRAP takes the exact trap 0x0A with the cause of its immediate; its handler is entered with the trap frame
written, or the trap escalates.
R42, R133: a trap raised with long results outstanding waits: its context holds it, and nothing else changes. R65, R68: a
word that is no instruction, and an instruction with a reserved field, take trap 0x01 with the word in the trap frame;
code 0x01 is a supervisor's, so the trap escalates whatever the handler (R131, R133). -/
def Obligations.TrapsAreRaised : Prop :=
  (∀ (w : RWord) (s : State) (f : Nat) (U : Word),
      trapsAtOnce s f = true → U = BitVec.ofNat 64 (readReg s f w.a) → (fld U 5 3 ≠ 0 ∨ 5 ≤ fld U 2 0) →
      (canIssue (.ret w) w.hdr [w.a] s f = true → Traps (.ret w) 0x03 0 U s f) ∧
      (canIssue (.jmp w) w.hdr [w.a] s f = true → Traps (.jmp w) 0x03 0 U s f)) ∧
  (∀ (b : BWord) (w : RWord) (s : State) (f : Nat) (T U : Word) (at_ : Target) (l : BitVec 512),
      trapsAtOnce s f = true → T = n64 ((s.iss.pc.toNat / 64 * 64 : Nat) + b.disp.toInt * 64 + b.slot.toNat) →
      U = BitVec.ofNat 64 (readReg s f w.a) →
      ((5 ≤ b.slot.toNat ∨
          (lineAt s f (T.toNat / 64 * 64) = .ready at_ l ∧ l.getLsbD (480 + 27 + b.slot.toNat) = false)) →
        (canIssue (.br b) b.hdr [b.cond] s f = true → branchTaken (fnOf b.hdr) (readReg s f b.cond) = true →
          Traps (.br b) 0x03 0 T s f) ∧
        (canIssue (.call b) b.hdr [] s f = true → Traps (.call b) 0x03 0 T s f)) ∧
      (fld U 5 3 = 0 → fld U 2 0 < 5 → lineAt s f (U.toNat / 64 * 64) = .ready at_ l →
        l.getLsbD (480 + 27 + fld U 2 0) = false →
        (canIssue (.ret w) w.hdr [w.a] s f = true → Traps (.ret w) 0x03 0 U s f) ∧
        (canIssue (.jmp w) w.hdr [w.a] s f = true → Traps (.jmp w) 0x03 0 U s f))) ∧
  (∀ (w : RWord) (s : State) (f : Nat),
      canIssue (.trap w) w.hdr [] s f = true → trapsAtOnce s f = true →
      Traps (.trap w) 0x0A (w.imm.toNat % 256) 0 s f) ∧
  (∀ (w : RWord) (s : State) (f : Nat) (x : Ctx),
      canIssue (.trap w) w.hdr [] s f = true → ctxOf s f = some x → noPending s f = false →
      exec (.trap w) s = .next { s with
        ctxs := SMap.set none s.ctxs f (some { x with trap := some (exactTrap s 0x0A (w.imm.toNat % 256) 0), wait := none })
        iss := { s.iss with res := .trapped } }) ∧
  (∀ (e : BitVec 96) (w : RWord) (s : State) (f : Nat),
      bound s f = true → issuer s = some f → trapsAtOnce s f = true →
      (∃ t, exec (.notAnInstructionIssue e) s = .next t ∧ t.iss.res = .trapped ∧
        Escalated s t f { exactTrap s 0x01 0 0 with word := e }) ∧
      (legal (.add w) = false → ∃ t, exec (.add w) s = .next t ∧ t.iss.res = .trapped ∧ Escalated s t f (exactTrap s 0x01 0 0)))

/-- R135, R157: TRET with inh set and a well-formed `sys.epc` sets the program counter from it and restores
`sys.status` but for slot, ppend and apend; no refused store having been handled, nothing else of the frame changes.
With inh clear it takes trap 0x05 with cause 2, and a malformed `sys.epc` takes trap 0x03. The words it reads, `sys.epc`
and `sys.estat`, are not poisoned (R388). -/
def Obligations.TrapReturn : Prop :=
  ∀ (w : RWord) (s : State) (f : Nat) (x : Ctx) (st : Nat),
    canIssue (.tret w) w.hdr [] s f = true → ctxOf s f = some x → st = statusOf s f →
    (stInh st = true → markedWord s f [wEpc, wEstat] = none → fld (readFrame s f wEpc) 5 3 = 0 →
      fld (readFrame s f wEpc) 2 0 < 5 → x.served = none →
      ∃ t, exec (.tret w) s = .next t ∧ ctxPc t f = readFrame s f wEpc ∧
        (∀ k, k < 64 → (statusOf t f).testBit k =
          if (12 ≤ k ∧ k ≤ 15) ∨ (2 ≤ k ∧ k ≤ 3) then st.testBit k else (readFrame s f wEstat).getLsbD k) ∧
        (∀ v, v < 1024 → v ≠ wPc → v ≠ wStatus → readFrame t f v = readFrame s f v) ∧ t.mem = s.mem ∧
        t.iss.res = .completed) ∧
    (stInh st = false → trapsAtOnce s f = true → Traps (.tret w) 0x05 2 0 s f) ∧
    (stInh st = true → markedWord s f [wEpc, wEstat] = none → trapsAtOnce s f = true →
      (fld (readFrame s f wEpc) 5 3 ≠ 0 ∨ 5 ≤ fld (readFrame s f wEpc) 2 0) → Traps (.tret w) 0x03 0 (readFrame s f wEpc) s f)

/-- R158, R161, R162: NOP has no effect; JOIN completes at once but in a control context with live helpers, which it
blocks; PPOINT records the mask, and without a pre-emption pending goes on.
R56: a false guard, any instruction of these, and of the vector engine the guard code that is never true (the model's
reading: log 76): the issue ends and nothing else happens. -/
def Obligations.NopJoinPpointAndGuards : Prop :=
  (∀ (w : RWord) (s : State) (f : Nat) (x : Ctx),
      ctxOf s f = some x →
      (canIssue (.nop w) w.hdr [] s f = true → EndsAs (.nop w) w.hdr (fun _ => False) s s f fun _ => True) ∧
      (canIssue (.join w) w.hdr [] s f = true →
        ((isControl s f = false ∨ liveHelpers s x.core x.bind = 0) →
          EndsAs (.join w) w.hdr (fun _ => False) s s f fun _ => True) ∧
        (isControl s f = true → 0 < liveHelpers s x.core x.bind → Blocks (.join w) .retry s f)) ∧
      (canIssue (.ppoint w) w.hdr [w.a] s f = true → (coreOf s s.iss.core).preReq = false →
        ∃ t, exec (.ppoint w) s = .next (modCtx t f fun y => { y with live := some (BitVec.ofNat 128 (readReg s f w.a)) }) ∧
          Wrote s t f w.hdr (fun _ => False) ∧ ctxPc t f = s.iss.next)) ∧
  (∀ (w : RWord) (m : MWord) (s : State) (f : Nat),
      (mayIssue (.add w) w.hdr [] s f = true → guardTrue s f w.hdr = false →
        EndsAs (.add w) w.hdr (fun _ => False) s s f fun _ => True) ∧
      (mayIssue (.trap w) w.hdr [] s f = true → guardTrue s f w.hdr = false →
        EndsAs (.trap w) w.hdr (fun _ => False) s s f fun _ => True) ∧
      (mayIssue (.tret w) w.hdr [] s f = true → guardTrue s f w.hdr = false →
        EndsAs (.tret w) w.hdr (fun _ => False) s s f fun _ => True) ∧
      (mayIssue (.exit w) w.hdr [] s f = true → guardTrue s f w.hdr = false →
        EndsAs (.exit w) w.hdr (fun _ => False) s s f fun _ => True) ∧
      (mayIssue (.st m) m.hdr [] s f = true → guardTrue s f m.hdr = false →
        EndsAs (.st m) m.hdr (fun _ => False) s s f fun _ => True) ∧
      (mayIssue (.mma w) w.hdr [] s f = true → guardTrue s f w.hdr = false →
        EndsAs (.mma w) w.hdr (fun _ => False) s s f fun _ => True) ∧
      (neverVector (.vadd w) w.hdr s f = true → EndsAs (.vadd w) w.hdr (fun _ => False) s s f fun _ => True) ∧
      (neverVector (.vdiv w) w.hdr s f = true → EndsAs (.vdiv w) w.hdr (fun _ => False) s s f fun _ => True) ∧
      (neverVector (.vred w) w.hdr s f = true → EndsAs (.vred w) w.hdr (fun _ => False) s s f fun _ => True) ∧
      (neverVector (.vcvt w) w.hdr s f = true → EndsAs (.vcvt w) w.hdr (fun _ => False) s s f fun _ => True) ∧
      (neverVector (.vld m) m.hdr s f = true → EndsAs (.vld m) m.hdr (fun _ => False) s s f fun _ => True) ∧
      (neverVector (.vgath m) m.hdr s f = true → EndsAs (.vgath m) m.hdr (fun _ => False) s s f fun _ => True))

/-- R159: START and START.svc with no room or from a context that is no control context clear p[d] and do nothing else;
otherwise the context that `startContext` makes is there and p[d] is set, both as a long result. R23, R128, R159: a
started context of a task without the redundant flag: the lowest free slot, its program counter and g1, g2, g3, the task's
privilege, the segments and the handler of its control context, its kind and class, and zero in every other register.
R160, R140: EXIT with nothing of the context outstanding, no refused store and no engine operation of its task in flight
ends it: it is gone, and its slot no longer holds its frame. The model's readings: log 25, log 54, log 60 and log 81. -/
def Obligations.ContextsStartAndRetire : Prop :=
  (∀ (w : RWord) (s u : State) (f e g k : Nat) (x : Ctx) (pc : Word) (gs : List Word),
      ctxOf s f = some x → allPerformed s s.iss.core f = true → freeEntry s f = some e → k = fld w.imm 2 0 →
      pc = BitVec.ofNat 64 (readReg s f w.a) →
      gs = [BitVec.ofNat 64 (readReg s f w.b), BitVec.ofNat 64 (readReg s f w.c), BitVec.ofNat 64 (ctxTask s x).count] →
      (canIssue (.start w) w.hdr [w.a, w.b, w.c] s f = true →
        (isControl s f = false ∨ 10 ≤ liveHelpers s x.core x.bind ∨ freeSlot s x.core (ctxTask s x).red = none →
          SendsResult (.start w) w.hdr w.d 0 [regWrite w.d 0] [] s s f) ∧
        (isControl s f = true → liveHelpers s x.core x.bind < 10 →
          startContext (openEntry s f e w.d 0) x.core x.bind 1 0 pc gs none = some (g, u) →
          exec (.start w) s = .next (finish w.hdr f (sendResult u f e [regWrite w.d (2 ^ 128 - 1)] [])))) ∧
      (canIssue (.startSvc w) w.hdr [w.a, w.b, w.c] s f = true →
        (isControl s f = false ∨ (∃ q p, q ∈ (coreOf s x.core).tasks ∧ p ∈ q.2.svc ∧ p.1 = k) ∨ freeSlot s x.core (ctxTask s x).red = none →
          SendsResult (.startSvc w) w.hdr w.d 0 [regWrite w.d 0] [] s s f) ∧
        (isControl s f = true → (∀ q p, q ∈ (coreOf s x.core).tasks → p ∈ q.2.svc → p.1 ≠ k) →
          startContext (openEntry s f e w.d 0) x.core x.bind 2 k pc gs none = some (g, u) →
          ∃ t, exec (.startSvc w) s = .next t ∧ (k, g) ∈ (taskOf t x.core x.bind).svc ∧
            t.rets = u.rets ++ [{ frame := f, entry := e, writes := [regWrite w.d (2 ^ 128 - 1)], ready := true, late := [],
                                  ord := u.ord }] ∧ t.mem = u.mem ∧ t.iss.res = .completed))) ∧
  (∀ (s u : State) (c b kind cls g k : Nat) (pc a1 a2 a3 : Word) (cl : Option (Nat × BitVec 16 × Word)) (t : Task),
      t = taskOf s c b → t.red = false → kind < 4 → cls < 8 →
      freeSlot s c false = some k →
      startContext s c b kind cls pc [a1, a2, a3] cl = some (g, u) →
      ctxOf u g = some { core := c, slot := k, bind := b, caller := cl, entry := true } ∧
      (slotOf u c k).act.frame = some g ∧ ctxPc u g = pc ∧
      readFrame u g 1 = a1 ∧ readFrame u g 2 = a2 ∧ readFrame u g 3 = a3 ∧
      (∀ w, w < 640 → w = 0 ∨ (4 ≤ w ∧ w < 78) ∨ w = wTscr ∨ 102 ≤ w → readFrame u g w = 0) ∧
      readFrame u g wStatus = BitVec.ofNat 64 (k * 2 ^ 12 + t.priv.toNat * 2 ^ 6) ∧
      readFrame u g wTvec = readFrame s t.ctl wTvec ∧ (∀ w, 78 ≤ w → w < 96 → readFrame u g w = readFrame s t.ctl w) ∧
      readFrame u g wEngbind = 0 ∧ ctxKind u g = kind ∧ ctxClass u g = cls ∧
      fld (readFrame u g wCtxid) 63 32 = launchId t.token ∧ fld (readFrame u g wCtxid) 31 16 = t.index % 2 ^ 16) ∧
  (∀ (w : RWord) (s : State) (f : Nat) (x : Ctx),
      canIssue (.exit w) w.hdr [] s f = true → ctxOf s f = some x → outstanding s f = [] → noPending s f = true →
      runLate s f x = [] → nextRefused s x.core f = none →
      (∀ k, k < 64 → (jentry s x.core k).state = 1 → (jentry s x.core k).frame ≠ f) →
      (∀ g, inFlight s g = false) →
      ∃ t, exec (.exit w) s = .next t ∧ ctxOf t f = none ∧ (slotOf t x.core x.slot).act.frame ≠ some f ∧
        t.iss.res = .completed)

/-- R163, R371: LAUNCH of a record that is not poisoned, at a die whose firmware runs and with room in its queue: the
record's 16 words join the device launch queue under the die's next token, which comes back as a long result; with 64
records waiting the result is 0. The state `v` and the address `at_` are those once the segment's kind has been resolved
(R93). A record without a valid translation, or with a poisoned word, and any at a die whose firmware does not run, is
refused with 0, the model's choice (log 70). -/
def Obligations.LaunchQueuesRecord : Prop :=
  ∀ (w : RWord) (s v : State) (f a e d : Nat) (at_ : Option Nat) (x : Ctx) (g : Seg) (tok : Word),
    canIssue (.launch w) w.hdr [w.a, w.b] s f = true → ctxOf s f = some x → g = readSeg s f (idx w.a) →
    launchHeld s x g (readReg s f w.b : Nat) = false →
    checkSeg s x g { need := needRd, size := 128, align := 128 } (readReg s f w.b : Nat) = .ok a →
    allPerformed s x.core f = true → freeEntry s f = some e →
    (((segKind g = 1 ∨ segKind g = 2) ∧ v = openEntry s f e w.d 0 ∧ at_ = some (nearFlat x (segKind g) a)) ∨
      (segKind g = 3 ∧ routeWaits s (dieOf x.core) (dieOfCluster (winCluster a)) s.ord = false ∧
        reachable s (dieOf x.core) (dieOfCluster (winCluster a)) = true ∧ winServes s a = true ∧
        v = openEntry s f e w.d 0 ∧ at_ = some (winFlat a)) ∨
      (segKind g = 0 ∧ ∃ u level pte, engineXlate (openEntry s f e w.d 0) x.core x.slot (ctxPart s x) a =
          (u, .page level pte) ∧ targetWaits s (dieOf x.core) s.ord (target s.pkg a level pte) = false ∧
        targetReach s (dieOf x.core) (target s.pkg a level pte) = true ∧
        v = noteSlice u (target s.pkg a level pte) ∧ at_ = some (target s.pkg a level pte).flat) ∨
      (segKind g = 0 ∧ ∃ cause level, engineXlate (openEntry s f e w.d 0) x.core x.slot (ctxPart s x) a =
          (v, .bad cause level) ∧ at_ = none)) →
    d = dieOf x.core →
    (at_ = none → exec (.launch w) s = .next (finish w.hdr f (sendResult v f e [regWrite w.d 0] []))) ∧
    (∀ flat, at_ = some flat → firmwareRuns v d = false →
      exec (.launch w) s = .next (finish w.hdr f (sendResult v f e [regWrite w.d 0] []))) ∧
    (∀ flat, at_ = some flat → firmwareRuns v d = true → poisoned v flat 128 = true →
      exec (.launch w) s = .next (finish w.hdr f (sendResult (logPoison v f (firstPoison v flat 128) v.iss.pc) f e
        [regWrite w.d 0] []))) ∧
    (∀ flat, at_ = some flat → firmwareRuns v d = true → poisoned v flat 128 = false →
      64 ≤ ((dieSt v d).devQ.filter fun l => l.src == 0).length →
      exec (.launch w) s = .next (finish w.hdr f (sendResult v f e [regWrite w.d 0] []))) ∧
    (∀ flat, at_ = some flat → firmwareRuns v d = true → poisoned v flat 128 = false →
      ((dieSt v d).devQ.filter fun l => l.src == 0).length < 64 →
      tok = BitVec.ofNat 64 (d / 4 % 1024 * 2 ^ 54 + d % 4 * 2 ^ 52 + (dieSt v d).seqTok.toNat) →
      ∃ u, exec (.launch w) s = .next (finish w.hdr f (sendResult u f e [regWrite w.d tok.toNat] [])) ∧
        (dieSt u d).devQ = (dieSt v d).devQ ++
          [{ token := tok, words := (splitBits 64 16 (readBytes v flat 128)).map (BitVec.ofNat 64),
             die := d, part := ctxPart s x, ord := v.ord }] ∧
        (dieSt u d).seqTok = (dieSt v d).seqTok + 1 ∧ u.mem = v.mem)

/-! Memory accesses of the thread engine (R93 to R109, R164 to R172, R303). -/

/-- R98: the checks of a segment in their order, each with its cause; an access that passes them all has the address base
+ offset.
R98, R131: an access whose segment check fails takes trap 0x04 with the check's cause and the offset, and is not made. -/
def Obligations.SegmentChecks : Prop :=
  (∀ (s : State) (x : Ctx) (g : Seg) (r : AccessRule) (off : Int) (a : Nat),
      r.long = false → 0 < r.align → a = (g.base.toNat + off).toNat % 2 ^ 64 →
      (g.attr.getLsbD 0 = false → checkSeg s x g r off = .error 1) ∧
      (g.attr.getLsbD 0 = true → hasRights g r.need = false → checkSeg s x g r off = .error 2) ∧
      (g.attr.getLsbD 0 = true → hasRights g r.need = true → (off < 0 ∨ (g.limit.toNat : Int) < off + r.size) →
        checkSeg s x g r off = .error 3) ∧
      (g.attr.getLsbD 0 = true → hasRights g r.need = true → 0 ≤ off → off + r.size ≤ (g.limit.toNat : Int) →
        (off % r.align ≠ 0 → checkSeg s x g r off = .error 4) ∧
        (off % r.align = 0 → r.kinds.contains (segKind g) = false → checkSeg s x g r off = .error 5) ∧
        (off % r.align = 0 → r.kinds.contains (segKind g) = true →
          (segKind g = 0 → checkSeg s x g r off = if a < 2 ^ 57 then .ok a else .error 5) ∧
          (segKind g = 1 → checkSeg s x g r off = if a + r.size ≤ 2 ^ 18 then .ok a else .error 5) ∧
          (segKind g = 2 → 2 ^ 22 < a + r.size → checkSeg s x g r off = .error 5) ∧
          (segKind g = 2 → a + r.size ≤ 2 ^ 22 → bankMode s (clusterOf x.core) (a / 2 ^ 17) < 2 →
            checkSeg s x g r off = .error 6) ∧
          (segKind g = 2 → a + r.size ≤ 2 ^ 22 → bankMode s (clusterOf x.core) (a / 2 ^ 17) = 2 →
            checkSeg s x g r off = .ok a) ∧
          (segKind g = 3 → bitsOf a 63 56 ≠ 0xFD → checkSeg s x g r off = .error 5) ∧
          (segKind g = 3 → bitsOf a 63 56 = 0xFD → winClean a = true →
            checkSeg s x g r off = if inPart s (ctxPart s x) (winCluster a) then .ok a else .error 7)))) ∧
  (∀ (w : MWord) (s : State) (f n c : Nat) (x : Ctx) (g : Seg) (off : Int),
      n = tyWidth (tyOf w.hdr) / 8 → g = readSeg s f w.seg.toNat → off = memOff s f w → trapsAtOnce s f = true →
      (reachesCheck (.ld w) w (memSpecs w) s f x →
        checkSeg s x g { need := needRd, size := n, align := n, ports := [8, 16] } off = .error c →
        Traps (.ld w) 0x04 c (n64 off) s f) ∧
      (reachesCheck (.st w) w (w.data :: memSpecs w) s f x →
        checkSeg s x g { need := needWr, size := n, align := n, ports := [0] } off = .error c →
        Traps (.st w) 0x04 c (n64 off) s f) ∧
      (reachesCheck (.stf w) w (w.data :: memSpecs w) s f x →
        checkSeg s x g { need := needWr + needFe, size := n, align := n, ports := [0] } off = .error c →
        Traps (.stf w) 0x04 c (n64 off) s f) ∧
      (reachesCheck (.atom w) w (w.data :: memSpecs w) s f x →
        checkSeg s x g { need := needRd + needWr + needAt, size := n, align := n } off = .error c →
        Traps (.atom w) 0x04 c (n64 off) s f) ∧
      (reachesCheck (.ldw w) w (memSpecs w) s f x →
        checkSeg s x g { need := needRd + needWr + needAt, size := 8, align := 8, kinds := [0] } off = .error c →
        Traps (.ldw w) 0x04 c (n64 off) s f))

/-- R107, R164, R165, R303: ST and STF to core-local or scratch memory store the data's low bytes at the address, little
endian, at their issue, and STF sets the word full; a store to a FIFO's tail port joins the queue in its turn (R304), and
holds while it is full or another waits there that came earlier. Every other byte, and every register, is as
before. The model's readings: log 15. -/
def Obligations.NearStores : Prop :=
  ∀ (w : MWord) (s : State) (f n a k flat cl b o m : Nat) (x : Ctx) (g : Seg),
    n = tyWidth (tyOf w.hdr) / 8 → g = readSeg s f w.seg.toNat → k = segKind g →
    (k = 1 ∨ k = 2) → flat = nearFlat x k a → mayPerform s x.core f w.qual (nearPlace s flat) = true →
    cl = clusterOf x.core → b = a / 2 ^ 17 → Arrives s x (.fifoTail cl b) o m →
    (reachesCheck (.st w) w (w.data :: memSpecs w) s f x →
      checkSeg s x g { need := needWr, size := n, align := n, ports := [0] } (memOff s f w) = .ok a →
      ((k = 1 ∨ bankMode s cl b ≠ 3) →
        EndsAs (.st w) w.hdr (fun _ => False) s (nearStore s x.core f flat n (readReg s f w.data % 2 ^ (8 * n)) false) f
          fun t => Stored s t flat n (readReg s f w.data) ∧ t.full = s.full) ∧
      (k = 2 → bankMode s cl b = 3 → (fifoOf s cl b).length < 16384 → fifoFirst s cl b false o = true →
        EndsAs (.st w) w.hdr (fun _ => False) s (setFifo s cl b (fifoOf s cl b ++ [BitVec.ofNat 64 (readReg s f w.data)])) f
          fun t => t.mem = s.mem) ∧
      (k = 2 → bankMode s cl b = 3 → (16384 ≤ (fifoOf s cl b).length ∨ fifoFirst s cl b false o = false) →
        exec (.st w) s = .next { s with
          ord := m
          ctxs := SMap.set none s.ctxs f (some { x with wait := some (.fifoTail cl b o) })
          iss := { s.iss with res := .held } })) ∧
    (reachesCheck (.stf w) w (w.data :: memSpecs w) s f x →
      checkSeg s x g { need := needWr + needFe, size := n, align := n, ports := [0] } (memOff s f w) = .ok a →
      ((k = 1 ∨ bankMode s cl b ≠ 3) →
        EndsAs (.stf w) w.hdr (fun _ => False) s (nearStore s x.core f flat n (readReg s f w.data % 2 ^ (8 * n)) true) f
          fun t => Stored s t flat n (readReg s f w.data) ∧ isFull t flat = true) ∧
      (k = 2 → bankMode s cl b = 3 → (fifoOf s cl b).length < 16384 → fifoFirst s cl b false o = true →
        EndsAs (.stf w) w.hdr (fun _ => False) s (setFifo s cl b (fifoOf s cl b ++ [BitVec.ofNat 64 (readReg s f w.data)])) f
          fun t => t.mem = s.mem))

/-- R107, R108, R164, R165, R303: LD from near memory brings the bytes at the address (of words that an engine's operation
in flight has written, the old or the new ones), widened by the type, as a long result; a
head port gives and removes the oldest word of a FIFO in its turn (R304), or blocks, and its count port gives the number of
words; LDSYNC waits for a full word and, with `.take`, empties it. The model's readings: log 15. -/
def Obligations.NearLoads : Prop :=
  ∀ (w : MWord) (s : State) (f n a k flat cl b o m : Nat) (x : Ctx) (g : Seg) (v : Word) (q : List Word),
    n = tyWidth (tyOf w.hdr) / 8 → g = readSeg s f w.seg.toNat → k = segKind g →
    (k = 1 ∨ k = 2) → flat = nearFlat x k a → mayPerform s x.core f w.qual (nearPlace s flat) = true →
    cl = clusterOf x.core → b = a / 2 ^ 17 → (freeEntry s f).isSome = true → poisoned s flat n = false →
    Arrives s x (.fifoHead cl b) o m →
    (reachesCheck (.ld w) w (memSpecs w) s f x →
      checkSeg s x g { need := needRd, size := n, align := n, ports := [8, 16] } (memOff s f w) = .ok a →
      ((k = 1 ∨ bankMode s cl b ≠ 3) →
        SendsResult (.ld w) w.hdr w.data 0 [regWrite w.data (extend (tyOf w.hdr) (threadBytes s flat n))] [] s s f ∧
          (s.racing = [] → threadBytes s flat n = readBytes s flat n)) ∧
      (k = 2 → bankMode s cl b = 3 → a % 2 ^ 17 = 8 → fifoOf s cl b = v :: q → fifoFirst s cl b true o = true →
        SendsResult (.ld w) w.hdr w.data 0 [regWrite w.data v.toNat] [] s (setFifo s cl b q) f) ∧
      (k = 2 → bankMode s cl b = 3 → a % 2 ^ 17 = 8 → (fifoOf s cl b = [] ∨ fifoFirst s cl b true o = false) →
        exec (.ld w) s = .next { s with
          ord := m
          ctxs := SMap.set none s.ctxs f (some { x with wait := some (.fifoHead cl b o), issued := true, live := none })
          iss := { s.iss with res := .blocked } }) ∧
      (k = 2 → bankMode s cl b = 3 → a % 2 ^ 17 = 16 →
        SendsResult (.ld w) w.hdr w.data 0 [regWrite w.data (fifoOf s cl b).length] [] s s f)) ∧
    (reachesCheck (.ldsync w) w (memSpecs w) s f x →
      checkSeg s x g { need := needRd + needFe + (if qExtra w.qual % 2 = 1 then needWr else 0), size := n, align := n }
        (memOff s f w) = .ok a →
      (isFull s flat = false → Blocks (.ldsync w) (.full flat) s f) ∧
      (isFull s flat = true → qExtra w.qual % 2 = 0 →
        SendsResult (.ldsync w) w.hdr w.data 0 [regWrite w.data (extend (tyOf w.hdr) (readBytes s flat n))] [] s s f) ∧
      (isFull s flat = true → qExtra w.qual % 2 = 1 →
        SendsResult (.ldsync w) w.hdr w.data 0 [regWrite w.data (extend (tyOf w.hdr) (readBytes s flat n))] [] s
          (setFull s flat false) f))

/-- R106, R166, R167: ATOM and CAS in near memory, as one event: the old value comes back as a long result; ATOM writes
old op operand, CAS writes the next register's value where the old value is the expected one and nothing where it is
not. The model's readings: log 15. -/
def Obligations.NearAtomics : Prop :=
  ∀ (w : MWord) (s : State) (f n a k flat old v v2 y : Nat) (x : Ctx) (g : Seg),
    n = tyWidth (tyOf w.hdr) / 8 → g = readSeg s f w.seg.toNat → k = segKind g →
    (k = 1 ∨ k = 2) → flat = nearFlat x k a → mayPerform s x.core f w.qual (nearPlace s flat) = true →
    (freeEntry s f).isSome = true → poisoned s flat n = false → old = readBytes s flat n →
    v = readReg s f w.data % 2 ^ (8 * n) → v2 = readReg s f (BitVec.ofNat 8 (idx w.data + 1)) % 2 ^ (8 * n) →
    checkSeg s x g { need := needRd + needWr + needAt, size := n, align := n } (memOff s f w) = .ok a →
    (reachesCheck (.atom w) w (w.data :: memSpecs w) s f x →
      y = (match fnOf w.hdr with
        | 0 => old + v
        | 1 => old &&& v
        | 2 => old ||| v
        | 3 => old ^^^ v
        | 4 => v
        | 5 => if asInt (tyOf w.hdr) old ≤ asInt (tyOf w.hdr) v then old else v
        | _ => if asInt (tyOf w.hdr) old ≤ asInt (tyOf w.hdr) v then v else old) % 2 ^ (8 * n) →
      SendsResult (.atom w) w.hdr w.data 0 [regWrite w.data (extend (tyOf w.hdr) old)] [] s
        (nearStore s x.core f flat n y false) f ∧
      Stored s (nearStore s x.core f flat n y false) flat n y) ∧
    (reachesCheck (.cas w) w (w.data :: BitVec.ofNat 8 (idx w.data + 1) :: memSpecs w) s f x →
      (old = v →
        SendsResult (.cas w) w.hdr w.data 0 [regWrite w.data (extend (tyOf w.hdr) old)] [] s
          (nearStore s x.core f flat n v2 false) f ∧
        Stored s (nearStore s x.core f flat n v2 false) flat n v2) ∧
      (old ≠ v →
        SendsResult (.cas w) w.hdr w.data 0 [regWrite w.data (extend (tyOf w.hdr) old)] [] s s f))

/-- R101, R102, R330: an access to paged memory becomes a request that keeps its place in the order of issue: a store and
a STF complete at once, and a load, LDSYNC, LDW, ATOM and CAS with a long-result entry; LDW adds its word to the watch
set, and a fifth breaks the set (R168). No memory is touched at issue. The model's readings: log 15. -/
def Obligations.PagedAccessesBecomeRequests : Prop :=
  ∀ (w : MWord) (s : State) (f n a e : Nat) (x : Ctx) (g : Seg) (off : Int),
    n = tyWidth (tyOf w.hdr) / 8 → g = readSeg s f w.seg.toNat → segKind g = 0 → off = memOff s f w →
    freeEntry s f = some e →
    (reachesCheck (.st w) w (w.data :: memSpecs w) s f x →
      checkSeg s x g { need := needWr, size := n, align := n, ports := [0] } off = .ok a →
      EndsAs (.st w) w.hdr (fun _ => False) s
        (pushReq s { scalarReq s f x w 1 off a none with data := BitVec.ofNat 64 (readReg s f w.data % 2 ^ (8 * n)) }) f
        fun t => t.mem = s.mem) ∧
    (reachesCheck (.stf w) w (w.data :: memSpecs w) s f x →
      checkSeg s x g { need := needWr + needFe, size := n, align := n, ports := [0] } off = .ok a →
      EndsAs (.stf w) w.hdr (fun _ => False) s
        (pushReq s { scalarReq s f x w 5 off a none with data := BitVec.ofNat 64 (readReg s f w.data % 2 ^ (8 * n)) }) f
        fun t => t.mem = s.mem) ∧
    (reachesCheck (.ld w) w (memSpecs w) s f x →
      checkSeg s x g { need := needRd, size := n, align := n, ports := [8, 16] } off = .ok a →
      EndsAs (.ld w) w.hdr (· = 102 + e / 2) s (pushReq s (scalarReq s f x w 0 off a (some e))) f
        fun t => Opened s t f e w.data 0) ∧
    (reachesCheck (.ldsync w) w (memSpecs w) s f x →
      checkSeg s x g { need := needRd + needFe + (if qExtra w.qual % 2 = 1 then needWr else 0), size := n, align := n } off =
        .ok a →
      EndsAs (.ldsync w) w.hdr (· = 102 + e / 2) s (pushReq s (scalarReq s f x w 4 off a (some e))) f
        fun t => Opened s t f e w.data 0) ∧
    (reachesCheck (.atom w) w (w.data :: memSpecs w) s f x →
      checkSeg s x g { need := needRd + needWr + needAt, size := n, align := n } off = .ok a →
      EndsAs (.atom w) w.hdr (· = 102 + e / 2) s
        (pushReq s { scalarReq s f x w 2 off a (some e) with data := BitVec.ofNat 64 (readReg s f w.data) }) f
        fun t => Opened s t f e w.data 0) ∧
    (reachesCheck (.cas w) w (w.data :: BitVec.ofNat 8 (idx w.data + 1) :: memSpecs w) s f x →
      checkSeg s x g { need := needRd + needWr + needAt, size := n, align := n } off = .ok a →
      EndsAs (.cas w) w.hdr (· = 102 + e / 2) s
        (pushReq s { scalarReq s f x w 3 off a (some e) with
          data := BitVec.ofNat 64 (readReg s f w.data)
          data2 := BitVec.ofNat 64 (readReg s f (BitVec.ofNat 8 (idx w.data + 1))) }) f
        fun t => Opened s t f e w.data 0) ∧
    (reachesCheck (.ldw w) w (memSpecs w) s f x →
      checkSeg s x g { need := needRd + needWr + needAt, size := 8, align := 8, kinds := [0] } off = .ok a →
      EndsAs (.ldw w) w.hdr (· = 102 + e / 2) s
        (modCtx (pushReq s (scalarReq s f x w 7 off a (some e))) f fun x =>
          if 4 ≤ x.watch.length then { x with broken := true }
          else { x with watch := x.watch ++ [{ seg := w.seg.toNat, off := off.toNat, addr := a, ord := s.ord, line := 0,
                                               home := none, served := false, changed := false }] }) f
        fun t => Opened s t f e w.data 0)

/-- R110, R112, R115, R184: through the window a load, ATOM and CAS become a request to the word's home, with a
long-result entry; a store and a STF take a free journal entry, kind 0 and 1, under the next sequence number, and hold with
none free; LDSYNC blocks until it is served. Which free entry is the model's choice (log 93). -/
def Obligations.WindowAccesses : Prop :=
  ∀ (w : MWord) (s : State) (f n a e : Nat) (x : Ctx) (g : Seg) (off : Int),
    n = tyWidth (tyOf w.hdr) / 8 → g = readSeg s f w.seg.toNat → segKind g = 3 → off = memOff s f w →
    freeEntry s f = some e →
    (reachesCheck (.ld w) w (memSpecs w) s f x →
      checkSeg s x g { need := needRd, size := n, align := n, ports := [8, 16] } off = .ok a →
      EndsAs (.ld w) w.hdr (· = 102 + e / 2) s
        { s with wreqs := s.wreqs ++ [scalarReq s f x w 0 off a (some e)], ord := s.ord + 1 } f
        fun t => Opened s t f e w.data 0) ∧
    (reachesCheck (.atom w) w (w.data :: memSpecs w) s f x →
      checkSeg s x g { need := needRd + needWr + needAt, size := n, align := n } off = .ok a →
      EndsAs (.atom w) w.hdr (· = 102 + e / 2) s
        { s with wreqs := s.wreqs ++ [{ scalarReq s f x w 2 off a (some e) with data := BitVec.ofNat 64 (readReg s f w.data) }]
                 ord := s.ord + 1 } f
        fun t => Opened s t f e w.data 0) ∧
    (reachesCheck (.cas w) w (w.data :: BitVec.ofNat 8 (idx w.data + 1) :: memSpecs w) s f x →
      checkSeg s x g { need := needRd + needWr + needAt, size := n, align := n } off = .ok a →
      EndsAs (.cas w) w.hdr (· = 102 + e / 2) s
        { s with wreqs := s.wreqs ++ [{ scalarReq s f x w 3 off a (some e) with
                   data := BitVec.ofNat 64 (readReg s f w.data)
                   data2 := BitVec.ofNat 64 (readReg s f (BitVec.ofNat 8 (idx w.data + 1))) }]
                 ord := s.ord + 1 } f
        fun t => Opened s t f e w.data 0) ∧
    (reachesCheck (.st w) w (w.data :: memSpecs w) s f x →
      checkSeg s x g { need := needWr, size := n, align := n, ports := [0] } off = .ok a →
      (freeJournal s x.core = none → Holds (.st w) .retry s f) ∧
      ∀ k, freeJournal s x.core = some k →
        EndsAs (.st w) w.hdr (fun _ => False) s (openJournal s x.core k
          { state := 1, frame := f, slot := x.slot, kind := 0, size := BitVec.ofNat 3 n.log2, addr := BitVec.ofNat 64 a
            data := BitVec.ofNat 64 (readReg s f w.data % 2 ^ (8 * n)), rel := qRel w.qual, scope := qScope w.qual
            sent := !qRel w.qual, todo := [winCluster a], pc := s.iss.pc }) f
          fun t => t.mem = s.mem) ∧
    (reachesCheck (.stf w) w (w.data :: memSpecs w) s f x →
      checkSeg s x g { need := needWr + needFe, size := n, align := n, ports := [0] } off = .ok a →
      (freeJournal s x.core = none → Holds (.stf w) .retry s f) ∧
      ∀ k, freeJournal s x.core = some k →
        EndsAs (.stf w) w.hdr (fun _ => False) s (openJournal s x.core k
          { state := 1, frame := f, slot := x.slot, kind := 1, size := BitVec.ofNat 3 n.log2, addr := BitVec.ofNat 64 a
            data := BitVec.ofNat 64 (readReg s f w.data % 2 ^ (8 * n)), rel := qRel w.qual, scope := qScope w.qual
            sent := !qRel w.qual, todo := [winCluster a], pc := s.iss.pc }) f
          fun t => t.mem = s.mem) ∧
    (reachesCheck (.ldsync w) w (memSpecs w) s f x →
      checkSeg s x g { need := needRd + needFe + (if qExtra w.qual % 2 = 1 then needWr else 0), size := n, align := n } off =
        .ok a →
      (∀ o, x.wait ≠ some (.request o)) →
      ∃ t, exec (.ldsync w) s = .next t ∧
        t.wreqs = s.wreqs ++ [{ scalarReq s f x w 4 off a (some e) with take := decide (qExtra w.qual % 2 = 1) }] ∧
        Opened s t f e w.data 0 ∧ ctxOf t f = some { x with wait := some (.request s.ord), issued := true, live := none } ∧
        t.iss.res = .blocked) ∧
    (reachesCheck (.ldsync w) w (memSpecs w) s f x →
      checkSeg s x g { need := needRd + needFe + (if qExtra w.qual % 2 = 1 then needWr else 0), size := n, align := n } off =
        .ok a →
      ∀ o, x.wait = some (.request o) → (∀ r, r ∈ s.wreqs → r.ord ≠ o) →
        EndsAs (.ldsync w) w.hdr (fun _ => False) s s f fun _ => True)

/-- R105, R109, R170 to R172: FENCE completes once every earlier access of the context has been performed, XFENCE once its
stores have, from when the core's engines read them or a later store; until then each blocks. PREF changes no register
and, outside of what other agents have written behind a held line (R309), no byte of memory; with a failed check it does
nothing at all.
R168, R169, R314: CST, once nothing that R103 orders before it is to be performed, with an empty or broken watch set
clears its predicate and stores nothing; a watched word that has changed, too; both empty the set, and the verdict is a
long result. With every watched line unchanged, each word's element of the vector is stored and the predicate set. The
model's readings: log 63, log 69 and log 94. -/
def Obligations.FencesAndConditionalStore : Prop :=
  (∀ (w : RWord) (m : MWord) (s : State) (f : Nat) (x : Ctx),
      ctxOf s f = some x →
      (canIssue (.fence w) w.hdr [] s f = true →
        (allPerformed s s.iss.core f = true → EndsAs (.fence w) w.hdr (fun _ => False) s s f fun _ => True) ∧
        (allPerformed s s.iss.core f = false → Blocks (.fence w) .retry s f)) ∧
      (canIssue (.xfence w) w.hdr [] s f = true →
        ((∀ r, r ∈ outstanding s f → opWrites r.op = false) →
          EndsAs (.xfence w) w.hdr (fun _ => False) s
            (modCore s s.iss.core fun c => { c with unfenced := afterFence f c.unfenced [] }) f
            fun t => ∀ u, u ∈ (coreOf t s.iss.core).unfenced → u.frame ≠ f) ∧
        ((∃ r, r ∈ outstanding s f ∧ opWrites r.op = true) → Blocks (.xfence w) .retry s f)) ∧
      (canIssue (.pref m) m.hdr (memSpecs m) s f = true →
        (∀ c, checkSeg s x (readSeg s f m.seg.toNat) { need := needRd, size := 1, align := 1, kinds := [0] } (memOff s f m) =
            .error c →
          EndsAs (.pref m) m.hdr (fun _ => False) s s f fun _ => True) ∧
        ∃ u, exec (.pref m) s = .next (finish m.hdr f u) ∧ u.parts = s.parts ∧ (∀ c k, slotOf u c k = slotOf s c k) ∧
          SameBytes s u)) ∧
  (∀ (w : MWord) (s : State) (f e : Nat) (x : Ctx) (p : BitVec 8),
      canIssue (.cst w) w.hdr (w.data :: watchSpecs s) s f = true → ctxOf s f = some x → outstanding s f = [] → freeEntry s f = some e →
      journalBlocks s x.core f s.ord w.qual none = false → p = BitVec.ofNat 8 (128 + qExtra w.qual) →
      ((x.watch = [] ∨ x.broken = true) →
        SendsResult (.cst w) w.hdr p 0 [regWrite p 0] [] s (modCtx s f fun x => { x with watch := [], broken := false }) f) ∧
      (∀ as, x.watch ≠ [] → x.broken = false → recheckWatch s f x x.watch = .ok as →
        (∃ a, a ∈ x.watch ∧ (a.changed = true ∨ a.served = false)) →
        SendsResult (.cst w) w.hdr p 0 [regWrite p 0] [] s (modCtx s f fun x => { x with watch := [], broken := false }) f) ∧
      (∀ as u ts, x.watch ≠ [] → x.broken = false → recheckWatch s f x x.watch = .ok as →
        (∀ a, a ∈ x.watch → a.changed = false ∧ a.served = true) → watchWaits x as s = false →
        watchTargets x as s = some (u, ts) → watchChanged u f = false →
        ∃ t, exec (.cst w) s = .next t ∧ t.iss.res = .completed ∧
          t.mem = (storeWatched (readReg u f w.data) x.core f (ts.map fun r => r.flat / 256) ts 0 u).mem ∧
          t.rets = s.rets ++ [{ frame := f, entry := e, writes := [regWrite p (2 ^ 128 - 1)], ready := true, late := [],
                                ord := t.ord - 1 }]))

/-! System registers, segments, services, time and translation maintenance (R116, R129, R173 to R177, R336 to R338). -/

/-- R119, R120, R173, R174, R177: RDSYS brings the register of its number, the trace registers only to a supervisor, and
RDTIME the package time, as short results; a read above the context's privilege takes trap 0x05 with cause 1. The frame
word that holds the register is not poisoned (R388). -/
def Obligations.SystemRegisterReads : Prop :=
  ∀ (w : RWord) (s : State) (f n : Nat) (x : Ctx),
    ctxOf s f = some x → n = w.imm.toNat →
    (canIssue (.rdtime w) w.hdr [] s f = true → SetsReg (.rdtime w) w.hdr w.d s.time.toNat s f) ∧
    (canIssue (.rdsys w) w.hdr [] s f = true → (∀ p, sysWord s f x n = some p → wordMarked s p.1 p.2 = false) →
      (n = 0x000 → SetsReg (.rdsys w) w.hdr w.d (readFrame s f wStatus).toNat s f) ∧
      (n = 0x001 → SetsReg (.rdsys w) w.hdr w.d (readFrame s f wTvec).toNat s f) ∧
      (n = 0x002 → SetsReg (.rdsys w) w.hdr w.d (readFrame s (ctxTask s x).ctl wEngbind).toNat s f) ∧
      (n = 0x003 → SetsReg (.rdsys w) w.hdr w.d (readFrame s f wTscr).toNat s f) ∧
      (n = 0x004 → SetsReg (.rdsys w) w.hdr w.d (readFrame s f wCtxid).toNat s f) ∧
      (8 ≤ n → n ≤ 0x00D → SetsReg (.rdsys w) w.hdr w.d (readFrame s f (wEpc + (n - 8))).toNat s f) ∧
      (n = 0x010 → SetsReg (.rdsys w) w.hdr w.d (lfsrOf s x.core x.slot).toNat s f) ∧
      (n = 0x018 → SetsReg (.rdsys w) w.hdr w.d (ctxTask s x).cfill.toNat s f) ∧
      (n = 0x020 → supervisor s f = true →
        SetsReg (.rdsys w) w.hdr w.d (trctlWord (clusterSt s (clusterOf x.core))) s f) ∧
      (n = 0x021 → supervisor s f = true →
        SetsReg (.rdsys w) w.hdr w.d (bitsOf (SMap.get 0 (clusterSt s (clusterOf x.core)).trace
          (clusterSt s (clusterOf x.core)).trIdx.toNat).toNat 127 64) s f) ∧
      (n = 0x022 → supervisor s f = true →
        SetsReg (.rdsys w) w.hdr w.d (bitsOf (SMap.get 0 (clusterSt s (clusterOf x.core)).trace
          (clusterSt s (clusterOf x.core)).trIdx.toNat).toNat 63 0) s f) ∧
      (0x020 ≤ n → supervisor s f = false → trapsAtOnce s f = true → Traps (.rdsys w) 0x05 1 0 s f))

/-- R34, R86, R116, R122, R173, R174, R297: a write of each writable system register, the bits it takes, and nothing
else; a write of a read-only register, of a trace register at task privilege, or of `sys.engbind` by a context that
is no control context takes trap 0x05 with cause 1. -/
def Obligations.SystemRegisterWrites : Prop :=
  ∀ (w : RWord) (s : State) (f n : Nat) (x : Ctx) (v : Word),
    ctxOf s f = some x → n = w.imm.toNat → v = BitVec.ofNat 64 (readReg s f w.a) →
    (canIssue (.wrsys w) w.hdr [w.a] s f = true →
      (n = 0x001 → EndsAs (.wrsys w) w.hdr (· = wTvec) s s f fun t => readFrame t f wTvec = v) ∧
      (n = 0x003 → EndsAs (.wrsys w) w.hdr (· = wTscr) s s f fun t => readFrame t f wTscr = v) ∧
      (n = 0x008 → EndsAs (.wrsys w) w.hdr (· = wEpc) s s f fun t => readFrame t f wEpc = v) ∧
      (n = 0x018 → EndsAs (.wrsys w) w.hdr (fun _ => False) s (modTask s x.core x.bind fun t => { t with cfill := v }) f
        fun _ => True) ∧
      ((n = 0x004 ∨ (9 ≤ n ∧ n ≤ 0x00D) ∨ n = 0x021 ∨ n = 0x022) → trapsAtOnce s f = true →
        Traps (.wrsys w) 0x05 1 0 s f)) ∧
    (canIssue (.statusPmaskWrite w) w.hdr [w.a] s f = true → stPpend (statusOf s f) = false →
      EndsAs (.statusPmaskWrite w) w.hdr (· = wStatus) s s f fun t => ∀ k, k < 64 → (statusOf t f).testBit k =
        if k = 4 ∧ stInh (statusOf s f) = true then v.getLsbD 4 else (statusOf s f).testBit k) ∧
    (canIssue (.engbindWrite w) w.hdr [w.a] s f = true →
      (isControl s f = false → trapsAtOnce s f = true → Traps (.engbindWrite w) 0x05 1 0 s f) ∧
      (isControl s f = true → (coreOf s s.iss.core).mx = none → (coreOf s s.iss.core).wk = none →
        EndsAs (.engbindWrite w) w.hdr (· = wEngbind) s s f fun t => readFrame t f wEngbind = v &&& 0x8F8F#64)) ∧
    (canIssue (.lfsrWrite w) w.hdr [w.a] s f = true →
      EndsAs (.lfsrWrite w) w.hdr (fun _ => False) s
        (setLfsr s x.core x.slot (if v.extractLsb' 0 32 = 0#32 then 1 else v.extractLsb' 0 32) x.twin.isSome) f
        fun t => lfsrOf t x.core x.slot = if v.extractLsb' 0 32 = 0#32 then 1 else v.extractLsb' 0 32) ∧
    (canIssue (.trctlWrite w) w.hdr [w.a] s f = true →
      (supervisor s f = false → trapsAtOnce s f = true → Traps (.trctlWrite w) 0x05 1 0 s f) ∧
      (supervisor s f = true →
        EndsAs (.trctlWrite w) w.hdr (fun _ => False) s
          (modCluster s (clusterOf s.iss.core) fun c =>
            { c with
              trEn := v.getLsbD 31
              trStop := v.getLsbD 30
              trIdx := v.extractLsb' 16 10
              trFull := if (v.getLsbD 31 && !c.trEn) || v.getLsbD 29 then false else c.trFull
              trHead := if v.getLsbD 31 && !c.trEn then 0 else c.trHead
              trCount := if v.getLsbD 31 && !c.trEn then 0 else c.trCount }) f fun _ => True))

/-- R97, R129, R175: SEGGET brings a segment's base, limit or attributes; SEGSET stores a segment that is not valid or is
a subset of one the context holds, its reserved fields as zero, and no other segment changes; one that is no subset takes
trap 0x05 with cause 3 at task privilege.
R176: SVC, every earlier access having been performed, posts the request with its number and argument and parks the
context until the reply; of its frame nothing changes but the program counter, at the place where a skip goes on (R54). -/
def Obligations.SegmentRegistersAndServiceCalls : Prop :=
  (∀ (w : RWord) (s : State) (f k : Nat) (g old : Seg),
      (canIssue (.segget w) w.hdr [w.a] s f = true → old = readSeg s f (idx w.a) →
        (w.imm = 0 → SetsReg (.segget w) w.hdr w.d old.base.toNat s f) ∧
        (w.imm = 1 → SetsReg (.segget w) w.hdr w.d old.limit.toNat s f) ∧
        (w.imm = 2 → SetsReg (.segget w) w.hdr w.d old.attr.toNat s f)) ∧
      (canIssue (.segset w) w.hdr ([w.a, w.b, w.c] ++ if segsetCompares s w then segSpecs else []) s f = true → k = idx w.d →
        g = storedSeg (readReg s f w.a) (readReg s f w.b) (readReg s f w.c) →
        ((g.attr.getLsbD 0 = false ∨ (supervisor s f = false ∧ ∃ j, j < 8 ∧ segSubset g (readSeg s f j) = true) ∨
            (supervisor s f = true ∧ segInPartition g = true)) →
          EndsAs (.segset w) w.hdr (fun v => v = 78 ∨ v = 79 ∨ v = 80 + 2 * k ∨ v = 81 + 2 * k) s s f fun t =>
            readSeg t f k = g ∧ ∀ j, j < 8 → j ≠ k → readSeg t f j = readSeg s f j) ∧
        (g.attr.getLsbD 0 = true → supervisor s f = false → (∀ j, j < 8 → segSubset g (readSeg s f j) = false) →
          trapsAtOnce s f = true → Traps (.segset w) 0x05 3 0 s f))) ∧
  (∀ (w : RWord) (s : State) (f : Nat) (x : Ctx),
      canIssue (.svc w) w.hdr [w.a] s f = true → ctxOf s f = some x → allPerformed s x.core f = true →
      ∃ t, exec (.svc w) s = .next (modCtx t f fun y => { y with park := some (.svc s.iss.pc s.iss.next w.d s.iss.word) }) ∧
        Wrote { s with mail := s.mail ++ [{ part := ctxPart s x, ctxid := ctxIdent s f, pc := s.iss.pc
                                            code := BitVec.ofNat 64 (w.imm.toNat * 2 ^ 32)
                                            addr := BitVec.ofNat 64 (readReg s f w.a) }] } t f w.hdr (fun _ => False) ∧
        ctxPc t f = s.iss.next)

/-- R336 to R338: TLBINV takes trap 0x05 with cause 2 at task privilege; at supervisor privilege, earlier accesses having
been performed, it sends its drop, waits for it, and then completes; TLBQ brings the word of R338 as a long result.
R330, R332, R333: a request whose page is found takes its target from it; one whose page is missing or forbidden
leaves the requests, and goes to the context's fault ring with its cause. The model's readings: log 45. -/
def Obligations.TranslationMaintenanceAndMisses : Prop :=
  (∀ (w : RWord) (s : State) (f o : Nat) (x : Ctx),
      ctxOf s f = some x →
      (canIssue (.tlbinv w) w.hdr [w.a, w.b] s f = true →
        (supervisor s f = false → trapsAtOnce s f = true → Traps (.tlbinv w) 0x05 2 0 s f) ∧
        (supervisor s f = true → (∀ k, x.wait ≠ some (.request k)) → allPerformed s x.core f = true →
          exec (.tlbinv w) s = .next { s with
            drops := s.drops ++ [noteSpans s
              { ord := s.ord, frame := f, scope := qScope w.qual, core := x.core, part := ctxPart s x
                mode := if fnOf w.hdr = 0 ∧ 2 ^ 40 ≤ src s f w.b w.imm then 2 else fnOf w.hdr
                lo := readReg s f w.a, len := src s f w.b w.imm }]
            ord := s.ord + 1
            ctxs := SMap.set none s.ctxs f (some { x with wait := some (.request s.ord), issued := true, live := none })
            iss := { s.iss with res := .blocked } }) ∧
        (supervisor s f = true → x.wait = some (.request o) → (∀ d, d ∈ s.drops → d.ord ≠ o) →
          EndsAs (.tlbinv w) w.hdr (fun _ => False) s s f fun _ => True)) ∧
      (canIssue (.tlbq w) w.hdr [w.a] s f = true →
        (supervisor s f = false → trapsAtOnce s f = true → Traps (.tlbq w) 0x05 2 0 s f) ∧
        (supervisor s f = true → (freeEntry s f).isSome = true →
          SendsResult (.tlbq w) w.hdr w.d 0 [regWrite w.d (tlbqWord s (ctxPart s x) (readReg s f w.a))] [] s
            (tlbqNote s (ctxPart s x) (readReg s f w.a)) f ∧
          SameBytes s (tlbqNote s (ctxPart s x) (readReg s f w.a))))) ∧
  (∀ (s u : State) (n level e c : Nat) (r : Req) (x : Ctx),
      s.reqs[n]? = some r → r.target = none → faultsLater s r = false → ctxOf s r.frame = some x →
      (reqXlate s r (ctxPart s x) = (u, .page level e) → permFault r.op e = none →
        exec (.tlbMissWalk n) s = .next { u with reqs := u.reqs.map fun q =>
          if q.ord = r.ord then { q with target := some (target s.pkg r.addr.toNat level e) } else q }) ∧
      (reqXlate s r (ctxPart s x) = (u, .page level e) → permFault r.op e = some c →
        exec (.tlbMissWalk n) s = .next (suspendTask (recordFault u r c level) r.frame)) ∧
      (reqXlate s r (ctxPart s x) = (u, .bad c level) →
        exec (.tlbMissWalk n) s = .next (suspendTask (recordFault u r c level) r.frame)))

/-! The message engine (R179 to R206). -/

/-- R180, R182, R195, R197: SEND, CALLAT and SPAWN put their message on its way, held first if it is a release, with a
long-result entry for the verdict; CALLAT reserves a class 1 entry for its reply, and holds with 32 reserved. A
malformed coordinate takes trap 0x0D with cause 1 and one outside the partition with cause 2. -/
def Obligations.MessagesLeave : Prop :=
  ∀ (w : RWord) (s : State) (f e a : Nat) (x : Ctx) (m : Msg),
    ctxOf s f = some x → a = readReg s f w.a → freeEntry s f = some e →
    m = { cls := 0, src := x.core, dst := winCore a, tag := 0, status := 0
          words := BitVec.ofNat 64 (readReg s f w.b) ::
            [0, 1, 2, 3].map fun k => BitVec.ofNat 64 (readReg s f (BitVec.ofNat 8 (idx w.c + k)))
          call := false, launch := BitVec.ofNat 64 (fld (ctxIdent s f) 63 32), frame := f, slot := x.slot
          entry := some e, held := qRel w.qual, ord := s.ord } →
    (destBad a = false → inPart s (ctxPart s x) (winCluster a) = true →
      (canIssue (.send w) w.hdr [w.a, w.b, w.c] s f = true →
        EndsAs (.send w) w.hdr (· = 102 + e / 2) s
          { s with
            net := s.net ++ [{ m with
              cls := fld w.imm 2 0, tag := BitVec.ofNat 16 (readReg s f w.c)
              words := (splitBits 64 (fld w.imm 8 4) (readReg s f w.b)).map (BitVec.ofNat 64) }]
            ord := s.ord + 1 } f fun t => Opened s t f e w.d 0) ∧
      (canIssue (.spawn w) w.hdr (callSpecs w) s f = true →
        EndsAs (.spawn w) w.hdr (· = 102 + e / 2) s { s with net := s.net ++ [m], ord := s.ord + 1 } f
          fun t => Opened s t f e w.d 0) ∧
      (canIssue (.callat w) w.hdr (callSpecs w) s f = true →
        ((coreOf s x.core).reserved1 < 32 →
          EndsAs (.callat w) w.hdr (· = 102 + e / 2) s
            { modCore s x.core (fun c => { c with reserved1 := c.reserved1 + 1 }) with
              net := s.net ++ [{ m with call := true, tag := BitVec.ofNat 16 w.imm.toNat }], ord := s.ord + 1 } f
            fun t => Opened s t f e w.d 0) ∧
        (32 ≤ (coreOf s x.core).reserved1 → Holds (.callat w) .retry s f))) ∧
    (trapsAtOnce s f = true →
      (canIssue (.send w) w.hdr [w.a, w.b, w.c] s f = true →
        (destBad a = true → Traps (.send w) 0x0D 1 0 s f) ∧
        (destBad a = false → inPart s (ctxPart s x) (winCluster a) = false → Traps (.send w) 0x0D 2 0 s f)) ∧
      (canIssue (.spawn w) w.hdr (callSpecs w) s f = true → destBad a = true → Traps (.spawn w) 0x0D 1 0 s f) ∧
      (canIssue (.callat w) w.hdr (callSpecs w) s f = true → destBad a = true → Traps (.callat w) 0x0D 1 0 s f))

/-- R29, R198: REPLY of a helper that a CALLAT started sends its value to the caller under the call's tag, once; without
a caller it takes trap 0x0D with cause 4, and a second time with cause 5.
R196: RECV and RECVNB take the oldest message of the class that is the context's, its header and payload to the
registers; the last one clears the slot's ready bit, and a mailbox notice frees its mailbox entry (R378); with none RECV
blocks and RECVNB gives a zero header. A class that is not the context's takes trap 0x0D with cause 3. -/
def Obligations.MessagesAreReceivedAndAnswered : Prop :=
  (∀ (w : RWord) (s : State) (f c : Nat) (x : Ctx) (tag : BitVec 16) (l : Word),
      canIssue (.reply w) w.hdr [w.a] s f = true → ctxOf s f = some x →
      (x.caller = some (c, tag, l) → x.replied = false →
        EndsAs (.reply w) w.hdr (fun _ => False) s
          (modCtx { s with
            net := s.net ++ [{ cls := 1, src := x.core, dst := c, tag := tag, status := 0
                               words := [BitVec.ofNat 64 (src s f w.a w.imm)], call := false, launch := l, frame := f, slot := 0
                               entry := none, held := qRel w.qual, ord := s.ord }]
            ord := s.ord + 1 } f fun x => { x with replied := true }) f fun _ => True) ∧
      (x.caller = none → trapsAtOnce s f = true → Traps (.reply w) 0x0D 4 0 s f) ∧
      (x.caller = some (c, tag, l) → x.replied = true → trapsAtOnce s f = true → Traps (.reply w) 0x0D 5 0 s f)) ∧
  (∀ (w : RWord) (s u1 u2 u : State) (f k : Nat) (x : Ctx) (m : Msg) (q : List Msg),
      ctxOf s f = some x → k = fld w.imm 2 0 →
      ((k = 1 ∨ (ctxKind s f = 2 ∧ ctxClass s f = k)) →
        (nextMsg s x.core f k = some m → q = eraseMsg s f k (SMap.get [] (coreOf s x.core).classQ k) →
          u1 = modCore s x.core (fun c => { c with classQ := SMap.set [] c.classQ k q
                                                   reserved1 := if k = 1 then c.reserved1 - 1 else c.reserved1 }) →
          u2 = (if m.hw = true ∧ k = 7 then modPart u1 (ctxPart s x) fun p => { p with mbHead := p.mbHead + 1 } else u1) →
          u = (if k ≠ 1 ∧ (∀ z ∈ q, takesMsg s f k z = false) then modSlot u2 x.core x.slot fun sl => { sl with ready := false } else u2) →
          (canIssue (.recv w) w.hdr [] s f = true →
            EndsAs (.recv w) w.hdr (fun v => regHas w.d v ∨ regHas w.b v) s u f fun t =>
              readReg t f w.b = regValue w.b (msgPayload m) ∧ (w.d ≠ w.b → readReg t f w.d = regValue w.d (msgHeader m))) ∧
          (canIssue (.recvnb w) w.hdr [] s f = true →
            EndsAs (.recvnb w) w.hdr (fun v => regHas w.d v ∨ regHas w.b v) s u f fun t =>
              readReg t f w.b = regValue w.b (msgPayload m) ∧ (w.d ≠ w.b → readReg t f w.d = regValue w.d (msgHeader m)))) ∧
        (nextMsg s x.core f k = none →
          (canIssue (.recv w) w.hdr [] s f = true → Blocks (.recv w) (.recv k) s f) ∧
          (canIssue (.recvnb w) w.hdr [] s f = true → SetsReg (.recvnb w) w.hdr w.d 0 s f))) ∧
      (k ≠ 1 → (ctxKind s f ≠ 2 ∨ ctxClass s f ≠ k) → trapsAtOnce s f = true →
        (canIssue (.recv w) w.hdr [] s f = true → Traps (.recv w) 0x0D 3 0 s f) ∧
        (canIssue (.recvnb w) w.hdr [] s f = true → Traps (.recvnb w) 0x0D 3 0 s f)))

/-- R187, R189, R191, R199: ARRIVE counts its member's arrival, has no effect at a failed barrier, holds while the member
has arrived in the phase, and takes trap 0x0D with cause 7 for no member; BWAIT gives 2 with no arrival outstanding, 0
once the phase is over and 1 at a failed barrier, or one that failed while it waited, and blocks until then; BSYNC arrives
and then waits. The carrier of the level is up (R11).
R189: an arrival that is not the last leaves the phase; the last one advances the phase and clears the arrivals; each time
the member's arrival is outstanding with the phase it was made in. The model's readings: log 18, log 19, log 31 and log
68. -/
def Obligations.Barriers : Prop :=
  (∀ (w : RWord) (s u : State) (f m : Nat) (x : Ctx) (i : BarrierId) (b : Barrier) (ph : BitVec 32),
      ctxOf s f = some x → i = namedBarrier s x w → m = memberOf x i.level → b = barrierOf s i →
      (qRel w.qual = true → cachedBefore s f s.ord = true) → carrierUp s x.core i.level = true → u = countArrival s (ctxPart s x) i m →
      (canIssue (.arrive w) w.hdr [] s f = true →
        (inMask s (ctxPart s x) i.level b.mask m = false → trapsAtOnce s f = true → Traps (.arrive w) 0x0D 7 0 s f) ∧
        (inMask s (ctxPart s x) i.level b.mask m = true →
          (b.failed = true → EndsAs (.arrive w) w.hdr (fun _ => False) s s f fun _ => True) ∧
          (b.failed = false → m ∈ b.arrived → Holds (.arrive w) .retry s f) ∧
          (b.failed = false → m ∉ b.arrived → arrivalComing s x i m = false →
            EndsAs (.arrive w) w.hdr (fun _ => False) s u f fun _ => True))) ∧
      (canIssue (.bwait w) w.hdr [] s f = true → (∃ k, x.wait = some (.barrierFailed k ph.toNat)) →
        EndsAs (.bwait w) w.hdr (regHas w.d) s (endWait s i m ph.toNat) f fun t => readReg t f w.d = regValue w.d 1) ∧
      (canIssue (.bwait w) w.hdr [] s f = true →
        (∀ k p, x.wait ≠ some (.barrier k p) ∧ x.wait ≠ some (.barrierFailed k p)) →
        (pendingWait b m = none → arrivalComing s x i m = false → SetsReg (.bwait w) w.hdr w.d 2 s f) ∧
        (pendingWait b m = some ph → (b.phase ≠ ph ∨ b.failed = true) →
          EndsAs (.bwait w) w.hdr (regHas w.d) s (endWait s i m ph.toNat) f fun t =>
            readReg t f w.d = regValue w.d (if b.phase ≠ ph then 0 else 1)) ∧
        (pendingWait b m = some ph → b.phase = ph → b.failed = false → Blocks (.bwait w) (.barrier i.key ph.toNat) s f)) ∧
      (canIssue (.bsync w) w.hdr [] s f = true →
        (∀ k p, x.wait ≠ some (.barrier k p) ∧ x.wait ≠ some (.barrierFailed k p)) →
        inMask s (ctxPart s x) i.level b.mask m = true → b.failed = false → m ∉ b.arrived → arrivalComing s x i m = false →
        pendingWait (barrierOf u i) m = some ph →
        ((barrierOf u i).phase ≠ ph →
          EndsAs (.bsync w) w.hdr (regHas w.d) s (endWait u i m ph.toNat) f fun t => readReg t f w.d = regValue w.d 0) ∧
        ((barrierOf u i).phase = ph → (barrierOf u i).failed = false →
          exec (.bsync w) s = .next (block (.barrier i.key ph.toNat) f u)))) ∧
  (∀ (s : State) (part m : Nat) (i : BarrierId) (b : Barrier),
      b = barrierOf s i → b.failed = false → b.next = none → b.held = [] →
      ((∃ k, k ∈ members s part i b.mask ∧ k ≠ m ∧ k ∉ b.arrived) →
        barrierOf (countArrival s part i m) i =
          { b with arrived := m :: b.arrived, waits := SMap.insert b.waits m b.phase }) ∧
      ((∀ k, k ∈ members s part i b.mask → k = m ∨ k ∈ b.arrived) →
        barrierOf (countArrival s part i m) i =
          { b with arrived := [], waits := SMap.insert b.waits m b.phase, phase := b.phase + 1 }))

/-- R188, R190, R193, R200, R201: BMASK replaces a barrier's mask, at once with no arrival made and else at the phase's
end, and takes trap 0x0D with cause 12 for bits its level does not use and with cause 6 for a cluster outside the
partition; TWAITANY and TWAITALL block until a tag, or every tag, of the mask is set and give the set ones; TFIND gives the
lowest set tag of the mask, or 64. -/
def Obligations.MasksAndTags : Prop :=
  ∀ (w : RWord) (s : State) (f v k : Nat) (x : Ctx) (mask : Members) (b : Barrier),
    ctxOf s f = some x → v = (ctxTask s x).tags.toNat &&& src s f w.a w.imm → mask = maskMembers s f w →
    b = barrierOf s (namedBarrier s x w) →
    (canIssue (.bmask w) w.hdr [w.a, w.b] s f = true →
      (2 ^ levelBits (immLevel w) ≤ readReg s f w.a → trapsAtOnce s f = true → Traps (.bmask w) 0x0D 12 0 s f) ∧
      (readReg s f w.a < 2 ^ levelBits (immLevel w) → trapsAtOnce s f = true → immLevel w ≠ 1 →
        (∃ c, c ∈ maskClusters x.core (immLevel w) mask ∧ inPart s (ctxPart s x) c = false) →
        Traps (.bmask w) 0x0D 6 0 s f) ∧
      (readReg s f w.a < 2 ^ levelBits (immLevel w) →
        (immLevel w ≠ 1 → ∀ c, c ∈ maskClusters x.core (immLevel w) mask → inPart s (ctxPart s x) c = true) →
        (immLevel w = 1 → ∀ j, j < 16 → mask.cores.getLsbD j = true →
          ∃ p, p ∈ taskCtxs s x.core x.bind ∧ p.2.slot = j ∧ p.2.trail = false) →
        EndsAs (.bmask w) w.hdr (fun _ => False) s
          (setBarrier s (namedBarrier s x w)
            (if b.arrived = [] then { b with mask := mask, next := none, failed := false }
              else { b with next := some mask, failed := false })) f fun _ => True)) ∧
    (canIssue (.twaitany w) w.hdr [w.a] s f = true →
      ((v ≠ 0 ∨ src s f w.a w.imm = 0) → qExtra w.qual % 2 = 0 → SetsReg (.twaitany w) w.hdr w.d v s f) ∧
      ((v ≠ 0 ∨ src s f w.a w.imm = 0) → qExtra w.qual % 2 = 1 →
        EndsAs (.twaitany w) w.hdr (regHas w.d) s
          (modTask s x.core x.bind fun t => { t with tags := t.tags &&& ~~~(BitVec.ofNat 64 v) }) f
          fun t => readReg t f w.d = regValue w.d v) ∧
      (v = 0 → src s f w.a w.imm ≠ 0 → Blocks (.twaitany w) .retry s f)) ∧
    (canIssue (.twaitall w) w.hdr [w.a] s f = true →
      (v = src s f w.a w.imm → qExtra w.qual % 2 = 0 → SetsReg (.twaitall w) w.hdr w.d v s f) ∧
      (v = src s f w.a w.imm → qExtra w.qual % 2 = 1 →
        EndsAs (.twaitall w) w.hdr (regHas w.d) s
          (modTask s x.core x.bind fun t => { t with tags := t.tags &&& ~~~(BitVec.ofNat 64 v) }) f
          fun t => readReg t f w.d = regValue w.d v) ∧
      (v ≠ src s f w.a w.imm → Blocks (.twaitall w) .retry s f)) ∧
    (canIssue (.tfind w) w.hdr [w.a] s f = true →
      (v = 0 → SetsReg (.tfind w) w.hdr w.d 64 s f) ∧
      (v.testBit k = true → (∀ j, j < k → v.testBit j = false) → qExtra w.qual % 2 = 0 → SetsReg (.tfind w) w.hdr w.d k s f) ∧
      (v.testBit k = true → (∀ j, j < k → v.testBit j = false) → qExtra w.qual % 2 = 1 →
        EndsAs (.tfind w) w.hdr (regHas w.d) s
          (modTask s x.core x.bind fun t => { t with tags := t.tags &&& ~~~(BitVec.ofNat 64 (2 ^ k)) }) f
          fun t => readReg t f w.d = regValue w.d k))

/-- R113, R184, R186, R202 to R205: SFENCE blocks until no unanswered entry of the context has its destination in the
scope; MCST takes a journal entry for all the clusters it names, and takes its traps first; JRD reads the parts of an
entry of the context, zero for any other; MQUERY reads the words of R205. The model's reading: log 66. -/
def Obligations.RemoteStoreInstructions : Prop :=
  ∀ (w : RWord) (s : State) (f n a m k e : Nat) (x : Ctx) (j : JEntry),
    ctxOf s f = some x →
    (canIssue (.sfence w) w.hdr [] s f = true →
      ((∀ p, p ∈ (coreOf s s.iss.core).journal → p.2.state = 1 → p.2.frame = f →
          destWithin s.iss.core (qScope w.qual) p.2 = false) →
        EndsAs (.sfence w) w.hdr (fun _ => False) s s f fun _ => True) ∧
      ((∃ p, p ∈ (coreOf s s.iss.core).journal ∧ p.2.state = 1 ∧ p.2.frame = f ∧
          destWithin s.iss.core (qScope w.qual) p.2 = true) → Blocks (.sfence w) .retry s f)) ∧
    (canIssue (.mcst w) w.hdr [w.a, w.b, w.c] s f = true → n = tyWidth (tyOf w.hdr) / 8 → a = readReg s f w.a →
      m = readReg s f w.b % 2 ^ 128 →
      ((inWindow a = false ∨ bitOf a 38 = false ∨ bitsOf a 45 39 ≠ 0 ∨ bitsOf a 37 22 ≠ 0 ∨ bitsOf a 21 0 % n ≠ 0) →
        trapsAtOnce s f = true → Traps (.mcst w) 0x0D 1 0 s f) ∧
      (inWindow a = true → bitOf a 38 = true → bitsOf a 45 39 = 0 → bitsOf a 37 22 = 0 → bitsOf a 21 0 % n = 0 → m = 0 →
        (freeEntry s f).isSome = true →
        SendsResult (.mcst w) w.hdr w.d 0 [regWrite w.d 0] [] s (noteMcst s x.core x.slot 1 none) f) ∧
      (inWindow a = true → bitOf a 38 = true → bitsOf a 45 39 = 0 → bitsOf a 37 22 = 0 → bitsOf a 21 0 % n = 0 → m ≠ 0 →
        ((∃ c, c ∈ mcstClusters (bitsOf a 55 46) m ∧ inPart s (ctxPart s x) c = false) → trapsAtOnce s f = true →
          Traps (.mcst w) 0x08 0 0 s f) ∧
        ((∀ c, c ∈ mcstClusters (bitsOf a 55 46) m → inPart s (ctxPart s x) c = true) → freeJournal s x.core = some k →
          freeEntry s f = some e →
          EndsAs (.mcst w) w.hdr (· = 102 + e / 2) s
            (openJournal (noteMcst s x.core x.slot 3 (some (coreOf s x.core).jnext)) x.core k
              { state := 1, frame := f, slot := x.slot, kind := 2, size := BitVec.ofNat 3 n.log2, addr := BitVec.ofNat 64 a
                data := BitVec.ofNat 64 (readReg s f w.c % 2 ^ (8 * n)), rel := qRel w.qual, scope := qScope w.qual
                sent := !qRel w.qual, todo := mcstClusters (bitsOf a 55 46) m, parts := BitVec.ofNat 128 m, entry := some e
                pc := s.iss.pc })
            f fun t => Opened s t f e w.d 0))) ∧
    (canIssue (.jrd w) w.hdr [w.a] s f = true → k = src s f w.a w.imm → j = jentry s s.iss.core k →
      ((64 ≤ k ∨ j.state = 0 ∨ j.frame ≠ f) → SetsReg (.jrd w) w.hdr w.d 0 s f) ∧
      (k < 64 → j.state ≠ 0 → j.frame = f → SetsReg (.jrd w) w.hdr w.d (journalWord j (qExtra w.qual % 2)) s f)) ∧
    (canIssue (.mquery w) w.hdr [] s f = true → SetsReg (.mquery w) w.hdr w.d (mqueryWord s f x w.imm.toNat) s f)

/-! Events of memory, results and traps (R41, R101 to R117, R133, R184 to R186, R308, R330 to R333). -/

/-- R41, R119: a long result that returns writes its register bits in its context's frame and closes its entry; here one
whole register, the only part of its entry, of no operation that writes memory. Of a pair whose second writes the register
too, the second's value remains (R54).
R42, R133: once no long result is outstanding, the trap that waited is taken: the handler is entered with the trap frame
written, or the trap escalates. -/
def Obligations.ResultsLandThenTraps : Prop :=
  (∀ (s : State) (n f e v : Nat) (d : BitVec 8) (r : Ret),
      bound s f = true → s.rets[n]? = some r →
      r = { frame := f, entry := e, writes := [regWrite d v], ready := true, late := [], ord := r.ord } → e < 16 →
      (isG d = true ∨ isP d = true ∨ isV d = true) →
      entryBusy { s with rets := s.rets.eraseIdx n } f e = false → (∀ x, ctxOf s f = some x → (e, d) ∉ x.overs) →
      (∀ u, u ∈ s.racing → u.frame ≠ f) →
      ∃ t, exec (.longResultReturn n) s = .next t ∧ readReg t f d = regValue d v ∧ entryFree t f e = true ∧
        (∀ w, w < 1024 → ¬ regHas d w → w ≠ 102 + e / 2 → readFrame t f w = readFrame s f w) ∧
        t.rets = s.rets.eraseIdx n ∧ t.mem = s.mem) ∧
  (∀ (s : State) (n f e v : Nat) (d : BitVec 8) (r : Ret) (x : Ctx),
      bound s f = true → s.rets[n]? = some r → ctxOf s f = some x → (e, d) ∈ x.overs →
      r = { frame := f, entry := e, writes := [regWrite d v], ready := true, late := [], ord := r.ord } → e < 16 →
      (isG d = true ∨ isP d = true ∨ isV d = true) →
      ∃ t, exec (.longResultReturn n) s = .next t ∧ readReg t f d = readReg s f d) ∧
  (∀ (s : State) (core slot f : Nat) (x : Ctx) (tr : TrapInfo),
      bound s f = true → (slotOf s core slot).act.frame = some f → ctxOf s f = some x →
      x.trap = some tr → tr.scrub = false → runLate s f x = [] → x.cap = none → noPending s f = true →
      ∃ t, exec (.trapEntry core slot) s = .next t ∧
        (delivered s f tr = true → Entered s t f tr) ∧ (delivered s f tr = false → Escalated s t f tr))

/-- R101, R313, R388: a load of paged memory whose turn it is, at a die in reach, brings its bytes widened by its type (of
another package's read-only page, those its cluster's copy holds: R96); poisoned ones bring trap 0x0B at the run's end,
and a die out of reach trap 0x04 with cause 8 (R398).
R106, R166, R167, R308, R398: a store of paged memory whose turn it is writes its bytes and no others; an ATOM or CAS
brings the old value and writes what it says, as one event; a store to a die out of reach takes a journal entry in the
refused state. What the replay of a fault ring's entry returns or performs ends that replay (`served`, R334). The model's
readings: log 15, log 62 and log 68. -/
def Obligations.PagedAccessesAreServed : Prop :=
  (∀ (s : State) (n : Nat) (r : Req) (t : Target),
      s.reqs[n]? = some r → r.target = some t → (r.op = 0 ∨ r.op = 4) → reqReady s r = true → r.elem = 0xFF → r.fdst = 0 →
      (targetReach s (dieOf r.core) t = true → poisoned s t.flat r.size = false →
        ∃ u, u = noteRead (dropReq s r) (clusterOf r.core) t ∧
          (t.rc = false → loadBytes u (clusterOf r.core) t r.size = readBytes u t.flat r.size) ∧ SameBytes s u ∧
          exec (.lineFillServe n) s = .next (served r (reqResult u r
            [regWrite r.dst (extend r.ty.toNat (loadBytes u (clusterOf r.core) t r.size))] []))) ∧
      (targetReach s (dieOf r.core) t = true → poisoned s t.flat r.size = true →
        exec (.lineFillServe n) s = .next (served r (reqResult
          (logPoison (noteRead (dropReq s r) (clusterOf r.core) t) r.frame t.flat r.pc) r [] [reqTrap r 0x0B 0 0]))) ∧
      (targetReach s (dieOf r.core) t = false →
        exec (.lineFillServe n) s = .next (served r (reqResult (dropReq s r) r [] [reqTrap r 0x04 8 r.off])))) ∧
  (∀ (s : State) (n old k : Nat) (r : Req) (t : Target) (x : Ctx),
      s.reqs[n]? = some r → r.target = some t → reqReady s r = true → r.elem = 0xFF → r.fdst = 0 →
      old = readBytes s t.flat r.size →
      ((r.op = 1 ∨ r.op = 5) → targetReach s (dieOf r.core) t = true →
        ∃ u, exec (.storeApplyHome n) s = .next (served r u) ∧ StoredAtHome s u t.flat r.size r.data.toNat ∧
          u.reqs = s.reqs.filter fun q => q.ord != r.ord) ∧
      ((r.op = 2 ∨ r.op = 3) → targetReach s (dieOf r.core) t = true → poisoned s t.flat r.size = false →
        ∃ u, exec (.storeApplyHome n) s = .next (served r (reqResult u r [regWrite r.dst (extend r.ty.toNat old)] [])) ∧
          (r.op = 2 → StoredAtHome s u t.flat r.size (atomNew r.fn.toNat r.ty.toNat old (r.data.toNat % 2 ^ (8 * r.size)))) ∧
          (r.op = 3 → old = r.data.toNat % 2 ^ (8 * r.size) → StoredAtHome s u t.flat r.size r.data2.toNat) ∧
          (r.op = 3 → old ≠ r.data.toNat % 2 ^ (8 * r.size) → SameBytes s u)) ∧
      ((r.op = 1 ∨ r.op = 5) → targetReach s (dieOf r.core) t = false → freeJournal s r.core = some k →
        ctxOf s r.frame = some x →
        ∃ u, exec (.storeApplyHome n) s = .next (served r u) ∧ (jentry u r.core k).state = 2 ∧ (jentry u r.core k).frame = r.frame ∧
          (jentry u r.core k).kind = 3 ∧ (jentry u r.core k).cause = 3 ∧ (jentry u r.core k).addr = r.addr))

/-- R95, R108, R115, R303: a window load whose turn it is brings the word of its port, takes the oldest word of a FIFO at
which no slot waits (R304), and is refused, trap 0x04 with cause 8 at the run's end, where the port refuses it. R106,
R112, R165, R185, R186, R397: a remote atomic whose turn it is brings the old value and stores the new one as one event; a
part of a remote ST, STF or MCST writes its bytes at its port and is done, the word of a STF set full, and a refused part
counts its refusal; a copy of a store that the port has applied does nothing. The model's readings: log 21 and log 68. -/
def Obligations.WindowAccessesAreServed : Prop :=
  (∀ (s : State) (n flat c cl b : Nat) (r : Req) (v : Word) (q : List Word),
      s.wreqs[n]? = some r → r.op = 0 → reqReady s r = true → r.elem = 0xFF →
      (portOf s r.core (winFlat r.addr.toNat) = .word flat → poisoned s flat r.size = false →
        exec (.windowLoadServe n) s = .next (reqResult (dropWreq s r) r
          [regWrite r.dst (extend r.ty.toNat (threadBytes s flat r.size))] []) ∧
          (s.racing = [] → threadBytes s flat r.size = readBytes s flat r.size)) ∧
      (portOf s r.core (winFlat r.addr.toNat) = .port cl b 8 → r.size = 8 → fifoOf s cl b = v :: q →
        fifoWaiters s cl b true = [] →
        exec (.windowLoadServe n) s = .next (reqResult (setFifo (dropWreq s r) cl b q) r
          [regWrite r.dst (extend r.ty.toNat v.toNat)] [])) ∧
      (portOf s r.core (winFlat r.addr.toNat) = .refused c →
        exec (.windowLoadServe n) s = .next (reqResult (dropWreq s r) r [] [reqTrap r 0x04 8 r.off]))) ∧
  (∀ (s : State) (n core k cl flat c : Nat) (r : Req) (j : JEntry),
      (s.wreqs[n]? = some r → r.op = 2 → reqReady s r = true → r.elem = 0xFF →
        portOf s r.core (winFlat r.addr.toNat) = .word flat → poisoned s flat r.size = false →
        ∃ u, exec (.remoteAtomicApply n) s =
            .next (reqResult u r [regWrite r.dst (extend r.ty.toNat (readBytes s flat r.size))] []) ∧
          Stored s u flat r.size
            (atomNew r.fn.toNat r.ty.toNat (readBytes s flat r.size) (r.data.toNat % 2 ^ (8 * r.size))) ∧
          u.wreqs = s.wreqs.filter fun q => q.ord != r.ord) ∧
      (j = jentry s core k → partReady s core j cl = true → j.kind ≤ 2 →
        (appliedBefore s cl core j = true →
          exec (.remoteStoreApply core k cl) s = .next (setJentry s core k { j with todo := j.todo.erase cl })) ∧
        (appliedBefore s cl core j = false → portOf s core (partFlat j cl) = .word flat →
          (j.size = 3 ∨ poisoned s flat (2 ^ j.size.toNat) = false) →
          ∃ u, exec (.remoteStoreApply core k cl) s = .next u ∧ Stored s u flat (2 ^ j.size.toNat) j.data.toNat ∧
            u.full = (if j.kind = 1 then setFull s flat true else s).full ∧ appliedBefore u cl core j = true ∧
            jentry u core k = { j with todo := j.todo.erase cl, applied := j.applied ++ [cl] }) ∧
        (appliedBefore s cl core j = false → portOf s core (partFlat j cl) = .refused c →
          ∃ u, exec (.remoteStoreApply core k cl) s = .next u ∧ u.mem = s.mem ∧
            jentry u core k = { j with
              todo := j.todo.erase cl, refusals := j.refusals + 1, why := if j.kind = 2 then 0 else BitVec.ofNat 8 c })))

/-- R112, R114, R137, R184, R203, R395: an entry all of whose parts are applied is acknowledged and freed, and a
multicast's verdict returns; one of a unicast that was refused stays in the refused state, with its cause, and apend set;
parts applied whose route has failed are refused with cause 3; a held release store or message is sent
once every earlier access it waits for has been performed. The model's readings: log 20 and log 80. -/
def Obligations.JournalAndReleases : Prop :=
  ∀ (s : State) (core k n e : Nat) (j : JEntry) (m : Msg),
    j = jentry s core k →
    (j.state = 1 → j.sent = true → j.todo = [] → j.refusals = 0 → j.kind ≠ 2 →
      exec (.journalAck core k) s = .next (setJentry s core k {})) ∧
    (j.state = 1 → j.sent = true → j.todo = [] → j.kind = 2 → j.entry = some e →
      ∃ t, exec (.journalAck core k) s = .next t ∧ t.mem = s.mem ∧
        t.rets = s.rets ++ [{ frame := j.frame, entry := e
                              writes := [regWrite (BitVec.ofNat 8 (entryOf s j.frame e))
                                (if j.refusals = 0 then 2 ^ 128 - 1 else 0)]
                              ready := true, late := [], ord := s.ord }]) ∧
    (j.state = 1 → j.sent = true → j.todo = [] → j.refusals ≠ 0 → j.kind ≠ 2 → j.dead = false →
      exec (.journalRefusal core k) s = .next (setApend (setJentry s core k { j with state := 2, cause := j.why }) j.frame)) ∧
    (j.state = 1 → j.sent = true → j.todo = [] → j.refusals ≠ 0 → j.kind ≠ 2 → j.dead = true →
      exec (.journalRefusal core k) s = .next (setJentry s core k {})) ∧
    (j.state = 1 → j.sent = true → j.todo = [] → j.refusals = 0 → lostParts s core j ≠ [] →
      (j.kind ≠ 2 → j.dead = false → exec (.journalRefusal core k) s =
        .next (setApend (setJentry s core k { j with state := 2, cause := 3 }) j.frame)) ∧
      (j.kind = 2 → ∃ t, exec (.journalRefusal core k) s = .next t ∧
        (jentry t core k).refusals = (lostParts s core j).length ∧ lostParts t core (jentry t core k) = [])) ∧
    (j.state = 1 → j.sent = false → cachedBefore s j.frame j.ord = true → windowBefore s j.frame j.ord = true →
      (∀ p, p ∈ (coreOf s core).journal → p.2.state = 1 → p.2.frame = j.frame → p.2.ord < j.ord →
        destWithin core j.scope p.2 = false) →
      exec (.releaseStoreSend core k) s = .next (setJentry s core k { j with sent := true })) ∧
    (s.net[n]? = some m → m.held = true → cachedBefore s m.frame m.ord = true →
      exec (.releaseMessageSend n) s = .next { s with net := s.net.set n { m with held := false } })

/-- R27, R28, R181, R182, R195: a message whose turn it is joins the queue of its class where a service context is bound
and has room, and its verdict goes back set; it is refused and counted with no binding (1) and with 32 messages (2);
a task queue entry joins the queue of the dispatched task's launch, and one more than 16 is refused. -/
def Obligations.MessagesArrive : Prop :=
  ∀ (s u : State) (n : Nat) (m : Msg) (q : List Msg) (b : Nat),
    s.net[n]? = some m → msgTurn s n m = true → u = { s with net := s.net.eraseIdx n } →
    q = SMap.get [] (coreOf s m.dst).classQ m.cls → reachable s (dieOf m.src) (dieOf m.dst) = true →
    routeWaits s (dieOf m.src) (dieOf m.dst) m.ord = false →
    (2 ≤ m.cls → m.hw = false →
      (classOwner s m.dst m.cls = some b → q.length < 32 →
        exec (.messageArrival n) s = .next (msgVerdict (setReady
          (modCore u m.dst fun x => { x with classQ := SMap.set [] x.classQ m.cls (q ++ [{ m with own := b }]) })
          m.dst m.cls) m 0)) ∧
      ((∀ p, p ∈ (coreOf s m.dst).tasks → ∀ t, t ∈ p.2.svc → t.1 ≠ m.cls) → exec (.messageArrival n) s = .next (refuseMsg u m 1)) ∧
      (classOwner s m.dst m.cls = some b → 32 ≤ q.length →
        exec (.messageArrival n) s = .next (refuseMsg u m 2))) ∧
    (m.cls = 1 → launchLive s m.dst m.launch = true →
      exec (.messageArrival n) s = .next
        (modCore u m.dst fun x => { x with classQ := SMap.set [] x.classQ 1 (q ++ [{ m with own := 0 }]) })) ∧
    (m.cls = 0 → (coreOf s m.dst).cur = some b → launchId (taskOf s m.dst b).token = m.launch.toNat →
      (taskOf s m.dst b).ending = none →
      ((coreOf s m.dst).taskQ.length < 16 → queueSlot s m.dst b = true →
        exec (.taskQueueEntryArrival n) s = .next (msgVerdict
          (modCore u m.dst fun x => { x with taskQ := x.taskQ ++ [{ m with entry := none }] }) m 0)) ∧
      (16 ≤ (coreOf s m.dst).taskQ.length → exec (.taskQueueEntryArrival n) s = .next (refuseMsg u m 2)))

/-- R28, R189: the oldest task queue entry of the dispatched task's launch starts as a helper with its program counter
and arguments, and leaves the queue; an engine's arrival, once its operation's status has been written (R246), reaches its
barrier, where it counts or, with its member arrived already, is held. -/
def Obligations.QueueHelperAndEngineArrival : Prop :=
  ∀ (s u : State) (core b l g n : Nat) (m : Msg) (a : Arrival) (i : BarrierId),
    ((coreOf s core).cur = some b → l = launchId (taskOf s core b).token → (coreOf s core).swap = none →
      (taskOf s core b).ending = none → liveHelpers s core b < 10 → ((coreOf s core).taskQ.find? fun m => m.launch.toNat == l) = some m →
      startContext s core b 1 0 (m.words.headD 0) m.words.tail (if m.call then some (m.src, m.tag, m.launch) else none) =
        some (g, u) →
      exec (.taskQueueHelperStart core) s =
        .next (modCore u core fun x => { x with taskQ := x.taskQ.eraseP fun m => m.launch.toNat == l })) ∧
    (s.arrivals[n]? = some a →
      i = { level := a.key / 2 ^ 32 % 256, num := a.key % 16, core := a.core, bind := a.bind, key := a.key } →
      u = { s with arrivals := s.arrivals.eraseIdx n } → (i.level = 1 → a.bind < 32) → (barrierOf s i).failed = false →
      (∀ g e r, a.after = some (g, e) → r ∈ s.rets → ¬ (r.frame = g ∧ r.entry = e)) → carrierUp s a.core i.level = true →
      inMask s (a.key / 2 ^ 40) i.level (barrierOf s i).mask a.member = true →
      (a.member ∉ (barrierOf s i).arrived →
        exec (.barrierArrival n) s = .next (countArrival u (a.key / 2 ^ 40) i a.member)) ∧
      (a.member ∈ (barrierOf s i).arrived →
        exec (.barrierArrival n) s = .next (setBarrier u i { barrierOf s i with held := (barrierOf s i).held ++ [a.member] })))

/-! The vector engine (R208 to R236). -/

/-- R213, R214, R215, R217: each active element of a sum, difference, product, fused product, minimum, maximum or absolute
value: integers wrap or, under `.sat`, clamp; floats are one rounding of the exact value; quotients and square roots
come back as a long result of the active elements, and with none of those nothing does. The model's readings: log 44. -/
def Obligations.VectorArithmetic : Prop :=
  ∀ (w : RWord) (s : State) (f t n k : Nat) (r : Rnd) (p : Fmt) (A B C : Nat → Nat) (I : Int → Nat)
    (F V : Nat → Machine.Num) (q : Fmt),
    t = tyOf w.hdr → n = tyWidth t → k = n / 2 → r = rndOf w.qual → p = fmtOf t → q = fmtOf (partType t) →
    A = lane n (readReg s f w.a) → B = operandB s f n w.b w.imm → C = lane n (readReg s f w.c) →
    I = (fun y => lowBits n (if r.sat then clampTy t y else y)) → F = decodeF r.ftz p → V = decodeF r.ftz q →
    (canVector (.vadd w) w.hdr [w.a, w.b] s f = true →
      (tyInt t = true → SetsLanes (.vadd w) w.hdr w.d n (n / 8) (1024 / n) s f fun e => I (asInt t (A e) + asInt t (B e))) ∧
      (tyF t = true → SetsLanes (.vadd w) w.hdr w.d n (n / 8) (1024 / n) s f fun e =>
        roundNow p r (addNum (r.rm == 2) (F (A e)) (F (B e)))) ∧
      (tyC t = true → SetsLanes (.vadd w) w.hdr w.d n (n / 8) (1024 / n) s f fun e =>
        sumLane (partType t) r false (A e % 2 ^ k) (B e % 2 ^ k) +
          sumLane (partType t) r false (A e / 2 ^ k) (B e / 2 ^ k) * 2 ^ k)) ∧
    (canVector (.vsub w) w.hdr [w.a, w.b] s f = true →
      (tyInt t = true → SetsLanes (.vsub w) w.hdr w.d n (n / 8) (1024 / n) s f fun e => I (asInt t (A e) - asInt t (B e))) ∧
      (tyF t = true → SetsLanes (.vsub w) w.hdr w.d n (n / 8) (1024 / n) s f fun e =>
        roundNow p r (addNum (r.rm == 2) (F (A e)) (negNum (F (B e))))) ∧
      (tyC t = true → SetsLanes (.vsub w) w.hdr w.d n (n / 8) (1024 / n) s f fun e =>
        sumLane (partType t) r true (A e % 2 ^ k) (B e % 2 ^ k) +
          sumLane (partType t) r true (A e / 2 ^ k) (B e / 2 ^ k) * 2 ^ k)) ∧
    (canVector (.vmul w) w.hdr [w.a, w.b] s f = true →
      (tyInt t = true → SetsLanes (.vmul w) w.hdr w.d n (n / 8) (1024 / n) s f fun e => I (asInt t (A e) * asInt t (B e))) ∧
      (tyF t = true → SetsLanes (.vmul w) w.hdr w.d n (n / 8) (1024 / n) s f fun e =>
        roundNow p r (mulNum (F (A e)) (F (B e)))) ∧
      (tyC t = true → SetsLanes (.vmul w) w.hdr w.d n (n / 8) (1024 / n) s f fun e =>
        roundNow q r (addNum (r.rm == 2) (mulNum (V (A e % 2 ^ k)) (V (B e % 2 ^ k)))
            (negNum (mulNum (V (A e / 2 ^ k)) (V (B e / 2 ^ k))))) +
          roundNow q r (addNum (r.rm == 2) (mulNum (V (A e % 2 ^ k)) (V (B e / 2 ^ k)))
            (mulNum (V (A e / 2 ^ k)) (V (B e % 2 ^ k)))) * 2 ^ k)) ∧
    (canVector (.vfma w) w.hdr [w.a, w.b, w.c] s f = true →
      (tyInt t = true → SetsLanes (.vfma w) w.hdr w.d n (n / 8) (1024 / n) s f fun e =>
        I (asInt t (A e) * asInt t (B e) + asInt t (C e))) ∧
      (tyF t = true → SetsLanes (.vfma w) w.hdr w.d n (n / 8) (1024 / n) s f fun e =>
        roundNow p r (addNum (r.rm == 2) (mulNum (F (A e)) (F (B e))) (F (C e))))) ∧
    (canVector (.vmin w) w.hdr [w.a, w.b] s f = true →
      (tyInt t = true → SetsLanes (.vmin w) w.hdr w.d n (n / 8) (1024 / n) s f fun e =>
        lowBits n (min (asInt t (A e)) (asInt t (B e)))) ∧
      (tyF t = true → SetsLanes (.vmin w) w.hdr w.d n (n / 8) (1024 / n) s f fun e => pickF p r.ftz false (A e) (B e))) ∧
    (canVector (.vmax w) w.hdr [w.a, w.b] s f = true →
      (tyInt t = true → SetsLanes (.vmax w) w.hdr w.d n (n / 8) (1024 / n) s f fun e =>
        lowBits n (max (asInt t (A e)) (asInt t (B e)))) ∧
      (tyF t = true → SetsLanes (.vmax w) w.hdr w.d n (n / 8) (1024 / n) s f fun e => pickF p r.ftz true (A e) (B e))) ∧
    (canVector (.vabs w) w.hdr [w.a] s f = true →
      (tySigned t = true → SetsLanes (.vabs w) w.hdr w.d n (n / 8) (1024 / n) s f fun e =>
        I (if qExtra w.qual = 1 then - asInt t (A e) else (asInt t (A e)).natAbs)) ∧
      (tyInt t = true → tySigned t = false → SetsLanes (.vabs w) w.hdr w.d n (n / 8) (1024 / n) s f fun e =>
        if qExtra w.qual = 1 then 2 ^ n - A e else A e) ∧
      (tyF t = true → SetsLanes (.vabs w) w.hdr w.d n (n / 8) (1024 / n) s f fun e =>
        if qExtra w.qual = 1 then A e ^^^ 2 ^ (n - 1) else A e % 2 ^ (n - 1))) ∧
    ((∀ e, e < 1024 / n → maskAt s f w.hdr (n / 8 * e) = false) →
      (canVector (.vdiv w) w.hdr [w.a, w.b] s f = true → EndsAs (.vdiv w) w.hdr (fun _ => False) s s f fun _ => True) ∧
      (canVector (.vsqrt w) w.hdr [w.a] s f = true → EndsAs (.vsqrt w) w.hdr (fun _ => False) s s f fun _ => True)) ∧
    ((freeEntry s f).isSome = true → (∃ e, e < 1024 / n ∧ maskAt s f w.hdr (n / 8 * e) = true) →
      (canVector (.vdiv w) w.hdr [w.a, w.b] s f = true →
        SendsResult (.vdiv w) w.hdr w.d 0 (laneWrites w.d n (n / 8) (1024 / n) (maskAt s f w.hdr) fun e =>
          roundNow p r (divNum (F (A e)) (F (B e)))) [] s s f) ∧
      (canVector (.vsqrt w) w.hdr [w.a] s f = true →
        SendsResult (.vsqrt w) w.hdr w.d 0 (laneWrites w.d n (n / 8) (1024 / n) (maskAt s f w.hdr) fun e =>
          roundNow p r (sqrtNum (F (A e)))) [] s s f))

/-- R216, R218, R219, R222, R223, R227, R228, R230: the bounded functions, comparisons, selections, bit operations and
shifts of each active element, a broadcast, a permutation, and one element inserted or extracted, which an inactive
one is not. R229: each active element of VSHUF by its pattern, with k and H = N/2. The model's readings: log 10. -/
def Obligations.VectorLanes : Prop :=
  (∀ (w : RWord) (s : State) (f t n x : Nat) (A B : Nat → Nat) (S : Instr → (Nat → Nat) → Prop),
      t = tyOf w.hdr → n = tyWidth t → A = lane n (readReg s f w.a) → B = operandB s f n w.b w.imm →
      S = (fun i g => SetsLanes i w.hdr w.d n (n / 8) (1024 / n) s f g) → x = fld w.imm 6 0 →
      (canVector (.vrcp w) w.hdr [w.a] s f = true → S (.vrcp w) fun e => boundedOp 0x86 t (qSat w.qual) (qFtz w.qual) (A e)) ∧
      (canVector (.vrsq w) w.hdr [w.a] s f = true → S (.vrsq w) fun e => boundedOp 0x87 t (qSat w.qual) (qFtz w.qual) (A e)) ∧
      (canVector (.vexp2 w) w.hdr [w.a] s f = true → S (.vexp2 w) fun e => boundedOp 0x88 t (qSat w.qual) (qFtz w.qual) (A e)) ∧
      (canVector (.vlog2 w) w.hdr [w.a] s f = true → S (.vlog2 w) fun e => boundedOp 0x89 t (qSat w.qual) (qFtz w.qual) (A e)) ∧
      (canVector (.vcmp w) w.hdr [w.a, w.b] s f = true →
        SetsLanes (.vcmp w) w.hdr w.d (n / 8) (n / 8) (1024 / n) s f fun e =>
          if (if tyInt t then condInt (qExtra w.qual) (asInt t (A e)) (asInt t (B e))
            else condNum (qExtra w.qual) (decodeF (qFtz w.qual) (fmtOf t) (A e)) (decodeF (qFtz w.qual) (fmtOf t) (B e)))
          then 2 ^ (n / 8) - 1 else 0) ∧
      (canVector (.vsel w) w.hdr [w.a, w.b, w.c] s f = true →
        S (.vsel w) fun e => if (readReg s f w.c).testBit (n / 8 * e) then A e else B e) ∧
      (canVector (.vbit w) w.hdr [w.a, w.b] s f = true →
        (fnOf w.hdr = 0 → S (.vbit w) fun e => A e &&& B e) ∧ (fnOf w.hdr = 1 → S (.vbit w) fun e => A e ||| B e) ∧
        (fnOf w.hdr = 2 → S (.vbit w) fun e => A e ^^^ B e) ∧
        (fnOf w.hdr = 3 → S (.vbit w) fun e => A e &&& (2 ^ n - 1 - B e)) ∧
        (fnOf w.hdr = 4 → S (.vbit w) fun e => 2 ^ n - 1 - A e)) ∧
      (canVector (.vsh w) w.hdr [w.a, w.b] s f = true →
        (fnOf w.hdr = 0 → S (.vsh w) fun e => A e * 2 ^ (B e % 64 % n)) ∧
        (fnOf w.hdr = 1 → S (.vsh w) fun e => A e / 2 ^ (B e % 64 % n)) ∧
        (fnOf w.hdr = 2 → S (.vsh w) fun e => lowBits n (sextInt n (A e) / 2 ^ (B e % 64 % n)))) ∧
      (canVector (.vbcast w) w.hdr [w.a] s f = true → S (.vbcast w) fun _ => src s f w.a w.imm) ∧
      (canVector (.vperm w) w.hdr [w.a, w.b] s f = true → S (.vperm w) fun e => A (lane n (readReg s f w.b) e % (1024 / n))) ∧
      (canVector (.vmovxIns w) w.hdr [w.a] s f = true →
        (maskAt s f w.hdr (n / 8 * x) = true → ∃ y, SetsReg (.vmovxIns w) w.hdr w.d y s f ∧ ∀ e, e < 1024 / n →
          lane n y e = if e = x then readReg s f w.a % 2 ^ n else lane n (readReg s f w.d) e) ∧
        (maskAt s f w.hdr (n / 8 * x) = false → EndsAs (.vmovxIns w) w.hdr (fun _ => False) s s f fun _ => True)) ∧
      (canVector (.vmovxExt w) w.hdr [w.a] s f = true →
        (maskAt s f w.hdr (n / 8 * x) = true → SetsReg (.vmovxExt w) w.hdr w.d (extend t (A x)) s f) ∧
        (maskAt s f w.hdr (n / 8 * x) = false → EndsAs (.vmovxExt w) w.hdr (fun _ => False) s s f fun _ => True))) ∧
  (∀ (w : RWord) (s : State) (f n N k : Nat) (A B : Nat → Nat),
      canVector (.vshuf w) w.hdr [w.a, w.b] s f = true →
      n = tyWidth (tyOf w.hdr) → N = 1024 / n → k = fld w.imm 15 8 → A = lane n (readReg s f w.a) → B = lane n (readReg s f w.b) →
      ∃ y, SetsReg (.vshuf w) w.hdr w.d y s f ∧
        (∀ e, e < N → maskAt s f w.hdr (n / 8 * e) = false → lane n y e = lane n (readReg s f w.d) e) ∧
        (∀ e, e < N → maskAt s f w.hdr (n / 8 * e) = true →
          (fld w.imm 3 0 = 0 → lane n y e = A ((e + k) % N)) ∧
          (fld w.imm 3 0 = 1 → lane n y e = if e + k < N then A (e + k) else 0) ∧
          (fld w.imm 3 0 = 2 → lane n y e = if k ≤ e then A (e - k) else 0) ∧
          (fld w.imm 3 0 = 7 → lane n y e = A (N - 1 - e)) ∧
          (fld w.imm 3 0 = 8 → lane n y e = A (if e % 2 = 0 then e + 1 else e - 1))) ∧
        (∀ j, j < N / 2 →
          (fld w.imm 3 0 = 3 → (maskAt s f w.hdr (n / 8 * (2 * j)) = true → lane n y (2 * j) = A j) ∧
            (maskAt s f w.hdr (n / 8 * (2 * j + 1)) = true → lane n y (2 * j + 1) = B j)) ∧
          (fld w.imm 3 0 = 4 → (maskAt s f w.hdr (n / 8 * (2 * j)) = true → lane n y (2 * j) = A (N / 2 + j)) ∧
            (maskAt s f w.hdr (n / 8 * (2 * j + 1)) = true → lane n y (2 * j + 1) = B (N / 2 + j))) ∧
          (fld w.imm 3 0 = 5 → (maskAt s f w.hdr (n / 8 * j) = true → lane n y j = A (2 * j)) ∧
            (maskAt s f w.hdr (n / 8 * (N / 2 + j)) = true → lane n y (N / 2 + j) = B (2 * j))) ∧
          (fld w.imm 3 0 = 6 → (maskAt s f w.hdr (n / 8 * j) = true → lane n y j = A (2 * j + 1)) ∧
            (maskAt s f w.hdr (n / 8 * (N / 2 + j)) = true → lane n y (N / 2 + j) = B (2 * j + 1)))))

/-- R91, R220, R221, R231 to R235: reductions over R91's tree, running sums, the ranked elements and their indices, the
first of the ranking, dot products, conversions and quantised rows. -/
def Obligations.VectorReductionsAndConversions : Prop :=
  ∀ (w : RWord) (s : State) (f t n k d2 : Nat) (l : List (Nat × Nat)) (mask : Nat → Bool) (A : Nat),
    t = tyOf w.hdr → n = tyWidth t → k = fld w.imm 7 0 → d2 = idx w.d + 1 → mask = maskAt s f w.hdr → A = readReg s f w.a →
    l = ranked t (qExtra w.qual == 1) mask A →
    (canVector (.vred w) w.hdr [w.a] s f = true →
      SetsReg (.vred w) w.hdr w.d (extend t (reduceBelow (fnOf w.hdr) t (rndOf w.qual) mask A (1024 / n))) s f) ∧
    (canVector (.vscan w) w.hdr [w.a] s f = true →
      SetsLanes (.vscan w) w.hdr w.d n (n / 8) (1024 / n) s f fun e =>
        reduceBelow (if fnOf w.hdr = 0 then 0 else 2) t (rndOf w.qual) mask A (e + 1)) ∧
    (canVector (.vtopk w) w.hdr [w.a] s f = true →
      EndsAs (.vtopk w) w.hdr (fun v => regHas w.d v ∨ regHas (vSpec d2) v) s s f fun t => ∀ e, e < 1024 / n →
        lane n (readReg t f w.d) e = (if e < k then ((l[e]?).map Prod.snd).getD 0 else lane n (readReg s f w.d) e) ∧
        lane n (readReg t f (vSpec d2)) e =
          if e < k then ((l[e]?).map Prod.fst).getD (2 ^ n - 1) else lane n (readReg s f (vSpec d2)) e) ∧
    (canVector (.vargmax w) w.hdr [w.a] s f = true →
      (l = [] → SetsReg (.vargmax w) w.hdr w.d (2 ^ 32 - 1) s f) ∧
      (∀ e v rest, l = (e, v) :: rest → SetsReg (.vargmax w) w.hdr w.d (e + v * 2 ^ 32) s f)) ∧
    (canVector (.vdot w) w.hdr [w.a, w.b, w.c] s f = true →
      SetsLanes (.vdot w) w.hdr w.d 32 4 32 s f fun e =>
        dotLane t (qSat w.qual) A (readReg s f w.b) (lane 32 (readReg s f w.c) e) e) ∧
    (∀ ws wd m out, ws = tyWidth (fld w.imm 4 0) → wd = n → m = max ws wd →
      out = cvtLanes (fld w.imm 4 0) t (rndOf w.qual) (fun i => mask (m / 8 * i))
        (fun i => if ws < wd then i + 1024 / m * fld w.imm 10 8 else i)
        (fun i => if wd < ws then i + 1024 / m * fld w.imm 10 8 else i) A (upFrom 0 (1024 / m))
        (readReg s f w.d, lfsrOf s s.iss.core s.iss.slot) →
      canVector (.vcvt w) w.hdr [w.a] s f = true →
      EndsAs (.vcvt w) w.hdr (regHas w.d) s (putLfsr s f out.2) f fun t => readReg t f w.d = regValue w.d out.1) ∧
    (∀ ws a row q, ws = tyWidth (fld w.imm 4 0) → a = (fun j => if ws = 8 then 64 * fld w.imm 8 8 + j else j) →
      canVector (.vqf4 w) w.hdr ([w.a, w.b] ++ if ws = 32 then [vSpec (idx w.a + 1)] else []) s f = true →
      ((∀ j, j < 64 → mask (ws / 8 * a j % 128) = false) → EndsAs (.vqf4 w) w.hdr (fun _ => False) s s f fun _ => True) ∧
      ((∃ j, j < 64 ∧ mask (ws / 8 * a j % 128) = true) →
        q = quantRow (qRm w.qual) (decodeF false (fmtOf 10) (readReg s f w.b % 2 ^ 16))
          (decodeF false (fmtOf 10) (readReg s f w.b / 2 ^ 16 % 2 ^ 16)) 8
          ((upFrom 0 64).map fun j => if mask (ws / 8 * a j % 128) then
            numOf (qFtz w.qual) (fld w.imm 4 0)
              (lane ws (A + if ws = 32 then readReg s f (vSpec (idx w.a + 1)) * 2 ^ 1024 else 0) (a j))
            else .rat false 0 1 0) (lfsrOf s s.iss.core s.iss.slot) →
        row = packBits 4 q.1 + packBits 16 q.2.1 * 2 ^ 256 + (fld w.imm 15 10 * 2 ^ 9) * 2 ^ 256 →
        EndsAs (.vqf4 w) w.hdr (regHas w.d) s (putLfsr s f q.2.2) f fun t => ∀ j, j < 1024 →
          (readReg t f w.d).testBit j =
            if 384 * fld w.imm 9 9 ≤ j ∧ j < 384 * fld w.imm 9 9 + 384 then row.testBit (j - 384 * fld w.imm 9 9)
            else (readReg s f w.d).testBit j))

/-- R101, R224, R225: a vector access whose active lanes all pass R98's check: VLD in near memory brings each lane's bytes
(of words that an engine's operation in flight has written, R108, the old or the new ones) as a long result and VST stores
each lane's element and no other byte; in paged memory each lane is a request. The first lane that fails traps. VGATH and
VSCAT do the lanes that pass and mark their predicate. With no active lane none of them does anything. The model's
readings: log 17 and log 46. -/
def Obligations.VectorMemory : Prop :=
  ∀ (w : MWord) (s : State) (f n e : Nat) (x : Ctx) (g : Seg) (off : Nat → Int) (as : List Nat) (ls : List (Nat × Nat)),
    n = tyWidth (tyOf w.hdr) / 8 → g = readSeg s f w.seg.toNat → ctxOf s f = some x → freeEntry s f = some e →
    as = activeLanes s f w.hdr → (∀ l, l ∈ as → bankHeld s x g (off l) = false) →
    ((∀ l, off l = memOff s f w + (l * n : Nat)) →
      (canVector (.vld w) w.hdr (memSpecs w) s f = true →
        (as = [] → EndsAs (.vld w) w.hdr (fun _ => False) s s f fun _ => True) ∧
        (checkLanes s x g (laneRule needRd n) off as = .ok ls → segKind g = 0 → as ≠ [] →
          EndsAs (.vld w) w.hdr (· = 102 + e / 2) s
            (pushGroup s (fun l a => scalarReq s f x w 0 (off l) a (some e)) ls) f
            fun t => Opened s t f e w.data 0) ∧
        (checkLanes s x g (laneRule needRd n) off as = .ok ls → segKind g ≠ 0 → as ≠ [] →
          (∀ p, p ∈ ls → mayPerform s x.core f w.qual (nearPlace s (nearFlat x (segKind g) p.2)) = true ∧
            poisoned s (nearFlat x (segKind g) p.2) n = false) →
          SendsResult (.vld w) w.hdr w.data 0
            (ls.map fun p => { spec := w.data, lo := p.1 * (8 * n), width := 8 * n
                               val := threadBytes s (nearFlat x (segKind g) p.2) n }) [] s s f ∧
          (s.racing = [] → ∀ a, threadBytes s a n = readBytes s a n)) ∧
        (∀ c o, checkLanes s x g (laneRule needRd n) off as = .error (c, o) → trapsAtOnce s f = true →
          Traps (.vld w) 0x04 c (n64 o) s f)) ∧
      (canVector (.vst w) w.hdr (w.data :: memSpecs w) s f = true →
        (as = [] → EndsAs (.vst w) w.hdr (fun _ => False) s s f fun _ => True) ∧
        (checkLanes s x g (laneRule needWr n) off as = .ok ls → segKind g = 0 → as ≠ [] →
          EndsAs (.vst w) w.hdr (fun _ => False) s
            (pushGroup s (fun l a => { scalarReq s f x w 1 (off l) a none with
              data := BitVec.ofNat 64 (lane (8 * n) (readReg s f w.data) l) }) ls) f fun t => t.mem = s.mem) ∧
        (checkLanes s x g (laneRule needWr n) off as = .ok ls → segKind g ≠ 0 →
          (∀ p, p ∈ ls → mayPerform s x.core f w.qual (nearPlace s (nearFlat x (segKind g) p.2)) = true) →
          EndsAs (.vst w) w.hdr (fun _ => False) s
            (nearLaneStores x.core f n (readReg s f w.data) (ls.map fun p => (p.1, nearFlat x (segKind g) p.2)) s) f
            fun t =>
              (∀ p, p ∈ ls → readBytes t (nearFlat x (segKind g) p.2) n = lane (8 * n) (readReg s f w.data) p.1) ∧
              ∀ a, (∀ p, p ∈ ls → a < nearFlat x (segKind g) p.2 ∨ nearFlat x (segKind g) p.2 + n ≤ a) →
                readByte t a = readByte s a) ∧
        (∀ c o, checkLanes s x g (laneRule needWr n) off as = .error (c, o) → trapsAtOnce s f = true →
          Traps (.vst w) 0x04 c (n64 o) s f))) ∧
    ((∀ l, off l = (readReg s f w.base + lane 32 (readReg s f (vSpec (idx w.data + 1))) l * 2 ^ w.scale.toNat : Nat) +
        sextInt 32 w.offset.toNat) →
      g.attr.getLsbD 0 = true → as ≠ [] →
      (canVector (.vgath w) w.hdr (vSpec (idx w.data + 1) :: memSpecs { w with index := 0xFF }) s f = true → segKind g = 0 →
        ls = (as.filterMap fun l => match checkSeg s x g (laneRule needRd 4) (off l) with
          | .ok a => some (l, a)
          | .error _ => none) →
        EndsAs (.vgath w) w.hdr (· = 102 + e / 2) s
          (pushGroup (withRet s f e (markLanes (pSpec (qExtra w.qual)) 15 (as.filter fun l => l ∉ ls.map Prod.fst)) [])
            (fun l a => { scalarReq s f x w 0 (off l) a (some e) with fdst := pSpec (qExtra w.qual) }) ls) f
          fun t => Opened s t f e w.data (pSpec (qExtra w.qual))) ∧
      (canVector (.vscat w) w.hdr (vSpec (idx w.data + 1) :: w.data :: memSpecs { w with index := 0xFF }) s f = true →
        segKind g = 0 →
        ls = (as.filterMap fun l => match checkSeg s x g (laneRule needWr 4) (off l) with
          | .ok a => some (l, a)
          | .error _ => none) →
        EndsAs (.vscat w) w.hdr (· = 102 + e / 2) s
          (pushGroup (withRet s f e (markLanes (pSpec (qExtra w.qual)) 15 (as.filter fun l => l ∉ ls.map Prod.fst)) [])
            (fun l a => { scalarReq s f x w 1 (off l) a (some e) with
              dst := 0, fdst := pSpec (qExtra w.qual)
              data := BitVec.ofNat 64 (lane 32 (readReg s f w.data) l) }) ls) f
          fun t => Opened s t f e (pSpec (qExtra w.qual)) 0) ∧
      ((segKind g = 1 ∨ segKind g = 2) →
      (∀ p, p ∈ ls → mayPerform s x.core f w.qual (nearPlace s p.2) = true ∧ poisoned s p.2 4 = false) →
      (canVector (.vgath w) w.hdr (vSpec (idx w.data + 1) :: memSpecs { w with index := 0xFF }) s f = true →
        ls = (as.filterMap fun l => match checkSeg s x g (laneRule needRd 4) (off l) with
          | .ok a => some (l, nearFlat x (segKind g) a)
          | .error _ => none) →
        SendsResult (.vgath w) w.hdr w.data (pSpec (qExtra w.qual))
          ((ls.map fun p => { spec := w.data, lo := p.1 * 32, width := 32, val := threadBytes s p.2 4 }) ++
            markLanes (pSpec (qExtra w.qual)) 15 (as.filter fun l => l ∉ ls.map Prod.fst) ++
            markLanes (pSpec (qExtra w.qual)) 0 (ls.map Prod.fst)) [] s s f ∧
          (s.racing = [] → ∀ a, threadBytes s a 4 = readBytes s a 4)) ∧
      (canVector (.vscat w) w.hdr (vSpec (idx w.data + 1) :: w.data :: memSpecs { w with index := 0xFF }) s f = true →
        ls = (as.filterMap fun l => match checkSeg s x g (laneRule needWr 4) (off l) with
          | .ok a => some (l, nearFlat x (segKind g) a)
          | .error _ => none) →
        SendsResult (.vscat w) w.hdr (pSpec (qExtra w.qual)) 0
          (markLanes (pSpec (qExtra w.qual)) 15 (as.filter fun l => l ∉ ls.map Prod.fst) ++
            markLanes (pSpec (qExtra w.qual)) 0 (ls.map Prod.fst)) [] s
          (nearLaneStores x.core f 4 (readReg s f w.data) ls s) f))) ∧
    (as = [] →
      (canVector (.vgath w) w.hdr (vSpec (idx w.data + 1) :: memSpecs { w with index := 0xFF }) s f = true →
        EndsAs (.vgath w) w.hdr (fun _ => False) s s f fun _ => True) ∧
      (canVector (.vscat w) w.hdr (vSpec (idx w.data + 1) :: w.data :: memSpecs { w with index := 0xFF }) s f = true →
        EndsAs (.vscat w) w.hdr (fun _ => False) s s f fun _ => True)) ∧
    (g.attr.getLsbD 0 = false → as ≠ [] → trapsAtOnce s f = true →
      ((canVector (.vgath w) w.hdr (vSpec (idx w.data + 1) :: memSpecs { w with index := 0xFF }) s f = true →
        ∃ a, Traps (.vgath w) 0x04 1 a s f) ∧
      (canVector (.vscat w) w.hdr (vSpec (idx w.data + 1) :: w.data :: memSpecs { w with index := 0xFF }) s f = true →
        ∃ a, Traps (.vscat w) 0x04 1 a s f)))

/-! The matrix and the walk engine (R237 to R277). -/

/-- R31, R127, R243, R251 to R255: an instruction of the matrix or walk engine from a slot that is not bound takes trap
0x06. From the bound slot, the engine free: MZERO clears the accumulators of its mask, MSWZ selects a swizzle, MMA and
MCMA start their operation and wait for its status, MLDA and MSTA move an accumulator of 4,096 bytes. R248, R254, R255:
MARM, MGANG and MRING with a well-formed barrier specification arm the core, MARM's arming being its issue while the
leader's holds until the operation starts; once it runs, each takes its entry and waits for the status; a malformed
specification is a status of its own. The model's readings: log 17 and log 47. -/
def Obligations.MatrixInstructions : Prop :=
  (∀ (w : RWord) (s u v : State) (f e flat off : Nat) (x : Ctx),
      ctxOf s f = some x → (coreOf s x.core).accJobs = [] → (coreOf s x.core).mx = none → (coreOf s x.core).wk = none →
      u = modCore s x.core (fun c => { c with accUsed := true }) → v = openEntry u f e w.d 0 →
      freeEntry u f = some e → off = fld (BitVec.ofNat 64 (readReg v f w.a)) 31 0 →
      (matrixBound s f = false → trapsAtOnce s f = true →
        (∀ i, i ∈ [Instr.mzero w, .mswz w, .mma w, .mcma w, .mlda w, .msta w, .marm w, .walk w, .walkResume w, .wchk w,
            .wstat w] ∨ (i ∈ [Instr.mgang w, .mring w] ∧ (mxRing w).testBit (s.iss.core % 4) = true) →
          canIssue i w.hdr [w.a, w.b, w.c] s f = true → Traps i 0x06 0 0 s f)) ∧
      (matrixBound s f = true →
        (canIssue (.mzero w) w.hdr [w.a, w.b, w.c] s f = true →
          ∃ t, exec (.mzero w) s = .next (finish w.hdr f t) ∧ t.mem = s.mem ∧ (∀ c k, slotOf t c k = slotOf s c k) ∧
            ∀ k, accOf t x.core k = if k < 8 ∧ w.imm.getLsbD k = true then 0 else accOf s x.core k) ∧
        (canIssue (.mswz w) w.hdr [w.a, w.b, w.c] s f = true →
          EndsAs (.mswz w) w.hdr (fun _ => False) s
            (modTask u x.core x.bind fun t => { t with swzSel := BitVec.ofNat 3 (fld w.imm 2 0) }) f fun t => t.mem = s.mem) ∧
        (canIssue (.mma w) w.hdr [w.a, w.b, w.c] s f = true →
          exec (.mma w) s = .next (finishWaiting w.hdr f e (modCore v x.core fun c =>
            { c with mx := some { newOp v 0xC1 w f x e with running := true, claimed := true } }))) ∧
        (canIssue (.mcma w) w.hdr [w.a, w.b, w.c] s f = true →
          exec (.mcma w) s = .next (finishWaiting w.hdr f e (modCore v x.core fun c =>
            { c with mx := some { newOp v 0xC2 w f x e with running := true, claimed := true } }))) ∧
        (readReg v f w.a < 2 ^ 32 →
          (canIssue (.mlda w) w.hdr [w.a, w.b, w.c] s f = true →
            engineTile v x (readSeg v f (mxSA w)) needRd 4096 32 (tyOf w.hdr) [0] off = .ok flat → poisoned v flat 4096 = false →
            exec (.mlda w) s = .next (finishWaiting w.hdr f e (deliver
              (setAcc v x.core (mxAcc w) (BitVec.ofNat 32768 (engineBytes v x.core false flat 4096))) f e w.d 0 none))) ∧
          (canIssue (.msta w) w.hdr [w.a, w.b, w.c] s f = true → flat % 8 = 0 →
            engineTile v x (readSeg v f (mxSA w)) needWr 4096 32 (tyOf w.hdr) [0] off = .ok flat →
            ∃ t, exec (.msta w) s = .next (finishWaiting w.hdr f e (deliver t f e w.d 0 none)) ∧
              Stored s t flat 4096 (accOf s x.core (mxAcc w)).toNat ∧ (∀ k, k < 512 → isFull t (flat + 8 * k) = true)) ∧
          (∀ c, canIssue (.mlda w) w.hdr [w.a, w.b, w.c] s f = true →
            engineTile v x (readSeg v f (mxSA w)) needRd 4096 32 (tyOf w.hdr) [0] off = .error c →
            exec (.mlda w) s = .next (finishWaiting w.hdr f e (deliver v f e w.d (statusWord 0 0 c.1 c.2 false 1)
              (failTrap v.iss.pc v.iss.word w.qual (c.1, c.2, off)))))))) ∧
  (∀ (w : RWord) (s u v : State) (f e : Nat) (x : Ctx) (m : MxOp),
      ctxOf s f = some x → (coreOf s x.core).accJobs = [] → (coreOf s x.core).wk = none → matrixBound s f = true →
      u = modCore s x.core (fun c => { c with accUsed := true }) → v = openEntry u f e w.d 0 →
      freeEntry u f = some e →
      ((coreOf s x.core).mx = none → badSpec (readReg s f w.b) = false →
        (canIssue (.marm w) w.hdr [w.a, w.b, w.c] s f = true →
          exec (.marm w) s = .next (armedWait f (modCore u x.core fun c => { c with mx := some (newOp u 0xC5 w f x 0) }))) ∧
        (canIssue (.mgang w) w.hdr [w.a, w.b, w.c] s f = true → (mxRing w).testBit (s.iss.core % 4) = true →
          exec (.mgang w) s = .next (hold .retry f (modCore u x.core fun c => { c with mx := some (newOp u 0xC6 w f x 0) }))) ∧
        (canIssue (.mring w) w.hdr [w.a, w.b, w.c] s f = true → (mxRing w).testBit (s.iss.core % 4) = true →
          exec (.mring w) s = .next (hold .retry f (modCore u x.core fun c => { c with mx := some (newOp u 0xC7 w f x 0) })))) ∧
      ((coreOf s x.core).mx = none → badSpec (readReg s f w.b) = true →
        canIssue (.marm w) w.hdr [w.a, w.b, w.c] s f = true →
        exec (.marm w) s = .next (finishWaiting w.hdr f e (deliver v f e w.d (statusWord 0 (x.core % 4) 0x02 3 false 1)
          (failTrap v.iss.pc v.iss.word w.qual (0x02, 3, 0))))) ∧
      ((coreOf s x.core).mx = some m → m.frame = f → m.running = true →
        (canIssue (.marm w) w.hdr [w.a, w.b, w.c] s f = true →
          exec (.marm w) s = .next (finishWaiting w.hdr f e
            (modCore v x.core fun c => { c with mx := some { m with claimed := true, entry := e } }))) ∧
        (canIssue (.mgang w) w.hdr [w.a, w.b, w.c] s f = true → (mxRing w).testBit (s.iss.core % 4) = true →
          exec (.mgang w) s = .next (finishWaiting w.hdr f e
            (modCore v x.core fun c => { c with mx := some { m with claimed := true, entry := e } }))) ∧
        (canIssue (.mring w) w.hdr [w.a, w.b, w.c] s f = true → (mxRing w).testBit (s.iss.core % 4) = true →
          exec (.mring w) s = .next (finishWaiting w.hdr f e
            (modCore v x.core fun c => { c with mx := some { m with claimed := true, entry := e } })))) ∧
      ((mxRing w).testBit (s.iss.core % 4) = false → trapsAtOnce s f = true →
        canIssue (.mgang w) w.hdr [w.a, w.b, w.c] s f = true →
        ∃ t, exec (.mgang w) s = .next t ∧ t.iss.res = .trapped ∧ Escalated s t f (exactTrap s 0x01 0 0)))

/-- R271 to R276: WALK whose three ranges pass the checks sets every row running at the root, writes the state block and
leaves the walk to the engine; a check that fails is its summary. WALK.resume with nothing running ends with the summary
at once; with rows running, or made so by `rf`, it writes the entries it changed and leaves the walk to the engine. WSTAT
gives the rows in a state and their number; WCHK a record's header, or its fault, or the fault and index of an inner
node's first child pointer that fails. The model's readings: log 48; a poisoned entry under WSTAT: log 83. -/
def Obligations.WalkInstructions : Prop :=
  ∀ (w : RWord) (s u v : State) (f e ga gc ar ab ao : Nat) (x : Ctx) (old es : List WEntry),
    ctxOf s f = some x → (coreOf s x.core).accJobs = [] → (coreOf s x.core).mx = none → (coreOf s x.core).wk = none →
    u = modCore s x.core (fun c => { c with accUsed := true }) → v = openEntry u f e w.d 0 →
    freeEntry u f = some e → matrixBound s f = true → ga = readReg v f w.a → gc = readReg v f w.c →
    walkEnding s f = false → old = ((upFrom 0 (wkN w)).map fun i => entryFrom (engineBytes v x.core false (ab + 16 * i) 16)) →
    es = startEntries true w 0 old →
    (canIssue (.walk w) w.hdr [w.a, w.b, w.c] s f = true →
      (walkChecks v x f w ga gc = .ok (ar, ab, ao) → yieldWanted s x.core = false →
        ∃ t k, exec (.walk w) s = .next t ∧ (coreOf t x.core).wk = some k ∧ k.frame = f ∧ k.entry = e ∧ k.rounds = 0 ∧
          k.entries = List.replicate (wkN w)
            { node := BitVec.ofNat 64 (readReg s f w.b), aux := 0xFFFFFFFF, cause := 0, fcode := 0, depth := 0, status := 1 } ∧
          (∀ i, i < wkN w → readBytes t (ab + 16 * i) 16 =
            1 + 0xFFFFFFFF * 2 ^ 32 + (readReg s f w.b % 2 ^ 64) * 2 ^ 64) ∧
          ∀ a, (a < ab ∨ ab + 16 * wkN w ≤ a) → readByte t a = readByte s a) ∧
      (∀ c d, walkChecks v x f w ga gc = .error (c, d) → c ≠ 0x0B →
        exec (.walk w) s = .next (finishWaiting w.hdr f e (deliver v f e w.d (d % 16 * 2 ^ 16 + c * 2 ^ 8 + 1)
          (walkFailTrap v w.qual (c, d)))))) ∧
    (canIssue (.walkResume w) w.hdr [w.a, w.b, w.c] s f = true → walkChecks v x f w ga gc = .ok (ar, ab, ao) →
      countStatus es 1 = 0 → exec (.walkResume w) s = .next (finishWaiting w.hdr f e
        (deliver (modCore (putEntries v f ab 0 old es) x.core fun c => { c with wk := none }) f e w.d (summaryWord es 0)
          (walkTrap v.iss.pc v.iss.word w.qual es)))) ∧
    (canIssue (.walkResume w) w.hdr [w.a, w.b, w.c] s f = true → walkChecks v x f w ga gc = .ok (ar, ab, ao) →
      0 < countStatus es 1 → yieldWanted s x.core = false →
      ∃ t k, exec (.walkResume w) s = .next t ∧ (coreOf t x.core).wk = some k ∧ k.frame = f ∧ k.entry = e ∧ k.rounds = 0 ∧
        k.entries = es ∧
        (∀ (i : Nat) (o : WEntry), old[i]? = some o → es[i]? =
          some (if o.status = 3 ∧ wkRf w = true then { o with status := 1, fcode := 0, cause := 0 } else o)) ∧
        (∀ (i : Nat) (o n : WEntry), old[i]? = some o → es[i]? = some n → readBytes t (ab + 16 * i) 16 =
          if o = n then readBytes s (ab + 16 * i) 16 else entryBits n) ∧
        ∀ a, (a < ab ∨ ab + 16 * wkN w ≤ a) → readByte t a = readByte s a) ∧
    (canIssue (.wstat w) w.hdr [w.a, w.b, w.c] s f = true →
      (∀ c, engineTile v x (readSeg v f (wkSS w)) (needRd + needWr) (16 * wkN w) 16 0 [0] (bitsOf ga 63 32) = .error c →
        exec (.wstat w) s = .next (finishWaiting w.hdr f e (deliver v f e w.d (2 ^ 63) none))) ∧
      (∀ b hit, engineTile v x (readSeg v f (wkSS w)) (needRd + needWr) (16 * wkN w) 16 0 [0] (bitsOf ga 63 32) = .ok b →
        hit = ((upFrom 0 (wkN w)).filter fun i => engineBytes v x.core false (b + 16 * i) 1 == fld w.imm 3 0) →
        (poisoned v b (16 * wkN w) = false → exec (.wstat w) s = .next (finishWaiting w.hdr f e (deliver v f e w.d
          ((hit.map fun i => 2 ^ i).sum + hit.length * 2 ^ 32) none))) ∧
        (poisoned v b (16 * wkN w) = true → exec (.wstat w) s = .next (finishWaiting w.hdr f e (deliver
          (logPoison v f (firstPoison v b (16 * wkN w)) v.iss.pc) f e w.d (2 ^ 63) none))))) ∧
    (canIssue (.wchk w) w.hdr [w.a, w.b, w.c] s f = true →
      nodeWaits u x f u.iss.pc (readSeg u f (wkSN w)) (readReg u f w.b) = false →
      (∀ t z, readNode v x f v.iss.pc (readSeg v f (wkSN w)) (tyOf w.hdr) (wkD w) (readReg v f w.b) = (t, .error z) →
        exec (.wchk w) s = .next (finishWaiting w.hdr f e (deliver t f e w.d (z.1 + z.2 * 2 ^ 8) none))) ∧
      (∀ t n, readNode v x f v.iss.pc (readSeg v f (wkSN w)) (tyOf w.hdr) (wkD w) (readReg v f w.b) = (t, .ok n) →
        (hdLeaf n.hdr = true →
          exec (.wchk w) s = .next (finishWaiting w.hdr f e (deliver t f e w.d (n.hdr % 2 ^ 64) none))) ∧
        ∀ (child : Nat → Nat) (good : Nat → Prop) (rule : AccessRule), hdLeaf n.hdr = false →
          rule = { need := needRd + needEng, size := 256, align := 256, kinds := [0] } →
          (∀ k, child k = tileBits n.raw (childTable n.hdr + 8 * k) 64) →
          (∀ k, good k ↔ child k ≠ 0 ∧ child k % 256 = 0 ∧
            ∃ a, checkSeg t x (readSeg v f (wkSN w)) rule (child k : Int) = .ok a) →
          ((∀ k, k < hdCount n.hdr → good k) →
            exec (.wchk w) s = .next (finishWaiting w.hdr f e (deliver t f e w.d (n.hdr % 2 ^ 64) none))) ∧
          ∀ k z, k < hdCount n.hdr → (∀ j, j < k → good j) →
            ((child k = 0 ∧ z = 6) ∨ (child k ≠ 0 ∧ child k % 256 ≠ 0 ∧ z = 4) ∨
              (child k ≠ 0 ∧ child k % 256 = 0 ∧
                ∃ c, checkSeg t x (readSeg v f (wkSN w)) rule (child k : Int) = .error c ∧ z = 5 + c * 2 ^ 8)) →
            exec (.wchk w) s = .next (finishWaiting w.hdr f e (deliver t f e w.d (z + k * 2 ^ 16 + 2 ^ 24) none))))

/-- R239, R252, R254, R265, R268: GANG_START loads every member of a ring whose members are armed; a step of MMA or MCMA
that passes its checks adds its product to the accumulator, and the last ends the operation with status 0; a round
takes every running row one level down and ends at the boundary, with the accumulator a7 undefined. R239, R79: an
integer step, element (i, j) of the accumulator plus the products of row i of the A tile and row j of the B tile,
modulo 2^32. R262, R263, R265: a row at a leaf stops with its identity in aux and has an output row; one at depth 64
at an inner node stops with status 5; any other goes to the child its rule chooses, or stops with status 4. The
model's readings: log 9, log 17 and log 48. -/
def Obligations.EngineSteps : Prop :=
  (∀ (s u : State) (core : Nat) (m : MxOp) (k : WalkOp) (x : Ctx) (a : Nat × Nat × Nat) (es : List WEntry),
      ((coreOf s core).mx = some m → canStart s core = true → yieldsStart s core m = false →
        exec (.gangStart core) s = .next ((ringCores core (mxRing m.word)).foldl (fun t c =>
          match (coreOf t c).mx with
          | some q => loadMember t c m q
          | none => t) s)) ∧
      ((coreOf s core).mx = some m → m.running = true → m.claimed = true → (m.op = 0xC1 ∨ m.op = 0xC2) →
        ctxOf s m.frame = some x → stepChecks s x m m.step (m.step == 0) true = .ok a →
        u = setAcc s core (mxAcc m.word) (stepAcc m.word (readTile s core a.1 (tileA (tyA m.word)) (aSwizzle s x))
          (engineBytes s core false a.2.1 (tileB (tyA m.word))) (if tyA m.word = 14 then engineBytes s core false a.2.2 256 else 0)
          (if m.step = 0 ∧ mxZ m.word = true then 0 else accOf s core (mxAcc m.word))) →
        (m.step + 1 < mxSteps m.word →
          exec (.matrixStep core) s = .next (modCore u core fun c => { c with mx := some { m with step := m.step + 1 } })) ∧
        (mxSteps m.word ≤ m.step + 1 →
          exec (.matrixStep core) s = .next (endOp u core m false (fun _ => mxSteps m.word * 2 ^ 48) none))) ∧
      ((coreOf s core).wk = some k → ctxOf s k.frame = some x → yieldWanted s core = false → walkEnding s k.frame = false →
        (∀ p, p ∈ runningNodes k.entries → nodeWaits s x k.frame k.pc k.sN p = false) → walkGroups x k s = (u, es) →
        ∃ v, exec (.walkRound core) s = .next (walkBoundary (setAcc (putEntries u k.frame k.blockAt 0 k.entries es) core 7 v) core
          { k with entries := es, rounds := k.rounds + 1 }))) ∧
  (∀ (w : RWord) (a b bands i j : Nat) (acc : AccBits),
      (tyOf w.hdr = 1 ∨ tyOf w.hdr = 5) → i < 32 → j < 32 →
      accElem (stepAcc w a b bands acc) (32 * i + j) = lowBits 32 (sextInt 32 (accElem acc (32 * i + j)) +
        ((List.range 32).map fun t =>
          asInt (tyOf w.hdr) (tileBits a (32 * i + t) 8) * asInt (tyOf w.hdr) (tileBits b (32 * j + t) 8)).sum)) ∧
  (∀ (ty d row : Nat) (n : Node) (e : WEntry) (os : List Nat),
      os = (upFrom 0 (if hdRule n.hdr = 0 then hdM n.hdr else 1)).map (nodeOut ty d row n) →
      (hdLeaf n.hdr = true → advanceRow ty d row n e =
        ({ e with status := 2, aux := BitVec.ofNat 32 (hdLeafId n.hdr) }, some (leafRow ty d row n e))) ∧
      (hdLeaf n.hdr = false → e.depth = 64#8 → advanceRow ty d row n e = ({ e with status := 5, aux := 0 }, none)) ∧
      (∀ j, hdLeaf n.hdr = false → e.depth ≠ 64#8 → chooseChild n.hdr os = .error j →
        advanceRow ty d row n e = ({ e with status := 4, aux := BitVec.ofNat 32 j }, none)) ∧
      (∀ c, hdLeaf n.hdr = false → e.depth ≠ 64#8 → chooseChild n.hdr os = .ok c →
        advanceRow ty d row n e = ({ e with
          node := BitVec.ofNat 64 (tileBits n.raw (256 + hdM n.hdr * columnSize n.hdr + 8 * c) 64)
          depth := e.depth + 1, aux := BitVec.ofNat 32 c }, none)) ∧
      (hdRule n.hdr = 1 → isNaN (f32Of (os.headD 0)) = false →
        chooseChild n.hdr os = .ok (if condNum 5 (f32Of (os.headD 0)) (numOfInt 0) then 1 else 0)))

/-! The copy engine (R279 to R300). -/

/-- R31, R279, R280, R293: a copy command from a slot that is not bound takes trap 0x06; with the queue full or its tag
busy it holds; else it joins the queue with its operands captured, its tag clear and its record pending. R281, R296: CSTAT
reads a part of a tag's record, zero for a tag above 63; CCANCEL ends the task's queued commands of its mask with status
4, one with a row in hand once that row is finished, and gives their tags. The model's readings: log 49. -/
def Obligations.CopyCommands : Prop :=
  (∀ (w : RWord) (s : State) (f tag : Nat) (x : Ctx) (S : Instr → List (BitVec 8) → Nat → Prop),
      ctxOf s f = some x → tag = fld w.imm 31 26 →
      S = (fun i specs op => canIssue i w.hdr specs s f = true →
        (copyBound s f = false → trapsAtOnce s f = true → Traps i 0x06 0 0 s f) ∧
        (copyBound s f = true → (2 ≤ (coreOf s x.core).copyQ.length ∨ tagBusy s x.core tag = true) → Holds i .retry s f) ∧
        (copyBound s f = true → (coreOf s x.core).copyQ.length < 2 → tagBusy s x.core tag = false →
          EndsAs i w.hdr (fun _ => False) s
            (modCore (setCopyRec (setTag s x.core x.bind tag false) x.core x.bind tag fun _ => { status := 1 }) x.core fun c =>
              { c with copyQ := c.copyQ ++ [captureCopy s op w f x] }) f fun t => t.mem = s.mem)) →
      S (.cpy w) [w.a, w.b, w.c, sSpec (cpSS w), sSpec (cpSD w)] 0xD8 ∧
      S (.cpy2d w) [w.a, w.b, w.c, gSpec (idx w.c + 1), sSpec (cpSS w), sSpec (cpSD w)] 0xD9 ∧
      S (.cgath w) [w.a, w.b, w.c, gSpec (idx w.c + 1), sSpec (cpSS w), sSpec (cpSD w), sSpec (cpSI w)] 0xDA ∧
      S (.cscat w) [w.a, w.b, w.c, gSpec (idx w.c + 1), sSpec (cpSS w), sSpec (cpSD w), sSpec (cpSI w)] 0xDB ∧
      S (.cfill w) [w.a, w.b, w.c, sSpec (cpSD w)] 0xDC ∧
      S (.cswz w) [w.a] 0xDD ∧
      S (.femark w) [w.b, w.c, sSpec (cpSD w)] 0xDE) ∧
  (∀ (w : RWord) (s u : State) (f a : Nat) (x : Ctx) (r : CopyRec) (qs : List CopyCmd),
      ctxOf s f = some x → copyBound s f = true → a = src s f w.a w.imm → r = SMap.get {} (ctxTask s x).recs (a % 64) →
      qs = (coreOf s x.core).copyQ.filter (fun q => q.bind == x.bind && bitOf a (copyTag q)) →
      u = modCore s x.core (fun c => { c with copyQ :=
        (c.copyQ.filter fun q => !(q.bind == x.bind && bitOf a (copyTag q)) || q.hand.isSome).map fun q =>
          if (q.bind == x.bind && bitOf a (copyTag q)) = true then { q with stop := true } else q }) →
      (canIssue (.cstat w) w.hdr [w.a] s f = true →
        (64 ≤ a → SetsReg (.cstat w) w.hdr w.d 0 s f) ∧
        (a < 64 → qExtra w.qual % 2 = 0 → SetsReg (.cstat w) w.hdr w.d
          (r.done.toNat * 2 ^ 42 + r.oob.toNat * 2 ^ 20 + r.cause.toNat * 2 ^ 16 + r.code.toNat * 2 ^ 8 + r.status.toNat) s f) ∧
        (a < 64 → qExtra w.qual % 2 = 1 → SetsReg (.cstat w) w.hdr w.d (r.frow.toNat * 2 ^ 42 + r.foff.toNat) s f)) ∧
      (canIssue (.ccancel w) w.hdr [w.a] s f = true →
        EndsAs (.ccancel w) w.hdr (regHas w.d) s
          ((qs.filter fun q => q.hand.isNone).foldl (fun t q => closeCopy t x.core q fun r => { r with status := 4 }) u) f
          fun t => readReg t f w.d = regValue w.d (tagMask qs)))

/-- R280, R283, R284, R294, R299: the head of the queue starts: a fault of its operands ends it with its record, no rows
end it done, else it is started. A row that waits changes nothing and a row that faults ends the command with the row; any
other is in the engine's hand once it is read, its writes are made one by one (R108), a refused one ends the command
(R290), and with none left the row counts; at the boundary after it a cancelled command ends (R296), and past the last row
the command is done. R283, R285, R290: a row of CPY between two ranges of the core's own memory that pass their checks,
not converted and not swizzled, is its source's words, to be written to its destination; each such write stores its word,
sets it full and changes no other byte. The model's readings: log 17 and log 49. -/
def Obligations.CopyEngine : Prop :=
  (∀ (s u : State) (core : Nat) (q : CopyCmd) (rest : List CopyCmd) (z : CopyFault) (row : Nat) (h : RowInHand)
      (batch : List Nat) (p : Put) (ps : List (List Put)),
      (coreOf s core).copyQ = q :: rest →
      (q.started = false → ∃ free,
        (∀ y, checkOperands q free = .fault y → exec (.copyCommandStart core) s = .next (endCopy s core q (faultRec y 0))) ∧
        (checkOperands q free = .empty →
          exec (.copyCommandStart core) s = .next (endCopy s core q fun r => { r with status := 2 })) ∧
        (checkOperands q free = .rows →
          ∃ v, exec (.copyCommandStart core) s = .next (modCore s core fun c =>
              { c with copyQ := { q with started := true, swz := v } :: rest }) ∧
            v = if cpSwz q.word = 0 then 0 else SMap.get 0 (taskOf s core q.bind).swz (cpSwz q.word - 1))) ∧
      (q.started = true → q.hand = none → q.stop = false → q.row < copyRows q →
        (copyOne s core q = (u, .wait) → exec (.copyRow core) s = .next s) ∧
        (copyOne s core q = (u, .fault z row) → exec (.copyRow core) s = .next (endCopy u core q (faultRec z row))) ∧
        (copyOne s core q = (u, .write h batch) →
          exec (.copyRow core) s = .next (setHead u core { q with hand := some h, batch := batch }))) ∧
      (q.started = true → q.hand = some h →
        (nextPut s.tick h.puts = some (p, ps) →
          (takePut s core p = .done u →
            exec (.copyRow core) s = .next (setHead u core { q with hand := some { h with puts := ps } })) ∧
          (takePut s core p = .held → exec (.copyRow core) s = .next s) ∧
          (takePut s core p = .refused →
            exec (.copyRow core) s = .next (endCopy s core q (faultRec ⟨0x04, 8, putOff p⟩ q.row)))) ∧
        (nextPut s.tick h.puts = none →
          exec (.copyRow core) s = .next (setHead (setCopyRec s core q.bind (copyTag q) fun r =>
            { r with done := r.done + 1, oob := if h.oob then r.oob + 1 else r.oob }) core
            { q with row := q.row + 1, hand := none }))) ∧
      (q.started = true → q.hand = none → q.stop = true →
        exec (.copyRow core) s = .next (endCopy s core q fun r => { r with status := 4 })) ∧
      (q.started = true → q.hand = none → q.stop = false → copyRows q ≤ q.row →
        exec (.copyRow core) s = .next (endCopy s core q fun r => { r with status := 2 }))) ∧
  (∀ (s : State) (core n a b : Nat) (q : CopyCmd),
      q.op = 0xD8 → cqCv q = 0 → q.swz = 0 → n = min 4096 (cqLen q - 4096 * q.row) → n % 8 = 0 →
      checkRange s core q (srcRange q (q.ra.toNat + 4096 * q.row) n) = (s, .ok (.near 1 (localBase core + a))) →
      checkRange s core q (dstRange q (q.rb.toNat + 4096 * q.row) n) = (s, .ok (.near 1 (localBase core + b))) →
      poisoned s (localBase core + a) n = false →
      copyOne s core q = (s, .write { oob := false, puts := [(List.range (n / 8)).map fun k =>
        .near (localBase core + b + 8 * k) 8 (engineBytes s core true (localBase core + a) n / 2 ^ (64 * k) % 2 ^ 64)] } q.batch)) ∧
  (∀ (s : State) (core flat v : Nat), flat % 8 = 0 →
      ∃ u, takePut s core (.near flat 8 v) = .done u ∧ Stored s u flat 8 v ∧ isFull u flat = true)

/-! Memory slices, bank modes and counters (R301 to R324). -/

/-- R302, R315, R318 to R324: PFR joins the outstanding prefetches with the lines it names, and one of length 0 ends at
once; RFLUSH and RINVAL block until their lines are done; SECPIN and SECPIN.un give the status of their sector, 3 where
its page is not this package's DRAM, is not mapped or is out of reach, hold while the route to its home changes (R398),
and trap at task privilege; BMODE gives verdicts 4, 2, 1 and 0 in that order, or puts its banks in transition, one after
another; CTRRD gives its counter. A range outside its segment traps. The completions that need no premise on a result
stand at O60. The model's readings: log 55. -/
def Obligations.SliceInstructions : Prop :=
  ∀ (w : RWord) (s u v : State) (f n a l e : Nat) (x : Ctx) (g : Seg) (off : Int) (sp : BitVec 8) (ts : List Target) (r : AccessRule),
    ctxOf s f = some x → n = readReg s f w.b → off = (readReg s f w.a : Nat) → g = readSeg s f (cwSeg w) →
    sp = BitVec.ofNat 8 (0xC0 + cwSeg w) → freeEntry s f = some e → v = openEntry s f e w.d 0 →
    r = { need := needRd, size := n, align := 1, long := decide (2 ^ 32 < n), kinds := [0] } →
    l = (if n = 0 then 0 else (a + n - 1) / 256 - a / 256 + 1) →
    (canIssue (.pfr w) w.hdr [w.a, w.b, sp] s f = true → checkSeg s x g r off = .ok a →
      tagBusy s x.core (fld w.imm 31 26) = false → (coreOf s x.core).pfrs.length < 8 → n ≠ 0 →
      rangeTargets x.core x.slot (ctxPart (setTag s x.core x.bind (fld w.imm 31 26) false) x) (a / 256) l
        (setTag s x.core x.bind (fld w.imm 31 26) false) = (u, ts) →
      exec (.pfr w) s = .next (finish w.hdr f (modCore u x.core fun c =>
        { c with pfrs := c.pfrs ++ [{ tag := some (fld w.imm 31 26), arrival := none, bind := x.bind, frame := f
                                      lines := ts.filter fun t => t.home.isSome }] }))) ∧
    (canIssue (.pfr w) w.hdr [w.a, w.b, sp] s f = true → checkSeg s x g r off = .ok a →
      (tagBusy s x.core (fld w.imm 31 26) = true ∨ 8 ≤ (coreOf s x.core).pfrs.length → Holds (.pfr w) .retry s f) ∧
      (tagBusy s x.core (fld w.imm 31 26) = false → (coreOf s x.core).pfrs.length < 8 → n = 0 →
        EndsAs (.pfr w) w.hdr (fun _ => False) s
          (setTag (setTag s x.core x.bind (fld w.imm 31 26) false) x.core x.bind (fld w.imm 31 26) true) f fun _ => True)) ∧
    (canIssue (.pfrBar w) w.hdr [w.a, w.b, sp, w.c] s f = true → checkSeg s x g r off = .ok a →
      (coreOf s x.core).pfrs.length < 8 →
      (n ≠ 0 → rangeTargets x.core x.slot (ctxPart s x) (a / 256) l s = (u, ts) →
        ∃ p, exec (.pfrBar w) s = .next (finish w.hdr f (modCore u x.core fun c => { c with pfrs := c.pfrs ++ [p] })) ∧
          p.tag = none ∧ p.lines = ts.filter (fun t => t.home.isSome) ∧ p.bind = x.bind ∧
          p.arrival = specArrival u x (readReg u f w.c)) ∧
      (n = 0 → EndsAs (.pfrBar w) w.hdr (fun _ => False) s (pushArrival s (specArrival s x (readReg s f w.c))) f fun _ => True)) ∧
    (∀ c, checkSeg s x g r off = .error c → trapsAtOnce s f = true →
      (canIssue (.pfr w) w.hdr [w.a, w.b, sp] s f = true → Traps (.pfr w) 0x04 c (n64 off) s f) ∧
      (canIssue (.pfrBar w) w.hdr [w.a, w.b, sp, w.c] s f = true → Traps (.pfrBar w) 0x04 c (n64 off) s f) ∧
      (canIssue (.rflush w) w.hdr [w.a, w.b, sp] s f = true → Traps (.rflush w) 0x04 c (n64 off) s f) ∧
      (canIssue (.rinval w) w.hdr [w.a, w.b, sp] s f = true → Traps (.rinval w) 0x04 c (n64 off) s f)) ∧
    (checkSeg s x g r off = .ok a → (∀ o, x.wait ≠ some (.request o)) → n ≠ 0 →
      (allPerformed s x.core f = false →
        (canIssue (.rflush w) w.hdr [w.a, w.b, sp] s f = true → Blocks (.rflush w) .retry s f) ∧
        (canIssue (.rinval w) w.hdr [w.a, w.b, sp] s f = true → Blocks (.rinval w) .retry s f)) ∧
      (allPerformed s x.core f = true → rangeTargets x.core x.slot (ctxPart s x) (a / 256) l s = (u, ts) →
        (canIssue (.rflush w) w.hdr [w.a, w.b, sp] s f = true →
          exec (.rflush w) s = .next (block (.request u.ord) f { u with
            flushes := u.flushes ++ [{ ord := u.ord, frame := f, lines := ts.map (·.flat / 256), inval := false }]
            ord := u.ord + 1 })) ∧
        (canIssue (.rinval w) w.hdr [w.a, w.b, sp] s f = true →
          exec (.rinval w) s = .next (block (.request u.ord) f { u with
            flushes := u.flushes ++ [{ ord := u.ord, frame := f, lines := ts.map (·.flat / 256), inval := true }]
            ord := u.ord + 1 })))) ∧
    (checkSeg s x g r off = .ok a →
      ((∃ o, x.wait = some (.request o) ∧ ∀ y, y ∈ s.flushes → y.ord ≠ o) ∨ ((∀ o, x.wait ≠ some (.request o)) ∧ n = 0)) →
      (canIssue (.rflush w) w.hdr [w.a, w.b, sp] s f = true →
        EndsAs (.rflush w) w.hdr (fun _ => False) s s f fun _ => True) ∧
      (canIssue (.rinval w) w.hdr [w.a, w.b, sp] s f = true →
        EndsAs (.rinval w) w.hdr (fun _ => False) s s f fun _ => True)) ∧
    (supervisor s f = false → trapsAtOnce s f = true →
      (canIssue (.secpin w) w.hdr [w.a, sp] s f = true → Traps (.secpin w) 0x05 2 0 s f) ∧
      (canIssue (.secpinUn w) w.hdr [w.a, sp] s f = true → Traps (.secpinUn w) 0x05 2 0 s f)) ∧
    (supervisor s f = true → checkSeg s x g { need := needRd + needWr, size := 128, align := 128, kinds := [0] } off = .ok a →
      (∀ level pte, engineXlate v x.core x.slot (ctxPart v x) a = (u, .page level pte) → pteTgt pte = 0 →
        targetWaits u (dieOf x.core) u.ord (target u.pkg a level pte) = false →
        targetReach u (dieOf x.core) (target u.pkg a level pte) = true →
        (canIssue (.secpin w) w.hdr [w.a, sp] s f = true →
          exec (.secpin w) s = .next (finish w.hdr f (sendResult (pinSector u (target u.pkg a level pte)).2 f e
            [regWrite w.d (pinSector u (target u.pkg a level pte)).1] []))) ∧
        (canIssue (.secpinUn w) w.hdr [w.a, sp] s f = true →
          exec (.secpinUn w) s = .next (finish w.hdr f (sendResult (unpinSector u (target u.pkg a level pte)).2 f e
            [regWrite w.d (unpinSector u (target u.pkg a level pte)).1] [])))) ∧
      (∀ level pte, engineXlate v x.core x.slot (ctxPart v x) a = (u, .page level pte) → pteTgt pte = 0 →
        targetWaits u (dieOf x.core) u.ord (target u.pkg a level pte) = true →
        (canIssue (.secpin w) w.hdr [w.a, sp] s f = true → Holds (.secpin w) .retry s f) ∧
        (canIssue (.secpinUn w) w.hdr [w.a, sp] s f = true → Holds (.secpinUn w) .retry s f)) ∧
      (∀ y, engineXlate v x.core x.slot (ctxPart v x) a = (u, y) →
        ((∃ cause level, y = .bad cause level) ∨ (∃ level pte, y = .page level pte ∧
          (pteTgt pte ≠ 0 ∨ (targetReach u (dieOf x.core) (target u.pkg a level pte) = false ∧
            targetWaits u (dieOf x.core) u.ord (target u.pkg a level pte) = false)))) →
        (canIssue (.secpin w) w.hdr [w.a, sp] s f = true →
          exec (.secpin w) s = .next (finish w.hdr f (sendResult u f e [regWrite w.d 3] []))) ∧
        (canIssue (.secpinUn w) w.hdr [w.a, sp] s f = true →
          exec (.secpinUn w) s = .next (finish w.hdr f (sendResult u f e [regWrite w.d 3] []))))) ∧
    (∀ cl m mode todo, canIssue (.bmode w) w.hdr [w.a] s f = true → cl = clusterOf x.core → m = readReg s f w.a →
      mode = fld w.imm 1 0 →
      todo = (upFrom 0 32).filter (fun k => m.testBit k && decide (bankMode s cl k ≠ mode)) →
      (2 ^ 32 ≤ m → SendsResult (.bmode w) w.hdr w.d 0 [regWrite w.d 4] [] s s f) ∧
      (m < 2 ^ 32 → (∃ k, k < 32 ∧ m.testBit k = true ∧ (clusterSt s cl).reserved.getLsbD k = true) →
        SendsResult (.bmode w) w.hdr w.d 0 [regWrite w.d 2] [] s s f) ∧
      (m < 2 ^ 32 → (∀ k, k < 32 → m.testBit k = true → (clusterSt s cl).reserved.getLsbD k = false) →
        (clusterSt s cl).switching = [] →
        (m ≠ 0 → ((List.range 32).countP fun k => if m.testBit k then mode == 1 else bankMode s cl k == 1) < 4 →
          SendsResult (.bmode w) w.hdr w.d 0 [regWrite w.d 1] [] s s f) ∧
        ((m = 0 ∨ 4 ≤ ((List.range 32).countP fun k => if m.testBit k then mode == 1 else bankMode s cl k == 1)) →
          (todo = [] → SendsResult (.bmode w) w.hdr w.d 0 [regWrite w.d 0] [] s s f) ∧
          (todo ≠ [] → EndsAs (.bmode w) w.hdr (· = 102 + e / 2) s
            (startSwitch (modCluster s cl fun c =>
              { c with switching := todo.map fun k => { bank := k, mode := BitVec.ofNat 2 mode }
                       jobs := c.jobs ++ [{ frame := f, entry := e }] }) cl) f fun t => Opened s t f e w.d 0)))) ∧
    (canIssue (.ctrrd w) w.hdr [] s f = true → fld w.imm 8 8 = 1 →
      SendsResult (.ctrrd w) w.hdr w.d 0 [regWrite w.d (clusterCounter s (clusterOf x.core) (fld w.imm 7 0))] [] s s f) ∧
    (canIssue (.ctrrd w) w.hdr [w.a] s f = true →
      (fld w.imm 8 8 = 0 → readReg s f w.a < 64 →
        SendsResult (.ctrrd w) w.hdr w.d 0
          [regWrite w.d (sliceCounter s (dieOf x.core * 64 + readReg s f w.a) (fld w.imm 7 0))] [] s s f) ∧
      (fld w.imm 8 8 = 0 → 64 ≤ readReg s f w.a → SendsResult (.ctrrd w) w.hdr w.d 0 [regWrite w.d 0] [] s s f))

/-! Capsules and experts (R340 to R368). -/

/-- R346, R359 to R361, R368: CAPRECV takes the oldest of its task's capsules, whose handler entry is valid for its class:
its tile at the staging place, its head in two vector registers, the handler's address in g[d], and it is current; with
none it blocks, and one with an entry that is not valid is thrown with code 9. CAPSEND puts a well-formed capsule on its
way, sealed, holds with the send buffer full, and takes trap 0x0D with cause 8 for a malformed head. The model's readings:
log 50. -/
def Obligations.CapsulesAreReceivedAndSent : Prop :=
  ∀ (w : RWord) (s : State) (f h k : Nat) (x : Ctx) (c : Capsule) (q rest : List Capsule) (p : TilePlace) (ws : List Word),
    ctxOf s f = some x →
    (canIssue (.caprecv w) w.hdr [w.a, w.c, BitVec.ofNat 8 (0xC0 + fld w.imm 2 0), BitVec.ofNat 8 (0xC0 + fld w.imm 5 3)] s f =
        true →
      (capService s f = false → trapsAtOnce s f = true → Traps (.caprecv w) 0x0D 3 0 s f) ∧
      (capService s f = true → x.cap = none →
        checkSeg s x (readSeg s f (fld w.imm 5 3)) { need := needRd, size := 1024, align := 16, kinds := [1] }
          (readReg s f w.c : Nat) = .ok h →
        checkStaging s x (readSeg s f (fld w.imm 2 0)) (readReg s f w.a) = .ok p → p ≠ .held →
        q = ((coreOf s x.core).capQ.filter (fun y => y.1 == x.bind)).map Prod.snd →
        (q = [] → Blocks (.caprecv w) (.recv 2) s f) ∧
        (q = c :: rest → k = localBase x.core + h + 16 * handlerOp c →
          (∀ cl b, p = .fifo cl b → (fifoOf s cl b).length + 16 * capUnits c ≤ 16384) → poisoned s k 16 = false →
          ((readBytes s (k + 8) 8).testBit 63 = true →
            (bitsOf (readBytes s (k + 8) 8) 55 48 = 0xFF ∨ bitsOf (readBytes s (k + 8) 8) 55 48 = capCls c) →
            tileReady s x.core f p (16 * capUnits c) = true →
            exec (.caprecv w) s = .next (takeCapsule { w := w, f := f, core := x.core, table := localBase x.core + h, place := p }
              c (readBytes s k 8) (popCapsule s x.core f))) ∧
          (rest = [] → (readBytes s (k + 8) 8).testBit 63 = false →
            exec (.caprecv w) s = .next (block (.recv 2) f (throwCapsule (popCapsule s x.core f) c (dieOf x.core) none
              { code := 9, cause := 1, atCore := some x.core })))) ∧
        (q = c :: rest → (∃ cl b, p = .fifo cl b ∧ 16384 < (fifoOf s cl b).length + 16 * capUnits c) →
          Blocks (.caprecv w) (.recv 2) s f))) ∧
    (canIssue (.capsend w) w.hdr [w.a, vSpec (idx w.a + 1), w.b, BitVec.ofNat 8 (0xC0 + fld w.imm 2 0)] s f = true →
      c = { head := (splitBits 64 32 (readReg s f w.a + readReg s f (vSpec (idx w.a + 1)) * 2 ^ 1024)).map (BitVec.ofNat 64)
            tile := [], part := ctxPart s x } →
      (2 ≤ (coreOf s x.core).sendBuf → Holds (.capsend w) .retry s f) ∧
      ((coreOf s x.core).sendBuf < 2 → (capVer c ≠ 1 ∨ headForm c = false) → trapsAtOnce s f = true →
        Traps (.capsend w) 0x0D 8 0 s f) ∧
      ((coreOf s x.core).sendBuf < 2 → capVer c = 1 → headForm c = true →
        readCapTile s x f (readSeg s f (fld w.imm 2 0)) (readReg s f w.b) (capUnits c) = .tile ws →
        EndsAs (.capsend w) w.hdr (fun _ => False) s (launchCapsule s x.core (sealHead x.core { c with tile := ws })) f
          fun t => t.mem = s.mem))

/-- R351, R359, R362 to R364: the instructions on the current capsule: CAPNEXT forwards it to its next hop, or ends it at
the last; CAPINS, CAPSKIP and CAPREPL change the itinerary and give 0, or give 1 and change nothing; CAPFAIL diverts
it, with its tile as memory holds it, with code 12; CAPDROP ends it. Without one they take trap 0x0D with cause 9. The
model's readings: log 50 and log 82. -/
def Obligations.CurrentCapsule : Prop :=
  ∀ (w : RWord) (s : State) (f h j u : Nat) (x : Ctx) (c c0 : Capsule) (ws : List Word) (C : Option Capsule → State),
    ctxOf s f = some x → capService s f = true → h = readReg s f w.a → j = capCursor c + fld w.imm 3 0 →
    u = fld w.imm 12 8 → c0 = (if u = 0 then c else setWord0 c 21 17 u) → C = (fun o => setCurrent s f o) →
    (x.cap = none → trapsAtOnce s f = true →
      (canIssue (.capnext w) w.hdr [w.a, BitVec.ofNat 8 (0xC0 + fld w.imm 2 0)] s f = true → Traps (.capnext w) 0x0D 9 0 s f) ∧
      (canIssue (.capins w) w.hdr [w.a] s f = true → Traps (.capins w) 0x0D 9 0 s f) ∧
      (canIssue (.capskip w) w.hdr [] s f = true → Traps (.capskip w) 0x0D 9 0 s f) ∧
      (canIssue (.caprepl w) w.hdr [w.a] s f = true → Traps (.caprepl w) 0x0D 9 0 s f) ∧
      (canIssue (.capfail w) w.hdr [w.a] s f = true → Traps (.capfail w) 0x0D 9 0 s f) ∧
      (canIssue (.capdrop w) w.hdr [] s f = true → Traps (.capdrop w) 0x0D 9 0 s f)) ∧
    (x.cap = some c →
      (canIssue (.capnext w) w.hdr [w.a, BitVec.ofNat 8 (0xC0 + fld w.imm 2 0)] s f = true →
        readCapTile s x f (readSeg s f (fld w.imm 2 0)) h (capUnits c0) = .tile ws →
        (capCursor c0 + 1 = capItlen c0 → EndsAs (.capnext w) w.hdr (regHas w.d) s (C none) f
          fun t => readReg t f w.d = regValue w.d 1) ∧
        (capCursor c0 + 1 ≠ capItlen c0 → (coreOf s x.core).sendBuf < 2 →
          EndsAs (.capnext w) w.hdr (regHas w.d) s (launchCapsule (C none) x.core
            (setWord0 (setWord0 { c0 with tile := ws } 36 32 0) 26 22 (capCursor c0 + 1))) f
            fun t => readReg t f w.d = regValue w.d 0)) ∧
      (canIssue (.capins w) w.hdr [w.a] s f = true → hopOk h = true →
        (capItlen c < 16 → j ≤ capItlen c → EndsAs (.capins w) w.hdr (regHas w.d) s
          (C (some (setHops c (((capHops c).take j ++ BitVec.ofNat 64 h :: (capHops c).drop j).take 16) (capItlen c + 1)))) f
          fun t => readReg t f w.d = regValue w.d 0) ∧
        ((16 ≤ capItlen c ∨ capItlen c < j) → SetsReg (.capins w) w.hdr w.d 1 s f)) ∧
      (canIssue (.capskip w) w.hdr [] s f = true →
        (j < capItlen c → EndsAs (.capskip w) w.hdr (regHas w.d) s
          (C (some (setHops c ((capHops c).take j ++ (capHops c).drop (j + 1) ++ [0]) (capItlen c - 1)))) f
          fun t => readReg t f w.d = regValue w.d 0) ∧
        (capItlen c ≤ j → SetsReg (.capskip w) w.hdr w.d 1 s f)) ∧
      (canIssue (.caprepl w) w.hdr [w.a] s f = true → hopOk h = true →
        (fld w.imm 3 0 = 0 → hopKind h ≠ 2 → EndsAs (.caprepl w) w.hdr (regHas w.d) s (C (some (setHeadWord c 5 h))) f
          fun t => readReg t f w.d = regValue w.d 0) ∧
        (fld w.imm 3 0 ≠ 0 → j < capItlen c → EndsAs (.caprepl w) w.hdr (regHas w.d) s
          (C (some (setHeadWord c (16 + j) h))) f fun t => readReg t f w.d = regValue w.d 0) ∧
        (fld w.imm 3 0 ≠ 0 → capItlen c ≤ j → SetsReg (.caprepl w) w.hdr w.d 1 s f)) ∧
      (canIssue (.capfail w) w.hdr [w.a] s f = true → (coreOf s x.core).sendBuf < 2 →
        (qRel w.qual = false ∨ allPerformed s x.core f = true) →
        exec (.capfail w) s = .next (finish w.hdr f (throwCapsule
          (modCore (C none) x.core fun k => { k with sendBuf := k.sendBuf + 1 }) { c with tile := currentTile s x c } (dieOf x.core) (some x.core)
          { code := 12, cause := fld w.imm 7 0, atCore := some x.core, detail := h, pc := s.iss.pc.toNat }))) ∧
      (canIssue (.capdrop w) w.hdr [] s f = true →
        EndsAs (.capdrop w) w.hdr (fun _ => False) s (C none) f fun t => t.mem = s.mem))

/-- R352, R353, R365, R366: EXQ brings a word of an entry, zero for one of no use; a changing instruction at a time when
every earlier access is performed holds while the entry's home lacks versions made at a former one; else it gives its
refusal's status, or changes the home copy, one version further, tells the other dies, and leaves its result outstanding;
EXLOAD, EXEVICT and EXREPL trap outside the service. The model's readings: log 51 and log 77. -/
def Obligations.ExpertInstructions : Prop :=
  (∀ (w : RWord) (s : State) (f k : Nat) (x : Ctx),
    ctxOf s f = some x → allPerformed s x.core f = true → expertOf s x (readReg s f w.a) = some k → homeBehind s k = true →
      (canIssue (.expin w) w.hdr [w.a, w.b, w.c] s f = true → Holds (.expin w) .retry s f) ∧
      (canIssue (.exunpin w) w.hdr [w.a, w.b, w.c] s f = true → Holds (.exunpin w) .retry s f) ∧
      ((supervisor s f = true ∨ (ctxKind s f = 2 ∧ ctxClass s f = 3)) →
        (canIssue (.exload w) w.hdr [w.a, w.b, w.c] s f = true → Holds (.exload w) .retry s f) ∧
        (canIssue (.exevict w) w.hdr [w.a, w.b, w.c] s f = true → Holds (.exevict w) .retry s f) ∧
        (canIssue (.exrepl w) w.hdr [w.a, w.b, w.c] s f = true → Holds (.exrepl w) .retry s f))) ∧
  ∀ (w : RWord) (s : State) (f e k v j : Nat) (x : Ctx) (q : Expert) (r r' : ExRep) (Done : State → Prop),
    ctxOf s f = some x → allPerformed s x.core f = true → freeEntry s f = some e → v = readReg s f w.a →
    (∀ j, expertOf s x v = some j → homeBehind s j = false) → q = expertSt s k → r = q.rep → j = fld w.imm 1 0 →
    Done = (fun t => (expertSt t k).rep = { r' with ver := r.ver + 1 } ∧
      (expertSt t k).waiters = q.waiters ++ [(f, e, 0, r.ver + 1)] ∧
      SMap.get {} t.copies (homeDie k r * 16384 + k % 16384) = { r' with ver := r.ver + 1 } ∧
      (∀ d, d / 4 = k / 16384 → d ≠ homeDie k r →
        { die := d, expert := k, rep := { r' with ver := r.ver + 1 }, src := homeDie k r
          fmt := updateFormat s (homeDie k r) : ExUpdate } ∈ t.updates) ∧
      t.mem = s.mem ∧ t.iss.res = .completed ∧ Opened s t f e w.d 0) →
    (canIssue (.exq w) w.hdr [w.a] s f = true →
      (fld w.imm 2 0 < 4 → expertOf s x v = some k → SendsResult (.exq w) w.hdr w.d 0
        [regWrite w.d (repWord (repAt s (dieOf x.core) k) (fld w.imm 2 0))] [] s s f) ∧
      (fld w.imm 2 0 < 6 → 4 ≤ fld w.imm 2 0 → expertOf s x v = some k → SendsResult (.exq w) w.hdr w.d 0
        [regWrite w.d (homeWord q (fld w.imm 2 0))] [] s s f) ∧
      (fld w.imm 2 0 < 6 → expertOf s x v = none → SendsResult (.exq w) w.hdr w.d 0 [regWrite w.d 0] [] s s f)) ∧
    (canIssue (.expin w) w.hdr [w.a, w.b, w.c] s f = true →
      (expertOf s x v = none → SendsResult (.expin w) w.hdr w.d 0 [regWrite w.d 4] [] s s f) ∧
      (expertOf s x v = some k →
        (stateOf q < 2 → SendsResult (.expin w) w.hdr w.d 0 [regWrite w.d 1] [] s s f) ∧
        (2 ≤ stateOf q → r.pins = BitVec.allOnes 15 → SendsResult (.expin w) w.hdr w.d 0 [regWrite w.d 3] [] s s f) ∧
        (2 ≤ stateOf q → r.pins ≠ BitVec.allOnes 15 → r' = { r with pins := r.pins + 1, state := 3 } →
          ∃ t, exec (.expin w) s = .next t ∧ Done t))) ∧
    (canIssue (.exunpin w) w.hdr [w.a, w.b, w.c] s f = true → expertOf s x v = some k →
      (r.pins = 0 → SendsResult (.exunpin w) w.hdr w.d 0 [regWrite w.d 1] [] s s f) ∧
      (r.pins ≠ 0 → r' = { r with pins := r.pins - 1, state := if r.pins = 1 then 2 else r.state } →
        ∃ t, exec (.exunpin w) s = .next t ∧ Done t)) ∧
    (supervisor s f = false → (ctxKind s f ≠ 2 ∨ ctxClass s f ≠ 3) → trapsAtOnce s f = true →
      (canIssue (.exload w) w.hdr [w.a, w.b, w.c] s f = true → Traps (.exload w) 0x0D 11 0 s f) ∧
      (canIssue (.exevict w) w.hdr [w.a, w.b, w.c] s f = true → Traps (.exevict w) 0x0D 11 0 s f) ∧
      (canIssue (.exrepl w) w.hdr [w.a, w.b, w.c] s f = true → Traps (.exrepl w) 0x0D 11 0 s f)) ∧
    ((supervisor s f = true ∨ (ctxKind s f = 2 ∧ ctxClass s f = 3)) → expertOf s x v = some k → q.parked = [] →
      (canIssue (.exload w) w.hdr [w.a, w.b, w.c] s f = true → readReg s f w.c < 2 ^ 32 →
        (stateOf q = 3 → SendsResult (.exload w) w.hdr w.d 0 [regWrite w.d 2] [] s s f) ∧
        (stateOf q ≠ 3 → r' = { r with raddr := BitVec.ofNat 64 (readReg s f w.b), size := BitVec.ofNat 32 (readReg s f w.c)
                                       home := BitVec.ofNat 7 (fld w.imm 6 0), state := 2 } →
          ∃ t, exec (.exload w) s = .next t ∧ Done t)) ∧
      (canIssue (.exevict w) w.hdr [w.a, w.b, w.c] s f = true →
        (stateOf q < 2 → SendsResult (.exevict w) w.hdr w.d 0 [regWrite w.d 1] [] s s f) ∧
        (stateOf q = 3 → SendsResult (.exevict w) w.hdr w.d 0 [regWrite w.d 2] [] s s f) ∧
        (stateOf q = 2 → r' = { r with state := 0, raddr := 0, size := 0, repl := 0 } →
          ∃ t, exec (.exevict w) s = .next t ∧ Done t)) ∧
      (canIssue (.exrepl w) w.hdr [w.a, w.b, w.c] s f = true → readReg s f w.b < 128 → j < 4 →
        r' = { r with repl := BitVec.ofNat 32 (putBits r.repl.toNat (8 * j + 7) (8 * j) (readReg s f w.b)) } →
        ∃ t, exec (.exrepl w) s = .next t ∧ Done t))

/-- R347, R348, R354 to R357: a capsule at a die's ingress is thrown with code 4 for its version, 3 for its form, 1 for
its deadline, and else goes on to its core; one at a die that has gone out is diverted with code 11; at a core with a bound
service and room it is queued, else refused there and counted (R205). A resident expert's
parked capsules are offered again, a miss is announced again, and a die that the broadcast reaches applies the next
version, or stops admitting capsules where its format is not supported (R383). The model's readings: log 50, log 51,
log 77 and log 85. -/
def Obligations.CapsuleAndExpertEvents : Prop :=
  ∀ (s o : State) (n k die core h : Nat) (q : CapFly) (c : Capsule) (e : Expert) (y : ExUpdate) (ups : List ExUpdate),
    c = q.cap → h = capPlace c → e = expertSt s k →
    (s.caps[n]? = some q → q.dest = none → q.enter = false → capTurn s n q = true → (dieSt s q.die).closed = false →
      o = { freeBuffer s q with caps := (freeBuffer s q).caps.eraseIdx n } →
      ((dieSt s q.die).up = false → q.expert = none → exec (.capsuleDieIngress n) s =
        .next (throwCapsule o c (dieOf (capSource c)) none { code := 11, atCore := none, die := q.die })) ∧
      ((dieSt s q.die).up = true → capDiv c = false → capBnc c = false →
        (capVer c ≠ 1 → exec (.capsuleDieIngress n) s = .next (throwCapsule o c q.die none
          { code := 4, atCore := none, die := q.die, detail := 0x0101 })) ∧
        (capVer c = 1 → (headForm c = false ∨ capItlen c ≤ capCursor c) → exec (.capsuleDieIngress n) s =
          .next (throwCapsule o c q.die none { code := 3, atCore := none, die := q.die, detail := 0 })) ∧
        (capVer c = 1 → headForm c = true → capCursor c < capItlen c → expired (freeBuffer s q) c = true →
          exec (.capsuleDieIngress n) s =
            .next (throwCapsule o c q.die none { code := 1, atCore := none, die := q.die, detail := 0 })) ∧
        (capVer c = 1 → headForm c = true → capCursor c < capItlen c → expired (freeBuffer s q) c = false →
          hopKind h = 0 → placeInside o c h = true → placeDie o q.die c h = q.die → reachable o q.die q.die = true →
          capWaits o q.die q.die = false →
          exec (.capsuleDieIngress n) s = .next { freeBuffer s q with
            caps := (freeBuffer s q).caps.set n { q with dest := some (.core (hopCore h)), holder := none } }))) ∧
    (s.caps[n]? = some q → q.dest = some (.core core) → q.enter = false → capTurn s n q = true → q.expert = none →
      (dieSt s (dieOf core)).up = true → expired s c = false → o = { s with caps := s.caps.eraseIdx n } →
      (capBound s core = true → (coreOf s core).capQ.length < 8 →
        exec (.capsuleCoreIngress n) s = .next (setReady (modCore o core fun x =>
          { x with capQ := x.capQ ++ [((classOwner s core 2).getD 32, c)] }) core 2)) ∧
      (capBound s core = true → 8 ≤ (coreOf s core).capQ.length →
        exec (.capsuleCoreIngress n) s =
          .next (countRefused (throwCapsule o c (dieOf core) none { code := 6, atCore := some core }) core 2)) ∧
      (capBound s core = false →
        exec (.capsuleCoreIngress n) s =
          .next (countRefused (throwCapsule o c (dieOf core) none { code := 5, atCore := some core }) core 2))) ∧
    (takeUpdate die k s.updates = some (y, ups) → updateReaches s y = true → (dieSt s die).closed = false →
      (y.fmt = 1 → exec (.residencyBroadcastApply die k) s = .next (completeWaiters
        { s with updates := ups, copies := SMap.set {} s.copies (die * 16384 + k % 16384) y.rep } k)) ∧
      (y.fmt ≠ 1 → ∃ t, exec (.residencyBroadcastApply die k) s = .next t ∧ (dieSt t die).closed = true ∧
        t.updates = s.updates ∧ t.copies = s.copies)) ∧
    (e.miss = true → stateOf e = 1 → e.missSent.toNat + 1000 ≤ s.time.toNat →
      exec (.residencyMissResend k) s = .next (sendMiss s k e.missTime)) ∧
    (0 < e.tries → e.tries < targetCount e.rep → exec (.sluiceReoffer k) s = .next (release s k)) ∧
    (targetCount e.rep ≤ e.tries → e.offerAt.toNat + 1000 ≤ s.time.toNat →
      exec (.sluiceReofferTimer k) s = .next (release s k))

/-! Switching, launches, partitions, links and power (R43 to R53, R123 to R139, R369 to R415). -/

/-- R43, R44, R46, R123, R125 to R127, R139: a slice that is over ends; a pre-emption that is wanted begins its window,
and the window's end takes it; an incoming frame is loaded whole into a free shadow bank, the banks exchange once all are
loaded and the task can leave, and a spilled frame's memory takes its dirty lines, at the live halves under a mask; the
accumulators are saved to their paged area sector by sector, and restored or zero. The model's readings: log 25, log 27,
log 28, log 29 and log 30. -/
def Obligations.SwitchingEvents : Prop :=
  ∀ (s u : State) (core slot b f : Nat) (x : Ctx) (w : Swap) (c : Core) (rest : List AccJob) (ts : List Target),
    c = coreOf s core →
    (c.cur = some b → c.swap = none → c.sliceAt.toNat + c.sliceUs * 1000 ≤ s.time.toNat →
      exec (.timeSliceEnd core) s = .next (sliceEnd s core b)) ∧
    (wantsPreempt s core = true → c.cur = some b →
      ∃ t, exec (.preemptionRequest core) s = .next t ∧ (coreOf t core).preReq = true ∧ (coreOf t core).preAt = s.time ∧
        (coreOf t core).preCycles = 0 ∧ (coreOf t core).grace = (partOf s (taskOf s core b).part).grace ∧
        t.mem = ((taskCtxs s core b).foldl (fun u p => setStatus u p.1 3 3 1) s).mem) ∧
    (c.cur = some b → c.preReq = true → c.stopped = false → c.swap = none → graceEnded s core = true →
      exec (.graceWindowExpiry core) s = .next (takePreempt (modCore
        ((taskCtxs s core b).foldl (fun u p => modCtx u p.1 fun x => { x with live := none }) s) core
        fun x => { x with stopped := true }) core)) ∧
    (c.swap = some w → slot ∈ w.slots → slot ∉ w.loaded → (slotOf s core slot).shadow.frame = none → w.next = some b →
      ((taskCtxs s core b).find? fun p => p.2.slot == slot) = some (f, x) →
      ∃ t, exec (.shadowBankLoadComplete core slot) s = .next t ∧ (slotOf t core slot).shadow = loadBank s f ∧
        (coreOf t core).swap = some { w with loaded := slot :: w.loaded } ∧ SameBytes s t ∧
        ∀ v, v < 640 → SMap.get 0 (loadBank s f).words v = readWord s (frameAddr f v)) ∧
    (c.swap = some w → (∀ k, k ∈ w.slots → k ∈ w.loaded) → mayLeave s core = true →
      (∀ k, c.cur = some b → k ∈ taskSlots s core b → k ∉ w.slots → (slotOf s core k).shadow.frame = none) →
      (c.cur = some b ∨ c.cur = none) →
      exec (.bankExchange core) s = .next (dispatchFree (exchange s core w) core)) ∧
    ((slotOf s core slot).shadow.frame = some f → ctxOf s f = some x → x.saving = true →
      (∀ v, c.swap = some v → slot ∉ v.loaded) →
      ∃ t, exec (.spillComplete core slot) s = .next t ∧ (slotOf t core slot).shadow = {} ∧
        ∀ v, v < 640 →
          (spillsHalf (slotOf s core slot).shadow x.live (v / 8) = true →
            readWord t (frameAddr f v) = SMap.get 0 (slotOf s core slot).shadow.words v) ∧
          ((slotOf s core slot).shadow.dirty.getLsbD (v / 16) = false →
            (∀ p, p ∈ s.behind → p.1 / 8 ≠ frameAddr f v / 8) → readWord t (frameAddr f v) = readWord s (frameAddr f v))) ∧
    (c.accJobs = .save b :: rest →
      (accTargets core b (upFrom 0 256) s = none → exec (.accumulatorSave core) s = .next s) ∧
      (accTargets core b (upFrom 0 256) s = some (u, ts) → exec (.accumulatorSave core) s = .next (modTask (modCore
        (ts.zipIdx.foldl (fun t p => homeWrite t (.cluster (clusterOf core)) p.1 128
          ((SMap.get 0 (coreOf t core).acc (p.2 / 32)).toNat / 2 ^ (1024 * (p.2 % 32)) % 2 ^ 1024)) u)
        core fun x => { x with accJobs := rest }) core b fun y => { y with accSaved := true }))) ∧
    (c.accJobs = .restore b :: rest →
      ((taskOf s core b).accSaved = false → ∃ t, exec (.accumulatorRestore core) s = .next t ∧ (coreOf t core).accJobs = rest ∧
        t.mem = s.mem ∧ ∀ k, accOf t core k = 0) ∧
      ((taskOf s core b).accSaved = true → accTargets core b (upFrom 0 256) s = some (u, ts) →
        ∃ t, exec (.accumulatorRestore core) s = .next t ∧ (coreOf t core).accJobs = rest ∧ SameBytes s t ∧
          ∀ k, k < 8 → accOf t core k =
            BitVec.ofNat 32768 (packBits 1024 (ts.map fun y => readBytes u y.flat 128) / 2 ^ (32768 * k)))) ∧
    (ctxOf s f = some x → x.saving = true → (slotOf s x.core x.slot).shadow.frame ≠ some f →
      (∀ p, p ∈ (coreOf s x.core).journal → p.2.frame = f → p.2.state ≠ 1) →
      (∀ r, r ∈ s.reqs → r.frame = f → (r.op = 1 ∨ r.op = 5) → qRel r.qual = false) →
      (∀ q, q ∈ (coreOf s x.core).copyQ → q.bind ≠ x.bind) → (∀ p, p ∈ (coreOf s x.core).pfrs → p.bind ≠ x.bind) →
      .save x.bind ∉ (coreOf s x.core).accJobs →
      exec (.contextSavedReport f) s = .next (modCtx s f fun x => { x with saving := false, saved := true }))

/-- R13, R134, R372 to R374, R377 to R379, R381: a waiting message takes the next entry of its mailbox ring and a notice
follows it; a reply, where its millwright core runs, that names no version, context or effect is discarded and counted,
and any other has its effect; a die that runs its firmware admits the next launch record, which is refused with the cause
of the first check it fails, in their order, or goes on; a gang's held records are released; a passed deadline is reported
once, and kills where the record says so, no part of a record of another version being read (R383); a doorbell of a queue
that is not enabled or not the writer's is counted and ignored, and any other has its queue's records accepted in ring
order, each with its token, for the die that will admit it, one whose die's base link is down (R7) waiting, and those
behind it. The completions that need no premise on a result stand at O60. The model's readings: log 22, log 23, log 24,
log 26, log 33 and log 84. -/
def Obligations.SupervisorAndLaunchEvents : Prop :=
  ∀ (s u : State) (part die n q cause k f : Nat) (m : Mail) (p : Part) (l : Launch) (x : Ctx) (v : Word) (d : Doorbell)
      (r : Nat → Word),
    (s.mail.find? (mailRoom s) = some m → p = partOf s m.part → k = p.mbTail % 4096 → p.mailbox % 32 = 0 →
      ∃ t y, exec .mailboxPost s = .next t ∧ t.mail = s.mail.eraseP (mailRoom s) ∧ (partOf t m.part).mbTail = p.mbTail + 1 ∧
        StoredAtHome s t (p.mailbox + 32 * k) 32 (m.ctxid.toNat + m.pc.toNat * 2 ^ 64 + m.code.toNat * 2 ^ 128 + m.addr.toNat * 2 ^ 192) ∧
        t.net = s.net ++ [y] ∧ y.cls = 7 ∧ y.dst = p.supCore ∧ y.words = [BitVec.ofNat 64 k] ∧ y.hw = true) ∧
    (firmwareRuns s (dieOf (partOf s part).supCore) = false → exec (.faultReply part) s = .next s) ∧
    (p = partOf s part → p.exists_ = true → firmwareRuns s (dieOf p.supCore) = true →
      k = p.replyHead % 4096 → (readWord s p.replyTail).toNat % 4096 ≠ k →
      r = (fun i => readWord s (p.replyRing + 32 * k + 8 * i)) →
      u = modPart (noteSlice (noteSlice s (dramTarget p.replyTail)) (dramTarget (p.replyRing + 32 * k))) part
        (fun p => { p with replyHead := (k + 1) % 4096 }) →
      (fld (r 1) 63 56 ≠ 1 →
        exec (.faultReply part) s = .next (modPart u part fun p => { p with discarded := p.discarded + 1 })) ∧
      (fld (r 1) 63 56 = 1 → replyTarget u part (r 0) = none →
        exec (.faultReply part) s = .next (modPart u part fun p => { p with discarded := p.discarded + 1 })) ∧
      (fld (r 1) 63 56 = 1 → replyTarget u part (r 0) = some (f, x) →
        (applyReply (noteFrame (noteFrame u f wStatus) f wEpc) part f x (fld (r 1) 2 0) (r 2) = none →
          exec (.faultReply part) s = .next (modPart u part fun p => { p with discarded := p.discarded + 1 })) ∧
        (∀ t, applyReply (noteFrame (noteFrame u f wStatus) f wEpc) part f x (fld (r 1) 2 0) (r 2) = some t →
          exec (.faultReply part) s = .next t))) ∧
    (∀ t, x.park = some (.escalated t) →
      unpark s f x false v = modCtx (writeFrame s f wPc t.pc) f (fun x => { x with park := none, wait := none }) ∧
      (t.async = false →
        unpark s f x true v =
          modCtx (writeFrame s f wPc (pcNext t.pc)) f fun x => { x with park := none, wait := none, entry := false })) ∧
    ((dieSt s die).devQ.find? (fun l => !queueBefore s l) = some l → firmwareRuns s die = false →
      exec (.launchAdmission die) s = .next s) ∧
    ((dieSt s die).devQ.find? (fun l => !queueBefore s l) = some l → firmwareRuns s die = true →
      u = modDie s die (fun d => { d with devQ := d.devQ.filter fun m => m.token != l.token }) →
      (admissionCheck u l = some cause → exec (.launchAdmission die) s = .next (refuseLaunch u l cause)) ∧
      (∀ l', admissionCheck u l = none → l' = { l with step := 6, placed := (placement (lWord l 8)).take (launchCount l) } →
        exec (.launchAdmission die) s = .next (advanceLaunch { u with launches := u.launches ++ [l'] } l'))) ∧
    ((bitsOf (lWord l 0) 63 56 ≠ 1 → admissionCheck s l = some 1) ∧
      (bitsOf (lWord l 0) 63 56 = 1 → bitsOf (lWord l 0) 55 48 ≠ 0 → admissionCheck s l = some 4) ∧
      (bitsOf (lWord l 0) 63 56 = 1 → bitsOf (lWord l 0) 55 48 = 0 → bitsOf (lWord l 0) 35 20 = 0 →
        bitsOf (lWord l 8) 11 10 = 0 → (∀ j, 10 ≤ j → j < 15 → lWord l j = 0) →
        (launchCount l = 0 ∨ (placement (lWord l 8)).length < launchCount l) → admissionCheck s l = some 2)) ∧
    (s.launches[n]? = some l → l.step < 9 → exec (.admissionResume n) s = .next (advanceLaunch s l)) ∧
    (s.launches[n]? = some l → l.step = 9 → ∃ t, exec (.gangBindRelease n) s = .next t ∧ t.mem = s.mem ∧
      (∀ y, y ∈ t.launches → y.token = l.token → y.step = 10) ∧
      ∀ c b, c ∈ l.placed → firmwareRuns s (dieOf c) = true → (∃ y, (b, y) ∈ (coreOf s c).tasks ∧ y.token = l.token) → (bindOf t c b).state ≠ 5) ∧
    ((liveLaunches s)[n]? = some l → fld (l.words.getD 0 0) 63 56 = 1 → launchDeadline l ≠ 0 → l.missed = false →
      launchDeadline l < s.time.toNat →
      u = setLaunch (postMail s l.part 0 0 0x10 l.token) { l with missed := true } →
      exec (.deadlinePass n) s = .next (if lKdl l then dispatchAll (killLaunch u l.token) else u)) ∧
    ((liveLaunches s)[n]? = some l → (fld (l.words.getD 0 0) 63 56 ≠ 1 ∨ launchDeadline l = 0 ∨ l.missed = true ∨ s.time.toNat ≤ launchDeadline l) →
      exec (.deadlinePass n) s = .next s) ∧
    ((s.stage < 6 ∨ (queueOf s q).enabled = false ∨ (q = 0 ∧ d.writer ≠ none) ∨ (q ≠ 0 ∧ d.writer ≠ some (queueOf s q).part)) →
      exec (.hostDoorbell q d) s = .next { s with ignored := s.ignored + 1 }) ∧
    (6 ≤ s.stage → (queueOf s 0).enabled = true → d.writer = none → exec (.hostDoorbell 0 d) s =
      .next (setQueue s 0 { queueOf s 0 with tail := fld d.value 15 0 % ringSize (queueOf s 0) })) ∧
    (6 ≤ s.stage → q ≠ 0 → (queueOf s q).enabled = true → d.writer = some (queueOf s q).part →
      k = fld d.value 15 0 % ringSize (queueOf s q) →
      u = acceptFrom q (ringSize (queueOf s q)) (setQueue s q { queueOf s q with tail := k }) →
      exec (.hostDoorbell q d) s = .next (writeHead u q (queueOf u q))) ∧
    (∀ j y, y = queueOf s q →
      ((y.head = y.tail ∨ baseUp s (recordDie s q y y.head) = false) → acceptFrom q (j + 1) s = s) ∧
      (y.head ≠ y.tail → baseUp s (recordDie s q y y.head) = true → acceptFrom q (j + 1) s =
        acceptFrom q j (setQueue (acceptHost q y s y.head) q { y with head := (y.head + 1) % ringSize y })) ∧
      ∃ z, (dieSt (acceptHost q y s j) (recordDie s q y j)).devQ = (dieSt s (recordDie s q y j)).devQ ++ [z] ∧
        z.token = (takeToken s (recordDie s q y j)).1 ∧ z.src = q ∧ z.part = y.part ∧ z.die = recordDie s q y j ∧
        z.words = (splitBits 64 16 (portRead s (slotAddr y q j) 128)).map (BitVec.ofNat 64))

/-- R380, R393, R394, R396, R399, R384: a record of the management queue is done with the status of the first check it
fails, or with 0, a creation waiting where its supervisor cannot be bound; a repair request with no page on its sector has
status 3, and else pins, fuses or releases it; a warm reset of a die that the partition does not hold whole has status 6,
and one that is accepted goes on step by step: once the die is quiet, once its traffic is done, once its slices are
written back, its links down; an image that fails its checks leaves the die unloaded, and a good one brings it back, with
`sys.lfsr` of its slots at their reset values (R86). The model's readings: log 11, log 13, log 32, log 34, log 35, log 36,
log 37, log 38, log 43 and log 84. -/
def Obligations.ManagementEvents : Prop :=
  ∀ (s u v : State) (part d off k : Nat) (r : List Nat) (ranges : List (Nat × Nat)) (img : Option FwImage) (i : FwImage)
      (t : Target),
    (nextRecord s = some r → bitsOf (recWord r 0) 63 56 = 1 →
      (recOp r = 1 →
        (recFields r = false → exec .partitionCreate s = .next (endRecord s 5)) ∧
        (recFields r = true → recTaken s r = true → exec .partitionCreate s = .next (endRecord s 2)) ∧
        (recFields r = true → recTaken s r = false → recWord r 24 < partBytes s (recWord r 5) →
          exec .partitionCreate s = .next (endRecord s 4)) ∧
        (recFields r = true → recTaken s r = false → freePlace s (dieOf (recSupCore s r)) (recWord r 24) = none →
          exec .partitionCreate s = .next (endRecord s 4)) ∧
        (recFields r = true → recTaken s r = false → partBytes s (recWord r 5) ≤ recWord r 24 →
          freePlace s (dieOf (recSupCore s r)) (recWord r 24) ≠ none →
          exec .partitionCreate s = .next (if supervisorRoom s r then endRecord (createPartition s r) 0 else s))) ∧
      (recOp r = 2 →
        (recZeros r = false → exec .partitionDestroy s = .next (endRecord s 5)) ∧
        (recZeros r = true → (partOf s (recPart r)).exists_ = false →
          exec .partitionDestroy s = .next (endRecord s 3)) ∧
        (recZeros r = true → (partOf s (recPart r)).exists_ = true → u = killPartition s (recPart r) →
          exec .partitionDestroy s =
            .next (if partGone u (recPart r) then endRecord (freePartition u (recPart r)) 0 else u))) ∧
      (recOp r = 3 →
        ((partOf s (recPart r)).exists_ = false → exec .partitionSet s = .next (endRecord s 3)) ∧
        ((partOf s (recPart r)).exists_ = true → (recTimes r = false ∨ recZeros r = false) →
          exec .partitionSet s = .next (endRecord s 5)) ∧
        ((partOf s (recPart r)).exists_ = true → recTimes r = true → recZeros r = true →
          (partOf s (recPart r)).poolCap < recWord r 5 → exec .partitionSet s = .next (endRecord s 4)) ∧
        ((partOf s (recPart r)).exists_ = true → recTimes r = true → recZeros r = true →
          recWord r 5 ≤ (partOf s (recPart r)).poolCap →
          exec .partitionSet s = .next (endRecord (modPart (keepAging s (recPart r)) (recPart r) fun p =>
            { p with sliceUs := if bitsOf (recWord r 3) 31 0 = 0 then 2000 else bitsOf (recWord r 3) 31 0
                     aging := (recWord r 3).testBit 32
                     grace := if recWord r 4 = 0 then 4096 else recWord r 4
                     poolFrames := recWord r 5 }) 0)))) ∧
    (nextRecord s = some r → bitsOf (recWord r 0) 63 56 ≠ 1 → exec .partitionCreate s = .next (endRecord s 1)) ∧
    (nextRepair s part = some r → d = (repairSector s r).1 → off = (repairSector s r).2 →
      v = noteTables (takeRepair s part) part → ranges = leavesFrom v (dramBase d + off) 128 4 (partOf v part).root 3 0 →
      (ranges = [] →
        (repairKind r = 1 → exec (.repairPin part) s = .next (repairOutcome v part 4 (d % 4 * 2 ^ 60 + off) 128 3 [])) ∧
        (repairKind r = 2 → exec (.repairFuse part) s = .next (repairOutcome v part 4 (d % 4 * 2 ^ 60 + off) 128 3 [])) ∧
        (repairKind r = 3 → exec (.repairUnpin part) s = .next (repairOutcome v part 4 (d % 4 * 2 ^ 60 + off) 128 3 []))) ∧
      (∀ y ys, ranges = y :: ys → t = sectorTarget v part d off y.1 →
        (repairKind r = 1 → pinSector v t = (0, u) →
          ((dieSt v d).repairs.length < 1024 → exec (.repairPin part) s = .next (repairOutcome
            (modDie u d fun x => { x with repairs := x.repairs ++ [(off, part, false)] })
            part 4 (d % 4 * 2 ^ 60 + off) 128 0 ranges)) ∧
          (1024 ≤ (dieSt v d).repairs.length → exec (.repairPin part) s =
            .next (repairOutcome v part 4 (d % 4 * 2 ^ 60 + off) 128 4 ranges))) ∧
        (∀ st, repairKind r = 1 → st ≠ 0 → pinSector v t = (st, u) → exec (.repairPin part) s =
          .next (repairOutcome u part 4 (d % 4 * 2 ^ 60 + off) 128 st ranges)) ∧
        (repairKind r = 2 → (∀ e, e ∈ (dieSt v d).repairs → e.1 = off → e.2.2 = false) →
          (dieSt v d).repairs.length < 1024 → pinSector v t = (0, u) →
          exec (.repairFuse part) s = .next (repairOutcome
            (modDie u d fun x => { x with repairs := x.repairs ++ [(off, part, true)] })
            part 4 (d % 4 * 2 ^ 60 + off) 128 0 ranges)) ∧
        (repairKind r = 3 → unpinSector v t = (0, u) →
          exec (.repairUnpin part) s = .next (repairOutcome
            (modDie u d fun x => { x with repairs := x.repairs.filter fun e => !(e.1 == off && !e.2.2) })
            part 4 (d % 4 * 2 ^ 60 + off) 128 0 ranges))) ∧
      (repairKind r = 5 → bitsOf (r.getD 1 0) 5 0 ≤ 43 → bitsOf (r.getD 2 0) 60 58 = 0 → bitsOf (r.getD 2 0) 62 61 ≠ 3 →
        exec (.linkInjectorSet part) s = .next (repairOutcome (modLink (takeRepair s part) (bitsOf (r.getD 1 0) 5 0)
          fun x => { x with injector := BitVec.ofNat 64 (r.getD 2 0), armedAt := x.sent }) part 6 0 0 0 [])) ∧
      (repairKind r = 4 → (∀ j, j / 4 = s.pkg → (dieSt s j).resetStep = 0) → k = s.pkg * 4 + bitsOf (r.getD 1 0) 1 0 →
        (holdsDie (takeRepair s part) part k = false →
          ∃ unit, exec (.warmReset part) s = .next (repairOutcome (takeRepair s part) part unit 0 0 6 [])) ∧
        (holdsDie (takeRepair s part) part k = true → (dieSt (takeRepair s part) k).halted = false →
          (dieSt (takeRepair s part) k).up = true →
          exec (.warmReset part) s = .next (modDie (takeRepair s part) k fun x => { x with halted := true, resetStep := 1 })))) ∧
    ((∀ j, s.pkg * 4 ≤ j → j < d → resetNext s j = none) → d / 4 = s.pkg →
      ((dieSt s d).resetStep = 1 → dieQuiet s d = true →
        exec (.warmReset part) s = .next (modDie s d fun x => { x with resetStep := 2, outAt := s.ord })) ∧
      ((dieSt s d).resetStep = 2 → quiesced s d = true →
        exec (.warmReset part) s = .next (modDie s d fun x => { x with resetStep := 3 })) ∧
      ((dieSt s d).resetStep = 3 → exec (.warmReset part) s = .next (writeBackDie s d)) ∧
      ((dieSt s d).resetStep = 4 → dieLines s d = [] → exec (.warmReset part) s = .next (linksDown s d))) ∧
    ((dieSt s d).resetStep = 5 → u = placeImage s (1 + d % 4) img → i = storedImage u (1 + d % 4) →
      (imageOk i = false → exec (.dieReadmit d img) s =
        .next (noteImage (modDie u d fun x => { x with loaded := false }) (1 + d % 4) i)) ∧
      (imageOk i = true → ((crossing d) ∉ s.detours ∨ drained u (crossing d).1 (crossing d).2 = true) →
        ∃ t, exec (.dieReadmit d img) s = .next t ∧ (dieSt t d).up = true ∧ (dieSt t d).resetStep = 0 ∧
          (dieSt t d).image = i.ver ∧ crossing d ∉ t.detours ∧
          ∀ c j, dieOf c = d → j < 16 → lfsrOf t c j = lfsrReset c j))

/-- R7, R382, R384, R390, R395 to R398, R412 to R415: a flit of the epoch with its CRC and sequence number right is
accepted: a request, data, barrier or control flit of a channel in use is delivered, an idle one leaves nothing, an ack
frees and a nack replays what has been sent, a credit is counted; any other is answered with a nack; a nack replays from
its number, once for what was on its way behind; an armed injector fires once, on the flit it counts to, and inverts a bit,
drops it or lets it come later; a ninth failure takes a link down; corrected errors are counted, with a record where the
count crosses a multiple of 4,096; a route changes once it has drained; training, from stage 5 on, starts a new epoch at
the lower version, and takes a link down whose partner is below version 1; the governor's steps; the throttle; the shutdown
keeps memory outside the package; power-on with good images trains the ports, takes the package's number and reaches stage
6, and with a bad one of the chief stops; BAR0 reads zero before stage 6; a report holds the loaded images, the nonce and
their signature. The model's readings: log 7, log 36, log 39, log 40, log 41, log 42, log 43, log 78 and log 87. -/
def Obligations.LinkAndPowerEvents : Prop :=
  ∀ (s u : State) (link epoch version src dst k unit count watts cl : Nat) (flit : BitVec 256) (features : BitVec 32)
      (seq : BitVec 12) (x : Link) (chief d0 d1 d2 d3 : Option FwImage) (nonce : BitVec 256) (good : Bool) (type : BitVec 4),
    x = linkSt s link → type = flit.extractLsb' 237 4 →
    (good = (Config.crc32 (flit.extractLsb' 32 224) == flit.extractLsb' 0 32 && flit.extractLsb' 224 13 == 0 &&
        flit.extractLsb' 244 12 == x.rxSeq) →
      (x.up = true → epoch = x.epoch → good = true → ∃ t, exec (.flitArrival link epoch flit) s = .next t ∧
        ((type = 1 ∨ type = 2 ∨ type = 4 ∨ type = 6) → (flit.extractLsb' 241 3).toNat < 5 →
          (linkSt t link).inbox = x.inbox ++ [flit] ∧ (linkSt t link).rxSeq = x.rxSeq + 1 ∧ (linkSt t link).fails = 0) ∧
        (type = 0 → t = modLink s link fun x => { x with fails := 0 }) ∧
        (∀ q, type = 3 → Config.ackRead (flit.extractLsb' 32 192) = (true, q) →
          t = modLink s link fun x => replayFrom { x with fails := 0 } q) ∧
        (∀ q, type = 3 → Config.ackRead (flit.extractLsb' 32 192) = (false, q) →
          t = modLink s link fun x => ackedTo { x with fails := 0 } q) ∧
        (type = 5 → (linkSt t link).inbox = x.inbox ∧ (linkSt t link).rxSeq = x.rxSeq + 1)) ∧
      (x.up = true → epoch = x.epoch → good = false → ∃ t, exec (.flitArrival link epoch flit) s = .next t ∧
        (linkSt t link).out = x.out ++ [flitBits x.txSeq (ackFlit true x.rxSeq)] ∧
        (linkSt t link).fails = (if x.failSeq ≠ x.rxSeq ∨ x.fails = 0 then 1
          else if (flit.extractLsb' 244 12 - x.rxSeq).toNat ≤ x.failDist then x.fails + 1 else x.fails) ∧
        (linkSt t link).inbox = x.inbox ∧ (linkSt t link).rxSeq = x.rxSeq) ∧
      ((x.up = false ∨ epoch ≠ x.epoch) → exec (.flitArrival link epoch flit) s = .next s)) ∧
    (x.up = true → ∃ t, exec (.nackReplay link seq) s = .next t ∧
      (linkSt t link).out = if x.nackSeq = seq ∧ 0 < x.nackSlack then x.out
        else x.out ++ x.replay.dropWhile fun f => f.extractLsb' 244 12 != seq) ∧
    (injectorDue link x = false → exec (.injectorFire link) s = .next s) ∧
    (injectorDue link x = true → ∃ t, exec (.injectorFire link) s = .next t ∧ (linkSt t link).injector.getLsbD 63 = false ∧
      ∀ j f, injectAt link x + x.out.length = x.sent + j → x.out[j]? = some f →
        (x.injector.extractLsb' 61 2 = 0#2 →
          (linkSt t link).out = x.out.set j (f ^^^ BitVec.ofNat 256 (2 ^ fld x.injector 39 32))) ∧
        (x.injector.extractLsb' 61 2 = 1#2 → (linkSt t link).out = x.out.eraseIdx j) ∧
        (x.injector.extractLsb' 61 2 = 2#2 → (linkSt t link).out = x.out.take j ++
          (x.out.drop (j + 1)).take (fld x.injector 51 40) ++ [f] ++ (x.out.drop (j + 1)).drop (fld x.injector 51 40))) ∧
    (link < 36 → fld x.injector 31 0 ≠ 0 → injectAt link x % 4 = fld x.injector 57 52 % 4 ∧
      x.armedAt + 4 * (fld x.injector 31 0 - 1) ≤ injectAt link x ∧
      injectAt link x < x.armedAt + 4 * fld x.injector 31 0) ∧
    (x.up = true → (9 ≤ x.fails ∨ 9 ≤ x.nacks) →
      u = logAll (modLink s link fun x =>
        { x with up := false, out := [], replay := [], waiting := [], fails := 0, nacks := 0, nackSlack := 0 }) 4 link →
      (∀ d, d / 4 = s.pkg → link ∈ dieLinks d → ∃ l, l ∈ dieLinks d ∧ (linkSt u l).up = true) →
      exec (.linkDown link) s = .next u) ∧
    (s.stage < 5 → exec (.linkTraining link version features) s = .next s) ∧
    (5 ≤ s.stage → 1 ≤ version → exec (.linkTraining link version features) s = .next (serveQueues (modLink s link fun x =>
      { x with up := true, version := min 2 version, features := features &&& Config.linkFeatures link
               epoch := x.epoch + 1, rxSeq := 0, txSeq := 0, replay := [], credits := [], fails := 0, nacks := 0
               nackSlack := 0, out := [] }))) ∧
    (5 ≤ s.stage → version = 0 → exec (.linkTraining link version features) s =
      .next (serveQueues (linkLost (modLink s link downLink) link))) ∧
    (src / 4 = dst / 4 → src % 2 ≠ dst % 2 → src / 2 ≠ dst / 2 → (routeOf false (src % 4) (dst % 4)).2 = some k →
      (drained s src dst = false → exec (.routeChange src dst) s = .next s) ∧
      (drained s src dst = true → ((dieSt s (src / 4 * 4 + k)).up = false ∨ linkClosed s (src / 4 * 4 + k) = true) →
        (src, dst) ∉ s.detours →
        exec (.routeChange src dst) s = .next { s with detours := s.detours ++ [(src, dst)] }) ∧
      (drained s src dst = true → (dieSt s (src / 4 * 4 + k)).up = true → linkClosed s (src / 4 * 4 + k) = false →
        exec (.routeChange src dst) s = .next { s with detours := s.detours.filter (· != (src, dst)) })) ∧
    ((coreOf s unit).corrected.toNat / 4096 = ((coreOf s unit).corrected.toNat + count) / 4096 →
      exec (.correctedErrorThreshold false unit count) s =
        .next (modCore s unit fun x => { x with corrected := x.corrected + BitVec.ofNat 64 count })) ∧
    ((coreOf s unit).corrected.toNat / 4096 ≠ ((coreOf s unit).corrected.toNat + count) / 4096 →
      ∃ y, y < 8 ∧ exec (.correctedErrorThreshold false unit count) s =
        .next ((s.parts.filter fun p => inPart s p.1 (clusterOf unit)).foldl
          (fun t p => logError t p.1 2 y (dieOf unit % 4 * 2 ^ 60) 8 0 0 ((coreOf s unit).corrected.toNat + count) [])
          (modCore s unit fun x => { x with corrected := x.corrected + BitVec.ofNat 64 count }))) ∧
    ((sliceSt s unit).corrected.toNat / 4096 = ((sliceSt s unit).corrected.toNat + count) / 4096 →
      exec (.correctedErrorThreshold true unit count) s =
        .next (modSlice s unit fun x => { x with corrected := x.corrected + BitVec.ofNat 64 count })) ∧
    ((sliceSt s unit).corrected.toNat / 4096 ≠ ((sliceSt s unit).corrected.toNat + count) / 4096 →
      exec (.correctedErrorThreshold true unit count) s =
        .next ((s.parts.filter fun p => (upFrom (unit / 64 * 32) 32).any fun c => inPart s p.1 c).foldl
          (fun t p => logError t p.1 2 3 (unit / 64 % 4 * 2 ^ 60) 128 0 0 ((sliceSt s unit).corrected.toNat + count) [])
          (modSlice s unit fun x => { x with corrected := x.corrected + BitVec.ofNat 64 count }))) ∧
    (∃ t, exec (.governorTick watts) s = .next t ∧ t.power = (watts :: s.power).take 100 ∧
      ((2800 * t.power.length < t.power.sum ∨ (s.lowering = true ∧ 2800 * t.power.length ≤ t.power.sum)) →
        t.lowering = true ∧ ∀ c, c / 128 = s.pkg →
          (clusterSt t c).clock = if islandBusy s c = true then max 6 ((clusterSt s c).clock - 1) else (clusterSt s c).clock) ∧
      ((t.power.sum < 2800 * t.power.length ∨ (s.lowering = false ∧ t.power.sum = 2800 * t.power.length)) →
        t.lowering = false ∧ (2700 * t.power.length ≤ t.power.sum → t.clusters = s.clusters)) ∧
      (t.power.sum < 2700 * t.power.length → ∀ c, c / 128 = s.pkg →
        (clusterSt t c).clock = if (clusterSt s c).clock < 36 then (clusterSt s c).clock + 1 else (clusterSt s c).clock)) ∧
    exec (.thermalThrottle cl) s = .next (modCluster (countCycles s cl) cl fun x => { x with hot := true }) ∧
    exec (.junctionBelow95c cl) s = .next (modCluster (countCycles s cl) cl fun x => { x with hot := false }) ∧
    (∃ t, exec .thermalShutdown s = .next t ∧ t.powered = false ∧
      ∀ a, a / 2 ^ 64 < 2 ^ 23 → (4096 ≤ a / 2 ^ 64 ∨ a / 2 ^ 64 / 4 ≠ s.pkg) → (∀ p, p ∈ s.behind → p.1 ≠ a) → readByte t a = readByte s a) ∧
    (u = placeImages (coldState s) 0 [chief, d0, d1, d2, d3] →
      (imageOk (storedImage u 0) = false →
        ∃ t, exec (.powerOnReset chief d0 d1 d2 d3) s = .next t ∧ t.stage = 1 ∧ t.powered = true) ∧
      (imageOk (storedImage u 0) = true → ∃ t, exec (.powerOnReset chief d0 d1 d2 d3) s = .next t ∧ t.stage = 6 ∧
        t.powered = true ∧ (queueOf t 0).enabled = true ∧ t.parts = [] ∧ t.ctxs = [] ∧
        t.pkg = s.podNumber ∧ (∀ p, p ∈ s.partners → p.1 < 36 → 1 ≤ p.2.1 → (∀ q, q ∈ s.partners → q.1 = p.1 → q = p) →
          (linkSt t p.1).up = true ∧ (linkSt t p.1).version = min 2 p.2.1) ∧
        ∀ j, j < 4 → (dieSt t (t.pkg * 4 + j)).up = imageOk (storedImage u (1 + j)))) ∧
    (s.stage < 6 → ∀ a, bar0Read s a = 0) ∧
    exec (.attestationRequest nonce) s = .next { s with
      report := some (s.images.filterMap Prod.snd, nonce, Config.deviceSign (s.images.filterMap Prod.snd) nonce) }

/-- R51, R52, R302, R319, R320, R337: a discarded fetch line is fetched once more through the cluster port (R14); a fetch
that arrives fills the instruction cache; both wait while the route to their home changes (R398); a bank in transition
takes its mode once the writes accepted for it are made, and the last of them gives verdict 0; a prefetch, a flush and a
drop are done, a drop once every access that used an entry it drops is, leaving no entry of its range in a TLB of its
scope. The model's readings: log 45 and log 55. -/
def Obligations.FetchAndSliceEvents : Prop :=
  ∀ (s : State) (core slot n f cl : Nat) (r : Req) (t : Target) (w : BankSwitch) (rest : List BankSwitch) (p : Pfr) (q : Flush)
      (d : TlbDrop),
    ((slotOf s core slot).fetch = .again t → (slotOf s core slot).act.frame = some f →
      (targetWaits s (dieOf core) s.ord t = true → exec (.lineRefetch core slot) s = .next s) ∧
      (targetWaits s (dieOf core) s.ord t = false → targetReach s (dieOf core) t = true → poisoned s t.flat 64 = false →
        exec (.lineRefetch core slot) s =
          .next (modSlot (fetchLine s core t) core slot fun x => { x with fetch := .refetched t.flat }))) ∧
    ((s.reqs.find? fun r => r.core == core && r.slot == slot && r.op == 6) = some r → r.target = some t →
      (targetWaits s (dieOf core) r.ord t = true → exec (.instructionFetchComplete core slot) s = .next s) ∧
      (targetWaits s (dieOf core) r.ord t = false → targetReach s (dieOf core) t = true → poisoned s t.flat 64 = false →
        exec (.instructionFetchComplete core slot) s = .next (fetchLine (dropReq s r) core t))) ∧
    ((clusterSt s cl).switching = w :: rest → rowWrites s cl w.bank = true →
      exec (.bankModeSwitchComplete cl w.bank) s = .next s) ∧
    ((clusterSt s cl).switching = w :: rest → rowWrites s cl w.bank = false →
      (rest ≠ [] → exec (.bankModeSwitchComplete cl w.bank) s =
        .next (startSwitch (modCluster (setBankMode s cl w.bank w.mode) cl fun c => { c with switching := rest }) cl)) ∧
      (rest = [] → ∃ u, u = modCluster (setBankMode s cl w.bank w.mode) cl (fun c => { c with switching := [] }) ∧
        exec (.bankModeSwitchComplete cl w.bank) s = .next ((clusterSt u cl).jobs.foldl
          (fun t j => sendIfLive t j.frame j.entry 0) (modCluster u cl fun c => { c with jobs := [] })))) ∧
    ((coreOf s core).pfrs[n]? = some p → exec (.pfrComplete core n) s =
      .next (endPfr (modCore (p.lines.foldl ensureLine s) core fun c => { c with pfrs := c.pfrs.eraseIdx n }) core p)) ∧
    (s.flushes[n]? = some q → ∀ l ls, q.lines = l :: ls → exec (.sectorWriteBackComplete n) s =
      .next (if ls = [] then { flushLine s q.inval l with flushes := (flushLine s q.inval l).flushes.eraseIdx n }
        else { flushLine s q.inval l with flushes := (flushLine s q.inval l).flushes.set n { q with lines := ls } })) ∧
    (s.drops[n]? = some d → (∃ y, y ∈ s.reqs ∧ y.target.isSome = true ∧ dropScope s d y.core = true ∧
      (d.mode ≠ 0 ∨ inSpans y ((d.lo, d.len) :: d.spans) = true)) → exec (.tlbDropComplete n) s = .next s) ∧
    (s.drops[n]? = some d → dropBusy s d = false →
      ∃ t, exec (.tlbDropComplete n) s = .next t ∧ t.drops = s.drops.eraseIdx n ∧ t.mem = s.mem ∧
        ∀ c e, levelInst (c * 16) d.scope = levelInst d.core d.scope → inPart s d.part (clusterOf (c * 16)) = true →
          e ∈ (clusterSt t c).tlb → e.tag = d.part → d.mode ≠ 2 ∧ (d.mode = 0 → tlbOverlaps e d.lo d.len = false))

/-! The whole machine: reset, steps, encodings and invariants. -/

/-- What the rules give after reset: package time 0 (R8), no stage begun and no context (R412), every bank in
cache-way mode (R301), every word empty (R107), no poison, `sys.lfsr` of each slot (R86), `sys.trctl` and the
trace entries zero (R116, R117), the counters zero (R316). That an unlisted byte of memory reads 0 is the model's choice
(log 1). The canonical forms hold. -/
def Obligations.ResetState : Prop :=
  State.reset.time = 0 ∧ State.reset.stage = 0 ∧ (∀ f, ctxOf State.reset f = none) ∧
  (∀ cl b, bankMode State.reset cl b = 1) ∧ (∀ a, isFull State.reset a = false) ∧
  (∀ a n, poisoned State.reset a n = false) ∧
  (∀ q d l c k, d < 4 → l < 32 → c < 16 → k < 16 → lfsrOf State.reset (q * 2048 + d * 512 + l * 16 + c) k =
    0x9E3779B9#32 ^^^ BitVec.ofNat 32 (q * 2 ^ 15 + d * 2 ^ 13 + l * 2 ^ 8 + c * 2 ^ 4 + k)) ∧
  (∀ cl, trctlWord (clusterSt State.reset cl) = 0 ∧ ∀ k, SMap.get 0 (clusterSt State.reset cl).trace k = 0) ∧
  (∀ cl k, SMap.get 0 (clusterSt State.reset cl).counters k = 0) ∧ (∀ n k, SMap.get 0 (sliceSt State.reset n).counters k = 0) ∧
  (∀ a, readByte State.reset a = 0) ∧ tidyMemory State.reset = true ∧ wholeBanks State.reset = true

/-- R36, R37, R50, R51, R53, R54, R65, R68, R391, R392: a core next to move, whose next slot has a context with nothing to
report and whose line is at hand and well-formed, issues the slot's word: the step is `exec` of the instruction the word
decodes to, or of the word as no instruction, and an instruction that holds lets the next slot be tried. A pair runs its
second word where the first completes or blocks and leaves its slot bound, and stands where the second holds. In a redundant
task both copies run the word, and a disagreement is a mismatch. A scheduled event is `exec` of it, and what happens outside
is done as it is named; with nothing scheduled, the first ready event that acts, else the core whose turn it is (the
order is the model's, log 3). The model's readings: log 53, log 72 and log 79. -/
def Obligations.StepRunsDecodedInstruction : Prop :=
  (∀ (s v t : State) (c k f : Nat) (tg : Target) (ks : List Nat) (x : Ctx) (rest : List Move) (l : BitVec 512) (pc : Word)
      (w : BitVec 96) (p : Bool) (Run : State → Host.Outcome State Fault Refusal),
    mayRun s = true → s.sched = .core c :: rest → v = { advance s with sched := rest } →
    preemptsParked v c = false → (coreOf v c).due = none → issueOrder v c = k :: ks →
    slotCtx v c k = some (f, x) → boundaryFault v c f x = none → pc = ctxPc v f → pcWellFormed pc = true →
    lineAt v f (pcLine pc) = .ready tg l → (x.entry = true → lineTmask l (pcSlot pc) = true) → w = slotWord l (pcSlot pc) →
    preemptsEntry v c f x true w = false → (slotOf v c k).fetch ≠ .refetched tg.flat → lineParity l = true → lineForm l = true →
    p = pairs l (pcSlot pc) →
    t = startIssue (noteIssue (modCtx (modSlot v c k fun y => { y with fetch := .idle }) f fun y => { y with entry := false }) c k f)
      c k pc (if p then pcNext (pcNext pc) else pcNext pc) w →
    Run = (fun r => if hasIssued v r c k = true then .next r else tryIssue c ks (keepPlace v r c)) →
    (∀ a, execBoth w t = .next a →
      (p = false → step s = Run a) ∧
      (∀ w2, p = true → w2 = slotWord l (pcSlot pc + 1) →
        ((a.iss.res ≠ .completed ∧ a.iss.res ≠ .blocked) ∨ slotCtx a c k = none → step s = Run a) ∧
        (∀ b, (a.iss.res = .completed ∨ a.iss.res = .blocked) → slotCtx a c k ≠ none →
          execBoth w2 (secondIssue a w2) = .next b →
          step s = Run (if b.iss.res = .held then pairHolds t b c k else if a.iss.res = .blocked then a else b)))) ∧
    (∀ y, execBoth w t = .refused y → step s = .refused y)) ∧
  (∀ (t : State) (w : BitVec 96) (f : Nat) (x : Ctx), slotCtx t t.iss.core t.iss.slot = some (f, x) →
    (x.twin = none → (∀ i, decodeWord w = some i → execBoth w t = exec i t) ∧
      (decodeWord w = none → execBoth w t = exec (.notAnInstructionIssue w) t)) ∧
    (∀ g i a b, x.twin = some g → decodeWord w = some i → exec i t = .next a →
      exec i (asTrailing t t.iss.core t.iss.slot) = .next b →
      (outside a t.iss.core t.iss.slot = outside b t.iss.core t.iss.slot →
        execBoth w t = .next (withTrailing a b t.iss.core t.iss.slot)) ∧
      (outside a t.iss.core t.iss.slot ≠ outside b t.iss.core t.iss.slot →
        execBoth w t = .next (setEnd (pairMismatch t f) .trapped)))) ∧
  (∀ (s : State) (o : Outside) (rest : List Move), mayRun s = true → s.sched = .outside o :: rest →
    step s = .next (outsideStep o { advance s with sched := rest })) ∧
  (∀ (s : State) (i : Instr) (rest : List Move), mayRun s = true → s.sched = .event i :: rest →
    step s = exec i { advance s with sched := rest }) ∧
  (∀ (s : State), mayRun s = true → s.sched = [] →
    (∀ i, nextEvent (advance s) = some i → step s = exec i (advance s)) ∧
    (nextEvent (advance s) = none → step s = issueFrom s.turn { advance s with turn := coreAfter (advance s) s.turn })) ∧
  (∀ (s : State), mayRun s = false → step s = .fault .powerRemoved)

/-- Words that spec/ writes out, one or two of each family, decode to what their text says (R49 to R64 and the examples of
03, 07 to 20); the all-zero word, a reserved function and a reserved type are no instructions (R65, R66, R59, R68). -/
def Obligations.WordsOfTheSpecDecode : Prop :=
  decodeWord 0x01000400_05030400_00000000#96 = some (.add ⟨⟨0, false, 0, false, 4⟩, 0, 0x05, 0x03, 0x04, 0, 0⟩) ∧
  decodeWord 0x0102A400_0605FF00_00000001#96 = some (.add ⟨⟨0, true, 2, true, 4⟩, 0, 0x06, 0x05, 0xFF, 0, 1⟩) ∧
  decodeWord 0x27000000_00000000_00000000#96 = some (.exit ⟨⟨0, false, 0, false, 0⟩, 0, 0, 0, 0, 0, 0⟩) ∧
  decodeWord 0x40000368_05062207_00000010#96 = some (.ld ⟨⟨0, false, 0, false, 3⟩, 0x68, 0x05, 0x06, 1, 2, 0x07, 16⟩) ∧
  decodeWord 0x47020400_0A0120FF_00000000#96 = some (.cas ⟨⟨0, true, 0, false, 4⟩, 0, 0x0A, 0x01, 1, 0, 0xFF, 0⟩) ∧
  decodeWord 0x20080000_00090000_FFFFFFF1#96 = some (.br ⟨⟨2, false, 0, false, 0⟩, 0, 0x09, -2, 1⟩) ∧
  decodeWord 0x60020090_82144315_00000024#96 = some (.send ⟨⟨0, true, 0, false, 0⟩, 0x90, 0x82, 0x14, 0x43, 0x15, 0x24⟩) ∧
  decodeWord 0x95004B03_480182FF_00000040#96 = some (.vgath ⟨⟨0, false, 1, false, 11⟩, 3, 0x48, 0x01, 4, 2, 0xFF, 64⟩) ∧
  decodeWord 0x8D000B04_82414200_00000000#96 = some (.vcmp ⟨⟨0, false, 0, false, 11⟩, 4, 0x82, 0x41, 0x42, 0, 0⟩) ∧
  decodeWord 0xC1020A00_06050000_00000408#96 = some (.mma ⟨⟨0, true, 0, false, 10⟩, 0, 0x06, 0x05, 0, 0, 0x408⟩) ∧
  decodeWord 0xD1020900_08050007_0D004003#96 = some (.walkResume ⟨⟨0, true, 0, false, 9⟩, 0, 0x08, 0x05, 0, 0x07, 0x0D004003⟩) ∧
  decodeWord 0xDA000000_000B0E0C_14120000#96 = some (.cgath ⟨⟨0, false, 0, false, 0⟩, 0, 0, 0x0B, 0x0E, 0x0C, 0x14120000⟩) ∧
  decodeWord 0xE5020000_0B000000_00000100#96 = some (.ctrrd ⟨⟨0, true, 0, false, 0⟩, 0, 0x0B, 0, 0, 0, 0x100⟩) ∧
  decodeWord 0x5E0000A0_00050600_00000000#96 = some (.tlbinv ⟨⟨0, false, 0, false, 0⟩, 0xA0, 0, 0x05, 0x06, 0, 0⟩) ∧
  decodeWord 0xE80000A8_05064007_00000000#96 = some (.caprecv ⟨⟨0, false, 0, false, 0⟩, 0xA8, 0x05, 0x06, 0x40, 0x07, 0⟩) ∧
  decodeWord 0xEE020000_140C0E11_00000004#96 = some (.exload ⟨⟨0, true, 0, false, 0⟩, 0, 0x14, 0x0C, 0x0E, 0x11, 4⟩) ∧
  decodeWord 0 = none ∧ decodeWord 0x01040400_05030400_00000000#96 = none ∧ decodeWord 0x01001200_05030400_00000000#96 = none

/-- R55 to R68, every instruction and every operand: decoding the word of a well-formed instruction gives it back. -/
def Obligations.EncodeThenDecode : Prop :=
  ∀ (i : Instr) (w : BitVec 96), WellFormed i → encode i = some w → decodeWord w = some i

/-- R55 to R68: a word that decodes is the word of the instruction it decodes to, and the instruction is well-formed: two
words never decode alike, and no reserved bit is dropped. -/
def Obligations.DecodeThenEncode : Prop :=
  ∀ (w : BitVec 96) (i : Instr), decodeWord w = some i → WellFormed i ∧ encode i = some w

/-- Memory's canonical form, and the full and poison marks' (log 1), are kept by every step, from every state that has
them. -/
def Obligations.MemoryStaysCanonical : Prop :=
  ∀ (s t : State), tidyMemory s = true → step s = .next t → tidyMemory t = true

/-- R123: a bank that holds a frame holds every line of it, after every step from a state where all do. -/
def Obligations.BanksStayWhole : Prop :=
  ∀ (s t : State), wholeBanks s = true → step s = .next t → wholeBanks t = true

/-! Completion. -/

/-- R43, R134, R302, R315, R318 to R323, R372 to R374, R377 to R381: each of these forms completes in every state and on
every operand that meet what its rule asks of them: PFR, PFR.bar, RFLUSH and RINVAL of a range their segment allows; SECPIN
and SECPIN.un at supervisor privilege; BMODE with no switch under way in the cluster; CTRRD; a fault reply to a parked
context; a mailbox post; an admission and its resumption; the release of a gang; a deadline that has passed; a doorbell; and
the creation, destruction and setting of a partition. The model's readings: log 13, log 24, log 32, log 33, log 55 and
log 84. -/
def Obligations.SliceAndSupervisorFormsComplete : Prop :=
  (∀ (w : RWord) (s : State) (f n a e : Nat) (x : Ctx) (g : Seg) (sp : BitVec 8) (r p : AccessRule)
      (End : (Nat → Prop) → State → Prop),
    ctxOf s f = some x → n = readReg s f w.b → g = readSeg s f (cwSeg w) → sp = BitVec.ofNat 8 (0xC0 + cwSeg w) →
    freeEntry s f = some e → r = { need := needRd, size := n, align := 1, long := decide (2 ^ 32 < n), kinds := [0] } →
    p = { need := needRd + needWr, size := 128, align := 128, kinds := [0] } →
    End = (fun ws t => t.iss.res = .completed ∧ ctxPc t f = s.iss.next ∧ SameBytes s t ∧
      ∀ k, k < 1024 → ¬ ws k → k ≠ wPc → readFrame t f k = readFrame s f k) →
    (checkSeg s x g r (readReg s f w.a : Nat) = .ok a → (coreOf s x.core).pfrs.length < 8 →
      (canIssue (.pfr w) w.hdr [w.a, w.b, sp] s f = true → tagBusy s x.core (fld w.imm 31 26) = false →
        ∃ t, exec (.pfr w) s = .next t ∧ End (fun _ => False) t ∧
          (coreOf t x.core).pfrs.length = (coreOf s x.core).pfrs.length + if n = 0 then 0 else 1) ∧
      (canIssue (.pfrBar w) w.hdr [w.a, w.b, sp, w.c] s f = true →
        ∃ t, exec (.pfrBar w) s = .next t ∧ End (fun _ => False) t ∧
          (coreOf t x.core).pfrs.length = (coreOf s x.core).pfrs.length + if n = 0 then 0 else 1)) ∧
    (checkSeg s x g r (readReg s f w.a : Nat) = .ok a →
      ((∃ o, x.wait = some (.request o) ∧ ∀ y, y ∈ s.flushes → y.ord ≠ o) ∨ ((∀ o, x.wait ≠ some (.request o)) ∧ n = 0)) →
      (canIssue (.rflush w) w.hdr [w.a, w.b, sp] s f = true →
        ∃ t, exec (.rflush w) s = .next t ∧ End (fun _ => False) t) ∧
      (canIssue (.rinval w) w.hdr [w.a, w.b, sp] s f = true →
        ∃ t, exec (.rinval w) s = .next t ∧ End (fun _ => False) t)) ∧
    (checkSeg s x g r (readReg s f w.a : Nat) = .ok a → (∀ o, x.wait ≠ some (.request o)) → n ≠ 0 →
      allPerformed s x.core f = true →
      (canIssue (.rflush w) w.hdr [w.a, w.b, sp] s f = true → ∃ t, exec (.rflush w) s = .next t ∧ t.iss.res = .blocked ∧
        t.flushes.length = s.flushes.length + 1 ∧ SameBytes s t) ∧
      (canIssue (.rinval w) w.hdr [w.a, w.b, sp] s f = true → ∃ t, exec (.rinval w) s = .next t ∧ t.iss.res = .blocked ∧
        t.flushes.length = s.flushes.length + 1 ∧ SameBytes s t)) ∧
    (checkSeg s x g p (readReg s f w.a : Nat) = .ok a → supervisor s f = true →
      (∀ u level pte, engineXlate (openEntry s f e w.d 0) x.core x.slot (ctxPart (openEntry s f e w.d 0) x) a =
        (u, .page level pte) → targetWaits u (dieOf x.core) u.ord (target u.pkg a level pte) = false) →
      (canIssue (.secpin w) w.hdr [w.a, sp] s f = true → ∃ t st o, exec (.secpin w) s = .next t ∧ End (· = 102 + e / 2) t ∧
        st ≤ 3 ∧ Opened s t f e w.d 0 ∧ t.rets = s.rets ++ [{ frame := f, entry := e, writes := [regWrite w.d st], ready := true, late := [], ord := o }]) ∧
      (canIssue (.secpinUn w) w.hdr [w.a, sp] s f = true → ∃ t st o, exec (.secpinUn w) s = .next t ∧
        End (· = 102 + e / 2) t ∧ st ≤ 3 ∧ Opened s t f e w.d 0 ∧
        t.rets = s.rets ++ [{ frame := f, entry := e, writes := [regWrite w.d st], ready := true, late := [], ord := o }])) ∧
    (canIssue (.bmode w) w.hdr [w.a] s f = true → (clusterSt s (clusterOf x.core)).switching = [] →
      ∃ t, exec (.bmode w) s = .next t ∧ End (· = 102 + e / 2) t ∧ Opened s t f e w.d 0) ∧
    (canIssue (.ctrrd w) w.hdr (if fld w.imm 8 8 = 1 then [] else [w.a]) s f = true →
      ∃ t v, exec (.ctrrd w) s = .next t ∧ End (· = 102 + e / 2) t ∧ Opened s t f e w.d 0 ∧
        t.rets = s.rets ++ [{ frame := f, entry := e, writes := [regWrite w.d v], ready := true, late := [], ord := s.ord }])) ∧
  (∀ (s u : State) (part k f : Nat) (p : Part) (x : Ctx) (tr : TrapInfo) (r : Nat → Word),
    p = partOf s part → p.exists_ = true → firmwareRuns s (dieOf p.supCore) = true →
    k = p.replyHead % 4096 → (readWord s p.replyTail).toNat % 4096 ≠ k →
    r = (fun i => readWord s (p.replyRing + 32 * k + 8 * i)) →
    u = modPart (noteSlice (noteSlice s (dramTarget p.replyTail)) (dramTarget (p.replyRing + 32 * k))) part
      (fun p => { p with replyHead := (k + 1) % 4096 }) →
    fld (r 1) 63 56 = 1 → fld (r 1) 2 0 < 2 → replyTarget u part (r 0) = some (f, x) → ctxOf u f = some x →
    x.park = some (.escalated tr) → tr.code ≠ 0x09 → ringPlaces u f = [] → (∀ p, p ∈ s.behind → p.1 / 8192 ≠ f) →
    ∃ t, exec (.faultReply part) s = .next t ∧ (ctxOf t f).map Ctx.park = some none ∧
      ctxPc t f = (if fld (r 1) 2 0 = 0 ∨ tr.async = true then tr.pc else pcNext tr.pc) ∧
      (partOf t part).replyHead = (k + 1) % 4096) ∧
  (∀ (s : State) (m : Mail), s.mail.find? (mailRoom s) = some m → ∃ t y, exec .mailboxPost s = .next t ∧
    t.net = s.net ++ [y] ∧ y.cls = 7 ∧ y.dst = (partOf s m.part).supCore ∧
    (partOf t m.part).mbTail = (partOf s m.part).mbTail + 1) ∧
  (∀ (s : State) (die : Nat) (l : Launch), (dieSt s die).devQ.find? (fun l => !queueBefore s l) = some l →
    firmwareRuns s die = true → ∃ t, exec (.launchAdmission die) s = .next t ∧
      (∀ m, m ∈ (dieSt t die).devQ → m.token ≠ l.token) ∧
      ((∃ y, y ∈ t.launches ∧ y.token = l.token) ∨ ∃ v, (l.token, v) ∈ t.outcomes)) ∧
  (∀ (s : State) (n : Nat) (l : Launch), s.launches[n]? = some l →
    (l.step < 9 → ∃ t, exec (.admissionResume n) s = .next t ∧
      ((∃ y, y ∈ t.launches ∧ y.token = l.token) ∨ ∃ v, (l.token, v) ∈ t.outcomes)) ∧
    (l.step = 9 → ∃ t, exec (.gangBindRelease n) s = .next t ∧
      ∀ y, y ∈ t.launches → y.token = l.token → y.step = 10)) ∧
  (∀ (s : State) (n : Nat) (l : Launch), (liveLaunches s)[n]? = some l → fld (l.words.getD 0 0) 63 56 = 1 →
    launchDeadline l ≠ 0 → l.missed = false → launchDeadline l < s.time.toNat → ∃ t y, exec (.deadlinePass n) s = .next t ∧ y ∈ t.mail ∧ y.part = l.part ∧
      y.code = 0x10 ∧ y.addr = l.token) ∧
  (∀ (s : State) (q : Nat) (d : Doorbell), 6 ≤ s.stage → (queueOf s q).enabled = true →
    d.writer = (if q = 0 then none else some (queueOf s q).part) →
    ∃ t, exec (.hostDoorbell q d) s = .next t ∧ (queueOf t q).tail = fld d.value 15 0 % ringSize (queueOf s q) ∧
      t.ignored = s.ignored) ∧
  (∀ (s : State) (r : List Nat), nextRecord s = some r → bitsOf (recWord r 0) 63 56 = 1 →
    (recOp r = 1 → recFields r = true → recTaken s r = false → partBytes s (recWord r 5) ≤ recWord r 24 →
      freePlace s (dieOf (recSupCore s r)) (recWord r 24) ≠ none → supervisorRoom s r = true →
      ∃ t, exec .partitionCreate s = .next t ∧ (partOf t (recPart r)).exists_ = true ∧
        (queueOf t 0).head = ((queueOf s 0).head + 1) % ringSize (queueOf s 0)) ∧
    (recOp r = 2 → recZeros r = true → (partOf s (recPart r)).exists_ = true →
      partGone (killPartition s (recPart r)) (recPart r) = true →
      ∃ t, exec .partitionDestroy s = .next t ∧ (partOf t (recPart r)).exists_ = false) ∧
    (recOp r = 3 → recZeros r = true → (partOf s (recPart r)).exists_ = true → recTimes r = true →
      recWord r 5 ≤ (partOf s (recPart r)).poolCap →
      ∃ t, exec .partitionSet s = .next t ∧ (partOf t (recPart r)).poolFrames = recWord r 5 ∧
        (queueOf t 0).head = ((queueOf s 0).head + 1) % ringSize (queueOf s 0)))
end

