-- ==== Sys2Proof/Laws/Bits.lean ====
section
/-! SUPPORT. Laws of bit fields: what a field read or replaced holds, bit by bit. -/

namespace Sys2Proof.Machine

set_option Elab.async false

theorem bitsOf_lt (x hi lo : Nat) : bitsOf x hi lo < 2 ^ (hi + 1 - lo) := Nat.mod_lt _ (by positivity)

theorem testBit_bitsOf (x hi lo i : Nat) :
    (bitsOf x hi lo).testBit i = (decide (i < hi + 1 - lo) && x.testBit (lo + i)) := by
  unfold bitsOf
  rw [Nat.testBit_mod_two_pow, Nat.testBit_shiftRight]

/-- A field replaced, in arithmetic. -/
theorem putBits_eq (x hi lo v : Nat) :
    putBits x hi lo v = 2 ^ lo * (2 ^ (hi + 1 - lo) * (x / 2 ^ lo / 2 ^ (hi + 1 - lo)) + v % 2 ^ (hi + 1 - lo)) + x % 2 ^ lo := by
  unfold putBits bitsOf
  rw [Nat.shiftLeft_eq, Nat.shiftLeft_eq, Nat.shiftRight_eq_div_pow]
  generalize 2 ^ lo = A
  generalize 2 ^ (hi + 1 - lo) = B
  have hx : x = x % A + A * (x / A % B) + A * B * (x / A / B) := by
    conv_lhs => rw [← Nat.mod_add_div x A, ← Nat.mod_add_div (x / A) B]
    ring
  have e : x / A % B * A = A * (x / A % B) := Nat.mul_comm _ _
  have e2 : A * (B * (x / A / B) + v % B) + x % A = A * B * (x / A / B) + v % B * A + x % A := by ring
  rw [e, e2]
  omega

/-- A field replaced, bit by bit. -/
theorem testBit_putBits (x hi lo v i : Nat) (h : lo ≤ hi + 1) :
    (putBits x hi lo v).testBit i = if lo ≤ i ∧ i ≤ hi then v.testBit (i - lo) else x.testBit i := by
  rw [putBits_eq, Nat.testBit_two_pow_mul_add _ (Nat.mod_lt _ (by positivity)),
    Nat.testBit_two_pow_mul_add _ (Nat.mod_lt _ (by positivity))]
  by_cases h1 : i < lo
  · rw [if_pos h1, if_neg (by omega), Nat.testBit_mod_two_pow, decide_eq_true h1, Bool.true_and]
  · rw [if_neg h1]
    by_cases h2 : i - lo < hi + 1 - lo
    · rw [if_pos h2, if_pos (by omega), Nat.testBit_mod_two_pow, decide_eq_true h2, Bool.true_and]
    · rw [if_neg h2, if_neg (by omega), Nat.testBit_div_two_pow, Nat.testBit_div_two_pow]
      congr 1
      omega

theorem putBits_lt {x hi lo v n : Nat} (hx : x < 2 ^ n) (hh : hi < n) (h : lo ≤ hi + 1) : putBits x hi lo v < 2 ^ n := by
  apply Nat.lt_pow_two_of_testBit
  intro i hi'
  rw [testBit_putBits _ _ _ _ _ h, if_neg (by omega)]
  exact Nat.testBit_eq_false_of_lt (lt_of_lt_of_le hx (Nat.pow_le_pow_right (by decide) hi'))

theorem bitsOf_putBits_same (x hi lo v : Nat) (h : lo ≤ hi + 1) :
    bitsOf (putBits x hi lo v) hi lo = v % 2 ^ (hi + 1 - lo) := by
  apply Nat.eq_of_testBit_eq
  intro i
  rw [testBit_bitsOf, testBit_putBits _ _ _ _ _ h, Nat.testBit_mod_two_pow]
  by_cases hi' : i < hi + 1 - lo
  · rw [if_pos (by omega), show lo + i - lo = i by omega]
  · simp [hi']

theorem bitsOf_putBits_other (x hi lo v hi' lo' : Nat) (h : lo ≤ hi + 1) (ho : hi' < lo ∨ hi < lo') :
    bitsOf (putBits x hi lo v) hi' lo' = bitsOf x hi' lo' := by
  apply Nat.eq_of_testBit_eq
  intro i
  rw [testBit_bitsOf, testBit_bitsOf, testBit_putBits _ _ _ _ _ h]
  by_cases hi' : i < hi' + 1 - lo'
  · rw [if_neg (by omega)]
  · simp [hi']

end Sys2Proof.Machine
end

