-- ==== Sys2Proof/Laws/SMap.lean ====
section
/-! SUPPORT. Laws of the sparse map: a read after a write, other keys, and that every operation
keeps the canonical form. -/

namespace Sys2Proof

set_option Elab.async false

variable {α : Type} [DecidableEq α] {d : α} {m : SMap α} {k j : Nat} {x : α}

omit [DecidableEq α] in
@[simp] theorem SMap.get_nil (d : α) (k : Nat) : SMap.get d ([] : SMap α) k = d := rfl

omit [DecidableEq α] in
theorem SMap.get_insert_eq : SMap.get d (SMap.insert m k x) k = x := by
  induction m with
  | nil => simp [SMap.insert, SMap.get]
  | cons p t ih =>
    obtain ⟨i, v⟩ := p
    simp only [SMap.insert]
    split
    · simp [SMap.get]
    · split
      · simp [SMap.get]
      · rename_i h
        simp [SMap.get, h, ih]

omit [DecidableEq α] in
theorem SMap.get_insert_ne (h : j ≠ k) : SMap.get d (SMap.insert m k x) j = SMap.get d m j := by
  induction m with
  | nil => simp [SMap.insert, SMap.get, h.symm]
  | cons p t ih =>
    obtain ⟨i, v⟩ := p
    simp only [SMap.insert]
    split
    · simp [SMap.get, h.symm]
    · split
      · rename_i hik
        subst hik
        simp [SMap.get, h.symm]
      · simp [SMap.get, ih]

omit [DecidableEq α] in
theorem SMap.get_drop_ne (h : j ≠ k) : SMap.get d (SMap.drop m k) j = SMap.get d m j := by
  induction m with
  | nil => rfl
  | cons p t ih =>
    obtain ⟨i, v⟩ := p
    simp only [SMap.drop]
    split
    · rename_i hik
      subst hik
      simp [SMap.get, h.symm, ih]
    · simp [SMap.get, ih]

theorem SMap.get_set_ne (h : j ≠ k) : SMap.get d (SMap.set d m k x) j = SMap.get d m j := by
  unfold SMap.set
  split
  · exact SMap.get_drop_ne h
  · exact SMap.get_insert_ne h

/-- The bound that a canonical map's keys lie above. -/
def SMap.above (lo : Option Nat) (k : Nat) : Prop := ∀ n, lo = some n → n < k

theorem SMap.wfFrom_cons {v : α} {lo : Option Nat} :
    SMap.wfFrom d ((k, v) :: m) lo = true ↔ SMap.above lo k ∧ v ≠ d ∧ SMap.wfFrom d m (some k) = true := by
  cases lo <;> simp [SMap.wfFrom, SMap.above, and_assoc]

theorem SMap.wfFrom_weaken {lo : Option Nat} {n : Nat} (hn : SMap.above lo n) :
    SMap.wfFrom d m (some n) = true → SMap.wfFrom d m lo = true := by
  cases m with
  | nil => simp [SMap.wfFrom]
  | cons p t =>
    obtain ⟨i, v⟩ := p
    rw [SMap.wfFrom_cons, SMap.wfFrom_cons]
    rintro ⟨h1, h2, h3⟩
    exact ⟨fun a ha => lt_trans (hn a ha) (h1 n rfl), h2, h3⟩

/-- A key at or below the bound of a canonical map is not listed. -/
theorem SMap.get_below : ∀ {m : SMap α} {n : Nat}, SMap.wfFrom d m (some n) = true → k ≤ n → SMap.get d m k = d
  | [], _, _, _ => rfl
  | (i, v) :: t, n, h, hk => by
    rw [SMap.wfFrom_cons] at h
    have hi := h.1 n rfl
    have : i ≠ k := by omega
    simp only [SMap.get, this, if_false]
    exact SMap.get_below h.2.2 (by omega)

omit [DecidableEq α] in
theorem SMap.get_drop_eq : ∀ {m : SMap α}, SMap.get d (SMap.drop m k) k = d
  | [] => rfl
  | (i, v) :: t => by
    simp only [SMap.drop]
    split
    · exact SMap.get_drop_eq
    · rename_i hik
      simp only [SMap.get, hik, if_false]
      exact SMap.get_drop_eq

/-- A read after a write to the same key gives the value written. -/
theorem SMap.get_set_eq : SMap.get d (SMap.set d m k x) k = x := by
  unfold SMap.set
  split
  · rename_i hx
    rw [hx]
    exact SMap.get_drop_eq
  · exact SMap.get_insert_eq

theorem SMap.wfFrom_drop : ∀ {m : SMap α} {lo : Option Nat}, SMap.wfFrom d m lo = true → SMap.wfFrom d (SMap.drop m k) lo = true
  | [], _, _ => rfl
  | (i, v) :: t, lo, h => by
    rw [SMap.wfFrom_cons] at h
    simp only [SMap.drop]
    split
    · exact SMap.wfFrom_drop (SMap.wfFrom_weaken h.1 h.2.2)
    · rw [SMap.wfFrom_cons]
      exact ⟨h.1, h.2.1, SMap.wfFrom_drop h.2.2⟩

theorem SMap.wfFrom_insert (hx : x ≠ d) : ∀ {m : SMap α} {lo : Option Nat}, SMap.wfFrom d m lo = true →
    SMap.above lo k → SMap.wfFrom d (SMap.insert m k x) lo = true
  | [], lo, _, hk => by
    simp only [SMap.insert]
    rw [SMap.wfFrom_cons]
    exact ⟨hk, hx, rfl⟩
  | (i, v) :: t, lo, h, hk => by
    rw [SMap.wfFrom_cons] at h
    simp only [SMap.insert]
    split
    · rename_i hlt
      rw [SMap.wfFrom_cons, SMap.wfFrom_cons]
      exact ⟨hk, hx, fun n hn => by cases hn; exact hlt, h.2⟩
    · split
      · rename_i hik
        rw [SMap.wfFrom_cons]
        exact ⟨hk, hx, by rw [← hik]; exact h.2.2⟩
      · rename_i h1 h2
        rw [SMap.wfFrom_cons]
        exact ⟨h.1, h.2.1, SMap.wfFrom_insert hx h.2.2 fun n hn => by cases hn; omega⟩

theorem SMap.wf_set (h : SMap.wf d m = true) : SMap.wf d (SMap.set d m k x) = true := by
  unfold SMap.set
  split
  · exact SMap.wfFrom_drop h
  · rename_i hx
    exact SMap.wfFrom_insert hx h fun n hn => by cases hn

theorem SMap.wf_drop (h : SMap.wf d m = true) : SMap.wf d (SMap.drop m k) = true := SMap.wfFrom_drop h

theorem SMap.wfFrom_filter (p : Nat × α → Bool) : ∀ {m : SMap α} {lo : Option Nat}, SMap.wfFrom d m lo = true →
    SMap.wfFrom d (m.filter p) lo = true
  | [], _, _ => rfl
  | (i, v) :: t, lo, h => by
    rw [SMap.wfFrom_cons] at h
    rw [List.filter_cons]
    split
    · rw [SMap.wfFrom_cons]
      exact ⟨h.1, h.2.1, SMap.wfFrom_filter p h.2.2⟩
    · exact SMap.wfFrom_weaken h.1 (SMap.wfFrom_filter p h.2.2)

theorem SMap.wf_filter (p : Nat × α → Bool) (h : SMap.wf d m = true) : SMap.wf d (m.filter p) = true :=
  SMap.wfFrom_filter p h

theorem SMap.wfFrom_mapOn (g : Nat → α → α) : ∀ {m : SMap α} {lo : Option Nat}, SMap.wfFrom d m lo = true →
    SMap.wfFrom d (SMap.mapOn d g m) lo = true
  | [], _, _ => rfl
  | (i, v) :: t, lo, h => by
    rw [SMap.wfFrom_cons] at h
    have ih := SMap.wfFrom_mapOn g h.2.2
    unfold SMap.mapOn at ih ⊢
    rw [List.map_cons, List.filter_cons]
    split
    · rename_i hg
      rw [SMap.wfFrom_cons]
      exact ⟨h.1, by simpa using hg, ih⟩
    · exact SMap.wfFrom_weaken h.1 ih

theorem SMap.wf_mapOn (g : Nat → α → α) (h : SMap.wf d m = true) : SMap.wf d (SMap.mapOn d g m) = true :=
  SMap.wfFrom_mapOn g h

/-- Every listed value of a map after a write comes from before or is the value written. -/
theorem SMap.mem_set {p : Nat × α} (h : p ∈ SMap.set d m k x) : p ∈ m ∨ p = (k, x) := by
  have hd : ∀ {m : SMap α}, p ∈ SMap.drop m k → p ∈ m := by
    intro m
    induction m with
    | nil => simp [SMap.drop]
    | cons q t ih =>
      obtain ⟨i, v⟩ := q
      simp only [SMap.drop]
      split
      · exact fun h => List.mem_cons_of_mem _ (ih h)
      · intro h
        rcases List.mem_cons.mp h with h | h
        · exact h ▸ List.mem_cons_self
        · exact List.mem_cons_of_mem _ (ih h)
  have hi : ∀ {m : SMap α}, p ∈ SMap.insert m k x → p ∈ m ∨ p = (k, x) := by
    intro m
    induction m with
    | nil => simp [SMap.insert]
    | cons q t ih =>
      obtain ⟨i, v⟩ := q
      simp only [SMap.insert]
      split
      · simp only [List.mem_cons]; tauto
      · split
        · simp only [List.mem_cons]; tauto
        · simp only [List.mem_cons]; tauto
  unfold SMap.set at h
  split at h
  · exact .inl (hd h)
  · exact hi h

omit [DecidableEq α] in
/-- A value read from a map is the default or is listed. -/
theorem SMap.get_mem : SMap.get d m k = d ∨ (k, SMap.get d m k) ∈ m := by
  induction m with
  | nil => exact .inl rfl
  | cons p t ih =>
    obtain ⟨i, v⟩ := p
    simp only [SMap.get]
    split
    · rename_i h
      right
      rw [← h]
      exact List.mem_cons_self
    · exact ih.imp id (List.mem_cons_of_mem _)

end Sys2Proof
end

