-- ==== Sys2Proof/Laws/Registers.lean ====
section
/-! SUPPORT. Laws of the parts of State and of frames: what a write of a frame word in a bank does, and
what it leaves alone. -/

namespace Sys2Proof.Machine

set_option Elab.async false

variable {s t : State} {c k f g w : Nat} {x : Word}

/-! Reads of the parts after a change. -/

theorem coreOf_modCore_eq (F : Core → Core) :
    coreOf (modCore s c F) c = F (coreOf s c) := SMap.get_set_eq

theorem coreOf_modCore_ne {c' : Nat} (h : c' ≠ c) (F : Core → Core) :
    coreOf (modCore s c F) c' = coreOf s c' := SMap.get_set_ne h

theorem slotOf_modSlot_eq (F : Slot → Slot) :
    slotOf (modSlot s c k F) c k = F (slotOf s c k) := by
  unfold slotOf modSlot
  rw [coreOf_modCore_eq]
  exact SMap.get_set_eq

theorem slotOf_modSlot_ne {c' k' : Nat} (hk : (c', k') ≠ (c, k)) (F : Slot → Slot) :
    slotOf (modSlot s c k F) c' k' = slotOf s c' k' := by
  unfold slotOf modSlot
  by_cases hc : c' = c
  · subst hc
    have : k' ≠ k := by rintro rfl; exact hk rfl
    rw [coreOf_modCore_eq]
    exact SMap.get_set_ne this
  · rw [coreOf_modCore_ne hc]

theorem coreOf_modSlot (F : Slot → Slot) (c' : Nat) :
    coreOf (modSlot s c k F) c' = { coreOf s c' with slots := (coreOf (modSlot s c k F) c').slots } := by
  by_cases hc : c' = c
  · subst hc
    unfold modSlot
    rw [coreOf_modCore_eq]
  · unfold modSlot
    rw [coreOf_modCore_ne hc]

@[simp] theorem ctxOf_modSlot (F : Slot → Slot) : ctxOf (modSlot s c k F) f = ctxOf s f := rfl
@[simp] theorem ctxOf_modCore (F : Core → Core) : ctxOf (modCore s c F) f = ctxOf s f := rfl

theorem ctxOf_setCtx_eq (o : Option Ctx) : ctxOf (setCtx s f o) f = o :=
  SMap.get_set_eq

theorem ctxOf_setCtx_ne (h : g ≠ f) (o : Option Ctx) : ctxOf (setCtx s f o) g = ctxOf s g :=
  SMap.get_set_ne h

theorem ctxOf_modCtx_eq (F : Ctx → Ctx) :
    ctxOf (modCtx s f F) f = (ctxOf s f).map F := by
  unfold modCtx
  split
  · rename_i e; rw [e]; rfl
  · rename_i y e; rw [ctxOf_setCtx_eq, e]; rfl

theorem ctxOf_modCtx_ne (h : g ≠ f) (F : Ctx → Ctx) : ctxOf (modCtx s f F) g = ctxOf s g := by
  unfold modCtx
  split
  · rfl
  · exact ctxOf_setCtx_ne h _

theorem modCtx_eq (F : Ctx → Ctx) : modCtx s f F = { s with ctxs := (modCtx s f F).ctxs } := by
  unfold modCtx
  split <;> rfl

@[simp] theorem coreOf_modCtx (F : Ctx → Ctx) (c : Nat) : coreOf (modCtx s f F) c = coreOf s c := by
  rw [modCtx_eq]; rfl

@[simp] theorem slotOf_modCtx (F : Ctx → Ctx) (c k : Nat) : slotOf (modCtx s f F) c k = slotOf s c k := by
  rw [modCtx_eq]; rfl

/-! A frame word written where the frame is in its slot. -/

theorem bankHas_act {b : Bank} (hf : b.frame = some f) (hv : b.valid = BitVec.allOnes 40) (hw : w < 640) :
    bankHas b f w = true := by
  simp only [bankHas, hf, hv, BitVec.getLsbD_allOnes, hw, decide_true, beq_self_eq_true, Bool.and_true, Bool.true_and,
    decide_eq_true_eq]
  omega

/-- The bank's part of a write. -/
theorem bankPut_eq {b : Bank} (hv : b.valid = BitVec.allOnes 40) :
    bankPut b w x = { b with
      words := SMap.set 0 b.words w x, dirty := (bankPut b w x).dirty, poison := (bankPut b w x).poison } := by
  obtain ⟨fr, ws, v, d, p⟩ := b
  simp only at hv
  subst hv
  simp only [bankPut, Bank.mk.injEq, true_and, and_true]
  exact BitVec.allOnes_or

/-- What writing word `w` of the frame `f` in its slot does, and all that it does. -/
structure Puts (s t : State) (f w : Nat) (x : Word) : Prop where
  rest : t = { s with cores := t.cores }
  core : ∀ c, coreOf t c = { coreOf s c with slots := (coreOf t c).slots }
  slot : ∀ c k, slotOf t c k = { slotOf s c k with
    act := { (slotOf s c k).act with
      words := (slotOf t c k).act.words, dirty := (slotOf t c k).act.dirty, poison := (slotOf t c k).act.poison } }
  self : readFrame t f w = x
  kept : ∀ g v, (g, v) ≠ (f, w) → readFrame t g v = readFrame s g v
  clean : wordMarked t f w = false
  marks : ∀ g v, (g, v) ≠ (f, w) → wordMarked t g v = wordMarked s g v

theorem bankPut_clean {b : Bank} (hw : w < 640) : (bankPut b w x).poison.getLsbD w = false := by
  simp only [bankPut, BitVec.getLsbD_and, BitVec.getLsbD_not, BitVec.getLsbD_ofNat, hw, Nat.testBit_two_pow_self, decide_true,
    Bool.and_self, Bool.not_true, Bool.and_false]

theorem bankPut_marks {b : Bank} {v : Nat} (hv : v ≠ w) : (bankPut b w x).poison.getLsbD v = b.poison.getLsbD v := by
  simp only [bankPut, BitVec.getLsbD_and, BitVec.getLsbD_not, BitVec.getLsbD_ofNat]
  rw [Nat.testBit_two_pow_of_ne hv.symm]
  by_cases h : v < 640
  · simp [h]
  · simp [h, BitVec.getLsbD_of_ge _ _ (by omega : 640 ≤ v)]

theorem writeFrame1_puts (hf : inSlot s f = true) (hw : w < 640) :
    Puts s (writeFrame1 s f w x) f w x := by
  unfold inSlot at hf
  split at hf
  · exact absurd hf (by decide)
  rename_i y hy
  simp only [Bool.and_eq_true, beq_iff_eq, wholeBank, Bool.or_eq_true] at hf
  obtain ⟨hf, hv⟩ := hf
  replace hv := hv.resolve_left (by simp [hf])
  have hb := bankHas_act hf hv hw
  have ht : writeFrame1 s f w x = modSlot s y.core y.slot fun sl => { sl with act := bankPut sl.act w x } := by
    simp only [writeFrame1, hy, hb, if_true]
  have hsl := slotOf_modSlot_eq (s := s) (k := y.slot) (c := y.core) fun sl => { sl with act := bankPut sl.act w x }
  have hother : ∀ c k, (c, k) ≠ (y.core, y.slot) → slotOf (writeFrame1 s f w x) c k = slotOf s c k := by
    intro c k hne
    rw [ht]
    exact slotOf_modSlot_ne hne _
  rw [← ht] at hsl
  have hctx : ∀ g, ctxOf (writeFrame1 s f w x) g = ctxOf s g := by
    intro g; rw [ht]; rfl
  have hmem : ∀ k n, readBytes (writeFrame1 s f w x) k n = readBytes s k n := by
    intro k n
    induction n generalizing k with
    | zero => rfl
    | succ n ih => simp only [readBytes, ih]; rw [ht]; rfl
  have hpo : ∀ k n, poisoned (writeFrame1 s f w x) k n = poisoned s k n := by
    intro k n; rw [ht]; rfl
  have hb' : bankHas (slotOf (writeFrame1 s f w x) y.core y.slot).act f w = true :=
    bankHas_act (by rw [hsl]; exact hf) (by rw [hsl, bankPut_eq hv]; exact hv) hw
  refine ⟨?_, ?_, ?_, ?_, ?_, ?_, ?_⟩
  · rw [ht]; rfl
  · intro c; rw [ht]; exact coreOf_modSlot _ c
  · intro c k
    by_cases hck : (c, k) = (y.core, y.slot)
    · obtain ⟨rfl, rfl⟩ := Prod.mk.inj hck
      rw [hsl]
      conv_lhs => rw [bankPut_eq hv]
      rfl
    · rw [hother c k hck]
  · simp only [readFrame, hctx, hy, hb', if_true]
    rw [hsl]
    exact SMap.get_set_eq
  · intro g v hne
    simp only [readFrame, hctx, readWord, hmem]
    split
    · rfl
    · rename_i z hz
      by_cases hck : (z.core, z.slot) = (y.core, y.slot)
      · obtain ⟨e1, e2⟩ := Prod.mk.inj hck
        rw [e1, e2, hsl]
        conv_lhs => rw [bankPut_eq hv]
        by_cases hg : g = f
        · subst hg
          have hvw : v ≠ w := by rintro rfl; exact hne rfl
          simp only [bankHas]
          rw [SMap.get_set_ne hvw]
          rfl
        · have : ((slotOf s y.core y.slot).act.frame == some g) = false := by
            rw [hf]; simpa using fun e => hg e.symm
          simp only [bankHas, this, Bool.false_and, Bool.false_eq_true, if_false]
      · rw [hother _ _ hck]
  · simp only [wordMarked, hctx, hy, hb', if_true]
    rw [hsl]
    exact bankPut_clean hw
  · intro g v hne
    simp only [wordMarked, hctx, hpo]
    split
    · rfl
    · rename_i z hz
      by_cases hck : (z.core, z.slot) = (y.core, y.slot)
      · obtain ⟨e1, e2⟩ := Prod.mk.inj hck
        rw [e1, e2, hsl]
        by_cases hg : g = f
        · subst hg
          have hvw : v ≠ w := by rintro rfl; exact hne rfl
          simp only [bankPut_marks hvw]
          conv_lhs => rw [bankPut_eq hv]
          rfl
        · have : ((slotOf s y.core y.slot).act.frame == some g) = false := by
            rw [hf]; simpa using fun e => hg e.symm
          conv_lhs => rw [bankPut_eq hv]
          simp only [bankHas, this, Bool.false_and, Bool.false_eq_true, if_false]
      · rw [hother _ _ hck]

/-- A word of a bound frame marked: nothing that is read changes, and no other mark. -/
structure Marked (s t : State) (f w : Nat) : Prop where
  rest : t = { s with cores := t.cores }
  core : ∀ c, coreOf t c = { coreOf s c with slots := (coreOf t c).slots }
  slot : ∀ c k, slotOf t c k = { slotOf s c k with
    act := { (slotOf s c k).act with
      words := (slotOf t c k).act.words, dirty := (slotOf t c k).act.dirty, poison := (slotOf t c k).act.poison } }
  kept : ∀ g v, readFrame t g v = readFrame s g v
  marks : ∀ g v, (g, v) ≠ (f, w) → wordMarked t g v = wordMarked s g v

theorem markBank_marks {b : Bank} {v : Nat} (hv : v ≠ w) : (markBank b w).poison.getLsbD v = b.poison.getLsbD v := by
  simp only [markBank, BitVec.getLsbD_or, BitVec.getLsbD_ofNat]
  rw [Nat.testBit_two_pow_of_ne hv.symm]
  simp

theorem markWord_marks (hf : inSlot s f = true) (hw : w < 640) : Marked s (markWord s f w) f w := by
  unfold inSlot at hf
  split at hf
  · exact absurd hf (by decide)
  rename_i y hy
  simp only [Bool.and_eq_true, beq_iff_eq, wholeBank, Bool.or_eq_true] at hf
  obtain ⟨hf, hv⟩ := hf
  replace hv := hv.resolve_left (by simp [hf])
  have hb := bankHas_act hf hv hw
  have ht : markWord s f w = modSlot s y.core y.slot fun sl => { sl with act := markBank sl.act w } := by
    simp only [markWord, hy, hb, if_true]
  have hsl := slotOf_modSlot_eq (s := s) (k := y.slot) (c := y.core) fun sl => { sl with act := markBank sl.act w }
  have hother : ∀ c k, (c, k) ≠ (y.core, y.slot) → slotOf (markWord s f w) c k = slotOf s c k := by
    intro c k hne
    rw [ht]
    exact slotOf_modSlot_ne hne _
  rw [← ht] at hsl
  have hctx : ∀ g, ctxOf (markWord s f w) g = ctxOf s g := by
    intro g; rw [ht]; rfl
  have hmem : ∀ k n, readBytes (markWord s f w) k n = readBytes s k n := by
    intro k n
    induction n generalizing k with
    | zero => rfl
    | succ n ih => simp only [readBytes, ih]; rw [ht]; rfl
  have hpo : ∀ k n, poisoned (markWord s f w) k n = poisoned s k n := by
    intro k n; rw [ht]; rfl
  refine ⟨?_, ?_, ?_, ?_, ?_⟩
  · rw [ht]; rfl
  · intro c; rw [ht]; exact coreOf_modSlot _ c
  · intro c k
    by_cases hck : (c, k) = (y.core, y.slot)
    · obtain ⟨rfl, rfl⟩ := Prod.mk.inj hck
      rw [hsl]
      rfl
    · rw [hother c k hck]
  · intro g v
    simp only [readFrame, hctx, readWord, hmem]
    split
    · rfl
    · rename_i z hz
      by_cases hck : (z.core, z.slot) = (y.core, y.slot)
      · obtain ⟨e1, e2⟩ := Prod.mk.inj hck
        rw [e1, e2, hsl]
        rfl
      · rw [hother _ _ hck]
  · intro g v hne
    simp only [wordMarked, hctx, hpo]
    split
    · rfl
    · rename_i z hz
      by_cases hck : (z.core, z.slot) = (y.core, y.slot)
      · obtain ⟨e1, e2⟩ := Prod.mk.inj hck
        rw [e1, e2, hsl]
        by_cases hg : g = f
        · subst hg
          have hvw : v ≠ w := by rintro rfl; exact hne rfl
          simp only [markBank_marks hvw]
          rfl
        · have : ((slotOf s y.core y.slot).act.frame == some g) = false := by
            rw [hf]; simpa using fun e => hg e.symm
          simp only [bankHas, markBank, this, Bool.false_and, Bool.false_eq_true, if_false]
      · rw [hother _ _ hck]

/-! Any number of frame words written. -/

/-- `t` is `s` with words `ws` of the frame `f`, and of its trailing copy's, written. -/
structure Banked (s t : State) (f : Nat) (ws : Nat → Prop) : Prop where
  rest : t = { s with cores := t.cores }
  core : ∀ c, coreOf t c = { coreOf s c with slots := (coreOf t c).slots }
  slot : ∀ c k, slotOf t c k = { slotOf s c k with
    act := { (slotOf s c k).act with
      words := (slotOf t c k).act.words, dirty := (slotOf t c k).act.dirty, poison := (slotOf t c k).act.poison } }
  kept : ∀ v, ¬ ws v → readFrame t f v = readFrame s f v
  twin : ∀ g, twinOf s f = some g → ∀ v, ¬ ws v → readFrame t g v = readFrame s g v
  others : ∀ g, g ≠ f → twinOf s f ≠ some g → ∀ v, readFrame t g v = readFrame s g v
  marks : ∀ g v, ¬ ((g = f ∨ twinOf s f = some g) ∧ ws v) → wordMarked t g v = wordMarked s g v

variable {ws ws' : Nat → Prop} {r : State}

theorem rest_trans (a : t = { s with cores := t.cores }) (b : r = { t with cores := r.cores }) :
    r = { s with cores := r.cores } := b.trans (by rw [a])

theorem Banked.refl : Banked s s f ws :=
  ⟨rfl, fun _ => rfl, fun _ _ => rfl, fun _ _ => rfl, fun _ _ _ _ => rfl, fun _ _ _ _ => rfl, fun _ _ _ => rfl⟩

theorem Banked.ctxOf (b : Banked s t f ws) (g : Nat) : ctxOf t g = ctxOf s g := by rw [b.rest]; rfl

theorem Banked.twinOf (b : Banked s t f ws) (g : Nat) : twinOf t g = twinOf s g := by rw [b.rest]; rfl

theorem Banked.inSlot (b : Banked s t f ws) (g : Nat) : inSlot t g = inSlot s g := by
  unfold Machine.inSlot
  rw [b.ctxOf]
  split
  · rfl
  · rw [b.slot]; rfl

theorem Banked.bound (b : Banked s t f ws) (g : Nat) : bound t g = bound s g := by
  unfold Machine.bound
  rw [b.inSlot, b.twinOf]
  split
  · rfl
  · rw [b.inSlot]

theorem Banked.mono (b : Banked s t f ws) (h : ∀ v, ws v → ws' v) : Banked s t f ws' :=
  ⟨b.rest, b.core, b.slot, fun v hv => b.kept v fun e => hv (h v e), fun g hg v hv => b.twin g hg v fun e => hv (h v e),
    b.others, fun g v hv => b.marks g v fun e => hv ⟨e.1, h v e.2⟩⟩

theorem Banked.trans (a : Banked s t f ws) (b : Banked t r f ws) : Banked s r f ws := by
  refine ⟨?_, ?_, ?_, ?_, ?_, ?_, ?_⟩
  · exact rest_trans a.rest b.rest
  · intro c
    have h := b.core c
    rw [a.core c] at h
    exact h
  · intro c k
    have h := b.slot c k
    rw [a.slot c k] at h
    exact h
  · intro v hv
    rw [b.kept v hv, a.kept v hv]
  · intro g hg v hv
    rw [b.twin g (by rw [a.twinOf]; exact hg) v hv, a.twin g hg v hv]
  · intro g hg ht v
    rw [b.others g hg (by rw [a.twinOf]; exact ht) v, a.others g hg ht v]
  · intro g v hv
    rw [b.marks g v (by rw [a.twinOf]; exact hv), a.marks g v hv]

/-- What a write of word `w` puts in the trailing copy: `sys.status` keeps its slot (R392). -/
def twinWord (w : Nat) (x : Word) : Word :=
  if w = wStatus then trailStatus x else x

theorem bound_inSlot (h : bound s f = true) : inSlot s f = true := by
  simp only [bound, Bool.and_eq_true] at h
  exact h.1

theorem bound_twin (h : bound s f = true) (hg : twinOf s f = some g) : g ≠ f ∧ inSlot s g = true := by
  simp only [bound, hg, Bool.and_eq_true, bne_iff_ne] at h
  exact h.2

/-- A frame word written (R124): the context's, and its trailing copy's (R392). -/
theorem writeFrame_spec (hb : bound s f = true) (hw : w < 640) :
    Banked s (writeFrame s f w x) f (· = w) ∧ readFrame (writeFrame s f w x) f w = x ∧
      ∀ g, twinOf s f = some g → readFrame (writeFrame s f w x) g w = twinWord w x := by
  have p := writeFrame1_puts (x := x) (bound_inSlot hb) hw
  unfold writeFrame
  simp only
  cases ht : (ctxOf s f).bind Ctx.twin with
  | none =>
    have ht' : twinOf s f = none := ht
    refine ⟨⟨p.rest, p.core, p.slot, fun v hv => p.kept f v (by simpa using hv), ?_, ?_, ?_⟩, p.self, ?_⟩
    · intro g hg; rw [ht'] at hg; cases hg
    · intro g hg _ v; exact p.kept g v (by simp [hg])
    · intro g v hv
      refine p.marks g v ?_
      rintro e
      obtain ⟨rfl, rfl⟩ := Prod.mk.inj e
      exact hv ⟨.inl rfl, rfl⟩
    · intro g hg; rw [ht'] at hg; cases hg
  | some g =>
    have ht' : twinOf s f = some g := ht
    obtain ⟨hne, hin⟩ := bound_twin hb ht'
    have hin' : inSlot (writeFrame1 s f w x) g = true := by
      unfold inSlot at hin ⊢
      have : ctxOf (writeFrame1 s f w x) g = ctxOf s g := by rw [p.rest]; rfl
      rw [this]
      split
      · rename_i e; rw [e] at hin; exact hin
      · rename_i y e; rw [e] at hin; rw [p.slot]; exact hin
    have q := writeFrame1_puts (x := twinWord w x) hin' hw
    show Banked s (writeFrame1 (writeFrame1 s f w x) g w (twinWord w x)) f (· = w) ∧
      readFrame (writeFrame1 (writeFrame1 s f w x) g w (twinWord w x)) f w = x ∧
        ∀ g', twinOf s f = some g' → readFrame (writeFrame1 (writeFrame1 s f w x) g w (twinWord w x)) g' w = twinWord w x
    refine ⟨⟨?_, ?_, ?_, ?_, ?_, ?_, ?_⟩, ?_, ?_⟩
    · exact rest_trans p.rest q.rest
    · intro c; have e := q.core c; rw [p.core c] at e; exact e
    · intro c k; have e := q.slot c k; rw [p.slot c k] at e; exact e
    · intro v hv
      rw [q.kept f v (by simp [hne.symm]),
        p.kept f v (by simpa using hv)]
    · intro g' hg' v hv
      rw [ht'] at hg'
      cases hg'
      rw [q.kept g v (by simpa using hv),
        p.kept g v (by simp [hne])]
    · intro g' hg' hn v
      rw [ht'] at hn
      have : g' ≠ g := by rintro rfl; exact hn rfl
      rw [q.kept g' v (by simp [this]),
        p.kept g' v (by simp [hg'])]
    · intro g' v hv
      have h1 : (g', v) ≠ (g, w) := by rintro e; obtain ⟨rfl, rfl⟩ := Prod.mk.inj e; exact hv ⟨.inr ht', rfl⟩
      have h2 : (g', v) ≠ (f, w) := by rintro e; obtain ⟨rfl, rfl⟩ := Prod.mk.inj e; exact hv ⟨.inl rfl, rfl⟩
      rw [q.marks g' v h1, p.marks g' v h2]
    · rw [q.kept f w (by simp [hne.symm]), p.self]
    · intro g' hg'
      rw [ht'] at hg'
      cases hg'
      exact q.self

/-- Marks put back on a word that was written in part (R387). -/
theorem Banked.mark {g : Nat} (b : Banked s t f (· = w)) (hg : Machine.inSlot t g = true) (hw : w < 640)
    (h : g = f ∨ Machine.twinOf s f = some g) :
    Banked s (markWord t g w) f (· = w) ∧ ∀ k v, readFrame (markWord t g w) k v = readFrame t k v := by
  have p := markWord_marks hg hw
  refine ⟨⟨rest_trans b.rest p.rest, ?_, ?_, ?_, ?_, ?_, ?_⟩, p.kept⟩
  · intro c; have e := p.core c; rw [b.core c] at e; exact e
  · intro c k; have e := p.slot c k; rw [b.slot c k] at e; exact e
  · intro v hv; rw [p.kept, b.kept v hv]
  · intro g' hg' v hv; rw [p.kept, b.twin g' hg' v hv]
  · intro g' hn ht v; rw [p.kept, b.others g' hn ht v]
  · intro g' v hv
    rw [p.marks g' v (by rintro e; obtain ⟨rfl, rfl⟩ := Prod.mk.inj e; exact hv ⟨h, rfl⟩), b.marks g' v hv]

/-- A frame word written in part: as a word written whole, but for its own mark (R387). -/
theorem writePart_spec (hb : bound s f = true) (hw : w < 640) :
    Banked s (writePart s f w x) f (· = w) ∧ readFrame (writePart s f w x) f w = x ∧
      ∀ g, twinOf s f = some g → readFrame (writePart s f w x) g w = twinWord w x := by
  obtain ⟨b, r, q⟩ := writeFrame_spec (x := x) hb hw
  have step : ∀ (t : State) (g : Nat) (c : Bool), Banked s t f (· = w) → (g = f ∨ twinOf s f = some g) →
      Banked s (if c then markWord t g w else t) f (· = w) ∧
        ∀ k v, readFrame (if c then markWord t g w else t) k v = readFrame t k v := by
    intro t g c bt hg
    cases c with
    | false => exact ⟨bt, fun _ _ => rfl⟩
    | true =>
      refine bt.mark ?_ hw hg
      rw [bt.inSlot]
      rcases hg with rfl | hg
      · exact bound_inSlot hb
      · exact (bound_twin hb hg).2
  obtain ⟨b1, k1⟩ := step _ f (wordMarked s f w) b (.inl rfl)
  unfold writePart
  simp only
  cases ht : (ctxOf s f).bind Ctx.twin with
  | none =>
    refine ⟨b1, by rw [k1, r], ?_⟩
    intro g hg; rw [k1]; exact q g hg
  | some g =>
    obtain ⟨b2, k2⟩ := step _ g (wordMarked s g w) b1 (.inr ht)
    refine ⟨b2, ?_, ?_⟩
    · rw [k2, k1, r]
    · intro g' hg'; rw [k2, k1]; exact q g' hg'

/-- Successive frame words written from the 64-bit pieces of a value. -/
theorem writeFrames_spec {n v : Nat} (hb : bound s f = true) (hw : w + n ≤ 96 ∨ (98 ≤ w ∧ w + n ≤ 640)) :
    Banked s (writeFrames s f w n v) f (fun k => w ≤ k ∧ k < w + n) ∧
      (∀ g, g = f ∨ twinOf s f = some g → ∀ k, k < n →
        readFrame (writeFrames s f w n v) g (w + k) = BitVec.ofNat 64 (v >>> (64 * k))) := by
  induction n generalizing s w v with
  | zero => exact ⟨Banked.refl, fun _ _ k hk => absurd hk (by omega)⟩
  | succ n ih =>
    obtain ⟨b, e, et⟩ := writeFrame_spec (x := BitVec.ofNat 64 v) hb (w := w) (by omega)
    obtain ⟨b2, e2⟩ := ih (s := writeFrame s f w (BitVec.ofNat 64 v)) (w := w + 1) (v := v >>> 64) 
      (by rw [b.bound]; exact hb) (by omega)
    have hww : twinWord w (BitVec.ofNat 64 v) = BitVec.ofNat 64 v := by
      unfold twinWord
      rw [if_neg]
      simp only [wStatus]
      omega
    refine ⟨(b.mono ?_).trans (b2.mono ?_), ?_⟩
    · intro k hk; omega
    · intro k hk; omega
    · intro g hg k hk
      rw [writeFrames]
      cases k with
      | zero =>
        have hnot : ¬ (w + 1 ≤ w + 0 ∧ w + 0 < w + 1 + n) := by omega
        rcases hg with rfl | hg
        · rw [b2.kept _ hnot, Nat.add_zero, e]; rfl
        · rw [b2.twin g (by rw [b.twinOf]; exact hg) _ hnot, Nat.add_zero, et g hg, hww]; rfl
      | succ k =>
        have := e2 g (by rw [b.twinOf]; exact hg) k (by omega)
        rw [show w + (k + 1) = w + 1 + k by omega, this, ← Nat.shiftRight_add]
        congr 2
        omega

theorem packBits_pieces (n v : Nat) :
    packBits 64 ((List.range n).map fun k => (BitVec.ofNat 64 (v >>> (64 * k))).toNat) = v % 2 ^ (64 * n) := by
  induction n generalizing v with
  | zero => simp [packBits, Nat.mod_one]
  | succ n ih =>
    rw [List.range_succ_eq_map, List.map_cons, List.map_map, packBits]
    have : ((fun k => (BitVec.ofNat 64 (v >>> (64 * k))).toNat) ∘ Nat.succ) =
        fun k => (BitVec.ofNat 64 ((v >>> 64) >>> (64 * k))).toNat := by
      funext k
      simp only [Function.comp, ← Nat.shiftRight_add]
      congr 3
      simp only [Nat.succ_eq_add_one]
      omega
    rw [this, ih, BitVec.toNat_ofNat, Nat.mul_zero, Nat.shiftRight_zero, Nat.mod_mod, Nat.shiftRight_eq_div_pow]
    rw [show 64 * (n + 1) = 64 + 64 * n by omega, pow_add, Nat.mod_mul]

theorem upFrom_eq (a n : Nat) : upFrom a n = (List.range n).map (a + ·) := by
  induction n generalizing a with
  | zero => rfl
  | succ n ih =>
    rw [upFrom, ih, List.range_succ_eq_map, List.map_cons, List.map_map]
    congr 1
    apply List.map_congr_left
    intro k _
    simp only [Function.comp, Nat.succ_eq_add_one]
    omega

/-! Registers. -/

/-- The frame words of a register lie in lines 0 to 5 or 8 to 39. -/
theorem regWords_bound (d : BitVec 8) : (regWords d).1 + (regWords d).2 ≤ 96 ∨
    (98 ≤ (regWords d).1 ∧ (regWords d).1 + (regWords d).2 ≤ 640) := by
  revert d
  decide

theorem readReg_of_frame {d : BitVec 8} (h : ∀ v, regHas d v → readFrame t g v = readFrame s f v) :
    readReg t g d = readReg s f d := by
  unfold readReg readFrames
  split
  · rfl
  · congr 1
    rw [upFrom_eq, List.map_map, List.map_map]
    apply List.map_congr_left
    intro k hk
    rw [List.mem_range] at hk
    simp only [Function.comp]
    rw [h]
    simp only [regHas]
    omega

/-- A register written (R57): the value it then reads as, and all that changes. -/
theorem writeReg_spec (hb : bound s f = true) (d : BitVec 8) (v : Nat) :
    Banked s (writeReg s f d v) f (regHas d) ∧
      ∀ g, g = f ∨ twinOf s f = some g → readReg (writeReg s f d v) g d = regValue d v := by
  obtain ⟨b, e⟩ := writeFrames_spec (v := v) hb (regWords_bound d)
  refine ⟨b, ?_⟩
  intro g hg
  unfold readReg regValue
  split
  · rfl
  · unfold readFrames
    rw [upFrom_eq, List.map_map, ← packBits_pieces]
    congr 1
    apply List.map_congr_left
    intro k hk
    rw [List.mem_range] at hk
    simp only [Function.comp]
    rw [← e g hg k hk]
    rfl

/-! The end of an issue. -/

theorem Banked.iss (b : Banked s t f ws) : t.iss = s.iss := by rw [b.rest]

@[simp] theorem readFrame_setEnd (e : IssueEnd) : readFrame (setEnd s e) f w = readFrame s f w := rfl

theorem readFrame_modCtx {F : Ctx → Ctx} 
    (hF : ∀ y, (F y).core = y.core ∧ (F y).slot = y.slot) (g : Nat) :
    readFrame (modCtx s f F) g w = readFrame s g w := by
  have hm : ∀ k n, readBytes (modCtx s f F) k n = readBytes s k n := by
    intro k n
    induction n generalizing k with
    | zero => rfl
    | succ n ih => simp only [readBytes, ih]; rw [modCtx_eq]; rfl
  by_cases hg : g = f
  · subst hg
    simp only [readFrame, readWord, hm, ctxOf_modCtx_eq, slotOf_modCtx]
    cases hy : Machine.ctxOf s g with
    | none => rfl
    | some y => simp only [Option.map_some, (hF y).1, (hF y).2]
  · simp only [readFrame, readWord, hm, ctxOf_modCtx_ne hg, slotOf_modCtx]

theorem wordMarked_modCtx {F : Ctx → Ctx}
    (hF : ∀ y, (F y).core = y.core ∧ (F y).slot = y.slot) (g : Nat) :
    wordMarked (modCtx s f F) g w = wordMarked s g w := by
  have hm : ∀ k n, poisoned (modCtx s f F) k n = poisoned s k n := by
    intro k n; unfold poisoned; rw [modCtx_eq]
  by_cases hg : g = f
  · subst hg
    simp only [wordMarked, hm, ctxOf_modCtx_eq, slotOf_modCtx]
    cases hy : Machine.ctxOf s g with
    | none => rfl
    | some y => simp only [Option.map_some, (hF y).1, (hF y).2]
  · simp only [wordMarked, hm, ctxOf_modCtx_ne hg, slotOf_modCtx]

/-- The end of an instruction whose effect is a write of words of its frame (R39, R50). -/
theorem finish_wrote {h : Hdr} (hb : bound s f = true) (b : Banked s t f ws) :
    Wrote s (finish h f t) f h ws ∧ (finish h f t).iss.next = s.iss.next ∧
      (∀ g, g = f ∨ twinOf s f = some g → ctxPc (finish h f t) g = s.iss.next ∧
        ∀ v, v ≠ wPc → readFrame (finish h f t) g v = readFrame t g v) := by
  obtain ⟨p, e, et⟩ := writeFrame_spec (x := t.iss.next) (by rw [b.bound]; exact hb) (w := wPc) (by decide)
  have hF : ∀ y : Ctx, ({ y with wait := none, issued := false, after := none, parked := y.parked || h.sw, live := none } : Ctx).core = y.core ∧
      ({ y with wait := none, issued := false, after := none, parked := y.parked || h.sw, live := none } : Ctx).slot = y.slot := fun y => ⟨rfl, rfl⟩
  have hr : ∀ g v, readFrame (finish h f t) g v = readFrame (writeFrame t f wPc t.iss.next) g v := by
    intro g v
    unfold finish
    rw [readFrame_setEnd, readFrame_modCtx hF]
  have hcore : ∀ c, coreOf (finish h f t) c = coreOf (writeFrame t f wPc t.iss.next) c := by
    intro c
    show coreOf (modCtx _ _ _) c = _
    rw [coreOf_modCtx]
  have hslot : ∀ c k, slotOf (finish h f t) c k = slotOf (writeFrame t f wPc t.iss.next) c k := by
    intro c k; unfold slotOf; rw [hcore]
  have hq : Banked s (writeFrame t f wPc t.iss.next) f (fun v => ws v ∨ v = wPc) :=
    (b.mono fun v hv => .inl hv).trans (p.mono fun v hv => .inr hv)
  refine ⟨⟨?_, ?_, ?_, ?_, ?_, ?_, ?_, ?_⟩, ?_, ?_⟩
  · unfold finish setEnd
    rw [modCtx_eq]
    rw [hq.rest]
  · intro c; rw [hcore]; exact hq.core c
  · intro c k; rw [hslot]; exact hq.slot c k
  · intro g v hv
    show wordMarked (modCtx _ _ _) g v = _
    rw [wordMarked_modCtx hF]
    exact hq.marks g v hv
  · intro v _ hv hpc; rw [hr]; exact hq.kept v (by tauto)
  · intro g hg ht v _; rw [hr]; exact hq.others g hg ht v
  · show Machine.ctxOf (modCtx _ _ _) f = _
    rw [ctxOf_modCtx_eq, hq.ctxOf]
  · intro g hg
    show Machine.ctxOf (modCtx _ _ _) g = _
    rw [ctxOf_modCtx_ne hg, hq.ctxOf]
  · show (modCtx (writeFrame t f wPc t.iss.next) _ _).iss.next = _
    rw [modCtx_eq]
    show (writeFrame t f wPc t.iss.next).iss.next = _
    rw [hq.iss]
  · intro g hg
    have hi : t.iss.next = s.iss.next := by rw [b.iss]
    have hself : readFrame (writeFrame t f wPc t.iss.next) g wPc = t.iss.next := by
      rcases hg with rfl | hg
      · exact e
      · rw [et g (by rw [b.twinOf]; exact hg)]; rfl
    refine ⟨?_, ?_⟩
    · unfold ctxPc; rw [hr, hself, hi]
    · intro v hv
      rw [hr]
      rcases hg with rfl | hg
      · exact p.kept v hv
      · exact p.twin g (by rw [b.twinOf]; exact hg) v hv

/-- An instruction that writes one register and ends. -/
theorem finishReg_sets {i : Instr} {h : Hdr} {d : BitVec 8} {v : Nat} (hb : bound s f = true)
    (he : exec i s = .next (finishReg h d v f s)) : SetsReg i h d v s f := by
  obtain ⟨b, e⟩ := writeReg_spec hb d v
  have hpc : ¬ regHas d wPc := by
    have := regWords_bound d
    simp only [regHas, wPc]
    omega
  obtain ⟨w, hn, hall⟩ := finish_wrote (h := h) hb b
  have hread : ∀ g, g = f ∨ twinOf s f = some g →
      readReg (finishReg h d v f s) g d = regValue d v := by
    intro g hg
    rw [← e g hg]
    apply readReg_of_frame
    intro k hk
    exact (hall g hg).2 k (by rintro rfl; exact hpc hk)
  exact ⟨_, he, w, hn, hread f (.inl rfl), (hall f (.inl rfl)).1, fun g hg => ⟨hread g (.inr hg), (hall g (.inr hg)).1⟩⟩

/-! Long results. -/

theorem entryOf_of_frame {k : Nat} (h : readFrame t g (102 + k / 2) = readFrame s f (102 + k / 2)) :
    entryOf t g k = entryOf s f k := by
  unfold entryOf; rw [h]

/-- An entry of the pending long results written. -/
theorem setEntry_spec {e v : Nat} (hb : bound s f = true) (he : e < 16) (hv : v < 2 ^ 32) :
    Banked s (setEntry s f e v) f (· = 102 + e / 2) ∧ entryOf (setEntry s f e v) f e = v ∧
      ∀ k, k < 16 → k ≠ e → entryOf (setEntry s f e v) f k = entryOf s f k := by
  obtain ⟨b, r, -⟩ := writePart_spec hb (w := 102 + e / 2)
    (x := BitVec.ofNat 64 (putBits (readFrame s f (102 + e / 2)).toNat (32 * (e % 2) + 31) (32 * (e % 2)) v)) (by omega)
  have hlt : putBits (readFrame s f (102 + e / 2)).toNat (32 * (e % 2) + 31) (32 * (e % 2)) v < 2 ^ 64 :=
    putBits_lt (BitVec.isLt _) (by omega) (by omega)
  refine ⟨b, ?_, ?_⟩
  · unfold entryOf setEntry
    rw [r, BitVec.toNat_ofNat, Nat.mod_eq_of_lt hlt, bitsOf_putBits_same _ _ _ _ (by omega)]
    rw [show 32 * (e % 2) + 31 + 1 - 32 * (e % 2) = 32 by omega]
    exact Nat.mod_eq_of_lt hv
  · intro k hk hne
    by_cases hw : k / 2 = e / 2
    · unfold entryOf setEntry
      rw [hw, r, BitVec.toNat_ofNat, Nat.mod_eq_of_lt hlt, bitsOf_putBits_other _ _ _ _ _ _ (by omega) (by omega)]
    · exact entryOf_of_frame (b.kept _ (by omega))

theorem freeEntry_lt {e : Nat} (h : freeEntry s f = some e) : e < 16 := by
  have := List.mem_of_find?_eq_some h
  rw [upFrom_eq, List.mem_map] at this
  obtain ⟨k, hk, rfl⟩ := this
  simpa using hk

/-- The end of an instruction whose frame writes lie beside other changes of the machine. -/
theorem finish_wrote_beside {h : Hdr} {u v : State} (hb : bound u f = true) (b : Banked u v f ws) (hn : u.iss.next = s.iss.next) :
    Wrote u (finish h f v) f h ws ∧ ctxPc (finish h f v) f = s.iss.next ∧
      ∀ w, w ≠ wPc → readFrame (finish h f v) f w = readFrame v f w := by
  obtain ⟨w, -, hall⟩ := finish_wrote (h := h) hb b
  exact ⟨w, by rw [(hall f (.inl rfl)).1, hn], (hall f (.inl rfl)).2⟩

/-- An instruction whose long result is fixed at issue (R40, R41). -/
theorem finishLong_sends {i : Instr} {h : Hdr} {d : BitVec 8} {v e : Nat} (hb : bound s f = true)
    (hf : freeEntry s f = some e) (he : exec i s = .next (finishLong h d v f s)) :
    SendsResult i h d 0 [regWrite d v] [] s s f := by
  have hlt := freeEntry_lt hf
  obtain ⟨b, r, ro⟩ := setEntry_spec (v := 2 ^ 31 + (0 : BitVec 8).toNat * 2 ^ 8 + d.toNat) hb hlt
    (by have := d.isLt; simp; omega)
  have b' : Banked (withRet s f e [regWrite d v] []) (sendResult (openEntry s f e d 0) f e [regWrite d v] []) f
      (· = 102 + e / 2) := by
    have e1 := b.rest
    refine ⟨?_, b.core, b.slot, b.kept, b.twin, b.others, b.marks⟩
    unfold sendResult withRet openEntry
    rw [e1]
  obtain ⟨w, p, k⟩ := finish_wrote_beside (s := s) (h := h) (u := withRet s f e [regWrite d v] []) hb b' rfl
  refine ⟨e, hf, _, he, ?_⟩
  unfold finishLong withEntry
  simp only [hf]
  refine ⟨w, p, ?_, ?_⟩
  · rw [← r]; exact entryOf_of_frame (k _ (by simp only [wPc]; omega))
  · intro j hj hne
    rw [← ro j hj hne]; exact entryOf_of_frame (k _ (by simp only [wPc]; omega))

end Sys2Proof.Machine
end

