-- ==== Sys2Proof/Laws/Issue.lean ====
section
/-! SUPPORT. Laws of an issue: each way that `withIssue` and `withVector` end. -/

namespace Sys2Proof.Machine

set_option Elab.async false

variable {i : Instr} {h : Hdr} {specs : List (BitVec 8)} {s : State} {f : Nat} {body : Nat → State → State}

/-- Where none of the words is poisoned the instruction goes on (R388). -/
theorem unmarked_clean {ws : List Nat} {b : State → State} (h : markedWord s f ws = none) : unmarked f ws s b = b s := by
  simp only [unmarked, h]

theorem markedWord_append {a b : List Nat} (h : markedWord s f (a ++ b) = none) : markedWord s f a = none ∧ markedWord s f b = none := by
  simp only [markedWord, List.find?_eq_none] at h ⊢
  exact ⟨fun w hw => h w (List.mem_append.mpr (.inl hw)), fun w hw => h w (List.mem_append.mpr (.inr hw))⟩

theorem issues_bound {ws : List Nat} (hc : issues i ws s f = true) : bound s f = true := by
  simp only [issues, Bool.and_eq_true] at hc
  exact hc.1.1.1

theorem mayIssue_bound (hc : mayIssue i h specs s f = true) : bound s f = true := issues_bound hc

theorem canIssue_bound (hc : canIssue i h specs s f = true) : bound s f = true := by
  simp only [canIssue, Bool.and_eq_true] at hc
  exact mayIssue_bound hc.1

/-- A context that can issue carries out the instruction's own effect. -/
theorem withIssue_next (hc : canIssue i h specs s f = true) : withIssue i h specs s body = .next (body f s) := by
  simp only [canIssue, mayIssue, issues, Bool.and_eq_true, beq_iff_eq, Option.isNone_iff_eq_none] at hc
  obtain ⟨⟨⟨⟨_, hi⟩, hl⟩, hp⟩, hg⟩ := hc
  obtain ⟨hp1, hp2⟩ := markedWord_append hp
  simp only [withIssue, hi, hl, hg, unmarked_clean hp1, unmarked_clean hp2, Bool.not_true, Bool.false_eq_true, if_false]

/-- A vector instruction carries out its own effect under any mask (R56), where every word that it may read is clean. -/
theorem withVector_next {reads : Nat → State → Nat → List Nat}
    (hs : ∀ m, ∀ v ∈ reads f s m, v ∈ specs.flatMap readWords) (hc : canVector i h specs s f = true) :
    withVector i h reads s body = .next (body f s) := by
  simp only [canVector, issues, Bool.and_eq_true, beq_iff_eq, Option.isNone_iff_eq_none, Bool.not_eq_true'] at hc
  obtain ⟨⟨⟨⟨_, hi⟩, hl⟩, hp⟩, hg⟩ := hc
  obtain ⟨hp1, hp2⟩ := markedWord_append hp
  have hn : ¬ (h.pg = 0 ∧ h.pn = true) := by
    rintro ⟨e1, e2⟩
    simp [e1, e2] at hg
  have hr : ∀ m, markedWord s f (reads f s m) = none := fun m => by
    simp only [markedWord, List.find?_eq_none] at hp2 ⊢
    exact fun v hv => hp2 v (hs m v hv)
  simp only [withVector, hi, hl, if_neg hn, unmarked_clean hp1, unmarked_clean (hr _), Bool.not_true, Bool.false_eq_true, if_false]

/-- Under the code that is never true a vector instruction has no effect (R56). -/
theorem withVector_never {reads : Nat → State → Nat → List Nat} (hc : neverVector i h s f = true) :
    withVector i h reads s body = .next (finish h f s) := by
  simp only [neverVector, issues, Bool.and_eq_true, beq_iff_eq] at hc
  obtain ⟨⟨⟨⟨⟨_, hi⟩, hl⟩, _⟩, hg⟩, hn⟩ := hc
  simp only [withVector, hi, hl, hg, hn, and_self, Bool.not_true, Bool.false_eq_true, if_false, if_true]

/-- A word that is no instruction traps (R68). -/
theorem withIssue_illegal (hi : issuer s = some f) (hl : legal i = false) :
    withIssue i h specs s body = .next (trapNow 0x01 0 0 f s) := by
  simp only [withIssue, hi, hl, Bool.not_false, if_true]

/-- A false guard leaves only the end of the issue (R56). -/
theorem withIssue_guardFalse (hc : mayIssue i h [] s f = true) (hg : guardTrue s f h = false) :
    withIssue i h specs s body = .next (finish h f s) := by
  simp only [mayIssue, issues, Bool.and_eq_true, beq_iff_eq, Option.isNone_iff_eq_none] at hc
  obtain ⟨⟨⟨_, hi⟩, hl⟩, hp⟩ := hc
  simp only [withIssue, hi, hl, hg, unmarked_clean (markedWord_append hp).1, Bool.not_true, Bool.not_false, Bool.false_eq_true,
    if_false, if_true]

end Sys2Proof.Machine
end

