-- ==== Sys2Proof/Laws/Memory.lean ====
section
/-! SUPPORT. Laws of memory: a byte read after a write, and that every write keeps the canonical form. -/

namespace Sys2Proof.Machine

set_option Elab.async false

variable {s : State} {m : List Host.Cell} {k n v a : Nat} {b : Byte}

theorem writeByte_wf (h : Memory.wf m = true) : Memory.wf (writeByte m k b) = true := SMap.wf_set h

theorem putBytes_wf (h : Memory.wf m = true) : Memory.wf (putBytes m k n v) = true := by
  induction n generalizing m k v with
  | zero => exact h
  | succ n ih => exact ih (writeByte_wf h)

theorem get_putBytes_outside (ha : a < k ∨ k + n ≤ a) : SMap.get 0 (putBytes m k n v) a = SMap.get 0 m a := by
  induction n generalizing m k v with
  | zero => rfl
  | succ n ih =>
    rw [putBytes, ih (by omega)]
    exact SMap.get_set_ne (by omega)

theorem get_putBytes_inside {j : Nat} (hj : j < n) :
    SMap.get 0 (putBytes m k n v) (k + j) = BitVec.ofNat 8 (v / 256 ^ j) := by
  induction n generalizing m k v j with
  | zero => omega
  | succ n ih =>
    rw [putBytes]
    cases j with
    | zero =>
      rw [get_putBytes_outside (by omega), Nat.pow_zero, Nat.div_one]
      exact SMap.get_set_eq
    | succ j =>
      rw [show k + (j + 1) = k + 1 + j by omega, ih (by omega), pow_succ', Nat.div_div_eq_div_mul]

theorem foldl_mark_wf (l : List Nat) {p : SMap Bool} (h : SMap.wf false p = true) (x : Bool) :
    SMap.wf false (l.foldl (fun m w => SMap.set false m w x) p) = true := by
  induction l generalizing p with
  | nil => exact h
  | cons w t ih => exact ih (SMap.wf_set h)

theorem tidyMemory_writeBytes (h : tidyMemory s = true) : tidyMemory (writeBytes s k n v) = true := by
  simp only [tidyMemory, Bool.and_eq_true] at h ⊢
  exact ⟨⟨putBytes_wf h.1.1, h.1.2⟩, foldl_mark_wf _ h.2 _⟩

theorem tidyMemory_setFull (h : tidyMemory s = true) (x : Bool) : tidyMemory (setFull s k x) = true := by
  simp only [tidyMemory, Bool.and_eq_true] at h ⊢
  exact ⟨⟨h.1.1, SMap.wf_set h.1.2⟩, h.2⟩

/-- Bytes written are read back, and no other byte changes (R2). -/
theorem writeBytes_stored : Stored s (writeBytes s k n v) k n v := by
  exact ⟨fun j hj => get_putBytes_inside hj, fun a ha => get_putBytes_outside ha⟩

theorem readBytes_lt : readBytes s k n < 256 ^ n := by
  induction n generalizing k with
  | zero => simp [readBytes]
  | succ n ih =>
    have := (readByte s k).isLt
    have := ih (k := k + 1)
    rw [readBytes, pow_succ']
    omega

/-- A whole value read after it was written. -/
theorem readBytes_writeBytes : readBytes (writeBytes s k n v) k n = v % 256 ^ n := by
  have key : ∀ n v k (t : State), (∀ j, j < n → readByte t (k + j) = BitVec.ofNat 8 (v / 256 ^ j)) →
      readBytes t k n = v % 256 ^ n := by
    intro n
    induction n with
    | zero => intro v k t _; simp [readBytes, Nat.mod_one]
    | succ n ih =>
      intro v k t ht
      have h0 := ht 0 (by omega)
      have h1 := ih (v / 256) (k + 1) t fun j hj => by
        rw [show k + 1 + j = k + (j + 1) by omega, ht (j + 1) (by omega), pow_succ', Nat.div_div_eq_div_mul]
      rw [Nat.add_zero, Nat.pow_zero, Nat.div_one] at h0
      rw [readBytes, h1, h0, BitVec.toNat_ofNat, pow_succ' 256 n]
      exact (Nat.mod_mul (x := v) (a := 256) (b := 256 ^ n)).symm
  exact key n v k _ writeBytes_stored.1

end Sys2Proof.Machine
end

