-- ==== Sys2Proof/Laws/PerInstr.lean ====
section
/-! SUPPORT. The round trip of each instruction: its word decodes to it, every operand at every value. -/

namespace Sys2Proof.Laws

set_option Elab.async false

open Sys2Proof.Machine

/-- Decoding the word of a well-formed instruction gives it back. -/
def RoundTrip.Statement (i : Instr) : Prop :=
  ∀ e : BitVec 96, WellFormed i → encode i = some e → decodeWord e = some i

theorem extract_all {n : Nat} {b : BitVec n} : b.extractLsb' 0 n = b := by
  apply BitVec.eq_of_getLsbD_eq
  intro i hi
  simp [hi]

theorem bit1_one (b : Bool) : (bit1 b == 1#1) = b := by cases b <;> rfl

/-! Fields of an encoded word. -/

theorem hdrOf_encR (op : Nat) (w : RWord) : hdrOf (encR op w) = w.hdr := by
  obtain ⟨⟨fn, sw, pg, pn, ty⟩, q, d, a, b, c, imm⟩ := w
  simp (disch := decide) only [encR, hdrOf, hdrBits, BitVec.extractLsb'_append_eq_of_add_le,
    BitVec.extractLsb'_append_eq_of_le, extract_all, bit1_one, Nat.reduceSub]

theorem rOf_encR (op : Nat) (w : RWord) : rOf (encR op w) = w := by
  obtain ⟨⟨fn, sw, pg, pn, ty⟩, q, d, a, b, c, imm⟩ := w
  simp (disch := decide) only [rOf, encR, hdrOf, hdrBits, BitVec.extractLsb'_append_eq_of_add_le,
    BitVec.extractLsb'_append_eq_of_le, extract_all, bit1_one, Nat.reduceSub]

theorem opOf_encR {op : Nat} (h : op < 256) (w : RWord) : opOf (encR op w) = op := by
  simp (disch := decide) only [opOf, encR, hdrBits, BitVec.extractLsb'_append_eq_of_le, extract_all, Nat.reduceSub]
  rw [BitVec.toNat_ofNat, Nat.mod_eq_of_lt h]

theorem hdrOf_encM (op : Nat) (w : MWord) : hdrOf (encM op w) = w.hdr := by
  obtain ⟨⟨fn, sw, pg, pn, ty⟩, q, d, b, s, sc, x, o⟩ := w
  simp (disch := decide) only [encM, hdrOf, hdrBits, BitVec.extractLsb'_append_eq_of_add_le,
    BitVec.extractLsb'_append_eq_of_le, extract_all, bit1_one, Nat.reduceSub]

theorem mOf_encM (op : Nat) (w : MWord) : mOf (encM op w) = w := by
  obtain ⟨⟨fn, sw, pg, pn, ty⟩, q, d, b, s, sc, x, o⟩ := w
  simp (disch := decide) only [mOf, encM, hdrOf, hdrBits, BitVec.extractLsb'_append_eq_of_add_le,
    BitVec.extractLsb'_append_eq_of_le, extract_all, bit1_one, Nat.reduceSub]

theorem opOf_encM {op : Nat} (h : op < 256) (w : MWord) : opOf (encM op w) = op := by
  simp (disch := decide) only [opOf, encM, hdrBits, BitVec.extractLsb'_append_eq_of_le, extract_all, Nat.reduceSub]
  rw [BitVec.toNat_ofNat, Nat.mod_eq_of_lt h]

theorem hdrOf_encB (op : Nat) (w : BWord) : hdrOf (encB op w) = w.hdr := by
  obtain ⟨⟨fn, sw, pg, pn, ty⟩, l, c, d, s⟩ := w
  simp (disch := decide) only [encB, hdrOf, hdrBits, BitVec.extractLsb'_append_eq_of_add_le,
    BitVec.extractLsb'_append_eq_of_le, extract_all, bit1_one, Nat.reduceSub]

theorem bOf_encB (op : Nat) (w : BWord) : bOf (encB op w) = w := by
  obtain ⟨⟨fn, sw, pg, pn, ty⟩, l, c, d, s⟩ := w
  simp (disch := decide) only [bOf, encB, hdrOf, hdrBits, BitVec.extractLsb'_append_eq_of_add_le,
    BitVec.extractLsb'_append_eq_of_le, extract_all, bit1_one, Nat.reduceSub]

theorem bClean_encB (op : Nat) (w : BWord) : bClean (encB op w) = true := by
  simp (disch := decide) only [bClean, encB, hdrBits, BitVec.extractLsb'_append_eq_of_add_le,
    BitVec.extractLsb'_append_eq_of_le, extract_all, Nat.reduceSub, beq_self_eq_true, Bool.and_self]

theorem opOf_encB {op : Nat} (h : op < 256) (w : BWord) : opOf (encB op w) = op := by
  simp (disch := decide) only [opOf, encB, hdrBits, BitVec.extractLsb'_append_eq_of_le, extract_all, Nat.reduceSub]
  rw [BitVec.toNat_ofNat, Nat.mod_eq_of_lt h]

theorem hdrOf_encL (op : Nat) (w : LWord) : hdrOf (encL op w) = w.hdr := by
  obtain ⟨⟨fn, sw, pg, pn, ty⟩, d, i⟩ := w
  simp (disch := decide) only [encL, hdrOf, hdrBits, BitVec.extractLsb'_append_eq_of_add_le,
    BitVec.extractLsb'_append_eq_of_le, extract_all, bit1_one, Nat.reduceSub]

theorem lOf_encL (op : Nat) (w : LWord) : lOf (encL op w) = w := by
  obtain ⟨⟨fn, sw, pg, pn, ty⟩, d, i⟩ := w
  simp (disch := decide) only [lOf, encL, hdrOf, hdrBits, BitVec.extractLsb'_append_eq_of_add_le,
    BitVec.extractLsb'_append_eq_of_le, extract_all, bit1_one, Nat.reduceSub]

theorem opOf_encL {op : Nat} (h : op < 256) (w : LWord) : opOf (encL op w) = op := by
  simp (disch := decide) only [opOf, encL, hdrBits, BitVec.extractLsb'_append_eq_of_le, extract_all, Nat.reduceSub]
  rw [BitVec.toNat_ofNat, Nat.mod_eq_of_lt h]

/-! Decoding in parts. -/

theorem decodeWord_of {e : BitVec 96} {i : Instr} (hc : candidate e = some i) (hf : (hdrOf e).fn.toNat < fnCount (opOf e))
    (hb : (isB e && !bClean e) = false) (hl : legal i = true) : decodeWord e = some i := by
  have hf' : ¬ fnCount (opOf e) ≤ (hdrOf e).fn.toNat := by omega
  simp only [decodeWord, decode, hc, hf', if_false, hb, hl, Bool.not_true, Bool.or_self, Bool.false_eq_true]

/-- What an op of format R names. -/
def candR (op : Nat) (w : RWord) : Option Instr :=
  match lookup rTable op with
  | some f => some (f w)
  | none => variantOf op w

theorem decode_R {op : Nat} {w : RWord} {i : Instr} (h8 : op < 256)
    (hop : op ≠ 0x1B ∧ op ≠ 0x20 ∧ op ≠ 0x21 ∧ (lookup mTable op).isNone = true) (hc : candR op w = some i)
    (hf : w.hdr.fn.toNat < fnCount op) (hl : legal i = true) : decodeWord (encR op w) = some i := by
  obtain ⟨h1, h2, h3, h4⟩ := hop
  refine decodeWord_of ?_ (by rw [opOf_encR h8, hdrOf_encR]; exact hf) (by simp [isB, opOf_encR h8, h2, h3]) hl
  rw [Option.isNone_iff_eq_none] at h4
  simp only [candidate, opOf_encR h8, rOf_encR, h1, h2, h3, h4, if_false]
  exact hc

theorem decode_M {op : Nat} {w : MWord} {i : Instr} {f : MWord → Instr} (h8 : op < 256) (hop : op ≠ 0x1B ∧ op ≠ 0x20 ∧ op ≠ 0x21)
    (hc : lookup mTable op = some f) (hi : f w = i) (hf : w.hdr.fn.toNat < fnCount op) (hl : legal i = true) :
    decodeWord (encM op w) = some i := by
  obtain ⟨h1, h2, h3⟩ := hop
  refine decodeWord_of ?_ (by rw [opOf_encM h8, hdrOf_encM]; exact hf) (by simp [isB, opOf_encM h8, h2, h3]) hl
  simp only [candidate, opOf_encM h8, mOf_encM, h1, h2, h3, hc, if_false, hi]

theorem okR_fn {w : RWord} {fn ty : Nat → Bool} {q m : Bool} {d a b c : BitVec 8 → Bool}
    (h : okR w fn ty q d a b c m = true) : fn w.hdr.fn.toNat = true := by
  simp only [okR, Bool.and_eq_true] at h
  exact h.1.1.1.1.1.1.1

theorem okR_imm {w : RWord} {fn ty : Nat → Bool} {q m : Bool} {d a b c : BitVec 8 → Bool}
    (h : okR w fn ty q d a b c m = true) : m = true := by
  simp only [okR, Bool.and_eq_true] at h
  exact h.2

theorem okR_qual {w : RWord} {fn ty : Nat → Bool} {q m : Bool} {d a b c : BitVec 8 → Bool}
    (h : okR w fn ty q d a b c m = true) : q = true := by
  simp only [okR, Bool.and_eq_true] at h
  exact h.1.1.1.1.1.2

theorem okM_fn {w : MWord} {fn ty : Nat → Bool} {q : Bool} {d : BitVec 8 → Bool} (h : okM w fn ty q d = true) :
    fn w.hdr.fn.toNat = true := by
  simp only [okM, Bool.and_eq_true] at h
  exact h.1.1.1.1.1.1

theorem fn_zero {n m : Nat} (h : zeroX n = true) (hm : 0 < m) : n < m := by
  simp only [zeroX, beq_iff_eq] at h
  omega

theorem fn_eq {n k m : Nat} (h : (n == k) = true) (hm : k < m) : n < m := by
  rw [beq_iff_eq] at h
  omega

theorem fn_le {n k m : Nat} (h : decide (n ≤ k) = true) (hm : k < m) : n < m := by
  rw [decide_eq_true_eq] at h
  omega

/-- The `extra` bit of a memory-slice instruction. -/
theorem slice_extra {w : RWord} {k : Nat} {d a b c : BitVec 8 → Bool} {m : Bool} (h : okSlice w k d a b c m = true) :
    qExtra w.qual = k := by
  have := okR_qual h
  simp only [okO, Bool.and_eq_true, beq_iff_eq] at this
  exact this.2

theorem extra_bit {q : BitVec 8} (h : qExtra q = 0 ∨ qExtra q = 1) :
    (q.extractLsb' 0 1 == 1#1) = decide (qExtra q = 1) := by
  revert h
  revert q
  decide

/-! One lemma for each constructor. -/

theorem RoundTrip.add (w : RWord) : RoundTrip.Statement (.add w) := by
  intro e hl h
  obtain rfl := Option.some.inj h
  have hm := hl
  simp only [WellFormed, legal, okInt] at hm
  exact decode_R (by decide) (by decide) rfl (fn_zero (okR_fn hm) (by decide)) hl

theorem RoundTrip.div (w : RWord) : RoundTrip.Statement (.div w) := by
  intro e hl h
  obtain rfl := Option.some.inj h
  have hm := hl
  simp only [WellFormed, legal, okInt] at hm
  exact decode_R (by decide) (by decide) rfl (fn_zero (okR_fn hm) (by decide)) hl

theorem RoundTrip.and (w : RWord) : RoundTrip.Statement (.and w) := by
  intro e hl h
  obtain rfl := Option.some.inj h
  have hm := hl
  simp only [WellFormed, legal, okInt] at hm
  exact decode_R (by decide) (by decide) rfl (fn_zero (okR_fn hm) (by decide)) hl

theorem RoundTrip.shl (w : RWord) : RoundTrip.Statement (.shl w) := by
  intro e hl h
  obtain rfl := Option.some.inj h
  have hm := hl
  simp only [WellFormed, legal, okInt] at hm
  exact decode_R (by decide) (by decide) rfl (fn_zero (okR_fn hm) (by decide)) hl

theorem RoundTrip.bfx (w : RWord) : RoundTrip.Statement (.bfx w) := by
  intro e hl h
  obtain rfl := Option.some.inj h
  have hm := hl
  simp only [WellFormed, legal] at hm
  exact decode_R (by decide) (by decide) rfl (fn_zero (okR_fn hm) (by decide)) hl

theorem RoundTrip.clz (w : RWord) : RoundTrip.Statement (.clz w) := by
  intro e hl h
  obtain rfl := Option.some.inj h
  have hm := hl
  simp only [WellFormed, legal, okCount] at hm
  exact decode_R (by decide) (by decide) rfl (fn_zero (okR_fn hm) (by decide)) hl

theorem RoundTrip.cmp (w : RWord) : RoundTrip.Statement (.cmp w) := by
  intro e hl h
  obtain rfl := Option.some.inj h
  have hm := hl
  simp only [WellFormed, legal] at hm
  exact decode_R (by decide) (by decide) rfl (fn_zero (okR_fn hm) (by decide)) hl

theorem RoundTrip.br (w : BWord) : RoundTrip.Statement (.br w) := by
  intro e hl h
  obtain rfl := Option.some.inj h
  have hm := hl
  simp only [WellFormed, legal, Bool.and_eq_true, beq_iff_eq, fnOf] at hm
  have hf := of_decide_eq_true hm.1.1.1
  refine decodeWord_of ?_ ?_ ?_ hl
  · simp [candidate, opOf_encB, bOf_encB]
  · have : fnCount 0x20 = 3 := by decide
    rw [hdrOf_encB, opOf_encB (by decide), this]; omega
  · simp [bClean_encB]

theorem RoundTrip.trap (w : RWord) : RoundTrip.Statement (.trap w) := by
  intro e hl h
  obtain rfl := Option.some.inj h
  have hm := hl
  simp only [WellFormed, legal, okZ] at hm
  exact decode_R (by decide) (by decide) rfl (fn_zero (okR_fn hm) (by decide)) hl

theorem RoundTrip.exit (w : RWord) : RoundTrip.Statement (.exit w) := by
  intro e hl h
  obtain rfl := Option.some.inj h
  have hm := hl
  simp only [WellFormed, legal, okBare] at hm
  exact decode_R (by decide) (by decide) rfl (fn_zero (okR_fn hm) (by decide)) hl

theorem RoundTrip.ld (w : MWord) : RoundTrip.Statement (.ld w) := by
  intro e hl h
  obtain rfl := Option.some.inj h
  exact decode_M (by decide) (by decide) rfl rfl (fn_zero (okM_fn hl) (by decide)) hl

theorem RoundTrip.ldw (w : MWord) : RoundTrip.Statement (.ldw w) := by
  intro e hl h
  obtain rfl := Option.some.inj h
  exact decode_M (by decide) (by decide) rfl rfl (fn_zero (okM_fn hl) (by decide)) hl

theorem RoundTrip.fence (w : RWord) : RoundTrip.Statement (.fence w) := by
  intro e hl h
  obtain rfl := Option.some.inj h
  have hm := hl
  simp only [WellFormed, legal] at hm
  exact decode_R (by decide) (by decide) rfl (fn_zero (okR_fn hm) (by decide)) hl

theorem RoundTrip.segget (w : RWord) : RoundTrip.Statement (.segget w) := by
  intro e hl h
  obtain rfl := Option.some.inj h
  have hm := hl
  simp only [WellFormed, legal, okZ] at hm
  exact decode_R (by decide) (by decide) rfl (fn_zero (okR_fn hm) (by decide)) hl

theorem RoundTrip.rdtime (w : RWord) : RoundTrip.Statement (.rdtime w) := by
  intro e hl h
  obtain rfl := Option.some.inj h
  have hm := hl
  simp only [WellFormed, legal, okZ] at hm
  exact decode_R (by decide) (by decide) rfl (fn_zero (okR_fn hm) (by decide)) hl

theorem RoundTrip.send (w : RWord) : RoundTrip.Statement (.send w) := by
  intro e hl h
  obtain rfl := Option.some.inj h
  have hm := hl
  simp only [WellFormed, legal] at hm
  exact decode_R (by decide) (by decide) rfl (fn_zero (okR_fn hm) (by decide)) hl

theorem RoundTrip.spawn (w : RWord) : RoundTrip.Statement (.spawn w) := by
  intro e hl h
  obtain rfl := Option.some.inj h
  have hm := hl
  simp only [WellFormed, legal] at hm
  exact decode_R (by decide) (by decide) rfl (fn_zero (okR_fn hm) (by decide)) hl

theorem RoundTrip.bsync (w : RWord) : RoundTrip.Statement (.bsync w) := by
  intro e hl h
  obtain rfl := Option.some.inj h
  have hm := hl
  simp only [WellFormed, legal] at hm
  exact decode_R (by decide) (by decide) rfl (fn_zero (okR_fn hm) (by decide)) hl

theorem RoundTrip.tfind (w : RWord) : RoundTrip.Statement (.tfind w) := by
  intro e hl h
  obtain rfl := Option.some.inj h
  have hm := hl
  simp only [WellFormed, legal, okTags] at hm
  exact decode_R (by decide) (by decide) rfl (fn_zero (okR_fn hm) (by decide)) hl

theorem RoundTrip.vadd (w : RWord) : RoundTrip.Statement (.vadd w) := by
  intro e hl h
  obtain rfl := Option.some.inj h
  have hm := hl
  simp only [WellFormed, legal, okVArith] at hm
  exact decode_R (by decide) (by decide) rfl (fn_zero (okR_fn hm) (by decide)) hl

theorem RoundTrip.vdiv (w : RWord) : RoundTrip.Statement (.vdiv w) := by
  intro e hl h
  obtain rfl := Option.some.inj h
  have hm := hl
  simp only [WellFormed, legal, okVArith] at hm
  exact decode_R (by decide) (by decide) rfl (fn_zero (okR_fn hm) (by decide)) hl

theorem RoundTrip.vexp2 (w : RWord) : RoundTrip.Statement (.vexp2 w) := by
  intro e hl h
  obtain rfl := Option.some.inj h
  have hm := hl
  simp only [WellFormed, legal, okVFun] at hm
  exact decode_R (by decide) (by decide) rfl (fn_zero (okR_fn hm) (by decide)) hl

theorem RoundTrip.vabs (w : RWord) : RoundTrip.Statement (.vabs w) := by
  intro e hl h
  obtain rfl := Option.some.inj h
  have hm := hl
  simp only [WellFormed, legal] at hm
  exact decode_R (by decide) (by decide) rfl (fn_zero (okR_fn hm) (by decide)) hl

theorem RoundTrip.vbit (w : RWord) : RoundTrip.Statement (.vbit w) := by
  intro e hl h
  obtain rfl := Option.some.inj h
  have hm := hl
  simp only [WellFormed, legal] at hm
  exact decode_R (by decide) (by decide) rfl (fn_le (okR_fn hm) (by decide)) hl

theorem RoundTrip.vgath (w : MWord) : RoundTrip.Statement (.vgath w) := by
  intro e hl h
  obtain rfl := Option.some.inj h
  have hm := hl
  simp only [WellFormed, legal, Bool.and_eq_true] at hm
  exact decode_M (by decide) (by decide) rfl rfl (fn_zero (okM_fn hm.1) (by decide)) hl

theorem RoundTrip.vshuf (w : RWord) : RoundTrip.Statement (.vshuf w) := by
  intro e hl h
  obtain rfl := Option.some.inj h
  have hm := hl
  simp only [WellFormed, legal, okVshuf] at hm
  exact decode_R (by decide) (by decide) rfl (fn_zero (okR_fn hm) (by decide)) hl

theorem RoundTrip.vargmax (w : RWord) : RoundTrip.Statement (.vargmax w) := by
  intro e hl h
  obtain rfl := Option.some.inj h
  have hm := hl
  simp only [WellFormed, legal] at hm
  exact decode_R (by decide) (by decide) rfl (fn_zero (okR_fn hm) (by decide)) hl

theorem RoundTrip.mzero (w : RWord) : RoundTrip.Statement (.mzero w) := by
  intro e hl h
  obtain rfl := Option.some.inj h
  have hm := hl
  simp only [WellFormed, legal] at hm
  exact decode_R (by decide) (by decide) rfl (fn_zero (okR_fn hm) (by decide)) hl

theorem RoundTrip.marm (w : RWord) : RoundTrip.Statement (.marm w) := by
  intro e hl h
  obtain rfl := Option.some.inj h
  have hm := hl
  simp only [WellFormed, legal] at hm
  exact decode_R (by decide) (by decide) rfl (fn_zero (okR_fn hm) (by decide)) hl

theorem RoundTrip.walk (w : RWord) : RoundTrip.Statement (.walk w) := by
  intro e hl h
  obtain rfl := Option.some.inj h
  have hm := hl
  simp only [WellFormed, legal] at hm
  exact decode_R (by decide) (by decide) rfl (fn_zero (okR_fn hm) (by decide)) hl

theorem RoundTrip.cpy (w : RWord) : RoundTrip.Statement (.cpy w) := by
  intro e hl h
  obtain rfl := Option.some.inj h
  have hm := hl
  simp only [WellFormed, legal] at hm
  exact decode_R (by decide) (by decide) rfl (fn_zero (okR_fn hm) (by decide)) hl

theorem RoundTrip.cfill (w : RWord) : RoundTrip.Statement (.cfill w) := by
  intro e hl h
  obtain rfl := Option.some.inj h
  have hm := hl
  simp only [WellFormed, legal] at hm
  exact decode_R (by decide) (by decide) rfl (fn_zero (okR_fn hm) (by decide)) hl

theorem RoundTrip.pfr (w : RWord) : RoundTrip.Statement (.pfr w) := by
  intro e hl h
  obtain rfl := Option.some.inj h
  have hm := hl
  simp only [WellFormed, legal] at hm
  have hx := slice_extra hm
  exact decode_R (by decide) (by decide) (by simp [candR, rTable, rTable0, rTable1, rTable2, rTable3, lookup, variantOf, extra_bit, hx]) (fn_zero (okR_fn hm) (by decide)) hl

theorem RoundTrip.secpin (w : RWord) : RoundTrip.Statement (.secpin w) := by
  intro e hl h
  obtain rfl := Option.some.inj h
  have hm := hl
  simp only [WellFormed, legal] at hm
  have hx := slice_extra hm
  exact decode_R (by decide) (by decide) (by simp [candR, rTable, rTable0, rTable1, rTable2, rTable3, lookup, variantOf, extra_bit, hx]) (fn_zero (okR_fn hm) (by decide)) hl

theorem RoundTrip.caprecv (w : RWord) : RoundTrip.Statement (.caprecv w) := by
  intro e hl h
  obtain rfl := Option.some.inj h
  have hm := hl
  simp only [WellFormed, legal, okCap] at hm
  exact decode_R (by decide) (by decide) rfl (fn_eq (k := 0) (okR_fn hm) (by decide)) hl

theorem RoundTrip.capskip (w : RWord) : RoundTrip.Statement (.capskip w) := by
  intro e hl h
  obtain rfl := Option.some.inj h
  have hm := hl
  simp only [WellFormed, legal, okCap] at hm
  have hf := okR_fn hm
  simp only [beq_iff_eq] at hf
  exact decode_R (by decide) (by decide) (by simp [candR, rTable, rTable0, rTable1, rTable2, rTable3, lookup, variantOf, hf]) (by rw [hf]; decide) hl

theorem RoundTrip.exq (w : RWord) : RoundTrip.Statement (.exq w) := by
  intro e hl h
  obtain rfl := Option.some.inj h
  have hm := hl
  simp only [WellFormed, legal, okCap] at hm
  have hf := okR_fn hm
  simp only [beq_iff_eq] at hf
  exact decode_R (by decide) (by decide) (by simp [candR, rTable, rTable0, rTable1, rTable2, rTable3, lookup, variantOf, hf]) (by rw [hf]; decide) hl

theorem RoundTrip.exevict (w : RWord) : RoundTrip.Statement (.exevict w) := by
  intro e hl h
  obtain rfl := Option.some.inj h
  have hm := hl
  simp only [WellFormed, legal, okCap] at hm
  have hf := okR_fn hm
  simp only [beq_iff_eq] at hf
  exact decode_R (by decide) (by decide) (by simp [candR, rTable, rTable0, rTable1, rTable2, rTable3, lookup, variantOf, hf]) (by rw [hf]; decide) hl

theorem RoundTrip.lineRefetch (core slot : Nat) : RoundTrip.Statement (.lineRefetch core slot) := by
  intro e _ h
  cases h

theorem RoundTrip.instructionFetchComplete (core slot : Nat) : RoundTrip.Statement (.instructionFetchComplete core slot) := by
  intro e _ h
  cases h

theorem RoundTrip.longResultReturn (n : Nat) : RoundTrip.Statement (.longResultReturn n) := by
  intro e _ h
  cases h

theorem RoundTrip.trapEntry (core slot : Nat) : RoundTrip.Statement (.trapEntry core slot) := by
  intro e _ h
  cases h

theorem RoundTrip.windowLoadServe (n : Nat) : RoundTrip.Statement (.windowLoadServe n) := by
  intro e _ h
  cases h

theorem RoundTrip.remoteStoreApply (core entry part : Nat) : RoundTrip.Statement (.remoteStoreApply core entry part) := by
  intro e _ h
  cases h

theorem RoundTrip.remoteAtomicApply (n : Nat) : RoundTrip.Statement (.remoteAtomicApply n) := by
  intro e _ h
  cases h

theorem RoundTrip.journalAck (core entry : Nat) : RoundTrip.Statement (.journalAck core entry) := by
  intro e _ h
  cases h

theorem RoundTrip.journalRefusal (core entry : Nat) : RoundTrip.Statement (.journalRefusal core entry) := by
  intro e _ h
  cases h

theorem RoundTrip.releaseStoreSend (core entry : Nat) : RoundTrip.Statement (.releaseStoreSend core entry) := by
  intro e _ h
  cases h

theorem RoundTrip.releaseMessageSend (n : Nat) : RoundTrip.Statement (.releaseMessageSend n) := by
  intro e _ h
  cases h

theorem RoundTrip.messageArrival (n : Nat) : RoundTrip.Statement (.messageArrival n) := by
  intro e _ h
  cases h

theorem RoundTrip.taskQueueEntryArrival (n : Nat) : RoundTrip.Statement (.taskQueueEntryArrival n) := by
  intro e _ h
  cases h

theorem RoundTrip.taskQueueHelperStart (core : Nat) : RoundTrip.Statement (.taskQueueHelperStart core) := by
  intro e _ h
  cases h

theorem RoundTrip.barrierArrival (n : Nat) : RoundTrip.Statement (.barrierArrival n) := by
  intro e _ h
  cases h

theorem RoundTrip.timeSliceEnd (core : Nat) : RoundTrip.Statement (.timeSliceEnd core) := by
  intro e _ h
  cases h

theorem RoundTrip.preemptionRequest (core : Nat) : RoundTrip.Statement (.preemptionRequest core) := by
  intro e _ h
  cases h

theorem RoundTrip.graceWindowExpiry (core : Nat) : RoundTrip.Statement (.graceWindowExpiry core) := by
  intro e _ h
  cases h

theorem RoundTrip.shadowBankLoadComplete (core slot : Nat) : RoundTrip.Statement (.shadowBankLoadComplete core slot) := by
  intro e _ h
  cases h

theorem RoundTrip.bankExchange (core : Nat) : RoundTrip.Statement (.bankExchange core) := by
  intro e _ h
  cases h

theorem RoundTrip.spillComplete (core slot : Nat) : RoundTrip.Statement (.spillComplete core slot) := by
  intro e _ h
  cases h

theorem RoundTrip.accumulatorSave (core : Nat) : RoundTrip.Statement (.accumulatorSave core) := by
  intro e _ h
  cases h

theorem RoundTrip.accumulatorRestore (core : Nat) : RoundTrip.Statement (.accumulatorRestore core) := by
  intro e _ h
  cases h

theorem RoundTrip.contextSavedReport (frame : Nat) : RoundTrip.Statement (.contextSavedReport frame) := by
  intro e _ h
  cases h

theorem RoundTrip.tlbMissWalk (n : Nat) : RoundTrip.Statement (.tlbMissWalk n) := by
  intro e _ h
  cases h

theorem RoundTrip.faultReply (part : Nat) : RoundTrip.Statement (.faultReply part) := by
  intro e _ h
  cases h

theorem RoundTrip.mailboxPost : RoundTrip.Statement (.mailboxPost) := by
  intro e _ h
  cases h

theorem RoundTrip.launchAdmission (die : Nat) : RoundTrip.Statement (.launchAdmission die) := by
  intro e _ h
  cases h

theorem RoundTrip.admissionResume (n : Nat) : RoundTrip.Statement (.admissionResume n) := by
  intro e _ h
  cases h

theorem RoundTrip.gangBindRelease (n : Nat) : RoundTrip.Statement (.gangBindRelease n) := by
  intro e _ h
  cases h

theorem RoundTrip.deadlinePass (n : Nat) : RoundTrip.Statement (.deadlinePass n) := by
  intro e _ h
  cases h

theorem RoundTrip.hostDoorbell (queue : Nat) (value : Doorbell) : RoundTrip.Statement (.hostDoorbell queue value) := by
  intro e _ h
  cases h

theorem RoundTrip.partitionCreate : RoundTrip.Statement (.partitionCreate) := by
  intro e _ h
  cases h

theorem RoundTrip.partitionDestroy : RoundTrip.Statement (.partitionDestroy) := by
  intro e _ h
  cases h

theorem RoundTrip.partitionSet : RoundTrip.Statement (.partitionSet) := by
  intro e _ h
  cases h

theorem RoundTrip.repairPin (part : Nat) : RoundTrip.Statement (.repairPin part) := by
  intro e _ h
  cases h

theorem RoundTrip.repairFuse (part : Nat) : RoundTrip.Statement (.repairFuse part) := by
  intro e _ h
  cases h

theorem RoundTrip.repairUnpin (part : Nat) : RoundTrip.Statement (.repairUnpin part) := by
  intro e _ h
  cases h

theorem RoundTrip.warmReset (part : Nat) : RoundTrip.Statement (.warmReset part) := by
  intro e _ h
  cases h

theorem RoundTrip.dieReadmit (die : Nat) (img : Option FwImage) : RoundTrip.Statement (.dieReadmit die img) := by
  intro e _ h
  cases h

theorem RoundTrip.linkInjectorSet (part : Nat) : RoundTrip.Statement (.linkInjectorSet part) := by
  intro e _ h
  cases h

theorem RoundTrip.injectorFire (link : Nat) : RoundTrip.Statement (.injectorFire link) := by
  intro e _ h
  cases h

theorem RoundTrip.flitArrival (link epoch : Nat) (flit : BitVec 256) : RoundTrip.Statement (.flitArrival link epoch flit) := by
  intro e _ h
  cases h

theorem RoundTrip.nackReplay (link : Nat) (seq : BitVec 12) : RoundTrip.Statement (.nackReplay link seq) := by
  intro e _ h
  cases h

theorem RoundTrip.linkDown (link : Nat) : RoundTrip.Statement (.linkDown link) := by
  intro e _ h
  cases h

theorem RoundTrip.linkTraining (link version : Nat) (features : BitVec 32) : RoundTrip.Statement (.linkTraining link version features) := by
  intro e _ h
  cases h

theorem RoundTrip.routeChange (src dst : Nat) : RoundTrip.Statement (.routeChange src dst) := by
  intro e _ h
  cases h

theorem RoundTrip.correctedErrorThreshold (slice : Bool) (unit count : Nat) : RoundTrip.Statement (.correctedErrorThreshold slice unit count) := by
  intro e _ h
  cases h

theorem RoundTrip.storeApplyHome (n : Nat) : RoundTrip.Statement (.storeApplyHome n) := by
  intro e _ h
  cases h

theorem RoundTrip.lineFillServe (n : Nat) : RoundTrip.Statement (.lineFillServe n) := by
  intro e _ h
  cases h

theorem RoundTrip.bankModeSwitchComplete (cluster bank : Nat) : RoundTrip.Statement (.bankModeSwitchComplete cluster bank) := by
  intro e _ h
  cases h

theorem RoundTrip.pfrComplete (core n : Nat) : RoundTrip.Statement (.pfrComplete core n) := by
  intro e _ h
  cases h

theorem RoundTrip.gangStart (core : Nat) : RoundTrip.Statement (.gangStart core) := by
  intro e _ h
  cases h

theorem RoundTrip.matrixStep (core : Nat) : RoundTrip.Statement (.matrixStep core) := by
  intro e _ h
  cases h

theorem RoundTrip.walkRound (core : Nat) : RoundTrip.Statement (.walkRound core) := by
  intro e _ h
  cases h

theorem RoundTrip.copyCommandStart (core : Nat) : RoundTrip.Statement (.copyCommandStart core) := by
  intro e _ h
  cases h

theorem RoundTrip.copyRow (core : Nat) : RoundTrip.Statement (.copyRow core) := by
  intro e _ h
  cases h

theorem RoundTrip.capsuleDieIngress (n : Nat) : RoundTrip.Statement (.capsuleDieIngress n) := by
  intro e _ h
  cases h

theorem RoundTrip.capsuleCoreIngress (n : Nat) : RoundTrip.Statement (.capsuleCoreIngress n) := by
  intro e _ h
  cases h

theorem RoundTrip.residencyMissResend (expert : Nat) : RoundTrip.Statement (.residencyMissResend expert) := by
  intro e _ h
  cases h

theorem RoundTrip.sluiceReoffer (expert : Nat) : RoundTrip.Statement (.sluiceReoffer expert) := by
  intro e _ h
  cases h

theorem RoundTrip.sluiceReofferTimer (expert : Nat) : RoundTrip.Statement (.sluiceReofferTimer expert) := by
  intro e _ h
  cases h

theorem RoundTrip.residencyBroadcastApply (die expert : Nat) : RoundTrip.Statement (.residencyBroadcastApply die expert) := by
  intro e _ h
  cases h

theorem RoundTrip.trctlWrite (w : RWord) : RoundTrip.Statement (.trctlWrite w) := by
  intro e hl h
  obtain rfl := Option.some.inj h
  have hm := hl
  simp only [WellFormed, legal, okZ] at hm
  have hq := okR_fn hm
  replace hm := okR_imm hm
  rw [beq_iff_eq] at hm
  exact decode_R (by decide) (by decide) (by simp [candR, rTable, rTable0, rTable1, rTable2, rTable3, lookup, variantOf, wrsysOf, hm]) (fn_zero hq (by decide)) hl

theorem RoundTrip.lfsrWrite (w : RWord) : RoundTrip.Statement (.lfsrWrite w) := by
  intro e hl h
  obtain rfl := Option.some.inj h
  have hm := hl
  simp only [WellFormed, legal, okZ] at hm
  have hq := okR_fn hm
  replace hm := okR_imm hm
  rw [beq_iff_eq] at hm
  exact decode_R (by decide) (by decide) (by simp [candR, rTable, rTable0, rTable1, rTable2, rTable3, lookup, variantOf, wrsysOf, hm]) (fn_zero hq (by decide)) hl

theorem RoundTrip.engbindWrite (w : RWord) : RoundTrip.Statement (.engbindWrite w) := by
  intro e hl h
  obtain rfl := Option.some.inj h
  have hm := hl
  simp only [WellFormed, legal, okZ] at hm
  have hq := okR_fn hm
  replace hm := okR_imm hm
  rw [beq_iff_eq] at hm
  exact decode_R (by decide) (by decide) (by simp [candR, rTable, rTable0, rTable1, rTable2, rTable3, lookup, variantOf, wrsysOf, hm]) (fn_zero hq (by decide)) hl

theorem RoundTrip.statusPmaskWrite (w : RWord) : RoundTrip.Statement (.statusPmaskWrite w) := by
  intro e hl h
  obtain rfl := Option.some.inj h
  have hm := hl
  simp only [WellFormed, legal, okZ] at hm
  have hq := okR_fn hm
  replace hm := okR_imm hm
  rw [beq_iff_eq] at hm
  exact decode_R (by decide) (by decide) (by simp [candR, rTable, rTable0, rTable1, rTable2, rTable3, lookup, variantOf, wrsysOf, hm]) (fn_zero hq (by decide)) hl

theorem RoundTrip.governorTick (watts : Nat) : RoundTrip.Statement (.governorTick watts) := by
  intro e _ h
  cases h

theorem RoundTrip.thermalThrottle (cluster : Nat) : RoundTrip.Statement (.thermalThrottle cluster) := by
  intro e _ h
  cases h

theorem RoundTrip.thermalShutdown : RoundTrip.Statement (.thermalShutdown) := by
  intro e _ h
  cases h

theorem RoundTrip.powerOnReset (chief d0 d1 d2 d3 : Option FwImage) : RoundTrip.Statement (.powerOnReset chief d0 d1 d2 d3) := by
  intro e _ h
  cases h

theorem RoundTrip.attestationRequest (nonce : BitVec 256) : RoundTrip.Statement (.attestationRequest nonce) := by
  intro e _ h
  cases h

theorem RoundTrip.notAnInstructionIssue (word : BitVec 96) : RoundTrip.Statement (.notAnInstructionIssue word) := by
  intro e _ h
  cases h

theorem RoundTrip.junctionBelow95c (cluster : Nat) : RoundTrip.Statement (.junctionBelow95c cluster) := by
  intro e _ h
  cases h

theorem RoundTrip.sectorWriteBackComplete (n : Nat) : RoundTrip.Statement (.sectorWriteBackComplete n) := by
  intro e _ h
  cases h

theorem RoundTrip.tlbDropComplete (n : Nat) : RoundTrip.Statement (.tlbDropComplete n) := by
  intro e _ h
  cases h

end Sys2Proof.Laws
end

