-- ==== Sys2Proof/Laws/State.lean ====
section
/-! SUPPORT. Each named update of State leaves every field alone but its own: one lemma a field and update. -/

namespace Sys2Proof.Machine

set_option Elab.async false

variable {s : State} {c k f a n v : Nat} {x pc nx i0 i1 i2 i3 : Word} {b : Bool} {e : IssueEnd} {w : BitVec 96} {o : Option Ctx}
  {G : Core → Core} {GS : Slot → Slot} {GT : Task → Task} {GB : Bind → Bind} {GC : Cluster → Cluster} {GX : Slice → Slice}
  {GD : Die → Die} {GP : Part → Part} {GK : Link → Link} {GE : Expert → Expert} {ws : List RegWrite} {late : List TrapInfo}
  {m : Msg} {lv : BitVec 32} {q : HostQueue} {F : Ctx → Ctx}

/-! modCore -/

@[simp] theorem modCore_time : (modCore s c G).time = s.time := rfl
@[simp] theorem modCore_pkg : (modCore s c G).pkg = s.pkg := rfl
@[simp] theorem modCore_stage : (modCore s c G).stage = s.stage := rfl
@[simp] theorem modCore_powered : (modCore s c G).powered = s.powered := rfl
@[simp] theorem modCore_mem : (modCore s c G).mem = s.mem := rfl
@[simp] theorem modCore_full : (modCore s c G).full = s.full := rfl
@[simp] theorem modCore_poison : (modCore s c G).poison = s.poison := rfl
@[simp] theorem modCore_copyMarks : (modCore s c G).copyMarks = s.copyMarks := rfl
@[simp] theorem modCore_behind : (modCore s c G).behind = s.behind := rfl
@[simp] theorem modCore_racing : (modCore s c G).racing = s.racing := rfl
@[simp] theorem modCore_lfsr : (modCore s c G).lfsr = s.lfsr := rfl
@[simp] theorem modCore_ctxs : (modCore s c G).ctxs = s.ctxs := rfl
@[simp] theorem modCore_clusters : (modCore s c G).clusters = s.clusters := rfl
@[simp] theorem modCore_slices : (modCore s c G).slices = s.slices := rfl
@[simp] theorem modCore_dies : (modCore s c G).dies = s.dies := rfl
@[simp] theorem modCore_experts : (modCore s c G).experts = s.experts := rfl
@[simp] theorem modCore_copies : (modCore s c G).copies = s.copies := rfl
@[simp] theorem modCore_updates : (modCore s c G).updates = s.updates := rfl
@[simp] theorem modCore_parts : (modCore s c G).parts = s.parts := rfl
@[simp] theorem modCore_barriers : (modCore s c G).barriers = s.barriers := rfl
@[simp] theorem modCore_launches : (modCore s c G).launches = s.launches := rfl
@[simp] theorem modCore_outcomes : (modCore s c G).outcomes = s.outcomes := rfl
@[simp] theorem modCore_queues : (modCore s c G).queues = s.queues := rfl
@[simp] theorem modCore_ignored : (modCore s c G).ignored = s.ignored := rfl
@[simp] theorem modCore_links : (modCore s c G).links = s.links := rfl
@[simp] theorem modCore_detours : (modCore s c G).detours = s.detours := rfl
@[simp] theorem modCore_chief : (modCore s c G).chief = s.chief := rfl
@[simp] theorem modCore_power : (modCore s c G).power = s.power := rfl
@[simp] theorem modCore_lowering : (modCore s c G).lowering = s.lowering := rfl
@[simp] theorem modCore_partners : (modCore s c G).partners = s.partners := rfl
@[simp] theorem modCore_podNumber : (modCore s c G).podNumber = s.podNumber := rfl
@[simp] theorem modCore_store : (modCore s c G).store = s.store := rfl
@[simp] theorem modCore_images : (modCore s c G).images = s.images := rfl
@[simp] theorem modCore_report : (modCore s c G).report = s.report := rfl
@[simp] theorem modCore_reqs : (modCore s c G).reqs = s.reqs := rfl
@[simp] theorem modCore_faulted : (modCore s c G).faulted = s.faulted := rfl
@[simp] theorem modCore_wreqs : (modCore s c G).wreqs = s.wreqs := rfl
@[simp] theorem modCore_rets : (modCore s c G).rets = s.rets := rfl
@[simp] theorem modCore_net : (modCore s c G).net = s.net := rfl
@[simp] theorem modCore_arrivals : (modCore s c G).arrivals = s.arrivals := rfl
@[simp] theorem modCore_mail : (modCore s c G).mail = s.mail := rfl
@[simp] theorem modCore_caps : (modCore s c G).caps = s.caps := rfl
@[simp] theorem modCore_flushes : (modCore s c G).flushes = s.flushes := rfl
@[simp] theorem modCore_drops : (modCore s c G).drops = s.drops := rfl
@[simp] theorem modCore_sched : (modCore s c G).sched = s.sched := rfl
@[simp] theorem modCore_turn : (modCore s c G).turn = s.turn := rfl
@[simp] theorem modCore_iss : (modCore s c G).iss = s.iss := rfl
@[simp] theorem modCore_tick : (modCore s c G).tick = s.tick := rfl
@[simp] theorem modCore_ord : (modCore s c G).ord = s.ord := rfl

/-! modSlot -/

@[simp] theorem modSlot_time : (modSlot s c k GS).time = s.time := rfl
@[simp] theorem modSlot_pkg : (modSlot s c k GS).pkg = s.pkg := rfl
@[simp] theorem modSlot_stage : (modSlot s c k GS).stage = s.stage := rfl
@[simp] theorem modSlot_powered : (modSlot s c k GS).powered = s.powered := rfl
@[simp] theorem modSlot_mem : (modSlot s c k GS).mem = s.mem := rfl
@[simp] theorem modSlot_full : (modSlot s c k GS).full = s.full := rfl
@[simp] theorem modSlot_poison : (modSlot s c k GS).poison = s.poison := rfl
@[simp] theorem modSlot_copyMarks : (modSlot s c k GS).copyMarks = s.copyMarks := rfl
@[simp] theorem modSlot_behind : (modSlot s c k GS).behind = s.behind := rfl
@[simp] theorem modSlot_racing : (modSlot s c k GS).racing = s.racing := rfl
@[simp] theorem modSlot_lfsr : (modSlot s c k GS).lfsr = s.lfsr := rfl
@[simp] theorem modSlot_ctxs : (modSlot s c k GS).ctxs = s.ctxs := rfl
@[simp] theorem modSlot_clusters : (modSlot s c k GS).clusters = s.clusters := rfl
@[simp] theorem modSlot_slices : (modSlot s c k GS).slices = s.slices := rfl
@[simp] theorem modSlot_dies : (modSlot s c k GS).dies = s.dies := rfl
@[simp] theorem modSlot_experts : (modSlot s c k GS).experts = s.experts := rfl
@[simp] theorem modSlot_copies : (modSlot s c k GS).copies = s.copies := rfl
@[simp] theorem modSlot_updates : (modSlot s c k GS).updates = s.updates := rfl
@[simp] theorem modSlot_parts : (modSlot s c k GS).parts = s.parts := rfl
@[simp] theorem modSlot_barriers : (modSlot s c k GS).barriers = s.barriers := rfl
@[simp] theorem modSlot_launches : (modSlot s c k GS).launches = s.launches := rfl
@[simp] theorem modSlot_outcomes : (modSlot s c k GS).outcomes = s.outcomes := rfl
@[simp] theorem modSlot_queues : (modSlot s c k GS).queues = s.queues := rfl
@[simp] theorem modSlot_ignored : (modSlot s c k GS).ignored = s.ignored := rfl
@[simp] theorem modSlot_links : (modSlot s c k GS).links = s.links := rfl
@[simp] theorem modSlot_detours : (modSlot s c k GS).detours = s.detours := rfl
@[simp] theorem modSlot_chief : (modSlot s c k GS).chief = s.chief := rfl
@[simp] theorem modSlot_power : (modSlot s c k GS).power = s.power := rfl
@[simp] theorem modSlot_lowering : (modSlot s c k GS).lowering = s.lowering := rfl
@[simp] theorem modSlot_partners : (modSlot s c k GS).partners = s.partners := rfl
@[simp] theorem modSlot_podNumber : (modSlot s c k GS).podNumber = s.podNumber := rfl
@[simp] theorem modSlot_store : (modSlot s c k GS).store = s.store := rfl
@[simp] theorem modSlot_images : (modSlot s c k GS).images = s.images := rfl
@[simp] theorem modSlot_report : (modSlot s c k GS).report = s.report := rfl
@[simp] theorem modSlot_reqs : (modSlot s c k GS).reqs = s.reqs := rfl
@[simp] theorem modSlot_faulted : (modSlot s c k GS).faulted = s.faulted := rfl
@[simp] theorem modSlot_wreqs : (modSlot s c k GS).wreqs = s.wreqs := rfl
@[simp] theorem modSlot_rets : (modSlot s c k GS).rets = s.rets := rfl
@[simp] theorem modSlot_net : (modSlot s c k GS).net = s.net := rfl
@[simp] theorem modSlot_arrivals : (modSlot s c k GS).arrivals = s.arrivals := rfl
@[simp] theorem modSlot_mail : (modSlot s c k GS).mail = s.mail := rfl
@[simp] theorem modSlot_caps : (modSlot s c k GS).caps = s.caps := rfl
@[simp] theorem modSlot_flushes : (modSlot s c k GS).flushes = s.flushes := rfl
@[simp] theorem modSlot_drops : (modSlot s c k GS).drops = s.drops := rfl
@[simp] theorem modSlot_sched : (modSlot s c k GS).sched = s.sched := rfl
@[simp] theorem modSlot_turn : (modSlot s c k GS).turn = s.turn := rfl
@[simp] theorem modSlot_iss : (modSlot s c k GS).iss = s.iss := rfl
@[simp] theorem modSlot_tick : (modSlot s c k GS).tick = s.tick := rfl
@[simp] theorem modSlot_ord : (modSlot s c k GS).ord = s.ord := rfl

/-! modTask -/

@[simp] theorem modTask_time : (modTask s c k GT).time = s.time := rfl
@[simp] theorem modTask_pkg : (modTask s c k GT).pkg = s.pkg := rfl
@[simp] theorem modTask_stage : (modTask s c k GT).stage = s.stage := rfl
@[simp] theorem modTask_powered : (modTask s c k GT).powered = s.powered := rfl
@[simp] theorem modTask_mem : (modTask s c k GT).mem = s.mem := rfl
@[simp] theorem modTask_full : (modTask s c k GT).full = s.full := rfl
@[simp] theorem modTask_poison : (modTask s c k GT).poison = s.poison := rfl
@[simp] theorem modTask_copyMarks : (modTask s c k GT).copyMarks = s.copyMarks := rfl
@[simp] theorem modTask_behind : (modTask s c k GT).behind = s.behind := rfl
@[simp] theorem modTask_racing : (modTask s c k GT).racing = s.racing := rfl
@[simp] theorem modTask_lfsr : (modTask s c k GT).lfsr = s.lfsr := rfl
@[simp] theorem modTask_ctxs : (modTask s c k GT).ctxs = s.ctxs := rfl
@[simp] theorem modTask_clusters : (modTask s c k GT).clusters = s.clusters := rfl
@[simp] theorem modTask_slices : (modTask s c k GT).slices = s.slices := rfl
@[simp] theorem modTask_dies : (modTask s c k GT).dies = s.dies := rfl
@[simp] theorem modTask_experts : (modTask s c k GT).experts = s.experts := rfl
@[simp] theorem modTask_copies : (modTask s c k GT).copies = s.copies := rfl
@[simp] theorem modTask_updates : (modTask s c k GT).updates = s.updates := rfl
@[simp] theorem modTask_parts : (modTask s c k GT).parts = s.parts := rfl
@[simp] theorem modTask_barriers : (modTask s c k GT).barriers = s.barriers := rfl
@[simp] theorem modTask_launches : (modTask s c k GT).launches = s.launches := rfl
@[simp] theorem modTask_outcomes : (modTask s c k GT).outcomes = s.outcomes := rfl
@[simp] theorem modTask_queues : (modTask s c k GT).queues = s.queues := rfl
@[simp] theorem modTask_ignored : (modTask s c k GT).ignored = s.ignored := rfl
@[simp] theorem modTask_links : (modTask s c k GT).links = s.links := rfl
@[simp] theorem modTask_detours : (modTask s c k GT).detours = s.detours := rfl
@[simp] theorem modTask_chief : (modTask s c k GT).chief = s.chief := rfl
@[simp] theorem modTask_power : (modTask s c k GT).power = s.power := rfl
@[simp] theorem modTask_lowering : (modTask s c k GT).lowering = s.lowering := rfl
@[simp] theorem modTask_partners : (modTask s c k GT).partners = s.partners := rfl
@[simp] theorem modTask_podNumber : (modTask s c k GT).podNumber = s.podNumber := rfl
@[simp] theorem modTask_store : (modTask s c k GT).store = s.store := rfl
@[simp] theorem modTask_images : (modTask s c k GT).images = s.images := rfl
@[simp] theorem modTask_report : (modTask s c k GT).report = s.report := rfl
@[simp] theorem modTask_reqs : (modTask s c k GT).reqs = s.reqs := rfl
@[simp] theorem modTask_faulted : (modTask s c k GT).faulted = s.faulted := rfl
@[simp] theorem modTask_wreqs : (modTask s c k GT).wreqs = s.wreqs := rfl
@[simp] theorem modTask_rets : (modTask s c k GT).rets = s.rets := rfl
@[simp] theorem modTask_net : (modTask s c k GT).net = s.net := rfl
@[simp] theorem modTask_arrivals : (modTask s c k GT).arrivals = s.arrivals := rfl
@[simp] theorem modTask_mail : (modTask s c k GT).mail = s.mail := rfl
@[simp] theorem modTask_caps : (modTask s c k GT).caps = s.caps := rfl
@[simp] theorem modTask_flushes : (modTask s c k GT).flushes = s.flushes := rfl
@[simp] theorem modTask_drops : (modTask s c k GT).drops = s.drops := rfl
@[simp] theorem modTask_sched : (modTask s c k GT).sched = s.sched := rfl
@[simp] theorem modTask_turn : (modTask s c k GT).turn = s.turn := rfl
@[simp] theorem modTask_iss : (modTask s c k GT).iss = s.iss := rfl
@[simp] theorem modTask_tick : (modTask s c k GT).tick = s.tick := rfl
@[simp] theorem modTask_ord : (modTask s c k GT).ord = s.ord := rfl

/-! modBind -/

@[simp] theorem modBind_time : (modBind s c k GB).time = s.time := rfl
@[simp] theorem modBind_pkg : (modBind s c k GB).pkg = s.pkg := rfl
@[simp] theorem modBind_stage : (modBind s c k GB).stage = s.stage := rfl
@[simp] theorem modBind_powered : (modBind s c k GB).powered = s.powered := rfl
@[simp] theorem modBind_mem : (modBind s c k GB).mem = s.mem := rfl
@[simp] theorem modBind_full : (modBind s c k GB).full = s.full := rfl
@[simp] theorem modBind_poison : (modBind s c k GB).poison = s.poison := rfl
@[simp] theorem modBind_copyMarks : (modBind s c k GB).copyMarks = s.copyMarks := rfl
@[simp] theorem modBind_behind : (modBind s c k GB).behind = s.behind := rfl
@[simp] theorem modBind_racing : (modBind s c k GB).racing = s.racing := rfl
@[simp] theorem modBind_lfsr : (modBind s c k GB).lfsr = s.lfsr := rfl
@[simp] theorem modBind_ctxs : (modBind s c k GB).ctxs = s.ctxs := rfl
@[simp] theorem modBind_clusters : (modBind s c k GB).clusters = s.clusters := rfl
@[simp] theorem modBind_slices : (modBind s c k GB).slices = s.slices := rfl
@[simp] theorem modBind_dies : (modBind s c k GB).dies = s.dies := rfl
@[simp] theorem modBind_experts : (modBind s c k GB).experts = s.experts := rfl
@[simp] theorem modBind_copies : (modBind s c k GB).copies = s.copies := rfl
@[simp] theorem modBind_updates : (modBind s c k GB).updates = s.updates := rfl
@[simp] theorem modBind_parts : (modBind s c k GB).parts = s.parts := rfl
@[simp] theorem modBind_barriers : (modBind s c k GB).barriers = s.barriers := rfl
@[simp] theorem modBind_launches : (modBind s c k GB).launches = s.launches := rfl
@[simp] theorem modBind_outcomes : (modBind s c k GB).outcomes = s.outcomes := rfl
@[simp] theorem modBind_queues : (modBind s c k GB).queues = s.queues := rfl
@[simp] theorem modBind_ignored : (modBind s c k GB).ignored = s.ignored := rfl
@[simp] theorem modBind_links : (modBind s c k GB).links = s.links := rfl
@[simp] theorem modBind_detours : (modBind s c k GB).detours = s.detours := rfl
@[simp] theorem modBind_chief : (modBind s c k GB).chief = s.chief := rfl
@[simp] theorem modBind_power : (modBind s c k GB).power = s.power := rfl
@[simp] theorem modBind_lowering : (modBind s c k GB).lowering = s.lowering := rfl
@[simp] theorem modBind_partners : (modBind s c k GB).partners = s.partners := rfl
@[simp] theorem modBind_podNumber : (modBind s c k GB).podNumber = s.podNumber := rfl
@[simp] theorem modBind_store : (modBind s c k GB).store = s.store := rfl
@[simp] theorem modBind_images : (modBind s c k GB).images = s.images := rfl
@[simp] theorem modBind_report : (modBind s c k GB).report = s.report := rfl
@[simp] theorem modBind_reqs : (modBind s c k GB).reqs = s.reqs := rfl
@[simp] theorem modBind_faulted : (modBind s c k GB).faulted = s.faulted := rfl
@[simp] theorem modBind_wreqs : (modBind s c k GB).wreqs = s.wreqs := rfl
@[simp] theorem modBind_rets : (modBind s c k GB).rets = s.rets := rfl
@[simp] theorem modBind_net : (modBind s c k GB).net = s.net := rfl
@[simp] theorem modBind_arrivals : (modBind s c k GB).arrivals = s.arrivals := rfl
@[simp] theorem modBind_mail : (modBind s c k GB).mail = s.mail := rfl
@[simp] theorem modBind_caps : (modBind s c k GB).caps = s.caps := rfl
@[simp] theorem modBind_flushes : (modBind s c k GB).flushes = s.flushes := rfl
@[simp] theorem modBind_drops : (modBind s c k GB).drops = s.drops := rfl
@[simp] theorem modBind_sched : (modBind s c k GB).sched = s.sched := rfl
@[simp] theorem modBind_turn : (modBind s c k GB).turn = s.turn := rfl
@[simp] theorem modBind_iss : (modBind s c k GB).iss = s.iss := rfl
@[simp] theorem modBind_tick : (modBind s c k GB).tick = s.tick := rfl
@[simp] theorem modBind_ord : (modBind s c k GB).ord = s.ord := rfl

/-! setCtx -/

@[simp] theorem setCtx_time : (setCtx s f o).time = s.time := rfl
@[simp] theorem setCtx_pkg : (setCtx s f o).pkg = s.pkg := rfl
@[simp] theorem setCtx_stage : (setCtx s f o).stage = s.stage := rfl
@[simp] theorem setCtx_powered : (setCtx s f o).powered = s.powered := rfl
@[simp] theorem setCtx_mem : (setCtx s f o).mem = s.mem := rfl
@[simp] theorem setCtx_full : (setCtx s f o).full = s.full := rfl
@[simp] theorem setCtx_poison : (setCtx s f o).poison = s.poison := rfl
@[simp] theorem setCtx_copyMarks : (setCtx s f o).copyMarks = s.copyMarks := rfl
@[simp] theorem setCtx_behind : (setCtx s f o).behind = s.behind := rfl
@[simp] theorem setCtx_racing : (setCtx s f o).racing = s.racing := rfl
@[simp] theorem setCtx_cores : (setCtx s f o).cores = s.cores := rfl
@[simp] theorem setCtx_lfsr : (setCtx s f o).lfsr = s.lfsr := rfl
@[simp] theorem setCtx_clusters : (setCtx s f o).clusters = s.clusters := rfl
@[simp] theorem setCtx_slices : (setCtx s f o).slices = s.slices := rfl
@[simp] theorem setCtx_dies : (setCtx s f o).dies = s.dies := rfl
@[simp] theorem setCtx_experts : (setCtx s f o).experts = s.experts := rfl
@[simp] theorem setCtx_copies : (setCtx s f o).copies = s.copies := rfl
@[simp] theorem setCtx_updates : (setCtx s f o).updates = s.updates := rfl
@[simp] theorem setCtx_parts : (setCtx s f o).parts = s.parts := rfl
@[simp] theorem setCtx_barriers : (setCtx s f o).barriers = s.barriers := rfl
@[simp] theorem setCtx_launches : (setCtx s f o).launches = s.launches := rfl
@[simp] theorem setCtx_outcomes : (setCtx s f o).outcomes = s.outcomes := rfl
@[simp] theorem setCtx_queues : (setCtx s f o).queues = s.queues := rfl
@[simp] theorem setCtx_ignored : (setCtx s f o).ignored = s.ignored := rfl
@[simp] theorem setCtx_links : (setCtx s f o).links = s.links := rfl
@[simp] theorem setCtx_detours : (setCtx s f o).detours = s.detours := rfl
@[simp] theorem setCtx_chief : (setCtx s f o).chief = s.chief := rfl
@[simp] theorem setCtx_power : (setCtx s f o).power = s.power := rfl
@[simp] theorem setCtx_lowering : (setCtx s f o).lowering = s.lowering := rfl
@[simp] theorem setCtx_partners : (setCtx s f o).partners = s.partners := rfl
@[simp] theorem setCtx_podNumber : (setCtx s f o).podNumber = s.podNumber := rfl
@[simp] theorem setCtx_store : (setCtx s f o).store = s.store := rfl
@[simp] theorem setCtx_images : (setCtx s f o).images = s.images := rfl
@[simp] theorem setCtx_report : (setCtx s f o).report = s.report := rfl
@[simp] theorem setCtx_reqs : (setCtx s f o).reqs = s.reqs := rfl
@[simp] theorem setCtx_faulted : (setCtx s f o).faulted = s.faulted := rfl
@[simp] theorem setCtx_wreqs : (setCtx s f o).wreqs = s.wreqs := rfl
@[simp] theorem setCtx_rets : (setCtx s f o).rets = s.rets := rfl
@[simp] theorem setCtx_net : (setCtx s f o).net = s.net := rfl
@[simp] theorem setCtx_arrivals : (setCtx s f o).arrivals = s.arrivals := rfl
@[simp] theorem setCtx_mail : (setCtx s f o).mail = s.mail := rfl
@[simp] theorem setCtx_caps : (setCtx s f o).caps = s.caps := rfl
@[simp] theorem setCtx_flushes : (setCtx s f o).flushes = s.flushes := rfl
@[simp] theorem setCtx_drops : (setCtx s f o).drops = s.drops := rfl
@[simp] theorem setCtx_sched : (setCtx s f o).sched = s.sched := rfl
@[simp] theorem setCtx_turn : (setCtx s f o).turn = s.turn := rfl
@[simp] theorem setCtx_iss : (setCtx s f o).iss = s.iss := rfl
@[simp] theorem setCtx_tick : (setCtx s f o).tick = s.tick := rfl
@[simp] theorem setCtx_ord : (setCtx s f o).ord = s.ord := rfl

/-! modCluster -/

@[simp] theorem modCluster_time : (modCluster s c GC).time = s.time := rfl
@[simp] theorem modCluster_pkg : (modCluster s c GC).pkg = s.pkg := rfl
@[simp] theorem modCluster_stage : (modCluster s c GC).stage = s.stage := rfl
@[simp] theorem modCluster_powered : (modCluster s c GC).powered = s.powered := rfl
@[simp] theorem modCluster_mem : (modCluster s c GC).mem = s.mem := rfl
@[simp] theorem modCluster_full : (modCluster s c GC).full = s.full := rfl
@[simp] theorem modCluster_poison : (modCluster s c GC).poison = s.poison := rfl
@[simp] theorem modCluster_copyMarks : (modCluster s c GC).copyMarks = s.copyMarks := rfl
@[simp] theorem modCluster_behind : (modCluster s c GC).behind = s.behind := rfl
@[simp] theorem modCluster_racing : (modCluster s c GC).racing = s.racing := rfl
@[simp] theorem modCluster_cores : (modCluster s c GC).cores = s.cores := rfl
@[simp] theorem modCluster_lfsr : (modCluster s c GC).lfsr = s.lfsr := rfl
@[simp] theorem modCluster_ctxs : (modCluster s c GC).ctxs = s.ctxs := rfl
@[simp] theorem modCluster_slices : (modCluster s c GC).slices = s.slices := rfl
@[simp] theorem modCluster_dies : (modCluster s c GC).dies = s.dies := rfl
@[simp] theorem modCluster_experts : (modCluster s c GC).experts = s.experts := rfl
@[simp] theorem modCluster_copies : (modCluster s c GC).copies = s.copies := rfl
@[simp] theorem modCluster_updates : (modCluster s c GC).updates = s.updates := rfl
@[simp] theorem modCluster_parts : (modCluster s c GC).parts = s.parts := rfl
@[simp] theorem modCluster_barriers : (modCluster s c GC).barriers = s.barriers := rfl
@[simp] theorem modCluster_launches : (modCluster s c GC).launches = s.launches := rfl
@[simp] theorem modCluster_outcomes : (modCluster s c GC).outcomes = s.outcomes := rfl
@[simp] theorem modCluster_queues : (modCluster s c GC).queues = s.queues := rfl
@[simp] theorem modCluster_ignored : (modCluster s c GC).ignored = s.ignored := rfl
@[simp] theorem modCluster_links : (modCluster s c GC).links = s.links := rfl
@[simp] theorem modCluster_detours : (modCluster s c GC).detours = s.detours := rfl
@[simp] theorem modCluster_chief : (modCluster s c GC).chief = s.chief := rfl
@[simp] theorem modCluster_power : (modCluster s c GC).power = s.power := rfl
@[simp] theorem modCluster_lowering : (modCluster s c GC).lowering = s.lowering := rfl
@[simp] theorem modCluster_partners : (modCluster s c GC).partners = s.partners := rfl
@[simp] theorem modCluster_podNumber : (modCluster s c GC).podNumber = s.podNumber := rfl
@[simp] theorem modCluster_store : (modCluster s c GC).store = s.store := rfl
@[simp] theorem modCluster_images : (modCluster s c GC).images = s.images := rfl
@[simp] theorem modCluster_report : (modCluster s c GC).report = s.report := rfl
@[simp] theorem modCluster_reqs : (modCluster s c GC).reqs = s.reqs := rfl
@[simp] theorem modCluster_faulted : (modCluster s c GC).faulted = s.faulted := rfl
@[simp] theorem modCluster_wreqs : (modCluster s c GC).wreqs = s.wreqs := rfl
@[simp] theorem modCluster_rets : (modCluster s c GC).rets = s.rets := rfl
@[simp] theorem modCluster_net : (modCluster s c GC).net = s.net := rfl
@[simp] theorem modCluster_arrivals : (modCluster s c GC).arrivals = s.arrivals := rfl
@[simp] theorem modCluster_mail : (modCluster s c GC).mail = s.mail := rfl
@[simp] theorem modCluster_caps : (modCluster s c GC).caps = s.caps := rfl
@[simp] theorem modCluster_flushes : (modCluster s c GC).flushes = s.flushes := rfl
@[simp] theorem modCluster_drops : (modCluster s c GC).drops = s.drops := rfl
@[simp] theorem modCluster_sched : (modCluster s c GC).sched = s.sched := rfl
@[simp] theorem modCluster_turn : (modCluster s c GC).turn = s.turn := rfl
@[simp] theorem modCluster_iss : (modCluster s c GC).iss = s.iss := rfl
@[simp] theorem modCluster_tick : (modCluster s c GC).tick = s.tick := rfl
@[simp] theorem modCluster_ord : (modCluster s c GC).ord = s.ord := rfl

/-! modSlice -/

@[simp] theorem modSlice_time : (modSlice s c GX).time = s.time := rfl
@[simp] theorem modSlice_pkg : (modSlice s c GX).pkg = s.pkg := rfl
@[simp] theorem modSlice_stage : (modSlice s c GX).stage = s.stage := rfl
@[simp] theorem modSlice_powered : (modSlice s c GX).powered = s.powered := rfl
@[simp] theorem modSlice_mem : (modSlice s c GX).mem = s.mem := rfl
@[simp] theorem modSlice_full : (modSlice s c GX).full = s.full := rfl
@[simp] theorem modSlice_poison : (modSlice s c GX).poison = s.poison := rfl
@[simp] theorem modSlice_copyMarks : (modSlice s c GX).copyMarks = s.copyMarks := rfl
@[simp] theorem modSlice_behind : (modSlice s c GX).behind = s.behind := rfl
@[simp] theorem modSlice_racing : (modSlice s c GX).racing = s.racing := rfl
@[simp] theorem modSlice_cores : (modSlice s c GX).cores = s.cores := rfl
@[simp] theorem modSlice_lfsr : (modSlice s c GX).lfsr = s.lfsr := rfl
@[simp] theorem modSlice_ctxs : (modSlice s c GX).ctxs = s.ctxs := rfl
@[simp] theorem modSlice_clusters : (modSlice s c GX).clusters = s.clusters := rfl
@[simp] theorem modSlice_dies : (modSlice s c GX).dies = s.dies := rfl
@[simp] theorem modSlice_experts : (modSlice s c GX).experts = s.experts := rfl
@[simp] theorem modSlice_copies : (modSlice s c GX).copies = s.copies := rfl
@[simp] theorem modSlice_updates : (modSlice s c GX).updates = s.updates := rfl
@[simp] theorem modSlice_parts : (modSlice s c GX).parts = s.parts := rfl
@[simp] theorem modSlice_barriers : (modSlice s c GX).barriers = s.barriers := rfl
@[simp] theorem modSlice_launches : (modSlice s c GX).launches = s.launches := rfl
@[simp] theorem modSlice_outcomes : (modSlice s c GX).outcomes = s.outcomes := rfl
@[simp] theorem modSlice_queues : (modSlice s c GX).queues = s.queues := rfl
@[simp] theorem modSlice_ignored : (modSlice s c GX).ignored = s.ignored := rfl
@[simp] theorem modSlice_links : (modSlice s c GX).links = s.links := rfl
@[simp] theorem modSlice_detours : (modSlice s c GX).detours = s.detours := rfl
@[simp] theorem modSlice_chief : (modSlice s c GX).chief = s.chief := rfl
@[simp] theorem modSlice_power : (modSlice s c GX).power = s.power := rfl
@[simp] theorem modSlice_lowering : (modSlice s c GX).lowering = s.lowering := rfl
@[simp] theorem modSlice_partners : (modSlice s c GX).partners = s.partners := rfl
@[simp] theorem modSlice_podNumber : (modSlice s c GX).podNumber = s.podNumber := rfl
@[simp] theorem modSlice_store : (modSlice s c GX).store = s.store := rfl
@[simp] theorem modSlice_images : (modSlice s c GX).images = s.images := rfl
@[simp] theorem modSlice_report : (modSlice s c GX).report = s.report := rfl
@[simp] theorem modSlice_reqs : (modSlice s c GX).reqs = s.reqs := rfl
@[simp] theorem modSlice_faulted : (modSlice s c GX).faulted = s.faulted := rfl
@[simp] theorem modSlice_wreqs : (modSlice s c GX).wreqs = s.wreqs := rfl
@[simp] theorem modSlice_rets : (modSlice s c GX).rets = s.rets := rfl
@[simp] theorem modSlice_net : (modSlice s c GX).net = s.net := rfl
@[simp] theorem modSlice_arrivals : (modSlice s c GX).arrivals = s.arrivals := rfl
@[simp] theorem modSlice_mail : (modSlice s c GX).mail = s.mail := rfl
@[simp] theorem modSlice_caps : (modSlice s c GX).caps = s.caps := rfl
@[simp] theorem modSlice_flushes : (modSlice s c GX).flushes = s.flushes := rfl
@[simp] theorem modSlice_drops : (modSlice s c GX).drops = s.drops := rfl
@[simp] theorem modSlice_sched : (modSlice s c GX).sched = s.sched := rfl
@[simp] theorem modSlice_turn : (modSlice s c GX).turn = s.turn := rfl
@[simp] theorem modSlice_iss : (modSlice s c GX).iss = s.iss := rfl
@[simp] theorem modSlice_tick : (modSlice s c GX).tick = s.tick := rfl
@[simp] theorem modSlice_ord : (modSlice s c GX).ord = s.ord := rfl

/-! modDie -/

@[simp] theorem modDie_time : (modDie s c GD).time = s.time := rfl
@[simp] theorem modDie_pkg : (modDie s c GD).pkg = s.pkg := rfl
@[simp] theorem modDie_stage : (modDie s c GD).stage = s.stage := rfl
@[simp] theorem modDie_powered : (modDie s c GD).powered = s.powered := rfl
@[simp] theorem modDie_mem : (modDie s c GD).mem = s.mem := rfl
@[simp] theorem modDie_full : (modDie s c GD).full = s.full := rfl
@[simp] theorem modDie_poison : (modDie s c GD).poison = s.poison := rfl
@[simp] theorem modDie_copyMarks : (modDie s c GD).copyMarks = s.copyMarks := rfl
@[simp] theorem modDie_behind : (modDie s c GD).behind = s.behind := rfl
@[simp] theorem modDie_racing : (modDie s c GD).racing = s.racing := rfl
@[simp] theorem modDie_cores : (modDie s c GD).cores = s.cores := rfl
@[simp] theorem modDie_lfsr : (modDie s c GD).lfsr = s.lfsr := rfl
@[simp] theorem modDie_ctxs : (modDie s c GD).ctxs = s.ctxs := rfl
@[simp] theorem modDie_clusters : (modDie s c GD).clusters = s.clusters := rfl
@[simp] theorem modDie_slices : (modDie s c GD).slices = s.slices := rfl
@[simp] theorem modDie_experts : (modDie s c GD).experts = s.experts := rfl
@[simp] theorem modDie_copies : (modDie s c GD).copies = s.copies := rfl
@[simp] theorem modDie_updates : (modDie s c GD).updates = s.updates := rfl
@[simp] theorem modDie_parts : (modDie s c GD).parts = s.parts := rfl
@[simp] theorem modDie_barriers : (modDie s c GD).barriers = s.barriers := rfl
@[simp] theorem modDie_launches : (modDie s c GD).launches = s.launches := rfl
@[simp] theorem modDie_outcomes : (modDie s c GD).outcomes = s.outcomes := rfl
@[simp] theorem modDie_queues : (modDie s c GD).queues = s.queues := rfl
@[simp] theorem modDie_ignored : (modDie s c GD).ignored = s.ignored := rfl
@[simp] theorem modDie_links : (modDie s c GD).links = s.links := rfl
@[simp] theorem modDie_detours : (modDie s c GD).detours = s.detours := rfl
@[simp] theorem modDie_chief : (modDie s c GD).chief = s.chief := rfl
@[simp] theorem modDie_power : (modDie s c GD).power = s.power := rfl
@[simp] theorem modDie_lowering : (modDie s c GD).lowering = s.lowering := rfl
@[simp] theorem modDie_partners : (modDie s c GD).partners = s.partners := rfl
@[simp] theorem modDie_podNumber : (modDie s c GD).podNumber = s.podNumber := rfl
@[simp] theorem modDie_store : (modDie s c GD).store = s.store := rfl
@[simp] theorem modDie_images : (modDie s c GD).images = s.images := rfl
@[simp] theorem modDie_report : (modDie s c GD).report = s.report := rfl
@[simp] theorem modDie_reqs : (modDie s c GD).reqs = s.reqs := rfl
@[simp] theorem modDie_faulted : (modDie s c GD).faulted = s.faulted := rfl
@[simp] theorem modDie_wreqs : (modDie s c GD).wreqs = s.wreqs := rfl
@[simp] theorem modDie_rets : (modDie s c GD).rets = s.rets := rfl
@[simp] theorem modDie_net : (modDie s c GD).net = s.net := rfl
@[simp] theorem modDie_arrivals : (modDie s c GD).arrivals = s.arrivals := rfl
@[simp] theorem modDie_mail : (modDie s c GD).mail = s.mail := rfl
@[simp] theorem modDie_caps : (modDie s c GD).caps = s.caps := rfl
@[simp] theorem modDie_flushes : (modDie s c GD).flushes = s.flushes := rfl
@[simp] theorem modDie_drops : (modDie s c GD).drops = s.drops := rfl
@[simp] theorem modDie_sched : (modDie s c GD).sched = s.sched := rfl
@[simp] theorem modDie_turn : (modDie s c GD).turn = s.turn := rfl
@[simp] theorem modDie_iss : (modDie s c GD).iss = s.iss := rfl
@[simp] theorem modDie_tick : (modDie s c GD).tick = s.tick := rfl
@[simp] theorem modDie_ord : (modDie s c GD).ord = s.ord := rfl

/-! modPart -/

@[simp] theorem modPart_time : (modPart s c GP).time = s.time := rfl
@[simp] theorem modPart_pkg : (modPart s c GP).pkg = s.pkg := rfl
@[simp] theorem modPart_stage : (modPart s c GP).stage = s.stage := rfl
@[simp] theorem modPart_powered : (modPart s c GP).powered = s.powered := rfl
@[simp] theorem modPart_mem : (modPart s c GP).mem = s.mem := rfl
@[simp] theorem modPart_full : (modPart s c GP).full = s.full := rfl
@[simp] theorem modPart_poison : (modPart s c GP).poison = s.poison := rfl
@[simp] theorem modPart_copyMarks : (modPart s c GP).copyMarks = s.copyMarks := rfl
@[simp] theorem modPart_behind : (modPart s c GP).behind = s.behind := rfl
@[simp] theorem modPart_racing : (modPart s c GP).racing = s.racing := rfl
@[simp] theorem modPart_cores : (modPart s c GP).cores = s.cores := rfl
@[simp] theorem modPart_lfsr : (modPart s c GP).lfsr = s.lfsr := rfl
@[simp] theorem modPart_ctxs : (modPart s c GP).ctxs = s.ctxs := rfl
@[simp] theorem modPart_clusters : (modPart s c GP).clusters = s.clusters := rfl
@[simp] theorem modPart_slices : (modPart s c GP).slices = s.slices := rfl
@[simp] theorem modPart_dies : (modPart s c GP).dies = s.dies := rfl
@[simp] theorem modPart_experts : (modPart s c GP).experts = s.experts := rfl
@[simp] theorem modPart_copies : (modPart s c GP).copies = s.copies := rfl
@[simp] theorem modPart_updates : (modPart s c GP).updates = s.updates := rfl
@[simp] theorem modPart_barriers : (modPart s c GP).barriers = s.barriers := rfl
@[simp] theorem modPart_launches : (modPart s c GP).launches = s.launches := rfl
@[simp] theorem modPart_outcomes : (modPart s c GP).outcomes = s.outcomes := rfl
@[simp] theorem modPart_queues : (modPart s c GP).queues = s.queues := rfl
@[simp] theorem modPart_ignored : (modPart s c GP).ignored = s.ignored := rfl
@[simp] theorem modPart_links : (modPart s c GP).links = s.links := rfl
@[simp] theorem modPart_detours : (modPart s c GP).detours = s.detours := rfl
@[simp] theorem modPart_chief : (modPart s c GP).chief = s.chief := rfl
@[simp] theorem modPart_power : (modPart s c GP).power = s.power := rfl
@[simp] theorem modPart_lowering : (modPart s c GP).lowering = s.lowering := rfl
@[simp] theorem modPart_partners : (modPart s c GP).partners = s.partners := rfl
@[simp] theorem modPart_podNumber : (modPart s c GP).podNumber = s.podNumber := rfl
@[simp] theorem modPart_store : (modPart s c GP).store = s.store := rfl
@[simp] theorem modPart_images : (modPart s c GP).images = s.images := rfl
@[simp] theorem modPart_report : (modPart s c GP).report = s.report := rfl
@[simp] theorem modPart_reqs : (modPart s c GP).reqs = s.reqs := rfl
@[simp] theorem modPart_faulted : (modPart s c GP).faulted = s.faulted := rfl
@[simp] theorem modPart_wreqs : (modPart s c GP).wreqs = s.wreqs := rfl
@[simp] theorem modPart_rets : (modPart s c GP).rets = s.rets := rfl
@[simp] theorem modPart_net : (modPart s c GP).net = s.net := rfl
@[simp] theorem modPart_arrivals : (modPart s c GP).arrivals = s.arrivals := rfl
@[simp] theorem modPart_mail : (modPart s c GP).mail = s.mail := rfl
@[simp] theorem modPart_caps : (modPart s c GP).caps = s.caps := rfl
@[simp] theorem modPart_flushes : (modPart s c GP).flushes = s.flushes := rfl
@[simp] theorem modPart_drops : (modPart s c GP).drops = s.drops := rfl
@[simp] theorem modPart_sched : (modPart s c GP).sched = s.sched := rfl
@[simp] theorem modPart_turn : (modPart s c GP).turn = s.turn := rfl
@[simp] theorem modPart_iss : (modPart s c GP).iss = s.iss := rfl
@[simp] theorem modPart_tick : (modPart s c GP).tick = s.tick := rfl
@[simp] theorem modPart_ord : (modPart s c GP).ord = s.ord := rfl

/-! modLink -/

@[simp] theorem modLink_time : (modLink s c GK).time = s.time := rfl
@[simp] theorem modLink_pkg : (modLink s c GK).pkg = s.pkg := rfl
@[simp] theorem modLink_stage : (modLink s c GK).stage = s.stage := rfl
@[simp] theorem modLink_powered : (modLink s c GK).powered = s.powered := rfl
@[simp] theorem modLink_mem : (modLink s c GK).mem = s.mem := rfl
@[simp] theorem modLink_full : (modLink s c GK).full = s.full := rfl
@[simp] theorem modLink_poison : (modLink s c GK).poison = s.poison := rfl
@[simp] theorem modLink_copyMarks : (modLink s c GK).copyMarks = s.copyMarks := rfl
@[simp] theorem modLink_behind : (modLink s c GK).behind = s.behind := rfl
@[simp] theorem modLink_racing : (modLink s c GK).racing = s.racing := rfl
@[simp] theorem modLink_cores : (modLink s c GK).cores = s.cores := rfl
@[simp] theorem modLink_lfsr : (modLink s c GK).lfsr = s.lfsr := rfl
@[simp] theorem modLink_ctxs : (modLink s c GK).ctxs = s.ctxs := rfl
@[simp] theorem modLink_clusters : (modLink s c GK).clusters = s.clusters := rfl
@[simp] theorem modLink_slices : (modLink s c GK).slices = s.slices := rfl
@[simp] theorem modLink_dies : (modLink s c GK).dies = s.dies := rfl
@[simp] theorem modLink_experts : (modLink s c GK).experts = s.experts := rfl
@[simp] theorem modLink_copies : (modLink s c GK).copies = s.copies := rfl
@[simp] theorem modLink_updates : (modLink s c GK).updates = s.updates := rfl
@[simp] theorem modLink_parts : (modLink s c GK).parts = s.parts := rfl
@[simp] theorem modLink_barriers : (modLink s c GK).barriers = s.barriers := rfl
@[simp] theorem modLink_launches : (modLink s c GK).launches = s.launches := rfl
@[simp] theorem modLink_outcomes : (modLink s c GK).outcomes = s.outcomes := rfl
@[simp] theorem modLink_queues : (modLink s c GK).queues = s.queues := rfl
@[simp] theorem modLink_ignored : (modLink s c GK).ignored = s.ignored := rfl
@[simp] theorem modLink_detours : (modLink s c GK).detours = s.detours := rfl
@[simp] theorem modLink_chief : (modLink s c GK).chief = s.chief := rfl
@[simp] theorem modLink_power : (modLink s c GK).power = s.power := rfl
@[simp] theorem modLink_lowering : (modLink s c GK).lowering = s.lowering := rfl
@[simp] theorem modLink_partners : (modLink s c GK).partners = s.partners := rfl
@[simp] theorem modLink_podNumber : (modLink s c GK).podNumber = s.podNumber := rfl
@[simp] theorem modLink_store : (modLink s c GK).store = s.store := rfl
@[simp] theorem modLink_images : (modLink s c GK).images = s.images := rfl
@[simp] theorem modLink_report : (modLink s c GK).report = s.report := rfl
@[simp] theorem modLink_reqs : (modLink s c GK).reqs = s.reqs := rfl
@[simp] theorem modLink_faulted : (modLink s c GK).faulted = s.faulted := rfl
@[simp] theorem modLink_wreqs : (modLink s c GK).wreqs = s.wreqs := rfl
@[simp] theorem modLink_rets : (modLink s c GK).rets = s.rets := rfl
@[simp] theorem modLink_net : (modLink s c GK).net = s.net := rfl
@[simp] theorem modLink_arrivals : (modLink s c GK).arrivals = s.arrivals := rfl
@[simp] theorem modLink_mail : (modLink s c GK).mail = s.mail := rfl
@[simp] theorem modLink_caps : (modLink s c GK).caps = s.caps := rfl
@[simp] theorem modLink_flushes : (modLink s c GK).flushes = s.flushes := rfl
@[simp] theorem modLink_drops : (modLink s c GK).drops = s.drops := rfl
@[simp] theorem modLink_sched : (modLink s c GK).sched = s.sched := rfl
@[simp] theorem modLink_turn : (modLink s c GK).turn = s.turn := rfl
@[simp] theorem modLink_iss : (modLink s c GK).iss = s.iss := rfl
@[simp] theorem modLink_tick : (modLink s c GK).tick = s.tick := rfl
@[simp] theorem modLink_ord : (modLink s c GK).ord = s.ord := rfl

/-! modExpert -/

@[simp] theorem modExpert_time : (modExpert s c GE).time = s.time := rfl
@[simp] theorem modExpert_pkg : (modExpert s c GE).pkg = s.pkg := rfl
@[simp] theorem modExpert_stage : (modExpert s c GE).stage = s.stage := rfl
@[simp] theorem modExpert_powered : (modExpert s c GE).powered = s.powered := rfl
@[simp] theorem modExpert_mem : (modExpert s c GE).mem = s.mem := rfl
@[simp] theorem modExpert_full : (modExpert s c GE).full = s.full := rfl
@[simp] theorem modExpert_poison : (modExpert s c GE).poison = s.poison := rfl
@[simp] theorem modExpert_copyMarks : (modExpert s c GE).copyMarks = s.copyMarks := rfl
@[simp] theorem modExpert_behind : (modExpert s c GE).behind = s.behind := rfl
@[simp] theorem modExpert_racing : (modExpert s c GE).racing = s.racing := rfl
@[simp] theorem modExpert_cores : (modExpert s c GE).cores = s.cores := rfl
@[simp] theorem modExpert_lfsr : (modExpert s c GE).lfsr = s.lfsr := rfl
@[simp] theorem modExpert_ctxs : (modExpert s c GE).ctxs = s.ctxs := rfl
@[simp] theorem modExpert_clusters : (modExpert s c GE).clusters = s.clusters := rfl
@[simp] theorem modExpert_slices : (modExpert s c GE).slices = s.slices := rfl
@[simp] theorem modExpert_dies : (modExpert s c GE).dies = s.dies := rfl
@[simp] theorem modExpert_copies : (modExpert s c GE).copies = s.copies := rfl
@[simp] theorem modExpert_updates : (modExpert s c GE).updates = s.updates := rfl
@[simp] theorem modExpert_parts : (modExpert s c GE).parts = s.parts := rfl
@[simp] theorem modExpert_barriers : (modExpert s c GE).barriers = s.barriers := rfl
@[simp] theorem modExpert_launches : (modExpert s c GE).launches = s.launches := rfl
@[simp] theorem modExpert_outcomes : (modExpert s c GE).outcomes = s.outcomes := rfl
@[simp] theorem modExpert_queues : (modExpert s c GE).queues = s.queues := rfl
@[simp] theorem modExpert_ignored : (modExpert s c GE).ignored = s.ignored := rfl
@[simp] theorem modExpert_links : (modExpert s c GE).links = s.links := rfl
@[simp] theorem modExpert_detours : (modExpert s c GE).detours = s.detours := rfl
@[simp] theorem modExpert_chief : (modExpert s c GE).chief = s.chief := rfl
@[simp] theorem modExpert_power : (modExpert s c GE).power = s.power := rfl
@[simp] theorem modExpert_lowering : (modExpert s c GE).lowering = s.lowering := rfl
@[simp] theorem modExpert_partners : (modExpert s c GE).partners = s.partners := rfl
@[simp] theorem modExpert_podNumber : (modExpert s c GE).podNumber = s.podNumber := rfl
@[simp] theorem modExpert_store : (modExpert s c GE).store = s.store := rfl
@[simp] theorem modExpert_images : (modExpert s c GE).images = s.images := rfl
@[simp] theorem modExpert_report : (modExpert s c GE).report = s.report := rfl
@[simp] theorem modExpert_reqs : (modExpert s c GE).reqs = s.reqs := rfl
@[simp] theorem modExpert_faulted : (modExpert s c GE).faulted = s.faulted := rfl
@[simp] theorem modExpert_wreqs : (modExpert s c GE).wreqs = s.wreqs := rfl
@[simp] theorem modExpert_rets : (modExpert s c GE).rets = s.rets := rfl
@[simp] theorem modExpert_net : (modExpert s c GE).net = s.net := rfl
@[simp] theorem modExpert_arrivals : (modExpert s c GE).arrivals = s.arrivals := rfl
@[simp] theorem modExpert_mail : (modExpert s c GE).mail = s.mail := rfl
@[simp] theorem modExpert_caps : (modExpert s c GE).caps = s.caps := rfl
@[simp] theorem modExpert_flushes : (modExpert s c GE).flushes = s.flushes := rfl
@[simp] theorem modExpert_drops : (modExpert s c GE).drops = s.drops := rfl
@[simp] theorem modExpert_sched : (modExpert s c GE).sched = s.sched := rfl
@[simp] theorem modExpert_turn : (modExpert s c GE).turn = s.turn := rfl
@[simp] theorem modExpert_iss : (modExpert s c GE).iss = s.iss := rfl
@[simp] theorem modExpert_tick : (modExpert s c GE).tick = s.tick := rfl
@[simp] theorem modExpert_ord : (modExpert s c GE).ord = s.ord := rfl

/-! writeBytes -/

@[simp] theorem writeBytes_time : (writeBytes s a n v).time = s.time := rfl
@[simp] theorem writeBytes_pkg : (writeBytes s a n v).pkg = s.pkg := rfl
@[simp] theorem writeBytes_stage : (writeBytes s a n v).stage = s.stage := rfl
@[simp] theorem writeBytes_powered : (writeBytes s a n v).powered = s.powered := rfl
@[simp] theorem writeBytes_full : (writeBytes s a n v).full = s.full := rfl
@[simp] theorem writeBytes_copyMarks : (writeBytes s a n v).copyMarks = s.copyMarks := rfl
@[simp] theorem writeBytes_behind : (writeBytes s a n v).behind = s.behind := rfl
@[simp] theorem writeBytes_racing : (writeBytes s a n v).racing = s.racing := rfl
@[simp] theorem writeBytes_cores : (writeBytes s a n v).cores = s.cores := rfl
@[simp] theorem writeBytes_lfsr : (writeBytes s a n v).lfsr = s.lfsr := rfl
@[simp] theorem writeBytes_ctxs : (writeBytes s a n v).ctxs = s.ctxs := rfl
@[simp] theorem writeBytes_clusters : (writeBytes s a n v).clusters = s.clusters := rfl
@[simp] theorem writeBytes_slices : (writeBytes s a n v).slices = s.slices := rfl
@[simp] theorem writeBytes_dies : (writeBytes s a n v).dies = s.dies := rfl
@[simp] theorem writeBytes_experts : (writeBytes s a n v).experts = s.experts := rfl
@[simp] theorem writeBytes_copies : (writeBytes s a n v).copies = s.copies := rfl
@[simp] theorem writeBytes_updates : (writeBytes s a n v).updates = s.updates := rfl
@[simp] theorem writeBytes_parts : (writeBytes s a n v).parts = s.parts := rfl
@[simp] theorem writeBytes_barriers : (writeBytes s a n v).barriers = s.barriers := rfl
@[simp] theorem writeBytes_launches : (writeBytes s a n v).launches = s.launches := rfl
@[simp] theorem writeBytes_outcomes : (writeBytes s a n v).outcomes = s.outcomes := rfl
@[simp] theorem writeBytes_queues : (writeBytes s a n v).queues = s.queues := rfl
@[simp] theorem writeBytes_ignored : (writeBytes s a n v).ignored = s.ignored := rfl
@[simp] theorem writeBytes_links : (writeBytes s a n v).links = s.links := rfl
@[simp] theorem writeBytes_detours : (writeBytes s a n v).detours = s.detours := rfl
@[simp] theorem writeBytes_chief : (writeBytes s a n v).chief = s.chief := rfl
@[simp] theorem writeBytes_power : (writeBytes s a n v).power = s.power := rfl
@[simp] theorem writeBytes_lowering : (writeBytes s a n v).lowering = s.lowering := rfl
@[simp] theorem writeBytes_partners : (writeBytes s a n v).partners = s.partners := rfl
@[simp] theorem writeBytes_podNumber : (writeBytes s a n v).podNumber = s.podNumber := rfl
@[simp] theorem writeBytes_store : (writeBytes s a n v).store = s.store := rfl
@[simp] theorem writeBytes_images : (writeBytes s a n v).images = s.images := rfl
@[simp] theorem writeBytes_report : (writeBytes s a n v).report = s.report := rfl
@[simp] theorem writeBytes_reqs : (writeBytes s a n v).reqs = s.reqs := rfl
@[simp] theorem writeBytes_faulted : (writeBytes s a n v).faulted = s.faulted := rfl
@[simp] theorem writeBytes_wreqs : (writeBytes s a n v).wreqs = s.wreqs := rfl
@[simp] theorem writeBytes_rets : (writeBytes s a n v).rets = s.rets := rfl
@[simp] theorem writeBytes_net : (writeBytes s a n v).net = s.net := rfl
@[simp] theorem writeBytes_arrivals : (writeBytes s a n v).arrivals = s.arrivals := rfl
@[simp] theorem writeBytes_mail : (writeBytes s a n v).mail = s.mail := rfl
@[simp] theorem writeBytes_caps : (writeBytes s a n v).caps = s.caps := rfl
@[simp] theorem writeBytes_flushes : (writeBytes s a n v).flushes = s.flushes := rfl
@[simp] theorem writeBytes_drops : (writeBytes s a n v).drops = s.drops := rfl
@[simp] theorem writeBytes_sched : (writeBytes s a n v).sched = s.sched := rfl
@[simp] theorem writeBytes_turn : (writeBytes s a n v).turn = s.turn := rfl
@[simp] theorem writeBytes_iss : (writeBytes s a n v).iss = s.iss := rfl
@[simp] theorem writeBytes_tick : (writeBytes s a n v).tick = s.tick := rfl
@[simp] theorem writeBytes_ord : (writeBytes s a n v).ord = s.ord := rfl

/-! writeWord -/

@[simp] theorem writeWord_time : (writeWord s a x).time = s.time := rfl
@[simp] theorem writeWord_pkg : (writeWord s a x).pkg = s.pkg := rfl
@[simp] theorem writeWord_stage : (writeWord s a x).stage = s.stage := rfl
@[simp] theorem writeWord_powered : (writeWord s a x).powered = s.powered := rfl
@[simp] theorem writeWord_full : (writeWord s a x).full = s.full := rfl
@[simp] theorem writeWord_copyMarks : (writeWord s a x).copyMarks = s.copyMarks := rfl
@[simp] theorem writeWord_behind : (writeWord s a x).behind = s.behind := rfl
@[simp] theorem writeWord_racing : (writeWord s a x).racing = s.racing := rfl
@[simp] theorem writeWord_cores : (writeWord s a x).cores = s.cores := rfl
@[simp] theorem writeWord_lfsr : (writeWord s a x).lfsr = s.lfsr := rfl
@[simp] theorem writeWord_ctxs : (writeWord s a x).ctxs = s.ctxs := rfl
@[simp] theorem writeWord_clusters : (writeWord s a x).clusters = s.clusters := rfl
@[simp] theorem writeWord_slices : (writeWord s a x).slices = s.slices := rfl
@[simp] theorem writeWord_dies : (writeWord s a x).dies = s.dies := rfl
@[simp] theorem writeWord_experts : (writeWord s a x).experts = s.experts := rfl
@[simp] theorem writeWord_copies : (writeWord s a x).copies = s.copies := rfl
@[simp] theorem writeWord_updates : (writeWord s a x).updates = s.updates := rfl
@[simp] theorem writeWord_parts : (writeWord s a x).parts = s.parts := rfl
@[simp] theorem writeWord_barriers : (writeWord s a x).barriers = s.barriers := rfl
@[simp] theorem writeWord_launches : (writeWord s a x).launches = s.launches := rfl
@[simp] theorem writeWord_outcomes : (writeWord s a x).outcomes = s.outcomes := rfl
@[simp] theorem writeWord_queues : (writeWord s a x).queues = s.queues := rfl
@[simp] theorem writeWord_ignored : (writeWord s a x).ignored = s.ignored := rfl
@[simp] theorem writeWord_links : (writeWord s a x).links = s.links := rfl
@[simp] theorem writeWord_detours : (writeWord s a x).detours = s.detours := rfl
@[simp] theorem writeWord_chief : (writeWord s a x).chief = s.chief := rfl
@[simp] theorem writeWord_power : (writeWord s a x).power = s.power := rfl
@[simp] theorem writeWord_lowering : (writeWord s a x).lowering = s.lowering := rfl
@[simp] theorem writeWord_partners : (writeWord s a x).partners = s.partners := rfl
@[simp] theorem writeWord_podNumber : (writeWord s a x).podNumber = s.podNumber := rfl
@[simp] theorem writeWord_store : (writeWord s a x).store = s.store := rfl
@[simp] theorem writeWord_images : (writeWord s a x).images = s.images := rfl
@[simp] theorem writeWord_report : (writeWord s a x).report = s.report := rfl
@[simp] theorem writeWord_reqs : (writeWord s a x).reqs = s.reqs := rfl
@[simp] theorem writeWord_faulted : (writeWord s a x).faulted = s.faulted := rfl
@[simp] theorem writeWord_wreqs : (writeWord s a x).wreqs = s.wreqs := rfl
@[simp] theorem writeWord_rets : (writeWord s a x).rets = s.rets := rfl
@[simp] theorem writeWord_net : (writeWord s a x).net = s.net := rfl
@[simp] theorem writeWord_arrivals : (writeWord s a x).arrivals = s.arrivals := rfl
@[simp] theorem writeWord_mail : (writeWord s a x).mail = s.mail := rfl
@[simp] theorem writeWord_caps : (writeWord s a x).caps = s.caps := rfl
@[simp] theorem writeWord_flushes : (writeWord s a x).flushes = s.flushes := rfl
@[simp] theorem writeWord_drops : (writeWord s a x).drops = s.drops := rfl
@[simp] theorem writeWord_sched : (writeWord s a x).sched = s.sched := rfl
@[simp] theorem writeWord_turn : (writeWord s a x).turn = s.turn := rfl
@[simp] theorem writeWord_iss : (writeWord s a x).iss = s.iss := rfl
@[simp] theorem writeWord_tick : (writeWord s a x).tick = s.tick := rfl
@[simp] theorem writeWord_ord : (writeWord s a x).ord = s.ord := rfl

/-! setFull -/

@[simp] theorem setFull_time : (setFull s a b).time = s.time := rfl
@[simp] theorem setFull_pkg : (setFull s a b).pkg = s.pkg := rfl
@[simp] theorem setFull_stage : (setFull s a b).stage = s.stage := rfl
@[simp] theorem setFull_powered : (setFull s a b).powered = s.powered := rfl
@[simp] theorem setFull_mem : (setFull s a b).mem = s.mem := rfl
@[simp] theorem setFull_poison : (setFull s a b).poison = s.poison := rfl
@[simp] theorem setFull_copyMarks : (setFull s a b).copyMarks = s.copyMarks := rfl
@[simp] theorem setFull_behind : (setFull s a b).behind = s.behind := rfl
@[simp] theorem setFull_racing : (setFull s a b).racing = s.racing := rfl
@[simp] theorem setFull_cores : (setFull s a b).cores = s.cores := rfl
@[simp] theorem setFull_lfsr : (setFull s a b).lfsr = s.lfsr := rfl
@[simp] theorem setFull_ctxs : (setFull s a b).ctxs = s.ctxs := rfl
@[simp] theorem setFull_clusters : (setFull s a b).clusters = s.clusters := rfl
@[simp] theorem setFull_slices : (setFull s a b).slices = s.slices := rfl
@[simp] theorem setFull_dies : (setFull s a b).dies = s.dies := rfl
@[simp] theorem setFull_experts : (setFull s a b).experts = s.experts := rfl
@[simp] theorem setFull_copies : (setFull s a b).copies = s.copies := rfl
@[simp] theorem setFull_updates : (setFull s a b).updates = s.updates := rfl
@[simp] theorem setFull_parts : (setFull s a b).parts = s.parts := rfl
@[simp] theorem setFull_barriers : (setFull s a b).barriers = s.barriers := rfl
@[simp] theorem setFull_launches : (setFull s a b).launches = s.launches := rfl
@[simp] theorem setFull_outcomes : (setFull s a b).outcomes = s.outcomes := rfl
@[simp] theorem setFull_queues : (setFull s a b).queues = s.queues := rfl
@[simp] theorem setFull_ignored : (setFull s a b).ignored = s.ignored := rfl
@[simp] theorem setFull_links : (setFull s a b).links = s.links := rfl
@[simp] theorem setFull_detours : (setFull s a b).detours = s.detours := rfl
@[simp] theorem setFull_chief : (setFull s a b).chief = s.chief := rfl
@[simp] theorem setFull_power : (setFull s a b).power = s.power := rfl
@[simp] theorem setFull_lowering : (setFull s a b).lowering = s.lowering := rfl
@[simp] theorem setFull_partners : (setFull s a b).partners = s.partners := rfl
@[simp] theorem setFull_podNumber : (setFull s a b).podNumber = s.podNumber := rfl
@[simp] theorem setFull_store : (setFull s a b).store = s.store := rfl
@[simp] theorem setFull_images : (setFull s a b).images = s.images := rfl
@[simp] theorem setFull_report : (setFull s a b).report = s.report := rfl
@[simp] theorem setFull_reqs : (setFull s a b).reqs = s.reqs := rfl
@[simp] theorem setFull_faulted : (setFull s a b).faulted = s.faulted := rfl
@[simp] theorem setFull_wreqs : (setFull s a b).wreqs = s.wreqs := rfl
@[simp] theorem setFull_rets : (setFull s a b).rets = s.rets := rfl
@[simp] theorem setFull_net : (setFull s a b).net = s.net := rfl
@[simp] theorem setFull_arrivals : (setFull s a b).arrivals = s.arrivals := rfl
@[simp] theorem setFull_mail : (setFull s a b).mail = s.mail := rfl
@[simp] theorem setFull_caps : (setFull s a b).caps = s.caps := rfl
@[simp] theorem setFull_flushes : (setFull s a b).flushes = s.flushes := rfl
@[simp] theorem setFull_drops : (setFull s a b).drops = s.drops := rfl
@[simp] theorem setFull_sched : (setFull s a b).sched = s.sched := rfl
@[simp] theorem setFull_turn : (setFull s a b).turn = s.turn := rfl
@[simp] theorem setFull_iss : (setFull s a b).iss = s.iss := rfl
@[simp] theorem setFull_tick : (setFull s a b).tick = s.tick := rfl
@[simp] theorem setFull_ord : (setFull s a b).ord = s.ord := rfl

/-! setEnd -/

@[simp] theorem setEnd_time : (setEnd s e).time = s.time := rfl
@[simp] theorem setEnd_pkg : (setEnd s e).pkg = s.pkg := rfl
@[simp] theorem setEnd_stage : (setEnd s e).stage = s.stage := rfl
@[simp] theorem setEnd_powered : (setEnd s e).powered = s.powered := rfl
@[simp] theorem setEnd_mem : (setEnd s e).mem = s.mem := rfl
@[simp] theorem setEnd_full : (setEnd s e).full = s.full := rfl
@[simp] theorem setEnd_poison : (setEnd s e).poison = s.poison := rfl
@[simp] theorem setEnd_copyMarks : (setEnd s e).copyMarks = s.copyMarks := rfl
@[simp] theorem setEnd_behind : (setEnd s e).behind = s.behind := rfl
@[simp] theorem setEnd_racing : (setEnd s e).racing = s.racing := rfl
@[simp] theorem setEnd_cores : (setEnd s e).cores = s.cores := rfl
@[simp] theorem setEnd_lfsr : (setEnd s e).lfsr = s.lfsr := rfl
@[simp] theorem setEnd_ctxs : (setEnd s e).ctxs = s.ctxs := rfl
@[simp] theorem setEnd_clusters : (setEnd s e).clusters = s.clusters := rfl
@[simp] theorem setEnd_slices : (setEnd s e).slices = s.slices := rfl
@[simp] theorem setEnd_dies : (setEnd s e).dies = s.dies := rfl
@[simp] theorem setEnd_experts : (setEnd s e).experts = s.experts := rfl
@[simp] theorem setEnd_copies : (setEnd s e).copies = s.copies := rfl
@[simp] theorem setEnd_updates : (setEnd s e).updates = s.updates := rfl
@[simp] theorem setEnd_parts : (setEnd s e).parts = s.parts := rfl
@[simp] theorem setEnd_barriers : (setEnd s e).barriers = s.barriers := rfl
@[simp] theorem setEnd_launches : (setEnd s e).launches = s.launches := rfl
@[simp] theorem setEnd_outcomes : (setEnd s e).outcomes = s.outcomes := rfl
@[simp] theorem setEnd_queues : (setEnd s e).queues = s.queues := rfl
@[simp] theorem setEnd_ignored : (setEnd s e).ignored = s.ignored := rfl
@[simp] theorem setEnd_links : (setEnd s e).links = s.links := rfl
@[simp] theorem setEnd_detours : (setEnd s e).detours = s.detours := rfl
@[simp] theorem setEnd_chief : (setEnd s e).chief = s.chief := rfl
@[simp] theorem setEnd_power : (setEnd s e).power = s.power := rfl
@[simp] theorem setEnd_lowering : (setEnd s e).lowering = s.lowering := rfl
@[simp] theorem setEnd_partners : (setEnd s e).partners = s.partners := rfl
@[simp] theorem setEnd_podNumber : (setEnd s e).podNumber = s.podNumber := rfl
@[simp] theorem setEnd_store : (setEnd s e).store = s.store := rfl
@[simp] theorem setEnd_images : (setEnd s e).images = s.images := rfl
@[simp] theorem setEnd_report : (setEnd s e).report = s.report := rfl
@[simp] theorem setEnd_reqs : (setEnd s e).reqs = s.reqs := rfl
@[simp] theorem setEnd_faulted : (setEnd s e).faulted = s.faulted := rfl
@[simp] theorem setEnd_wreqs : (setEnd s e).wreqs = s.wreqs := rfl
@[simp] theorem setEnd_rets : (setEnd s e).rets = s.rets := rfl
@[simp] theorem setEnd_net : (setEnd s e).net = s.net := rfl
@[simp] theorem setEnd_arrivals : (setEnd s e).arrivals = s.arrivals := rfl
@[simp] theorem setEnd_mail : (setEnd s e).mail = s.mail := rfl
@[simp] theorem setEnd_caps : (setEnd s e).caps = s.caps := rfl
@[simp] theorem setEnd_flushes : (setEnd s e).flushes = s.flushes := rfl
@[simp] theorem setEnd_drops : (setEnd s e).drops = s.drops := rfl
@[simp] theorem setEnd_sched : (setEnd s e).sched = s.sched := rfl
@[simp] theorem setEnd_turn : (setEnd s e).turn = s.turn := rfl
@[simp] theorem setEnd_tick : (setEnd s e).tick = s.tick := rfl
@[simp] theorem setEnd_ord : (setEnd s e).ord = s.ord := rfl

/-! startIssue -/

@[simp] theorem startIssue_time : (startIssue s c k pc nx w).time = s.time := rfl
@[simp] theorem startIssue_pkg : (startIssue s c k pc nx w).pkg = s.pkg := rfl
@[simp] theorem startIssue_stage : (startIssue s c k pc nx w).stage = s.stage := rfl
@[simp] theorem startIssue_powered : (startIssue s c k pc nx w).powered = s.powered := rfl
@[simp] theorem startIssue_mem : (startIssue s c k pc nx w).mem = s.mem := rfl
@[simp] theorem startIssue_full : (startIssue s c k pc nx w).full = s.full := rfl
@[simp] theorem startIssue_poison : (startIssue s c k pc nx w).poison = s.poison := rfl
@[simp] theorem startIssue_copyMarks : (startIssue s c k pc nx w).copyMarks = s.copyMarks := rfl
@[simp] theorem startIssue_behind : (startIssue s c k pc nx w).behind = s.behind := rfl
@[simp] theorem startIssue_racing : (startIssue s c k pc nx w).racing = s.racing := rfl
@[simp] theorem startIssue_cores : (startIssue s c k pc nx w).cores = s.cores := rfl
@[simp] theorem startIssue_lfsr : (startIssue s c k pc nx w).lfsr = s.lfsr := rfl
@[simp] theorem startIssue_ctxs : (startIssue s c k pc nx w).ctxs = s.ctxs := rfl
@[simp] theorem startIssue_clusters : (startIssue s c k pc nx w).clusters = s.clusters := rfl
@[simp] theorem startIssue_slices : (startIssue s c k pc nx w).slices = s.slices := rfl
@[simp] theorem startIssue_dies : (startIssue s c k pc nx w).dies = s.dies := rfl
@[simp] theorem startIssue_experts : (startIssue s c k pc nx w).experts = s.experts := rfl
@[simp] theorem startIssue_copies : (startIssue s c k pc nx w).copies = s.copies := rfl
@[simp] theorem startIssue_updates : (startIssue s c k pc nx w).updates = s.updates := rfl
@[simp] theorem startIssue_parts : (startIssue s c k pc nx w).parts = s.parts := rfl
@[simp] theorem startIssue_barriers : (startIssue s c k pc nx w).barriers = s.barriers := rfl
@[simp] theorem startIssue_launches : (startIssue s c k pc nx w).launches = s.launches := rfl
@[simp] theorem startIssue_outcomes : (startIssue s c k pc nx w).outcomes = s.outcomes := rfl
@[simp] theorem startIssue_queues : (startIssue s c k pc nx w).queues = s.queues := rfl
@[simp] theorem startIssue_ignored : (startIssue s c k pc nx w).ignored = s.ignored := rfl
@[simp] theorem startIssue_links : (startIssue s c k pc nx w).links = s.links := rfl
@[simp] theorem startIssue_detours : (startIssue s c k pc nx w).detours = s.detours := rfl
@[simp] theorem startIssue_chief : (startIssue s c k pc nx w).chief = s.chief := rfl
@[simp] theorem startIssue_power : (startIssue s c k pc nx w).power = s.power := rfl
@[simp] theorem startIssue_lowering : (startIssue s c k pc nx w).lowering = s.lowering := rfl
@[simp] theorem startIssue_partners : (startIssue s c k pc nx w).partners = s.partners := rfl
@[simp] theorem startIssue_podNumber : (startIssue s c k pc nx w).podNumber = s.podNumber := rfl
@[simp] theorem startIssue_store : (startIssue s c k pc nx w).store = s.store := rfl
@[simp] theorem startIssue_images : (startIssue s c k pc nx w).images = s.images := rfl
@[simp] theorem startIssue_report : (startIssue s c k pc nx w).report = s.report := rfl
@[simp] theorem startIssue_reqs : (startIssue s c k pc nx w).reqs = s.reqs := rfl
@[simp] theorem startIssue_faulted : (startIssue s c k pc nx w).faulted = s.faulted := rfl
@[simp] theorem startIssue_wreqs : (startIssue s c k pc nx w).wreqs = s.wreqs := rfl
@[simp] theorem startIssue_rets : (startIssue s c k pc nx w).rets = s.rets := rfl
@[simp] theorem startIssue_net : (startIssue s c k pc nx w).net = s.net := rfl
@[simp] theorem startIssue_arrivals : (startIssue s c k pc nx w).arrivals = s.arrivals := rfl
@[simp] theorem startIssue_mail : (startIssue s c k pc nx w).mail = s.mail := rfl
@[simp] theorem startIssue_caps : (startIssue s c k pc nx w).caps = s.caps := rfl
@[simp] theorem startIssue_flushes : (startIssue s c k pc nx w).flushes = s.flushes := rfl
@[simp] theorem startIssue_drops : (startIssue s c k pc nx w).drops = s.drops := rfl
@[simp] theorem startIssue_sched : (startIssue s c k pc nx w).sched = s.sched := rfl
@[simp] theorem startIssue_turn : (startIssue s c k pc nx w).turn = s.turn := rfl
@[simp] theorem startIssue_tick : (startIssue s c k pc nx w).tick = s.tick := rfl
@[simp] theorem startIssue_ord : (startIssue s c k pc nx w).ord = s.ord := rfl

/-! sendResult -/

@[simp] theorem sendResult_time : (sendResult s f n ws late).time = s.time := rfl
@[simp] theorem sendResult_pkg : (sendResult s f n ws late).pkg = s.pkg := rfl
@[simp] theorem sendResult_stage : (sendResult s f n ws late).stage = s.stage := rfl
@[simp] theorem sendResult_powered : (sendResult s f n ws late).powered = s.powered := rfl
@[simp] theorem sendResult_mem : (sendResult s f n ws late).mem = s.mem := rfl
@[simp] theorem sendResult_full : (sendResult s f n ws late).full = s.full := rfl
@[simp] theorem sendResult_poison : (sendResult s f n ws late).poison = s.poison := rfl
@[simp] theorem sendResult_copyMarks : (sendResult s f n ws late).copyMarks = s.copyMarks := rfl
@[simp] theorem sendResult_behind : (sendResult s f n ws late).behind = s.behind := rfl
@[simp] theorem sendResult_racing : (sendResult s f n ws late).racing = s.racing := rfl
@[simp] theorem sendResult_cores : (sendResult s f n ws late).cores = s.cores := rfl
@[simp] theorem sendResult_lfsr : (sendResult s f n ws late).lfsr = s.lfsr := rfl
@[simp] theorem sendResult_ctxs : (sendResult s f n ws late).ctxs = s.ctxs := rfl
@[simp] theorem sendResult_clusters : (sendResult s f n ws late).clusters = s.clusters := rfl
@[simp] theorem sendResult_slices : (sendResult s f n ws late).slices = s.slices := rfl
@[simp] theorem sendResult_dies : (sendResult s f n ws late).dies = s.dies := rfl
@[simp] theorem sendResult_experts : (sendResult s f n ws late).experts = s.experts := rfl
@[simp] theorem sendResult_copies : (sendResult s f n ws late).copies = s.copies := rfl
@[simp] theorem sendResult_updates : (sendResult s f n ws late).updates = s.updates := rfl
@[simp] theorem sendResult_parts : (sendResult s f n ws late).parts = s.parts := rfl
@[simp] theorem sendResult_barriers : (sendResult s f n ws late).barriers = s.barriers := rfl
@[simp] theorem sendResult_launches : (sendResult s f n ws late).launches = s.launches := rfl
@[simp] theorem sendResult_outcomes : (sendResult s f n ws late).outcomes = s.outcomes := rfl
@[simp] theorem sendResult_queues : (sendResult s f n ws late).queues = s.queues := rfl
@[simp] theorem sendResult_ignored : (sendResult s f n ws late).ignored = s.ignored := rfl
@[simp] theorem sendResult_links : (sendResult s f n ws late).links = s.links := rfl
@[simp] theorem sendResult_detours : (sendResult s f n ws late).detours = s.detours := rfl
@[simp] theorem sendResult_chief : (sendResult s f n ws late).chief = s.chief := rfl
@[simp] theorem sendResult_power : (sendResult s f n ws late).power = s.power := rfl
@[simp] theorem sendResult_lowering : (sendResult s f n ws late).lowering = s.lowering := rfl
@[simp] theorem sendResult_partners : (sendResult s f n ws late).partners = s.partners := rfl
@[simp] theorem sendResult_podNumber : (sendResult s f n ws late).podNumber = s.podNumber := rfl
@[simp] theorem sendResult_store : (sendResult s f n ws late).store = s.store := rfl
@[simp] theorem sendResult_images : (sendResult s f n ws late).images = s.images := rfl
@[simp] theorem sendResult_report : (sendResult s f n ws late).report = s.report := rfl
@[simp] theorem sendResult_reqs : (sendResult s f n ws late).reqs = s.reqs := rfl
@[simp] theorem sendResult_faulted : (sendResult s f n ws late).faulted = s.faulted := rfl
@[simp] theorem sendResult_wreqs : (sendResult s f n ws late).wreqs = s.wreqs := rfl
@[simp] theorem sendResult_net : (sendResult s f n ws late).net = s.net := rfl
@[simp] theorem sendResult_arrivals : (sendResult s f n ws late).arrivals = s.arrivals := rfl
@[simp] theorem sendResult_mail : (sendResult s f n ws late).mail = s.mail := rfl
@[simp] theorem sendResult_caps : (sendResult s f n ws late).caps = s.caps := rfl
@[simp] theorem sendResult_flushes : (sendResult s f n ws late).flushes = s.flushes := rfl
@[simp] theorem sendResult_drops : (sendResult s f n ws late).drops = s.drops := rfl
@[simp] theorem sendResult_sched : (sendResult s f n ws late).sched = s.sched := rfl
@[simp] theorem sendResult_turn : (sendResult s f n ws late).turn = s.turn := rfl
@[simp] theorem sendResult_iss : (sendResult s f n ws late).iss = s.iss := rfl
@[simp] theorem sendResult_tick : (sendResult s f n ws late).tick = s.tick := rfl

/-! postMail -/

@[simp] theorem postMail_time : (postMail s n i0 i1 i2 i3).time = s.time := rfl
@[simp] theorem postMail_pkg : (postMail s n i0 i1 i2 i3).pkg = s.pkg := rfl
@[simp] theorem postMail_stage : (postMail s n i0 i1 i2 i3).stage = s.stage := rfl
@[simp] theorem postMail_powered : (postMail s n i0 i1 i2 i3).powered = s.powered := rfl
@[simp] theorem postMail_mem : (postMail s n i0 i1 i2 i3).mem = s.mem := rfl
@[simp] theorem postMail_full : (postMail s n i0 i1 i2 i3).full = s.full := rfl
@[simp] theorem postMail_poison : (postMail s n i0 i1 i2 i3).poison = s.poison := rfl
@[simp] theorem postMail_copyMarks : (postMail s n i0 i1 i2 i3).copyMarks = s.copyMarks := rfl
@[simp] theorem postMail_behind : (postMail s n i0 i1 i2 i3).behind = s.behind := rfl
@[simp] theorem postMail_racing : (postMail s n i0 i1 i2 i3).racing = s.racing := rfl
@[simp] theorem postMail_cores : (postMail s n i0 i1 i2 i3).cores = s.cores := rfl
@[simp] theorem postMail_lfsr : (postMail s n i0 i1 i2 i3).lfsr = s.lfsr := rfl
@[simp] theorem postMail_ctxs : (postMail s n i0 i1 i2 i3).ctxs = s.ctxs := rfl
@[simp] theorem postMail_clusters : (postMail s n i0 i1 i2 i3).clusters = s.clusters := rfl
@[simp] theorem postMail_slices : (postMail s n i0 i1 i2 i3).slices = s.slices := rfl
@[simp] theorem postMail_dies : (postMail s n i0 i1 i2 i3).dies = s.dies := rfl
@[simp] theorem postMail_experts : (postMail s n i0 i1 i2 i3).experts = s.experts := rfl
@[simp] theorem postMail_copies : (postMail s n i0 i1 i2 i3).copies = s.copies := rfl
@[simp] theorem postMail_updates : (postMail s n i0 i1 i2 i3).updates = s.updates := rfl
@[simp] theorem postMail_parts : (postMail s n i0 i1 i2 i3).parts = s.parts := rfl
@[simp] theorem postMail_barriers : (postMail s n i0 i1 i2 i3).barriers = s.barriers := rfl
@[simp] theorem postMail_launches : (postMail s n i0 i1 i2 i3).launches = s.launches := rfl
@[simp] theorem postMail_outcomes : (postMail s n i0 i1 i2 i3).outcomes = s.outcomes := rfl
@[simp] theorem postMail_queues : (postMail s n i0 i1 i2 i3).queues = s.queues := rfl
@[simp] theorem postMail_ignored : (postMail s n i0 i1 i2 i3).ignored = s.ignored := rfl
@[simp] theorem postMail_links : (postMail s n i0 i1 i2 i3).links = s.links := rfl
@[simp] theorem postMail_detours : (postMail s n i0 i1 i2 i3).detours = s.detours := rfl
@[simp] theorem postMail_chief : (postMail s n i0 i1 i2 i3).chief = s.chief := rfl
@[simp] theorem postMail_power : (postMail s n i0 i1 i2 i3).power = s.power := rfl
@[simp] theorem postMail_lowering : (postMail s n i0 i1 i2 i3).lowering = s.lowering := rfl
@[simp] theorem postMail_partners : (postMail s n i0 i1 i2 i3).partners = s.partners := rfl
@[simp] theorem postMail_podNumber : (postMail s n i0 i1 i2 i3).podNumber = s.podNumber := rfl
@[simp] theorem postMail_store : (postMail s n i0 i1 i2 i3).store = s.store := rfl
@[simp] theorem postMail_images : (postMail s n i0 i1 i2 i3).images = s.images := rfl
@[simp] theorem postMail_report : (postMail s n i0 i1 i2 i3).report = s.report := rfl
@[simp] theorem postMail_reqs : (postMail s n i0 i1 i2 i3).reqs = s.reqs := rfl
@[simp] theorem postMail_faulted : (postMail s n i0 i1 i2 i3).faulted = s.faulted := rfl
@[simp] theorem postMail_wreqs : (postMail s n i0 i1 i2 i3).wreqs = s.wreqs := rfl
@[simp] theorem postMail_rets : (postMail s n i0 i1 i2 i3).rets = s.rets := rfl
@[simp] theorem postMail_net : (postMail s n i0 i1 i2 i3).net = s.net := rfl
@[simp] theorem postMail_arrivals : (postMail s n i0 i1 i2 i3).arrivals = s.arrivals := rfl
@[simp] theorem postMail_caps : (postMail s n i0 i1 i2 i3).caps = s.caps := rfl
@[simp] theorem postMail_flushes : (postMail s n i0 i1 i2 i3).flushes = s.flushes := rfl
@[simp] theorem postMail_drops : (postMail s n i0 i1 i2 i3).drops = s.drops := rfl
@[simp] theorem postMail_sched : (postMail s n i0 i1 i2 i3).sched = s.sched := rfl
@[simp] theorem postMail_turn : (postMail s n i0 i1 i2 i3).turn = s.turn := rfl
@[simp] theorem postMail_iss : (postMail s n i0 i1 i2 i3).iss = s.iss := rfl
@[simp] theorem postMail_tick : (postMail s n i0 i1 i2 i3).tick = s.tick := rfl
@[simp] theorem postMail_ord : (postMail s n i0 i1 i2 i3).ord = s.ord := rfl

/-! pushMsg -/

@[simp] theorem pushMsg_time : (pushMsg s m).time = s.time := rfl
@[simp] theorem pushMsg_pkg : (pushMsg s m).pkg = s.pkg := rfl
@[simp] theorem pushMsg_stage : (pushMsg s m).stage = s.stage := rfl
@[simp] theorem pushMsg_powered : (pushMsg s m).powered = s.powered := rfl
@[simp] theorem pushMsg_mem : (pushMsg s m).mem = s.mem := rfl
@[simp] theorem pushMsg_full : (pushMsg s m).full = s.full := rfl
@[simp] theorem pushMsg_poison : (pushMsg s m).poison = s.poison := rfl
@[simp] theorem pushMsg_copyMarks : (pushMsg s m).copyMarks = s.copyMarks := rfl
@[simp] theorem pushMsg_behind : (pushMsg s m).behind = s.behind := rfl
@[simp] theorem pushMsg_racing : (pushMsg s m).racing = s.racing := rfl
@[simp] theorem pushMsg_cores : (pushMsg s m).cores = s.cores := rfl
@[simp] theorem pushMsg_lfsr : (pushMsg s m).lfsr = s.lfsr := rfl
@[simp] theorem pushMsg_ctxs : (pushMsg s m).ctxs = s.ctxs := rfl
@[simp] theorem pushMsg_clusters : (pushMsg s m).clusters = s.clusters := rfl
@[simp] theorem pushMsg_slices : (pushMsg s m).slices = s.slices := rfl
@[simp] theorem pushMsg_dies : (pushMsg s m).dies = s.dies := rfl
@[simp] theorem pushMsg_experts : (pushMsg s m).experts = s.experts := rfl
@[simp] theorem pushMsg_copies : (pushMsg s m).copies = s.copies := rfl
@[simp] theorem pushMsg_updates : (pushMsg s m).updates = s.updates := rfl
@[simp] theorem pushMsg_parts : (pushMsg s m).parts = s.parts := rfl
@[simp] theorem pushMsg_barriers : (pushMsg s m).barriers = s.barriers := rfl
@[simp] theorem pushMsg_launches : (pushMsg s m).launches = s.launches := rfl
@[simp] theorem pushMsg_outcomes : (pushMsg s m).outcomes = s.outcomes := rfl
@[simp] theorem pushMsg_queues : (pushMsg s m).queues = s.queues := rfl
@[simp] theorem pushMsg_ignored : (pushMsg s m).ignored = s.ignored := rfl
@[simp] theorem pushMsg_links : (pushMsg s m).links = s.links := rfl
@[simp] theorem pushMsg_detours : (pushMsg s m).detours = s.detours := rfl
@[simp] theorem pushMsg_chief : (pushMsg s m).chief = s.chief := rfl
@[simp] theorem pushMsg_power : (pushMsg s m).power = s.power := rfl
@[simp] theorem pushMsg_lowering : (pushMsg s m).lowering = s.lowering := rfl
@[simp] theorem pushMsg_partners : (pushMsg s m).partners = s.partners := rfl
@[simp] theorem pushMsg_podNumber : (pushMsg s m).podNumber = s.podNumber := rfl
@[simp] theorem pushMsg_store : (pushMsg s m).store = s.store := rfl
@[simp] theorem pushMsg_images : (pushMsg s m).images = s.images := rfl
@[simp] theorem pushMsg_report : (pushMsg s m).report = s.report := rfl
@[simp] theorem pushMsg_reqs : (pushMsg s m).reqs = s.reqs := rfl
@[simp] theorem pushMsg_faulted : (pushMsg s m).faulted = s.faulted := rfl
@[simp] theorem pushMsg_wreqs : (pushMsg s m).wreqs = s.wreqs := rfl
@[simp] theorem pushMsg_rets : (pushMsg s m).rets = s.rets := rfl
@[simp] theorem pushMsg_arrivals : (pushMsg s m).arrivals = s.arrivals := rfl
@[simp] theorem pushMsg_mail : (pushMsg s m).mail = s.mail := rfl
@[simp] theorem pushMsg_caps : (pushMsg s m).caps = s.caps := rfl
@[simp] theorem pushMsg_flushes : (pushMsg s m).flushes = s.flushes := rfl
@[simp] theorem pushMsg_drops : (pushMsg s m).drops = s.drops := rfl
@[simp] theorem pushMsg_sched : (pushMsg s m).sched = s.sched := rfl
@[simp] theorem pushMsg_turn : (pushMsg s m).turn = s.turn := rfl
@[simp] theorem pushMsg_iss : (pushMsg s m).iss = s.iss := rfl
@[simp] theorem pushMsg_tick : (pushMsg s m).tick = s.tick := rfl

/-! setLfsr -/

@[simp] theorem setLfsr_time : (setLfsr s c k lv b).time = s.time := rfl
@[simp] theorem setLfsr_pkg : (setLfsr s c k lv b).pkg = s.pkg := rfl
@[simp] theorem setLfsr_stage : (setLfsr s c k lv b).stage = s.stage := rfl
@[simp] theorem setLfsr_powered : (setLfsr s c k lv b).powered = s.powered := rfl
@[simp] theorem setLfsr_mem : (setLfsr s c k lv b).mem = s.mem := rfl
@[simp] theorem setLfsr_full : (setLfsr s c k lv b).full = s.full := rfl
@[simp] theorem setLfsr_poison : (setLfsr s c k lv b).poison = s.poison := rfl
@[simp] theorem setLfsr_copyMarks : (setLfsr s c k lv b).copyMarks = s.copyMarks := rfl
@[simp] theorem setLfsr_behind : (setLfsr s c k lv b).behind = s.behind := rfl
@[simp] theorem setLfsr_racing : (setLfsr s c k lv b).racing = s.racing := rfl
@[simp] theorem setLfsr_cores : (setLfsr s c k lv b).cores = s.cores := rfl
@[simp] theorem setLfsr_ctxs : (setLfsr s c k lv b).ctxs = s.ctxs := rfl
@[simp] theorem setLfsr_clusters : (setLfsr s c k lv b).clusters = s.clusters := rfl
@[simp] theorem setLfsr_slices : (setLfsr s c k lv b).slices = s.slices := rfl
@[simp] theorem setLfsr_dies : (setLfsr s c k lv b).dies = s.dies := rfl
@[simp] theorem setLfsr_experts : (setLfsr s c k lv b).experts = s.experts := rfl
@[simp] theorem setLfsr_copies : (setLfsr s c k lv b).copies = s.copies := rfl
@[simp] theorem setLfsr_updates : (setLfsr s c k lv b).updates = s.updates := rfl
@[simp] theorem setLfsr_parts : (setLfsr s c k lv b).parts = s.parts := rfl
@[simp] theorem setLfsr_barriers : (setLfsr s c k lv b).barriers = s.barriers := rfl
@[simp] theorem setLfsr_launches : (setLfsr s c k lv b).launches = s.launches := rfl
@[simp] theorem setLfsr_outcomes : (setLfsr s c k lv b).outcomes = s.outcomes := rfl
@[simp] theorem setLfsr_queues : (setLfsr s c k lv b).queues = s.queues := rfl
@[simp] theorem setLfsr_ignored : (setLfsr s c k lv b).ignored = s.ignored := rfl
@[simp] theorem setLfsr_links : (setLfsr s c k lv b).links = s.links := rfl
@[simp] theorem setLfsr_detours : (setLfsr s c k lv b).detours = s.detours := rfl
@[simp] theorem setLfsr_chief : (setLfsr s c k lv b).chief = s.chief := rfl
@[simp] theorem setLfsr_power : (setLfsr s c k lv b).power = s.power := rfl
@[simp] theorem setLfsr_lowering : (setLfsr s c k lv b).lowering = s.lowering := rfl
@[simp] theorem setLfsr_partners : (setLfsr s c k lv b).partners = s.partners := rfl
@[simp] theorem setLfsr_podNumber : (setLfsr s c k lv b).podNumber = s.podNumber := rfl
@[simp] theorem setLfsr_store : (setLfsr s c k lv b).store = s.store := rfl
@[simp] theorem setLfsr_images : (setLfsr s c k lv b).images = s.images := rfl
@[simp] theorem setLfsr_report : (setLfsr s c k lv b).report = s.report := rfl
@[simp] theorem setLfsr_reqs : (setLfsr s c k lv b).reqs = s.reqs := rfl
@[simp] theorem setLfsr_faulted : (setLfsr s c k lv b).faulted = s.faulted := rfl
@[simp] theorem setLfsr_wreqs : (setLfsr s c k lv b).wreqs = s.wreqs := rfl
@[simp] theorem setLfsr_rets : (setLfsr s c k lv b).rets = s.rets := rfl
@[simp] theorem setLfsr_net : (setLfsr s c k lv b).net = s.net := rfl
@[simp] theorem setLfsr_arrivals : (setLfsr s c k lv b).arrivals = s.arrivals := rfl
@[simp] theorem setLfsr_mail : (setLfsr s c k lv b).mail = s.mail := rfl
@[simp] theorem setLfsr_caps : (setLfsr s c k lv b).caps = s.caps := rfl
@[simp] theorem setLfsr_flushes : (setLfsr s c k lv b).flushes = s.flushes := rfl
@[simp] theorem setLfsr_drops : (setLfsr s c k lv b).drops = s.drops := rfl
@[simp] theorem setLfsr_sched : (setLfsr s c k lv b).sched = s.sched := rfl
@[simp] theorem setLfsr_turn : (setLfsr s c k lv b).turn = s.turn := rfl
@[simp] theorem setLfsr_iss : (setLfsr s c k lv b).iss = s.iss := rfl
@[simp] theorem setLfsr_tick : (setLfsr s c k lv b).tick = s.tick := rfl
@[simp] theorem setLfsr_ord : (setLfsr s c k lv b).ord = s.ord := rfl

/-! setQueue -/

@[simp] theorem setQueue_time : (setQueue s n q).time = s.time := rfl
@[simp] theorem setQueue_pkg : (setQueue s n q).pkg = s.pkg := rfl
@[simp] theorem setQueue_stage : (setQueue s n q).stage = s.stage := rfl
@[simp] theorem setQueue_powered : (setQueue s n q).powered = s.powered := rfl
@[simp] theorem setQueue_mem : (setQueue s n q).mem = s.mem := rfl
@[simp] theorem setQueue_full : (setQueue s n q).full = s.full := rfl
@[simp] theorem setQueue_poison : (setQueue s n q).poison = s.poison := rfl
@[simp] theorem setQueue_copyMarks : (setQueue s n q).copyMarks = s.copyMarks := rfl
@[simp] theorem setQueue_behind : (setQueue s n q).behind = s.behind := rfl
@[simp] theorem setQueue_racing : (setQueue s n q).racing = s.racing := rfl
@[simp] theorem setQueue_cores : (setQueue s n q).cores = s.cores := rfl
@[simp] theorem setQueue_lfsr : (setQueue s n q).lfsr = s.lfsr := rfl
@[simp] theorem setQueue_ctxs : (setQueue s n q).ctxs = s.ctxs := rfl
@[simp] theorem setQueue_clusters : (setQueue s n q).clusters = s.clusters := rfl
@[simp] theorem setQueue_slices : (setQueue s n q).slices = s.slices := rfl
@[simp] theorem setQueue_dies : (setQueue s n q).dies = s.dies := rfl
@[simp] theorem setQueue_experts : (setQueue s n q).experts = s.experts := rfl
@[simp] theorem setQueue_copies : (setQueue s n q).copies = s.copies := rfl
@[simp] theorem setQueue_updates : (setQueue s n q).updates = s.updates := rfl
@[simp] theorem setQueue_parts : (setQueue s n q).parts = s.parts := rfl
@[simp] theorem setQueue_barriers : (setQueue s n q).barriers = s.barriers := rfl
@[simp] theorem setQueue_launches : (setQueue s n q).launches = s.launches := rfl
@[simp] theorem setQueue_outcomes : (setQueue s n q).outcomes = s.outcomes := rfl
@[simp] theorem setQueue_ignored : (setQueue s n q).ignored = s.ignored := rfl
@[simp] theorem setQueue_links : (setQueue s n q).links = s.links := rfl
@[simp] theorem setQueue_detours : (setQueue s n q).detours = s.detours := rfl
@[simp] theorem setQueue_chief : (setQueue s n q).chief = s.chief := rfl
@[simp] theorem setQueue_power : (setQueue s n q).power = s.power := rfl
@[simp] theorem setQueue_lowering : (setQueue s n q).lowering = s.lowering := rfl
@[simp] theorem setQueue_partners : (setQueue s n q).partners = s.partners := rfl
@[simp] theorem setQueue_podNumber : (setQueue s n q).podNumber = s.podNumber := rfl
@[simp] theorem setQueue_store : (setQueue s n q).store = s.store := rfl
@[simp] theorem setQueue_images : (setQueue s n q).images = s.images := rfl
@[simp] theorem setQueue_report : (setQueue s n q).report = s.report := rfl
@[simp] theorem setQueue_reqs : (setQueue s n q).reqs = s.reqs := rfl
@[simp] theorem setQueue_faulted : (setQueue s n q).faulted = s.faulted := rfl
@[simp] theorem setQueue_wreqs : (setQueue s n q).wreqs = s.wreqs := rfl
@[simp] theorem setQueue_rets : (setQueue s n q).rets = s.rets := rfl
@[simp] theorem setQueue_net : (setQueue s n q).net = s.net := rfl
@[simp] theorem setQueue_arrivals : (setQueue s n q).arrivals = s.arrivals := rfl
@[simp] theorem setQueue_mail : (setQueue s n q).mail = s.mail := rfl
@[simp] theorem setQueue_caps : (setQueue s n q).caps = s.caps := rfl
@[simp] theorem setQueue_flushes : (setQueue s n q).flushes = s.flushes := rfl
@[simp] theorem setQueue_drops : (setQueue s n q).drops = s.drops := rfl
@[simp] theorem setQueue_sched : (setQueue s n q).sched = s.sched := rfl
@[simp] theorem setQueue_turn : (setQueue s n q).turn = s.turn := rfl
@[simp] theorem setQueue_iss : (setQueue s n q).iss = s.iss := rfl
@[simp] theorem setQueue_tick : (setQueue s n q).tick = s.tick := rfl
@[simp] theorem setQueue_ord : (setQueue s n q).ord = s.ord := rfl

/-! modCtx -/

@[simp] theorem modCtx_time : (modCtx s f F).time = s.time := by unfold modCtx; split <;> rfl
@[simp] theorem modCtx_pkg : (modCtx s f F).pkg = s.pkg := by unfold modCtx; split <;> rfl
@[simp] theorem modCtx_stage : (modCtx s f F).stage = s.stage := by unfold modCtx; split <;> rfl
@[simp] theorem modCtx_powered : (modCtx s f F).powered = s.powered := by unfold modCtx; split <;> rfl
@[simp] theorem modCtx_mem : (modCtx s f F).mem = s.mem := by unfold modCtx; split <;> rfl
@[simp] theorem modCtx_full : (modCtx s f F).full = s.full := by unfold modCtx; split <;> rfl
@[simp] theorem modCtx_poison : (modCtx s f F).poison = s.poison := by unfold modCtx; split <;> rfl
@[simp] theorem modCtx_copyMarks : (modCtx s f F).copyMarks = s.copyMarks := by unfold modCtx; split <;> rfl
@[simp] theorem modCtx_behind : (modCtx s f F).behind = s.behind := by unfold modCtx; split <;> rfl
@[simp] theorem modCtx_racing : (modCtx s f F).racing = s.racing := by unfold modCtx; split <;> rfl
@[simp] theorem modCtx_cores : (modCtx s f F).cores = s.cores := by unfold modCtx; split <;> rfl
@[simp] theorem modCtx_lfsr : (modCtx s f F).lfsr = s.lfsr := by unfold modCtx; split <;> rfl
@[simp] theorem modCtx_clusters : (modCtx s f F).clusters = s.clusters := by unfold modCtx; split <;> rfl
@[simp] theorem modCtx_slices : (modCtx s f F).slices = s.slices := by unfold modCtx; split <;> rfl
@[simp] theorem modCtx_dies : (modCtx s f F).dies = s.dies := by unfold modCtx; split <;> rfl
@[simp] theorem modCtx_experts : (modCtx s f F).experts = s.experts := by unfold modCtx; split <;> rfl
@[simp] theorem modCtx_copies : (modCtx s f F).copies = s.copies := by unfold modCtx; split <;> rfl
@[simp] theorem modCtx_updates : (modCtx s f F).updates = s.updates := by unfold modCtx; split <;> rfl
@[simp] theorem modCtx_parts : (modCtx s f F).parts = s.parts := by unfold modCtx; split <;> rfl
@[simp] theorem modCtx_barriers : (modCtx s f F).barriers = s.barriers := by unfold modCtx; split <;> rfl
@[simp] theorem modCtx_launches : (modCtx s f F).launches = s.launches := by unfold modCtx; split <;> rfl
@[simp] theorem modCtx_outcomes : (modCtx s f F).outcomes = s.outcomes := by unfold modCtx; split <;> rfl
@[simp] theorem modCtx_queues : (modCtx s f F).queues = s.queues := by unfold modCtx; split <;> rfl
@[simp] theorem modCtx_ignored : (modCtx s f F).ignored = s.ignored := by unfold modCtx; split <;> rfl
@[simp] theorem modCtx_links : (modCtx s f F).links = s.links := by unfold modCtx; split <;> rfl
@[simp] theorem modCtx_detours : (modCtx s f F).detours = s.detours := by unfold modCtx; split <;> rfl
@[simp] theorem modCtx_chief : (modCtx s f F).chief = s.chief := by unfold modCtx; split <;> rfl
@[simp] theorem modCtx_power : (modCtx s f F).power = s.power := by unfold modCtx; split <;> rfl
@[simp] theorem modCtx_lowering : (modCtx s f F).lowering = s.lowering := by unfold modCtx; split <;> rfl
@[simp] theorem modCtx_partners : (modCtx s f F).partners = s.partners := by unfold modCtx; split <;> rfl
@[simp] theorem modCtx_podNumber : (modCtx s f F).podNumber = s.podNumber := by unfold modCtx; split <;> rfl
@[simp] theorem modCtx_store : (modCtx s f F).store = s.store := by unfold modCtx; split <;> rfl
@[simp] theorem modCtx_images : (modCtx s f F).images = s.images := by unfold modCtx; split <;> rfl
@[simp] theorem modCtx_report : (modCtx s f F).report = s.report := by unfold modCtx; split <;> rfl
@[simp] theorem modCtx_reqs : (modCtx s f F).reqs = s.reqs := by unfold modCtx; split <;> rfl
@[simp] theorem modCtx_faulted : (modCtx s f F).faulted = s.faulted := by unfold modCtx; split <;> rfl
@[simp] theorem modCtx_wreqs : (modCtx s f F).wreqs = s.wreqs := by unfold modCtx; split <;> rfl
@[simp] theorem modCtx_rets : (modCtx s f F).rets = s.rets := by unfold modCtx; split <;> rfl
@[simp] theorem modCtx_net : (modCtx s f F).net = s.net := by unfold modCtx; split <;> rfl
@[simp] theorem modCtx_arrivals : (modCtx s f F).arrivals = s.arrivals := by unfold modCtx; split <;> rfl
@[simp] theorem modCtx_mail : (modCtx s f F).mail = s.mail := by unfold modCtx; split <;> rfl
@[simp] theorem modCtx_caps : (modCtx s f F).caps = s.caps := by unfold modCtx; split <;> rfl
@[simp] theorem modCtx_flushes : (modCtx s f F).flushes = s.flushes := by unfold modCtx; split <;> rfl
@[simp] theorem modCtx_drops : (modCtx s f F).drops = s.drops := by unfold modCtx; split <;> rfl
@[simp] theorem modCtx_sched : (modCtx s f F).sched = s.sched := by unfold modCtx; split <;> rfl
@[simp] theorem modCtx_turn : (modCtx s f F).turn = s.turn := by unfold modCtx; split <;> rfl
@[simp] theorem modCtx_iss : (modCtx s f F).iss = s.iss := by unfold modCtx; split <;> rfl
@[simp] theorem modCtx_tick : (modCtx s f F).tick = s.tick := by unfold modCtx; split <;> rfl
@[simp] theorem modCtx_ord : (modCtx s f F).ord = s.ord := by unfold modCtx; split <;> rfl

/-! What `setEnd` and `startIssue` set. -/

@[simp] theorem setEnd_iss : (setEnd s e).iss = { s.iss with res := e } := rfl
@[simp] theorem startIssue_iss : (startIssue s c k pc nx w).iss =
    { core := c, slot := k, pc := pc, next := nx, word := w, res := .completed } := rfl

end Sys2Proof.Machine
end

