-- ==== Sys2Proof/Laws/Traps.lean ====
section
/-! SUPPORT. Laws of holding an issue, of when a trap is taken and which way it goes (R42, R115, R133), and of clearing a
range of memory. -/

namespace Sys2Proof.Machine

set_option Elab.async false

variable {s : State} {f : Nat} {x : Ctx} {t u : TrapInfo}

/-- Everything that holding does. -/
theorem hold_eq (w : Wait) (hx : ctxOf s f = some x) :
    hold w f s = { s with ctxs := SMap.set none s.ctxs f (some { x with wait := some w, issued := x.issued && x.wait.isSome })
                          iss := { s.iss with res := .held } } := by
  simp only [hold, modCtx, hx, setEnd, setCtx]

/-- An instruction whose long result finds no free entry holds (R40). -/
theorem withEntry_none {d0 d1 : BitVec 8} {body : Nat → State → State} (h : freeEntry s f = none) :
    withEntry d0 d1 f s body = hold .retry f s := by simp only [withEntry, h]

theorem withEntry_some {d0 d1 : BitVec 8} {body : Nat → State → State} {e : Nat} (h : freeEntry s f = some e) :
    withEntry d0 d1 f s body = body e (openEntry s f e d0 d1) := by simp only [withEntry, h]

theorem noPending_modCtx {F : Ctx → Ctx} (h : ∀ y, (F y).core = y.core ∧ (F y).slot = y.slot) (g : Nat) :
    noPending (modCtx s f F) g = noPending s g := by
  have r : ∀ k, entryFree (modCtx s f F) g k = entryFree s g k := fun k => by
    simp only [entryFree, entryOf, readFrame_modCtx h]
  simp only [noPending, funext r]

/-- With a long result outstanding a trap waits (R42). -/
theorem takeTrap_waits (h : noPending s f = false) : takeTrap s f t = modCtx s f fun x => { x with trap := some t, wait := none } := by
  unfold takeTrap
  rw [if_neg]
  rw [noPending_modCtx (by intro y; exact ⟨rfl, rfl⟩), h]
  exact Bool.false_ne_true

/-- With none it is resolved at once. -/
theorem takeTrap_resolves (h : noPending s f = true) :
    takeTrap s f t = resolveTrap (modCtx s f fun x => { x with trap := some t, wait := none }) f := by
  unfold takeTrap
  rw [if_pos]
  rw [noPending_modCtx (by intro y; exact ⟨rfl, rfl⟩), h]

/-- Everything that blocking does. -/
theorem block_eq (w : Wait) (hx : ctxOf s f = some x) :
    block w f s = { s with ctxs := SMap.set none s.ctxs f (some { x with wait := some w, issued := true, live := none })
                           iss := { s.iss with res := .blocked } } := by
  simp only [block, modCtx, hx, setEnd, setCtx]

/-- The earliest fault of the run comes before an exact trap of a later instruction (R115). -/
theorem resolveTrap_late {k : Nat} {rest : List (Nat × TrapInfo)} (hx : ctxOf s f = some x)
    (hl : runLate s f x = (k, u) :: rest) (ht : x.trap = none ∨ ∃ t, x.trap = some t ∧ t.async = false) :
    resolveTrap s f = takeLate s f u rest := by
  rcases ht with ht | ⟨t, ht, ha⟩
  · simp only [resolveTrap, hx, hl, ht]
  · simp only [resolveTrap, hx, hl, ht, ha, Bool.false_eq_true, if_false]

theorem resolveTrap_trap (hx : ctxOf s f = some x) (hl : runLate s f x = []) (ht : x.trap = some t) :
    resolveTrap s f = enterTrap (modCtx s f fun x => { x with trap := none }) f t := by
  simp only [resolveTrap, hx, hl, ht]

/-- A code of the supervisor's never enters a handler unless a reply forces it (R131, R134). -/
theorem delivered_supervisor (h : supervisorCode t = true) (hf : t.force = false) : delivered s f t = false := by
  simp only [delivered, h, hf, Bool.not_true, Bool.false_and, Bool.or_false]

theorem tidyMemory_clearRange {lo n : Nat} (h : tidyMemory s = true) : tidyMemory (clearRange s lo n) = true := by
  simp only [tidyMemory, Bool.and_eq_true] at h ⊢
  exact ⟨⟨SMap.wf_filter _ h.1.1, SMap.wf_filter _ h.1.2⟩, SMap.wf_filter _ h.2⟩

end Sys2Proof.Machine
end

