-- ==== Sys2Proof/Tests/Slice0.lean ====
section
/-! SUPPORT. Small tests, each theorem about one step or one word: decoding of words the spec writes out, an ill-formed
term for each check of well-formedness, effects with results computed by hand from the spec, and, for every statement,
states and operands that meet its hypotheses. -/

namespace Sys2Proof.Tests

open Sys2Proof.Machine

set_option Elab.async false

/-! Terms. -/

def hdr (t : BitVec 5) (fn : BitVec 6 := 0) : Hdr := ⟨fn, false, 0, false, t⟩
/-- The guard `(!p0)`, which never holds (R56). -/
def never (t : BitVec 5) : Hdr := ⟨0, false, 0, true, t⟩
def rr (t : BitVec 5) (d a b : BitVec 8) (c : BitVec 8 := 0) (imm : BitVec 32 := 0) (q : BitVec 8 := 0) (fn : BitVec 6 := 0) :
    RWord := ⟨hdr t fn, q, d, a, b, c, imm⟩
/-- `data, sK[g0 + off]`. -/
def mm (t : BitVec 5) (data : BitVec 8) (seg : BitVec 3) (off : BitVec 32) (q : BitVec 8 := 0) (fn : BitVec 6 := 0) : MWord :=
  ⟨hdr t fn, q, data, 0, seg, 0, 0xFF, off⟩

/-! States. -/

/-- A control context, frame 2, in slot 0 of core 0, that issues; both engines are bound to its slot. -/
def base : State :=
  let s := writeFrame (seedContext State.reset) 2 wEngbind 0x8080
  { s with iss := { core := 0, slot := 0, pc := 0x10000, next := 0x10001 } }

/-- A register set. -/
def reg (s : State) (d : BitVec 8) (v : Nat) : State := writeReg s 2 d v
/-- The context changed. -/
def ctx (s : State) (g : Ctx → Ctx) : State := modCtx s 2 g
/-- The context is a supervisor's (R130). -/
def sup (s : State) : State := setStatus s 2 6 6 1
/-- The context is a helper of its task (R119). -/
def helper (s : State) : State := writeFrame s 2 wCtxid (ctxidWord 1 0 1 0)
/-- The context is a service context of a class. -/
def service (s : State) (k : Nat) : State := writeFrame s 2 wCtxid (ctxidWord 1 0 2 k)
def x0 : Ctx := { core := 0, slot := 0, bind := 0 }
/-- Bank `b` of cluster 0 in a mode. -/
def bank (s : State) (b : Nat) (m : BitVec 2) : State := setBankMode s 0 b m
/-- The pending results of the context: its first entry awaits `g9`. -/
def pending : State := setEntry base 2 0 (2 ^ 31 + 9)
/-- A task with three frames. -/
def roomy : State := modTask base 0 0 fun t => { t with fpt := 4, own := [2, 14, 26] }
/-- A second context, frame 14, in slot 1. -/
def pair2 : State := match startContext roomy 0 0 1 0 0x20000 [7, 8, 9] none with
  | some p => p.2
  | none => base

/-! What meets the hypotheses of the statements. -/

theorem base_ctx : ctxOf base 2 = some x0 := by decide +kernel
theorem base_bound : bound base 2 = true := by decide +kernel
theorem base_atOnce : trapsAtOnce base 2 = true := by decide +kernel
theorem base_free : freeEntry base 2 = some 0 := by decide +kernel

/-- With B = 0 and with B = 3, signed and unsigned. -/
theorem meets_IntegerArithmetic :
    canIssue (.add (rr 4 5 3 4)) (hdr 4) [3, 4] base 2 = true ∧ canIssue (.sub (rr 8 0 3 0xFF)) (hdr 8) [3, 0xFF] base 2 = true ∧
    canIssue (.mul (rr 1 5 3 4)) (hdr 1) [3, 4] base 2 = true ∧ canIssue (.mulh (rr 4 5 3 4)) (hdr 4) [3, 4] base 2 = true ∧
    canIssue (.min (rr 5 5 3 4)) (hdr 5) [3, 4] base 2 = true ∧ canIssue (.max (rr 8 5 3 4)) (hdr 8) [3, 4] base 2 = true ∧
    canIssue (.div (rr 4 5 3 4)) (hdr 4) [3, 4] (reg base 4 3) 2 = true ∧ (freeEntry (reg base 4 3) 2).isSome = true ∧
    canIssue (.rem (rr 8 5 3 4)) (hdr 8) [3, 4] base 2 = true ∧ val base 2 8 4 0 = 0 ∧ val (reg base 4 3) 2 4 4 0 = 3 := by
  decide +kernel

theorem meets_LogicShiftsAndFields :
    canIssue (.and (rr 8 5 3 4)) (hdr 8) [3, 4] base 2 = true ∧ canIssue (.or (rr 8 5 3 4)) (hdr 8) [3, 4] base 2 = true ∧
    canIssue (.xor (rr 8 5 3 4)) (hdr 8) [3, 4] base 2 = true ∧ canIssue (.andn (rr 8 5 3 4)) (hdr 8) [3, 4] base 2 = true ∧
    canIssue (.shl (rr 8 5 3 4)) (hdr 8) [3, 4] base 2 = true ∧ canIssue (.shr (rr 8 5 3 4)) (hdr 8) [3, 4] base 2 = true ∧
    canIssue (.sra (rr 4 5 3 4)) (hdr 4) [3, 4] base 2 = true ∧ canIssue (.rot (rr 8 5 3 4)) (hdr 8) [3, 4] base 2 = true ∧
    canIssue (.lea (rr 8 5 3 4)) (hdr 8) [3, 4] base 2 = true ∧ canIssue (.bfx (rr 8 5 3 0 0 0x3F00)) (hdr 8) [3] base 2 = true ∧
    canIssue (.bfi (rr 8 5 3 4 0 0x003F)) (hdr 8) [3, 4] base 2 = true ∧ canIssue (.clz (rr 8 5 3 0)) (hdr 8) [3] base 2 = true ∧
    canIssue (.ctz (rr 5 5 3 0)) (hdr 5) [3] base 2 = true ∧ canIssue (.popc (rr 8 5 3 0)) (hdr 8) [3] base 2 = true ∧
    canIssue (.brev (rr 8 5 3 0)) (hdr 8) [3] base 2 = true := by
  decide +kernel

/-- A condition that holds and one that does not; every condition code. -/
theorem meets_CompareSetsPredicate :
    (∀ c : Fin 6, canIssue (.cmp (rr 4 0x81 3 4 0 0 (BitVec.ofNat 8 c))) (hdr 4) [3, 4] base 2 = true) ∧
    val base 2 4 3 0 = val base 2 4 4 0 ∧ val (reg base 3 5) 2 4 3 0 ≠ val (reg base 3 5) 2 4 4 0 ∧
    WellFormed (.cmp (rr 1 0x81 3 0xFF 0 0 5)) := by
  decide +kernel

theorem meets_SelectByPredicate :
    canIssue (.sel (rr 0 5 3 4 0x81)) (hdr 0) [3, 4, 0x81] base 2 = true ∧ WellFormed (.sel (rr 0 5 3 0xFF 0x80 9)) := by
  decide +kernel

theorem meets_MovesAndPredicateLogic :
    canIssue (.mov (rr 0 5 0xFF 0)) (hdr 0) [0xFF] base 2 = true ∧ canIssue (.mov (rr 0 0x82 0x81 0)) (hdr 0) [0x81] base 2 = true ∧
    canIssue (.movi ⟨hdr 0, 5, 9⟩) (hdr 0) [] base 2 = true ∧ isG 5 = true ∧
    canIssue (.movi ⟨hdr 0, 0x45, 9⟩) (hdr 0) [] base 2 = true ∧ isV 0x45 = true ∧
    (∀ f : Fin 4, canIssue (.plog (rr 0 0x82 0x81 0x80 0 0 0 (BitVec.ofNat 6 f))) (hdr 0 (BitVec.ofNat 6 f)) [0x81, 0x80] base 2 = true) := by
  decide +kernel

/-- `base` with the line of address 0x10000 at hand, its five slots legal entries. -/
def lined : State := { seedLine base 2 0 with iss := base.iss }

/-- The machine whose line at 0x10000 has no entry at a slot. -/
def shut (s : State) (j : Nat) : State :=
  modCore s 0 fun c => { c with icache := c.icache.map fun p => (p.1, p.2 &&& ~~~(1#512 <<< (507 + j))) }
/-- The home of the line at 0x10000. -/
def codeLine : Target := { flat := 0x10000, home := some 1, off := 0x10000, cmp := false, unc := false }

theorem meets_ControlTransfers :
    canIssue (.br ⟨hdr 0, 0, 0, 0, 1⟩) (hdr 0) [0] lined 2 = true ∧ canIssue (.br ⟨hdr 0 2, 0, 9, 0, 4⟩) (hdr 0 2) [9] lined 2 = true ∧
    readReg lined 2 9 = 0 ∧ canIssue (.call ⟨hdr 0, 5, 0, 0, 0⟩) (hdr 0) [] lined 2 = true ∧
    lineAt lined 2 0x10000 = .ready codeLine (lineWith 0 0) ∧ (∀ k : Fin 5, (lineWith 0 0).getLsbD (507 + k) = true) ∧
    canIssue (.ret (rr 0 0 9 0)) (hdr 0) [9] (reg lined 9 0x10004) 2 = true ∧ readReg (reg lined 9 0x10004) 2 9 = 0x10004 ∧
    lineAt (reg lined 9 0x10004) 2 0x10000 = .ready codeLine (lineWith 0 0) ∧
    canIssue (.jmp (rr 0 5 9 0)) (hdr 0) [9] (reg lined 9 0x10004) 2 = true := by
  decide +kernel

theorem meets_TrapsAreRaised :
    canIssue (.ret (rr 0 0 9 0)) (hdr 0) [9] (reg base 9 0x10008) 2 = true ∧ canIssue (.jmp (rr 0 5 9 0)) (hdr 0) [9] (reg base 9 5) 2 = true ∧
    trapsAtOnce (reg base 9 5) 2 = true ∧ fld 0x10008#64 5 3 ≠ 0 ∧ 5 ≤ fld 5#64 2 0 ∧
    canIssue (.trap (rr 0 0 0 0 0 255)) (hdr 0) [] base 2 = true ∧ trapsAtOnce base 2 = true ∧
    delivered base 2 (exactTrap base 0x0A 255 0) = false ∧
    delivered (writeFrame base 2 wTvec 0x20000) 2 (exactTrap base 0x0A 255 0) = true ∧
    canIssue (.trap (rr 0 0 0 0)) (hdr 0) [] pending 2 = true ∧ noPending pending 2 = false ∧ ctxOf pending 2 = some x0 ∧
    bound base 2 = true ∧ issuer base = some 2 ∧ legal (.add (rr 0 5 3 4)) = false ∧
    canIssue (.br ⟨hdr 0, 0, 0, 0, 5⟩) (hdr 0) [0] base 2 = true ∧ branchTaken 0 (readReg base 2 0) = true ∧
    canIssue (.call ⟨hdr 0, 5, 0, 0, 7⟩) (hdr 0) [] base 2 = true ∧
    canIssue (.br ⟨hdr 0, 0, 0, 0, 3⟩) (hdr 0) [0] (shut lined 3) 2 = true ∧
    canIssue (.call ⟨hdr 0, 5, 0, 0, 3⟩) (hdr 0) [] (shut lined 3) 2 = true ∧
    canIssue (.ret (rr 0 0 9 0)) (hdr 0) [9] (shut (reg lined 9 0x10003) 3) 2 = true ∧
    canIssue (.jmp (rr 0 5 9 0)) (hdr 0) [9] (shut (reg lined 9 0x10003) 3) 2 = true ∧
    trapsAtOnce (shut lined 3) 2 = true ∧ trapsAtOnce (shut (reg lined 9 0x10003) 3) 2 = true ∧
    (match lineAt (shut lined 3) 2 0x10000 with | .ready t l => t == codeLine && !l.getLsbD 510 | _ => false) = true := by
  decide +kernel

/-- In a handler, `sys.epc` well-formed and not; outside one. -/
def handler (epc : Word) : State := setStatus (writeFrame base 2 wEpc epc) 2 5 5 1

theorem meets_TrapReturn :
    canIssue (.tret (rr 0 0 0 0)) (hdr 0) [] (handler 0x10004) 2 = true ∧ ctxOf (handler 0x10004) 2 = some x0 ∧
    stInh (statusOf (handler 0x10004) 2) = true ∧ fld (readFrame (handler 0x10004) 2 wEpc) 5 3 = 0 ∧
    fld (readFrame (handler 0x10004) 2 wEpc) 2 0 < 5 ∧ markedWord (handler 0x10004) 2 [wEpc, wEstat] = none ∧ x0.served = none ∧
    markedWord (handler 5) 2 [wEpc, wEstat] = none ∧
    canIssue (.tret (rr 0 0 0 0)) (hdr 0) [] base 2 = true ∧ stInh (statusOf base 2) = false ∧ trapsAtOnce base 2 = true ∧
    stInh (statusOf (handler 5) 2) = true ∧ trapsAtOnce (handler 5) 2 = true ∧ 5 ≤ fld (readFrame (handler 5) 2 wEpc) 2 0 ∧
    canIssue (.tret (rr 0 0 0 0)) (hdr 0) [] (handler 5) 2 = true := by
  decide +kernel

theorem meets_NopJoinPpointAndGuards :
    canIssue (.nop (rr 0 0 0 0)) (hdr 0) [] base 2 = true ∧ canIssue (.join (rr 0 0 0 0)) (hdr 0) [] base 2 = true ∧
    isControl base 2 = true ∧ liveHelpers base 0 0 = 0 ∧ canIssue (.join (rr 0 0 0 0)) (hdr 0) [] pair2 2 = true ∧
    ctxOf pair2 2 = some x0 ∧ isControl pair2 2 = true ∧ 0 < liveHelpers pair2 0 0 ∧
    canIssue (.join (rr 0 0 0 0)) (hdr 0) [] (helper base) 2 = true ∧ isControl (helper base) 2 = false ∧
    canIssue (.ppoint (rr 0 0 0x81 0)) (hdr 0) [0x81] base 2 = true ∧ (coreOf base 0).preReq = false := by
  decide +kernel

theorem meets_FalseGuard :
    mayIssue (.add ⟨never 4, 0, 5, 3, 4, 0, 0⟩) (never 4) [] base 2 = true ∧ guardTrue base 2 (never 4) = false ∧
    mayIssue (.trap ⟨never 0, 0, 0, 0, 0, 0, 0⟩) (never 0) [] base 2 = true ∧ guardTrue base 2 (never 0) = false ∧
    mayIssue (.tret ⟨never 0, 0, 0, 0, 0, 0, 0⟩) (never 0) [] base 2 = true ∧
    mayIssue (.exit ⟨never 0, 0, 0, 0, 0, 0, 0⟩) (never 0) [] base 2 = true ∧
    mayIssue (.st ⟨never 4, 0, 5, 0, 0, 0, 0xFF, 0⟩) (never 4) [] base 2 = true ∧
    mayIssue (.mma ⟨never 10, 0, 6, 5, 0, 0, 0⟩) (never 10) [] base 2 = true ∧ guardTrue base 2 (never 10) = false ∧
    neverVector (.vadd ⟨never 9, 0, 0x41, 0x42, 0x43, 0, 0⟩) (never 9) base 2 = true ∧
    neverVector (.vdiv ⟨never 11, 0, 0x45, 0x43, 0x44, 0, 0⟩) (never 11) base 2 = true ∧
    neverVector (.vred ⟨never 11, 0, 5, 0x43, 0, 0, 0⟩) (never 11) base 2 = true ∧
    neverVector (.vcvt ⟨never 11, 0, 0x45, 0x43, 0, 0, 0x10A⟩) (never 11) base 2 = true ∧
    neverVector (.vld ⟨never 3, 0, 0x45, 0, 0, 0, 0xFF, 8⟩) (never 3) base 2 = true ∧
    neverVector (.vgath ⟨never 11, 3, 0x48, 0, 4, 0, 0xFF, 64⟩) (never 11) base 2 = true := by
  decide +kernel

/-- A launch record waiting at a die. -/
def waiting : Launch := { token := 5, words := [], die := 0, part := 0 }
/-- The journal of core 0 with every entry in use. -/
def noJournal : State := modCore base 0 fun c => { c with journal := (List.range 64).map fun k => (k, { state := 1 }) }
/-- Segment `k` changed. -/
def seg (s : State) (k : Nat) (limit : Word) (attr : BitVec 32) : State := writeSeg s 2 k ⟨0, limit, attr⟩
/-- Segment 3 at a place of the window. -/
def seg3 (s : State) (b : Word) : State := writeSeg s 2 3 ⟨b, 2 ^ 20, (readSeg s 2 3).attr⟩
/-- A request of the context of `base`, of class `op` (R333). -/
def request (op : BitVec 3) (addr : Word) : Req :=
  { ord := 0, core := 0, slot := 0, frame := 2, pc := 0, word := 0, op := op, fn := 0, qual := 0, size := 8, addr := addr, off := addr,
    elem := 0xFF, data := 0, data2 := 0, ty := 8, dst := 0, fdst := 0, take := false, entry := none, target := none }
/-- A FIFO bank that is full. -/
def fullFifo : State := setFifo (bank base 0 3) 0 0 (List.replicate 16384 0)
/-- A watch set of one word, served or not, changed or not. -/
def watching (c b : Bool) : Ctx :=
  { x0 with watch := [{ seg := 1, off := 0x10000, addr := 0x10000, ord := 0, line := 256, home := some 0, served := true, changed := c }]
            broken := b }

theorem meets_ContextsStartAndRetire :
    canIssue (.start (rr 0 0x81 3 4 5)) (hdr 0) [3, 4, 5] roomy 2 = true ∧ ctxOf roomy 2 = some x0 ∧
    allPerformed roomy 0 2 = true ∧ freeEntry roomy 2 = some 0 ∧ isControl roomy 2 = true ∧ liveHelpers roomy 0 0 < 10 ∧
    isControl (helper roomy) 2 = false ∧ canIssue (.start (rr 0 0x81 3 4 5)) (hdr 0) [3, 4, 5] (helper roomy) 2 = true ∧
    (startContext (openEntry roomy 2 0 0x81 0) 0 0 1 0 0 [0, 0, 1] none).isSome = true ∧
    canIssue (.startSvc (rr 0 0x81 3 4 5 2 0 1)) (hdr 0 1) [3, 4, 5] roomy 2 = true ∧ (ctxTask roomy x0).svc = [] ∧
    (startContext (openEntry roomy 2 0 0x81 0) 0 0 2 2 0 [0, 0, 1] none).isSome = true ∧ (taskOf roomy 0 0).red = false ∧
    freeSlot roomy 0 false = some 1 ∧ canIssue (.exit (rr 0 0 0 0)) (hdr 0) [] base 2 = true ∧ ctxOf base 2 = some x0 ∧
    outstanding base 2 = [] ∧ noPending base 2 = true ∧ nextRefused base 0 2 = none ∧
    (∀ k : Fin 64, (jentry base 0 k).state ≠ 1) ∧ runLate base 2 x0 = [] ∧
    (coreOf roomy 0).tasks.all (fun q => q.2.svc.isEmpty) = true ∧ fld (1 : BitVec 32) 2 0 = 1 := by
  decide +kernel

theorem base_ctxs : base.ctxs = [(2, some x0)] := by decide +kernel

theorem meets_ContextsStartAndRetire_idle : ∀ g, inFlight base g = false := by
  intro g
  have h : (coreOf base 0).mx = none ∧ (coreOf base 0).wk = none := by decide +kernel
  by_cases e : g = 2
  · subst e; simp [inFlight, base_ctx, x0, h]
  · simp [inFlight, ctxOf, base_ctxs, SMap.get, show ¬ 2 = g from fun h => e h.symm]

theorem meets_LaunchQueuesRecord :
    canIssue (.launch (rr 0 5 0xC0 3)) (hdr 0) [0xC0, 3] base 2 = true ∧ launchHeld base x0 (readSeg base 2 0) 0 = false ∧
    checkSeg base x0 (readSeg base 2 0) { need := needRd, size := 128, align := 128 } 0 = .ok 0 ∧
    segKind (readSeg base 2 0) = 1 ∧ poisoned (openEntry base 2 0 5 0) (nearFlat x0 1 0) 128 = false ∧
    ((dieSt (openEntry base 2 0 5 0) 0).devQ.filter fun l => l.src == 0).length < 64 ∧
    canIssue (.launch (rr 0 5 0xC3 3)) (hdr 0) [0xC3, 3] base 2 = true ∧ segKind (readSeg base 2 3) = 3 ∧
    checkSeg base x0 (readSeg base 2 3) { need := needRd, size := 128, align := 128 } 0 = .ok (0xFD * 2 ^ 56) ∧
    reachable base 0 (dieOfCluster (winCluster (0xFD * 2 ^ 56))) = true ∧ segKind (readSeg base 2 1) = 0 ∧
    launchHeld base x0 (readSeg base 2 3) 0 = false ∧ winServes base (0xFD * 2 ^ 56) = true ∧
    launchHeld (bank (seg3 base 0xFD00004000000000) 0 2) x0 (readSeg (seg3 base 0xFD00004000000000) 2 3) 0 = false ∧
    winServes (bank base 0 2) 0xFD00004000000000 = true ∧ launchHeld base x0 (readSeg base 2 1) 0 = false ∧
    launchHeld base x0 (readSeg base 2 2) 0 = false ∧
    poisoned (openEntry ({ base with poison := [(nearFlat x0 1 0 / 8, true)] }) 2 0 5 0) (nearFlat x0 1 0) 128 = true := by
  decide +kernel

theorem meets_LaunchQueuesRecord_full :
    64 ≤ ((dieSt (openEntry (modDie base 0 fun d => { d with devQ := List.replicate 64 waiting }) 2 0 5 0) 0).devQ.filter
      fun l => l.src == 0).length ∧
    canIssue (.launch (rr 0 5 0xC0 3)) (hdr 0) [0xC0, 3] (modDie base 0 fun d => { d with devQ := List.replicate 64 waiting }) 2 = true := by
  decide +kernel

theorem meets_LaunchQueuesRecord_paged :
    (match engineXlate (openEntry lined 2 0 5 0) 0 0 0 0x10000 with
      | (u, .page level pte) => targetReach u 0 (target lined.pkg 0x10000 level pte)
      | _ => false) = true ∧
    (match engineXlate (openEntry lined 2 0 5 0) 0 0 0 0x2000000 with
      | (_, .bad _ _) => true
      | _ => false) = true ∧
    checkSeg lined x0 (readSeg lined 2 1) { need := needRd, size := 128, align := 128 } (readReg (reg lined 3 0x10000) 2 3 : Nat) = .ok 0x10000 := by
  decide +kernel

theorem meets_SegmentChecks :
    (⟨0, 8, 0⟩ : Seg).attr.getLsbD 0 = false ∧ (⟨0, 8, 1⟩ : Seg).attr.getLsbD 0 = true ∧ hasRights ⟨0, 8, 1⟩ needRd = false ∧
    hasRights ⟨0, 8, 3⟩ needRd = true ∧ (8 : Int) < 1 + 8 ∧ (4 : Int) % 8 ≠ 0 ∧ segKind ⟨0, 2 ^ 18, 0x01000003⟩ = 1 ∧
    (2 : Nat) ^ 18 - 8 + 8 ≤ 2 ^ 18 ∧ segKind ⟨0, 2 ^ 22, 0x02000003⟩ = 2 ∧ bankMode base 0 31 < 2 ∧
    bankMode (bank base 31 2) 0 31 = 2 ∧ bitsOf (0xFD * 2 ^ 56 - 8) 63 56 ≠ 0xFD ∧ bitsOf (0xFD * 2 ^ 56) 63 56 = 0xFD ∧
    winClean (0xFD * 2 ^ 56) = true ∧ inPart base 0 (winCluster (0xFD * 2 ^ 56)) = true ∧
    inPart base 0 (winCluster (0xFD * 2 ^ 56 + 2 ^ 39)) = false ∧
    reachesCheck (.ld (mm 4 5 4 0)) (mm 4 5 4 0) (memSpecs (mm 4 5 4 0)) base 2 x0 ∧
    checkSeg base x0 (readSeg base 2 4) { need := needRd, size := 8, align := 8, ports := [8, 16] } 0 = .error 1 ∧
    reachesCheck (.st (mm 4 5 0 0x3FFFC)) (mm 4 5 0 0x3FFFC) (5 :: memSpecs (mm 4 5 0 0x3FFFC)) base 2 x0 ∧
    checkSeg base x0 (readSeg base 2 0) { need := needWr, size := 8, align := 8, ports := [0] } 0x3FFFC = .error 3 ∧
    reachesCheck (.stf (mm 4 5 0 4)) (mm 4 5 0 4) (5 :: memSpecs (mm 4 5 0 4)) base 2 x0 ∧
    checkSeg base x0 (readSeg base 2 0) { need := needWr + needFe, size := 8, align := 8, ports := [0] } 4 = .error 4 ∧
    reachesCheck (.atom (mm 4 5 2 0)) (mm 4 5 2 0) (5 :: memSpecs (mm 4 5 2 0)) base 2 x0 ∧
    checkSeg base x0 (readSeg base 2 2) { need := needRd + needWr + needAt, size := 8, align := 8 } 0 = .error 6 ∧
    reachesCheck (.ldw (mm 4 5 0 0)) (mm 4 5 0 0) (memSpecs (mm 4 5 0 0)) base 2 x0 ∧
    checkSeg base x0 (readSeg base 2 0) { need := needRd + needWr + needAt, size := 8, align := 8, kinds := [0] } 0 = .error 5 := by
  unfold reachesCheck; decide +kernel

theorem meets_NearStores :
    reachesCheck (.st (mm 4 5 0 8)) (mm 4 5 0 8) (5 :: memSpecs (mm 4 5 0 8)) base 2 x0 ∧ segKind (readSeg base 2 0) = 1 ∧
    mayPerform base 0 2 0 (nearPlace base (nearFlat x0 1 8)) = true ∧
    checkSeg base x0 (readSeg base 2 0) { need := needWr, size := 8, align := 8, ports := [0] } 8 = .ok 8 ∧
    reachesCheck (.stf (mm 5 5 0 0x3FFFF)) (mm 5 5 0 0x3FFFF) (5 :: memSpecs (mm 5 5 0 0x3FFFF)) base 2 x0 ∧
    checkSeg base x0 (readSeg base 2 0) { need := needWr + needFe, size := 1, align := 1, ports := [0] } 0x3FFFF = .ok 0x3FFFF ∧
    segKind (readSeg base 2 2) = 2 ∧
    reachesCheck (.st (mm 4 5 2 0)) (mm 4 5 2 0) (5 :: memSpecs (mm 4 5 2 0)) (bank base 0 3) 2 x0 ∧
    checkSeg (bank base 0 3) x0 (readSeg base 2 2) { need := needWr, size := 8, align := 8, ports := [0] } 0 = .ok 0 ∧
    bankMode (bank base 0 3) 0 0 = 3 ∧ fifoOf (bank base 0 3) 0 0 = [] ∧
    mayPerform (bank base 0 3) 0 2 0 (nearPlace (bank base 0 3) (nearFlat x0 2 0)) = true ∧
    reachesCheck (.stf (mm 4 5 2 0)) (mm 4 5 2 0) (5 :: memSpecs (mm 4 5 2 0)) (bank base 0 3) 2 x0 ∧
    checkSeg (bank base 0 3) x0 (readSeg base 2 2) { need := needWr + needFe, size := 8, align := 8, ports := [0] } 0 = .ok 0 ∧
    fifoFirst (bank base 0 3) 0 0 false 0 = true := by
  unfold reachesCheck; decide +kernel

theorem meets_NearStores_full :
    (reachesCheck (.st (mm 4 5 2 0)) (mm 4 5 2 0) (5 :: memSpecs (mm 4 5 2 0)) fullFifo 2 x0 ∧
      checkSeg fullFifo x0 (readSeg fullFifo 2 2) { need := needWr, size := 8, align := 8, ports := [0] } 0 = .ok 0 ∧
      bankMode fullFifo 0 0 = 3) ∧
    16384 ≤ (fifoOf fullFifo 0 0).length := by
  refine ⟨by unfold reachesCheck; decide +kernel, ?_⟩
  rw [show fifoOf fullFifo 0 0 = List.replicate 16384 0 from rfl, List.length_replicate]

theorem meets_NearLoads :
    reachesCheck (.ld (mm 1 5 0 9)) (mm 1 5 0 9) (memSpecs (mm 1 5 0 9)) base 2 x0 ∧
    mayPerform base 0 2 0 (nearPlace base (nearFlat x0 1 9)) = true ∧ poisoned base (nearFlat x0 1 9) 1 = false ∧
    checkSeg base x0 (readSeg base 2 0) { need := needRd, size := 1, align := 1, ports := [8, 16] } 9 = .ok 9 ∧
    reachesCheck (.ld (mm 8 5 2 8)) (mm 8 5 2 8) (memSpecs (mm 8 5 2 8)) (setFifo (bank base 0 3) 0 0 [7]) 2 x0 ∧
    checkSeg (bank base 0 3) x0 (readSeg base 2 2) { need := needRd, size := 8, align := 8, ports := [8, 16] } 8 = .ok 8 ∧
    fifoOf (setFifo (bank base 0 3) 0 0 [7]) 0 0 = [7] ∧
    reachesCheck (.ld (mm 8 5 2 8)) (mm 8 5 2 8) (memSpecs (mm 8 5 2 8)) (bank base 0 3) 2 x0 ∧
    fifoOf (bank base 0 3) 0 0 = [] ∧
    reachesCheck (.ld (mm 8 5 2 16)) (mm 8 5 2 16) (memSpecs (mm 8 5 2 16)) (bank base 0 3) 2 x0 ∧
    checkSeg (bank base 0 3) x0 (readSeg base 2 2) { need := needRd, size := 8, align := 8, ports := [8, 16] } 16 = .ok 16 ∧
    reachesCheck (.ldsync (mm 4 5 0 8)) (mm 4 5 0 8) (memSpecs (mm 4 5 0 8)) base 2 x0 ∧
    checkSeg base x0 (readSeg base 2 0) { need := needRd + needFe, size := 8, align := 8 } 8 = .ok 8 ∧
    isFull base (nearFlat x0 1 8) = false ∧ isFull (setFull base (nearFlat x0 1 8) true) (nearFlat x0 1 8) = true ∧
    reachesCheck (.ldsync (mm 4 5 0 8 1)) (mm 4 5 0 8 1) (memSpecs (mm 4 5 0 8 1)) (setFull base (nearFlat x0 1 8) true) 2 x0 ∧
    checkSeg base x0 (readSeg base 2 0) { need := needRd + needFe + needWr, size := 8, align := 8 } 8 = .ok 8 ∧
    qExtra 1 % 2 = 1 ∧ segKind (readSeg base 2 2) = 2 ∧
    mayPerform (bank base 0 3) 0 2 0 (nearPlace (bank base 0 3) (nearFlat x0 2 8)) = true ∧
    fifoFirst (setFifo (bank base 0 3) 0 0 [7]) 0 0 true 0 = true := by
  unfold reachesCheck; decide +kernel

theorem arrives_new (s : State) (h : s.ord = 0) (w : Nat → Wait) : Arrives s x0 w 0 1 := .inr ⟨by simp [x0], h.symm, by rw [h]⟩

/-- Context 14 waits at the ports of bank 0, which it reached before the present one. -/
def secondThere (w : Nat → Wait) : State :=
  modCtx { bank pair2 0 3 with ord := 2, iss := base.iss } 14 fun x => { x with wait := some (w 1) }
/-- The present context waits there, first in line. -/
def firstThere (w : Nat → Wait) : State := modCtx (secondThere (w ∘ Nat.succ)) 2 fun x => { x with wait := some (w 1) }

theorem meets_NearStores_waiting :
    Arrives base x0 (.fifoTail 0 0) 0 1 ∧ Arrives (bank base 0 3) x0 (.fifoTail 0 0) 0 1 ∧
    Arrives (secondThere (.fifoTail 0 0)) x0 (.fifoTail 0 0) 2 3 ∧
    Arrives (firstThere (.fifoTail 0 0)) { x0 with wait := some (.fifoTail 0 0 1) } (.fifoTail 0 0) 1 2 :=
  ⟨arrives_new _ (by decide +kernel) _, arrives_new _ (by decide +kernel) _, .inr ⟨by simp [x0], by decide +kernel⟩,
    .inl ⟨rfl, by decide +kernel⟩⟩

theorem meets_NearStores_turn :
    reachesCheck (.st (mm 4 5 2 0)) (mm 4 5 2 0) (5 :: memSpecs (mm 4 5 2 0)) (secondThere (.fifoTail 0 0)) 2 x0 ∧
    fifoFirst (secondThere (.fifoTail 0 0)) 0 0 false 2 = false ∧
    reachesCheck (.st (mm 4 5 2 0)) (mm 4 5 2 0) (5 :: memSpecs (mm 4 5 2 0)) (firstThere (.fifoTail 0 0)) 2 { x0 with wait := some (.fifoTail 0 0 1) } ∧
    fifoFirst (firstThere (.fifoTail 0 0)) 0 0 false 1 = true := by
  unfold reachesCheck; decide +kernel

theorem meets_NearLoads_waiting :
    Arrives base x0 (.fifoHead 0 0) 0 1 ∧ Arrives (bank base 0 3) x0 (.fifoHead 0 0) 0 1 ∧
    Arrives (secondThere (.fifoHead 0 0)) x0 (.fifoHead 0 0) 2 3 ∧
    Arrives (firstThere (.fifoHead 0 0)) { x0 with wait := some (.fifoHead 0 0 1) } (.fifoHead 0 0) 1 2 :=
  ⟨arrives_new _ (by decide +kernel) _, arrives_new _ (by decide +kernel) _, .inr ⟨by simp [x0], by decide +kernel⟩,
    .inl ⟨rfl, by decide +kernel⟩⟩

theorem meets_NearLoads_turn :
    reachesCheck (.ld (mm 8 5 2 8)) (mm 8 5 2 8) (memSpecs (mm 8 5 2 8)) (secondThere (.fifoHead 0 0)) 2 x0 ∧
    fifoFirst (secondThere (.fifoHead 0 0)) 0 0 true 2 = false ∧
    reachesCheck (.ld (mm 8 5 2 8)) (mm 8 5 2 8) (memSpecs (mm 8 5 2 8)) (firstThere (.fifoHead 0 0)) 2 { x0 with wait := some (.fifoHead 0 0 1) } ∧
    fifoFirst (firstThere (.fifoHead 0 0)) 0 0 true 1 = true := by
  unfold reachesCheck; decide +kernel

theorem meets_NearAtomics :
    reachesCheck (.atom (mm 4 5 0 8)) (mm 4 5 0 8) (5 :: memSpecs (mm 4 5 0 8)) base 2 x0 ∧
    checkSeg base x0 (readSeg base 2 0) { need := needRd + needWr + needAt, size := 8, align := 8 } 8 = .ok 8 ∧
    mayPerform base 0 2 0 (nearPlace base (nearFlat x0 1 8)) = true ∧ poisoned base (nearFlat x0 1 8) 8 = false ∧
    (∀ k : Fin 7, canIssue (.atom (mm 4 5 0 8 0 (BitVec.ofNat 6 k))) (hdr 4 (BitVec.ofNat 6 k)) (5 :: memSpecs (mm 4 5 0 8)) base 2 = true) ∧
    reachesCheck (.cas (mm 4 5 0 8)) (mm 4 5 0 8) (5 :: 6 :: memSpecs (mm 4 5 0 8)) base 2 x0 ∧
    readBytes base (nearFlat x0 1 8) 8 = readReg base 2 5 ∧
    readBytes base (nearFlat x0 1 8) 8 ≠ readReg (reg base 5 1) 2 5 := by
  unfold reachesCheck; decide +kernel

theorem meets_PagedAccessesBecomeRequests :
    segKind (readSeg base 2 1) = 0 ∧ reachesCheck (.st (mm 4 5 1 8)) (mm 4 5 1 8) (5 :: memSpecs (mm 4 5 1 8)) base 2 x0 ∧
    checkSeg base x0 (readSeg base 2 1) { need := needWr, size := 8, align := 8, ports := [0] } 8 = .ok 8 ∧
    reachesCheck (.ld (mm 4 5 1 8)) (mm 4 5 1 8) (memSpecs (mm 4 5 1 8)) base 2 x0 ∧
    checkSeg base x0 (readSeg base 2 1) { need := needRd, size := 8, align := 8, ports := [8, 16] } 8 = .ok 8 ∧
    reachesCheck (.atom (mm 4 5 1 8)) (mm 4 5 1 8) (5 :: memSpecs (mm 4 5 1 8)) base 2 x0 ∧
    reachesCheck (.cas (mm 4 5 1 8)) (mm 4 5 1 8) (5 :: 6 :: memSpecs (mm 4 5 1 8)) base 2 x0 ∧
    checkSeg base x0 (readSeg base 2 1) { need := needRd + needWr + needAt, size := 8, align := 8 } 8 = .ok 8 ∧
    reachesCheck (.ldw (mm 4 5 1 8)) (mm 4 5 1 8) (memSpecs (mm 4 5 1 8)) base 2 x0 ∧
    checkSeg base x0 (readSeg base 2 1) { need := needRd + needWr + needAt, size := 8, align := 8, kinds := [0] } 8 = .ok 8 ∧
    segKind (readSeg (seg base 1 64 0x3F) 2 1) = 0 ∧
    reachesCheck (.stf (mm 4 5 1 8)) (mm 4 5 1 8) (5 :: memSpecs (mm 4 5 1 8)) (seg base 1 64 0x3F) 2 x0 ∧
    checkSeg base x0 (readSeg (seg base 1 64 0x3F) 2 1) { need := needWr + needFe, size := 8, align := 8, ports := [0] } 8 = .ok 8 ∧
    reachesCheck (.ldsync (mm 4 5 1 56 1)) (mm 4 5 1 56 1) (memSpecs (mm 4 5 1 56)) (seg base 1 64 0x3F) 2 x0 ∧
    checkSeg base x0 (readSeg (seg base 1 64 0x3F) 2 1) { need := needRd + needFe + needWr, size := 8, align := 8 } 56 = .ok 56 := by
  unfold reachesCheck; decide +kernel

theorem meets_WindowAccesses :
    segKind (readSeg base 2 3) = 3 ∧ reachesCheck (.ld (mm 4 5 3 8)) (mm 4 5 3 8) (memSpecs (mm 4 5 3 8)) base 2 x0 ∧
    checkSeg base x0 (readSeg base 2 3) { need := needRd, size := 8, align := 8, ports := [8, 16] } 8 = .ok (0xFD * 2 ^ 56 + 8) ∧
    reachesCheck (.atom (mm 4 5 3 8)) (mm 4 5 3 8) (5 :: memSpecs (mm 4 5 3 8)) base 2 x0 ∧
    reachesCheck (.cas (mm 4 5 3 8)) (mm 4 5 3 8) (5 :: 6 :: memSpecs (mm 4 5 3 8)) base 2 x0 ∧
    checkSeg base x0 (readSeg base 2 3) { need := needRd + needWr + needAt, size := 8, align := 8 } 8 = .ok (0xFD * 2 ^ 56 + 8) ∧
    reachesCheck (.st (mm 4 5 3 8)) (mm 4 5 3 8) (5 :: memSpecs (mm 4 5 3 8)) base 2 x0 ∧
    checkSeg base x0 (readSeg base 2 3) { need := needWr, size := 8, align := 8, ports := [0] } 8 = .ok (0xFD * 2 ^ 56 + 8) ∧
    freeJournal base 0 = some 0 ∧ reachesCheck (.st (mm 4 5 3 8)) (mm 4 5 3 8) (5 :: memSpecs (mm 4 5 3 8)) noJournal 2 x0 ∧
    freeJournal noJournal 0 = none ∧ reachesCheck (.ldsync (mm 4 5 3 8)) (mm 4 5 3 8) (memSpecs (mm 4 5 3 8)) base 2 x0 ∧
    checkSeg base x0 (readSeg base 2 3) { need := needRd + needFe, size := 8, align := 8 } 8 = .ok (0xFD * 2 ^ 56 + 8) ∧
    reachesCheck (.ldsync (mm 4 5 3 8)) (mm 4 5 3 8) (memSpecs (mm 4 5 3 8)) (ctx base fun x => { x with wait := some (.request 5) }) 2 { x0 with wait := some (.request 5) } ∧
    base.wreqs = [] := by
  unfold reachesCheck; decide +kernel

theorem meets_FencesAndConditionalStore :
    canIssue (.fence (rr 0 0 0 0)) (hdr 0) [] base 2 = true ∧ allPerformed base 0 2 = true ∧
    canIssue (.fence (rr 0 0 0 0)) (hdr 0) [] { base with reqs := [request 0 8] } 2 = true ∧
    allPerformed { base with reqs := [request 0 8] } 0 2 = false ∧ canIssue (.xfence (rr 0 0 0 0)) (hdr 0) [] base 2 = true ∧
    outstanding base 2 = [] ∧ canIssue (.xfence (rr 0 0 0 0)) (hdr 0) [] { base with reqs := [request 1 8] } 2 = true ∧
    (outstanding { base with reqs := [request 1 8] } 2).any (fun r => opWrites r.op) = true ∧
    canIssue (.pref (mm 0 0 1 8)) (hdr 0) (memSpecs (mm 0 0 1 8)) base 2 = true ∧
    canIssue (.pref (mm 0 0 0 8)) (hdr 0) (memSpecs (mm 0 0 0 8)) base 2 = true ∧
    checkSeg base x0 (readSeg base 2 0) { need := needRd, size := 1, align := 1, kinds := [0] } 8 = .error 5 ∧
    canIssue (.cst (mm 8 0x41 0 0 7)) (hdr 8) [0x41] base 2 = true ∧ ctxOf base 2 = some x0 ∧ freeEntry base 2 = some 0 ∧
    x0.watch = [] ∧ canIssue (.cst (mm 8 0x41 0 0)) (hdr 8) [0x41] (ctx lined fun _ => watching true false) 2 = true ∧
    ctxOf (ctx lined fun _ => watching true false) 2 = some (watching true false) ∧
    recheckWatch (ctx lined fun _ => watching true false) 2 (watching true false) (watching true false).watch = .ok [0x10000] ∧
    canIssue (.cst (mm 8 0x41 0 0)) (hdr 8) [0x41] (ctx lined fun _ => watching false false) 2 = true ∧
    recheckWatch (ctx lined fun _ => watching false false) 2 (watching false false) (watching false false).watch = .ok [0x10000] ∧
    (watchTargets (watching false false) [0x10000] (ctx lined fun _ => watching false false)).isSome = true ∧
    (watching false false).watch.all (fun a => !a.changed && a.served) = true ∧
    canIssue (.cst (mm 8 0x41 0 0)) (hdr 8) [0x41] (ctx lined fun _ => watching false true) 2 = true ∧
    journalBlocks (ctx lined fun _ => watching false false) 0 2 (ctx lined fun _ => watching false false).ord 0 none = false ∧
    journalBlocks base 0 2 base.ord 0 none = false ∧ outstanding (ctx lined fun _ => watching false false) 2 = [] ∧
    journalBlocks (ctx lined fun _ => watching true false) 0 2 0 0 none = false := by
  decide +kernel


/-- `g3` holds the coordinate of core 0, of a core of cluster 1, or its scratch memory's. -/
def dest : State := reg base 3 0xFD00000000000000
def destOut : State := reg base 3 0xFD00008000000000
def destMem (a : Nat) : State := reg base 3 (0xFD00004000000000 + a)
/-- A message of a class. -/
def msg (k : Nat) (hw : Bool := false) : Msg :=
  { cls := k, src := 0, dst := 0, tag := 5, status := 0, words := [7, 8, 9, 10, 11], call := true, launch := 1, frame := 2, slot := 0, entry := none
    held := false, ord := 0, hw := hw }
/-- Core 0 with a message in a class queue. -/
def queued (s : State) (k : Nat) : State := modCore s 0 fun c => { c with classQ := [(k, [msg k (k == 7)])] }
/-- The barrier of the context's own core, number 0, changed (R187). -/
def barrier (b : Barrier) : State := modTask base 0 0 fun t => { t with bars := [(0, b)] }
def ownMask : Members := { all := false, cores := 1 }
def imm1 (op : BitVec 8 := 0) : RWord := rr 0 op 0 0 0 1
def coreBar : BarrierId := { level := 1, num := 0, core := 0, bind := 0, key := 2 ^ 32 }
/-- The task has tags 3 and 5 set. -/
def tagged : State := modTask base 0 0 fun t => { t with tags := 0x28 }
/-- Core 0 with journal entry 0. -/
def journal (s : State) (j : JEntry) : State := modCore s 0 fun c => { c with journal := [(0, j)] }

theorem meets_SystemRegisterReads :
    ctxOf base 2 = some x0 ∧ canIssue (.rdtime (rr 0 5 0 0)) (hdr 0) [] base 2 = true ∧
    [0, 1, 2, 3, 4, 8, 9, 10, 11, 12, 13, 16, 24].all (fun n => canIssue (.rdsys (rr 0 5 0 0 0 n)) (hdr 0) [] base 2) = true ∧
    [32, 33, 34].all (fun n => canIssue (.rdsys (rr 0 5 0 0 0 n)) (hdr 0) [] (sup base) 2 && supervisor (sup base) 2) = true ∧
    [32, 33, 34].all (fun n => canIssue (.rdsys (rr 0 5 0 0 0 n)) (hdr 0) [] base 2) = true ∧ supervisor base 2 = false ∧
    trapsAtOnce base 2 = true ∧ ctxOf (sup base) 2 = some x0 ∧
    (List.range 48).all (fun n => match sysWord base 2 x0 n with | some p => !wordMarked base p.1 p.2 | none => true) = true ∧
    sysWord base 2 x0 3 = some (2, wTscr) := by
  decide +kernel

theorem meets_SystemRegisterWrites :
    [1, 3, 8, 24, 4, 9, 13, 33, 34].all (fun n => canIssue (.wrsys (rr 0 0 3 0 0 n)) (hdr 0) [3] base 2) = true ∧
    canIssue (.statusPmaskWrite (rr 0 0 3 0)) (hdr 0) [3] (handler 5) 2 = true ∧ stPpend (statusOf (handler 5) 2) = false ∧
    stPpend (statusOf base 2) = false ∧ stInh (statusOf (handler 5) 2) = true ∧ stInh (statusOf base 2) = false ∧
    canIssue (.statusPmaskWrite (rr 0 0 3 0)) (hdr 0) [3] base 2 = true ∧
    canIssue (.engbindWrite (rr 0 0 3 0 0 2)) (hdr 0) [3] base 2 = true ∧ isControl base 2 = true ∧ (coreOf base 0).mx = none ∧
    (coreOf base 0).wk = none ∧ canIssue (.engbindWrite (rr 0 0 3 0 0 2)) (hdr 0) [3] (helper base) 2 = true ∧
    isControl (helper base) 2 = false ∧ trapsAtOnce (helper base) 2 = true ∧
    canIssue (.lfsrWrite (rr 0 0 3 0 0 16)) (hdr 0) [3] base 2 = true ∧
    canIssue (.trctlWrite (rr 0 0 3 0 0 32)) (hdr 0) [3] base 2 = true ∧
    canIssue (.trctlWrite (rr 0 0 3 0 0 32)) (hdr 0) [3] (sup base) 2 = true ∧ supervisor (sup base) 2 = true := by
  decide +kernel

theorem meets_SegmentRegistersAndServiceCalls :
    [0, 1, 2].all (fun n => canIssue (.segget (rr 0 5 0xC1 0 0 n)) (hdr 0) [0xC1] base 2) = true ∧
    canIssue (.segset (rr 0 0xC4 3 4 5)) (hdr 0) [3, 4, 5] base 2 = true ∧ (storedSeg 0 0 0).attr.getLsbD 0 = false ∧
    canIssue (.segset (rr 0 0xC4 3 4 5)) (hdr 0) [3, 4, 5] (reg (reg base 4 0x40000) 5 0x0100003F) 2 = true ∧
    segSubset (storedSeg 0 0x40000 0x0100003F) (readSeg (reg (reg base 4 0x40000) 5 0x0100003F) 2 0) = true ∧
    canIssue (.segset (rr 0 0xC4 3 4 5)) (hdr 0) [3, 4, 5] (reg (reg base 4 0x40001) 5 0x0100003F) 2 = true ∧
    (∀ j : Fin 8, segSubset (storedSeg 0 0x40001 0x0100003F) (readSeg (reg (reg base 4 0x40001) 5 0x0100003F) 2 j) = false) ∧
    canIssue (.segset (rr 0 0xC4 3 4 5)) (hdr 0) [3, 4, 5] (reg (reg (sup base) 4 0x40000) 5 0x0100003F) 2 = true ∧
    segInPartition (storedSeg 0 0x40000 0x0100003F) = true ∧ trapsAtOnce (reg (reg base 4 0x40001) 5 0x0100003F) 2 = true ∧
    canIssue (.svc (rr 0 5 3 0 0 7)) (hdr 0) [3] base 2 = true ∧ ctxOf base 2 = some x0 ∧ allPerformed base 0 2 = true := by
  decide +kernel

theorem meets_TranslationMaintenanceAndMisses :
    canIssue (.tlbinv (rr 0 0 3 0xFF 0 0x10000 0xA0)) (hdr 0) [3, 0xFF] base 2 = true ∧ supervisor base 2 = false ∧
    canIssue (.tlbinv (rr 0 0 3 4 0 0 0xA0)) (hdr 0) [3, 4] (sup base) 2 = true ∧ outstanding (sup base) 2 = [] ∧
    x0.wait = none ∧
    canIssue (.tlbinv (rr 0 0 3 4 0 0 0xA0)) (hdr 0) [3, 4] (ctx (sup base) fun x => { x with wait := some (.request 5) }) 2 = true ∧
    (sup base).drops = [] ∧ canIssue (.tlbq (rr 0 5 3 0)) (hdr 0) [3] base 2 = true ∧
    canIssue (.tlbq (rr 0 5 3 0)) (hdr 0) [3] (sup base) 2 = true ∧ freeEntry (sup base) 2 = some 0 ∧
    (missWalk (modCluster base 0 fun c => { c with tlb := [tlbEntry 0 0x10000 0 0x1010D] }) 0 0 0 0x10000).2 = .page 0 0x1010D ∧
    permFault 0 0x1010D = none ∧ permFault 1 0x10105 = some 2 ∧
    (missWalk (modCluster base 0 fun c => { c with tlb := [tlbEntry 0 0x10000 0 0x10105] }) 0 0 0 0x10000).2 = .page 0 0x10105 ∧
    allPerformed (sup base) 0 2 = true ∧ faultsLater { base with reqs := [request 0 0x10000] } (request 0 0x10000) = false ∧
    ctxPart base x0 = 0 := by
  decide +kernel

theorem meets_TranslationMaintenanceAndMisses_missing : (missWalk base 0 0 0 0x10000).2 = .bad 1 3 := by decide +kernel

theorem meets_MessagesLeave :
    ctxOf dest 2 = some x0 ∧ freeEntry dest 2 = some 0 ∧ destBad (readReg dest 2 3) = false ∧
    inPart dest 0 (winCluster (readReg dest 2 3)) = true ∧
    canIssue (.send (rr 0 0x82 3 0x43 5 0x104)) (hdr 0) [3, 0x43, 5] dest 2 = true ∧
    canIssue (.send (rr 0 0x82 3 0x43 5 0x017 0x10)) (hdr 0) [3, 0x43, 5] dest 2 = true ∧
    canIssue (.spawn (rr 0 0x82 3 4 60)) (hdr 0) (callSpecs (rr 0 0x82 3 4 60)) dest 2 = true ∧
    canIssue (.callat (rr 0 0x82 3 4 5 0xFFFF)) (hdr 0) (callSpecs (rr 0 0x82 3 4 5)) dest 2 = true ∧
    (coreOf dest 0).reserved1 < 32 ∧
    canIssue (.callat (rr 0 0x82 3 4 5)) (hdr 0) (callSpecs (rr 0 0x82 3 4 5)) (modCore dest 0 fun c => { c with reserved1 := 32 }) 2 = true ∧
    32 ≤ (coreOf (modCore dest 0 fun c => { c with reserved1 := 32 }) 0).reserved1 ∧ trapsAtOnce base 2 = true ∧
    canIssue (.send (rr 0 0x82 3 0x43 5 0x14)) (hdr 0) [3, 0x43, 5] base 2 = true ∧
    canIssue (.spawn (rr 0 0x82 3 4 5)) (hdr 0) (callSpecs (rr 0 0x82 3 4 5)) base 2 = true ∧
    canIssue (.callat (rr 0 0x82 3 4 5)) (hdr 0) (callSpecs (rr 0 0x82 3 4 5)) base 2 = true ∧
    destBad (readReg base 2 3) = true ∧ canIssue (.send (rr 0 0x82 3 0x43 5 0x14)) (hdr 0) [3, 0x43, 5] destOut 2 = true ∧
    destBad (readReg destOut 2 3) = false ∧ inPart destOut 0 (winCluster (readReg destOut 2 3)) = false := by
  decide +kernel

theorem meets_MessagesAreReceivedAndAnswered :
    canIssue (.reply (rr 0 0 3 0)) (hdr 0) [3] (ctx base fun x => { x with caller := some (0, 5, 1) }) 2 = true ∧
    ctxOf (ctx base fun x => { x with caller := some (0, 5, 1) }) 2 = some { x0 with caller := some (0, 5, 1) } ∧
    canIssue (.reply (rr 0 0 0xFF 0 0 9)) (hdr 0) [0xFF] base 2 = true ∧ x0.caller = none ∧ trapsAtOnce base 2 = true ∧
    canIssue (.reply (rr 0 0 3 0)) (hdr 0) [3] (ctx base fun x => { x with caller := some (0, 5, 1), replied := true }) 2 = true ∧
    trapsAtOnce (ctx base fun x => { x with caller := some (0, 5, 1), replied := true }) 2 = true ∧
    canIssue (.recv (rr 0 5 0 0x46 0 1)) (hdr 0) [] (queued base 1) 2 = true ∧ nextMsg (queued base 1) 0 2 1 = some (msg 1) ∧
    canIssue (.recvnb (rr 0 5 0 6 0 7)) (hdr 0) [] (queued (service base 7) 7) 2 = true ∧
    ctxKind (queued (service base 7) 7) 2 = 2 ∧ ctxClass (queued (service base 7) 7) 2 = 7 ∧
    nextMsg (queued (service base 7) 7) 0 2 7 = some (msg 7 true) ∧ canIssue (.recv (rr 0 5 0 6 0 1)) (hdr 0) [] base 2 = true ∧
    canIssue (.recvnb (rr 0 5 0 6 0 1)) (hdr 0) [] base 2 = true ∧ nextMsg base 0 2 1 = none ∧
    canIssue (.recv (rr 0 5 0 6 0 3)) (hdr 0) [] base 2 = true ∧ canIssue (.recvnb (rr 0 5 0 6 0 3)) (hdr 0) [] base 2 = true ∧
    ctxKind base 2 ≠ 2 := by
  decide +kernel

theorem meets_Barriers :
    namedBarrier base x0 (imm1) = coreBar ∧ canIssue (.arrive imm1) (hdr 0) [] base 2 = true ∧
    inMask base 0 1 (barrierOf base coreBar).mask 0 = true ∧ (barrierOf base coreBar).failed = false ∧
    0 ∉ (barrierOf base coreBar).arrived ∧ arrivalComing base x0 coreBar 0 = false ∧
    canIssue (.arrive imm1) (hdr 0) [] (barrier { mask := { all := false, cores := 2 } }) 2 = true ∧
    inMask (barrier { mask := { all := false, cores := 2 } }) 0 1 { all := false, cores := 2 } 0 = false ∧
    trapsAtOnce (barrier { mask := { all := false, cores := 2 } }) 2 = true ∧
    canIssue (.arrive imm1) (hdr 0) [] (barrier { mask := ownMask, failed := true }) 2 = true ∧
    barrierOf (barrier { mask := ownMask, failed := true }) coreBar = { mask := ownMask, failed := true } ∧
    canIssue (.arrive imm1) (hdr 0) [] (barrier { mask := ownMask, arrived := [0] }) 2 = true ∧
    barrierOf (barrier { mask := ownMask, arrived := [0] }) coreBar = { mask := ownMask, arrived := [0] } ∧
    canIssue (.bwait (imm1 5)) (hdr 0) [] base 2 = true ∧ pendingWait (barrierOf base coreBar) 0 = none ∧ x0.wait = none ∧
    canIssue (.bwait (imm1 5)) (hdr 0) [] (barrier { mask := ownMask, phase := 1, waits := [(0, 0)] }) 2 = true ∧
    pendingWait (barrierOf (barrier { mask := ownMask, phase := 1, waits := [(0, 0)] }) coreBar) 0 = some 0 ∧
    canIssue (.bwait (imm1 5)) (hdr 0) [] (barrier { mask := ownMask, waits := [(0, 0)] }) 2 = true ∧
    pendingWait (barrierOf (barrier { mask := ownMask, waits := [(0, 0)] }) coreBar) 0 = some 0 ∧
    (barrierOf (barrier { mask := ownMask, waits := [(0, 0)] }) coreBar).phase = 0 ∧
    canIssue (.bsync (imm1 5)) (hdr 0) [] base 2 = true ∧
    pendingWait (barrierOf (countArrival base 0 coreBar 0) coreBar) 0 = some 0 ∧
    (barrierOf (countArrival base 0 coreBar 0) coreBar).phase = 1 ∧
    canIssue (.bsync (imm1 5)) (hdr 0) [] (barrier { mask := { all := false, cores := 3 } }) 2 = true ∧
    pendingWait (barrierOf (countArrival (barrier { mask := { all := false, cores := 3 } }) 0 coreBar 0) coreBar) 0 = some 0 ∧
    (barrierOf (countArrival (barrier { mask := { all := false, cores := 3 } }) 0 coreBar 0) coreBar).phase = 0 ∧
    (barrierOf base coreBar).next = none ∧ (barrierOf base coreBar).held = [] ∧ members base 0 coreBar ownMask = [0] ∧
    members base 0 coreBar { all := false, cores := 3 } = [0, 1] ∧ carrierUp base 0 1 = true ∧
    cachedBefore base 2 base.ord = true ∧ carrierUp (barrier { mask := ownMask, failed := true }) 0 1 = true ∧
    canIssue (.bwait (imm1 5)) (hdr 0) [] (ctx base fun x => { x with wait := some (.barrierFailed (2 ^ 32) 0) }) 2 = true ∧
    ctxOf (ctx base fun x => { x with wait := some (.barrierFailed (2 ^ 32) 0) }) 2 = some { x0 with wait := some (.barrierFailed (2 ^ 32) 0) } := by
  decide +kernel

theorem meets_MasksAndTags :
    canIssue (.bmask (rr 0 0 3 0 0 1)) (hdr 0) [3, 0] (reg base 3 0x10000) 2 = true ∧
    2 ^ levelBits 1 ≤ readReg (reg base 3 0x10000) 2 3 ∧
    canIssue (.bmask (rr 0 0 3 0x41 0 6)) (hdr 0) [3, 0x41] (reg base 3 0x1000000020001) 2 = true ∧
    canIssue (.bmask (rr 0 0 3 0 0 4)) (hdr 0) [3, 0] (reg base 3 0x20001) 2 = true ∧
    readReg (reg base 3 0x20001) 2 3 < 2 ^ levelBits 4 ∧
    (maskClusters 0 4 (maskMembers (reg base 3 0x20001) 2 (rr 0 0 3 0 0 4))).any (fun c => !inPart base 0 c) = true ∧
    canIssue (.bmask (rr 0 0 3 0 0 1)) (hdr 0) [3, 0] (reg base 3 1) 2 = true ∧
    (maskMembers (reg base 3 1) 2 (rr 0 0 3 0 0 1)).cores = 1 ∧
    (taskCtxs (reg base 3 1) 0 0).any (fun p => p.2.slot == 0 && !p.2.trail) = true ∧
    barrierOf base coreBar = { mask := ownMask } ∧
    barrierOf (barrier { mask := ownMask, arrived := [0] }) coreBar = { mask := ownMask, arrived := [0] } ∧
    canIssue (.twaitany (rr 0 5 0xFF 0 0 8)) (hdr 0) [0xFF] tagged 2 = true ∧ (ctxTask tagged x0).tags.toNat &&& 8 ≠ 0 ∧
    canIssue (.twaitany (rr 0 5 0xFF 0 0 8 1)) (hdr 0) [0xFF] tagged 2 = true ∧
    canIssue (.twaitany (rr 0 5 0xFF 0 0 1)) (hdr 0) [0xFF] tagged 2 = true ∧ (ctxTask tagged x0).tags.toNat &&& 1 = 0 ∧
    canIssue (.twaitall (rr 0 5 0xFF 0 0 0x28)) (hdr 0) [0xFF] tagged 2 = true ∧
    (ctxTask tagged x0).tags.toNat &&& 0x28 = 0x28 ∧
    canIssue (.twaitall (rr 0 5 0xFF 0 0 0x28 1)) (hdr 0) [0xFF] tagged 2 = true ∧
    canIssue (.twaitall (rr 0 5 0xFF 0 0 9)) (hdr 0) [0xFF] tagged 2 = true ∧ (ctxTask tagged x0).tags.toNat &&& 9 ≠ 9 ∧
    canIssue (.tfind (rr 0 5 0xFF 0 0 0x28)) (hdr 0) [0xFF] tagged 2 = true ∧
    ((ctxTask tagged x0).tags.toNat &&& 0x28).testBit 3 = true ∧
    (∀ j : Fin 3, ((ctxTask tagged x0).tags.toNat &&& 0x28).testBit j = false) ∧
    canIssue (.tfind (rr 0 5 0xFF 0 0 0x28 1)) (hdr 0) [0xFF] tagged 2 = true ∧
    canIssue (.tfind (rr 0 5 0xFF 0 0 1)) (hdr 0) [0xFF] tagged 2 = true := by
  decide +kernel

theorem meets_RemoteStoreInstructions :
    canIssue (.sfence (rr 0 0 0 0 0 0 0xA0)) (hdr 0) [] base 2 = true ∧ (coreOf base 0).journal = [] ∧
    canIssue (.sfence (rr 0 0 0 0 0 0 0x60)) (hdr 0) [] (journal base { state := 1, frame := 2, addr := 0xFD00004000000000 }) 2 = true ∧
    destWithin 0 3 { state := 1, frame := 2, addr := 0xFD00004000000000 } = true ∧
    canIssue (.mcst (rr 8 0x82 3 0x41 4)) (hdr 8) [3, 0x41, 4] base 2 = true ∧ inWindow (readReg base 2 3) = false ∧
    trapsAtOnce base 2 = true ∧ canIssue (.mcst (rr 8 0x82 3 0x41 4)) (hdr 8) [3, 0x41, 4] (destMem 0x3FFFF8) 2 = true ∧
    inWindow (readReg (destMem 0x3FFFF8) 2 3) = true ∧ bitOf (readReg (destMem 0x3FFFF8) 2 3) 38 = true ∧
    bitsOf (readReg (destMem 0x3FFFF8) 2 3) 45 39 = 0 ∧ bitsOf (readReg (destMem 0x3FFFF8) 2 3) 37 22 = 0 ∧
    bitsOf (readReg (destMem 0x3FFFF8) 2 3) 21 0 % 8 = 0 ∧ readReg (destMem 0x3FFFF8) 2 0x41 % 2 ^ 128 = 0 ∧
    freeEntry (destMem 0x3FFFF8) 2 = some 0 ∧
    canIssue (.mcst (rr 8 0x82 3 0x41 4)) (hdr 8) [3, 0x41, 4] (reg (destMem 0) 0x41 2) 2 = true ∧
    (mcstClusters 0 2).any (fun c => !inPart (destMem 0) 0 c) = true ∧
    canIssue (.mcst (rr 8 0x82 3 0x41 4)) (hdr 8) [3, 0x41, 4] (reg (destMem 0) 0x41 1) 2 = true ∧
    (mcstClusters 0 1).all (fun c => inPart (destMem 0) 0 c) = true ∧ freeJournal (reg (destMem 0) 0x41 1) 0 = some 0 ∧
    canIssue (.jrd (rr 0 5 0xFF 0 0 64)) (hdr 0) [0xFF] base 2 = true ∧
    canIssue (.jrd (rr 0 5 0xFF 0 0 0 1)) (hdr 0) [0xFF] (journal base { state := 2, frame := 2 }) 2 = true ∧
    (jentry (journal base { state := 2, frame := 2 }) 0 0).state ≠ 0 ∧
    (jentry (journal base { state := 2, frame := 2 }) 0 0).frame = 2 ∧
    canIssue (.mquery (rr 0 5 0 0 0 10)) (hdr 0) [] base 2 = true := by
  decide +kernel


/-- The guard `(p2)`, whose bits are all 0 in `base`: no element is active (R56). -/
def hidden (t : BitVec 5) : Hdr := ⟨0, false, 2, false, t⟩
/-- A long result on its way to `base`. -/
def landing (d : BitVec 8) : State :=
  { base with rets := [{ frame := 2, entry := 0, writes := [regWrite d 7], ready := true, late := [], ord := 0 }] }
/-- The word at 0x10000 of die 0's DRAM. -/
def spot : Target := { flat := 0x10000, home := some 0, off := 0x10000, cmp := false, unc := false }
/-- `base` with one request that has its target. -/
def asking (op : BitVec 3) : State := { base with reqs := [{ request op 0x10000 with target := some spot }] }
def poisonAt (s : State) (a : Nat) : State := { s with poison := [(a / 8, true)] }
def noDie (s : State) : State := modDie s 0 fun d => { d with up := false }
/-- `base` with one window request. -/
def windowed (s : State) (op : BitVec 3) (a : Nat) : State := { s with wreqs := [request op (BitVec.ofNat 64 (0xFD * 2 ^ 56 + a))] }
/-- A journal entry of the context, sent, with one part to be applied. -/
def posted (a : Nat) : JEntry :=
  { state := 1, frame := 2, size := 3, addr := BitVec.ofNat 64 (0xFD * 2 ^ 56 + a), sent := true, todo := [winCluster (0xFD * 2 ^ 56 + a)] }
/-- `base` with one message in the network. -/
def coming (s : State) (k : Nat) : State := { s with net := [msg k] }
def withSvc : State := modTask base 0 0 fun t => { t with svc := [(4, 2)] }

theorem meets_ResultsLandThenTraps :
    [5, 0x82, 0x45, 0].all (fun d => (landing d).rets[0]?.isSome && (isG d || isP d || isV d) && !entryBusy { landing d with rets := [] } 2 0) = true ∧
    bound (landing 5) 2 = true ∧ bound (landing 5) 2 = true ∧
    bound (ctx base fun x => { x with trap := some (exactTrap base 0x0A 9 0) }) 2 = true ∧
    (slotOf (ctx base fun x => { x with trap := some (exactTrap base 0x0A 9 0) }) 0 0).act.frame = some 2 ∧
    noPending (ctx base fun x => { x with trap := some (exactTrap base 0x0A 9 0) }) 2 = true ∧
    delivered base 2 (exactTrap base 0x0A 9 0) = false ∧
    delivered (writeFrame base 2 wTvec 0x20000) 2 (exactTrap base 0x0A 9 0) = true ∧ (exactTrap base 0x0A 9 0).scrub = false ∧
    runLate base 2 x0 = [] ∧ x0.cap = none := by
  decide +kernel

theorem meets_PagedAccessesAreServed :
    [0, 1, 2, 3, 4, 5].all (fun op => reqReady (asking op) { request op 0x10000 with target := some spot }) = true ∧
    targetReach (asking 0) 0 spot = true ∧ poisoned (asking 0) spot.flat 8 = false ∧
    poisoned (poisonAt (asking 0) 0x10000) spot.flat 8 = true ∧ targetReach (poisonAt (asking 0) 0x10000) 0 spot = true ∧
    reqReady (poisonAt (asking 0) 0x10000) { request 0 0x10000 with target := some spot } = true ∧
    targetReach (noDie (asking 1)) 0 spot = false ∧
    reqReady (noDie (asking 1)) { request 1 0x10000 with target := some spot } = true ∧
    freeJournal (noDie (asking 1)) 0 = some 0 ∧ ctxOf (noDie (asking 1)) 2 = some x0 ∧ readBytes (asking 3) spot.flat 8 = 0 ∧
    readBytes { asking 3 with mem := [⟨0x10000, 1⟩] } spot.flat 8 = 1 ∧ spot.rc = false ∧ targetReach (asking 2) 0 spot = true ∧
    poisoned (asking 2) spot.flat 8 = false ∧
    (noDie (asking 1)).reqs[0]? = some { request 1 0x10000 with target := some spot } := by
  decide +kernel

theorem meets_WindowAccessesAreServed :
    reqReady (windowed base 0 8) (request 0 0xFD00000000000008) = true ∧
    portOf (windowed base 0 8) 0 (winFlat 0xFD00000000000008) = .word (localBase 0 + 8) ∧
    poisoned (windowed base 0 8) (localBase 0 + 8) 8 = false ∧
    reqReady (windowed (setFifo (bank base 0 3) 0 0 [7]) 0 0x4000000008) (request 0 0xFD00004000000008) = true ∧
    portOf (windowed (setFifo (bank base 0 3) 0 0 [7]) 0 0x4000000008) 0 (winFlat 0xFD00004000000008) = .port 0 0 8 ∧
    fifoOf (windowed (setFifo (bank base 0 3) 0 0 [7]) 0 0x4000000008) 0 0 = [7] ∧
    reqReady (windowed base 0 0x8000000000) (request 0 0xFD00008000000000) = true ∧
    portOf (windowed base 0 0x8000000000) 0 (winFlat 0xFD00008000000000) = .refused 5 ∧
    reqReady (windowed base 2 8) (request 2 0xFD00000000000008) = true ∧
    partReady (journal base (posted 8)) 0 (posted 8) 0 = true ∧
    portOf (journal base (posted 8)) 0 (partFlat (posted 8) 0) = .word (localBase 0 + 8) ∧
    partReady (journal base (posted 0x8000000000)) 0 (posted 0x8000000000) 1 = true ∧
    portOf (journal base (posted 0x8000000000)) 0 (partFlat (posted 0x8000000000) 1) = .refused 5 ∧
    fifoWaiters (windowed (setFifo (bank base 0 3) 0 0 [7]) 0 0x4000000008) 0 0 true = [] := by
  decide +kernel

theorem meets_JournalAndReleases :
    jentry (journal base { posted 8 with todo := [] }) 0 0 = { posted 8 with todo := [] } ∧ (posted 8).state = 1 ∧
    (posted 8).sent = true ∧ (posted 8).refusals = 0 ∧ (posted 8).kind ≠ 2 ∧
    jentry (journal base { posted 8 with todo := [], kind := 2, entry := some 0 }) 0 0 = { posted 8 with todo := [], kind := 2, entry := some 0 } ∧
    jentry (journal base { posted 8 with todo := [], refusals := 1 }) 0 0 = { posted 8 with todo := [], refusals := 1 } ∧
    jentry (journal base { posted 8 with sent := false, rel := true }) 0 0 = { posted 8 with sent := false, rel := true } ∧
    cachedBefore (journal base { posted 8 with sent := false, rel := true }) 2 0 = true ∧
    (coreOf (journal base { posted 8 with sent := false, rel := true }) 0).journal.all (fun p => !decide (p.2.ord < 0)) = true ∧
    cachedBefore { base with net := [{ msg 4 with held := true }] } 2 0 = true ∧
    windowBefore (journal base { posted 8 with sent := false, rel := true }) 2 0 = true ∧ (posted 8).dead = false ∧
    jentry (journal base { posted 8 with todo := [], refusals := 1, dead := true }) 0 0 = { posted 8 with todo := [], refusals := 1, dead := true } ∧
    jentry (journal (modDie base 1 fun x => { x with up := false }) { posted 8 with todo := [], applied := [32, 0] }) 0 0 = { posted 8 with todo := [], applied := [32, 0] } ∧
    lostParts (journal (modDie base 1 fun x => { x with up := false }) { posted 8 with todo := [], applied := [32, 0] }) 0 { posted 8 with todo := [], applied := [32, 0] } = [32] ∧
    lostParts (journal (modDie base 1 fun x => { x with up := false }) { posted 8 with todo := [], kind := 2, applied := [32, 0] }) 0 { posted 8 with todo := [], kind := 2, applied := [32, 0] } = [32] := by
  decide +kernel

theorem meets_MessagesArrive :
    msgTurn (coming withSvc 4) 0 (msg 4) = true ∧ reachable (coming withSvc 4) 0 0 = true ∧
    (coreOf (coming withSvc 4) 0).tasks.any (fun p => p.2.svc.any fun t => t.1 == 4) = true ∧
    (SMap.get [] (coreOf (coming withSvc 4) 0).classQ 4).length < 32 ∧ msgTurn (coming base 4) 0 (msg 4) = true ∧
    (coreOf (coming base 4) 0).tasks.all (fun p => p.2.svc.all fun t => t.1 != 4) = true ∧
    (SMap.get [] (coreOf (modCore (coming withSvc 4) 0 fun c => { c with classQ := [(4, List.replicate 32 (msg 4))] }) 0).classQ 4).length = 32 ∧
    launchLive (coming base 1) 0 (msg 1).launch = true ∧ msgTurn (coming base 1) 0 (msg 1) = true ∧
    (coreOf (coming base 0) 0).cur = some 0 ∧ launchId (taskOf (coming base 0) 0 0).token = (msg 0).launch.toNat ∧
    (coreOf (coming base 0) 0).taskQ.length < 16 ∧ queueSlot (coming base 0) 0 0 = true ∧
    msgTurn (coming base 0) 0 (msg 0) = true ∧
    (coreOf (modCore (coming base 0) 0 fun c => { c with taskQ := List.replicate 16 (msg 0) }) 0).taskQ.length = 16 ∧
    classOwner (coming withSvc 4) 0 4 = some 0 ∧ (taskOf (coming base 0) 0 0).ending = none := by
  decide +kernel

theorem meets_QueueHelperAndEngineArrival :
    (coreOf roomy 0).cur = some 0 ∧ launchId (taskOf roomy 0 0).token = 1 ∧ (coreOf roomy 0).swap = none ∧
    liveHelpers roomy 0 0 < 10 ∧
    (coreOf (modCore roomy 0 fun c => { c with taskQ := [msg 0] }) 0).taskQ.find? (fun m => m.launch.toNat == 1) = some (msg 0) ∧
    (startContext (modCore roomy 0 fun c => { c with taskQ := [msg 0] }) 0 0 1 0 7 [8, 9, 10, 11] (some (0, 5, 1))).isSome = true ∧
    (barrierOf base coreBar).failed = false ∧ inMask base 0 1 (barrierOf base coreBar).mask 0 = true ∧
    0 ∉ (barrierOf base coreBar).arrived ∧ 0 ∈ (barrierOf (barrier { mask := ownMask, arrived := [0] }) coreBar).arrived ∧
    inMask (barrier { mask := ownMask, arrived := [0] }) 0 1 ownMask 0 = true ∧ (taskOf roomy 0 0).ending = none ∧
    carrierUp base 0 1 = true ∧ base.rets = [] := by
  decide +kernel

theorem meets_VectorArithmetic :
    [1, 2, 3, 5, 6, 7, 9, 10, 11].all (fun t => canVector (.vadd (rr (BitVec.ofNat 5 t) 0x45 0x43 0x44)) (hdr (BitVec.ofNat 5 t)) [0x43, 0x44] base 2) = true ∧
    [15, 16, 17].all (fun t => canVector (.vmul (rr (BitVec.ofNat 5 t) 0x45 0x43 0x44)) (hdr (BitVec.ofNat 5 t)) [0x43, 0x44] base 2) = true ∧
    canVector (.vadd (rr 15 0x45 0x43 0x44)) (hdr 15) [0x43, 0x44] base 2 = true ∧
    canVector (.vsub (rr 3 0x45 0x43 0xFF)) (hdr 3) [0x43, 0xFF] base 2 = true ∧
    canVector (.vsub (rr 10 0x45 0x43 4)) (hdr 10) [0x43, 4] base 2 = true ∧
    canVector (.vsub (rr 17 0x45 0x43 0x44)) (hdr 17) [0x43, 0x44] base 2 = true ∧
    canVector (.vmul (rr 7 0x45 0x43 0x44)) (hdr 7) [0x43, 0x44] base 2 = true ∧
    canVector (.vmul (rr 9 0x45 0x43 0x44)) (hdr 9) [0x43, 0x44] base 2 = true ∧
    canVector (.vfma (rr 3 0x45 0x43 0x44 0x46)) (hdr 3) [0x43, 0x44, 0x46] base 2 = true ∧
    canVector (.vfma (rr 11 0x45 0x43 0x44 0x46)) (hdr 11) [0x43, 0x44, 0x46] base 2 = true ∧
    canVector (.vmin (rr 1 0x45 0x43 0x44)) (hdr 1) [0x43, 0x44] base 2 = true ∧
    canVector (.vmin (rr 11 0x45 0x43 0x44)) (hdr 11) [0x43, 0x44] base 2 = true ∧
    canVector (.vmax (rr 7 0x45 0x43 0x44)) (hdr 7) [0x43, 0x44] base 2 = true ∧
    canVector (.vmax (rr 9 0x45 0x43 0x44)) (hdr 9) [0x43, 0x44] base 2 = true ∧
    canVector (.vabs (rr 1 0x45 0x43 0)) (hdr 1) [0x43] base 2 = true ∧
    canVector (.vabs (rr 5 0x45 0x43 0)) (hdr 5) [0x43] base 2 = true ∧
    canVector (.vabs (rr 10 0x45 0x43 0)) (hdr 10) [0x43] base 2 = true ∧
    canVector (.vdiv (rr 11 0x45 0x43 0x44)) (hdr 11) [0x43, 0x44] base 2 = true ∧
    canVector (.vsqrt (rr 11 0x45 0x43 0)) (hdr 11) [0x43] base 2 = true ∧ freeEntry base 2 = some 0 := by
  decide +kernel

theorem meets_VectorLanes :
    canVector (.vrcp (rr 11 0x45 0x43 0)) (hdr 11) [0x43] base 2 = true ∧
    canVector (.vrsq (rr 10 0x45 0x43 0)) (hdr 10) [0x43] base 2 = true ∧
    canVector (.vexp2 (rr 9 0x45 0x43 0)) (hdr 9) [0x43] base 2 = true ∧
    canVector (.vlog2 (rr 11 0x45 0x43 0)) (hdr 11) [0x43] base 2 = true ∧
    canVector (.vcmp (rr 11 0x82 0x43 0x44)) (hdr 11) [0x43, 0x44] base 2 = true ∧
    canVector (.vcmp (rr 5 0x82 0x43 0x44)) (hdr 5) [0x43, 0x44] base 2 = true ∧
    canVector (.vsel (rr 3 0x45 0x43 0x44 0x82)) (hdr 3) [0x43, 0x44, 0x82] base 2 = true ∧
    (∀ k : Fin 4, canVector (.vbit (rr 3 0x45 0x43 0x44 0 0 0 (BitVec.ofNat 6 k))) (hdr 3 (BitVec.ofNat 6 k)) [0x43, 0x44] base 2 = true) ∧
    canVector (.vbit (rr 3 0x45 0x43 0 0 0 0 4)) (hdr 3 4) [0x43, 0] base 2 = true ∧
    (∀ k : Fin 3, canVector (.vsh (rr 8 0x45 0x43 0x44 0 0 0 (BitVec.ofNat 6 k))) (hdr 8 (BitVec.ofNat 6 k)) [0x43, 0x44] base 2 = true) ∧
    canVector (.vbcast (rr 12 0x45 0xFF 0 0 9)) (hdr 12) [0xFF] base 2 = true ∧
    canVector (.vperm (rr 1 0x45 0x43 0x44)) (hdr 1) [0x43, 0x44] base 2 = true ∧
    canVector (.vmovxIns (rr 1 0x45 3 0 0 127)) (hdr 1) [3] base 2 = true ∧ maskAt base 2 (hdr 1) 127 = true ∧
    canVector (.vmovxIns ⟨hidden 1, 0, 0x45, 3, 0, 0, 127⟩) (hidden 1) [3] base 2 = true ∧
    maskAt base 2 (hidden 1) 127 = false ∧ canVector (.vmovxExt (rr 4 5 0x43 0 0 15 0 1)) (hdr 4 1) [0x43] base 2 = true ∧
    maskAt base 2 (hdr 4 1) (8 * 15) = true ∧
    canVector (.vmovxExt ⟨{ hidden 4 with fn := 1 }, 0, 5, 0x43, 0, 0, 15⟩) { hidden 4 with fn := 1 } [0x43] base 2 = true ∧
    [0, 1, 2].all (fun p => canVector (.vshuf (rr 3 0x45 0x43 0 0 (0x1F00 + p))) (hdr 3) [0x43, 0] base 2) = true ∧
    [3, 4, 5, 6].all (fun p => canVector (.vshuf (rr 3 0x45 0x43 0x44 0 p)) (hdr 3) [0x43, 0x44] base 2) = true ∧
    [7, 8].all (fun p => canVector (.vshuf (rr 3 0x45 0x43 0 0 p)) (hdr 3) [0x43, 0] base 2) = true := by
  decide +kernel

theorem meets_VectorReductionsAndConversions :
    (∀ k : Fin 3, canVector (.vred (rr 11 5 0x43 0 0 0 0 (BitVec.ofNat 6 k))) (hdr 11 (BitVec.ofNat 6 k)) [0x43] base 2 = true) ∧
    (∀ k : Fin 2, canVector (.vscan (rr 3 0x45 0x43 0 0 0 0 (BitVec.ofNat 6 k))) (hdr 3 (BitVec.ofNat 6 k)) [0x43] base 2 = true) ∧
    canVector (.vtopk (rr 3 0x5E 0x43 0 0 32)) (hdr 3) [0x43] base 2 = true ∧
    canVector (.vtopk (rr 3 0x5E 0x43 0 0 1 1)) (hdr 3) [0x43] base 2 = true ∧
    canVector (.vargmax (rr 3 5 0x43 0)) (hdr 3) [0x43] base 2 = true ∧ ranked 3 false (maskAt base 2 (hidden 3)) 0 = [] ∧
    canVector (.vargmax ⟨hidden 3, 0, 5, 0x43, 0, 0, 0⟩) (hidden 3) [0x43] base 2 = true ∧
    ranked 3 false (maskAt base 2 (hdr 3)) 0 ≠ [] ∧
    canVector (.vdot (rr 1 0x45 0x43 0x44 0x46)) (hdr 1) [0x43, 0x44, 0x46] base 2 = true ∧
    canVector (.vdot (rr 10 0x45 0x43 0x44 0x46)) (hdr 10) [0x43, 0x44, 0x46] base 2 = true ∧
    canVector (.vcvt (rr 11 0x45 0x43 0 0 0x10A)) (hdr 11) [0x43] base 2 = true ∧
    canVector (.vqf4 (rr 14 0x45 0x43 3 0 0x0A)) (hdr 14) [0x43, 3] base 2 = true ∧
    canVector (.vqf4 (rr 14 0x45 0x43 3 0 0x20B)) (hdr 14) [0x43, 3, 0x44] base 2 = true ∧ maskAt base 2 (hdr 14) 0 = true ∧
    canVector (.vqf4 ⟨hidden 14, 0, 0x45, 0x43, 3, 0, 0x0A⟩) (hidden 14) [0x43, 3] base 2 = true ∧
    (∀ j : Fin 64, maskAt base 2 (hidden 14) (2 * j % 128) = false) := by
  decide +kernel

theorem meets_VectorMemory :
    activeLanes base 2 (hdr 3) = upFrom 0 32 ∧ activeLanes base 2 (hidden 3) = [] ∧
    canVector (.vld (mm 3 0x45 1 8)) (hdr 3) (memSpecs (mm 3 0x45 1 8)) base 2 = true ∧
    checkLanes base x0 (readSeg base 2 1) (laneRule needRd 4) (fun l => memOff base 2 (mm 3 0x45 1 8) + (l * 4 : Nat)) (upFrom 0 32) = .ok ((upFrom 0 32).map fun l => (l, 8 + 4 * l)) ∧
    segKind (readSeg base 2 1) = 0 ∧ canVector (.vld (mm 3 0x45 0 8)) (hdr 3) (memSpecs (mm 3 0x45 0 8)) base 2 = true ∧
    checkLanes base x0 (readSeg base 2 0) (laneRule needRd 4) (fun l => memOff base 2 (mm 3 0x45 0 8) + (l * 4 : Nat)) (upFrom 0 32) = .ok ((upFrom 0 32).map fun l => (l, 8 + 4 * l)) ∧
    (upFrom 0 32).all (fun l => mayPerform base 0 2 0 (nearPlace base (nearFlat x0 1 (8 + 4 * l))) && !poisoned base (nearFlat x0 1 (8 + 4 * l)) 4) = true ∧
    canVector (.vld (mm 3 0x45 4 8)) (hdr 3) (memSpecs (mm 3 0x45 4 8)) base 2 = true ∧
    checkLanes base x0 (readSeg base 2 4) (laneRule needRd 4) (fun l => memOff base 2 (mm 3 0x45 4 8) + (l * 4 : Nat)) (upFrom 0 32) = .error (1, 8) ∧
    canVector (.vst (mm 3 0x45 1 8)) (hdr 3) (0x45 :: memSpecs (mm 3 0x45 1 8)) base 2 = true ∧
    checkLanes base x0 (readSeg base 2 1) (laneRule needWr 4) (fun l => memOff base 2 (mm 3 0x45 1 8) + (l * 4 : Nat)) (upFrom 0 32) = .ok ((upFrom 0 32).map fun l => (l, 8 + 4 * l)) ∧
    canVector (.vst (mm 3 0x45 0 8)) (hdr 3) (0x45 :: memSpecs (mm 3 0x45 0 8)) base 2 = true ∧
    checkLanes base x0 (readSeg base 2 0) (laneRule needWr 4) (fun l => memOff base 2 (mm 3 0x45 0 8) + (l * 4 : Nat)) (upFrom 0 32) = .ok ((upFrom 0 32).map fun l => (l, 8 + 4 * l)) ∧
    canVector (.vst (mm 3 0x45 0 0x3FF84)) (hdr 3) (0x45 :: memSpecs (mm 3 0x45 0 0x3FF84)) base 2 = true ∧
    checkLanes base x0 (readSeg base 2 0) (laneRule needWr 4) (fun l => memOff base 2 (mm 3 0x45 0 0x3FF84) + (l * 4 : Nat)) (upFrom 0 32) = .error (3, 0x40000) ∧
    trapsAtOnce base 2 = true ∧
    [0, 1].all (fun k => canVector (.vgath (mm 11 0x48 k 64 3)) (hdr 11) (0x49 :: memSpecs (mm 11 0x48 k 64 3)) base 2) = true ∧
    [0, 1].all (fun k => canVector (.vscat (mm 11 0x48 k 64 3)) (hdr 11) (0x49 :: 0x48 :: memSpecs (mm 11 0x48 k 64 3)) base 2) = true ∧
    canVector (.vgath (mm 11 0x48 4 64 3)) (hdr 11) (0x49 :: memSpecs (mm 11 0x48 4 64 3)) base 2 = true ∧
    canVector (.vscat (mm 11 0x48 4 64 3)) (hdr 11) (0x49 :: 0x48 :: memSpecs (mm 11 0x48 4 64 3)) base 2 = true ∧
    (readSeg base 2 0).attr.getLsbD 0 = true ∧ (readSeg base 2 4).attr.getLsbD 0 = false := by
  decide +kernel


/-- `base` as the matrix engine's instructions see it once they are past their binding. -/
def used : State := modCore base 0 fun c => { c with accUsed := true }
def unboundEngines : State := writeFrame base 2 wEngbind 0
/-- An operation of the matrix engine in core 0. -/
def op1 (op : Nat) (w : RWord) (run : Bool) : MxOp :=
  { op := op, word := w, frame := 2, slot := 0, pc := 0, iword := 0, entry := 0, ra := 0, rb := 0, rc := 0, running := run, claimed := run }
def withOp (s : State) (m : MxOp) : State := modCore s 0 fun c => { c with mx := some m }
/-- A walk of one row over `s1`, its row tile, state block and output tile at 0, 0x100 and 0x200 of `s0`. -/
def walk1 : RWord := rr 9 8 5 6 7 0x01000000
def resume1 : RWord := rr 9 8 5 0 7 0x01000000
def walkRegs : State := reg (reg base 5 (0x100 * 2 ^ 32)) 7 0x200
def walkRegs2 : State := openEntry (modCore walkRegs 0 fun c => { c with accUsed := true }) 2 0 8 0
/-- A leaf without a matrix, one element deep, of `f16` (R259). -/
def leafHdr : Nat := 0xA5 * 2 ^ 56 + 2 ^ 52 + 9 * 2 ^ 47 + 2 ^ 44
/-- The leaf at 0x10000, on a page of its format. -/
def leafAt : State :=
  let s := modCore (reg base 3 0x10000) 0 fun c => { c with accUsed := true, utlb := [tlbEntry 0 0x10000 0 (0x1010D + 9 * 2 ^ 72)] }
  openEntry (writeBytes s 0x10000 32 leafHdr) 2 0 8 0
def walkOp (st : BitVec 8) : WalkOp :=
  { word := walk1, frame := 2, slot := 0, pc := 0, iword := 0, entry := 0, sN := readSeg base 2 1, rows := 0, blockAt := localBase 0 + 0x100
    outAt := localBase 0 + 0x200, entries := [{ node := 0, status := st }] }
def node (h : Nat) : Node := { hdr := h, raw := h }
def row1 (d : BitVec 8) : WEntry := { depth := d, status := 1 }
/-- An inner node of rule 0 with two `f16` outputs of one element, its columns in `raw`. -/
def innerHdr (rule : Nat) : Nat := 0xA5 * 2 ^ 56 + 2 ^ 52 + 9 * 2 ^ 47 + rule * 2 ^ 45 + 1 * 2 ^ 38 + 1 * 2 ^ 18
/-- An inner node at 0x10000 with two children. -/
def innerAt (a b : Nat) : State :=
  writeBytes (writeBytes leafAt 0x10000 32 (innerHdr 0)) (0x10000 + 768) 16 (a + b * 2 ^ 64)
def innerNode (a b : Nat) : Node := { hdr := innerHdr 0, raw := innerHdr 0 + (a + b * 2 ^ 64) * 2 ^ 6144 }
/-- The walk's state block with a row that a fault has stopped, and one to be resumed. -/
def walkRows (st : Nat) : State := writeBytes walkRegs (localBase 0 + 0x100) 16 (st + 0x10000 * 2 ^ 64)
def again1 : RWord := rr 9 8 5 0 7 0x09000000

theorem meets_MatrixInstructions :
    ctxOf base 2 = some x0 ∧ (coreOf base 0).accJobs = [] ∧ (coreOf base 0).mx = none ∧ (coreOf base 0).wk = none ∧
    freeEntry used 2 = some 0 ∧ matrixBound base 2 = true ∧ matrixBound unboundEngines 2 = false ∧
    trapsAtOnce unboundEngines 2 = true ∧ canIssue (.mzero (rr 0 0 0 0 0 0xFF)) (hdr 0) [0, 0, 0] unboundEngines 2 = true ∧
    canIssue (.mma (rr 10 6 5 0 0 0x408)) (hdr 10) [5, 0, 0] unboundEngines 2 = true ∧
    canIssue (.walk walk1) (hdr 9) [5, 6, 7] unboundEngines 2 = true ∧
    canIssue (.mzero (rr 0 0 0 0 0 0xFF)) (hdr 0) [0, 0, 0] base 2 = true ∧
    canIssue (.mswz (rr 0 0 0 0 0 4)) (hdr 0) [0, 0, 0] base 2 = true ∧
    canIssue (.mma (rr 10 6 5 0 0 0x408)) (hdr 10) [5, 0, 0] base 2 = true ∧
    canIssue (.mma (rr 14 6 5 0 7 0x408 1)) (hdr 14) [5, 0, 7] base 2 = true ∧
    canIssue (.mcma (rr 15 6 5 0)) (hdr 15) [5, 0, 0] base 2 = true ∧ readReg (openEntry used 2 0 6 0) 2 5 < 2 ^ 32 ∧
    canIssue (.mlda (rr 11 6 5 0)) (hdr 11) [5, 0, 0] base 2 = true ∧
    canIssue (.msta (rr 3 6 5 0 0 7)) (hdr 3) [5, 0, 0] base 2 = true ∧
    engineTile (openEntry used 2 0 6 0) x0 (readSeg (openEntry used 2 0 6 0) 2 0) needRd 4096 32 11 [0] 0 = .ok (localBase 0) ∧
    engineTile (openEntry used 2 0 6 0) x0 (readSeg (openEntry used 2 0 6 0) 2 0) needWr 4096 32 3 [0] 0 = .ok (localBase 0) ∧
    poisoned (openEntry used 2 0 6 0) (localBase 0) 4096 = false ∧
    canIssue (.mlda (rr 11 6 5 0 0 0x40)) (hdr 11) [5, 0, 0] base 2 = true ∧
    engineTile (openEntry used 2 0 6 0) x0 (readSeg (openEntry used 2 0 6 0) 2 4) needRd 4096 32 11 [0] 0 = .error (4, 5) ∧
    badSpec (readReg base 2 3) = false ∧ canIssue (.marm (rr 10 6 5 3)) (hdr 10) [5, 3, 0] base 2 = true ∧
    canIssue (.mgang (rr 10 6 5 3 0 0x00C00000)) (hdr 10) [5, 3, 0] base 2 = true ∧
    (mxRing (rr 10 6 5 3 0 0x00C00000)).testBit (base.iss.core % 4) = true ∧
    canIssue (.mring (rr 10 6 5 3 0 0x00C10000)) (hdr 10) [5, 3, 0] base 2 = true ∧
    badSpec (readReg (reg base 3 8) 2 3) = true ∧ canIssue (.marm (rr 10 6 5 3)) (hdr 10) [5, 3, 0] (reg base 3 8) 2 = true ∧
    (coreOf (withOp base (op1 0xC5 (rr 10 6 5 3) true)) 0).mx = some (op1 0xC5 (rr 10 6 5 3) true) ∧
    canIssue (.marm (rr 10 6 5 3)) (hdr 10) [5, 3, 0] (withOp base (op1 0xC5 (rr 10 6 5 3) true)) 2 = true ∧
    canIssue (.mgang (rr 10 6 5 3 0 0x00C00000)) (hdr 10) [5, 3, 0] (withOp base (op1 0xC6 (rr 10 6 5 3 0 0x00C00000) true)) 2 = true ∧
    canIssue (.mring (rr 10 6 5 3 0 0x00C10000)) (hdr 10) [5, 3, 0] (withOp base (op1 0xC7 (rr 10 6 5 3 0 0x00C10000) true)) 2 = true ∧
    (mxRing (rr 10 6 5 3 0 0x01800000)).testBit (base.iss.core % 4) = false ∧
    canIssue (.mgang (rr 10 6 5 3 0 0x01800000)) (hdr 10) [5, 3, 0] base 2 = true ∧ trapsAtOnce base 2 = true ∧
    [Instr.mswz (rr 0 0 0 0 0 4), .mzero (rr 0 0 0 0 0 0xFF)].all (fun i => canIssue i (hdr 0) [0, 0, 0] unboundEngines 2) = true ∧
    canIssue (.mcma (rr 15 6 5 0)) (hdr 15) [5, 0, 0] unboundEngines 2 = true ∧
    canIssue (.mlda (rr 11 6 5 0)) (hdr 11) [5, 0, 0] unboundEngines 2 = true ∧
    canIssue (.msta (rr 3 6 5 0 0 7)) (hdr 3) [5, 0, 0] unboundEngines 2 = true ∧
    canIssue (.marm (rr 10 6 5 3)) (hdr 10) [5, 3, 0] unboundEngines 2 = true ∧
    canIssue (.mgang (rr 10 6 5 3 0 0x00C00000)) (hdr 10) [5, 3, 0] unboundEngines 2 = true ∧
    canIssue (.mring (rr 10 6 5 3 0 0x00C10000)) (hdr 10) [5, 3, 0] unboundEngines 2 = true ∧
    canIssue (.walkResume resume1) (hdr 9) [5, 0, 7] unboundEngines 2 = true ∧
    canIssue (.wchk (rr 9 8 0 3 0 0x01000000)) (hdr 9) [0, 3, 0] unboundEngines 2 = true ∧
    canIssue (.wstat (rr 0 8 5 0 0 5)) (hdr 0) [5, 0, 0] unboundEngines 2 = true := by
  decide +kernel

theorem meets_WalkInstructions :
    ctxOf walkRegs 2 = some x0 ∧ freeEntry (modCore walkRegs 0 fun c => { c with accUsed := true }) 2 = some 0 ∧
    matrixBound walkRegs 2 = true ∧ canIssue (.walk walk1) (hdr 9) [5, 6, 7] walkRegs 2 = true ∧
    walkChecks walkRegs2 x0 2 walk1 (0x100 * 2 ^ 32) 0x200 = .ok (localBase 0, localBase 0 + 0x100, localBase 0 + 0x200) ∧
    yieldWanted walkRegs 0 = false ∧ canIssue (.walk walk1) (hdr 9) [5, 6, 7] base 2 = true ∧
    walkChecks (openEntry used 2 0 8 0) x0 2 walk1 0 0 = .error (2, 4) ∧
    canIssue (.walkResume resume1) (hdr 9) [5, 0, 7] walkRegs 2 = true ∧
    walkChecks walkRegs2 x0 2 resume1 (0x100 * 2 ^ 32) 0x200 = .ok (localBase 0, localBase 0 + 0x100, localBase 0 + 0x200) ∧
    countStatus (startEntries true resume1 0 [entryFrom (engineBytes walkRegs2 0 false (localBase 0 + 0x100) 16)]) 1 = 0 ∧
    canIssue (.wstat (rr 0 8 5 0 0 0x100000)) (hdr 0) [5, 0, 0] base 2 = true ∧
    engineTile (openEntry used 2 0 8 0) x0 (readSeg base 2 4) (needRd + needWr) 16 16 0 [0] 0 = .error (4, 5) ∧
    canIssue (.wstat (rr 0 8 5 0 0 5)) (hdr 0) [5, 0, 0] base 2 = true ∧
    engineTile (openEntry used 2 0 8 0) x0 (readSeg base 2 0) (needRd + needWr) 16 16 0 [0] 0 = .ok (localBase 0) ∧
    canIssue (.wchk (rr 9 8 0 3 0 0x01000000)) (hdr 9) [0, 3, 0] base 2 = true ∧
    (readNode (openEntry used 2 0 8 0) x0 2 0x10000 (readSeg base 2 1) 9 1 0).2 = .error (6, 0) ∧
    canIssue (.wchk (rr 9 8 0 3 0 0x01000000)) (hdr 9) [0, 3, 0] leafAt 2 = true ∧
    (readNode leafAt x0 2 0x10000 (readSeg leafAt 2 1) 9 1 0x10000).2 = .ok (node leafHdr) ∧ hdLeaf leafHdr = true ∧
    walkEnding walkRegs 2 = false ∧ walkEnding base 2 = false ∧ walkEnding leafAt 2 = false ∧
    canIssue (.walkResume resume1) (hdr 9) [5, 0, 7] (walkRows 1) 2 = true ∧
    canIssue (.walkResume again1) (hdr 9) [5, 0, 7] (walkRows 3) 2 = true ∧ wkRf again1 = true ∧
    (entryFrom (engineBytes (walkRows 3) 0 false (localBase 0 + 0x100) 16)).status = 3 ∧
    0 < countStatus (startEntries true resume1 0 [entryFrom (engineBytes (walkRows 1) 0 false (localBase 0 + 0x100) 16)]) 1 ∧
    0 < countStatus (startEntries true again1 0 [entryFrom (engineBytes (walkRows 3) 0 false (localBase 0 + 0x100) 16)]) 1 ∧
    poisoned (openEntry used 2 0 8 0) (localBase 0) 16 = false ∧
    poisoned (poisonAt (openEntry used 2 0 8 0) (localBase 0 + 8)) (localBase 0) 16 = true ∧
    [leafAt, innerAt 0x20000 0x20100].all (fun s => !nodeWaits s x0 2 0x10000 (readSeg s 2 1) 0x10000) = true ∧
    [(0x20000, 0x20100), (0x20000, 0), (0x20001, 0), (0x20000, 2 ^ 60)].all (fun p => (readNode (innerAt p.1 p.2) x0 2 0x10000 (readSeg leafAt 2 1) 9 1 0x10000).2.toOption == some (innerNode p.1 p.2)) = true ∧
    canIssue (.wchk (rr 9 8 0 3 0 0x01000000)) (hdr 9) [0, 3, 0] (innerAt 0x20000 0x20100) 2 = true ∧
    hdLeaf (innerNode 0x20000 0x20100).hdr = false ∧ hdCount (innerNode 0x20000 0x20100).hdr = 2 ∧
    [0, 1].all (fun k => tileBits (innerNode 0x20000 0x20100).raw (childTable (innerHdr 0) + 8 * k) 64 == 0x20000 + 0x100 * k) = true ∧
    checkSeg leafAt x0 (readSeg leafAt 2 1) { need := needRd + needEng, size := 256, align := 256, kinds := [0] } 0x20000 = .ok 0x20000 ∧
    checkSeg leafAt x0 (readSeg leafAt 2 1) { need := needRd + needEng, size := 256, align := 256, kinds := [0] } (2 ^ 60) = .error 3 := by
  decide +kernel

theorem meets_EngineSteps :
    canStart (withOp base (op1 0xC6 (rr 10 6 5 3 0 0x00400000) false)) 0 = true ∧
    yieldsStart (withOp base (op1 0xC6 (rr 10 6 5 3 0 0x00400000) false)) 0 (op1 0xC6 (rr 10 6 5 3 0 0x00400000) false) = false ∧
    (op1 0xC1 (rr 10 6 5 0 0 0x408) true).running = true ∧ (op1 0xC1 (rr 10 6 5 0 0 0x408) true).claimed = true ∧
    stepChecks (withOp base (op1 0xC1 (rr 10 6 5 0 0 0x408) true)) x0 (op1 0xC1 (rr 10 6 5 0 0 0x408) true) 0 true true = .ok (localBase 0, localBase 0, 0) ∧
    mxSteps (rr 10 6 5 0 0 0x408) = 2 ∧
    stepChecks (withOp base (op1 0xC2 (rr 15 6 5 0) true)) x0 (op1 0xC2 (rr 15 6 5 0) true) 0 true true = .ok (localBase 0, localBase 0, 0) ∧
    mxSteps (rr 15 6 5 0) = 1 ∧ (coreOf (modCore base 0 fun c => { c with wk := some (walkOp 1) }) 0).wk = some (walkOp 1) ∧
    yieldWanted (modCore base 0 fun c => { c with wk := some (walkOp 1) }) 0 = false ∧ tyOf (rr 1 6 5 0).hdr = 1 ∧
    hdLeaf (node leafHdr).hdr = true ∧ hdLeaf (node (innerHdr 0)).hdr = false ∧ (row1 64).depth = 64 ∧
    chooseChild (innerHdr 0) [0x7FC00000, 0] = .error 0 ∧ chooseChild (innerHdr 0) [0, 0x3F800000] = .ok 1 ∧
    hdRule (node (innerHdr 1)).hdr = 1 ∧ isNaN (f32Of 0) = false ∧ isNaN (f32Of 0x80000000) = false ∧
    isNaN (f32Of 0x7F800000) = false ∧ walkEnding (modCore base 0 fun c => { c with wk := some (walkOp 1) }) 2 = false ∧
    (runningNodes (walkOp 1).entries).all (fun p => !nodeWaits base x0 2 0 (readSeg base 2 1) p) = true := by
  decide +kernel

/-- A copy command of `op` with `g[c]` of `rc`, between two places of core-local memory. -/
def cmd (op : Nat) (rc : Word) (started : Bool) : CopyCmd :=
  { op := op, word := rr 0 0 3 4 5, sD := readSeg base 2 0, sS := readSeg base 2 0, sI := readSeg base 2 0, ra := 0, rb := 0x2000, rc := rc, rc1 := 0
    cfill := 0, frame := 2, slot := 0, part := 0, bind := 0, id := 0, pc := 0, started := started }
def copies (s : State) (l : List CopyCmd) : State := modCore s 0 fun c => { c with copyQ := l }
/-- The same with a row in the engine's hand. -/
def inHand (l : List Put) : CopyCmd := { cmd 0xD8 8 true with hand := some { puts := [l], oob := false } }
/-- The same between two ranges of scratch memory. -/
def bankCmd : CopyCmd := { cmd 0xD8 64 true with sS := readSeg base 2 2, ra := 0, rb := 0x2000 }

theorem meets_CopyCommands :
    copyBound base 2 = true ∧ copyBound unboundEngines 2 = false ∧ trapsAtOnce unboundEngines 2 = true ∧
    [base, unboundEngines].all (fun s => canIssue (.cpy (rr 0 0 3 4 5)) (hdr 0) [3, 4, 5, 0xC0, 0xC0] s 2) = true ∧
    [base, unboundEngines].all (fun s => canIssue (.cpy2d (rr 0 0 3 4 5)) (hdr 0) [3, 4, 5, 6, 0xC0, 0xC0] s 2) = true ∧
    [base, unboundEngines].all (fun s => canIssue (.cgath (rr 0 0 3 4 62)) (hdr 0) [3, 4, 62, 63, 0xC0, 0xC0, 0xC0] s 2) = true ∧
    [base, unboundEngines].all (fun s => canIssue (.cscat (rr 0 0 3 4 5)) (hdr 0) [3, 4, 5, 6, 0xC0, 0xC0, 0xC0] s 2) = true ∧
    [base, unboundEngines].all (fun s => canIssue (.cfill (rr 0 0 3 4 5)) (hdr 0) [3, 4, 5, 0xC0] s 2) = true ∧
    [base, unboundEngines].all (fun s => canIssue (.cswz (rr 0 0 3 0)) (hdr 0) [3] s 2) = true ∧
    [base, unboundEngines].all (fun s => canIssue (.femark (rr 0 0 0 4 5)) (hdr 0) [4, 5, 0xC0] s 2) = true ∧
    (coreOf base 0).copyQ.length < 2 ∧ tagBusy base 0 0 = false ∧ tagBusy (copies base [cmd 0xD8 64 false]) 0 0 = true ∧
    canIssue (.cpy (rr 0 0 3 4 5)) (hdr 0) [3, 4, 5, 0xC0, 0xC0] (copies base [cmd 0xD8 64 false]) 2 = true ∧
    2 ≤ (coreOf (copies base [cmd 0xD8 64 false, cmd 0xD8 64 false]) 0).copyQ.length ∧
    canIssue (.cpy (rr 0 0 3 4 5)) (hdr 0) [3, 4, 5, 0xC0, 0xC0] (copies base [{ cmd 0xD8 64 false with bind := 1 }]) 2 = true ∧
    (coreOf (copies base [{ cmd 0xD8 64 false with bind := 1 }]) 0).copyQ.length < 2 ∧
    tagBusy (copies base [{ cmd 0xD8 64 false with bind := 1 }]) 0 1 = false ∧
    canIssue (.cstat (rr 0 5 0xFF 0 0 64)) (hdr 0) [0xFF] base 2 = true ∧
    canIssue (.cstat (rr 0 5 0xFF 0 0 63)) (hdr 0) [0xFF] base 2 = true ∧
    canIssue (.cstat (rr 0 5 0xFF 0 0 63 1)) (hdr 0) [0xFF] base 2 = true ∧
    canIssue (.ccancel (rr 0 5 0xFF 0 0 1 0 1)) (hdr 0 1) [0xFF] (copies base [cmd 0xD8 64 false]) 2 = true ∧
    canIssue (.ccancel (rr 0 5 0xFF 0 0 1 0 1)) (hdr 0 1) [0xFF] (copies base [inHand [.near (localBase 0) 8 7]]) 2 = true := by
  decide +kernel

theorem meets_CopyEngine :
    (∀ k : Fin 3, checkOperands (cmd 0xD8 0x100000000 false) k = .fault ⟨4, 3, k⟩) ∧
    checkOperands (cmd 0xD8 0 false) 0 = .empty ∧ checkOperands (cmd 0xD8 64 false) 0 = .rows ∧
    (coreOf (copies base [cmd 0xD8 64 true]) 0).copyQ = [cmd 0xD8 64 true] ∧
    (copyOne (copies base [cmd 0xD8 8 true]) 0 (cmd 0xD8 8 true)).2 = .write { puts := [[.near (localBase 0 + 0x2000) 8 0]], oob := false } [] ∧
    copyRows (cmd 0xD8 64 true) = 1 ∧ copyRows (cmd 0xD8 4104 true) = 2 ∧
    (copyOne (copies base [{ cmd 0xD8 64 true with ra := 0x3FFF8 }]) 0 { cmd 0xD8 64 true with ra := 0x3FFF8 }).2 = .fault ⟨4, 3, 0x3FFF8⟩ 0 ∧
    (copyOne (modCluster base 0 fun c => { c with switching := [{ bank := 0, mode := 2 }] }) 0 bankCmd).2 = .wait ∧
    cqCv (cmd 0xD8 64 true) = 0 ∧ (cmd 0xD8 64 true).swz = 0 ∧
    checkRange base 0 (cmd 0xD8 64 true) (srcRange (cmd 0xD8 64 true) 0 64) = (base, .ok (.near 1 (localBase 0))) ∧
    checkRange base 0 (cmd 0xD8 64 true) (dstRange (cmd 0xD8 64 true) 0x2000 64) = (base, .ok (.near 1 (localBase 0 + 0x2000))) ∧
    poisoned base (localBase 0) 64 = false ∧ (cmd 0xD8 64 true).hand = none ∧
    (inHand [.near (localBase 0) 8 7]).started = true ∧ nextPut base.tick [[]] = none ∧
    (match takePut base 0 (.window 0xFD00008000000000 0 (some 7)) with | .refused => true | _ => false) = true ∧
    (match takePut (modCluster base 0 fun c => { c with switching := [{ bank := 0, mode := 2 }] }) 0 (.window 0xFD00004000000000 0 (some 7)) with | .held => true | _ => false) = true ∧
    (inHand []).stop = false ∧ { cmd 0xD8 8 true with row := 1 }.row = copyRows (cmd 0xD8 8 true) ∧
    { inHand [] with hand := none, stop := true }.stop = true ∧ { cmd 0xD8 8 true with row := 1 }.stop = false := by
  decide +kernel

theorem meets_CopyEngine_writes (t : Nat) (p : Put) : nextPut t [[p]] = some (p, [[]]) := by
  simp [nextPut, Nat.mod_one]

/-- `base` with the 64 KiB page at 0x10000 in its micro-TLB. -/
def paged : State := reg (reg (modCore base 0 fun c => { c with utlb := [tlbEntry 0 0x10000 0 0x1010D] }) 3 0x10000) 4 64
def waits (s : State) (o : Nat) : State := ctx s fun x => { x with wait := some (.request o) }
/-- Range operands in `g3` and `g4`, segment s1. -/
def onS1 (d : BitVec 8) (imm : BitVec 32 := 0) (c : BitVec 8 := 0) : RWord := rr 0 d 3 4 c (0x400000 ||| imm)
def pinOp (q : BitVec 8) : RWord := rr 0 5 3 0 0 0x400000 q

/-- `paged` at supervisor privilege, its page on die 3 and the die between out of service. -/
def farPaged : State :=
  modDie (modCore (sup paged) 0 fun c => { c with utlb := [tlbEntry 0 0x10000 0 (0x1010D + 3 * 2 ^ 84)] }) 1 fun d => { d with up := false }

theorem meets_SliceInstructions :
    (freeEntry paged 2).isSome = true ∧ cwSeg (onS1 0) = 1 ∧ canIssue (.pfr (onS1 0)) (hdr 0) [3, 4, 0xC1] paged 2 = true ∧
    checkSeg paged x0 (readSeg paged 2 1) { need := needRd, size := 64, align := 1, kinds := [0] } 0x10000 = .ok 0x10000 ∧
    tagBusy paged 0 (fld (onS1 0).imm 31 26) = false ∧ (coreOf paged 0).pfrs.length < 8 ∧
    (rangeTargets 0 0 0 0x100 1 paged).2.length = 1 ∧
    canIssue (.pfrBar { onS1 0 0 6 with qual := 1 }) (hdr 0) [3, 4, 0xC1, 6] paged 2 = true ∧
    checkSeg paged x0 (readSeg paged 2 1) { need := needRd, size := 2 ^ 33, align := 1, long := true, kinds := [0] } (0xFFFFFFFFFFFFFFFF : Nat) = .error 3 ∧
    canIssue (.pfr (onS1 0)) (hdr 0) [3, 4, 0xC1] (reg (reg base 3 0xFFFFFFFFFFFFFFFF) 4 (2 ^ 33)) 2 = true ∧
    trapsAtOnce (reg (reg base 3 0xFFFFFFFFFFFFFFFF) 4 (2 ^ 33)) 2 = true ∧ allPerformed paged 0 2 = true ∧
    canIssue (.rflush (onS1 0)) (hdr 0) [3, 4, 0xC1] paged 2 = true ∧
    canIssue (.rinval (onS1 0)) (hdr 0) [3, 4, 0xC1] paged 2 = true ∧
    canIssue (.rflush (onS1 0)) (hdr 0) [3, 4, 0xC1] (waits paged 5) 2 = true ∧
    canIssue (.rinval (onS1 0)) (hdr 0) [3, 4, 0xC1] (waits paged 5) 2 = true ∧
    (ctxOf (waits paged 5) 2).map Ctx.wait = some (some (.request 5)) ∧
    canIssue (.secpin (pinOp 0)) (hdr 0) [3, 0xC1] paged 2 = true ∧
    canIssue (.secpinUn (pinOp 1)) (hdr 0) [3, 0xC1] paged 2 = true ∧ supervisor paged 2 = false ∧
    supervisor (sup paged) 2 = true ∧ canIssue (.secpin (pinOp 0)) (hdr 0) [3, 0xC1] (sup paged) 2 = true ∧
    canIssue (.secpinUn (pinOp 1)) (hdr 0) [3, 0xC1] (sup paged) 2 = true ∧
    checkSeg (sup paged) x0 (readSeg (sup paged) 2 1) { need := needRd + needWr, size := 128, align := 128, kinds := [0] } 0x10000 = .ok 0x10000 ∧
    (engineXlate (openEntry (sup paged) 2 0 5 0) 0 0 0 0x10000).2 = .page 0 0x1010D ∧ pteTgt 0x1010D = 0 ∧
    targetReach (engineXlate (openEntry (sup paged) 2 0 5 0) 0 0 0 0x10000).1 0 (target 0 0x10000 0 0x1010D) = true ∧
    canIssue (.bmode (rr 0 5 3 0)) (hdr 0) [3] (reg base 3 (2 ^ 32)) 2 = true ∧
    canIssue (.bmode (rr 0 5 3 0)) (hdr 0) [3] (reg base 3 0xFFFFFFFF) 2 = true ∧
    canIssue (.bmode (rr 0 5 3 0 0 1)) (hdr 0) [3] (reg base 3 1) 2 = true ∧
    canIssue (.bmode (rr 0 5 3 0 0 2)) (hdr 0) [3] (reg base 3 1) 2 = true ∧ (clusterSt base 0).reserved = 0 ∧
    (clusterSt base 0).switching = [] ∧
    ((List.range 32).countP fun k => if (0xFFFFFFFF : Nat).testBit k then (0 : Nat) == 1 else bankMode base 0 k == 1) < 4 ∧
    4 ≤ ((List.range 32).countP fun k => if (1 : Nat).testBit k then (2 : Nat) == 1 else bankMode base 0 k == 1) ∧
    ((upFrom 0 32).filter fun k => (1 : Nat).testBit k && decide (bankMode base 0 k ≠ 1)) = [] ∧
    ((upFrom 0 32).filter fun k => (1 : Nat).testBit k && decide (bankMode base 0 k ≠ 2)) = [0] ∧
    canIssue (.ctrrd (rr 0 5 3 0 0 0x100)) (hdr 0) [] base 2 = true ∧
    canIssue (.ctrrd (rr 0 5 3 0 0 14)) (hdr 0) [3] base 2 = true ∧
    canIssue (.ctrrd (rr 0 5 3 0 0 14)) (hdr 0) [3] (reg base 3 64) 2 = true ∧
    canIssue (.pfr (onS1 0)) (hdr 0) [3, 4, 0xC1] (reg paged 4 0) 2 = true ∧ readReg (reg paged 4 0) 2 4 = 0 ∧
    readReg paged 2 4 ≠ 0 ∧ canIssue (.pfrBar { onS1 0 0 6 with qual := 1 }) (hdr 0) [3, 4, 0xC1, 6] (reg paged 4 0) 2 = true ∧
    checkSeg paged x0 (readSeg paged 2 1) { need := needRd, size := 0, align := 1, kinds := [0] } 0x10000 = .ok 0x10000 ∧
    tagBusy (copies paged [{ cmd 0xD8 64 false with word := onS1 0 }]) 0 0 = true ∧
    canIssue (.pfr (onS1 0)) (hdr 0) [3, 4, 0xC1] (copies paged [{ cmd 0xD8 64 false with word := onS1 0 }]) 2 = true ∧
    allPerformed { paged with reqs := [request 0 8] } 0 2 = false ∧
    canIssue (.rflush (onS1 0)) (hdr 0) [3, 4, 0xC1] { paged with reqs := [request 0 8] } 2 = true ∧
    canIssue (.rinval (onS1 0)) (hdr 0) [3, 4, 0xC1] { paged with reqs := [request 0 8] } 2 = true ∧
    canIssue (.rflush (onS1 0)) (hdr 0) [3, 4, 0xC1] (reg paged 4 0) 2 = true ∧
    canIssue (.rinval (onS1 0)) (hdr 0) [3, 4, 0xC1] (reg paged 4 0) 2 = true ∧ paged.flushes = [] := by
  decide +kernel

theorem meets_SliceInstructions_out_of_reach :
    targetReach (noDie (sup paged)) 0 (target 0 0x10000 0 0x1010D) = false ∧
    canIssue (.secpin (pinOp 0)) (hdr 0) [3, 0xC1] (noDie (sup paged)) 2 = true ∧
    canIssue (.secpinUn (pinOp 1)) (hdr 0) [3, 0xC1] (noDie (sup paged)) 2 = true ∧
    targetWaits (engineXlate (openEntry (sup paged) 2 0 5 0) 0 0 0 0x10000).1 0 0 (target 0 0x10000 0 0x1010D) = false ∧
    (engineXlate (openEntry farPaged 2 0 5 0) 0 0 0 0x10000).2 = .page 0 (0x1010D + 3 * 2 ^ 84) ∧
    targetWaits (engineXlate (openEntry farPaged 2 0 5 0) 0 0 0 0x10000).1 0 0 (target 0 0x10000 0 (0x1010D + 3 * 2 ^ 84)) = true ∧
    canIssue (.secpin (pinOp 0)) (hdr 0) [3, 0xC1] farPaged 2 = true ∧
    canIssue (.secpinUn (pinOp 1)) (hdr 0) [3, 0xC1] farPaged 2 = true ∧ supervisor farPaged 2 = true := by
  decide +kernel

/-- A capsule of version 1, one unit, one hop to core 0 with handler 2 when `n` is 1. -/
def capsule (n : Nat := 1) (time : Word := 0) : Capsule :=
  { head := [BitVec.ofNat 64 (2 ^ 56 + n * 2 ^ 27 + 2 ^ 17), 0, 0, time] ++ List.replicate 12 0 ++ [0x200000000000000] ++ List.replicate 15 0
    tile := List.replicate 16 7, part := 0 }
/-- The entry of handler 2 in a table at the start of core-local memory: valid, for any class. -/
def handlers (s : State) : State := writeBytes s (localBase 0 + 40) 8 (2 ^ 63 + 0xFF * 2 ^ 48)
def capQueued (n : Nat) : State := modCore (handlers (reg (service base 2) 3 0x2000)) 0 fun c => { c with capQ := List.replicate n (0, capsule) }
def capRecv : RWord := rr 0 5 3 0x40 6
def capHead (s : State) : State := reg s 0x42 (2 ^ 56 + 2 ^ 27 + 2 ^ 17)
def sendFull (s : State) : State := modCore s 0 fun c => { c with sendBuf := 2 }

theorem meets_CapsulesAreReceivedAndSent :
    canIssue (.caprecv capRecv) (hdr 0) [3, 6, 0xC0, 0xC0] base 2 = true ∧ capService base 2 = false ∧
    canIssue (.caprecv capRecv) (hdr 0) [3, 6, 0xC0, 0xC0] (capQueued 1) 2 = true ∧ capService (capQueued 1) 2 = true ∧
    (ctxOf (capQueued 1) 2).map Ctx.cap = some none ∧
    checkSeg (capQueued 1) x0 (readSeg (capQueued 1) 2 0) { need := needRd, size := 1024, align := 16, kinds := [1] } 0 = .ok 0 ∧
    checkStaging (capQueued 1) x0 (readSeg (capQueued 1) 2 0) 0x2000 = .ok (.memory (localBase 0 + 0x2000)) ∧
    (coreOf (capQueued 0) 0).capQ = [] ∧ canIssue (.caprecv capRecv) (hdr 0) [3, 6, 0xC0, 0xC0] (capQueued 0) 2 = true ∧
    (coreOf (capQueued 1) 0).capQ = [(0, capsule)] ∧ handlerOp capsule = 2 ∧
    poisoned (capQueued 1) (localBase 0 + 32) 16 = false ∧ (readBytes (capQueued 1) (localBase 0 + 40) 8).testBit 63 = true ∧
    bitsOf (readBytes (capQueued 1) (localBase 0 + 40) 8) 55 48 = 0xFF ∧
    [capHead base, sendFull base, base].all (fun s => canIssue (.capsend (rr 0 0 0x42 3 0)) (hdr 0) [0x42, vSpec 3, 3, 0xC0] s 2) = true ∧
    2 ≤ (coreOf (sendFull base) 0).sendBuf ∧ (coreOf (capHead base) 0).sendBuf < 2 ∧
    headForm { head := (splitBits 64 32 (2 ^ 56 + 2 ^ 27 + 2 ^ 17)).map (BitVec.ofNat 64), tile := [], part := 0 } = true ∧
    capVer { head := (splitBits 64 32 0).map (BitVec.ofNat 64), tile := [], part := 0 } = 0 ∧
    readCapTile (capHead base) x0 2 (readSeg base 2 0) 0 1 = .tile (List.replicate 16 0) ∧
    ((coreOf (capQueued 1) 0).capQ.filter fun y => y.1 == 0).map Prod.snd = [capsule] ∧
    tileReady (capQueued 1) 0 2 (.memory (localBase 0 + 0x2000)) 16 = true ∧
    (readBytes (modCore base 0 fun c => { c with capQ := [(0, capsule)] }) (localBase 0 + 40) 8).testBit 63 = false ∧
    canIssue (.caprecv capRecv) (hdr 0) [3, 6, 0xC0, 0xC0] (modCore (reg (service base 2) 3 0x2000) 0 fun c => { c with capQ := [(0, capsule)] }) 2 = true ∧
    canIssue (.caprecv capRecv) (hdr 0) [3, 6, 0xC0, 0xC0] (modCore (capQueued 0) 0 fun c => { c with capQ := [(1, capsule)] }) 2 = true ∧
    ((coreOf (modCore (capQueued 0) 0 fun c => { c with capQ := [(1, capsule)] }) 0).capQ.filter fun y => y.1 == 0) = [] := by
  decide +kernel

/-- A capsule service context with a current capsule. -/
def holding (n : Nat := 1) : State := ctx (service base 2) fun x => { x with cap := some (capsule n) }

theorem meets_CurrentCapsule :
    [service base 2, holding 1, holding 2, holding 16].all (fun s => capService s 2 && canIssue (.capins (rr 0 5 3 0 0 1)) (hdr 0) [3] s 2 && canIssue (.capins (rr 0 5 3 0 0 3)) (hdr 0) [3] s 2) = true ∧
    [service base 2, holding 1, holding 2].all (fun s => canIssue (.capskip (rr 0 5 0 0 0 1 0 1)) (hdr 0 1) [] s 2 && canIssue (.capskip (rr 0 5 0 0 0 2 0 1)) (hdr 0 1) [] s 2) = true ∧
    [service base 2, holding 1, holding 2].all (fun s => canIssue (.caprepl (rr 0 5 3 0 0 0 0 2)) (hdr 0 2) [3] s 2 && canIssue (.caprepl (rr 0 5 3 0 0 1 0 2)) (hdr 0 2) [3] s 2 && canIssue (.caprepl (rr 0 5 3 0 0 2 0 2)) (hdr 0 2) [3] s 2) = true ∧
    [service base 2, holding 1].all (fun s => canIssue (.capfail (rr 0 0 3 0)) (hdr 0) [3] s 2 && canIssue (.capdrop (rr 0 0 0 0 0 0 0 1)) (hdr 0 1) [] s 2) = true ∧
    (ctxOf (service base 2) 2).map Ctx.cap = some none ∧ trapsAtOnce (service base 2) 2 = true ∧
    (ctxOf (holding 2) 2).map Ctx.cap = some (some (capsule 2)) ∧
    [holding 1, holding 2].all (fun s => canIssue (.capnext (rr 0 5 3 0)) (hdr 0) [3, 0xC0] s 2) = true ∧
    (ctxOf (holding 1) 2).map (fun x => readCapTile (holding 1) x 2 (readSeg (holding 1) 2 0) 0 1) = some (.tile (List.replicate 16 0)) ∧
    capCursor (capsule 1) + 1 = capItlen (capsule 1) ∧ capCursor (capsule 2) + 1 ≠ capItlen (capsule 2) ∧
    (coreOf (holding 2) 0).sendBuf < 2 ∧ hopOk 0 = true ∧ hopKind 0 ≠ 2 ∧ capItlen (capsule 2) < 16 ∧
    16 ≤ capItlen (capsule 16) ∧ qRel (rr 0 0 3 0).qual = false ∧
    canIssue (.capnext (rr 0 5 3 0)) (hdr 0) [3, 0xC0] (service base 2) 2 = true := by
  decide +kernel

/-- Expert 3 in a state, with a number of pins. -/
def expert (s : State) (st : BitVec 2) (pins : BitVec 15 := 0) : State := modExpert (reg s 3 3) 3 fun e => { e with rep := { state := st, pins := pins } }
def exr (fn : BitVec 6) : RWord := rr 0 5 3 0 0 0 0 fn

theorem meets_ExpertInstructions :
    allPerformed base 0 2 = true ∧ (freeEntry base 2).isSome = true ∧ expertOf (expert base 2) x0 3 = some 3 ∧
    expertOf (reg base 3 16384) x0 16384 = none ∧
    (∀ p : Fin 6, canIssue (.exq (rr 0 5 3 0 0 (BitVec.ofNat 32 p))) (hdr 0) [3] (expert base 2) 2 = true) ∧
    canIssue (.exq (rr 0 5 3 0)) (hdr 0) [3] (reg base 3 16384) 2 = true ∧
    [reg base 3 16384, expert base 1, expert base 3 0x7FFF, expert base 2].all (fun s => canIssue (.expin (exr 1)) (hdr 0 1) [3, 0, 0] s 2) = true ∧
    stateOf (expertSt (expert base 1) 3) < 2 ∧ (expertSt (expert base 3 0x7FFF) 3).rep.pins = BitVec.allOnes 15 ∧
    stateOf (expertSt (expert base 2) 3) = 2 ∧ (expertSt (expert base 2) 3).rep.pins = 0 ∧
    [expert base 2, expert base 3 1].all (fun s => canIssue (.exunpin (exr 2)) (hdr 0 2) [3, 0, 0] s 2) = true ∧
    (expertSt (expert base 3 1) 3).rep.pins = 1 ∧ supervisor base 2 = false ∧ ctxKind base 2 ≠ 2 ∧ trapsAtOnce base 2 = true ∧
    [base, expert (sup base) 3, expert (service base 3) 0, expert (service base 3) 2].all (fun s => canIssue (.exload (rr 0 5 3 4 6)) (hdr 0) [3, 4, 6] s 2) = true ∧
    [base, expert (sup base) 3, expert (service base 3) 0, expert (service base 3) 2].all (fun s => canIssue (.exevict (exr 1)) (hdr 0 1) [3, 0, 0] s 2) = true ∧
    [base, expert (service base 3) 2].all (fun s => canIssue (.exrepl (rr 0 5 3 4 0)) (hdr 0) [3, 4, 0] s 2) = true ∧
    supervisor (expert (sup base) 3) 2 = true ∧
    (ctxKind (expert (service base 3) 2) 2, ctxClass (expert (service base 3) 2) 2) = (2, 3) ∧
    (expertSt (expert base 2) 3).parked = [] ∧ readReg base 2 6 < 2 ^ 32 ∧ readReg base 2 4 < 128 ∧
    homeBehind (expert base 2) 3 = false ∧
    homeBehind { expert base 2 with updates := [{ die := 0, expert := 3, rep := {} }] } 3 = true ∧
    [1, 2].all (fun n => canIssue (if n = 1 then .expin (exr 1) else .exunpin (exr 2)) (hdr 0 (BitVec.ofNat 6 n)) [3, 0, 0] { expert base 2 with updates := [{ die := 0, expert := 3, rep := {} }] } 2) = true ∧
    canIssue (.exload (rr 0 5 3 4 6)) (hdr 0) [3, 4, 6] { expert (sup base) 2 with updates := [{ die := 0, expert := 3, rep := {} }] } 2 = true ∧
    canIssue (.exevict (exr 1)) (hdr 0 1) [3, 0, 0] { expert (sup base) 2 with updates := [{ die := 0, expert := 3, rep := {} }] } 2 = true ∧
    canIssue (.exrepl (rr 0 5 3 4 0)) (hdr 0) [3, 4, 0] { expert (sup base) 2 with updates := [{ die := 0, expert := 3, rep := {} }] } 2 = true := by
  decide +kernel

/-- Die 0's firmware runs, and its base link is up. -/
def runs (s : State) : State := modLink (modDie s 0 fun d => { d with loaded := true }) 40 fun x => { x with up := true }
/-- A capsule in the fabric at die 0. -/
def flying (s : State) (c : Capsule) (d : Option CapDest := none) : State := { s with caps := [{ cap := c, die := 0, dest := d }] }
def boundCore (n : Nat) : State := modCore (modTask base 0 0 fun t => { t with svc := [(2, 2)] }) 0 fun c => { c with capQ := List.replicate n (0, capsule) }
def late5 : State := { base with time := 10 }

theorem meets_CapsuleAndExpertEvents :
    [{ capsule with head := [] }, capsule 0, capsule, capsule 1 5].all (fun c => !capDiv c && !capBnc c && capTurn (flying base c) 0 { cap := c, die := 0 }) = true ∧
    capVer { capsule with head := [] } ≠ 1 ∧ headForm (capsule 0) = false ∧ headForm capsule = true ∧
    capCursor capsule < capItlen capsule ∧ expired late5 (capsule 1 5) = true ∧ expired late5 capsule = false ∧
    hopKind (capPlace capsule) = 0 ∧ placeInside base capsule (capPlace capsule) = true ∧
    placeDie base 0 capsule (capPlace capsule) = 0 ∧ reachable base 0 0 = true ∧
    (∀ n : Fin 9, capBound (boundCore n) 0 = true ∧ capTurn (flying (boundCore n) capsule (some (.core 0))) 0 { cap := capsule, die := 0, dest := some (.core 0) } = true) ∧
    (coreOf (boundCore 7) 0).capQ.length < 8 ∧ 8 ≤ (coreOf (boundCore 8) 0).capQ.length ∧ (dieSt base 0).up = true ∧
    capBound base 0 = false ∧
    takeUpdate 0 3 [{ die := 1, expert := 3, rep := {}, fmt := 1 }, { die := 0, expert := 3, rep := { ver := 1 }, fmt := 1 }] = some ({ die := 0, expert := 3, rep := { ver := 1 }, fmt := 1 }, [{ die := 1, expert := 3, rep := {}, fmt := 1 }]) ∧
    (expertSt (modExpert base 3 fun e => { e with miss := true, rep := { state := 1 } }) 3).miss = true ∧
    targetCount { repl := 0x80 } = 2 ∧ targetCount {} = 1 ∧ (dieSt base 0).closed = false ∧ capBound (boundCore 7) 0 = true ∧
    classOwner (boundCore 7) 0 2 = some 0 ∧ updateReaches (runs base) { die := 0, expert := 3, rep := {} } = true ∧
    capWaits base 0 0 = false ∧ ({ cap := capsule, die := 0 } : CapFly).enter = false ∧ (dieSt (noDie base) 0).up = false ∧
    ({ cap := capsule, die := 0 } : CapFly).expert = none := by
  decide +kernel

/-- `base` after 3 ms. -/
def later : State := { base with time := 3000000 }
def swapping (loaded : List Nat) : State := modCore base 0 fun c => { c with swap := some { next := some 0, slots := [0], loaded := loaded } }
def spilling : State :=
  modSlot (ctx base fun x => { x with saving := true }) 0 0 fun sl => { sl with act := {}, shadow := sl.act }
def jobs (j : AccJob) (saved : Bool) : State := modTask (modCore base 0 fun c => { c with accJobs := [j] }) 0 0 fun t => { t with accSaved := saved }
/-- An accumulator save area at 0x10000, a page the cluster holds. -/
def saveArea : State :=
  modCluster (writeFrame base 2 wAccSave 0x10000) 0 fun c => { c with tlb := [tlbEntry 0 0x10000 0 0x1010D] }

theorem meets_SwitchingEvents :
    (coreOf later 0).cur = some 0 ∧ (coreOf later 0).swap = none ∧
    (coreOf later 0).sliceAt.toNat + (coreOf later 0).sliceUs * 1000 ≤ later.time.toNat ∧
    wantsPreempt (modDie (modBind base 0 0 fun b => { b with pre := true }) 0 fun d => { d with halted := true }) 0 = true ∧
    (coreOf (modDie (modBind base 0 0 fun b => { b with pre := true }) 0 fun d => { d with halted := true }) 0).cur = some 0 ∧
    graceEnded (modCore later 0 fun c => { c with preReq := true }) 0 = true ∧
    (coreOf (modCore later 0 fun c => { c with preReq := true }) 0).stopped = false ∧
    (coreOf (swapping []) 0).swap = some { next := some 0, slots := [0], loaded := [] } ∧
    (slotOf (swapping []) 0 0).shadow.frame = none ∧
    ((taskCtxs (swapping []) 0 0).find? fun p => p.2.slot == 0) = some (2, x0) ∧ mayLeave (swapping [0]) 0 = true ∧
    (coreOf (swapping [0]) 0).cur = some 0 ∧ taskSlots (swapping [0]) 0 0 = [0] ∧ (slotOf spilling 0 0).shadow.frame = some 2 ∧
    (ctxOf spilling 2).map Ctx.saving = some true ∧ (ctxOf spilling 2).map Ctx.live = some none ∧
    (coreOf spilling 0).swap = none ∧ (coreOf (jobs (.save 0) false) 0).accJobs = [.save 0] ∧
    (coreOf (jobs (.restore 0) false) 0).accJobs = [.restore 0] ∧ (taskOf (jobs (.restore 0) false) 0 0).accSaved = false ∧
    (taskOf (jobs (.restore 0) true) 0 0).accSaved = true ∧
    (ctxOf (ctx base fun x => { x with saving := true }) 2).map Ctx.saving = some true ∧
    (slotOf (ctx base fun x => { x with saving := true }) 0 0).shadow.frame ≠ some 2 ∧ (coreOf base 0).journal = [] ∧
    outstanding base 2 = [] ∧ (coreOf base 0).copyQ = [] ∧ (coreOf base 0).pfrs = [] ∧
    accTargets 0 0 (upFrom 0 256) base = none ∧ (accTargets 0 0 (upFrom 0 256) saveArea).isSome = true ∧
    (coreOf (modCore saveArea 0 fun c => { c with accJobs := [.save 0] }) 0).accJobs = [.save 0] ∧
    [(none, 0), (some 1, 0), (some 0, 8)].all (fun p => spillsHalf { dirty := 0x11 } p.1 p.2) = true ∧
    spillsHalf { dirty := 0x11 } (some 0) 0 = false := by
  decide +kernel

/-- A reply record of version `v` with an action, in partition 0's ring. -/
def replied (s : State) (v act : Nat) : State :=
  writeBytes (writeBytes (modPart (runs s) 0 fun p => { p with replyRing := 0x1000, replyTail := 0x800 }) 0x800 8 1) 0x1000 24
    (packBits 64 [(ctxidWord 1 0 0 0).toNat, v * 2 ^ 56 + act, 7])
def escalated : State := ctx base fun x => { x with park := some (.escalated (exactTrap base 0x0A 9 0)) }
/-- A launch record: one task on core 0 of cluster 0 of die 0. -/
def record (w0 place deadline : Nat) : Launch :=
  { token := 5, die := 0, part := 0, words := [BitVec.ofNat 64 w0, 0, 0, BitVec.ofNat 64 deadline, 0, 0, 0, 0, BitVec.ofNat 64 place, 0, 0, 0, 0, 0, 0, 0] }
def onCore0 : Nat := 2 ^ 12 + 2 ^ 16 + 2 ^ 48
def queuedAt (l : Launch) : State := modDie base 0 fun d => { d with devQ := [l] }
def ring (s : State) (q : Nat) : State := setQueue { s with stage := 6 } q { enabled := true }

theorem meets_SupervisorAndLaunchEvents :
    ([{ part := 0, ctxid := 1, pc := 2, code := 3, addr := 4 }].find? (mailRoom (runs base))).isSome = true ∧
    (partOf (replied base 0 0) 0).exists_ = true ∧
    (readWord (replied base 0 0) (partOf (replied base 0 0) 0).replyTail).toNat % 4096 = 1 ∧
    fld (readWord (replied base 0 0) 0x1008) 63 56 = 0 ∧ fld (readWord (replied base 1 0) 0x1008) 63 56 = 1 ∧
    replyTargets (replied base 1 0) 0 (readWord (replied base 1 0) 0x1000) = [] ∧
    (replyTargets (replied escalated 1 0) 0 (readWord (replied escalated 1 0) 0x1000)).map Prod.fst = [2] ∧
    (ctxOf escalated 2).map (fun x => (applyReply (replied escalated 1 0) 0 2 x 0 7).isSome) = some true ∧
    (exactTrap base 0x0A 9 0).async = false ∧
    ((dieSt (queuedAt waiting) 0).devQ.find? (fun l => !queueBefore (queuedAt waiting) l)) = some waiting ∧
    admissionCheck (queuedAt waiting) waiting = some 1 ∧
    ((dieSt (queuedAt (record (2 ^ 56 + 1) onCore0 0)) 0).devQ.find? (fun l => !queueBefore (queuedAt (record (2 ^ 56 + 1) onCore0 0)) l)).isSome = true ∧
    admissionCheck base (record (2 ^ 56 + 1) onCore0 0) = none ∧
    bitsOf (lWord (record (2 ^ 56 + 2 ^ 48) onCore0 0) 0) 55 48 ≠ 0 ∧ launchCount (record (2 ^ 56) onCore0 0) = 0 ∧
    (placement (lWord (record (2 ^ 56 + 2) onCore0 0) 8)).length < launchCount (record (2 ^ 56 + 2) onCore0 0) ∧
    (∀ k : Fin 5, lWord (record (2 ^ 56 + 2) onCore0 0) (10 + k) = 0) ∧
    { base with launches := [waiting] }.launches[0]? = some waiting ∧ waiting.step < 9 ∧
    { base with launches := [{ waiting with step := 9 }] }.launches[0]? = some { waiting with step := 9 } ∧
    launchDeadline (record (2 ^ 56 + 1) onCore0 5) = 5 ∧ launchDeadline (record (2 ^ 56 + 1) onCore0 5) < late5.time.toNat ∧
    lKdl (record (2 ^ 56 + 1) onCore0 5) = false ∧ base.stage < 6 ∧ (queueOf (ring base 0) 0).enabled = true ∧
    (queueOf (ring base 1) 1).enabled = true ∧ 6 ≤ (ring base 1).stage ∧ (partOf base 0).mailbox % 32 = 0 ∧
    firmwareRuns (queuedAt waiting) 0 = false ∧
    (liveLaunches (queuedAt (record (2 ^ 56 + 1) onCore0 5)))[0]? = some (record (2 ^ 56 + 1) onCore0 5) ∧
    (record (2 ^ 56 + 1) onCore0 5).missed = false ∧
    firmwareRuns (modDie (queuedAt waiting) 0 fun d => { d with loaded := true }) 0 = true ∧
    admissionCheck (modDie (queuedAt waiting) 0 fun d => { d with loaded := true }) waiting = some 1 ∧
    (queueOf (ring base 1) 1).part = 0 ∧ ringSize (queueOf (ring base 1) 1) = 16 ∧
    firmwareRuns base (dieOf (partOf base 0).supCore) = false ∧
    firmwareRuns (replied base 1 0) (dieOf (partOf (replied base 1 0) 0).supCore) = true ∧
    fld ((record (2 ^ 56 + 1) onCore0 5).words.getD 0 0) 63 56 = 1 ∧ fld (waiting.words.getD 0 0) 63 56 ≠ 1 ∧
    baseUp (ring base 1) (recordDie (ring base 1) 1 (queueOf (ring base 1) 1) 0) = false ∧
    baseUp (runs (ring base 1)) (recordDie (runs (ring base 1)) 1 (queueOf (ring base 1) 1) 0) = true ∧
    (queueOf (setQueue base 1 { enabled := true, tail := 1 }) 1).head ≠ (queueOf (setQueue base 1 { enabled := true, tail := 1 }) 1).tail := by
  decide +kernel

/-- The parked context. -/
def parked0 : Ctx := { x0 with park := some (.escalated (exactTrap base 0x0A 9 0)) }
/-- The machine once the reply has been read. -/
def hasRead (s : State) : State :=
  modPart (noteSlice (noteSlice s (dramTarget (partOf s 0).replyTail)) (dramTarget (partOf s 0).replyRing)) 0
    fun p => { p with replyHead := 1 }

theorem meets_a_reply_to_a_parked_context :
    replyTarget (hasRead (replied base 1 0)) 0 (readWord (replied base 1 0) 0x1000) = none ∧
    ∃ x, replyTarget (hasRead (replied escalated 1 0)) 0 (readWord (replied escalated 1 0) 0x1000) = some (2, x) ∧
      ctxOf (hasRead (replied escalated 1 0)) 2 = some x ∧ x.park = some (.escalated (exactTrap base 0x0A 9 0)) := by
  have a : replyTargets (hasRead (replied base 1 0)) 0 (readWord (replied base 1 0) 0x1000) = [] := by decide +kernel
  have b : replyTargets (hasRead (replied escalated 1 0)) 0 (readWord (replied escalated 1 0) 0x1000) =
      [(2, parked0)] := by
    decide +kernel
  exact ⟨by simp [replyTarget, a], parked0, by simp [replyTarget, b, Nat.mod_one], by decide +kernel, by decide +kernel⟩

/-- A management record of words, next in queue 0. -/
def managed (ws : List Nat) : State :=
  setQueue (writeBytes base hostBase 256 (packBits 64 ws)) 0 { enabled := true, tail := 1 }
def mrec (op part : Nat) (w6 w24 : Nat) : List Nat :=
  [2 ^ 56 + op * 2 ^ 48 + part * 2 ^ 40, 0, 0, 0, 0, 0, w6] ++ List.replicate 17 0 ++ [w24] ++ List.replicate 7 0
def mgmtOk (ws : List Nat) : Bool := nextRecord (managed ws) == some ws && bitsOf (recWord ws 0) 63 56 == 1
/-- The next repair request of partition 0; its table maps die 0's first 1 GiB where `leaf` is 1. -/
def repairs (ws : List Nat) (leaf : Nat := 0) : State :=
  let s := modPart base 0 fun p => { p with root := 0x40000, repairRing := 0x1000, repairTail := 0x800 }
  let s := writeBytes (writeBytes s 0x40000 16 (leaf * 0x80001)) 0x80000 16 (leaf * 0x101)
  writeBytes (writeBytes s 0x800 8 1) 0x1000 32 (packBits 64 ws)

/-- A machine with no partition, whose die 0 can bind a supervisor, and the next record of its management queue. -/
def bare (ws : List Nat) : State := { runs (managed ws) with parts := [] }
/-- The bytes that a partition record offers at most. -/
def whole : List Nat := mrec 1 1 0 (64 * 10 ^ 9)
/-- A die in a step of its warm reset, in a package where another core runs nothing. -/
def resetting (n : Nat) : State := { modDie { base with cores := [], ctxs := [] } 0 fun d => { d with resetStep := n, halted := true } with detours := [(1, 2)] }

theorem meets_ManagementEvents :
    [mrec 1 1 (2 ^ 32) 0, mrec 1 0 0 0, mrec 1 1 0 0, whole, mrec 2 1 0 0, mrec 2 1 (2 ^ 32) 0, mrec 2 0 0 0, mrec 3 1 0 0, mrec 3 0 0 0, mrec 3 0 (2 ^ 32) 0].all mgmtOk = true ∧
    recFields (mrec 1 1 (2 ^ 32) 0) = false ∧ recFields (mrec 1 0 0 0) = true ∧ recTaken base (mrec 1 0 0 0) = true ∧
    recTaken (managed (mrec 1 1 0 0)) (mrec 1 1 0 0) = false ∧ recFields whole = true ∧ nextRecord (bare whole) = some whole ∧
    recTaken (bare whole) whole = false ∧ freePlace base 0 (64 * 10 ^ 9 + 1) = none ∧
    (freePlace (bare whole) 0 (64 * 10 ^ 9)).isSome = true ∧ dieOf (recSupCore (bare whole) whole) = 0 ∧
    supervisorRoom (bare whole) whole = true ∧ supervisorRoom { managed whole with parts := [] } whole = false ∧
    recZeros (mrec 2 1 (2 ^ 32) 0) = false ∧ recZeros (mrec 2 0 0 0) = true ∧ (partOf base 1).exists_ = false ∧
    (partOf base 0).exists_ = true ∧ partGone (killPartition (managed (mrec 2 0 0 0)) 0) 0 = true ∧
    recTimes (mrec 3 0 0 0) = true ∧ recZeros (mrec 3 0 (2 ^ 32) 0) = false ∧
    recWord (mrec 3 0 0 0) 5 ≤ (partOf base 0).poolCap ∧ recWord ((mrec 3 0 0 0).set 5 (2 ^ 60)) 5 > (partOf base 0).poolCap ∧
    recTimes ((mrec 3 0 0 0).set 5 (2 ^ 60)) = true ∧ nextRecord (managed (List.replicate 32 0)) = some (List.replicate 32 0) ∧
    nextRepair (repairs [2 ^ 56 + 4, 0, 0, 0]) 0 = some [2 ^ 56 + 4, 0, 0, 0] ∧
    nextRepair (repairs [2 ^ 56 + 5, 0, 0, 0]) 0 = some [2 ^ 56 + 5, 0, 0, 0] ∧
    nextRepair (repairs [2 ^ 56 + 1, 0, 0, 0]) 0 = some [2 ^ 56 + 1, 0, 0, 0] ∧
    (upFrom 1 5).map (fun k => repairKind [2 ^ 56 + k]) = [1, 2, 3, 4, 5] ∧
    leavesFrom (repairs [2 ^ 56 + 1, 0, 0, 0] 1) (dramBase 0) 128 4 0x40000 3 0 ≠ [] ∧
    (pinSector (takeRepair (repairs [2 ^ 56 + 1, 0, 0, 0]) 0) (sectorTarget base 0 0 0 0)).1 = 0 ∧
    (unpinSector (pinSector base (sectorTarget base 0 0 0 0)).2 (sectorTarget base 0 0 0 0)).1 = 0 ∧
    (pinSector (pinSector base (sectorTarget base 0 0 0 0)).2 (sectorTarget base 0 0 0 0)).1 = 1 ∧
    (dieSt (takeRepair (repairs [2 ^ 56 + 1, 0, 0, 0]) 0) 0).repairs = [] ∧ (dieSt base 0).resetStep = 0 ∧
    holdsDie (takeRepair (repairs [2 ^ 56 + 4, 0, 0, 0]) 0) 0 0 = false ∧
    holdsDie (modPart base 0 fun p => { p with clusters := BitVec.allOnes 128 }) 0 0 = true ∧ (dieSt base 0).halted = false ∧
    (dieSt (resetting 1) 0).resetStep = 1 ∧ dieQuiet (resetting 1) 0 = true ∧ quiesced (resetting 2) 0 = true ∧
    dieLines (resetting 4) 0 = [] ∧ (dieSt (resetting 5) 0).resetStep = 5 ∧ imageOk {} = false ∧ storedImage base 1 = {} ∧
    crossing 0 ∉ base.detours ∧ drained base 1 2 = true ∧
    drained { base with net := [{ msg 4 with src := 512, dst := 1024 }] } 1 2 = false := by
  decide +kernel

theorem spill_is_small (d : Nat) : spillSlots d ≤ 2 ^ 20 := by unfold spillSlots; omega

theorem meets_a_partition_that_fits (s : State) : partBytes s 0 ≤ 64 * 10 ^ 9 ∧ 0 < partBytes s 0 := by
  have h := fun d => spill_is_small (s.pkg * 4 + d)
  have h0 := h 0; have h1 := h 1; have h2 := h 2; have h3 := h 3
  simp only [partBytes, poolAt, spillOff, poolFrame, upFrom, List.map, List.sum_cons, List.sum_nil, Nat.add_zero, Nat.add_assoc,
    Nat.reduceAdd] at h0 h1 h2 h3 ⊢
  omega

/-- A table of zeros maps nothing. -/
theorem zeros_map_nothing (s : State) (z : ∀ n a, 0x2000 ≤ a → readBytes s a n = 0) (lo : Nat) :
    leavesFrom s lo 128 4 0x40000 3 0 = [] := by
  rw [leavesFrom, List.flatMap_eq_nil_iff]
  intro k _
  simp [z 16 (0x40000 + 16 * k) (by omega), pteV, bitOf]

theorem zeros_above (s : State) (m : s.mem = [(0x800, 1), (0x1000, 1), (0x1007, 1)]) :
    ∀ n a, 0x2000 ≤ a → readBytes s a n = 0 := by
  intro n
  induction n with
  | zero => intro a _; rfl
  | succ n ih =>
    intro a h
    have r : readByte s a = 0 := by
      rw [readByte, m, SMap.get, if_neg (by omega), SMap.get, if_neg (by omega), SMap.get, if_neg (by omega)]; rfl
    rw [readBytes, r, ih (a + 1) (by omega)]; rfl

theorem meets_a_table_that_maps_nothing : leavesFrom (repairs [2 ^ 56 + 1, 0, 0, 0]) (dramBase 0) 128 4 0x40000 3 0 = [] :=
  zeros_map_nothing _ (zeros_above _ (by decide +kernel)) _

/-- An image of the right form whose signature verifies is loaded. -/
theorem meets_an_image_that_is_loaded (body sig ver : Nat) (v : Config.rsaVerify 1 ver (Config.sha256 body) sig = true)
    (r : Config.rollback ≤ ver) : imageOk { fmt := 1, ver := ver, body := body, hash := Config.sha256 body, sig := sig } = true := by
  simp [imageOk, v, r]

/-- Link 0 up, with two flits on it and one to replay. -/
def linked (v : Word := 0) (fails : Nat := 0) : State :=
  modLink base 0 fun x => { x with up := true, out := [1, 2], sent := 2, replay := [3], injector := v, fails := fails }
/-- The injector of link 0 armed for the first flit of lane 1, with an action. -/
def armed (act : Nat) : Link := linkSt (linked (BitVec.ofNat 64 (2 ^ 63 + act * 2 ^ 61 + 2 ^ 52 + 1))) 0
def counted (s : State) (n : Nat) : State := modSlice (modCore s 0 fun c => { c with corrected := BitVec.ofNat 64 n }) 0 fun x => { x with corrected := BitVec.ofNat 64 n }

theorem meets_LinkAndPowerEvents :
    (linkSt linked 0).up = true ∧ (linkSt linked 0).epoch = 0 ∧
    [0, 1, 2].all (fun k => injectorDue 0 (armed k) && injectAt 0 (armed k) == 1) = true ∧
    injectAt 0 (armed 0) + (armed 0).out.length = (armed 0).sent + 1 ∧ (armed 0).out[1]? = some 2 ∧
    (armed 0).injector.extractLsb' 61 2 = 0#2 ∧ (armed 1).injector.extractLsb' 61 2 = 1#2 ∧
    (armed 2).injector.extractLsb' 61 2 = 2#2 ∧ injectorDue 0 (linkSt linked 0) = false ∧ fld (armed 0).injector 31 0 ≠ 0 ∧
    9 ≤ (linkSt (linked 0 9) 0).fails ∧ (∀ d : Fin 4, 0 ∉ dieLinks d) ∧ (linkSt linked 0).nackSlack = 0 ∧
    0 < (linkSt (modLink linked 0 fun x => { x with nackSlack := 1, nackSeq := 5 }) 0).nackSlack ∧ base.stage < 5 ∧
    5 ≤ (ring base 1).stage ∧ (routeOf false 0 3).2 = some 1 ∧
    (dieSt (modDie base 1 fun d => { d with up := false }) 1).up = false ∧ (dieSt base 1).up = true ∧
    linkClosed base 1 = false ∧ linkClosed (modDie base 1 fun d => { d with resetStep := 2 }) 1 = true ∧
    (coreOf base 0).corrected.toNat / 4096 = ((coreOf base 0).corrected.toNat + 1) / 4096 ∧
    (coreOf (counted base 4095) 0).corrected.toNat / 4096 ≠ ((coreOf (counted base 4095) 0).corrected.toNat + 1) / 4096 ∧
    (sliceSt (counted base 4095) 0).corrected.toNat / 4096 ≠ ((sliceSt (counted base 4095) 0).corrected.toNat + 1) / 4096 ∧
    (sliceSt base 0).corrected.toNat / 4096 = ((sliceSt base 0).corrected.toNat + 1) / 4096 ∧
    2800 * ((3000 :: base.power).take 100).length < ((3000 :: base.power).take 100).sum ∧
    2800 * ((2800 :: base.power).take 100).length = ((2800 :: base.power).take 100).sum ∧ base.lowering = false ∧
    ((100 :: base.power).take 100).sum < 2700 * ((100 :: base.power).take 100).length ∧
    9 ≤ (linkSt (modLink linked 0 fun x => { x with nacks := 9 }) 0).nacks ∧ drained base 0 3 = true ∧
    drained { base with net := [{ msg 4 with src := 0, dst := 1536 }] } 0 3 = false ∧ (0, 3) ∉ base.detours ∧ base.behind = [] ∧
    (∀ q, q ∈ [((3 : Nat), ((2 : Nat), (0 : BitVec 32)))] → q.1 = 3 → q = (3, 2, 0)) ∧
    imageOk (storedImage (placeImages (coldState base) 0 [some {}, none, none, none, none]) 0) = false := by
  decide +kernel

/-- A flit of 224 bits with its CRC. -/
def rightFlit (b : BitVec 224) : BitVec 256 := b ++ Config.crc32 b
/-- The bits above the CRC of a flit of a type, with sequence number and payload 0. -/
def typed (t : Nat) : BitVec 224 := BitVec.ofNat 224 (t * 2 ^ 205)

theorem above_crc (b : BitVec 224) (i n : Nat) : (rightFlit b).extractLsb' (32 + i) n = b.extractLsb' i n := by
  apply BitVec.eq_of_getLsbD_eq
  intro j hj
  simp only [rightFlit, BitVec.getLsbD_extractLsb', BitVec.getLsbD_append]
  rw [if_neg (by omega), show 32 + i + j - 32 = i + j by omega]

theorem at_crc (b : BitVec 224) : (rightFlit b).extractLsb' 0 32 = Config.crc32 b := by
  apply BitVec.eq_of_getLsbD_eq
  intro j hj
  simp only [rightFlit, BitVec.getLsbD_extractLsb', BitVec.getLsbD_append, Nat.zero_add, hj, if_true, decide_true, Bool.true_and]

/-- A flit of each type whose CRC and sequence number are right. -/
theorem meets_flits_that_are_right (k : Fin 7) :
    (Config.crc32 ((rightFlit (typed k)).extractLsb' 32 224) == (rightFlit (typed k)).extractLsb' 0 32 &&
      (rightFlit (typed k)).extractLsb' 224 13 == 0 && (rightFlit (typed k)).extractLsb' 244 12 == (linkSt linked 0).rxSeq) = true ∧
    (rightFlit (typed k)).extractLsb' 237 4 = BitVec.ofNat 4 k ∧ (rightFlit (typed k)).extractLsb' 241 3 = 0 := by
  have h : (linkSt linked 0).rxSeq = 0 := by decide +kernel
  have a := above_crc (typed k) 0 224
  have w : (typed k).extractLsb' 0 224 = typed k := by simp
  rw [at_crc, a, above_crc (typed k) 192 13, above_crc (typed k) 212 12, above_crc (typed k) 205 4, above_crc (typed k) 209 3, h, w]
  clear a w; revert k; simp only [beq_self_eq_true, Bool.true_and]; decide +kernel

theorem meets_a_flit_that_is_wrong :
    (Config.crc32 ((BitVec.ofNat 256 (2 ^ 224)).extractLsb' 32 224) == (BitVec.ofNat 256 (2 ^ 224)).extractLsb' 0 32 &&
      (BitVec.ofNat 256 (2 ^ 224)).extractLsb' 224 13 == 0 && (BitVec.ofNat 256 (2 ^ 224)).extractLsb' 244 12 == (linkSt linked 0).rxSeq) =
      false := by
  have h : ((BitVec.ofNat 256 (2 ^ 224)).extractLsb' 224 13 == 0) = false := by decide
  rw [h]; simp

def switching (n : Nat) : State := modCluster base 0 fun c => { c with switching := List.replicate n { bank := 0, mode := 2 } }

theorem meets_FetchAndSliceEvents :
    (slotOf (modSlot base 0 0 fun x => { x with fetch := .again spot }) 0 0).fetch = .again spot ∧
    (slotOf (modSlot base 0 0 fun x => { x with fetch := .again spot }) 0 0).act.frame = some 2 ∧
    targetWaits base 0 0 spot = false ∧ targetReach base 0 spot = true ∧
    targetWaits (modDie base 1 fun d => { d with up := false }) 0 0 { spot with home := some 192 } = true ∧
    dropBusy base { ord := 0, frame := 2, scope := 2, core := 0, part := 0, mode := 0, lo := 0, len := 64 } = false ∧
    dropBusy { asking 0 with time := 0 } { ord := 0, frame := 2, scope := 2, core := 0, part := 0, mode := 1, lo := 0, len := 64 } = true ∧
    dropScope base { ord := 0, frame := 2, scope := 2, core := 0, part := 0, mode := 1, lo := 0, len := 64 } 0 = true ∧
    poisoned base 0x10000 64 = false ∧
    ((asking 6).reqs.find? fun r => r.core == 0 && r.slot == 0 && r.op == 6) = some { request 6 0x10000 with target := some spot } ∧
    (clusterSt (switching 1) 0).switching = [{ bank := 0, mode := 2 }] ∧
    (clusterSt (switching 2) 0).switching = [{ bank := 0, mode := 2 }, { bank := 0, mode := 2 }] ∧
    (coreOf (modCore base 0 fun c => { c with pfrs := [{ tag := some 1, arrival := none, lines := [spot], bind := 0, frame := 2 }] }) 0).pfrs[0]?.isSome = true ∧
    { base with flushes := [{ ord := 0, frame := 2, lines := [1, 2], inval := true }] }.flushes[0]?.isSome = true ∧
    { base with drops := [{ ord := 0, frame := 2, scope := 2, core := 0, part := 0, mode := 0, lo := 0, len := 64 }] }.drops[0]?.isSome = true ∧
    rowWrites (switching 1) 0 0 = false ∧ rowWrites (copies (switching 1) [inHand [.near (clusBase 0) 8 7]]) 0 0 = true ∧
    targetReach (asking 6) 0 spot = true := by
  decide +kernel

/-- The machine with a word where it issues next, and what the statement of a step asks of it. -/
def ready (w : BitVec 96) : State := State.reset.withFetchWord 96 w.toNat
def readyV (w : BitVec 96) : State := { advance (ready w) with sched := [] }
/-- The same with a pair of words in the line, ADD and VCMP. -/
def addWord : BitVec 96 := 0x01000400_05030400_00000000#96
def pairLine : BitVec 512 :=
  let l := BitVec.ofNat 512 (addWord.toNat + 0x8D000B04_82414200_00000000 * 2 ^ 96)
  let p := packBits 1 ((upFrom 0 15).map fun i => if parityOf 32 (fld l (32 * i + 31) (32 * i)) then 1 else 0)
  BitVec.ofNat 512 (l.toNat + (p + 2 ^ 23 + 31 * 2 ^ 27) * 2 ^ 480)
def readyPair : State := modCore (ready addWord) 0 fun c => { c with icache := SMap.insert c.icache 0x400 pairLine }
/-- A redundant pair of a started context in slots 1 and 9, the trailing copy's `g5` holding `v`. -/
def copiesOf (v : Word) : State :=
  let put (s : State) (f k : Nat) (x : Ctx) : State :=
    setCtx (occupy s 0 k (freshBank f (freshWords 0x20000 k 0 0 0 (ctxidWord 1 0 1 0) [7, 8, 9] ++ copiedSegs s 2) 0)) f (some x)
  let s := put (modTask roomy 0 0 fun t => { t with red := true }) 14 1 { x0 with slot := 1, twin := some 26 }
  { writeFrame1 (put s 26 9 { x0 with slot := 9, trail := true }) 26 5 v with
    iss := { core := 0, slot := 1, pc := 0x20000, next := 0x20001 } }
/-- The two copies of the pair come to the same outside their registers. -/
def agree (i : Instr) (s : State) : Bool :=
  match exec i s, exec i (asTrailing s 0 1) with
  | .next a, .next b => outside a 0 1 == outside b 0 1
  | _, _ => false

theorem meets_StepRunsDecodedInstruction :
    mayRun (ready addWord) = true ∧ (advance (ready addWord)).sched = [.core 0] ∧ preemptsParked (readyV addWord) 0 = false ∧
    (coreOf (readyV addWord) 0).due = none ∧ issueOrder (readyV addWord) 0 = [0] ∧
    (boundaryFault (readyV addWord) 0 2 x0).isNone = true ∧ slotCtx (readyV addWord) 0 0 = some (2, x0) ∧
    ctxPc (readyV addWord) 2 = 0x10000 ∧ pcWellFormed 0x10000 = true ∧
    lineAt (readyV addWord) 2 0x10000 = .ready codeLine (lineWith addWord 0) ∧ slotWord (lineWith addWord 0) 0 = addWord ∧
    preemptsEntry (readyV addWord) 0 2 x0 true addWord = false ∧ (slotOf (readyV addWord) 0 0).fetch = .idle ∧
    lineParity (lineWith addWord 0) = true ∧ lineForm (lineWith addWord 0) = true ∧ pairs (lineWith addWord 0) 0 = false ∧
    (decodeWord addWord).isSome = true ∧ lineAt (readyV 0) 2 0x10000 = .ready codeLine (lineWith 0 0) ∧ decodeWord 0 = none ∧
    pairs pairLine 0 = true ∧ lineParity pairLine = true ∧ lineForm pairLine = true ∧
    lineAt { advance readyPair with sched := [] } 2 0x10000 = .ready codeLine pairLine ∧
    (match exec (.add (rr 4 5 3 4)) base with | .next a => a.iss.res == .completed && (slotCtx a 0 0).isSome | _ => false) = true ∧
    mayRun { base with sched := [.event (.mailboxPost)] } = true ∧ base.sched = [] ∧ mayRun base = true ∧
    mayRun { base with powered := false } = false := by
  decide +kernel

theorem meets_StepRunsDecodedInstruction_copies :
    slotCtx base 0 0 = some (2, x0) ∧ x0.twin = none ∧ ((slotCtx (copiesOf 0) 0 1).bind fun p => p.2.twin).isSome = true := by
  decide +kernel

theorem meets_StepRunsDecodedInstruction_agree :
    agree (.add (rr 4 5 3 4)) (copiesOf 9) = true := by
  decide +kernel

theorem meets_StepRunsDecodedInstruction_stores :
    agree (.st (mm 4 5 0 8)) (copiesOf 0) = true := by
  decide +kernel

theorem meets_StepRunsDecodedInstruction_mismatch :
    agree (.st (mm 4 5 0 8)) (copiesOf 9) = false := by
  decide +kernel

theorem meets_StepRunsDecodedInstruction_outside :
    mayRun { base with sched := [.outside (.memoryError 0x10000)] } = true := by
  decide +kernel

theorem meets_EncodingsAndInvariants :
    WellFormed (.add (rr 4 5 3 4)) ∧ (encode (.add (rr 4 5 3 4))).isSome = true ∧ (decodeWord addWord).isSome = true ∧
    tidyMemory (ready addWord) = true ∧ wholeBanks (ready addWord) = true ∧
    (match step (ready addWord) with | .next _ => true | _ => false) = true := by
  decide +kernel

theorem meets_SliceAndSupervisorFormsComplete :
    freeEntry paged 2 = some 0 ∧ cwSeg (onS1 0) = 1 ∧
    [paged, reg paged 4 0].all (fun s => canIssue (.pfr (onS1 0)) (hdr 0) [3, 4, 0xC1] s 2 && canIssue (.rflush (onS1 0)) (hdr 0) [3, 4, 0xC1] s 2 && canIssue (.rinval (onS1 0)) (hdr 0) [3, 4, 0xC1] s 2) = true ∧
    canIssue (.pfrBar { onS1 0 0 6 with qual := 1 }) (hdr 0) [3, 4, 0xC1, 6] paged 2 = true ∧
    checkSeg paged x0 (readSeg paged 2 1) { need := needRd, size := 64, align := 1, kinds := [0] } (readReg paged 2 3 : Nat) = .ok 0x10000 ∧
    (coreOf paged 0).pfrs.length < 8 ∧ tagBusy paged 0 (fld (onS1 0).imm 31 26) = false ∧
    (ctxOf (waits paged 5) 2).map Ctx.wait = some (some (.request 5)) ∧ (waits paged 5).flushes = [] ∧
    canIssue (.rflush (onS1 0)) (hdr 0) [3, 4, 0xC1] (waits paged 5) 2 = true ∧ allPerformed paged 0 2 = true ∧
    checkSeg (sup paged) x0 (readSeg (sup paged) 2 1) { need := needRd + needWr, size := 128, align := 128, kinds := [0] } 0x10000 = .ok 0x10000 ∧
    supervisor (sup paged) 2 = true ∧ canIssue (.secpin (pinOp 0)) (hdr 0) [3, 0xC1] (sup paged) 2 = true ∧
    canIssue (.secpinUn (pinOp 1)) (hdr 0) [3, 0xC1] (sup paged) 2 = true ∧
    canIssue (.bmode (rr 0 5 3 0 0 2)) (hdr 0) [3] (reg base 3 1) 2 = true ∧ (clusterSt base 0).switching = [] ∧
    canIssue (.ctrrd (rr 0 5 3 0 0 0x100)) (hdr 0) [] base 2 = true ∧
    canIssue (.ctrrd (rr 0 5 3 0 0 14)) (hdr 0) [3] base 2 = true ∧ (partOf (replied escalated 1 0) 0).exists_ = true ∧
    (partOf (replied escalated 1 0) 0).replyHead % 4096 = 0 ∧
    (readWord (replied escalated 1 0) (partOf (replied escalated 1 0) 0).replyTail).toNat % 4096 = 1 ∧
    fld (readWord (replied escalated 1 0) 0x1008) 63 56 = 1 ∧ fld (readWord (replied escalated 1 0) 0x1008) 2 0 < 2 ∧
    (exactTrap base 0x0A 9 0).code ≠ 0x09 ∧ ringPlaces (replied escalated 1 0) 2 = [] ∧ (replied escalated 1 0).behind = [] ∧
    ([{ part := 0, ctxid := 1, pc := 2, code := 3, addr := 4 }].find? (mailRoom (runs base))).isSome = true ∧
    firmwareRuns (modDie (queuedAt (record (2 ^ 56 + 1) onCore0 0)) 0 fun d => { d with loaded := true }) 0 = true ∧
    ((dieSt (queuedAt (record (2 ^ 56 + 1) onCore0 0)) 0).devQ.find? (fun l => !queueBefore (queuedAt (record (2 ^ 56 + 1) onCore0 0)) l)).isSome = true ∧
    { base with launches := [waiting] }.launches[0]? = some waiting ∧ waiting.step < 9 ∧
    { base with launches := [{ waiting with step := 9 }] }.launches[0]? = some { waiting with step := 9 } ∧
    (liveLaunches { queuedAt (record (2 ^ 56 + 1) onCore0 5) with time := 10 })[0]? = some (record (2 ^ 56 + 1) onCore0 5) ∧
    launchDeadline (record (2 ^ 56 + 1) onCore0 5) = 5 ∧ (record (2 ^ 56 + 1) onCore0 5).missed = false ∧
    6 ≤ (ring base 1).stage ∧ (queueOf (ring base 0) 0).enabled = true ∧ (queueOf (ring base 1) 1).enabled = true ∧
    [whole, mrec 2 0 0 0, mrec 3 0 0 0].all mgmtOk = true ∧ recFields whole = true ∧ recTaken (bare whole) whole = false ∧
    freePlace (bare whole) 0 (64 * 10 ^ 9) ≠ none ∧ supervisorRoom (bare whole) whole = true ∧
    nextRecord (bare whole) = some whole ∧ (partOf base 0).exists_ = true ∧
    partGone (killPartition (managed (mrec 2 0 0 0)) 0) 0 = true ∧ recZeros (mrec 2 0 0 0) = true ∧
    recZeros (mrec 3 0 0 0) = true ∧
    firmwareRuns (replied escalated 1 0) (dieOf (partOf (replied escalated 1 0) 0).supCore) = true ∧
    fld ((record (2 ^ 56 + 1) onCore0 5).words.getD 0 0) 63 56 = 1 ∧ recTimes (mrec 3 0 0 0) = true ∧
    recWord (mrec 3 0 0 0) 5 ≤ (partOf base 0).poolCap := by
  decide +kernel

/-! Words built field by field from R55 and R60 to R67: every constructor of a word, its guard `(!p5)` and its switch mark. -/

def hd (fn : BitVec 6) (ty : BitVec 5) : Hdr := ⟨fn, true, 5, true, ty⟩

theorem decode_arithmetic :
    decodeWord 0x01036110_090A0B00_00000000#96 = some (.add ⟨hd 0 1, 0x10, 0x09, 0x0A, 0x0B, 0x00, 0x00000000⟩) ∧
    decodeWord 0x02036210_090A0B00_00000000#96 = some (.sub ⟨hd 0 2, 0x10, 0x09, 0x0A, 0x0B, 0x00, 0x00000000⟩) ∧
    decodeWord 0x03036310_090A0B00_00000000#96 = some (.mul ⟨hd 0 3, 0x10, 0x09, 0x0A, 0x0B, 0x00, 0x00000000⟩) ∧
    decodeWord 0x04036400_090A0B00_00000000#96 = some (.mulh ⟨hd 0 4, 0x00, 0x09, 0x0A, 0x0B, 0x00, 0x00000000⟩) ∧
    decodeWord 0x05036500_090A0B00_00000000#96 = some (.div ⟨hd 0 5, 0x00, 0x09, 0x0A, 0x0B, 0x00, 0x00000000⟩) ∧
    decodeWord 0x06036600_090A0B00_00000000#96 = some (.rem ⟨hd 0 6, 0x00, 0x09, 0x0A, 0x0B, 0x00, 0x00000000⟩) ∧
    decodeWord 0x07036700_090A0B00_00000000#96 = some (.min ⟨hd 0 7, 0x00, 0x09, 0x0A, 0x0B, 0x00, 0x00000000⟩) ∧
    decodeWord 0x08036800_090A0B00_00000000#96 = some (.max ⟨hd 0 8, 0x00, 0x09, 0x0A, 0x0B, 0x00, 0x00000000⟩) ∧
    decodeWord 0x09036807_090A0B00_89ABCDEF#96 = some (.lea ⟨hd 0 8, 0x07, 0x09, 0x0A, 0x0B, 0x00, 0x89ABCDEF⟩) := by
  decide +kernel

theorem decode_logic :
    decodeWord 0x0A036800_090AFF00_89ABCDEF#96 = some (.and ⟨hd 0 8, 0x00, 0x09, 0x0A, 0xFF, 0x00, 0x89ABCDEF⟩) ∧
    decodeWord 0x0B036800_090AFF00_89ABCDEF#96 = some (.or ⟨hd 0 8, 0x00, 0x09, 0x0A, 0xFF, 0x00, 0x89ABCDEF⟩) ∧
    decodeWord 0x0C036800_090AFF00_89ABCDEF#96 = some (.xor ⟨hd 0 8, 0x00, 0x09, 0x0A, 0xFF, 0x00, 0x89ABCDEF⟩) ∧
    decodeWord 0x0D036800_090AFF00_89ABCDEF#96 = some (.andn ⟨hd 0 8, 0x00, 0x09, 0x0A, 0xFF, 0x00, 0x89ABCDEF⟩) ∧
    decodeWord 0x0E036800_090AFF00_89ABCDEF#96 = some (.shl ⟨hd 0 8, 0x00, 0x09, 0x0A, 0xFF, 0x00, 0x89ABCDEF⟩) ∧
    decodeWord 0x0F036800_090AFF00_89ABCDEF#96 = some (.shr ⟨hd 0 8, 0x00, 0x09, 0x0A, 0xFF, 0x00, 0x89ABCDEF⟩) ∧
    decodeWord 0x10036800_090AFF00_89ABCDEF#96 = some (.sra ⟨hd 0 8, 0x00, 0x09, 0x0A, 0xFF, 0x00, 0x89ABCDEF⟩) ∧
    decodeWord 0x11036800_090AFF00_89ABCDEF#96 = some (.rot ⟨hd 0 8, 0x00, 0x09, 0x0A, 0xFF, 0x00, 0x89ABCDEF⟩) ∧
    decodeWord 0x12036400_090A0000_00001F20#96 = some (.bfx ⟨hd 0 4, 0x00, 0x09, 0x0A, 0x00, 0x00, 0x00001F20⟩) ∧
    decodeWord 0x13036800_090A0B00_00001F20#96 = some (.bfi ⟨hd 0 8, 0x00, 0x09, 0x0A, 0x0B, 0x00, 0x00001F20⟩) ∧
    decodeWord 0x14036500_090A0000_00000000#96 = some (.clz ⟨hd 0 5, 0x00, 0x09, 0x0A, 0x00, 0x00, 0x00000000⟩) ∧
    decodeWord 0x15036500_090A0000_00000000#96 = some (.ctz ⟨hd 0 5, 0x00, 0x09, 0x0A, 0x00, 0x00, 0x00000000⟩) ∧
    decodeWord 0x16036500_090A0000_00000000#96 = some (.popc ⟨hd 0 5, 0x00, 0x09, 0x0A, 0x00, 0x00, 0x00000000⟩) ∧
    decodeWord 0x17036500_090A0000_00000000#96 = some (.brev ⟨hd 0 5, 0x00, 0x09, 0x0A, 0x00, 0x00, 0x00000000⟩) := by
  decide +kernel

theorem decode_compare_and_move :
    decodeWord 0x18036305_820AFF00_89ABCDEF#96 = some (.cmp ⟨hd 0 3, 0x05, 0x82, 0x0A, 0xFF, 0x00, 0x89ABCDEF⟩) ∧
    decodeWord 0x19036000_090A0B83_00000000#96 = some (.sel ⟨hd 0 0, 0x00, 0x09, 0x0A, 0x0B, 0x83, 0x00000000⟩) ∧
    decodeWord 0x1A036000_09FF0000_89ABCDEF#96 = some (.mov ⟨hd 0 0, 0x00, 0x09, 0xFF, 0x00, 0x00, 0x89ABCDEF⟩) ∧
    decodeWord 0x1B036049_01234567_89ABCDEF#96 = some (.movi ⟨hd 0 0, 0x49, 0x0123456789ABCDEF⟩) ∧
    decodeWord 0x1C0F6000_81828300_00000000#96 = some (.plog ⟨hd 3 0, 0x00, 0x81, 0x82, 0x83, 0x00, 0x00000000⟩) := by
  decide +kernel

theorem decode_control :
    decodeWord 0x200B6000_00090000_FFFFFFEA#96 = some (.br ⟨hd 2 0, 0x00, 0x09, -3, 2⟩) ∧
    decodeWord 0x21036000_09000000_0000002C#96 = some (.call ⟨hd 0 0, 0x09, 0x00, 5, 4⟩) ∧
    decodeWord 0x22036000_00090000_00000000#96 = some (.ret ⟨hd 0 0, 0x00, 0x00, 0x09, 0x00, 0x00, 0x00000000⟩) ∧
    decodeWord 0x23036000_090A0000_00000000#96 = some (.jmp ⟨hd 0 0, 0x00, 0x09, 0x0A, 0x00, 0x00, 0x00000000⟩) ∧
    decodeWord 0x24036000_00000000_000000A5#96 = some (.trap ⟨hd 0 0, 0x00, 0x00, 0x00, 0x00, 0x00, 0x000000A5⟩) ∧
    decodeWord 0x25036000_00000000_00000000#96 = some (.tret ⟨hd 0 0, 0x00, 0x00, 0x00, 0x00, 0x00, 0x00000000⟩) ∧
    decodeWord 0x26036000_81090A0B_00000000#96 = some (.start ⟨hd 0 0, 0x00, 0x81, 0x09, 0x0A, 0x0B, 0x00000000⟩) ∧
    decodeWord 0x26076000_81090A0B_00000005#96 = some (.startSvc ⟨hd 1 0, 0x00, 0x81, 0x09, 0x0A, 0x0B, 0x00000005⟩) ∧
    decodeWord 0x27036000_00000000_00000000#96 = some (.exit ⟨hd 0 0, 0x00, 0x00, 0x00, 0x00, 0x00, 0x00000000⟩) ∧
    decodeWord 0x28036000_00000000_00000000#96 = some (.join ⟨hd 0 0, 0x00, 0x00, 0x00, 0x00, 0x00, 0x00000000⟩) ∧
    decodeWord 0x29036000_00820000_00000000#96 = some (.ppoint ⟨hd 0 0, 0x00, 0x00, 0x82, 0x00, 0x00, 0x00000000⟩) ∧
    decodeWord 0x2A036000_09C30A00_00000000#96 = some (.launch ⟨hd 0 0, 0x00, 0x09, 0xC3, 0x0A, 0x00, 0x00000000⟩) ∧
    decodeWord 0x2B036000_00000000_00000000#96 = some (.nop ⟨hd 0 0, 0x00, 0x00, 0x00, 0x00, 0x00, 0x00000000⟩) := by
  decide +kernel

theorem decode_memory :
    decodeWord 0x400361A8_090AB0FF_89ABCDEF#96 = some (.ld ⟨hd 0 1, 0xA8, 0x09, 0x0A, 5, 16, 0xFF, 0x89ABCDEF⟩) ∧
    decodeWord 0x410362B0_090AA30B_89ABCDEF#96 = some (.st ⟨hd 0 2, 0xB0, 0x09, 0x0A, 5, 3, 0x0B, 0x89ABCDEF⟩) ∧
    decodeWord 0x420363A9_090AB0FF_89ABCDEF#96 = some (.ldsync ⟨hd 0 3, 0xA9, 0x09, 0x0A, 5, 16, 0xFF, 0x89ABCDEF⟩) ∧
    decodeWord 0x430364B0_090AB0FF_89ABCDEF#96 = some (.stf ⟨hd 0 4, 0xB0, 0x09, 0x0A, 5, 16, 0xFF, 0x89ABCDEF⟩) ∧
    decodeWord 0x440368A8_090AB0FF_89ABCDEF#96 = some (.ldw ⟨hd 0 8, 0xA8, 0x09, 0x0A, 5, 16, 0xFF, 0x89ABCDEF⟩) ∧
    decodeWord 0x450368BF_490000FF_00000000#96 = some (.cst ⟨hd 0 8, 0xBF, 0x49, 0x00, 0, 0, 0xFF, 0x00000000⟩) ∧
    decodeWord 0x461B63B8_090AB0FF_89ABCDEF#96 = some (.atom ⟨hd 6 3, 0xB8, 0x09, 0x0A, 5, 16, 0xFF, 0x89ABCDEF⟩) ∧
    decodeWord 0x470367B8_090AB0FF_89ABCDEF#96 = some (.cas ⟨hd 0 7, 0xB8, 0x09, 0x0A, 5, 16, 0xFF, 0x89ABCDEF⟩) ∧
    decodeWord 0x4F036000_000AB0FF_89ABCDEF#96 = some (.pref ⟨hd 0 0, 0x00, 0x00, 0x0A, 5, 16, 0xFF, 0x89ABCDEF⟩) := by
  decide +kernel

theorem decode_system :
    decodeWord 0x480360A0_00000000_00000000#96 = some (.fence ⟨hd 0 0, 0xA0, 0x00, 0x00, 0x00, 0x00, 0x00000000⟩) ∧
    decodeWord 0x49036000_00000000_00000000#96 = some (.xfence ⟨hd 0 0, 0x00, 0x00, 0x00, 0x00, 0x00, 0x00000000⟩) ∧
    decodeWord 0x4A036000_09000000_00000021#96 = some (.rdsys ⟨hd 0 0, 0x00, 0x09, 0x00, 0x00, 0x00, 0x00000021⟩) ∧
    decodeWord 0x4B036000_000A0000_00000008#96 = some (.wrsys ⟨hd 0 0, 0x00, 0x00, 0x0A, 0x00, 0x00, 0x00000008⟩) ∧
    decodeWord 0x4B036000_000A0000_00000000#96 = some (.statusPmaskWrite ⟨hd 0 0, 0x00, 0x00, 0x0A, 0x00, 0x00, 0x00000000⟩) ∧
    decodeWord 0x4B036000_000A0000_00000002#96 = some (.engbindWrite ⟨hd 0 0, 0x00, 0x00, 0x0A, 0x00, 0x00, 0x00000002⟩) ∧
    decodeWord 0x4B036000_000A0000_00000010#96 = some (.lfsrWrite ⟨hd 0 0, 0x00, 0x00, 0x0A, 0x00, 0x00, 0x00000010⟩) ∧
    decodeWord 0x4B036000_000A0000_00000020#96 = some (.trctlWrite ⟨hd 0 0, 0x00, 0x00, 0x0A, 0x00, 0x00, 0x00000020⟩) ∧
    decodeWord 0x4C036000_09C70000_00000002#96 = some (.segget ⟨hd 0 0, 0x00, 0x09, 0xC7, 0x00, 0x00, 0x00000002⟩) ∧
    decodeWord 0x4D036000_C7090A0B_00000000#96 = some (.segset ⟨hd 0 0, 0x00, 0xC7, 0x09, 0x0A, 0x0B, 0x00000000⟩) ∧
    decodeWord 0x4E036000_090A0000_89ABCDEF#96 = some (.svc ⟨hd 0 0, 0x00, 0x09, 0x0A, 0x00, 0x00, 0x89ABCDEF⟩) ∧
    decodeWord 0x50036000_09000000_00000000#96 = some (.rdtime ⟨hd 0 0, 0x00, 0x09, 0x00, 0x00, 0x00, 0x00000000⟩) ∧
    decodeWord 0x5E0360C0_0009FF00_89ABCDEF#96 = some (.tlbinv ⟨hd 0 0, 0xC0, 0x00, 0x09, 0xFF, 0x00, 0x89ABCDEF⟩) ∧
    decodeWord 0x5F036000_090A0000_00000000#96 = some (.tlbq ⟨hd 0 0, 0x00, 0x09, 0x0A, 0x00, 0x00, 0x00000000⟩) := by
  decide +kernel

theorem decode_messages :
    decodeWord 0x60036090_8209440A_00000105#96 = some (.send ⟨hd 0 0, 0x90, 0x82, 0x09, 0x44, 0x0A, 0x00000105⟩) ∧
    decodeWord 0x61036088_09004400_00000005#96 = some (.recv ⟨hd 0 0, 0x88, 0x09, 0x00, 0x44, 0x00, 0x00000005⟩) ∧
    decodeWord 0x62036088_09004400_00000005#96 = some (.recvnb ⟨hd 0 0, 0x88, 0x09, 0x00, 0x44, 0x00, 0x00000005⟩) ∧
    decodeWord 0x63036090_82090A0B_0000BEEF#96 = some (.callat ⟨hd 0 0, 0x90, 0x82, 0x09, 0x0A, 0x0B, 0x0000BEEF⟩) ∧
    decodeWord 0x64036090_82090A0B_00000000#96 = some (.spawn ⟨hd 0 0, 0x90, 0x82, 0x09, 0x0A, 0x0B, 0x00000000⟩) ∧
    decodeWord 0x65036090_00FF0000_89ABCDEF#96 = some (.reply ⟨hd 0 0, 0x90, 0x00, 0xFF, 0x00, 0x00, 0x89ABCDEF⟩) ∧
    decodeWord 0x66036090_00000000_000000A5#96 = some (.arrive ⟨hd 0 0, 0x90, 0x00, 0x00, 0x00, 0x00, 0x000000A5⟩) ∧
    decodeWord 0x67036088_09000000_000000A5#96 = some (.bwait ⟨hd 0 0, 0x88, 0x09, 0x00, 0x00, 0x00, 0x000000A5⟩) ∧
    decodeWord 0x68036098_09000000_000000A5#96 = some (.bsync ⟨hd 0 0, 0x98, 0x09, 0x00, 0x00, 0x00, 0x000000A5⟩) ∧
    decodeWord 0x69036000_00094400_000000A6#96 = some (.bmask ⟨hd 0 0, 0x00, 0x00, 0x09, 0x44, 0x00, 0x000000A6⟩) ∧
    decodeWord 0x6A036001_09FF0000_89ABCDEF#96 = some (.twaitany ⟨hd 0 0, 0x01, 0x09, 0xFF, 0x00, 0x00, 0x89ABCDEF⟩) ∧
    decodeWord 0x6B036001_09FF0000_89ABCDEF#96 = some (.twaitall ⟨hd 0 0, 0x01, 0x09, 0xFF, 0x00, 0x00, 0x89ABCDEF⟩) ∧
    decodeWord 0x6C036001_09FF0000_89ABCDEF#96 = some (.tfind ⟨hd 0 0, 0x01, 0x09, 0xFF, 0x00, 0x00, 0x89ABCDEF⟩) ∧
    decodeWord 0x6D0360C0_00000000_00000000#96 = some (.sfence ⟨hd 0 0, 0xC0, 0x00, 0x00, 0x00, 0x00, 0x00000000⟩) ∧
    decodeWord 0x6E036290_8209440A_00000000#96 = some (.mcst ⟨hd 0 2, 0x90, 0x82, 0x09, 0x44, 0x0A, 0x00000000⟩) ∧
    decodeWord 0x6F036001_09FF0000_89ABCDEF#96 = some (.jrd ⟨hd 0 0, 0x01, 0x09, 0xFF, 0x00, 0x00, 0x89ABCDEF⟩) ∧
    decodeWord 0x70036000_09000000_0000000A#96 = some (.mquery ⟨hd 0 0, 0x00, 0x09, 0x00, 0x00, 0x00, 0x0000000A⟩) := by
  decide +kernel

theorem decode_vector_arithmetic :
    decodeWord 0x80036978_4142FF00_89ABCDEF#96 = some (.vadd ⟨hd 0 9, 0x78, 0x41, 0x42, 0xFF, 0x00, 0x89ABCDEF⟩) ∧
    decodeWord 0x81036F78_4142FF00_89ABCDEF#96 = some (.vsub ⟨hd 0 15, 0x78, 0x41, 0x42, 0xFF, 0x00, 0x89ABCDEF⟩) ∧
    decodeWord 0x82036310_4142FF00_89ABCDEF#96 = some (.vmul ⟨hd 0 3, 0x10, 0x41, 0x42, 0xFF, 0x00, 0x89ABCDEF⟩) ∧
    decodeWord 0x83036A78_41420943_00000000#96 = some (.vfma ⟨hd 0 10, 0x78, 0x41, 0x42, 0x09, 0x43, 0x00000000⟩) ∧
    decodeWord 0x84036B78_41424300_00000000#96 = some (.vdiv ⟨hd 0 11, 0x78, 0x41, 0x42, 0x43, 0x00, 0x00000000⟩) ∧
    decodeWord 0x85036978_41420000_00000000#96 = some (.vsqrt ⟨hd 0 9, 0x78, 0x41, 0x42, 0x00, 0x00, 0x00000000⟩) ∧
    decodeWord 0x86036A18_41420000_00000000#96 = some (.vrcp ⟨hd 0 10, 0x18, 0x41, 0x42, 0x00, 0x00, 0x00000000⟩) ∧
    decodeWord 0x87036A18_41420000_00000000#96 = some (.vrsq ⟨hd 0 10, 0x18, 0x41, 0x42, 0x00, 0x00, 0x00000000⟩) ∧
    decodeWord 0x88036A18_41420000_00000000#96 = some (.vexp2 ⟨hd 0 10, 0x18, 0x41, 0x42, 0x00, 0x00, 0x00000000⟩) ∧
    decodeWord 0x89036A18_41420000_00000000#96 = some (.vlog2 ⟨hd 0 10, 0x18, 0x41, 0x42, 0x00, 0x00, 0x00000000⟩) ∧
    decodeWord 0x8A036B08_41424300_00000000#96 = some (.vmin ⟨hd 0 11, 0x08, 0x41, 0x42, 0x43, 0x00, 0x00000000⟩) ∧
    decodeWord 0x8B036B08_41424300_00000000#96 = some (.vmax ⟨hd 0 11, 0x08, 0x41, 0x42, 0x43, 0x00, 0x00000000⟩) ∧
    decodeWord 0x8C036111_41420000_00000000#96 = some (.vabs ⟨hd 0 1, 0x11, 0x41, 0x42, 0x00, 0x00, 0x00000000⟩) ∧
    decodeWord 0x8D03690D_82420900_00000000#96 = some (.vcmp ⟨hd 0 9, 0x0D, 0x82, 0x42, 0x09, 0x00, 0x00000000⟩) ∧
    decodeWord 0x8E037100_41424383_00000000#96 = some (.vsel ⟨hd 0 17, 0x00, 0x41, 0x42, 0x43, 0x83, 0x00000000⟩) ∧
    decodeWord 0x8F036198_41420000_0000030B#96 = some (.vcvt ⟨hd 0 1, 0x98, 0x41, 0x42, 0x00, 0x00, 0x0000030B⟩) ∧
    decodeWord 0x90036E80_41420900_00000101#96 = some (.vqf4 ⟨hd 0 14, 0x80, 0x41, 0x42, 0x09, 0x00, 0x00000101⟩) ∧
    decodeWord 0x910F6D00_41424300_00000000#96 = some (.vbit ⟨hd 3 13, 0x00, 0x41, 0x42, 0x43, 0x00, 0x00000000⟩) ∧
    decodeWord 0x920B6800_41420900_00000000#96 = some (.vsh ⟨hd 2 8, 0x00, 0x41, 0x42, 0x09, 0x00, 0x00000000⟩) := by
  decide +kernel

theorem decode_vector_lanes :
    decodeWord 0x93037188_410AB0FF_89ABCDEF#96 = some (.vld ⟨hd 0 17, 0x88, 0x41, 0x0A, 5, 16, 0xFF, 0x89ABCDEF⟩) ∧
    decodeWord 0x94036D90_410AA30B_89ABCDEF#96 = some (.vst ⟨hd 0 13, 0x90, 0x41, 0x0A, 5, 3, 0x0B, 0x89ABCDEF⟩) ∧
    decodeWord 0x95036B8F_410AB0FF_89ABCDEF#96 = some (.vgath ⟨hd 0 11, 0x8F, 0x41, 0x0A, 5, 16, 0xFF, 0x89ABCDEF⟩) ∧
    decodeWord 0x96036397_410AB0FF_89ABCDEF#96 = some (.vscat ⟨hd 0 3, 0x97, 0x41, 0x0A, 5, 16, 0xFF, 0x89ABCDEF⟩) ∧
    decodeWord 0x97036800_41FF0000_89ABCDEF#96 = some (.vbcast ⟨hd 0 8, 0x00, 0x41, 0xFF, 0x00, 0x00, 0x89ABCDEF⟩) ∧
    decodeWord 0x98036900_41424300_00000000#96 = some (.vperm ⟨hd 0 9, 0x00, 0x41, 0x42, 0x43, 0x00, 0x00000000⟩) ∧
    decodeWord 0x99036900_41420000_00003F02#96 = some (.vshuf ⟨hd 0 9, 0x00, 0x41, 0x42, 0x00, 0x00, 0x00003F02⟩) ∧
    decodeWord 0x9A0B6968_09420000_00000000#96 = some (.vred ⟨hd 2 9, 0x68, 0x09, 0x42, 0x00, 0x00, 0x00000000⟩) ∧
    decodeWord 0x9B076968_41420000_00000000#96 = some (.vscan ⟨hd 1 9, 0x68, 0x41, 0x42, 0x00, 0x00, 0x00000000⟩) ∧
    decodeWord 0x9C036901_41420000_00000040#96 = some (.vtopk ⟨hd 0 9, 0x01, 0x41, 0x42, 0x00, 0x00, 0x00000040⟩) ∧
    decodeWord 0x9D036901_09420000_00000000#96 = some (.vargmax ⟨hd 0 9, 0x01, 0x09, 0x42, 0x00, 0x00, 0x00000000⟩) ∧
    decodeWord 0x9E036D10_41424344_00000000#96 = some (.vdot ⟨hd 0 13, 0x10, 0x41, 0x42, 0x43, 0x44, 0x00000000⟩) ∧
    decodeWord 0x9F036500_41090000_0000007F#96 = some (.vmovxIns ⟨hd 0 5, 0x00, 0x41, 0x09, 0x00, 0x00, 0x0000007F⟩) ∧
    decodeWord 0x9F076500_09410000_0000007F#96 = some (.vmovxExt ⟨hd 1 5, 0x00, 0x09, 0x41, 0x00, 0x00, 0x0000007F⟩) := by
  decide +kernel

theorem decode_matrix_and_walk :
    decodeWord 0xC0036000_00000000_000000A5#96 = some (.mzero ⟨hd 0 0, 0x00, 0x00, 0x00, 0x00, 0x00, 0x000000A5⟩) ∧
    decodeWord 0xC1036C01_090A0000_0400FFFF#96 = some (.mma ⟨hd 0 12, 0x01, 0x09, 0x0A, 0x00, 0x00, 0x0400FFFF⟩) ∧
    decodeWord 0xC2036F01_090A0000_0000FFFF#96 = some (.mcma ⟨hd 0 15, 0x01, 0x09, 0x0A, 0x00, 0x00, 0x0000FFFF⟩) ∧
    decodeWord 0xC3036B01_090A0000_00000077#96 = some (.mlda ⟨hd 0 11, 0x01, 0x09, 0x0A, 0x00, 0x00, 0x00000077⟩) ∧
    decodeWord 0xC4036301_090A0000_00000077#96 = some (.msta ⟨hd 0 3, 0x01, 0x09, 0x0A, 0x00, 0x00, 0x00000077⟩) ∧
    decodeWord 0xC5036E01_090A0B0C_080003FF#96 = some (.marm ⟨hd 0 14, 0x01, 0x09, 0x0A, 0x0B, 0x0C, 0x080003FF⟩) ∧
    decodeWord 0xC6036E01_090A0B0C_01C13FFF#96 = some (.mgang ⟨hd 0 14, 0x01, 0x09, 0x0A, 0x0B, 0x0C, 0x01C13FFF⟩) ∧
    decodeWord 0xC7036301_090A0B00_01FF03F0#96 = some (.mring ⟨hd 0 3, 0x01, 0x09, 0x0A, 0x0B, 0x00, 0x01FF03F0⟩) ∧
    decodeWord 0xC8036000_00000000_00000004#96 = some (.mswz ⟨hd 0 0, 0x00, 0x00, 0x00, 0x00, 0x00, 0x00000004⟩) ∧
    decodeWord 0xD0036D01_090A0B0C_07FFEFFF#96 = some (.walk ⟨hd 0 13, 0x01, 0x09, 0x0A, 0x0B, 0x0C, 0x07FFEFFF⟩) ∧
    decodeWord 0xD1036D01_090A000C_0FFFEFFF#96 = some (.walkResume ⟨hd 0 13, 0x01, 0x09, 0x0A, 0x00, 0x0C, 0x0FFFEFFF⟩) ∧
    decodeWord 0xD2036000_090A0000_001FE005#96 = some (.wstat ⟨hd 0 0, 0x00, 0x09, 0x0A, 0x00, 0x00, 0x001FE005⟩) ∧
    decodeWord 0xD3036900_09000B00_07000FFF#96 = some (.wchk ⟨hd 0 9, 0x00, 0x09, 0x00, 0x0B, 0x00, 0x07000FFF⟩) := by
  decide +kernel

theorem decode_copy :
    decodeWord 0xD8036901_00090A0B_FFF11000#96 = some (.cpy ⟨hd 0 9, 0x01, 0x00, 0x09, 0x0A, 0x0B, 0xFFF11000⟩) ∧
    decodeWord 0xD9036E00_00090A0B_FFF1203F#96 = some (.cpy2d ⟨hd 0 14, 0x00, 0x00, 0x09, 0x0A, 0x0B, 0xFFF1203F⟩) ∧
    decodeWord 0xDA036000_00090A0B_FFFF0000#96 = some (.cgath ⟨hd 0 0, 0x00, 0x00, 0x09, 0x0A, 0x0B, 0xFFFF0000⟩) ∧
    decodeWord 0xDB036000_00090A0B_FFFE0000#96 = some (.cscat ⟨hd 0 0, 0x00, 0x00, 0x09, 0x0A, 0x0B, 0xFFFE0000⟩) ∧
    decodeWord 0xDC036000_00090A0B_FF810000#96 = some (.cfill ⟨hd 0 0, 0x00, 0x00, 0x09, 0x0A, 0x0B, 0xFF810000⟩) ∧
    decodeWord 0xDD036000_00090000_FC000003#96 = some (.cswz ⟨hd 0 0, 0x00, 0x00, 0x09, 0x00, 0x00, 0xFC000003⟩) ∧
    decodeWord 0xDE036000_00000A0B_FF810000#96 = some (.femark ⟨hd 0 0, 0x00, 0x00, 0x00, 0x0A, 0x0B, 0xFF810000⟩) ∧
    decodeWord 0xDF036001_09FF0000_89ABCDEF#96 = some (.cstat ⟨hd 0 0, 0x01, 0x09, 0xFF, 0x00, 0x00, 0x89ABCDEF⟩) ∧
    decodeWord 0xDF076000_09FF0000_89ABCDEF#96 = some (.ccancel ⟨hd 1 0, 0x00, 0x09, 0xFF, 0x00, 0x00, 0x89ABCDEF⟩) := by
  decide +kernel

theorem decode_slices :
    decodeWord 0xE0036000_00090A00_FDC00000#96 = some (.pfr ⟨hd 0 0, 0x00, 0x00, 0x09, 0x0A, 0x00, 0xFDC00000⟩) ∧
    decodeWord 0xE0036001_00090A0B_01C00000#96 = some (.pfrBar ⟨hd 0 0, 0x01, 0x00, 0x09, 0x0A, 0x0B, 0x01C00000⟩) ∧
    decodeWord 0xE1036000_00090A00_01C00000#96 = some (.rflush ⟨hd 0 0, 0x00, 0x00, 0x09, 0x0A, 0x00, 0x01C00000⟩) ∧
    decodeWord 0xE2036000_00090A00_01C00000#96 = some (.rinval ⟨hd 0 0, 0x00, 0x00, 0x09, 0x0A, 0x00, 0x01C00000⟩) ∧
    decodeWord 0xE3036000_090A0000_01C00000#96 = some (.secpin ⟨hd 0 0, 0x00, 0x09, 0x0A, 0x00, 0x00, 0x01C00000⟩) ∧
    decodeWord 0xE3036001_090A0000_01C00000#96 = some (.secpinUn ⟨hd 0 0, 0x01, 0x09, 0x0A, 0x00, 0x00, 0x01C00000⟩) ∧
    decodeWord 0xE4036000_090A0000_00000003#96 = some (.bmode ⟨hd 0 0, 0x00, 0x09, 0x0A, 0x00, 0x00, 0x00000003⟩) ∧
    decodeWord 0xE5036000_090A0000_00000105#96 = some (.ctrrd ⟨hd 0 0, 0x00, 0x09, 0x0A, 0x00, 0x00, 0x00000105⟩) := by
  decide +kernel

theorem decode_capsules_and_experts :
    decodeWord 0xE80360A8_090A410B_0000003F#96 = some (.caprecv ⟨hd 0 0, 0xA8, 0x09, 0x0A, 0x41, 0x0B, 0x0000003F⟩) ∧
    decodeWord 0xE90360B0_00410900_00000007#96 = some (.capsend ⟨hd 0 0, 0xB0, 0x00, 0x41, 0x09, 0x00, 0x00000007⟩) ∧
    decodeWord 0xEA0360B0_090A0000_00001E07#96 = some (.capnext ⟨hd 0 0, 0xB0, 0x09, 0x0A, 0x00, 0x00, 0x00001E07⟩) ∧
    decodeWord 0xEB036000_090A0000_0000000F#96 = some (.capins ⟨hd 0 0, 0x00, 0x09, 0x0A, 0x00, 0x00, 0x0000000F⟩) ∧
    decodeWord 0xEB076000_09000000_0000000F#96 = some (.capskip ⟨hd 1 0, 0x00, 0x09, 0x00, 0x00, 0x00, 0x0000000F⟩) ∧
    decodeWord 0xEB0B6000_090A0000_0000000F#96 = some (.caprepl ⟨hd 2 0, 0x00, 0x09, 0x0A, 0x00, 0x00, 0x0000000F⟩) ∧
    decodeWord 0xEC0360B0_00090000_000000A5#96 = some (.capfail ⟨hd 0 0, 0xB0, 0x00, 0x09, 0x00, 0x00, 0x000000A5⟩) ∧
    decodeWord 0xEC076000_00000000_00000000#96 = some (.capdrop ⟨hd 1 0, 0x00, 0x00, 0x00, 0x00, 0x00, 0x00000000⟩) ∧
    decodeWord 0xED036000_090A0000_00000006#96 = some (.exq ⟨hd 0 0, 0x00, 0x09, 0x0A, 0x00, 0x00, 0x00000006⟩) ∧
    decodeWord 0xED076000_090A0000_00000000#96 = some (.expin ⟨hd 1 0, 0x00, 0x09, 0x0A, 0x00, 0x00, 0x00000000⟩) ∧
    decodeWord 0xED0B6000_090A0000_00000000#96 = some (.exunpin ⟨hd 2 0, 0x00, 0x09, 0x0A, 0x00, 0x00, 0x00000000⟩) ∧
    decodeWord 0xEE036000_090A0B0C_0000007F#96 = some (.exload ⟨hd 0 0, 0x00, 0x09, 0x0A, 0x0B, 0x0C, 0x0000007F⟩) ∧
    decodeWord 0xEE076000_090A0000_00000000#96 = some (.exevict ⟨hd 1 0, 0x00, 0x09, 0x0A, 0x00, 0x00, 0x00000000⟩) ∧
    decodeWord 0xEF036000_090A0B00_00000003#96 = some (.exrepl ⟨hd 0 0, 0x00, 0x09, 0x0A, 0x0B, 0x00, 0x00000003⟩) := by
  decide +kernel

/-! Words that the spec writes out in its examples. -/

theorem decode_words_of_the_examples :
    decodeWord 0x01000400_05030400_00000000#96 = some (.add ⟨⟨0, false, 0, false, 4⟩, 0, 0x05, 0x03, 0x04, 0, 0⟩) ∧
    decodeWord 0x40000368_05062207_00000010#96 = some (.ld ⟨⟨0, false, 0, false, 3⟩, 0x68, 0x05, 0x06, 1, 2, 0x07, 16⟩) ∧
    decodeWord 0x20080000_00090000_FFFFFFF1#96 = some (.br ⟨⟨2, false, 0, false, 0⟩, 0, 0x09, -2, 1⟩) ∧
    decodeWord 0x66000070_00000000_00000033#96 = some (.arrive ⟨⟨0, false, 0, false, 0⟩, 0x70, 0, 0, 0, 0, 0x33⟩) ∧
    decodeWord 0x80000B00_41424300_00000000#96 = some (.vadd ⟨⟨0, false, 0, false, 11⟩, 0, 0x41, 0x42, 0x43, 0, 0⟩) ∧
    decodeWord 0xC6028A00_06050700_01C00848#96 = some (.mgang ⟨⟨0, true, 2, false, 10⟩, 0, 6, 5, 7, 0, 0x01C00848⟩) ∧
    decodeWord 0xC502AA00_06050700_00000040#96 = some (.marm ⟨⟨0, true, 2, true, 10⟩, 0, 6, 5, 7, 0, 0x40⟩) ∧
    decodeWord 0xD0020900_08050607_05004003#96 = some (.walk ⟨⟨0, true, 0, false, 9⟩, 0, 8, 5, 6, 7, 0x05004003⟩) ∧
    decodeWord 0x4E000000_0F0C0000_00000001#96 = some (.svc ⟨⟨0, false, 0, false, 0⟩, 0, 0x0F, 0x0C, 0, 0, 1⟩) ∧
    decodeWord 0xDC000000_00121311_04800000#96 = some (.cfill ⟨⟨0, false, 0, false, 0⟩, 0, 0, 0x12, 0x13, 0x11, 0x04800000⟩) ∧
    decodeWord 0x42020800_0D0000FF_00000058#96 = some (.ldsync ⟨⟨0, true, 0, false, 8⟩, 0, 0x0D, 0, 0, 0, 0xFF, 0x58⟩) ∧
    decodeWord 0xE4020000_06050000_00000003#96 = some (.bmode ⟨⟨0, true, 0, false, 0⟩, 0, 6, 5, 0, 0, 3⟩) ∧
    decodeWord 0x5F000000_07050000_00000000#96 = some (.tlbq ⟨⟨0, false, 0, false, 0⟩, 0, 7, 5, 0, 0, 0⟩) ∧
    decodeWord 0xE90080B0_00400600_00000000#96 = some (.capsend ⟨⟨0, false, 2, false, 0⟩, 0xB0, 0, 0x40, 6, 0, 0⟩) ∧
    decodeWord 0xEB000000_100F0000_00000001#96 = some (.capins ⟨⟨0, false, 0, false, 0⟩, 0, 0x10, 0x0F, 0, 0, 1⟩) := by
  decide +kernel

/-- The dashes of R65. -/
def reservedOps : List Nat :=
  [0, 0x1D, 0x1E, 0x1F, 0xE6, 0xE7] ++ upFrom 0x2C 20 ++ upFrom 0x51 13 ++ upFrom 0x71 15 ++ upFrom 0xA0 32 ++ upFrom 0xC9 7 ++
    upFrom 0xD4 4 ++ upFrom 0xF0 16

/-- The function codes of R66. -/
def functions (op : Nat) : Nat :=
  match op with
  | 0x1C => 4 | 0x20 => 3 | 0x26 => 2 | 0x46 => 7 | 0x5E => 3 | 0x91 => 5 | 0x92 => 3 | 0x9A => 3 | 0x9B => 2 | 0x9F => 2
  | 0xDF => 2 | 0xEB => 3 | 0xEC => 2 | 0xED => 3 | 0xEE => 2 | _ => 1

theorem decode_refuses_reserved_opcodes :
    (∀ k : Fin 113, decode (BitVec.ofNat 96 (reservedOps.getD k 0 * 2 ^ 88)) = .error .reservedOp) ∧ reservedOps.length = 113 ∧
    (∀ o : Fin 256, o.val ∈ reservedOps ∨ decode (BitVec.ofNat 96 (o * 2 ^ 88 + 30 * 2 ^ 72)) = .error .reservedField ∨ o.val ∈ [0x1B]) := by
  decide +kernel

theorem decode_refuses_reserved_functions :
    (∀ o : Fin 256, o.val ∈ reservedOps ∨ decode (BitVec.ofNat 96 (o * 2 ^ 88 + functions o * 2 ^ 82)) = .error .reservedFunction) := by
  decide +kernel

/-! One ill-formed term for each check. -/

theorem refuses_a_reserved_type :
    ¬ WellFormed (.add (rr 18 5 3 4)) ∧ ¬ WellFormed (.add (rr 31 5 3 4)) ∧ ¬ WellFormed (.add (rr 9 5 3 4)) ∧
    ¬ WellFormed (.ld (mm 11 5 1 0)) ∧ ¬ WellFormed (.vadd (rr 4 0x41 0x42 0x43)) ∧ ¬ WellFormed (.nop (rr 1 0 0 0)) := by
  decide +kernel

theorem refuses_a_reserved_function :
    ¬ WellFormed (.add (rr 4 5 3 4 0 0 0 1)) ∧ ¬ WellFormed (.plog (rr 0 0x81 0x82 0x83 0 0 0 4)) ∧
    ¬ WellFormed (.startSvc (rr 0 0x81 9 10 11 5 0 0)) := by
  decide +kernel

theorem refuses_an_operand_of_another_class :
    ¬ WellFormed (.add (rr 4 0x41 3 4)) ∧ ¬ WellFormed (.add (rr 4 5 0xFF 4)) ∧ ¬ WellFormed (.add (rr 4 5 3 4 1)) ∧
    ¬ WellFormed (.add (rr 4 5 3 0x60)) ∧ ¬ WellFormed (.cmp (rr 4 5 3 4)) ∧ ¬ WellFormed (.cmp (rr 4 0x88 3 4)) ∧
    ¬ WellFormed (.segset (rr 0 0xC8 3 4 6)) ∧ ¬ WellFormed (.cas (mm 4 63 0 0)) ∧ ¬ WellFormed (.cgath (rr 0 0 3 4 63)) ∧
    ¬ WellFormed (.capsend (rr 0 0 0x5F 3 0)) := by
  decide +kernel

theorem refuses_an_immediate_that_no_source_names :
    ¬ WellFormed (.add (rr 4 5 3 4 0 1)) ∧ WellFormed (.add (rr 4 5 3 0xFF 0 1)) := by
  decide +kernel

theorem refuses_a_reserved_qualifier :
    ¬ WellFormed (.add (rr 4 5 3 4 0 0 0x20)) ∧ ¬ WellFormed (.add (rr 4 5 3 4 0 0 0x08)) ∧
    ¬ WellFormed (.add (rr 4 5 3 4 0 0 0x01)) ∧ ¬ WellFormed (.and (rr 4 5 3 4 0 0 0x10)) ∧
    ¬ WellFormed (.cmp (rr 4 0x81 3 4 0 0 6)) ∧ ¬ WellFormed (.vadd (rr 9 0x41 0x42 0x43 0 0 0x80)) := by
  decide +kernel

theorem refuses_an_ordering_it_does_not_take :
    ¬ WellFormed (.ld (mm 4 5 1 0 0xB0)) ∧ ¬ WellFormed (.st (mm 4 5 1 0 0xA8)) ∧ ¬ WellFormed (.ld (mm 4 5 1 0 0xA0)) ∧
    ¬ WellFormed (.ld (mm 4 5 1 0 0xE8)) ∧ ¬ WellFormed (.arrive (rr 0 0 0 0 0 0x33 0x88)) := by
  decide +kernel

theorem refuses_a_scale_above_16 :
    ¬ WellFormed (.ld { mm 4 5 1 0 with scale := 17 }) ∧ WellFormed (.ld { mm 4 5 1 0 with scale := 16 }) := by
  decide +kernel

theorem refuses_a_reserved_field :
    ¬ WellFormed (.bfx (rr 8 5 3 0 0 0x3F01)) ∧ ¬ WellFormed (.bfx (rr 8 5 3 0 0 0x40)) ∧
    ¬ WellFormed (.rdsys (rr 0 5 0 0 0 0x30)) ∧ ¬ WellFormed (.mquery (rr 0 5 0 0 0 11)) ∧
    ¬ WellFormed (.arrive (rr 0 0 0 0 0 0x37)) ∧ ¬ WellFormed (.vshuf (rr 9 0x41 0x42 0 0 9)) ∧
    ¬ WellFormed (.vmovxIns (rr 3 0x41 9 0 0 32)) ∧ ¬ WellFormed (.mgang (rr 10 6 5 7 0 0x00400000)) ∧
    ¬ WellFormed (.ctrrd (rr 0 5 3 0 0 17)) ∧ ¬ WellFormed (.capins (rr 0 5 3 0 0 0)) ∧
    decode 0x20080000_00090100_FFFFFFF1#96 = .error .reservedField := by
  decide +kernel


/-! Effects, with results worked out by hand from the rules. -/

def after (i : Instr) (s : State) : State := match exec i s with
  | .next t => t
  | _ => s
/-- Register `d` of the context after an instruction. -/
def gives (i : Instr) (s : State) (d : BitVec 8) : Nat := readReg (after i s) 2 d
/-- `base` with `g3` and `g4`. -/
def ab (a b : Nat) : State := reg (reg base 3 a) 4 b
/-- What a long result will write. -/
def sends (i : Instr) (s : State) : List Nat := (after i s).rets.flatMap fun r => r.writes.map RegWrite.val
def top : Nat := 2 ^ 64 - 1

/-- R143: 127 + 1 in s8 clamps to 127 or wraps to -128, which is sign-extended; 200 + 100 in n8 wraps to 44 -/
theorem test_add :
    gives (.add (rr 1 5 3 4 0 0 0x10)) (ab 127 1) 5 = 127 ∧ gives (.add (rr 1 5 3 4)) (ab 127 1) 5 = 0xFFFFFFFFFFFFFF80 ∧
    gives (.add (rr 5 5 3 4)) (ab 200 100) 5 = 44 ∧ gives (.add (rr 8 0 3 4)) (ab 1 1) 0 = 0 ∧
    gives (.add (rr 4 3 3 0xFF 0 0xFFFFFFFF)) (ab 0 0) 3 = top := by
  decide +kernel

/-- R143: the minimum of s8 minus 1 clamps; 0 - 1 wraps; -1 times -1 is 1; the high half of (2^64 - 1)^2 is 2^64 - 2 -/
theorem test_sub_and_mul :
    gives (.sub (rr 1 5 3 4 0 0 0x10)) (ab 0x80 1) 5 = 0xFFFFFFFFFFFFFF80 ∧ gives (.sub (rr 8 5 3 4)) (ab 0 1) 5 = top ∧
    gives (.mul (rr 4 5 3 4)) (ab top top) 5 = 1 ∧ gives (.mulh (rr 8 5 3 4)) (ab top top) 5 = 2 ^ 64 - 2 ∧
    gives (.mulh (rr 4 5 3 4)) (ab top 1) 5 = top := by
  decide +kernel

/-- R144: by zero -1 or all ones, the remainder the dividend; -7 / 2 is -3 with remainder -1; -128 / -1 saturates to 127 -/
theorem test_div_and_rem :
    sends (.div (rr 4 5 3 4)) (ab 7 0) = [top] ∧ sends (.div (rr 5 5 3 4)) (ab 7 0) = [255] ∧
    sends (.rem (rr 8 5 3 4)) (ab 7 0) = [7] ∧ sends (.div (rr 4 5 3 4)) (ab (2 ^ 64 - 7) 2) = [2 ^ 64 - 3] ∧
    sends (.rem (rr 4 5 3 4)) (ab (2 ^ 64 - 7) 2) = [top] ∧ sends (.div (rr 1 5 3 4 0 0 0x10)) (ab 0x80 top) = [127] ∧
    sends (.div (rr 1 5 3 4)) (ab 0x80 top) = [0xFFFFFFFFFFFFFF80] := by
  decide +kernel

theorem test_min_and_max :
    gives (.min (rr 4 5 3 4)) (ab top 1) 5 = top ∧ gives (.min (rr 8 5 3 4)) (ab top 1) 5 = 1 ∧
    gives (.max (rr 4 5 3 4)) (ab top 1) 5 = 1 ∧ gives (.max (rr 8 5 3 4)) (ab top 1) 5 = top := by
  decide +kernel

/-- R145: 16 + (3 << 2) - 1 -/
theorem test_lea :
    gives (.lea (rr 8 5 3 4 0 0xFFFFFFFF 2)) (ab 16 3) 5 = 27 := by
  decide +kernel

/-- R146, its own examples among them: SHR.s8 of 0x80 by 1 is 0x40, SRA.n8 of 0x80 by 1 is 0xC0; a count of 9 in 8 bits is 1 -/
theorem test_logic_and_shifts :
    gives (.and (rr 8 5 3 4)) (ab 12 10) 5 = 8 ∧ gives (.or (rr 8 5 3 4)) (ab 12 10) 5 = 14 ∧
    gives (.xor (rr 8 5 3 4)) (ab 12 10) 5 = 6 ∧ gives (.andn (rr 8 5 3 4)) (ab 12 10) 5 = 4 ∧
    gives (.shr (rr 1 5 3 4)) (ab 0x80 1) 5 = 0x40 ∧ gives (.sra (rr 5 5 3 4)) (ab 0x80 1) 5 = 0xC0 ∧
    gives (.shl (rr 1 5 3 4)) (ab 0x40 1) 5 = 0xFFFFFFFFFFFFFF80 ∧ gives (.shl (rr 5 5 3 4)) (ab 3 9) 5 = 6 ∧
    gives (.rot (rr 5 5 3 4)) (ab 0x81 1) 5 = 3 ∧ gives (.rot (rr 8 5 3 4)) (ab (2 ^ 63) 1) 5 = 1 := by
  decide +kernel

/-- R147: bits 11 to 4 of 0xF50; 0xAB into bits 11 to 4 of zero -/
theorem test_bit_fields :
    gives (.bfx (rr 8 5 3 0 0 0x704)) (ab 0xF50 0) 5 = 0xF5 ∧
    gives (.bfx (rr 4 5 3 0 0 0x704)) (ab 0xF50 0) 5 = 0xFFFFFFFFFFFFFFF5 ∧
    gives (.bfi (rr 8 5 3 4 0 0x704)) (ab 0xFFFF 0xAB) 5 = 0xFABF := by
  decide +kernel

theorem test_counts :
    gives (.clz (rr 5 5 3 0)) (ab 0x110 0) 5 = 3 ∧ gives (.clz (rr 7 5 3 0)) (ab (2 ^ 32) 0) 5 = 32 ∧
    gives (.ctz (rr 6 5 3 0)) (ab 0x18 0) 5 = 3 ∧ gives (.ctz (rr 8 5 3 0)) (ab 0 0) 5 = 64 ∧
    gives (.popc (rr 5 5 3 0)) (ab 0xFF7 0) 5 = 7 ∧ gives (.brev (rr 5 5 3 0)) (ab 1 0) 5 = 0x80 := by
  decide +kernel

/-- R149: -1 < 1 signed alone -/
theorem test_compare_and_select :
    gives (.cmp (rr 4 0x81 3 4 0 0 2)) (ab top 1) 0x81 = 2 ^ 128 - 1 ∧
    gives (.cmp (rr 8 0x81 3 4 0 0 2)) (reg (ab top 1) 0x81 5) 0x81 = 0 ∧
    gives (.cmp (rr 8 0x80 3 4 0 0 0)) (ab 1 2) 0x80 = 2 ^ 128 - 1 ∧
    gives (.sel (rr 0 5 3 4 0x81)) (reg (ab 7 9) 0x81 1) 5 = 7 ∧
    gives (.sel (rr 0 5 3 4 0x81)) (reg (ab 7 9) 0x81 2) 5 = 9 := by
  decide +kernel

theorem test_moves :
    gives (.mov (rr 0 5 0xFF 0 0 0xFFFFFFFE)) base 5 = 2 ^ 64 - 2 ∧
    gives (.mov (rr 0 0x82 0x81 0)) (reg base 0x81 (2 ^ 127 + 1)) 0x82 = 2 ^ 127 + 1 ∧
    gives (.movi ⟨hdr 0, 5, 0x0123456789ABCDEF⟩) base 5 = 0x0123456789ABCDEF ∧
    gives (.movi ⟨hdr 0, 0x45, 1⟩) base 0x45 / 2 ^ 960 = 1 ∧
    gives (.plog (rr 0 0x82 0x81 0x83 0 0 0 3)) (reg (reg base 0x81 12) 0x83 10) 0x82 = 4 := by
  decide +kernel

/-- R56: a false guard leaves all but the program counter -/
theorem test_guard :
    gives (.add ⟨never 4, 0, 5, 3, 4, 0, 0⟩) (ab 1 1) 5 = 0 ∧
    ctxPc (after (.add ⟨never 4, 0, 5, 3, 4, 0, 0⟩) (ab 1 1)) 2 = 0x10001 ∧
    gives (.add ⟨⟨0, false, 1, false, 4⟩, 0, 5, 3, 4, 0, 0⟩) (reg (ab 1 1) 0x81 1) 5 = 2 ∧
    gives (.add ⟨⟨0, false, 1, true, 4⟩, 0, 5, 3, 4, 0, 0⟩) (reg (ab 1 1) 0x81 1) 5 = 0 := by
  decide +kernel

/-- R154, R155: slot 4 of this line; the next instruction as the link; a target outside the slots traps with code 3 -/
theorem test_control :
    ctxPc (after (.br ⟨hdr 0, 0, 0, 0, 4⟩) lined) 2 = 0x10004 ∧
    ctxPc (after (.br ⟨hdr 0 1, 0, 3, 0, 4⟩) (reg lined 3 1)) 2 = 0x10001 ∧
    gives (.call ⟨hdr 0, 5, 0, 0, 4⟩) lined 5 = 0x10001 ∧ ctxPc (after (.jmp (rr 0 3 3 0)) (reg lined 3 0x10002)) 2 = 0x10002 ∧
    gives (.jmp (rr 0 3 3 0)) (reg lined 3 0x10002) 3 = 0x10001 ∧
    (after (.ret (rr 0 0 3 0)) (reg lined 3 0x10005)).iss.res = .trapped := by
  decide +kernel

/-- R131 to R135: a trap of TRAP 9 with a handler at 0x20000; TRET returns and lets traps in -/
theorem test_traps :
    (readFrame (after (.trap (rr 0 0 0 0 0 9)) (writeFrame base 2 wTvec 0x20000)) 2 wEpc) = 0x10000 ∧
    ctxPc (after (.trap (rr 0 0 0 0 0 9)) (writeFrame base 2 wTvec 0x20000)) 2 = 0x20000 ∧
    (after (.trap (rr 0 0 0 0 0 9)) base).mail.length = 1 := by
  decide +kernel

/-- R2, R101: little-endian, a narrow store leaves its neighbours, a signed load widens its sign -/
theorem test_loads_and_stores :
    readBytes (after (.st (mm 6 3 0 8)) (ab 0x1234 0)) (localBase 0 + 8) 3 = 0x1234 ∧
    readByte (after (.st (mm 6 3 0 8)) (ab 0x1234 0)) (localBase 0 + 8) = 0x34 ∧
    sends (.ld (mm 1 5 0 8)) (writeBytes base (localBase 0 + 8) 1 0x80) = [0xFFFFFFFFFFFFFF80] ∧
    sends (.ld (mm 5 5 0 8)) (writeBytes base (localBase 0 + 8) 1 0x80) = [0x80] ∧
    isFull (after (.stf (mm 8 3 0 8)) (ab 7 0)) (localBase 0 + 8) = true := by
  decide +kernel

theorem test_system :
    gives (.segget (rr 0 5 0xC0 0 0 1)) (seg base 0 0x1FFF (readSeg base 2 0).attr) 5 = 0x1FFF ∧
    readFrame (after (.wrsys (rr 0 0 3 0 0 1)) (ab 0x30000 0)) 2 wTvec = 0x30000 ∧
    readFrame (after (.wrsys (rr 0 0 3 0 0 8)) (ab 0x30000 0)) 2 wEpc = 0x30000 ∧
    (after (.wrsys (rr 0 0 3 0 0 4)) (ab 7 0)).iss.res = .trapped ∧
    (after (.rdsys (rr 0 5 0 0 0 0x20)) base).iss.res = .trapped ∧
    (after (.rdsys (rr 0 5 0 0 0 0x20)) (sup base)).iss.res = .completed ∧
    (after (.fence (rr 0 0 0 0)) base).iss.res = .completed ∧ ctxPc (after (.nop (rr 0 0 0 0)) base) 2 = 0x10001 := by
  decide +kernel

/-- R212: lanes of 8 bits, 255 + 1 wraps, saturates unsigned; a mask takes the lanes it names -/
theorem test_vector_arithmetic :
    gives (.vadd (rr 5 0x41 0x42 0xFF 0 1)) (reg base 0x42 0x01FF) 0x41 % 2 ^ 24 = 0x010200 ∧
    gives (.vadd (rr 5 0x41 0x42 0xFF 0 1 0x10)) (reg base 0x42 0x01FF) 0x41 % 2 ^ 16 = 0x02FF ∧
    gives (.vadd ⟨⟨0, false, 1, false, 5⟩, 0, 0x41, 0x42, 0xFF, 0, 1⟩) (reg base 0x81 2) 0x41 = 0x100 ∧
    gives (.vmul (rr 11 0x41 0x42 0x43)) (reg (reg base 0x42 0x40000000) 0x43 0x40400000) 0x41 = 0x40C00000 ∧
    gives (.vbit (rr 8 0x41 0x42 0x43 0 0 0 3)) (reg (reg base 0x42 12) 0x43 10) 0x41 = 4 := by
  decide +kernel

/-- The first step after reset runs the word placed where it fetches: `MOV g5, 7`, then the next slot is due. -/
def first (w : Nat) : State := match step (State.reset.withFetchWord 96 w) with
  | .next t => t
  | _ => State.reset

theorem test_first_step :
    readReg (first 0x1A000000_05FF0000_00000007) 2 5 = 7 ∧ ctxPc (first 0x1A000000_05FF0000_00000007) 2 = 0x10001 ∧
    (first 0).mail.length = 1 ∧ decodeTableWord 96 0x1A000000_05FF0000_00000007 = some (.mov (rr 0 5 0xFF 0 0 7)) ∧
    decodeTableWord 64 0x00000007 = none := by
  decide +kernel

end Sys2Proof.Tests
end

/-! What CMP and SEL do (R149, R150), for their two obligations: what R68 asks of their words, and the one register that
each writes. -/

namespace Sys2Proof.Machine

variable {w : RWord} {s : State} {f : Nat}

/-! Well-formed words in parts. -/

/-- Everything that R68 asks of a word of format R. -/
theorem okR_iff {fn ty : Nat → Bool} {q m : Bool} {d a b c : BitVec 8 → Bool} :
    okR w fn ty q d a b c m = true ↔
      fn (fnOf w.hdr) = true ∧ ty (tyOf w.hdr) = true ∧ q = true ∧ d w.d = true ∧ a w.a = true ∧ b w.b = true ∧
        c w.c = true ∧ m = true := by
  simp only [okR, Bool.and_eq_true, and_assoc]

/-- Everything that layout A asks of a qualifier (R58). -/
theorem okA_iff {q : BitVec 8} {rms : List Nat} {sat ftz : Bool} {extra : Nat → Bool} :
    okA q rms sat ftz extra = true ↔
      rms.contains (qRm q) = true ∧ (sat = true ∨ qSat q = false) ∧ (ftz = true ∨ qFtz q = false) ∧
        extra (qExtra q) = true := by
  simp only [okA, Bool.and_eq_true, Bool.or_eq_true, Bool.not_eq_true', and_assoc]

theorem isGI_iff {d : BitVec 8} : isGI d = true ↔ isG d = true ∨ d = 0xFF#8 :=
  Bool.or_eq_true_iff.trans (or_congr .rfl beq_iff_eq)

theorem tyInt_iff {t : Nat} : tyInt t = true ↔ 1 ≤ t ∧ t ≤ 8 := decide_eq_true_iff

theorem zeroX_iff {n : Nat} : zeroX n = true ↔ n = 0 := beq_iff_eq

/-- The opcode stands in bits 95 to 88 (R55). -/
theorem extractLsb'_op_encR {op : Nat} (h : op < 256) (w : RWord) :
    (encR op w).extractLsb' 88 8 = BitVec.ofNat 8 op := by
  apply BitVec.eq_of_toNat_eq
  rw [BitVec.toNat_ofNat, Nat.mod_eq_of_lt h]
  exact Laws.opOf_encR h w

/-! Instructions that write one register. -/

/-- An instruction of a context that can issue, whose own effect is one register written, leaves `v` there. -/
theorem setsReg_of_withIssue {i : Instr} {h : Hdr} {specs : List (BitVec 8)} {d : BitVec 8} {v : Nat → State → Nat}
    (he : exec i s = withIssue i h specs s fun f s => finishReg h d (v f s) f s)
    (hc : canIssue i h specs s f = true) : SetsReg i h d (v f s) s f :=
  finishReg_sets (canIssue_bound hc) (he.trans (withIssue_next hc))

/-! CMP (R149). -/

/-- The verdict of a condition code, in the order of R58. -/
theorem condInt_iff (c : Nat) (a b : Int) :
    condInt c a b = true ↔ match c with
      | 0 => a = b
      | 1 => a ≠ b
      | 2 => a < b
      | 3 => a ≤ b
      | 4 => a > b
      | _ => a ≥ b :=
  match c with
  | 0 | 1 | 2 | 3 | 4 | _ + 5 => decide_eq_true_iff

@[simp] theorem predAll_true : predAll true = 2 ^ 128 - 1 := rfl
@[simp] theorem predAll_false : predAll false = 0 := rfl

theorem wellFormed_cmp (h : WellFormed (.cmp w)) :
    1 ≤ tyOf w.hdr ∧ tyOf w.hdr ≤ 8 ∧ isP w.d = true ∧ isG w.a = true ∧ (isG w.b = true ∨ w.b = 0xFF#8) ∧
      qExtra w.qual ≤ 5 ∧ qSat w.qual = false := by
  obtain ⟨-, hty, hq, hd, ha, hb, -, -⟩ := okR_iff.mp h
  obtain ⟨-, hsat, -, hextra⟩ := okA_iff.mp hq
  obtain ⟨hlo, hhi⟩ := tyInt_iff.mp hty
  exact ⟨hlo, hhi, hd, ha, isGI_iff.mp hb, of_decide_eq_true hextra, hsat.resolve_left Bool.false_ne_true⟩

theorem execCmp_sets (hc : canIssue (.cmp w) w.hdr [w.a, w.b] s f = true) :
    SetsReg (.cmp w) w.hdr w.d
      (predAll (condInt (qExtra w.qual) (val s f (tyOf w.hdr) w.a w.imm) (val s f (tyOf w.hdr) w.b w.imm))) s f :=
  setsReg_of_withIssue (v := fun f s => predAll (condInt _ (val s f _ _ _) (val s f _ _ _))) rfl hc

/-- Settles O3: CMP's one register write is the verdict of `condInt`, in all 128 bits. -/
theorem compareSetsPredicate : Obligations.CompareSetsPredicate := by
  intro w s f A B holds
  refine ⟨fun h => ⟨⟨_, rfl, extractLsb'_op_encR (by decide) w⟩, wellFormed_cmp h⟩, ?_⟩
  rintro hc rfl rfl hholds
  have hverdict := hholds.trans (condInt_iff _ _ _).symm
  have hset := execCmp_sets hc
  constructor
  · intro h
    rwa [hverdict.mp h, predAll_true] at hset
  · intro h
    rwa [Bool.eq_false_iff.mpr (mt hverdict.mpr h), predAll_false] at hset

/-! SEL (R150). -/

theorem wellFormed_sel (h : WellFormed (.sel w)) :
    tyOf w.hdr = 0 ∧ isG w.d = true ∧ isG w.a = true ∧ (isG w.b = true ∨ w.b = 0xFF#8) ∧ isP w.c = true := by
  obtain ⟨-, hty, -, hd, ha, hb, hp, -⟩ := okR_iff.mp h
  exact ⟨zeroX_iff.mp hty, hd, ha, isGI_iff.mp hb, hp⟩

theorem execSel_sets (hc : canIssue (.sel w) w.hdr [w.a, w.b, w.c] s f = true) :
    SetsReg (.sel w) w.hdr w.d
      (if (readReg s f w.c).testBit 0 then readReg s f w.a else src s f w.b w.imm) s f :=
  setsReg_of_withIssue (v := fun f s => if (readReg s f _).testBit 0 then readReg s f _ else src s f _ _) rfl hc

/-- Settles O4: the value that SEL writes is chosen by bit 0 of its predicate. -/
theorem selectByPredicate : Obligations.SelectByPredicate := by
  intro w s f
  exact ⟨fun h => ⟨⟨_, rfl, extractLsb'_op_encR (by decide) w⟩, wellFormed_sel h⟩, execSel_sets⟩

end Sys2Proof.Machine

namespace Sys2Proof.Laws
open Sys2Proof.Machine

/-! The round trip of every instruction: the two facts that decoding turns on, of every constructor's word. -/

/-- The word's op and function name instruction `i`, and its reserved bits are zero where its format is B. -/
def Names (e : BitVec 96) (i : Instr) : Prop := candidate e = some i ∧ (isB e && !bClean e) = false

/-- The word's function code is one of its op's (R66). -/
def FnInRange (e : BitVec 96) : Prop := (hdrOf e).fn.toNat < fnCount (opOf e)

/-- The ops of formats R and E. -/
abbrev opR (op : Nat) : Prop := op < 256 ∧ op ≠ 0x1B ∧ op ≠ 0x20 ∧ op ≠ 0x21 ∧ (lookup mTable op).isNone = true

theorem names_R {op : Nat} {w : RWord} {i : Instr} {e : BitVec 96} (h : some (encR op w) = some e) (hop : opR op)
    (hc : candR op w = some i) : Names e i := by
  obtain rfl := Option.some.inj h
  obtain ⟨h8, h1, h2, h3, h4⟩ := hop
  rw [Option.isNone_iff_eq_none] at h4
  refine ⟨?_, by simp [isB, opOf_encR h8, h2, h3]⟩
  simp only [candidate, opOf_encR h8, rOf_encR, h1, h2, h3, h4, if_false]
  exact hc

theorem opR_of_lookup : ∀ p ∈ rTable, opR p.1 := by
  have h : rTable.all fun p => decide (opR p.1) := rfl
  exact fun p hp => of_decide_eq_true (List.all_eq_true.mp h p hp)

theorem mem_of_lookup {α : Type} {t : List (Nat × α)} {n : Nat} {a : α} (h : lookup t n = some a) : (n, a) ∈ t := by
  induction t with
  | nil => cases h
  | cons p t ih =>
    obtain ⟨k, v⟩ := p
    rw [lookup] at h
    split at h
    · next hk => obtain rfl := Option.some.inj h; subst hk; exact List.mem_cons_self
    · exact List.mem_cons_of_mem _ (ih h)

/-- An op of the table names its constructor. -/
theorem names_table {op : Nat} {f : RWord → Instr} {w : RWord} {e : BitVec 96} (h : some (encR op w) = some e)
    (hr : lookup rTable op = some f) : Names e (f w) :=
  names_R h (opR_of_lookup _ (mem_of_lookup hr)) (by rw [candR, hr])

/-- Another op names the variant that its function code, `extra` bit or system register chooses (R66, R173, R319, R321). -/
theorem names_variant {op : Nat} {w : RWord} {i : Instr} {e : BitVec 96} (h : some (encR op w) = some e) (hop : opR op)
    (hr : lookup rTable op = none) (hv : variantOf op w = some i) : Names e i :=
  names_R h hop (by rw [candR, hr, hv])

theorem names_M {op : Nat} {w : MWord} {f : MWord → Instr} {e : BitVec 96} (h : some (encM op w) = some e)
    (hop : op < 256 ∧ op ≠ 0x1B ∧ op ≠ 0x20 ∧ op ≠ 0x21) (hm : lookup mTable op = some f) : Names e (f w) := by
  obtain rfl := Option.some.inj h
  obtain ⟨h8, h1, h2, h3⟩ := hop
  refine ⟨?_, by simp [isB, opOf_encM h8, h2, h3]⟩
  simp only [candidate, opOf_encM h8, mOf_encM, h1, h2, h3, hm, if_false]

theorem names_movi {w : LWord} : Names (encL 0x1B w) (.movi w) := by
  simp [Names, candidate, isB, opOf_encL, lOf_encL]

theorem names_br {w : BWord} : Names (encB 0x20 w) (.br w) := by
  simp [Names, candidate, opOf_encB, bOf_encB, bClean_encB]

theorem names_call {w : BWord} : Names (encB 0x21 w) (.call w) := by
  simp [Names, candidate, opOf_encB, bOf_encB, bClean_encB]

theorem fnInRange_R {op : Nat} {w : RWord} {e : BitVec 96} {p : Nat → Bool} (h : some (encR op w) = some e) (h8 : op < 256)
    (hfn : p w.hdr.fn.toNat = true) (hp : ∀ n, p n = true → n < fnCount op) : FnInRange e := by
  obtain rfl := Option.some.inj h
  rw [FnInRange, hdrOf_encR, opOf_encR h8]
  exact hp _ hfn

theorem fnInRange_M {op : Nat} {w : MWord} {e : BitVec 96} {p : Nat → Bool} (h : some (encM op w) = some e) (h8 : op < 256)
    (hfn : p w.hdr.fn.toNat = true) (hp : ∀ n, p n = true → n < fnCount op) : FnInRange e := by
  obtain rfl := Option.some.inj h
  rw [FnInRange, hdrOf_encM, opOf_encM h8]
  exact hp _ hfn

theorem zeroX_lt {m : Nat} (hm : 0 < m) (n : Nat) (h : zeroX n = true) : n < m := fn_zero h hm

theorem le_lt {k m : Nat} (hm : k < m) (n : Nat) (h : decide (n ≤ k) = true) : n < m := fn_le h hm

theorem eq_lt {k m : Nat} (hm : k < m) (n : Nat) (h : (n == k) = true) : n < m := fn_eq h hm

/-- A legal instruction's function code is one of its op's. -/
theorem encode_fnInRange {i : Instr} {e : BitVec 96} (hm : legal i = true) (h : encode i = some e) : FnInRange e := by
  cases i
  case plog w | tlbinv w | vbit w | vsh w | vred w | vscan w =>
    simp only [legal] at hm
    exact fnInRange_R h (by decide) (okR_fn hm) (le_lt (by decide))
  case startSvc w | vmovxIns w | vmovxExt w | ccancel w | caprecv w | capsend w | capnext w | capins w | capskip w | caprepl w
      | capfail w | capdrop w | exq w | expin w | exunpin w | exload w | exevict w | exrepl w =>
    simp only [legal, okVmovx, okCap] at hm
    exact fnInRange_R h (by decide) (okR_fn hm) (eq_lt (by decide))
  case vcvt w => exact fnInRange_R h (by decide) (okR_fn (Bool.and_eq_true_iff.mp hm).2) (zeroX_lt (by decide))
  case cst w | vgath w | vscat w =>
    simp only [legal, Bool.and_eq_true_iff, and_assoc] at hm
    exact fnInRange_M h (by decide) (okM_fn hm.1) (zeroX_lt (by decide))
  case atom w =>
    simp only [legal] at hm
    exact fnInRange_M h (by decide) (okM_fn hm) (le_lt (by decide))
  case ld w | st w | ldsync w | stf w | ldw w | cas w | pref w | vld w | vst w =>
    simp only [legal] at hm
    exact fnInRange_M h (by decide) (okM_fn hm) (zeroX_lt (by decide))
  case br w =>
    obtain rfl := Option.some.inj h
    simp only [legal, Bool.and_eq_true, fnOf, and_assoc] at hm
    rw [FnInRange, hdrOf_encB, opOf_encB (by decide)]
    exact le_lt (by decide) _ hm.1
  case call w =>
    obtain rfl := Option.some.inj h
    simp only [legal, Bool.and_eq_true, fnOf, and_assoc] at hm
    rw [FnInRange, hdrOf_encB, opOf_encB (by decide)]
    exact eq_lt (by decide) _ hm.1
  case movi w =>
    obtain rfl := Option.some.inj h
    simp only [legal, Bool.and_eq_true, fnOf, and_assoc] at hm
    rw [FnInRange, hdrOf_encL, opOf_encL (by decide)]
    exact eq_lt (by decide) _ hm.1
  case add w | sub w | mul w | mulh w | div w | rem w | min w | max w | lea w | and w | or w | xor w | andn w | shl w | shr w
      | sra w | rot w | bfx w | bfi w | clz w | ctz w | popc w | brev w | cmp w | sel w | mov w | ret w | jmp w | trap w
      | tret w | start w | exit w | join w | ppoint w | launch w | nop w | fence w | xfence w | rdsys w | wrsys w | segget w | segset w
      | svc w | rdtime w | tlbq w | send w | recv w | recvnb w | callat w | spawn w | reply w | arrive w | bwait w | bsync w
      | bmask w | twaitany w | twaitall w | tfind w | sfence w | mcst w | jrd w | mquery w | vadd w | vsub w | vmul w
      | vfma w | vdiv w | vsqrt w | vrcp w | vrsq w | vexp2 w | vlog2 w | vmin w | vmax w | vabs w | vcmp w | vsel w
      | vqf4 w | vbcast w | vperm w | vshuf w | vtopk w | vargmax w | vdot w | mzero w | mma w | mcma w | mlda w | msta w
      | marm w | mgang w | mring w | mswz w | walk w | walkResume w | wstat w | wchk w | cpy w | cpy2d w | cgath w
      | cscat w | cfill w | cswz w | femark w | cstat w | pfr w | pfrBar w | secpin w | secpinUn w | rflush w | rinval w | bmode w | ctrrd w
      | trctlWrite w | lfsrWrite w | engbindWrite w | statusPmaskWrite w =>
    simp only [legal, okInt, okCount, okZ, okBare, okRecv, okTags, okVArith, okVFun, okVqf4, okVshuf, okSlice] at hm
    exact fnInRange_R h (by decide) (okR_fn hm) (zeroX_lt (by decide))
  all_goals exact nomatch h

theorem wrsysOf_wrsys {w : RWord} (h : ([0x000, 0x002, 0x010, 0x020].contains w.imm.toNat) = false) :
    wrsysOf w = .wrsys w := by
  have h0 : w.imm ≠ 0x000#32 ∧ w.imm ≠ 0x002#32 ∧ w.imm ≠ 0x010#32 ∧ w.imm ≠ 0x020#32 := by
    refine ⟨?_, ?_, ?_, ?_⟩ <;> rintro heq <;> simp [heq] at h
  simp only [wrsysOf, h0, if_false]

/-- The word of a legal instruction names it. -/
theorem encode_names {i : Instr} {e : BitVec 96} (hm : legal i = true) (h : encode i = some e) : Names e i := by
  cases i
  case start w | vmovxIns w | cstat w | capins w | capfail w | exq w | exload w =>
    simp only [legal, okZ, okVmovx, okCap] at hm
    have hf : w.hdr.fn.toNat = 0 := beq_iff_eq.mp (okR_fn hm)
    exact names_variant h (by decide) rfl (congrArg some (if_pos hf))
  case startSvc w | vmovxExt w | ccancel w | capdrop w | exevict w =>
    simp only [legal, okVmovx, okCap] at hm
    have hf : w.hdr.fn.toNat = 1 := beq_iff_eq.mp (okR_fn hm)
    exact names_variant h (by decide) rfl (congrArg some (if_neg (by rw [hf]; decide)))
  case capskip w | expin w =>
    simp only [legal, okCap] at hm
    have hf : w.hdr.fn.toNat = 1 := beq_iff_eq.mp (okR_fn hm)
    exact names_variant h (by decide) rfl (congrArg some ((if_neg (by rw [hf]; decide)).trans (if_pos hf)))
  case caprepl w | exunpin w =>
    simp only [legal, okCap] at hm
    have hf : w.hdr.fn.toNat = 2 := beq_iff_eq.mp (okR_fn hm)
    exact names_variant h (by decide) rfl
      (congrArg some ((if_neg (by rw [hf]; decide)).trans (if_neg (by rw [hf]; decide))))
  case pfr w | secpin w =>
    have hx := (extra_bit (.inl (slice_extra hm))).trans (by rw [slice_extra hm])
    exact names_variant h (by decide) rfl (congrArg some (if_neg (by rw [hx]; decide)))
  case pfrBar w | secpinUn w =>
    have hx := (extra_bit (.inr (slice_extra hm))).trans (decide_eq_true (slice_extra hm))
    exact names_variant h (by decide) rfl (congrArg some (if_pos hx))
  case trctlWrite w | lfsrWrite w | engbindWrite w | statusPmaskWrite w =>
    simp only [legal, okZ] at hm
    exact names_variant h (by decide) rfl (congrArg some (by simp [wrsysOf, beq_iff_eq.mp (okR_imm hm)]))
  case wrsys w =>
    simp only [legal, okZ] at hm
    have hi := (Bool.not_eq_true' _).mp (Bool.and_eq_true_iff.mp (okR_imm hm)).2
    exact names_variant h (by decide) rfl (congrArg some (wrsysOf_wrsys hi))
  case ld w | st w | ldsync w | stf w | ldw w | cst w | atom w | cas w | pref w | vld w | vst w | vgath w | vscat w =>
    exact names_M h (by decide) rfl
  case movi w => exact Option.some.inj h ▸ names_movi
  case br w => exact Option.some.inj h ▸ names_br
  case call w => exact Option.some.inj h ▸ names_call
  case add w | sub w | mul w | mulh w | div w | rem w | min w | max w | lea w | and w | or w | xor w | andn w | shl w | shr w
      | sra w | rot w | bfx w | bfi w | clz w | ctz w | popc w | brev w | cmp w | sel w | mov w | ret w | jmp w | trap w
      | tret w | exit w | join w | ppoint w | launch w | nop w | fence w | xfence w | rdsys w | segget w | segset w
      | svc w | rdtime w | tlbq w | send w | recv w | recvnb w | callat w | spawn w | reply w | arrive w | bwait w | bsync w
      | bmask w | twaitany w | twaitall w | tfind w | sfence w | mcst w | jrd w | mquery w | vadd w | vsub w | vmul w
      | vfma w | vdiv w | vsqrt w | vrcp w | vrsq w | vexp2 w | vlog2 w | vmin w | vmax w | vabs w | vcmp w | vsel w
      | vqf4 w | vbcast w | vperm w | vshuf w | vtopk w | vargmax w | vdot w | mzero w | mma w | mcma w | mlda w | msta w
      | marm w | mgang w | mring w | mswz w | walk w | walkResume w | wstat w | wchk w | cpy w | cpy2d w | cgath w
      | cscat w | cfill w | cswz w | femark w | vcvt w | plog w | tlbinv w | vbit w | vsh w | vred w | vscan w | rflush w | rinval w | bmode w | ctrrd w | caprecv w | capsend w | capnext w | exrepl w =>
    exact names_table h rfl
  all_goals exact nomatch h

/-- Settles O56: the word of a legal instruction names it, and decoding finds no fault with it. -/
theorem encodeThenDecode : Obligations.EncodeThenDecode := by
  intro i e hl h
  obtain ⟨hname, hclean⟩ := encode_names hl h
  exact decodeWord_of hname (encode_fnInRange hl h) hclean hl


/-! A word that decodes is the word of the instruction it decodes to: its fields are all its bits. -/

theorem bit1_beq (b : BitVec 1) : bit1 (b == 1#1) = b := by revert b; decide

theorem encR_rOf (w : BitVec 96) : encR (opOf w) (rOf w) = w := by
  simp only [encR, rOf, hdrOf, hdrBits, opOf, BitVec.ofNat_toNat, BitVec.setWidth_eq, bit1_beq]
  repeat rw [BitVec.extractLsb'_append_extractLsb'_eq_extractLsb']
  · exact extract_all
  all_goals rfl

theorem encM_mOf (w : BitVec 96) : encM (opOf w) (mOf w) = w := by
  simp only [encM, mOf, hdrOf, hdrBits, opOf, BitVec.ofNat_toNat, BitVec.setWidth_eq, bit1_beq]
  repeat rw [BitVec.extractLsb'_append_extractLsb'_eq_extractLsb']
  · exact extract_all
  all_goals rfl

theorem encL_lOf (w : BitVec 96) : encL (opOf w) (lOf w) = w := by
  simp only [encL, lOf, hdrOf, hdrBits, opOf, BitVec.ofNat_toNat, BitVec.setWidth_eq, bit1_beq]
  repeat rw [BitVec.extractLsb'_append_extractLsb'_eq_extractLsb']
  · exact extract_all
  all_goals rfl

/-- The reserved bits of format B, which the decoder checks, are the only ones its fields leave out. -/
theorem encB_bOf {w : BitVec 96} (h : bClean w = true) : encB (opOf w) (bOf w) = w := by
  simp only [bClean, Bool.and_eq_true, beq_iff_eq] at h
  simp only [encB, bOf, hdrOf, hdrBits, opOf, BitVec.ofNat_toNat, BitVec.setWidth_eq, bit1_beq, ← h.1, ← h.2]
  repeat rw [BitVec.extractLsb'_append_extractLsb'_eq_extractLsb']
  · exact extract_all
  all_goals rfl

/-- Each constructor of the tables is encoded under its op. -/
theorem encode_rTable : ∀ p ∈ rTable, ∀ w, encode (p.2 w) = some (encR p.1 w) := by
  refine List.forall_iff_forall_mem.mp ?_
  refine List.forall_append.mpr ⟨List.forall_append.mpr ⟨List.forall_append.mpr ⟨?_, ?_⟩, ?_⟩, ?_⟩
  all_goals
    and_intros
    all_goals exact fun _ => rfl

theorem encode_mTable : ∀ p ∈ mTable, ∀ w, encode (p.2 w) = some (encM p.1 w) := by
  refine List.forall_iff_forall_mem.mp ?_
  and_intros
  all_goals exact fun _ => rfl

theorem encode_ite {c : Prop} [Decidable c] {i j : Instr} {e : Option (BitVec 96)} (hi : encode i = e) (hj : encode j = e) :
    encode (if c then i else j) = e := by
  split <;> assumption

theorem encode_wrsysOf (w : RWord) : encode (wrsysOf w) = some (encR 0x4B w) :=
  encode_ite rfl (encode_ite rfl (encode_ite rfl (encode_ite rfl rfl)))

/-- One test of `variantOf`: what holds of the constructor it chooses and of every later choice holds of the choice. -/
theorem encode_of_test {c : Prop} [Decidable c] {i j : Instr} {r : Option Instr} {e : Option (BitVec 96)}
    (h : (if c then some i else r) = some j) (hi : c → encode i = e) (hr : r = some j → encode j = e) : encode j = e := by
  split at h
  · exact Option.some.inj h ▸ hi ‹_›
  · exact hr h

/-- Each variant is encoded under its op, in the order of `variantOf`'s tests. -/
theorem encode_variantOf {op : Nat} {w : RWord} {i : Instr} (h : variantOf op w = some i) : encode i = some (encR op w) := by
  refine encode_of_test h (fun ho => ho ▸ encode_ite rfl rfl) fun h => ?_
  refine encode_of_test h (fun ho => ho ▸ encode_wrsysOf w) fun h => ?_
  iterate 4 refine encode_of_test h (fun ho => ho ▸ encode_ite rfl rfl) fun h => ?_
  refine encode_of_test h (fun ho => ho ▸ encode_ite rfl (encode_ite rfl rfl)) fun h => ?_
  refine encode_of_test h (fun ho => ho ▸ encode_ite rfl rfl) fun h => ?_
  refine encode_of_test h (fun ho => ho ▸ encode_ite rfl (encode_ite rfl rfl)) fun h => ?_
  exact encode_of_test h (fun ho => ho ▸ encode_ite rfl rfl) nofun

theorem bClean_of_names {w : BitVec 96} {i : Instr} (h : Names w i) (hb : isB w = true) : bClean w = true := by
  have := h.2
  rwa [hb, Bool.true_and, Bool.not_eq_false'] at this

/-- The word that names an instruction is its word. -/
theorem encode_of_names {w : BitVec 96} {i : Instr} (h : Names w i) : encode i = some w := by
  have hc := h.1
  simp only [candidate] at hc
  split_ifs at hc with h1 h2 h3
  · obtain rfl := Option.some.inj hc
    exact congrArg some (h1 ▸ encL_lOf w)
  · obtain rfl := Option.some.inj hc
    exact congrArg some (h2 ▸ encB_bOf (bClean_of_names h (by simp [isB, h2])))
  · obtain rfl := Option.some.inj hc
    exact congrArg some (h3 ▸ encB_bOf (bClean_of_names h (by simp [isB, h3])))
  · cases hm : lookup mTable (opOf w) with
    | some f =>
      rw [hm] at hc
      obtain rfl := Option.some.inj hc
      rw [encode_mTable _ (mem_of_lookup hm), encM_mOf]
    | none =>
      rw [hm] at hc
      cases hr : lookup rTable (opOf w) with
      | some f =>
        rw [hr] at hc
        obtain rfl := Option.some.inj hc
        rw [encode_rTable _ (mem_of_lookup hr), encR_rOf]
      | none =>
        rw [hr] at hc
        rw [encode_variantOf hc, encR_rOf]

/-- What decoding has checked, once it answers. -/
theorem names_of_decodeWord {w : BitVec 96} {i : Instr} (h : decodeWord w = some i) : Names w i ∧ legal i = true := by
  simp only [decodeWord, decode] at h
  cases hc : candidate w with
  | none => simp [hc] at h
  | some j =>
    simp only [hc] at h
    split_ifs at h with hf hb
    obtain rfl := Option.some.inj h
    simp only [Bool.or_eq_true, not_or, Bool.not_eq_true, Bool.not_eq_false'] at hb
    exact ⟨⟨hc, hb.1⟩, hb.2⟩

/-- Settles O57: the word that names an instruction is its word. -/
theorem decodeThenEncode : Obligations.DecodeThenEncode := by
  intro w i h
  obtain ⟨hname, hl⟩ := names_of_decodeWord h
  exact ⟨hl, encode_of_names hname⟩

end Sys2Proof.Laws

namespace Sys2Proof.Machine

/-! The machine after reset (O53), the words of the spec (O55) and one step (O54). -/

theorem poisoned_reset (a n : Nat) : poisoned State.reset a n = false := List.any_eq_false.mpr fun _ _ => Bool.false_ne_true

/-- R86: a slot's generator starts from its place in the machine. -/
theorem lfsrOf_reset {q d l c k : Nat} (hd : d < 4) (hl : l < 32) (hc : c < 16) :
    lfsrOf State.reset (q * 2048 + d * 512 + l * 16 + c) k =
      0x9E3779B9#32 ^^^ BitVec.ofNat 32 (q * 2 ^ 15 + d * 2 ^ 13 + l * 2 ^ 8 + c * 2 ^ 4 + k) := by
  have hq : (q * 2048 + d * 512 + l * 16 + c) / 2048 = q := by omega
  have hd : (q * 2048 + d * 512 + l * 16 + c) / 512 % 4 = d := by omega
  have hl : (q * 2048 + d * 512 + l * 16 + c) / 16 % 32 = l := by omega
  have hc : (q * 2048 + d * 512 + l * 16 + c) % 16 = c := by omega
  rw [lfsrOf, show SMap.get 0 State.reset.lfsr _ = 0 from SMap.get_nil _ _]
  rw [if_pos rfl, lfsrReset, pkgOf, hq, hd, hl, hc]

theorem clusterSt_reset (cl : Nat) : clusterSt State.reset cl = {} := rfl

theorem trctlWord_default : trctlWord {} = 0 := by decide

/-- Settles O53: after reset every map is empty, and each read of one gives its default. -/
theorem resetState : Obligations.ResetState := by
  refine ⟨rfl, rfl, fun _ => rfl, fun _ _ => rfl, fun _ => rfl, poisoned_reset, ?_, fun _ => ⟨trctlWord_default, fun _ => rfl⟩, fun _ _ => rfl,
    fun _ _ => rfl, fun _ => rfl, rfl, rfl⟩
  intro q d l c k hd hl hc _
  exact lfsrOf_reset hd hl hc

/-- Settles O55: each word decoded. -/
theorem wordsOfTheSpecDecode : Obligations.WordsOfTheSpecDecode := by
  unfold Obligations.WordsOfTheSpecDecode
  and_intros
  all_goals decide +kernel

/-! A context whose next issue is to go on at a place of its own (`Ctx.after`, which an engine's operation that is to be issued
again keeps where its pair went on two words further): the statement of O54 leaves that place out. -/

open Sys2Proof.Tests in
/-- The machine of the tests that issues an ADD, its context to go on at `0x20000` after it. -/
def goesOn : State := modCtx (ready addWord) 2 fun x => { x with after := some 0x20000 }

open Sys2Proof.Tests in
def goesOnV : State := { advance goesOn with sched := [] }

open Sys2Proof.Tests in
def goesOnCtx : Ctx := { x0 with after := some 0x20000 }

open Sys2Proof.Tests in
/-- The issue that O54 gives the ADD: the next instruction is the next word. -/
def goesOnIssue : State :=
  startIssue (noteIssue (modCtx (modSlot goesOnV 0 0 fun y => { y with fetch := .idle }) 2 fun y => { y with entry := false }) 0 0 2)
    0 0 0x10000 (pcNext 0x10000) addWord

/-- Where the context of frame 2 goes on. -/
def pcAfter : Host.Outcome State Fault Refusal → Option Word
  | .next t => some (ctxPc t 2)
  | _ => none

/-- What the step gives where an issue has left `r` (the last premise of O54). -/
def goesOnRun (r : State) : Host.Outcome State Fault Refusal :=
  if hasIssued goesOnV r 0 0 = true then .next r else tryIssue 0 [] (keepPlace goesOnV r 0)

theorem step_goesOn : pcAfter (step goesOn) = some 0x20000 := by decide +kernel

open Sys2Proof.Tests in
theorem execBoth_goesOnIssue : ∃ a, execBoth addWord goesOnIssue = .next a ∧ pcAfter (goesOnRun a) = some 0x10001 := by
  have h : (match execBoth addWord goesOnIssue with
    | .next a => pcAfter (goesOnRun a)
    | _ => none) = some 0x10001 := by decide +kernel
  cases ha : execBoth addWord goesOnIssue with
  | next a => rw [ha] at h; exact ⟨a, rfl, h⟩
  | fault r => rw [ha] at h; cases h
  | refused r => rw [ha] at h; cases h

open Sys2Proof.Tests in
/-- Refutes O54: an ADD whose context is to go on at `0x20000` goes on there, and not at the next word. -/
theorem not_stepRunsDecodedInstruction : ¬ Obligations.StepRunsDecodedInstruction := by
  intro h
  obtain ⟨a, ha, hpc⟩ := execBoth_goesOnIssue
  have hstep := (((h.1 goesOn goesOnV goesOnIssue 0 0 2 codeLine [] goesOnCtx [] (lineWith addWord 0) 0x10000 addWord false goesOnRun
    (by decide +kernel) (by decide +kernel) rfl (by decide +kernel) (by decide +kernel) (by decide +kernel) (by decide +kernel)
    (by decide +kernel) (by decide +kernel) (by decide +kernel) (by decide +kernel) (by decide +kernel) (by decide +kernel)
    (by decide +kernel) (by decide +kernel) (by decide +kernel) (by decide +kernel) (by decide +kernel) rfl rfl).1 a ha).1) rfl
  have := step_goesOn
  rw [hstep, hpc] at this
  exact absurd this (by decide)

end Sys2Proof.Machine

namespace Sys2Proof.Machine

/-! The thread engine's arithmetic, logic, fields and moves (O1, O2, O5). -/

section
variable {i : Instr} {w : RWord} {h : Hdr} {specs : List (BitVec 8)} {s : State} {f : Nat}

theorem canIssue_legal (hc : canIssue i h specs s f = true) : legal i = true := by
  simp only [canIssue, mayIssue, issues, Bool.and_eq_true] at hc
  exact hc.1.1.2

/-- The short integer form of a context that can issue (R143). -/
theorem intOp_sets {g : Int → Int → Int} (he : exec i s = intOp i w s g) (hc : canIssue i w.hdr [w.a, w.b] s f = true) :
    SetsReg i w.hdr w.d
      (putSat (qSat w.qual) (tyOf w.hdr) (g (val s f (tyOf w.hdr) w.a w.imm) (val s f (tyOf w.hdr) w.b w.imm))) s f :=
  setsReg_of_withIssue (v := fun f s => putSat (qSat w.qual) (tyOf w.hdr) (g (val s f _ _ _) (val s f _ _ _))) he hc

/-- The form on the low bits of both sources (R146). -/
theorem bitsOp_sets {g : Nat → Nat → Nat → Int} (he : exec i s = bitsOp i w s g)
    (hc : canIssue i w.hdr [w.a, w.b] s f = true) :
    SetsReg i w.hdr w.d (putVal (tyOf w.hdr) (g (tyWidth (tyOf w.hdr)) (src s f w.a w.imm % 2 ^ tyWidth (tyOf w.hdr))
      (src s f w.b w.imm))) s f :=
  setsReg_of_withIssue (v := fun f s => putVal (tyOf w.hdr) (g _ (src s f _ _ % _) (src s f _ _))) he hc

/-- The count and reversal form (R148). -/
theorem countOp_sets {g : Nat → Nat → Nat} (he : exec i s = countOp i w s g) (hc : canIssue i w.hdr [w.a] s f = true) :
    SetsReg i w.hdr w.d (g (tyWidth (tyOf w.hdr)) (readReg s f w.a % 2 ^ tyWidth (tyOf w.hdr))) s f :=
  setsReg_of_withIssue (v := fun f s => g _ (readReg s f _ % _)) he hc

/-- An instruction whose long result is fixed at issue, of a context that can issue and has a free entry. -/
theorem sendsResult_of_withIssue {d : BitVec 8} {v : Nat → State → Nat}
    (he : exec i s = withIssue i h specs s fun f s => finishLong h d (v f s) f s)
    (hc : canIssue i h specs s f = true) (hf : (freeEntry s f).isSome = true) :
    SendsResult i h d 0 [regWrite d (v f s)] [] s s f := by
  obtain ⟨e, hf⟩ := Option.isSome_iff_exists.mp hf
  exact finishLong_sends (canIssue_bound hc) hf (he.trans (withIssue_next hc))

/-- A form without `.sat` is put with wrap (R68, R143). -/
theorem putSat_of_okInt (h : okInt w false = true) (t : Nat) (y : Int) : putSat (qSat w.qual) t y = putVal t y := by
  obtain ⟨-, -, hq, -⟩ := okR_iff.mp h
  obtain ⟨-, hsat, -⟩ := okA_iff.mp hq
  rw [hsat.resolve_left Bool.false_ne_true]
  rfl

end

/-- Settles O1: each form's one write, or its long result, is of the value that R143 and R144 give. -/
theorem integerArithmetic : Obligations.IntegerArithmetic := by
  constructor
  · rintro w s f A B t rfl rfl rfl
    refine ⟨intOp_sets (g := (· + ·)) rfl, intOp_sets (g := (· - ·)) rfl, intOp_sets (g := (· * ·)) rfl, ?_, ?_, ?_⟩
    · intro hc
      rw [← putSat_of_okInt (canIssue_legal hc)]
      exact intOp_sets (g := fun a b => a * b / 2 ^ tyWidth (tyOf w.hdr)) rfl hc
    · intro hc
      rw [← putSat_of_okInt (canIssue_legal hc), min_def]
      exact intOp_sets (g := fun a b => if a ≤ b then a else b) rfl hc
    · intro hc
      rw [← putSat_of_okInt (canIssue_legal hc), max_comm, max_def]
      exact intOp_sets (g := fun a b => if b ≤ a then a else b) rfl hc
  · rintro w s f A B q t rfl rfl rfl rfl hf
    exact ⟨fun hc => sendsResult_of_withIssue (v := fun f s => putSat (qSat w.qual) (tyOf w.hdr)
        (divQ (tyOf w.hdr) (val s f (tyOf w.hdr) w.a w.imm) (val s f (tyOf w.hdr) w.b w.imm))) rfl hc hf,
      fun hc => sendsResult_of_withIssue (v := fun f s => putVal (tyOf w.hdr)
        (divR (tyOf w.hdr) (val s f (tyOf w.hdr) w.a w.imm) (val s f (tyOf w.hdr) w.b w.imm))) rfl hc hf⟩

/-! Bits of the functions of R146 to R148. -/

/-- R146: a rotation left by `n` within `m` bits. -/
theorem testBit_rotl {m x n k : Nat} (hx : x < 2 ^ m) (hn : n < m) (hk : k < m) :
    (rotl m x n).testBit k = x.testBit ((k + m - n) % m) := by
  rw [rotl, Nat.testBit_mod_two_pow, Nat.testBit_or, Nat.testBit_shiftLeft, Nat.testBit_shiftRight, decide_eq_true hk,
    Bool.true_and]
  by_cases h : n ≤ k
  · rw [show (k + m - n) % m = k - n by rw [show k + m - n = k - n + m by omega, Nat.add_mod_right, Nat.mod_eq_of_lt (by omega)],
      decide_eq_true h, Bool.true_and,
      Nat.testBit_eq_false_of_lt (lt_of_lt_of_le hx (Nat.pow_le_pow_right (by decide) (by omega : m ≤ m - n + k))),
      Bool.or_false]
  · rw [Nat.mod_eq_of_lt (show k + m - n < m by omega), decide_eq_false h, Bool.false_and, Bool.false_or, show m - n + k = k + m - n by omega]

/-- R148: the leading zeros of `n` bits. -/
theorem clz_spec (n x : Nat) : clz n x ≤ n ∧ (∀ k, n - clz n x ≤ k → k < n → x.testBit k = false) ∧
    (clz n x < n → x.testBit (n - 1 - clz n x) = true) := by
  induction n with
  | zero => exact ⟨le_rfl, fun k _ hk => absurd hk (Nat.not_lt_zero k), fun h => absurd h (Nat.not_lt_zero _)⟩
  | succ n ih =>
    obtain ⟨hle, hzero, hone⟩ := ih
    rw [clz]
    split
    · next hb => exact ⟨by omega, fun k h1 h2 => by omega, fun _ => hb⟩
    · next hb =>
      refine ⟨by omega, fun k h1 h2 => ?_, fun h => ?_⟩
      · rcases Nat.lt_succ_iff_lt_or_eq.mp h2 with h | rfl
        · exact hzero k (by omega) h
        · exact Bool.eq_false_iff.mpr hb
      · rw [show n + 1 - 1 - (clz n x + 1) = n - 1 - clz n x by omega]
        exact hone (by omega)

/-- R148: the trailing zeros from bit `i` on. -/
theorem ctzFrom_spec {x n : Nat} : ∀ m i, i + m = n → i ≤ ctzFrom x n m i ∧ ctzFrom x n m i ≤ n ∧
    (∀ k, i ≤ k → k < ctzFrom x n m i → x.testBit k = false) ∧ (ctzFrom x n m i < n → x.testBit (ctzFrom x n m i) = true)
  | 0, i, h => ⟨by rw [ctzFrom]; omega, le_rfl, fun k h1 h2 => by rw [ctzFrom] at h2; omega,
      fun h => absurd h (lt_irrefl n)⟩
  | m + 1, i, h => by
    rw [ctzFrom]
    split
    · next hb => exact ⟨le_rfl, by omega, fun k h1 h2 => by omega, fun _ => hb⟩
    · next hb =>
      obtain ⟨hge, hle, hzero, hone⟩ := ctzFrom_spec (x := x) (n := n) m (i + 1) (by omega)
      refine ⟨by omega, hle, fun k h1 h2 => ?_, hone⟩
      rcases Nat.eq_or_lt_of_le h1 with rfl | h1
      · exact Bool.eq_false_iff.mpr hb
      · exact hzero k h1 h2

/-- R148: the ones among `n` bits. -/
theorem popcount_eq_countP (n x : Nat) : popcount n x = (List.range n).countP x.testBit := by
  induction n generalizing x with
  | zero => rfl
  | succ n ih =>
    rw [popcount, ih, List.range_succ_eq_map, List.countP_cons, List.countP_map, add_comm]
    congr 1
    · congr 1
      funext k
      exact (Nat.testBit_succ x k).symm
    · rw [Nat.testBit_zero]
      rcases Nat.mod_two_eq_zero_or_one x with h | h <;> simp [h]

/-- R148: `n` bits reversed. -/
theorem brev_spec (n x : Nat) : brev n x < 2 ^ n ∧ ∀ k, k < n → (brev n x).testBit k = x.testBit (n - 1 - k) := by
  induction n generalizing x with
  | zero => exact ⟨Nat.one_pos, fun k hk => absurd hk (Nat.not_lt_zero k)⟩
  | succ n ih =>
    obtain ⟨hlt, hbit⟩ := ih (x / 2)
    have hb : x % 2 < 2 := Nat.mod_lt _ (by decide)
    rw [brev, mul_comm]
    constructor
    · calc 2 ^ n * (x % 2) + brev n (x / 2) < 2 ^ n * (x % 2) + 2 ^ n := Nat.add_lt_add_left hlt _
        _ ≤ 2 ^ (n + 1) := by rw [pow_succ]; nlinarith [Nat.lt_succ_iff.mp hb, Nat.two_pow_pos n]
    · intro k hk
      rw [Nat.testBit_two_pow_mul_add _ hlt]
      by_cases h : k < n
      · rw [if_pos h, hbit k h, show n + 1 - 1 - k = n - 1 - k + 1 by omega, Nat.testBit_succ]
      · rw [if_neg h, show k - n = 0 by omega, show n + 1 - 1 - k = 0 by omega, Nat.testBit_zero, Nat.testBit_zero, Nat.mod_mod]

theorem sextInt_toNat (x : BitVec 32) : sextInt 32 x.toNat = x.toInt := by
  have hlt : x.toNat % 2 ^ 32 = x.toNat := Nat.mod_eq_of_lt x.isLt
  rw [sextInt, hlt, BitVec.toInt_eq_msb_cond, BitVec.msb_eq_getLsbD_last]
  simp only [bitOf, BitVec.testBit_toNat, Nat.reduceSub, Nat.zero_lt_succ, decide_true, Bool.and_true]

theorem lowBits_eq_n64 (y : Int) : lowBits 64 y = (n64 y).toNat := (BitVec.toNat_ofInt y).symm

/-- Settles O2: each form's one write is of the value, or has the bits, that R145 to R148 give. -/
theorem logicShiftsAndFields : Obligations.LogicShiftsAndFields := by
  constructor
  · rintro w s f t A B n rfl rfl rfl rfl
    refine ⟨bitsOp_sets (g := fun n a b => ((a &&& b % 2 ^ n : Nat) : Int)) rfl,
      bitsOp_sets (g := fun n a b => ((a ||| b % 2 ^ n : Nat) : Int)) rfl,
      bitsOp_sets (g := fun n a b => ((a ^^^ b % 2 ^ n : Nat) : Int)) rfl,
      bitsOp_sets (g := fun n a b => ((a &&& ((2 ^ n - 1) ^^^ b % 2 ^ n) : Nat) : Int)) rfl,
      bitsOp_sets (g := fun n a b => ((a * 2 ^ shiftCount n b : Nat) : Int)) rfl,
      bitsOp_sets (g := fun n a b => ((a / 2 ^ shiftCount n b : Nat) : Int)) rfl,
      bitsOp_sets (g := fun n a b => sextInt n a / 2 ^ shiftCount n b) rfl,
      fun hc => ⟨_, bitsOp_sets (g := fun n a b => ((rotl n a (shiftCount n b) : Nat) : Int)) rfl hc,
        Nat.mod_lt _ (by positivity), fun k hk => ?_⟩⟩
    exact testBit_rotl (Nat.mod_lt _ (by positivity)) (Nat.mod_lt _ (by omega)) hk
  · rintro w s f t A B x pos len rfl rfl rfl rfl rfl rfl
    have hlt : ∀ k, tyWidth (tyOf w.hdr) ≤ k → (readReg s f w.a % 2 ^ tyWidth (tyOf w.hdr)).testBit k = false := fun k hk => by
      rw [Nat.testBit_mod_two_pow, decide_eq_false (by omega), Bool.false_and]
    refine ⟨fun hc => ?_, fun hc => ?_, fun hc => ?_, fun hc => ?_, fun hc => ?_, fun hc => ?_, fun hc => ?_⟩
    · rw [← lowBits_eq_n64, ← sextInt_toNat]
      have hset := setsReg_of_withIssue (v := fun f s => lowBits 64 (((readReg s f w.a + readReg s f w.b * 2 ^ qExtra w.qual : Nat)
        : Int) + sextInt 32 w.imm.toNat)) rfl hc
      rwa [Nat.cast_add, Nat.cast_mul, Nat.cast_pow] at hset
    · rw [bitsOf, Nat.shiftRight_eq_div_pow, show fld w.imm 5 0 + (fld w.imm 13 8 + 1) - 1 + 1 - fld w.imm 5 0 = fieldLen w by
        rw [fieldLen]; omega]
      exact setsReg_of_withIssue (v := fun f s => if tySigned (tyOf w.hdr) then lowBits 64 (sextInt (fieldLen w)
        (readReg s f w.a / 2 ^ fieldPos w % 2 ^ fieldLen w)) else readReg s f w.a / 2 ^ fieldPos w % 2 ^ fieldLen w) rfl hc
    · refine ⟨_, setsReg_of_withIssue (v := fun f s => putBits (readReg s f w.a) (fieldPos w + fieldLen w - 1) (fieldPos w)
        (readReg s f w.b)) rfl hc, fun k => ?_⟩
      rw [testBit_putBits _ _ _ _ _ (by omega)]
      refine if_congr ?_ rfl rfl
      rw [fieldLen, fieldPos]
      omega
    · obtain ⟨hle, hzero, hone⟩ := clz_spec (tyWidth (tyOf w.hdr)) (readReg s f w.a % 2 ^ tyWidth (tyOf w.hdr))
      refine ⟨_, countOp_sets (g := clz) rfl hc, hle, fun k hk => ?_, fun h => ?_⟩
      · rcases Nat.lt_or_ge k (tyWidth (tyOf w.hdr)) with h | h
        · exact hzero k hk h
        · exact hlt k h
      · exact hone h
    · obtain ⟨-, hle, hzero, hone⟩ := ctzFrom_spec (x := readReg s f w.a % 2 ^ tyWidth (tyOf w.hdr)) (tyWidth (tyOf w.hdr)) 0
        (Nat.zero_add _)
      exact ⟨_, countOp_sets (g := ctz) rfl hc, hle, fun k => hzero k (Nat.zero_le k), hone⟩
    · rw [← popcount_eq_countP]
      exact countOp_sets (g := popcount) rfl hc
    · obtain ⟨hb, hbit⟩ := brev_spec (tyWidth (tyOf w.hdr)) (readReg s f w.a % 2 ^ tyWidth (tyOf w.hdr))
      refine ⟨_, countOp_sets (g := brev) rfl hc, hb, fun k hk => ?_⟩
      exact hbit k hk

/-! Moves (R151 to R153). -/

/-- A field of a packed list. -/
theorem bitsOf_packBits {w : Nat} (hw : 0 < w) : ∀ (l : List Nat) (k : Nat),
    bitsOf (packBits w l) (w * k + (w - 1)) (w * k) = l.getD k 0 % 2 ^ w
  | [], k => by simp [packBits, bitsOf]
  | x :: t, k => by
    have e : w * k + (w - 1) + 1 - w * k = w := by omega
    have hx : x % 2 ^ w < 2 ^ w := Nat.mod_lt _ (by positivity)
    cases k with
    | zero => rw [bitsOf, packBits, e, Nat.mul_zero, Nat.shiftRight_zero, Nat.add_mul_mod_self_left, Nat.mod_mod]; rfl
    | succ k =>
      have ih := bitsOf_packBits hw t k
      rw [bitsOf, show w * k + (w - 1) + 1 - w * k = w by omega] at ih
      rw [bitsOf, e, packBits, Nat.mul_succ, Nat.add_comm (w * k) w, Nat.shiftRight_add, Nat.shiftRight_eq_div_pow _ w,
        Nat.add_mul_div_left _ _ (by positivity), Nat.div_eq_of_lt hx, Nat.zero_add, ih]
      rfl

theorem not_isV_of_isG {d : BitVec 8} (h : isG d = true) : isV d = false := by
  rw [isG, beq_iff_eq] at h
  rw [isV, h]
  rfl

/-- R153, bit by bit. -/
theorem testBit_predLog (fn a b : Nat) {k : Nat} (hk : k < 128) : (predLog fn a b).testBit k =
    match fn with
    | 0 => a.testBit k && b.testBit k
    | 1 => a.testBit k || b.testBit k
    | 2 => a.testBit k ^^ b.testBit k
    | _ => a.testBit k && !b.testBit k := by
  match fn with
  | 0 => exact Nat.testBit_and ..
  | 1 => exact Nat.testBit_or ..
  | 2 => exact Nat.testBit_xor ..
  | _ + 3 =>
    show (a &&& ((2 ^ 128 - 1) ^^^ b)).testBit k = _
    rw [Nat.testBit_and, Nat.testBit_xor, Nat.testBit_two_pow_sub_one, decide_eq_true hk, Bool.true_xor]
    rfl

/-- The immediate in every 64-bit part of a vector register (R152). -/
theorem bitsOf_packBits_replicate (v : Word) {k : Nat} (hk : k < 16) :
    bitsOf (packBits 64 (List.replicate 16 v.toNat)) (64 * k + 63) (64 * k) = v.toNat := by
  rw [bitsOf_packBits (w := 64) (by decide), List.getD_replicate (h := hk)]
  exact Nat.mod_eq_of_lt v.isLt

/-- Settles O5: the one register that each writes, part by part and bit by bit. -/
theorem movesAndPredicateLogic : Obligations.MovesAndPredicateLogic := by
  intro w l s f
  have hmovi : canIssue (.movi l) l.hdr [] s f = true →
      SetsReg (.movi l) l.hdr l.d (if isV l.d then packBits 64 (List.replicate 16 l.imm.toNat) else l.imm.toNat) s f := fun hc =>
    setsReg_of_withIssue (v := fun _ _ => if isV l.d then packBits 64 (List.replicate 16 l.imm.toNat) else l.imm.toNat) rfl hc
  refine ⟨fun hc => setsReg_of_withIssue (v := fun f s => src s f w.a w.imm) rfl hc, fun hc hg => ?_, fun hc hv => ?_, fun hc => ?_⟩
  · have := hmovi hc
    rwa [not_isV_of_isG hg, if_neg Bool.false_ne_true] at this
  · have := hmovi hc
    rw [if_pos hv] at this
    exact ⟨_, this, fun k hk => bitsOf_packBits_replicate l.imm hk⟩
  · exact ⟨_, setsReg_of_withIssue (v := fun f s => predLog (fnOf w.hdr) (readReg s f w.a) (readReg s f w.b)) rfl hc,
      fun k hk => testBit_predLog _ _ _ hk⟩

end Sys2Proof.Machine

namespace Sys2Proof.Refutations
/-! A fault message names its context (R133). `Escalated` takes the name from the frame's
`sys.ctxid`; the model posts the identity that the core keeps for a context whose frame a scrub has cleared (log 75). A
context that has been scrubbed and whose frame has since been written tells the two apart. -/

open Sys2Proof.Machine Sys2Proof.Tests

-- one proof at a time: those that wait for the kernel to evaluate a state would each hold a thread
set_option Elab.async false

/-- `s` with its context known to the core by another identity than its frame says (log 75). -/
def renamed (s : State) (id : Word := 7) : State := ctx s fun x => { x with kept := some (id, 0) }

/-- The context of frame 2 of the tests, known by another identity. -/
def renamedCtx (id : Word := 7) : Ctx := { x0 with kept := some (id, 0) }

/-- The names of the contexts in the mail of an outcome. -/
def mailIds : Out → List Word
  | .next t => t.mail.map Mail.ctxid
  | _ => []

theorem escalated_mailIds {s t : State} {f : Nat} {tr : TrapInfo} (h : Escalated s t f tr) :
    t.mail.map Mail.ctxid = s.mail.map Mail.ctxid ++ [readFrame s f wCtxid] := by
  rw [h.mail]; simp

/-- A trap that escalates under another name than the frame's is not the trap that `Traps` describes. -/
theorem not_traps_of_mailIds {i : Instr} {code cause : Nat} {addr : Word} {s : State} {f : Nat}
    (hd : delivered s f (exactTrap s code cause addr) = false)
    (hm : mailIds (exec i s) ≠ s.mail.map Mail.ctxid ++ [readFrame s f wCtxid]) : ¬ Traps i code cause addr s f := by
  rintro ⟨t, ht, -, -, hesc⟩
  rw [ht] at hm
  exact hm (escalated_mailIds (hesc hd))

/-- Refutes O7: a TRAP of a context known by the identity 7 escalates under that name. -/
theorem not_trapsAreRaised : ¬ Obligations.TrapsAreRaised := fun h =>
  not_traps_of_mailIds (by decide +kernel) (by decide +kernel)
    (h.2.2.1 (rr 0 0 0 0 0 255) (renamed base) 2 (by decide +kernel) (by decide +kernel))

/-- Refutes O8: TRET with inh clear, of a context known by another identity. -/
theorem not_trapReturn : ¬ Obligations.TrapReturn := fun h =>
  not_traps_of_mailIds (by decide +kernel) (by decide +kernel)
    ((h (rr 0 0 0 0) (renamed base) 2 renamedCtx _ (by decide +kernel) (by decide +kernel) rfl).2.1
      (by decide +kernel) (by decide +kernel))

/-- Refutes O12: a load through a segment that is not valid, of a context known by another identity. -/
theorem not_segmentChecks : ¬ Obligations.SegmentChecks := fun h =>
  not_traps_of_mailIds (by decide +kernel) (by decide +kernel)
    ((h.2 (mm 4 5 4 0) (renamed base) 2 8 1 renamedCtx _ 0 (by decide +kernel) rfl (by decide +kernel) (by decide +kernel)).1
      (by unfold reachesCheck; decide +kernel) (by decide +kernel))

/-- Refutes O19: a task reads a trace register, of a context known by another identity. -/
theorem not_systemRegisterReads : ¬ Obligations.SystemRegisterReads := by
  intro h
  obtain ⟨-, hreads⟩ := h (rr 0 5 0 0 0 32) (renamed base) 2 32 renamedCtx (by decide +kernel) (by decide +kernel)
  obtain ⟨-, -, -, -, -, -, -, -, -, -, -, htrap⟩ := hreads (by decide +kernel) (by decide +kernel)
  exact not_traps_of_mailIds (by decide +kernel) (by decide +kernel) (htrap (by decide) (by decide +kernel) (by decide +kernel))

/-- Refutes O20: a task writes a read-only register, of a context known by another identity. -/
theorem not_systemRegisterWrites : ¬ Obligations.SystemRegisterWrites := by
  intro h
  obtain ⟨-, -, -, -, htrap⟩ := (h (rr 0 0 3 0 0 4) (renamed base) 2 4 renamedCtx _ (by decide +kernel) (by decide +kernel) rfl).1
    (by decide +kernel)
  exact not_traps_of_mailIds (by decide +kernel) (by decide +kernel) (htrap (by decide) (by decide +kernel))

/-- A segment that its context may not make (R175). -/
def wideSegment : State := reg (reg (renamed base) 4 0x40001) 5 0x0100003F

/-- Refutes O21: SEGSET of a segment that is no subset of one held, in a context known by another identity. -/
theorem not_segmentRegistersAndServiceCalls : ¬ Obligations.SegmentRegistersAndServiceCalls := fun h =>
  not_traps_of_mailIds (by decide +kernel) (by decide +kernel)
    (((h.1 (rr 0 0xC4 3 4 5) wideSegment 2 _ _ (readSeg base 2 0)).2 (by decide +kernel) rfl rfl).2 (by decide +kernel) (by decide +kernel)
      (by decide +kernel) (by decide +kernel))

/-- Refutes O22: a task asks TLBQ, in a context known by another identity. -/
theorem not_translationMaintenanceAndMisses : ¬ Obligations.TranslationMaintenanceAndMisses := fun h =>
  not_traps_of_mailIds (by decide +kernel) (by decide +kernel)
    (((h.1 (rr 0 5 3 0) (renamed base) 2 0 renamedCtx (by decide +kernel)).2 (by decide +kernel)).1 (by decide +kernel)
      (by decide +kernel))

/-- Refutes O23: SEND to a malformed coordinate, from a context known by another identity. -/
theorem not_messagesLeave : ¬ Obligations.MessagesLeave := by
  intro h
  obtain ⟨-, htraps⟩ := h (rr 0 0x82 3 0x43 5 0x14) (renamed base) 2 0 _ renamedCtx _ (by decide +kernel) rfl (by decide +kernel) rfl
  obtain ⟨hsend, -, -⟩ := htraps (by decide +kernel)
  exact not_traps_of_mailIds (by decide +kernel) (by decide +kernel) ((hsend (by decide +kernel)).1 (by decide +kernel))

/-- Refutes O24: REPLY without a caller, from a context known by another identity. -/
theorem not_messagesAreReceivedAndAnswered : ¬ Obligations.MessagesAreReceivedAndAnswered := fun h =>
  not_traps_of_mailIds (by decide +kernel) (by decide +kernel)
    ((h.1 (rr 0 0 0xFF 0 0 9) (renamed base) 2 0 renamedCtx 0 0 (by decide +kernel) (by decide +kernel)).2.1 (by decide +kernel)
      (by decide +kernel))

/-- A barrier of which the context known by another identity is no member. -/
def othersBarrier : State := renamed (barrier { mask := { all := false, cores := 2 } })

/-- Refutes O25: ARRIVE of no member, from a context known by another identity. -/
theorem not_barriers : ¬ Obligations.Barriers := fun h =>
  not_traps_of_mailIds (by decide +kernel) (by decide +kernel)
    (((h.1 imm1 othersBarrier _ 2 _ renamedCtx _ _ 0 (by decide +kernel) rfl rfl rfl (by decide +kernel) (by decide +kernel)
      rfl).1 (by decide +kernel)).1 (by decide +kernel) (by decide +kernel))

/-- Refutes O26: BMASK with a bit its level does not use, from a context known by another identity. -/
theorem not_masksAndTags : ¬ Obligations.MasksAndTags := fun h =>
  not_traps_of_mailIds (by decide +kernel) (by decide +kernel)
    (((h (rr 0 0 3 0 0 1) (renamed (reg base 3 0x10000)) 2 _ 0 renamedCtx _ _ (by decide +kernel) rfl rfl rfl).1
      (by decide +kernel)).1 (by decide +kernel) (by decide +kernel))

/-- Refutes O27: MCST to an address that is no multicast address, from a context known by another identity. -/
theorem not_remoteStoreInstructions : ¬ Obligations.RemoteStoreInstructions := fun h =>
  not_traps_of_mailIds (by decide +kernel) (by decide +kernel)
    (((h (rr 8 0x82 3 0x41 4) (renamed base) 2 _ _ _ 0 0 renamedCtx {} (by decide +kernel)).2.1 (by decide +kernel) rfl rfl
      rfl).1 (by decide +kernel) (by decide +kernel))

/-- A context known by another identity whose trap waits for its results. -/
def trapWaits : State := ctx base fun x => { x with trap := some (exactTrap base 0x0A 9 0), kept := some (7, 0) }

/-- Refutes O28: a trap that waited escalates from a context known by another identity. -/
theorem not_resultsLandThenTraps : ¬ Obligations.ResultsLandThenTraps := by
  intro h
  obtain ⟨t, ht, -, hesc⟩ := h.2.2 trapWaits 0 0 2 { renamedCtx with trap := some (exactTrap base 0x0A 9 0) }
    (exactTrap base 0x0A 9 0) (by decide +kernel) (by decide +kernel) (by decide +kernel) rfl rfl (by decide +kernel) rfl
    (by decide +kernel)
  have hm : mailIds (exec (.trapEntry 0 0) trapWaits) ≠ trapWaits.mail.map Mail.ctxid ++ [readFrame trapWaits 2 wCtxid] := by
    decide +kernel
  rw [ht] at hm
  exact hm (escalated_mailIds (hesc (by decide +kernel)))

/-- Refutes O37: a vector load of a context known by another identity, whose first lane is outside its segment. -/
theorem not_vectorMemory : ¬ Obligations.VectorMemory := by
  intro h
  obtain ⟨hlds, -⟩ := h (mm 3 0x45 4 8) (renamed base) 2 _ 0 renamedCtx _ (fun l => memOff (renamed base) 2 (mm 3 0x45 4 8) + (l * 4 : Nat))
    _ [] rfl rfl (by decide +kernel) (by decide +kernel) rfl (by decide +kernel)
  obtain ⟨hld, -⟩ := hlds fun _ => rfl
  obtain ⟨-, -, -, htrap⟩ := hld (by decide +kernel)
  exact not_traps_of_mailIds (by decide +kernel) (by decide +kernel) (htrap 1 8 (by decide +kernel) (by decide +kernel))

/-- Refutes O38: MZERO from a slot that is not bound, of a context known by another identity. -/
theorem not_matrixInstructions : ¬ Obligations.MatrixInstructions := by
  intro h
  obtain ⟨hunbound, -⟩ := h.1 (rr 0 0 0 0 0 0xFF) (renamed unboundEngines) _ _ 2 0 0 _ renamedCtx (by decide +kernel)
    (by decide +kernel) (by decide +kernel) (by decide +kernel) rfl rfl (by decide +kernel) rfl
  exact not_traps_of_mailIds (by decide +kernel) (by decide +kernel)
    (hunbound (by decide +kernel) (by decide +kernel) (.mzero (rr 0 0 0 0 0 0xFF)) (.inl (by simp)) (by decide +kernel))

/-- Refutes O41: CSWZ from a slot that is not bound, of a context known by another identity. -/
theorem not_copyCommands : ¬ Obligations.CopyCommands := by
  intro h
  obtain ⟨-, -, -, -, -, hswz, -⟩ := h.1 (rr 0 0 3 0) (renamed unboundEngines) 2 _ renamedCtx _ (by decide +kernel) rfl rfl
  obtain ⟨hunbound, -⟩ := hswz (by decide +kernel)
  exact not_traps_of_mailIds (by decide +kernel) (by decide +kernel) (hunbound (by decide +kernel) (by decide +kernel))

/-- Refutes O43: SECPIN at task privilege, from a context known by another identity. -/
theorem not_sliceInstructions : ¬ Obligations.SliceInstructions := by
  intro h
  obtain ⟨-, -, -, -, -, -, htask, -⟩ := h (pinOp 0) (renamed paged) paged _ 2 _ 0 _ 0 renamedCtx _ _ _ [] _ (by decide +kernel) rfl rfl
    rfl rfl (by decide +kernel) rfl rfl rfl
  obtain ⟨hpin, -⟩ := htask (by decide +kernel) (by decide +kernel)
  exact not_traps_of_mailIds (by decide +kernel) (by decide +kernel) (hpin (by decide +kernel))

/-- Refutes O44: CAPRECV outside the service, from a context known by another identity. -/
theorem not_capsulesAreReceivedAndSent : ¬ Obligations.CapsulesAreReceivedAndSent := by
  intro h
  obtain ⟨hrecv, -⟩ := h capRecv (renamed base) 2 0 0 renamedCtx capsule [] [] .held [] (by decide +kernel)
  obtain ⟨houtside, -⟩ := hrecv (by decide +kernel)
  exact not_traps_of_mailIds (by decide +kernel) (by decide +kernel) (houtside (by decide +kernel) (by decide +kernel))

/-- The identity of another service context of class 2, which the core keeps. -/
def otherService : Word := ctxidWord 1 5 2 2

/-- Refutes O45: CAPDROP without a capsule, from a service context known by another identity. -/
theorem not_currentCapsule : ¬ Obligations.CurrentCapsule := by
  intro h
  obtain ⟨hnone, -⟩ := h (rr 0 0 0 0 0 0 0 1) (renamed (service base 2) otherService) 2 _ _ _ (renamedCtx otherService) capsule _ [] _
    (by decide +kernel) (by decide +kernel) rfl rfl rfl rfl rfl
  obtain ⟨-, -, -, -, -, hdrop⟩ := hnone rfl (by decide +kernel)
  exact not_traps_of_mailIds (by decide +kernel) (by decide +kernel) (hdrop (by decide +kernel))

/-- Refutes O46: EXEVICT outside the service, from a context known by another identity. -/
theorem not_expertInstructions : ¬ Obligations.ExpertInstructions := by
  intro h
  obtain ⟨-, -, -, houtside, -⟩ := h.2 (exr 1) (renamed base) 2 0 0 _ _ renamedCtx _ _ {} _ (by decide +kernel) (by decide +kernel)
    (by decide +kernel) rfl (fun _ _ => rfl) rfl rfl rfl rfl
  obtain ⟨-, hevict, -⟩ := houtside (by decide +kernel) (by decide +kernel) (by decide +kernel)
  exact not_traps_of_mailIds (by decide +kernel) (by decide +kernel) (hevict (by decide +kernel))

end Sys2Proof.Refutations

namespace Sys2Proof.Laws
/-! Control transfer (R53, R154, R155) and the end of an issue that does nothing else (R56, R158, R161, R162). -/

open Sys2Proof.Machine

section
variable {s t : State} {f : Nat} {T : Word} {h : Hdr} {ws : Nat → Prop}

theorem banked_setNext (b : Banked s t f ws) : Banked (setNext s T) (setNext t T) f ws :=
  ⟨by rw [setNext, b.rest]; rfl, b.core, b.slot, b.kept, b.twin, b.others, b.marks⟩

theorem wrote_of_setNext (w : Wrote (setNext s T) t f h ws) : Wrote s t f h ws :=
  ⟨w.rest, w.core, w.slot, w.marks, w.kept, w.others, w.ctx, w.ctxs⟩

/-- A jump to a legal entry writes its link and goes there. -/
theorem jumpTo_jumps {i : Instr} {d : BitVec 8} (hb : bound s f = true) (he : exec i s = .next (jumpTo h d T f s))
    (hl : entryCheck s f T = .legal) : JumpsTo i h d s.iss.next.toNat T s f := by
  obtain ⟨b, hreg⟩ := writeReg_spec hb d s.iss.next.toNat
  have hpc : ¬ regHas d wPc := by
    have := regWords_bound d
    simp only [regHas, wPc]
    omega
  obtain ⟨w, -, hall⟩ := finish_wrote (h := h) (s := setNext s T) hb (banked_setNext b)
  obtain ⟨hat, hread⟩ := hall f (.inl rfl)
  refine ⟨_, by rw [he, jumpTo, hl], wrote_of_setNext w, ?_, hat⟩
  rw [← hreg f (.inl rfl)]
  exact readReg_of_frame fun k hk => hread k (by rintro rfl; exact hpc hk)

theorem regValue_g0 (v : Nat) : regValue 0 v = 0 := by
  rw [regValue, if_neg (by decide)]
  show v % 2 ^ (64 * 0) = 0
  simp [Nat.mod_one]

theorem pcWellFormed_iff {U : Word} : pcWellFormed U = true ↔ fld U 5 3 = 0 ∧ fld U 2 0 < 5 := by
  simp only [pcWellFormed, Bool.and_eq_true, beq_iff_eq, decide_eq_true_eq]
  rfl

theorem lineTmask_eq (l : BitVec 512) {k : Nat} (hk : k < 5) : lineTmask l k = l.getLsbD (480 + 27 + k) := by
  simp only [lineTmask, lineWord, fld, bitOf, testBit_bitsOf, BitVec.testBit_toNat]
  have : 27 + k < 511 + 1 - 480 := by omega
  simp only [this, decide_true, Bool.true_and, ← Nat.add_assoc]

theorem pcLine_eq (U : Word) : pcLine U = U.toNat / 64 * 64 := by
  have := U.isLt
  simp only [pcLine, fld, bitsOf, Nat.shiftRight_eq_div_pow]
  rw [Nat.mod_eq_of_lt (by omega)]

theorem entryCheck_legal {l : BitVec 512} {at_ : Target} (h3 : fld T 5 3 = 0) (hk : fld T 2 0 < 5)
    (hl : lineAt s f (T.toNat / 64 * 64) = .ready at_ l) (hm : l.getLsbD (480 + 27 + fld T 2 0) = true) :
    entryCheck s f T = .legal := by
  simp only [entryCheck, pcWellFormed_iff.mpr ⟨h3, hk⟩, pcLine_eq, hl, pcSlot, lineTmask_eq l hk, hm]
  rfl

theorem branchTaken_iff {fn c : Nat} (h : fn < 3) : branchTaken fn c = true ↔ fn = 0 ∨ (fn = 1 ∧ c = 0) ∨ (fn = 2 ∧ c ≠ 0) := by
  obtain rfl | rfl | rfl : fn = 0 ∨ fn = 1 ∨ fn = 2 := by omega
  all_goals simp [branchTaken]

theorem sextInt29_toNat (x : BitVec 29) : sextInt 29 x.toNat = x.toInt := by
  have hlt : x.toNat % 2 ^ 29 = x.toNat := Nat.mod_eq_of_lt x.isLt
  rw [sextInt, hlt, BitVec.toInt_eq_msb_cond, BitVec.msb_eq_getLsbD_last]
  simp only [bitOf, BitVec.testBit_toNat, Nat.reduceSub, Nat.zero_lt_succ, decide_true, Bool.and_true]

theorem branchTarget_eq (pc : Word) (b : BWord) :
    branchTarget pc b = n64 ((pc.toNat / 64 * 64 : Nat) + b.disp.toInt * 64 + b.slot.toNat) := by
  rw [branchTarget, pcLine_eq, sextInt29_toNat]

/-- Bits 5 to 0 of a branch's target are its slot (R63). -/
theorem branchTarget_mod (pc : Word) (b : BWord) : (branchTarget pc b).toNat % 64 = b.slot.toNat := by
  have hs := b.slot.isLt
  rw [branchTarget_eq, n64, BitVec.toNat_ofInt]
  omega

theorem fld_of_mod {U : Word} {k : Nat} (hU : U.toNat % 64 = k) (hk : k < 8) : fld U 5 3 = 0 ∧ fld U 2 0 = k := by
  simp only [fld, bitsOf, Nat.shiftRight_eq_div_pow]
  omega

end

theorem br_fn {b : BWord} (h : legal (.br b) = true) : fnOf b.hdr < 3 := by
  simp only [legal, Bool.and_eq_true, decide_eq_true_eq] at h
  omega

/-- Settles O6: a target that is a legal entry is gone to by `jumpTo`; a branch not taken only ends its issue. -/
theorem controlTransfers : Obligations.ControlTransfers := by
  intro b w s f T U taken htaken hT hU
  rw [← branchTarget_eq] at hT
  refine ⟨fun hc hnot => ?_, fun flat l hs hline hm => ?_, fun flat l h3 hk hline hm => ?_⟩
  · have hbr : branchTaken (fnOf b.hdr) (readReg s f b.cond) ≠ true := fun h =>
      hnot (htaken.mpr ((branchTaken_iff (br_fn (canIssue_legal hc))).mp h))
    obtain ⟨hw, hpc, -⟩ := finish_wrote_beside (h := b.hdr) (ws := fun _ => False) (s := s) (canIssue_bound hc) Banked.refl rfl
    refine ⟨_, ?_, hw, hpc, trivial⟩
    show execBr b s = _
    rw [execBr, withIssue_next hc, if_neg hbr]
  · obtain ⟨h3, hslot⟩ := fld_of_mod (branchTarget_mod s.iss.pc b) b.slot.isLt
    have hlegal : entryCheck s f T = .legal := by
      rw [hT] at hline ⊢
      exact entryCheck_legal h3 (by rwa [hslot]) hline (by rwa [hslot])
    refine ⟨fun hc ht => ?_, fun hc => jumpTo_jumps (canIssue_bound hc) ?_ hlegal⟩
    · have hbr := (branchTaken_iff (br_fn (canIssue_legal hc))).mpr (htaken.mp ht)
      have hj : exec (.br b) s = .next (jumpTo b.hdr 0 T f s) := by
        show execBr b s = _
        rw [execBr, withIssue_next hc, if_pos hbr, hT]
      obtain ⟨t, he, hw, hr, hpc⟩ := jumpTo_jumps (canIssue_bound hc) hj hlegal
      exact ⟨t, he, hw, by rw [hr, regValue_g0, regValue_g0], hpc⟩
    · show execCall b s = _
      rw [execCall, withIssue_next hc, hT]
  · have hlegal := entryCheck_legal h3 hk hline hm
    refine ⟨fun hc => ?_, fun hc => jumpTo_jumps (canIssue_bound hc) ?_ hlegal⟩
    · have hj : exec (.ret w) s = .next (jumpTo w.hdr 0 U f s) := by
        show execRet w s = _
        rw [execRet, withIssue_next hc, hU]
      obtain ⟨t, he, hw, hr, hpc⟩ := jumpTo_jumps (canIssue_bound hc) hj hlegal
      exact ⟨t, he, hw, by rw [hr, regValue_g0, regValue_g0], hpc⟩
    · show execJmp w s = _
      rw [execJmp, withIssue_next hc, hU]

/-- An instruction that only ends its issue. -/
theorem endsAs_finish {i : Instr} {h : Hdr} {s : State} {f : Nat} (hb : bound s f = true) (he : exec i s = .next (finish h f s)) :
    EndsAs i h (fun _ => False) s s f fun _ => True := by
  obtain ⟨hw, hpc, -⟩ := finish_wrote_beside (h := h) (ws := fun _ => False) (s := s) hb Banked.refl rfl
  exact ⟨_, he, hw, hpc, trivial⟩

section
variable {i : Instr} {h : Hdr} {s : State} {f : Nat}

theorem endsAs_of_guardFalse {specs : List (BitVec 8)} {body : Nat → State → State} (he : exec i s = withIssue i h specs s body)
    (hc : mayIssue i h [] s f = true) (hg : guardTrue s f h = false) : EndsAs i h (fun _ => False) s s f fun _ => True :=
  endsAs_finish (mayIssue_bound hc) (by rw [he, withIssue_guardFalse hc hg])

theorem neverVector_bound (hc : neverVector i h s f = true) : bound s f = true := by
  simp only [neverVector, Bool.and_eq_true] at hc
  exact issues_bound hc.1.1

theorem endsAs_of_never {reads : Nat → State → Nat → List Nat} {body : Nat → State → State}
    (he : exec i s = withVector i h reads s body) (hc : neverVector i h s f = true) :
    EndsAs i h (fun _ => False) s s f fun _ => True :=
  endsAs_finish (neverVector_bound hc) (by rw [he, withVector_never hc])

theorem laneAccess_never {w : MWord} {data : List (BitVec 8)} {need : Nat}
    {body : Nat → Ctx → Seg → (Nat → Int) → List (Nat × Nat) → State → State} (hc : neverVector i w.hdr s f = true) :
    laneAccess i w data need s body = .next (finish w.hdr f s) := by
  unfold laneAccess
  exact withVector_never hc

theorem indexAccess_never {w : MWord} {data : List (BitVec 8)} {need : Nat}
    {body : Nat → Ctx → Seg → (Nat → Int) → List (Nat × Nat) → List Nat → State → State} (hc : neverVector i w.hdr s f = true) :
    indexAccess i w data need s body = .next (finish w.hdr f s) := by
  unfold indexAccess
  exact withVector_never hc

end

/-- Settles O9: each of these ends its issue; under a false guard `withIssue` and `withVector` reach the end of the issue. -/
theorem nopJoinPpointAndGuards : Obligations.NopJoinPpointAndGuards := by
  refine ⟨fun w s f x hx => ⟨fun hc => ?_, fun hc => ⟨fun h => ?_, fun hctl hlive => ⟨x, hx, ?_⟩⟩, fun hc hpre => ?_⟩,
    fun w m s f => ⟨endsAs_of_guardFalse rfl, endsAs_of_guardFalse rfl, endsAs_of_guardFalse rfl, endsAs_of_guardFalse rfl,
      endsAs_of_guardFalse rfl, endsAs_of_guardFalse rfl, endsAs_of_never rfl, endsAs_of_never rfl, endsAs_of_never rfl,
      fun hc => ?_, fun hc => ?_, fun hc => ?_⟩⟩
  · refine endsAs_finish (canIssue_bound hc) ?_
    show execNop w s = _
    rw [execNop, withIssue_next hc]
  · refine endsAs_finish (canIssue_bound hc) ?_
    show execJoin w s = _
    have : (isControl s f && decide (0 < liveHelpers s x.core x.bind)) = false := by
      rcases h with h | h <;> simp [h]
    simp only [execJoin, withIssue_next hc, hx, this, Bool.false_eq_true, if_false]
  · show execJoin w s = _
    have hrun : (isControl s f && decide (0 < liveHelpers s x.core x.bind)) = true := by simp [hctl, hlive]
    simp only [execJoin, withIssue_next hc, hx, hrun, if_true]
    rw [block_eq .retry hx]
  · obtain ⟨hw, hpc, -⟩ := finish_wrote_beside (h := w.hdr) (ws := fun _ => False) (s := s) (canIssue_bound hc) Banked.refl rfl
    refine ⟨_, ?_, hw, hpc⟩
    show execPpoint w s = _
    have hnone : (coreOf (finish w.hdr f s) s.iss.core).preReq = false := by rw [hw.core]; exact hpre
    have hcore : (finish w.hdr f s).iss.core = s.iss.core := by rw [hw.rest]
    simp [execPpoint, withIssue_next hc, hcore, hnone]
  · refine endsAs_finish (neverVector_bound hc) ?_
    show execVcvt w s = _
    rw [execVcvt]
    exact withVector_never hc
  · refine endsAs_finish (neverVector_bound hc) ?_
    show execVld m s = _
    rw [execVld]
    exact laneAccess_never hc
  · refine endsAs_finish (neverVector_bound hc) ?_
    show execVgath m s = _
    rw [execVgath]
    exact indexAccess_never hc

end Sys2Proof.Laws

namespace Sys2Proof.Refutations
/-! Refutations that turn on a word the statement does not ask to be clean, or on another oddity of a state. -/

open Sys2Proof.Machine Sys2Proof.Tests

-- one proof at a time: those that wait for the kernel to evaluate a state would each hold a thread
set_option Elab.async false

/-- How an issue ended. -/
def endOf : Out → IssueEnd
  | .next t => t.iss.res
  | _ => .held

/-- A task with room for a helper whose control context holds a poisoned segment word. -/
def markedSegment : State := markWord roomy 2 80

/-- The context that START makes there. -/
def startedThere : Option (Nat × State) :=
  startContext (openEntry markedSegment 2 0 0x81 0) 0 0 1 0 (BitVec.ofNat 64 (readReg markedSegment 2 3))
    [BitVec.ofNat 64 (readReg markedSegment 2 4), BitVec.ofNat 64 (readReg markedSegment 2 5),
      BitVec.ofNat 64 (ctxTask markedSegment x0).count] none

theorem endOf_startMarked : endOf (exec (.start (rr 0 0x81 3 4 5)) markedSegment) = .trapped := by decide +kernel

/-- Refutes O10: START by a control context reads its segments too (R128), so a poisoned segment word traps. -/
theorem not_contextsStartAndRetire : ¬ Obligations.ContextsStartAndRetire := by
  intro h
  obtain ⟨⟨g, u⟩, hsome⟩ := Option.isSome_iff_exists.mp (show startedThere.isSome = true by decide +kernel)
  have hstart := ((h.1 (rr 0 0x81 3 4 5) markedSegment u 2 0 g _ x0 _ _ (by decide +kernel) (by decide +kernel) (by decide +kernel)
    rfl rfl rfl).1 (by decide +kernel)).2 (by decide +kernel) (by decide +kernel) hsome
  have hend := endOf_startMarked
  rw [hstart] at hend
  exact absurd hend (by simp [endOf, finish, setEnd])

/-- Another context waits at the tail of the FIFO bank; the present one, marked as having issued, does not wait. -/
def issuedSecond : State := ctx (secondThere (.fifoTail 0 0)) fun x => { x with issued := true }

/-- Whether the context of the tests has issued, as an outcome leaves it. -/
def issuedOf : Out → Option Bool
  | .next t => (ctxOf t 2).map Ctx.issued
  | _ => none

theorem issuedOf_issuedSecond : issuedOf (exec (.st (mm 4 5 2 0)) issuedSecond) = some false := by decide +kernel

/-- Refutes O13: a store that holds at a FIFO's tail clears `issued` of a context that has not waited (R36). -/
theorem not_nearStores : ¬ Obligations.NearStores := by
  intro h
  obtain ⟨hst, -⟩ := h (mm 4 5 2 0) issuedSecond 2 8 0 2 (nearFlat x0 2 0) 0 0 2 3 { x0 with issued := true } _ rfl rfl
    (by decide +kernel) (.inr rfl) rfl (by decide +kernel) rfl rfl (.inr ⟨by simp [x0], by decide +kernel⟩)
  obtain ⟨-, -, hheld⟩ := hst (by unfold reachesCheck; decide +kernel) (by decide +kernel)
  have hissued := issuedOf_issuedSecond
  rw [hheld rfl (by decide +kernel) (.inr (by decide +kernel))] at hissued
  simp [issuedOf, ctxOf, SMap.get_set_eq] at hissued

/-- The home of a word that lies across the end of a line. -/
def across : Target := { spot with flat := 0x100FC }

/-- The line of the word's first byte, its second sector held in no billet. -/
def lineBefore : SLine :=
  { line := 0x100, set := 0, cmp := false, held := 2, enc0 := 0, enc1 := 0, dirty := 0, sharers := 0, pinned := 0 }

/-- The line after it, in the same set, with more billets than the pool leaves for both. -/
def lineAfter : SLine := { lineBefore with line := 0x101, held := 1, enc0 := 8 * 64 }

/-- A store across the two lines, where an agent outside the package has written behind the second. -/
def crossing : State :=
  { base with
    reqs := [{ request 1 0x100FC with target := some across }]
    slices := [(0, { lines := [lineBefore, lineAfter] })]
    behind := [(0x10100, some 0xAA)] }

/-- A byte of memory after a step. -/
def byteAfter (a : Nat) : Out → Option Byte
  | .next t => some (readByte t a)
  | _ => none

theorem byteAfter_crossing : byteAfter 0x10100 (exec (.storeApplyHome 0) crossing) = some 0xAA := by decide +kernel

/-- Refutes O29: a store across two lines grows the first, whose set then evicts the second: what was written behind it
takes the place of the bytes stored. -/
theorem not_pagedAccessesAreServed : ¬ Obligations.PagedAccessesAreServed := by
  intro h
  obtain ⟨hstore, -⟩ := h.2 crossing 0 _ 0 { request 1 0x100FC with target := some across } across x0 rfl rfl (by decide +kernel)
    rfl rfl rfl
  obtain ⟨u, hu, ⟨hin, -⟩, -⟩ := hstore (.inl rfl) (by decide +kernel)
  have hbyte := byteAfter_crossing
  rw [hu, show served { request 1 0x100FC with target := some across } u = u from rfl, byteAfter, show (0x10100 : Nat) = across.flat + 4 from rfl, hin 4 (by decide)] at hbyte
  exact absurd hbyte (by decide)

/-- The first line of frame 2, as its home slice holds it. -/
def frameLine : SLine :=
  { line := 64, set := 0, cmp := false, held := 1, enc0 := 8 * 4, enc1 := 0, dirty := 0, sharers := 0, pinned := 0 }

/-- A bank with two dirty lines of frame 2, whose homes are two slices. -/
def leaving : Bank := { frame := some 2, valid := BitVec.allOnes 40, dirty := 0x101 }

/-- The frame is to be spilled; the slice of its second dirty line holds the first line too, with more billets than leave
room for another, and an agent outside the package has written behind that line. -/
def spilling : State :=
  { modSlot (ctx base fun x => { x with saving := true }) 0 1 fun sl => { sl with shadow := leaving } with
    slices := [(16, { lines := [frameLine] }), (17, { lines := [{ frameLine with enc0 := 8 * 64 }] })]
    behind := [(0x4000, some 0xAA)] }

/-- A word of memory after a step. -/
def wordAfter (a : Nat) : Out → Option Word
  | .next t => some (readWord t a)
  | _ => none

theorem wordAfter_spilling : wordAfter (frameAddr 2 0) (exec (.spillComplete 0 1) spilling) = some 0xAA := by decide +kernel

/-- Refutes O48: the spill of the second line evicts the first from a slice that is not its home, and what was written
behind it takes the place of what has been spilled. -/
theorem not_switchingEvents : ¬ Obligations.SwitchingEvents := by
  intro h
  obtain ⟨-, -, -, -, -, hspill, -⟩ := h spilling spilling 0 1 0 2 { x0 with saving := true } { next := none, slots := [], loaded := [] } _ [] [] rfl
  obtain ⟨t, ht, -, hword⟩ := hspill (by decide +kernel) (by decide +kernel) rfl
    (fun v hv => absurd hv (by rw [show (coreOf spilling 0).swap = none by decide +kernel]; simp))
  have hread := wordAfter_spilling
  rw [ht, wordAfter, (hword 0 (by decide)).1 (by decide +kernel)] at hread
  exact absurd hread (by decide +kernel)

end Sys2Proof.Refutations

namespace Sys2Proof.Laws
/-! The journal's events, messages that arrive, the task queue and engine arrivals (R112, R137, R181 to R189). -/

open Sys2Proof.Machine

/-! A journal entry written. -/

section
variable {s : State} {core k f e : Nat}

theorem jentry_setJentry (j : JEntry) : jentry (setJentry s core k j) core k = j := by
  rw [jentry, setJentry, coreOf_modCore_eq]
  exact SMap.get_set_eq

theorem slotOf_setJentry (j : JEntry) (c n : Nat) : slotOf (setJentry s core k j) c n = slotOf s c n := by
  rw [slotOf, slotOf, setJentry]
  by_cases h : c = core
  · rw [h, coreOf_modCore_eq]
  · rw [coreOf_modCore_ne h]

/-- Slots whose banks are as before hold the frames as before. -/
theorem readFrame_of_banks {t : State} (hx : ctxOf t f = ctxOf s f) (hm : t.mem = s.mem)
    (ha : ∀ c n, (slotOf t c n).act = (slotOf s c n).act) (hs : ∀ c n, (slotOf t c n).shadow = (slotOf s c n).shadow) (w : Nat) :
    readFrame t f w = readFrame s f w := by
  have hw : readWord t (frameAddr f w) = readWord s (frameAddr f w) := by
    have : ∀ n a, readBytes t a n = readBytes s a n := by
      intro n
      induction n with
      | zero => intro a; rfl
      | succ n ih => intro a; simp only [readBytes, readByte, hm, ih]
    rw [readWord, readWord, this]
  simp only [readFrame, hx, ha, hs, hw]

theorem entryOf_setJentry (j : JEntry) : entryOf (setJentry s core k j) f e = entryOf s f e :=
  entryOf_of_frame (readFrame_of_banks (s := s) (t := setJentry s core k j) rfl rfl (fun c n => by rw [slotOf_setJentry])
    (fun c n => by rw [slotOf_setJentry]) _)

theorem entryOf_setLastMcst (v : BitVec 16) : entryOf (setLastMcst s core k v) f e = entryOf s f e := by
  have hslot : ∀ c n, (slotOf (setLastMcst s core k v) c n).act = (slotOf s c n).act ∧
      (slotOf (setLastMcst s core k v) c n).shadow = (slotOf s c n).shadow := fun c n => by
    by_cases h : (c, n) = (core, k)
    · obtain ⟨rfl, rfl⟩ := Prod.mk.inj h
      rw [setLastMcst, slotOf_modSlot_eq]
      exact ⟨rfl, rfl⟩
    · rw [setLastMcst, slotOf_modSlot_ne h]
      exact ⟨rfl, rfl⟩
  exact entryOf_of_frame (readFrame_of_banks (s := s) (t := setLastMcst s core k v) rfl rfl (fun c n => (hslot c n).1)
    (fun c n => (hslot c n).2) _)

/-- The state in which a multicast's verdict is written: the entry freed, the slot's last MCST noted (R203, R205). -/
def acked (s : State) (core k : Nat) (j : JEntry) : State :=
  if stillIn (setJentry s core k {}) core j.slot j.frame && (slotOf (setJentry s core k {}) core j.slot).mcst == some j.jseq
  then setLastMcst (setJentry s core k {}) core j.slot (BitVec.ofNat 16 (if j.refusals = 0 then 0 else 2 + j.refusals * 2 ^ 8))
  else setJentry s core k {}

theorem entryOf_acked (j : JEntry) : entryOf (acked s core k j) f e = entryOf s f e := by
  unfold acked
  split
  · rw [entryOf_setLastMcst, entryOf_setJentry]
  · rw [entryOf_setJentry]

theorem acked_rest (j : JEntry) : (acked s core k j).mem = s.mem ∧ (acked s core k j).rets = s.rets ∧ (acked s core k j).ord = s.ord := by
  unfold acked
  split <;> exact ⟨rfl, rfl, rfl⟩

end

/-- Settles O31: each event's guard is met, and its branch is the one stated. -/
theorem journalAndReleases : Obligations.JournalAndReleases := by
  rintro s core k n e j m rfl
  refine ⟨fun h1 h2 h3 h4 h5 => ?_, fun h1 h2 h3 h4 h5 => ⟨sendResult (acked s core k (jentry s core k)) (jentry s core k).frame e
      [regWrite (BitVec.ofNat 8 (entryOf s (jentry s core k).frame e)) (predAll ((jentry s core k).refusals == 0))] [], ?_, ?_, ?_⟩,
    fun h1 h2 h3 h4 h5 h6 => ?_, fun h1 h2 h3 h4 h5 h6 => ?_, fun h1 h2 h3 h4 h5 => ⟨fun h6 h7 => ?_, fun h6 => ?_⟩,
    fun h1 h2 h3 h4 h5 => ?_, fun h1 h2 h3 => ?_⟩
  · show execJournalAck core k s = _
    change _ ≠ 2#3 at h5
    simp [execJournalAck, h1, h2, h3, h4, h5]
  · show execJournalAck core k s = _
    rw [← entryOf_acked (s := s) (core := core) (k := k) (jentry s core k)]
    simp [execJournalAck, h1, h2, h3, h4, h5, acked]
  · exact (acked_rest _).1
  · obtain ⟨-, hrets, hord⟩ := acked_rest (s := s) (core := core) (k := k) (jentry s core k)
    simp only [sendResult, hrets, hord, predAll, beq_iff_eq]
  · show execJournalRefusal core k s = _
    change _ ≠ 2#3 at h5
    simp [execJournalRefusal, h1, h2, h3, h4, h5, h6]
  · show execJournalRefusal core k s = _
    change _ ≠ 2#3 at h5
    simp [execJournalRefusal, h1, h2, h3, h4, h5, h6]
  · show execJournalRefusal core k s = _
    change _ ≠ 2#3 at h6
    simp [execJournalRefusal, h1, h2, h3, h4, h5, h6, h7]
  · refine ⟨setJentry s core k { jentry s core k with
      refusals := (jentry s core k).refusals + (lostParts s core (jentry s core k)).length
      applied := (jentry s core k).applied.filter fun cl => !(lostParts s core (jentry s core k)).contains cl }, ?_, ?_, ?_⟩
    · show execJournalRefusal core k s = _
      simp [execJournalRefusal, h1, h2, h3, h4, h5, h6]
    · rw [jentry_setJentry, h4]
      exact Nat.zero_add _
    · rw [jentry_setJentry, lostParts, List.filter_filter, List.filter_eq_nil_iff]
      intro cl hcl hboth
      rw [Bool.and_eq_true] at hboth
      obtain ⟨hout, hkept⟩ := hboth
      have hlost : cl ∈ lostParts s core (jentry s core k) := List.mem_filter.mpr ⟨hcl, hout⟩
      rw [List.contains_iff_mem.mpr hlost] at hkept
      exact Bool.false_ne_true hkept
  · show execReleaseStoreSend core k s = _
    have hfirst : ((coreOf s core).journal.any fun p => p.2.state == 1 && p.2.frame == (jentry s core k).frame &&
        decide (p.2.ord < (jentry s core k).ord) && destWithin core (jentry s core k).scope p.2) = false := by
      rw [List.any_eq_false]
      intro p hp hq
      simp only [Bool.and_eq_true, beq_iff_eq, decide_eq_true_eq] at hq
      obtain ⟨⟨⟨hstate, hframe⟩, hord⟩, hin⟩ := hq
      rw [h5 p hp hstate hframe hord] at hin
      exact Bool.false_ne_true hin
    simp only [execReleaseStoreSend, h1, h2, h3, h4, hfirst]
    rfl
  · show execReleaseMessageSend n s = _
    simp [execReleaseMessageSend, h1, h2, h3]

/-- No task of a core has a class bound. -/
theorem classOwner_none {s : State} {core k : Nat} (h : ∀ p, p ∈ (coreOf s core).tasks → ∀ t, t ∈ p.2.svc → t.1 ≠ k) :
    classOwner s core k = none := by
  rw [classOwner, Option.map_eq_none_iff, List.find?_eq_none]
  intro p hp hq
  obtain ⟨t, ht, hk⟩ := List.any_eq_true.mp hq
  exact h p hp t ht (beq_iff_eq.mp hk)

/-- Settles O32: a message in its turn, its route open, meets the branch of its class. -/
theorem messagesArrive : Obligations.MessagesArrive := by
  rintro s u n m q b hm hturn rfl rfl hreach hroute
  have hreach' : reachable { s with net := s.net.eraseIdx n } (dieOf m.src) (dieOf m.dst) = true := hreach
  refine ⟨fun hcls hhw => ?_, fun hcls hlive => ?_, fun hcls hcur hl hend => ?_⟩
  · have h0 : m.cls ≠ 0 := by omega
    have h1 : m.cls ≠ 1 := by omega
    refine ⟨fun hown hroom => ?_, fun hnone => ?_, fun hown hfull => ?_⟩
    · show execMessageArrival n s = _
      have hown' : classOwner { s with net := s.net.eraseIdx n } m.dst m.cls = some b := hown
      have hroom' : ¬ 32 ≤ (SMap.get [] (coreOf { s with net := s.net.eraseIdx n } m.dst).classQ m.cls).length :=
        Nat.not_le.mpr hroom
      simp only [execMessageArrival, hm, hturn, hroute, h0, h1, hreach', hown', hroom', decide_false, Bool.not_true, Bool.or_false,
        Bool.false_eq_true, if_false]
      rfl
    · show execMessageArrival n s = _
      have hown : classOwner { s with net := s.net.eraseIdx n } m.dst m.cls = none := classOwner_none hnone
      simp [execMessageArrival, hm, hturn, hroute, h0, h1, hreach', hown, hhw]
    · show execMessageArrival n s = _
      have hown' : classOwner { s with net := s.net.eraseIdx n } m.dst m.cls = some b := hown
      have hfull' : 32 ≤ (SMap.get [] (coreOf { s with net := s.net.eraseIdx n } m.dst).classQ m.cls).length := hfull
      simp [execMessageArrival, hm, hturn, hroute, h0, h1, hreach', hown', hfull', hhw]
  · show execMessageArrival n s = _
    have hlive' : launchLive { s with net := s.net.eraseIdx n } m.dst m.launch = true := hlive
    simp only [execMessageArrival, hm, hturn, hroute, hcls, hlive', if_true]
    rfl
  · have hcur' : (coreOf { s with net := s.net.eraseIdx n } m.dst).cur = some b := hcur
    have hl' : launchId (taskOf { s with net := s.net.eraseIdx n } m.dst b).token = m.launch.toNat := hl
    have hend' : (taskOf { s with net := s.net.eraseIdx n } m.dst b).ending = none := hend
    refine ⟨fun hroom hslot => ?_, fun hfull => ?_⟩
    · show execTaskQueueEntryArrival n s = _
      have hroom' : ¬ 16 ≤ (coreOf { s with net := s.net.eraseIdx n } m.dst).taskQ.length := Nat.not_le.mpr hroom
      have hslot' : queueSlot { s with net := s.net.eraseIdx n } m.dst b = true := hslot
      simp [execTaskQueueEntryArrival, hm, hturn, hroute, hcls, hreach', hcur', hl', hend', hroom', hslot']
    · show execTaskQueueEntryArrival n s = _
      have hfull' : 16 ≤ (coreOf { s with net := s.net.eraseIdx n } m.dst).taskQ.length := hfull
      simp [execTaskQueueEntryArrival, hm, hturn, hroute, hcls, hreach', hcur', hl', hend', hfull']

/-- An engine's arrival of a member that has not arrived counts. -/
theorem engineArrive_counts {s : State} {p m : Nat} {i : BarrierId} (hok : (barrierOf s i).failed = false)
    (hin : inMask s p i.level (barrierOf s i).mask m = true) (hnew : m ∉ (barrierOf s i).arrived) :
    engineArrive s p i m = countArrival s p i m := by
  simp [engineArrive, hok, hin, hnew]

/-- One of a member that has arrived is held. -/
theorem engineArrive_holds {s : State} {p m : Nat} {i : BarrierId} (hok : (barrierOf s i).failed = false)
    (hin : inMask s p i.level (barrierOf s i).mask m = true) (hold : m ∈ (barrierOf s i).arrived) :
    engineArrive s p i m = setBarrier s i { barrierOf s i with held := (barrierOf s i).held ++ [m] } := by
  simp [engineArrive, hok, hin, hold]

/-- Settles O33: the oldest entry of the task's launch starts; an arrival past its operation's status goes to its barrier. -/
theorem queueHelperAndEngineArrival : Obligations.QueueHelperAndEngineArrival := by
  rintro s u core b l g n m a i
  refine ⟨?_, ?_⟩
  · rintro hcur rfl hswap hend hlive hfind hstart
    show execTaskQueueHelperStart core s = _
    have hroom : ¬ 10 ≤ liveHelpers s core b := Nat.not_le.mpr hlive
    simp only [execTaskQueueHelperStart, hcur, hswap, hend, hroom, Option.isSome_none, decide_false, Bool.or_self, Bool.false_eq_true,
      if_false, hfind, hstart]
  · intro ha hi hu hbind hok hafter hup hmask
    have hkey : i.level = a.key / 2 ^ 32 % 256 := by rw [hi]
    have hidle : (decide (a.key / 2 ^ 32 % 256 = 1) && decide (32 ≤ a.bind)) = false := by
      rw [Bool.and_eq_false_iff, decide_eq_false_iff_not, decide_eq_false_iff_not, ← hkey]
      by_cases h : i.level = 1
      · exact .inr (Nat.not_le.mpr (hbind h))
      · exact .inl h
    rw [hkey] at hup
    have harrive : exec (.barrierArrival n) s = .next (engineArrive u (a.key / 2 ^ 40) i a.member) := by
      show execBarrierArrival n s = _
      cases h : a.after with
      | none => simp only [execBarrierArrival, ha, h, ← hi, ← hu, hup, hidle, Bool.not_true, Bool.or_self, Bool.false_eq_true, if_false]
      | some g =>
        have hlate : (s.rets.any fun r => r.frame == g.1 && r.entry == g.2) = false := by
          rw [List.any_eq_false]
          intro r hr hq
          simp only [Bool.and_eq_true, beq_iff_eq] at hq
          exact hafter g.1 g.2 r h hr hq
        simp only [execBarrierArrival, ha, h, ← hi, ← hu, hup, hidle, hlate, Bool.not_true, Bool.or_self, Bool.false_eq_true, if_false]
    have hbar : barrierOf u i = barrierOf s i := by rw [hu]; rfl
    have hin : inMask u (a.key / 2 ^ 40) i.level (barrierOf u i).mask a.member = true := by rw [hu]; exact hmask
    rw [harrive, ← hbar]
    rw [← hbar] at hok
    exact ⟨fun hnew => by rw [engineArrive_counts hok hin hnew], fun hold => by rw [engineArrive_holds hok hin hold]⟩

end Sys2Proof.Laws

namespace Sys2Proof.Laws
/-! Accesses served at their port (R95, R108, R112, R185, R303). -/

open Sys2Proof.Machine

section
variable {s t u : State} {r : Req} {k n v cl core : Nat} {j : JEntry}

/-- What is stored is a matter of memory alone. -/
theorem stored_of_mem (h : t.mem = (writeBytes s k n v).mem) : Stored s t k n v := by
  obtain ⟨hin, hout⟩ := writeBytes_stored (s := s) (k := k) (n := n) (v := v)
  have hread : ∀ a, readByte t a = readByte (writeBytes s k n v) a := fun a => by rw [readByte, readByte, h]
  exact ⟨fun i hi => by rw [hread, hin i hi], fun a ha => by rw [hread, hout a ha]⟩

theorem reqWrites_whole (h : r.elem = 0xFF) (x : Nat) : reqWrites r x = [regWrite r.dst (extend r.ty.toNat x)] := by
  rw [reqWrites, h]
  rfl

theorem threadBytes_calm (h : s.racing = []) : threadBytes s k n = readBytes s k n := by
  rw [threadBytes, h]
  rfl

theorem atomicNew_atom (h : r.op = 2) (old : Nat) :
    atomicNew r old = some (atomNew r.fn.toNat r.ty.toNat old (r.data.toNat % 2 ^ (8 * r.size))) := by
  rw [atomicNew, if_pos h]

theorem appliedBefore_noteApplied : appliedBefore (noteApplied s cl core j) cl core j = true := by
  rw [appliedBefore, noteApplied, clusterSt, modCluster, SMap.get_set_eq, recentStores, List.filter_cons]
  simp

theorem appliedBefore_setJentry (x : JEntry) (e : Nat) : appliedBefore (setJentry s core e x) cl core j = appliedBefore s cl core j := rfl

theorem setJentry_mem (x : JEntry) (e : Nat) : (setJentry s core e x).mem = s.mem ∧ (setJentry s core e x).full = s.full := ⟨rfl, rfl⟩

/-- A multicast's and a store's trace, kept or not (R116), leaves memory alone. -/
theorem traceRecord_mem (kind size jseq off : Nat) :
    (traceRecord s cl core kind size jseq off).mem = s.mem ∧ (traceRecord s cl core kind size jseq off).full = s.full := ⟨rfl, rfl⟩

end

/-- A part of a journal entry that reaches a word: its bytes are stored, and a STF sets the word full. -/
theorem applyPart_word {s : State} {core cl flat : Nat} {j : JEntry} (hp : portOf s core (partFlat j cl) = .word flat)
    (hclean : j.size = 3 ∨ poisoned s flat (2 ^ j.size.toNat) = false) :
    ∃ u, applyPart s core j cl = some (none, u) ∧ u.mem = (writeBytes s flat (2 ^ j.size.toNat) j.data.toNat).mem ∧
      u.full = (if j.kind = 1 then setFull s flat true else s).full := by
  have hgo : ¬ (decide (2 ^ j.size.toNat < 8) && poisoned s flat (2 ^ j.size.toNat)) = true := by
    rcases hclean with h | h
    · rw [h, show decide (2 ^ BitVec.toNat (3 : BitVec 3) < 8) = false by decide, Bool.false_and]; exact Bool.false_ne_true
    · rw [h, Bool.and_false]; exact Bool.false_ne_true
  simp only [applyPart, hp, if_neg hgo]
  refine ⟨_, rfl, ?_, ?_⟩
  · split <;> split <;> rfl
  · split <;> split <;> rfl

theorem applyPart_refused {s : State} {core cl c : Nat} {j : JEntry} (hp : portOf s core (partFlat j cl) = .refused c) :
    applyPart s core j cl = some (some c, s) := by
  simp only [applyPart, hp]

/-- The machine once an atomic has been applied at its port: its request gone, its word written, and the write traced (R116). -/
def atomicApplied (s : State) (r : Req) (flat v : Nat) : State :=
  if clusBase 0 ≤ flat
  then traceRecord (writeBytes (endOlder (dropWreq s r) none flat r.size) flat r.size v) (winCluster r.addr.toNat) r.core 2 r.size.log2
    (Config.pick (s.tick * 2 ^ 80)) (flat % 2 ^ 64)
  else writeBytes (endOlder (dropWreq s r) none flat r.size) flat r.size v

theorem atomicApplied_rest (s : State) (r : Req) (flat v : Nat) :
    (atomicApplied s r flat v).mem = (writeBytes s flat r.size v).mem ∧
      (atomicApplied s r flat v).wreqs = s.wreqs.filter fun q => q.ord != r.ord := by
  unfold atomicApplied
  split <;> exact ⟨rfl, rfl⟩

/-- Settles O30: the port's answer decides what an access in its turn does. -/
theorem windowAccessesAreServed : Obligations.WindowAccessesAreServed := by
  refine ⟨fun s n flat c cl b r v q hr hop hready helem => ⟨fun hport hclean => ⟨?_, threadBytes_calm⟩, fun hport hsize hq hw => ?_, fun hport => ?_⟩,
    fun s n core k cl flat c r j => ⟨fun hr hop hready helem hport hclean => ?_, fun hj hready hkind => ⟨fun hdone => ?_, fun hnew hport hclean => ?_,
      fun hnew hport => ?_⟩⟩⟩
  · show execWindowLoadServe n s = _
    rw [← reqWrites_whole helem]
    simp [execWindowLoadServe, hr, hop, opWrites, hready, hport, wordLoad, hclean]
  · show execWindowLoadServe n s = _
    rw [← reqWrites_whole helem]
    simp [execWindowLoadServe, hr, hop, opWrites, hready, hport, hsize, hq, hw]
  · show execWindowLoadServe n s = _
    simp [execWindowLoadServe, hr, hop, opWrites, hready, hport, refusedLoad]
  · rw [← reqWrites_whole helem]
    obtain ⟨hmem, hwreqs⟩ := atomicApplied_rest s r flat
      (atomNew r.fn.toNat r.ty.toNat (readBytes s flat r.size) (r.data.toNat % 2 ^ (8 * r.size)))
    refine ⟨_, ?_, stored_of_mem hmem, hwreqs⟩
    show execRemoteAtomicApply n s = _
    simp only [execRemoteAtomicApply, hr, hop, opWrites, hready, hport, hclean, atomicNew_atom hop]
    rfl
  · show execRemoteStoreApply core k cl s = _
    simp only [execRemoteStoreApply, ← hj, hready, hdone]
    rfl
  · obtain ⟨u, hu, hmem, hfull⟩ := applyPart_word hport hclean
    refine ⟨setJentry (noteApplied u cl core j) core k { j with todo := j.todo.erase cl, applied := j.applied ++ [cl] }, ?_,
      stored_of_mem hmem, hfull, appliedBefore_noteApplied, jentry_setJentry _⟩
    show execRemoteStoreApply core k cl s = _
    simp only [execRemoteStoreApply, ← hj, hready, hnew, hu]
    rfl
  · refine ⟨setJentry s core k { j with
      todo := j.todo.erase cl, refusals := j.refusals + 1, why := if j.kind = 2 then 0 else BitVec.ofNat 8 c }, ?_, rfl,
      jentry_setJentry _⟩
    show execRemoteStoreApply core k cl s = _
    simp only [execRemoteStoreApply, ← hj, hready, hnew, applyPart_refused hport]
    rfl

end Sys2Proof.Laws

namespace Sys2Proof.Laws
/-! The copy engine's events (R280 to R299) and the steps of the matrix and walk engines (R239 to R268). -/

open Sys2Proof.Machine

/-! Copy commands and their rows. -/

/-- A register that names no swizzle leaves every place (R287). -/
theorem swizzle_zero (x : Nat) : swizzle 0 x = x := rfl

theorem swizzled_zero {core a : Nat} : swizzled core 0 (localBase core + a) = localBase core + a := by
  rw [swizzled, swizzle_zero, Nat.add_sub_cancel_left]

/-- An eight-byte store of an engine sets its word full. -/
theorem engineStore_word {s : State} {flat v : Nat} (h : flat % 8 = 0) :
    engineStore s flat 8 v = setFull (writeBytes (endOlder s none flat 8) flat 8 v) flat true := by
  have hn : (flat + 8 + 7) / 8 - flat / 8 = 1 := by omega
  have hflat : 8 * (flat / 8) = flat := by omega
  simp only [engineStore, hn, upFrom_eq, List.range_one, List.map_cons, List.map_nil, List.foldl_cons, List.foldl_nil, Nat.add_zero, hflat]

theorem isFull_setFull {s : State} {k : Nat} {b : Bool} : isFull (setFull s k b) k = b := SMap.get_set_eq

/-- A row of CPY between two places of the core's own memory, the destination's words not swizzled. -/
theorem moveRow_near {s : State} {core so dof n A B : Nat} {q : CopyCmd} (hcv : cqCv q = 0)
    (hplace : ∀ k, swizzled core q.swz (B + 8 * k) = B + 8 * k)
    (hsrc : checkRange s core q (srcRange q so n) = (s, .ok (.near 1 A)))
    (hdst : checkRange s core q (dstRange q dof n) = (s, .ok (.near 1 B))) (hclean : poisoned s A n = false) :
    moveRow s core q so dof n = (s, .write { oob := false, puts := [(List.range (n / 8)).map fun k =>
      .near (B + 8 * k) 8 (engineBytes s core true A n / 2 ^ (64 * k) % 2 ^ 64)] } q.batch) := by
  have hlen : scaled q n = n := by rw [scaled, hcv, if_neg (by decide)]
  have hread : readPlace s core q (.near 1 A) (srcRange q so n).size (srcRange q so n).off = (s, .ok (engineBytes s core true A n)) := by
    simp only [readPlace, srcRange, hclean, Bool.false_eq_true, if_false]
  have hplain : convertRow q n (engineBytes s core true A n) = engineBytes s core true A n := by
    rw [convertRow, hcv, if_neg (by decide)]
  have hputs (v : Nat) : nearPuts core q.swz (1 == 1) B (dstRange q dof n).size (.bytes v) =
      (List.range (n / 8)).map fun k => .near (B + 8 * k) 8 (v / 2 ^ (64 * k) % 2 ^ 64) := by
    rw [nearPuts, upFrom_eq, List.map_map]
    refine List.map_congr_left fun k _ => ?_
    simp only [Function.comp_apply, Nat.zero_add, beq_self_eq_true, if_true, hplace]
  simp only [moveRow, withPlace, hlen, hsrc, hdst, withBytes, hread, finishRow, placePuts, hplain, hputs]

/-- Settles O42: each event's branch is chosen by the head of the queue and its row. -/
theorem copyEngine : Obligations.CopyEngine := by
  refine ⟨fun s u core q rest z row h batch p ps hq => ⟨fun hst => ⟨Config.pick (s.tick * 2 ^ 80), fun y hy => ?_, fun hy => ?_,
      fun hy => ⟨_, ?_, rfl⟩⟩,
    fun hst hhand hstop hrow => ⟨fun hone => ?_, fun hone => ?_, fun hone => ?_⟩,
    fun hst hhand => ⟨fun hput => ⟨fun hdone => ?_, fun hheld => ?_, fun href => ?_⟩, fun hput => ?_⟩,
    fun hst hhand hstop => ?_, fun hst hhand hstop hrow => ?_⟩, ?_, fun s core flat v halign => ?_⟩
  · show execCopyCommandStart core s = _
    simp only [execCopyCommandStart, hq, hst, hy, Bool.false_eq_true, if_false]
  · show execCopyCommandStart core s = _
    simp only [execCopyCommandStart, hq, hst, hy, Bool.false_eq_true, if_false]
  · show execCopyCommandStart core s = _
    simp only [execCopyCommandStart, hq, hst, hy, Bool.false_eq_true, if_false]
  · show execCopyRow core s = _
    simp only [execCopyRow, hq, hst, hhand, hstop, Nat.not_le.mpr hrow, hone, Bool.not_true, Bool.false_eq_true, if_false]
  · show execCopyRow core s = _
    simp only [execCopyRow, hq, hst, hhand, hstop, Nat.not_le.mpr hrow, hone, Bool.not_true, Bool.false_eq_true, if_false]
  · show execCopyRow core s = _
    simp only [execCopyRow, hq, hst, hhand, hstop, Nat.not_le.mpr hrow, hone, Bool.not_true, Bool.false_eq_true, if_false]
  · show execCopyRow core s = _
    simp only [execCopyRow, hq, hst, hhand, writeHand, hput, hdone, Bool.not_true, Bool.false_eq_true, if_false]
  · show execCopyRow core s = _
    simp only [execCopyRow, hq, hst, hhand, writeHand, hput, hheld, Bool.not_true, Bool.false_eq_true, if_false]
  · show execCopyRow core s = _
    simp only [execCopyRow, hq, hst, hhand, writeHand, hput, href, Bool.not_true, Bool.false_eq_true, if_false]
  · show execCopyRow core s = _
    simp only [execCopyRow, hq, hst, hhand, writeHand, hput, Bool.not_true, Bool.false_eq_true, if_false, finishHand]
    rfl
  · show execCopyRow core s = _
    simp only [execCopyRow, hq, hst, hhand, hstop, Bool.not_true, Bool.false_eq_true, if_false, if_true]
  · show execCopyRow core s = _
    simp only [execCopyRow, hq, hst, hhand, hstop, hrow, Bool.not_true, Bool.false_eq_true, if_false, if_true]
  · rintro s core n a b q hop hcv hswz rfl - hsrc hdst hclean
    rw [copyOne, hop]
    have hlen : scaled q (4096 * q.row) = 4096 * q.row := by rw [scaled, hcv]; rfl
    show moveRow s core q _ _ _ = _
    rw [hlen]
    exact moveRow_near hcv (fun k => by rw [hswz, Nat.add_assoc, swizzled_zero]) hsrc hdst hclean
  · refine ⟨_, rfl, ?_, ?_⟩
    · rw [engineStore_word halign]
      exact stored_of_mem rfl
    · rw [engineStore_word halign]
      exact isFull_setFull

/-! The matrix and walk engines. -/

/-- A field below the width that a number is cut to. -/
theorem bitsOf_mod {x n hi lo : Nat} (h : hi < n) : bitsOf (x % 2 ^ n) hi lo = bitsOf x hi lo := by
  refine Nat.eq_of_testBit_eq fun i => ?_
  rw [testBit_bitsOf, testBit_bitsOf, Nat.testBit_mod_two_pow]
  by_cases hi' : i < hi + 1 - lo
  · rw [decide_eq_true (by omega : lo + i < n), Bool.true_and]
  · simp only [hi', decide_false, Bool.false_and]

/-- A step's element (R239), within the accumulator's 1,024. -/
theorem accElem_stepAcc (w : RWord) (a b bands : Nat) (acc : AccBits) {k : Nat} (hk : k < 1024) :
    accElem (stepAcc w a b bands acc) k = stepElem (tyA w) (tyB w) a b bands (accElem acc k) (k / 32) (k % 32) % 2 ^ 32 := by
  have hget : ((upFrom 0 1024).map fun k => stepElem (tyA w) (tyB w) a b bands (accElem acc k) (k / 32) (k % 32)).getD k 0 =
      stepElem (tyA w) (tyB w) a b bands (accElem acc k) (k / 32) (k % 32) := by
    rw [upFrom_eq, List.map_map, List.getD_eq_getElem?_getD, List.getElem?_map, List.getElem?_range hk]
    simp
  have htop : 32 * k + 31 < 32768 := by omega
  rw [accElem, stepAcc, fld, BitVec.toNat_ofNat, bitsOf_mod htop]
  exact (bitsOf_packBits (w := 32) (by decide) _ k).trans (by rw [hget])

theorem lowBits_lt (n : Nat) (x : Int) : lowBits n x < 2 ^ n := by
  have h : (0 : Int) < 2 ^ n := by positivity
  rw [lowBits]
  have := Int.emod_lt_of_pos x h
  have := Int.emod_nonneg x h.ne'
  omega

/-- Settles O40: the guards of each event hold, and its state is that of the branch it takes. -/
theorem engineSteps : Obligations.EngineSteps := by
  refine ⟨fun s u core m k x a es => ⟨fun hmx hcan hyield => ?_, fun hmx hrun hclaim hop hx hchecks hu => ⟨fun hmore => ?_, fun hlast => ?_⟩,
      fun hwk hx hyield hend hwait hgroups => ⟨Config.accAfterWalk (putEntries u k.frame k.blockAt 0 k.entries es).tick, ?_⟩⟩,
    fun w a b bands i j acc hty hi hj => ?_, fun ty d row n e os hos => ⟨fun hleaf => ?_, fun hinner hdeep => ?_,
      fun j hinner hdepth hchoice => ?_, fun c hinner hdepth hchoice => ?_, fun hrule hnum => ?_⟩⟩
  · show execGangStart core s = _
    simp only [execGangStart, hmx, hcan, hyield] <;> rfl
  · have hop' : (decide (m.op = 0xC1) || decide (m.op = 0xC2)) = true := by simpa using hop
    show execMatrixStep core s = _
    simp only [execMatrixStep, hmx, hrun, opClaimed, hclaim, Bool.true_or, Bool.not_true, Bool.or_self, Bool.false_eq_true, if_false, hop',
      if_true, stepSingle, hx, hchecks, if_pos hmore, applyStep, hu, Bool.and_eq_true, beq_iff_eq]
  · have hop' : (decide (m.op = 0xC1) || decide (m.op = 0xC2)) = true := by simpa using hop
    show execMatrixStep core s = _
    simp only [execMatrixStep, hmx, hrun, opClaimed, hclaim, Bool.true_or, Bool.not_true, Bool.or_self, Bool.false_eq_true, if_false, hop',
      if_true, stepSingle, hx, hchecks, if_neg (Nat.not_lt.mpr hlast), applyStep, hu, Bool.and_eq_true, beq_iff_eq, statusWord, Nat.zero_mul,
      Nat.add_zero]
  · have hready : (runningNodes k.entries).any (nodeWaits s x k.frame k.pc k.sN) = false := by
      rw [List.any_eq_false]
      exact fun p hp => Bool.eq_false_iff.mp (hwait p hp)
    show execWalkRound core s = _
    simp only [execWalkRound, hwk, hx, hyield, hend, hready, hgroups, Bool.or_self, Bool.false_eq_true, if_false]
  · rw [accElem_stepAcc w a b bands acc (by omega), show (32 * i + j) / 32 = i by omega, show (32 * i + j) % 32 = j by omega, stepElem,
      if_pos (by rcases hty with h | h <;> simp [tyA, h])]
    have hdepth : stepDepth (tyA w) = 32 := by rcases hty with h | h <;> rw [tyA, h] <;> rfl
    rw [hdepth, upFrom_eq]
    simp only [Nat.zero_add, tyA, List.map_id']
    rw [Nat.mod_eq_of_lt (lowBits_lt _ _)]
  · simp [advanceRow, hleaf]
  · simp [advanceRow, hinner, hdeep]
  · have hshallow : ¬ e.depth.toNat = 64 := fun h => hdepth (BitVec.eq_of_toNat_eq h)
    simp [advanceRow, hinner, hshallow, ← hos, hchoice]
  · have hshallow : ¬ e.depth.toNat = 64 := fun h => hdepth (BitVec.eq_of_toNat_eq h)
    simp [advanceRow, hinner, hshallow, ← hos, hchoice, childTable, hdMatrix]
  · simp only [chooseChild, hrule, hnum, Nat.succ_ne_self, Bool.false_eq_true, if_false]

end Sys2Proof.Laws

namespace Sys2Proof.Laws
/-! A long result opened beside other changes of the machine (R40, R41). -/

open Sys2Proof.Machine

/-- What places a context's frame: its core, its slot and its trailing copy. -/
def seat (x : Ctx) : Nat × Nat × Option Nat := (x.core, x.slot, x.twin)

/-- From `s` to `u` the frames that are in a slot stay there, with their banks. -/
structure Apart (s u : State) : Prop where
  seats : ∀ g, (ctxOf u g).map seat = (ctxOf s g).map seat
  slots : ∀ c k, (slotOf s c k).act.frame ≠ none → (slotOf u c k).act = (slotOf s c k).act

/-- `u` and `v` differ as `s` and `t` do: in the banks, at each core where they differ at all. -/
structure Beside (s t u v : State) : Prop where
  rest : v = { u with cores := v.cores }
  seats : ∀ g, (ctxOf u g).map seat = (ctxOf s g).map seat
  core : ∀ c, coreOf v c = coreOf u c ∨
    (coreOf v c = { coreOf u c with slots := (coreOf t c).slots } ∧ (coreOf u c).slots = (coreOf s c).slots)

section
variable {s t u v : State} {f g e : Nat} {ws : Nat → Prop} {d0 d1 : BitVec 8} {i : Instr} {h : Hdr}

theorem seat_some {x : Ctx} (hs : (ctxOf u g).map seat = (ctxOf s g).map seat) (hx : ctxOf s g = some x) :
    ∃ y, ctxOf u g = some y ∧ y.core = x.core ∧ y.slot = x.slot ∧ y.twin = x.twin := by
  rw [hx] at hs
  cases hy : ctxOf u g with
  | none => rw [hy] at hs; cases hs
  | some y =>
    rw [hy] at hs
    simp only [Option.map_some, seat, Option.some.injEq, Prod.mk.injEq] at hs
    exact ⟨y, rfl, hs⟩

theorem seat_none (hs : (ctxOf u g).map seat = (ctxOf s g).map seat) (hx : ctxOf s g = none) : ctxOf u g = none := by
  rw [hx] at hs
  cases hy : ctxOf u g with
  | none => rfl
  | some y => rw [hy] at hs; cases hs

theorem twinOf_of_seat (hs : (ctxOf u g).map seat = (ctxOf s g).map seat) : twinOf u g = twinOf s g := by
  unfold twinOf
  cases hx : ctxOf s g with
  | none => rw [seat_none hs hx]
  | some x =>
    obtain ⟨y, hy, -, -, ht⟩ := seat_some hs hx
    rw [hy]
    exact ht

theorem inSlot_some (hi : inSlot s f = true) : ∃ x, ctxOf s f = some x ∧
    (slotOf s x.core x.slot).act.frame = some f ∧ wholeBank (slotOf s x.core x.slot).act = true := by
  unfold inSlot at hi
  split at hi
  · cases hi
  · next x hx =>
    rw [Bool.and_eq_true, beq_iff_eq] at hi
    exact ⟨x, hx, hi⟩

theorem Apart.rfl' : Apart s s := ⟨fun _ => rfl, fun _ _ _ => rfl⟩

theorem Apart.of_eq (hc : u.cores = s.cores) (hx : u.ctxs = s.ctxs) : Apart s u :=
  ⟨fun g => by unfold ctxOf; rw [hx], fun c k _ => by unfold slotOf coreOf; rw [hc]⟩

theorem Apart.trans (a : Apart s u) (b : Apart u v) : Apart s v :=
  ⟨fun g => (b.seats g).trans (a.seats g), fun c k hf => by
    rw [b.slots c k (by rw [a.slots c k hf]; exact hf), a.slots c k hf]⟩

theorem apart_modCore {F : Core → Core} {c : Nat} (hF : ∀ y, (F y).slots = y.slots) : Apart s (modCore s c F) := by
  refine ⟨fun g => by rw [ctxOf_modCore], fun c' k' _ => ?_⟩
  unfold slotOf
  by_cases hd : c' = c
  · subst hd
    rw [coreOf_modCore_eq, hF]
  · rw [coreOf_modCore_ne hd]

theorem apart_modSlot {F : Slot → Slot} {c k : Nat} (hF : ∀ y, (F y).act = y.act) : Apart s (modSlot s c k F) := by
  refine ⟨fun g => by rw [ctxOf_modSlot], fun c' k' _ => ?_⟩
  by_cases hk : (c', k') = (c, k)
  · obtain ⟨rfl, rfl⟩ := Prod.mk.inj hk
    rw [slotOf_modSlot_eq, hF]
  · rw [slotOf_modSlot_ne hk]

theorem Apart.ord (a : Apart s u) (n : Nat) : Apart s { u with ord := n } := a.trans (.of_eq rfl rfl)

theorem Apart.inSlot (a : Apart s u) (hi : inSlot s f = true) : inSlot u f = true := by
  obtain ⟨x, hx, hf, hw⟩ := inSlot_some hi
  obtain ⟨y, hy, hc, hk, -⟩ := seat_some (a.seats f) hx
  have hne : (slotOf s x.core x.slot).act.frame ≠ none := by rw [hf]; exact Option.some_ne_none f
  simp only [Machine.inSlot, hy, hc, hk, a.slots _ _ hne, hf, hw, beq_self_eq_true, Bool.and_self]

theorem Apart.bound (a : Apart s u) (hb : bound s f = true) : bound u f = true := by
  unfold Machine.bound
  rw [a.inSlot (bound_inSlot hb), twinOf_of_seat (a.seats f)]
  cases ht : twinOf s f with
  | none => rfl
  | some g =>
    obtain ⟨hne, hi⟩ := bound_twin hb ht
    simp only [a.inSlot hi, Bool.and_true, Bool.true_and, bne_iff_ne]
    exact hne

/-- A frame in its slot reads as before. -/
theorem Apart.readFrame (a : Apart s u) (hi : Machine.inSlot s f = true) {w : Nat} (hw : w < 640) :
    readFrame u f w = readFrame s f w := by
  obtain ⟨x, hx, hf, hwhole⟩ := inSlot_some hi
  obtain ⟨y, hy, hc, hk, -⟩ := seat_some (a.seats f) hx
  have hsl : (slotOf u x.core x.slot).act = (slotOf s x.core x.slot).act := a.slots _ _ (by rw [hf]; exact Option.some_ne_none f)
  have hv : (slotOf s x.core x.slot).act.valid = BitVec.allOnes 40 := by
    simpa [wholeBank, hf] using hwhole
  have hhas := bankHas_act hf hv hw
  simp only [Machine.readFrame, hx, hy, hc, hk, hsl, hhas, if_true]

theorem Apart.freeEntry (a : Apart s u) (hi : Machine.inSlot s f = true) : freeEntry u f = freeEntry s f := by
  have hk : ∀ k, k < 16 → entryFree u f k = entryFree s f k := fun k hk => by
    unfold entryFree
    rw [entryOf_of_frame (a.readFrame hi (by omega))]
  unfold Machine.freeEntry
  exact List.find?_congr fun k hk' => hk k (by rw [upFrom_eq, List.mem_map] at hk'; obtain ⟨j, hj, rfl⟩ := hk'; simpa using hj)

/-- A change of the machine that goes beside a write of frame words keeps what that write changes. -/
theorem Banked.beside (b : Banked s t f ws) (h : Beside s t u v) : Banked u v f ws := by
  have hslot : ∀ c k, slotOf v c k = slotOf u c k ∨ (slotOf v c k = slotOf t c k ∧ slotOf u c k = slotOf s c k) := fun c k =>
    (h.core c).imp (fun e => by rw [slotOf, e, slotOf]) fun ⟨e1, e2⟩ => ⟨by rw [slotOf, e1, slotOf], by rw [slotOf, e2, slotOf]⟩
  have hctx : ∀ g, ctxOf v g = ctxOf u g := fun g => by rw [h.rest]; rfl
  have hmem : ∀ a n, readBytes v a n = readBytes u a n := fun a n => by
    induction n generalizing a with
    | zero => rfl
    | succ n ih => simp only [readBytes, ih, readByte]; rw [h.rest]
  have hpo : ∀ k, poisoned v k 8 = poisoned u k 8 := fun k => by rw [h.rest]; rfl
  have hread : ∀ g w, readFrame t g w = readFrame s g w → readFrame v g w = readFrame u g w := by
    intro g w he
    cases hx : ctxOf s g with
    | none => simp only [readFrame, hctx, seat_none (h.seats g) hx, readWord, hmem]
    | some x =>
      obtain ⟨y, hy, hc, hk, -⟩ := seat_some (h.seats g) hx
      simp only [readFrame, hctx, hy, hc, hk, readWord, hmem]
      rcases hslot x.core x.slot with e | ⟨e1, e2⟩
      · rw [e]
      · rw [e1, e2]
        simp only [readFrame, b.ctxOf, hx] at he
        have hb := b.slot x.core x.slot
        have hact : bankHas (slotOf t x.core x.slot).act g w = bankHas (slotOf s x.core x.slot).act g w := by rw [hb]; rfl
        have hsh : (slotOf t x.core x.slot).shadow = (slotOf s x.core x.slot).shadow := by rw [hb]
        rw [hact, hsh] at he ⊢
        split at he <;> rename_i h1
        · simp only [h1, if_true, he]
        · simp only [h1, Bool.false_eq_true, if_false]
  have hmark : ∀ g w, wordMarked t g w = wordMarked s g w → wordMarked v g w = wordMarked u g w := by
    intro g w he
    cases hx : ctxOf s g with
    | none => simp only [wordMarked, hctx, seat_none (h.seats g) hx, hpo]
    | some x =>
      obtain ⟨y, hy, hc, hk, -⟩ := seat_some (h.seats g) hx
      simp only [wordMarked, hctx, hy, hc, hk, hpo]
      rcases hslot x.core x.slot with e | ⟨e1, e2⟩
      · rw [e]
      · rw [e1, e2]
        simp only [wordMarked, b.ctxOf, hx] at he
        have hb := b.slot x.core x.slot
        have hact : bankHas (slotOf t x.core x.slot).act g w = bankHas (slotOf s x.core x.slot).act g w := by rw [hb]; rfl
        have hsh : (slotOf t x.core x.slot).shadow = (slotOf s x.core x.slot).shadow := by rw [hb]
        rw [hact, hsh] at he ⊢
        split at he <;> rename_i h1
        · simp only [h1, if_true, he]
        · simp only [h1, Bool.false_eq_true, if_false]
  have htwin : twinOf u f = twinOf s f := twinOf_of_seat (h.seats f)
  refine ⟨h.rest, fun c => ?_, fun c k => ?_, fun w hw => hread f w (b.kept w hw), fun g hg w hw => ?_,
    fun g hg ht w => ?_, fun g w hw => ?_⟩
  · rcases h.core c with e | ⟨e, -⟩ <;> rw [e]
  · rcases hslot c k with e | ⟨e1, e2⟩
    · rw [e]
    · rw [e1, e2]
      exact b.slot c k
  · exact hread g w (b.twin g (by rw [← htwin]; exact hg) w hw)
  · exact hread g w (b.others g hg (by rw [← htwin]; exact ht) w)
  · exact hmark g w (b.marks g w (by rw [← htwin]; exact hw))

theorem openEntry_spec (hb : bound s f = true) (hf : freeEntry s f = some e) :
    Banked s (openEntry s f e d0 d1) f (· = 102 + e / 2) ∧ Opened s (openEntry s f e d0 d1) f e d0 d1 := by
  obtain ⟨b, r, ro⟩ := setEntry_spec (v := 2 ^ 31 + d1.toNat * 2 ^ 8 + d0.toNat) hb (freeEntry_lt hf) (by
    have := d0.isLt
    have := d1.isLt
    omega)
  exact ⟨b, r, ro⟩

theorem opened_of_frame (hf : freeEntry s f = some e) (ho : Opened s t f e d0 d1)
    (hr : ∀ w, 102 ≤ w → w < 110 → readFrame v f w = readFrame t f w) : Opened s v f e d0 d1 := by
  have hlt := freeEntry_lt hf
  refine ⟨?_, fun k hk hne => ?_⟩
  · rw [← ho.1]
    exact entryOf_of_frame (hr _ (by omega) (by omega))
  · rw [← ho.2 k hk hne]
    exact entryOf_of_frame (hr _ (by omega) (by omega))

/-- An instruction that opens a long result's entry beside other changes, and ends. -/
theorem endsAs_opened (hb : bound s f = true) (hf : freeEntry s f = some e) (he : exec i s = .next (finish h f v))
    (hu : Apart s u) (hv : Apart (openEntry s f e d0 d1) v) (hbes : Beside s (openEntry s f e d0 d1) u v)
    (hn : u.iss.next = s.iss.next) : EndsAs i h (· = 102 + e / 2) s u f fun t => Opened s t f e d0 d1 := by
  obtain ⟨b, ho⟩ := openEntry_spec (d0 := d0) (d1 := d1) hb hf
  obtain ⟨hw, hpc, hr⟩ := finish_wrote_beside (h := h) (hu.bound hb) (Banked.beside b hbes) hn
  refine ⟨_, he, hw, hpc, opened_of_frame hf ho fun w h1 h2 => ?_⟩
  rw [hr w (by simp only [wPc]; omega)]
  exact hv.readFrame (by rw [b.inSlot]; exact bound_inSlot hb) (by omega)

/-- The same, of changes outside the cores and the contexts. -/
theorem endsAs_opened_rest (hb : bound s f = true) (hf : freeEntry s f = some e) (he : exec i s = .next (finish h f v))
    (hc : u.cores = s.cores) (hx : u.ctxs = s.ctxs) (hv : v = { u with cores := (openEntry s f e d0 d1).cores })
    (hn : u.iss.next = s.iss.next) : EndsAs i h (· = 102 + e / 2) s u f fun t => Opened s t f e d0 d1 := by
  obtain ⟨b, -⟩ := openEntry_spec (d0 := d0) (d1 := d1) hb hf
  refine endsAs_opened hb hf he (.of_eq hc hx) (.of_eq (by rw [hv]) ?_) ⟨by rw [hv], fun g => by unfold ctxOf; rw [hx],
    fun c => .inr ⟨?_, by unfold coreOf; rw [hc]⟩⟩ hn
  · rw [hv, b.rest]
    exact hx
  · have h1 : coreOf v c = coreOf (openEntry s f e d0 d1) c := by unfold coreOf; rw [hv]
    have h2 : coreOf u c = coreOf s c := by unfold coreOf; rw [hc]
    rw [h1, h2]
    exact b.core c

/-- A long result that is sent at issue, beside changes outside the cores and the contexts. -/
theorem sendsResult_beside {ws : List RegWrite} {late : List TrapInfo} (hb : bound s f = true) (hf : freeEntry s f = some e)
    (he : exec i s = .next (finish h f (sendResult v f e ws late))) (hc : u.cores = s.cores) (hx : u.ctxs = s.ctxs)
    (hv : v = { u with cores := (openEntry s f e d0 d1).cores }) (hn : u.iss.next = s.iss.next) :
    SendsResult i h d0 d1 ws late s u f :=
  ⟨e, hf, endsAs_opened_rest (u := withRet u f e ws late) hb hf he hc hx (by rw [hv]; rfl) hn⟩

/-- An instruction that ends beside changes that leave the frames in their slots. -/
theorem endsAs_beside {P : State → Prop} (hb : bound s f = true) (he : exec i s = .next (finish h f u)) (hu : Apart s u)
    (hn : u.iss.next = s.iss.next) (hP : ∀ t, Wrote u t f h (fun _ => False) → P t) :
    EndsAs i h (fun _ => False) s u f P := by
  obtain ⟨hw, hpc, -⟩ := finish_wrote_beside (h := h) (ws := fun _ => False) (s := s) (hu.bound hb) Banked.refl hn
  exact ⟨_, he, hw, hpc, hP _ hw⟩

end

section
variable {i : Instr} {w : MWord} {specs : List (BitVec 8)} {s t : State} {f a : Nat} {x : Ctx} {r : AccessRule}
  {body : Nat → Ctx → Seg → Int → Nat → State → State}

/-- An access that reaches its check and passes it goes on. -/
theorem memAccess_next {g : Seg} {off : Int} (hc : reachesCheck i w specs s f x) (hg : g = readSeg s f w.seg.toNat)
    (hoff : off = memOff s f w) (hk : checkSeg s x g r off = .ok a) :
    memAccess i w specs r s body = .next (body f x g off a s) := by
  subst hg hoff
  obtain ⟨hi, hx, hsw, hbank⟩ := hc
  simp only [memAccess, withIssue_next hi, hx, hbank, Bool.false_eq_true, if_false, hk]
  cases hw : x.wait with
  | none => rfl
  | some v =>
    cases v with
    | fifoGone head => simp [fifoSwitched, hw] at hsw
    | _ => rfl

theorem reachesCheck_bound (hc : reachesCheck i w specs s f x) : bound s f = true := canIssue_bound hc.1

theorem pushReq_cores (q : Req) (hr : t = { s with cores := t.cores }) (hu : ∀ c, (coreOf t c).utlb = (coreOf s c).utlb) :
    pushReq t q = { pushReq s q with cores := t.cores } := by
  simp only [pushReq, microLookup, hu]
  rw [hr]
  rfl

theorem openEntry_utlb {e c : Nat} {d0 d1 : BitVec 8} (hb : bound s f = true) (hf : freeEntry s f = some e) :
    (coreOf (openEntry s f e d0 d1) c).utlb = (coreOf s c).utlb := by
  rw [(openEntry_spec hb hf).1.core c]

/-- An access that becomes a request of paged memory, with an entry for its result. -/
theorem endsAs_request {e : Nat} {d : BitVec 8} {h : Hdr} (q : Nat → State → Req) (hb : bound s f = true) (hf : freeEntry s f = some e)
    (he : exec i s = .next (withEntry d 0 f s fun e s => finish h f (pushReq s (q e s))))
    (hq : q e (openEntry s f e d 0) = q e s) :
    EndsAs i h (· = 102 + e / 2) s (pushReq s (q e s)) f fun t => Opened s t f e d 0 := by
  rw [withEntry_some hf, hq] at he
  exact endsAs_opened_rest hb hf he rfl rfl (pushReq_cores _ (openEntry_spec hb hf).1.rest fun c => openEntry_utlb hb hf) rfl

/-- An access through the window that becomes a request, with an entry for its result. -/
theorem endsAs_window {e : Nat} {d : BitVec 8} {h : Hdr} (q : Nat → State → Req) (hb : bound s f = true) (hf : freeEntry s f = some e)
    (he : exec i s = .next (withEntry d 0 f s fun e s => finish h f (pushWindow s (q e s))))
    (hq : q e (openEntry s f e d 0) = q e s) :
    EndsAs i h (· = 102 + e / 2) s (pushWindow s (q e s)) f fun t => Opened s t f e d 0 := by
  rw [withEntry_some hf, hq] at he
  refine endsAs_opened_rest hb hf he rfl rfl ?_ rfl
  have hr := (openEntry_spec (d0 := d) (d1 := 0) hb hf).1.rest
  simp only [pushWindow]
  rw [hr]

end

end Sys2Proof.Laws

namespace Sys2Proof.Laws
/-! Accesses through segments of kind 0 and 3 at their issue (R101, R102, R110, R112). -/

open Sys2Proof.Machine

section
variable {s t u v : State} {f g e : Nat} {F : Ctx → Ctx}

theorem seat_modCtx (hF : ∀ y, seat (F y) = seat y) : (ctxOf (modCtx s f F) g).map seat = (ctxOf s g).map seat := by
  by_cases hg : g = f
  · subst hg
    rw [ctxOf_modCtx_eq, Option.map_map]
    congr 1
    exact funext hF
  · rw [ctxOf_modCtx_ne hg]

theorem Apart.modCtx (a : Apart s u) (hF : ∀ y, seat (F y) = seat y) : Apart s (modCtx u f F) :=
  a.trans ⟨fun _ => seat_modCtx hF, fun c k _ => by rw [slotOf_modCtx]⟩

theorem Beside.modCtx (b : Beside s t u v) (hF : ∀ y, seat (F y) = seat y) : Beside s t (modCtx u f F) (modCtx v f F) := by
  refine ⟨?_, fun g => (seat_modCtx hF).trans (b.seats g), fun c => by simp only [coreOf_modCtx]; exact b.core c⟩
  have h : ctxOf v f = ctxOf u f := by rw [b.rest]; rfl
  simp only [Machine.modCtx, h]
  split
  · exact b.rest
  · simp only [setCtx]
    rw [b.rest]

/-- The fifth word breaks the watch set; each other joins it (R168). -/
def watchToo (n : Watch) (x : Ctx) : Ctx :=
  if 4 ≤ x.watch.length then { x with broken := true } else { x with watch := x.watch ++ [n] }

theorem seat_watchToo (n : Watch) (x : Ctx) : seat (watchToo n x) = seat x := by
  unfold watchToo
  split <;> rfl

end

theorem scalarReq_rest {s t : State} {f a : Nat} {x : Ctx} {w : MWord} {op : BitVec 3} {off : Int} {e : Option Nat}
    (hr : t = { s with cores := t.cores }) : scalarReq t f x w op off a e = scalarReq s f x w op off a e := by
  rw [hr]
  rfl

theorem pushReq_apart {s : State} (r : Req) : Apart s (pushReq s r) := .of_eq rfl rfl

theorem pushWindow_apart {s : State} (r : Req) : Apart s (pushWindow s r) := .of_eq rfl rfl

/-- Settles O16: an access that passes its check becomes a request; a load's opens its entry first. -/
theorem pagedAccessesBecomeRequests : Obligations.PagedAccessesBecomeRequests := by
  intro w s f n a e x g off hn hg hk hoff hf
  subst hn
  have hr : bound s f = true → ∀ d, openEntry s f e d 0 = { s with cores := (openEntry s f e d 0).cores } :=
    fun hb d => (openEntry_spec hb hf).1.rest
  refine ⟨fun hc hs => ?_, fun hc hs => ?_, fun hc hs => ?_, fun hc hs => ?_, fun hc hs => ?_, fun hc hs => ?_, fun hc hs => ?_⟩ <;>
    have hb := reachesCheck_bound hc
  · refine endsAs_beside hb ?_ (.of_eq rfl rfl) rfl fun t ht => by rw [ht.rest]; rfl
    show storeAccess _ w false s = _
    simp only [storeAccess, wBytes, Bool.false_eq_true, if_false]
    rw [memAccess_next hc hg hoff hs]
    simp only [hk]
  · refine endsAs_beside hb ?_ (.of_eq rfl rfl) rfl fun t ht => by rw [ht.rest]; rfl
    show storeAccess _ w true s = _
    simp only [storeAccess, wBytes, if_true]
    rw [memAccess_next hc hg hoff hs]
    simp only [hk]
  · refine endsAs_request (fun e s => scalarReq s f x w 0 off a (some e)) hb hf ?_ (scalarReq_rest (hr hb _))
    show execLd w s = _
    simp only [execLd, wBytes]
    rw [memAccess_next hc hg hoff hs]
    simp only [hk]
  · refine endsAs_request (fun e s => scalarReq s f x w 4 off a (some e)) hb hf ?_ (scalarReq_rest (hr hb _))
    show execLdsync w s = _
    simp only [execLdsync, wBytes, beq_iff_eq]
    rw [memAccess_next hc hg hoff hs]
    simp only [hk]
  · refine endsAs_request (fun e t => { scalarReq t f x w 2 off a (some e) with data := BitVec.ofNat 64 (readReg s f w.data) })
      hb hf ?_ (by rw [scalarReq_rest (hr hb _)])
    show execAtom w s = _
    simp only [execAtom, atomRule, wBytes]
    rw [memAccess_next hc hg hoff hs]
    simp only [hk]
  · refine endsAs_request (fun e t => { scalarReq t f x w 3 off a (some e) with
        data := BitVec.ofNat 64 (readReg s f w.data)
        data2 := BitVec.ofNat 64 (readReg s f (BitVec.ofNat 8 (idx w.data + 1))) })
      hb hf ?_ (by rw [scalarReq_rest (hr hb _)])
    show execCas w s = _
    simp only [execCas, atomRule, wBytes, gSpec]
    rw [memAccess_next hc hg hoff hs]
    simp only [hk]
  · have hF := seat_watchToo { seg := w.seg.toNat, off := off.toNat, addr := a, ord := s.ord, line := 0, home := none, served := false, changed := false }
    have hpush : pushReq (openEntry s f e w.data 0) (scalarReq s f x w 7 off a (some e)) =
        { pushReq s (scalarReq s f x w 7 off a (some e)) with cores := (openEntry s f e w.data 0).cores } :=
      pushReq_cores _ (hr hb _) fun c => openEntry_utlb hb hf
    have hord : (openEntry s f e w.data 0).ord = s.ord := by rw [hr hb]
    refine endsAs_opened (u := modCtx (pushReq s (scalarReq s f x w 7 off a (some e))) f (watchToo _))
      (v := modCtx (pushReq (openEntry s f e w.data 0) (scalarReq s f x w 7 off a (some e))) f (watchToo _)) hb hf ?_
      ((pushReq_apart _).modCtx hF) ((pushReq_apart _).modCtx hF) (Beside.modCtx ?_ hF) ?_
    · show execLdw w s = _
      rw [execLdw, memAccess_next hc hg hoff hs, withEntry_some hf]
      simp only [scalarReq_rest (hr hb _), hord]
      rfl
    · refine ⟨by rw [hpush], fun g => rfl, fun c => .inr ⟨(openEntry_spec hb hf).1.core c, rfl⟩⟩
    · rw [modCtx_eq]
      rfl

section
variable {s : State} {f g k : Nat} {j : JEntry} {i : Instr} {w : MWord} {kind : BitVec 3} {x : Ctx} {a n v : Nat}

theorem openJournal_apart (c : Nat) : Apart s (openJournal s c k j) := by
  have h1 : ∀ y, Apart s (setJentry s c k y) := fun y => apart_modCore fun _ => rfl
  unfold openJournal
  refine Apart.ord ?_ _
  refine Apart.trans ?_ (apart_modCore fun _ => rfl)
  exact (h1 _).trans (apart_modSlot fun _ => rfl)

theorem openJournal_rest (c : Nat) : (openJournal s c k j).iss = s.iss ∧ (openJournal s c k j).mem = s.mem := by
  unfold openJournal modSlot setJentry modCore
  exact ⟨rfl, rfl⟩

theorem openJournal_ends {h : Hdr} {c : Nat} (hb : bound s f = true) (he : exec i s = .next (finish h f (openJournal s c k j))) :
    EndsAs i h (fun _ => False) s (openJournal s c k j) f fun t => t.mem = s.mem := by
  obtain ⟨hiss, hmem⟩ := openJournal_rest (s := s) (k := k) (j := j) c
  exact endsAs_beside hb he (openJournal_apart _) (by rw [hiss]) fun t ht => by rw [ht.rest]; exact hmem

/-- With no journal entry free a remote store holds (R114). -/
theorem remoteStore_holds (hx : ctxOf s f = some x) (he : exec i s = .next (remoteStore w kind f x a n v s))
    (hj : freeJournal s x.core = none) : Holds i .retry s f := by
  refine ⟨x, hx, ?_⟩
  rw [he, remoteStore, hj]
  exact congrArg _ (hold_eq .retry hx)

/-- With one free a remote store takes it and ends (R112). -/
theorem remoteStore_ends (hb : bound s f = true) (he : exec i s = .next (remoteStore w kind f x a n v s))
    (hj : freeJournal s x.core = some k) :
    EndsAs i w.hdr (fun _ => False) s (openJournal s x.core k
      { state := 1, frame := f, slot := x.slot, kind := kind, size := BitVec.ofNat 3 n.log2, addr := BitVec.ofNat 64 a
        data := BitVec.ofNat 64 (v % 2 ^ (8 * n)), rel := qRel w.qual, scope := qScope w.qual
        sent := !qRel w.qual, todo := [winCluster a], pc := s.iss.pc }) f fun t => t.mem = s.mem := by
  exact openJournal_ends hb (by rw [he, remoteStore, hj])

end

/-- Settles O17: an access through the window becomes a request or a journal entry, as its instruction says. -/
theorem windowAccesses : Obligations.WindowAccesses := by
  intro w s f n a e x g off hn hg hk hoff hf
  subst hn
  have hr : bound s f = true → ∀ d, openEntry s f e d 0 = { s with cores := (openEntry s f e d 0).cores } :=
    fun hb d => (openEntry_spec hb hf).1.rest
  refine ⟨fun hc hs => ?_, fun hc hs => ?_, fun hc hs => ?_, fun hc hs => ?_, fun hc hs => ?_, fun hc hs hw => ?_,
    fun hc hs o hw hgone => ?_⟩ <;>
    have hb := reachesCheck_bound hc
  · refine endsAs_window (fun e s => scalarReq s f x w 0 off a (some e)) hb hf ?_ (scalarReq_rest (hr hb _))
    show execLd w s = _
    simp only [execLd, wBytes]
    rw [memAccess_next hc hg hoff hs]
    simp only [hk]
  · refine endsAs_window (fun e t => { scalarReq t f x w 2 off a (some e) with data := BitVec.ofNat 64 (readReg s f w.data) })
      hb hf ?_ (by rw [scalarReq_rest (hr hb _)])
    show execAtom w s = _
    simp only [execAtom, atomRule, wBytes]
    rw [memAccess_next hc hg hoff hs]
    simp only [hk]
  · refine endsAs_window (fun e t => { scalarReq t f x w 3 off a (some e) with
        data := BitVec.ofNat 64 (readReg s f w.data)
        data2 := BitVec.ofNat 64 (readReg s f (BitVec.ofNat 8 (idx w.data + 1))) })
      hb hf ?_ (by rw [scalarReq_rest (hr hb _)])
    show execCas w s = _
    simp only [execCas, atomRule, wBytes, gSpec]
    rw [memAccess_next hc hg hoff hs]
    simp only [hk]
  · have he : exec (.st w) s = .next (remoteStore w 0 f x a (tyWidth (tyOf w.hdr) / 8)
        (readReg s f w.data % 2 ^ (8 * (tyWidth (tyOf w.hdr) / 8))) s) := by
      show storeAccess _ w false s = _
      simp only [storeAccess, wBytes, Bool.false_eq_true, if_false]
      rw [memAccess_next hc hg hoff hs]
      simp only [hk]
    refine ⟨remoteStore_holds hc.2.1 he, fun k hj => ?_⟩
    have := remoteStore_ends hb he hj
    rwa [Nat.mod_mod] at this
  · have he : exec (.stf w) s = .next (remoteStore w 1 f x a (tyWidth (tyOf w.hdr) / 8)
        (readReg s f w.data % 2 ^ (8 * (tyWidth (tyOf w.hdr) / 8))) s) := by
      show storeAccess _ w true s = _
      simp only [storeAccess, wBytes, if_true]
      rw [memAccess_next hc hg hoff hs]
      simp only [hk]
    refine ⟨remoteStore_holds hc.2.1 he, fun k hj => ?_⟩
    have := remoteStore_ends hb he hj
    rwa [Nat.mod_mod] at this
  · obtain ⟨hbank, hopen⟩ := openEntry_spec (d0 := w.data) (d1 := 0) hb hf
    have hx : ctxOf (openEntry s f e w.data 0) f = some x := by rw [hbank.ctxOf, hc.2.1]
    have hord : (openEntry s f e w.data 0).ord = s.ord := by rw [hr hb]
    have hwreqs : (openEntry s f e w.data 0).wreqs = s.wreqs := by rw [hr hb]
    have hF : ∀ y : Ctx, seat { y with wait := some (.request s.ord), issued := true, live := none } = seat y := fun _ => rfl
    refine ⟨block (.request s.ord) f (pushWindow (openEntry s f e w.data 0)
      { scalarReq s f x w 4 off a (some e) with take := decide (qExtra w.qual % 2 = 1) }), ?_, ?_, ?_, ?_, rfl⟩
    · show execLdsync w s = _
      simp only [execLdsync, wBytes, beq_iff_eq]
      rw [memAccess_next hc hg hoff hs]
      simp only [hk, withEntry_some hf, hord, scalarReq_rest (hr hb w.data)]
      cases hw' : x.wait with
      | none => rfl
      | some o =>
        cases o with
        | request o => exact absurd hw' (hw o)
        | _ => rfl
    · rw [block_eq _ (show ctxOf (pushWindow (openEntry s f e w.data 0) _) f = some x from hx)]
      show (openEntry s f e w.data 0).wreqs ++ [{ scalarReq s f x w 4 off a (some e) with
        take := decide (qExtra w.qual % 2 = 1), ord := (openEntry s f e w.data 0).ord }] = _
      rw [hwreqs, hord]
      rfl
    · refine opened_of_frame hf hopen fun v _ h2 => ?_
      exact (((pushWindow_apart _).modCtx hF).trans (.of_eq rfl rfl)).readFrame (by rw [hbank.inSlot]; exact bound_inSlot hb) (by omega)
    · rw [block_eq _ (show ctxOf (pushWindow (openEntry s f e w.data 0) _) f = some x from hx)]
      exact ctxOf_setCtx_eq (s := pushWindow (openEntry s f e w.data 0) _) _
  · refine endsAs_finish hb ?_
    have hnone : (s.wreqs.any fun r => r.ord == o) = false := by
      simpa using hgone
    show execLdsync w s = _
    simp only [execLdsync, wBytes, beq_iff_eq]
    rw [memAccess_next hc hg hoff hs]
    simp only [hk, hw, hnone, Bool.false_eq_true, if_false]

end Sys2Proof.Laws

namespace Sys2Proof.Laws
/-! Accesses of core-local and scratch memory at their issue (R106, R107, R303, R304). -/

open Sys2Proof.Machine

section
variable {s t : State} {x : Ctx} {cl b o m f e flat n v : Nat} {i : Instr} {w : MWord}

theorem fifoArrival_head (h : Arrives s x (.fifoHead cl b) o m) : fifoArrival s x cl b true = (o, { s with ord := m }) := by
  unfold fifoArrival
  rcases h with ⟨hw, rfl⟩ | ⟨hno, rfl, rfl⟩
  · simp [hw]
  · cases hw : x.wait with
    | none => rfl
    | some y =>
      cases y with
      | fifoHead c k p =>
        have hne : (true && c == cl && k == b) = false := by
          rw [Bool.true_and, Bool.and_eq_false_iff, beq_eq_false_iff_ne, beq_eq_false_iff_ne]
          by_contra hcon
          push Not at hcon
          obtain ⟨rfl, rfl⟩ := hcon
          exact hno p hw
        simp only [hne, Bool.false_eq_true, if_false]
      | _ => rfl

/-- A near access's value, no word of it poisoned, is sent (R388). -/
theorem nearResult_sends {u : State} (hb : bound s f = true) (hf : freeEntry s f = some e)
    (hp : poisoned s flat n = false) (hc : u.cores = s.cores) (hx : u.ctxs = s.ctxs) (hq : u.poison = s.poison)
    (ht : t = { u with cores := (openEntry s f e w.data 0).cores }) (hn : u.iss.next = s.iss.next)
    (he : exec i s = .next (nearResult w f e flat n v t)) :
    SendsResult i w.hdr w.data 0 [regWrite w.data (extend (tyOf w.hdr) v)] [] s u f := by
  have hp' : poisoned t flat n = false := by
    rw [← hp, ht]
    unfold poisoned
    rw [hq]
  refine sendsResult_beside hb hf ?_ hc hx ht hn
  simp only [he, nearResult, hp', Bool.false_eq_true, if_false]

/-- A load of near memory in its turn: at a FIFO's ports, or of its bytes. -/
theorem exec_ld_near {g : Seg} {k a : Nat} (hc : reachesCheck (.ld w) w (memSpecs w) s f x) (hg : g = readSeg s f w.seg.toNat)
    (hs : checkSeg s x g { need := needRd, size := tyWidth (tyOf w.hdr) / 8, align := tyWidth (tyOf w.hdr) / 8, ports := [8, 16] }
      (memOff s f w) = .ok a) (hk : k = segKind g) (hkind : k = 1 ∨ k = 2)
    (hmay : mayPerform s x.core f w.qual (nearPlace s (nearFlat x k a)) = true) :
    exec (.ld w) s = .next (if k = 2 && bankMode s (clusterOf x.core) (a / 2 ^ 17) == 3 then
      if a % 2 ^ 17 = 8 then headLoad w f x (clusterOf x.core) (a / 2 ^ 17) s
      else withEntry w.data 0 f s fun e s =>
        finish w.hdr f (sendResult s f e [regWrite w.data (fifoOf s (clusterOf x.core) (a / 2 ^ 17)).length] [])
    else withEntry w.data 0 f s fun e s =>
      nearResult w f e (nearFlat x k a) (tyWidth (tyOf w.hdr) / 8)
        (threadBytes s (nearFlat x k a) (tyWidth (tyOf w.hdr) / 8)) s) := by
  show execLd w s = _
  simp only [execLd, wBytes]
  rw [memAccess_next hc hg rfl hs]
  rcases hkind with rfl | rfl <;> simp only [← hk, nearReady, hmay, Bool.not_true, Bool.false_eq_true, if_false]

/-- A LDSYNC of near memory in its turn waits for a full word. -/
theorem exec_ldsync_near {g : Seg} {k a : Nat} (hc : reachesCheck (.ldsync w) w (memSpecs w) s f x) (hg : g = readSeg s f w.seg.toNat)
    (hs : checkSeg s x g { need := needRd + needFe + (if qExtra w.qual % 2 = 1 then needWr else 0), size := tyWidth (tyOf w.hdr) / 8
                           align := tyWidth (tyOf w.hdr) / 8 } (memOff s f w) = .ok a) (hk : k = segKind g) (hkind : k = 1 ∨ k = 2)
    (hmay : mayPerform s x.core f w.qual (nearPlace s (nearFlat x k a)) = true) :
    exec (.ldsync w) s = .next (if !isFull s (nearFlat x k a) then block (.full (nearFlat x k a)) f s
      else withEntry w.data 0 f s fun e s =>
        nearResult w f e (nearFlat x k a) (tyWidth (tyOf w.hdr) / 8)
          (readBytes (if qExtra w.qual % 2 = 1 then setFull s (nearFlat x k a) false else s) (nearFlat x k a) (tyWidth (tyOf w.hdr) / 8))
          (if qExtra w.qual % 2 = 1 then setFull s (nearFlat x k a) false else s)) := by
  show execLdsync w s = _
  simp only [execLdsync, wBytes, beq_iff_eq]
  rw [memAccess_next hc hg rfl hs]
  rcases hkind with rfl | rfl <;> simp only [← hk, nearReady, hmay, Bool.not_true, Bool.false_eq_true, if_false]

theorem readBytes_of_mem {u : State} (h : u.mem = s.mem) : readBytes u flat n = readBytes s flat n := by
  induction n generalizing flat with
  | zero => rfl
  | succ n ih => simp only [readBytes, ih, readByte, h]

theorem behindRacing_rest (hr : t = { s with cores := t.cores }) (l : List Racing) (y : Word) :
    behindRacing t l y = behindRacing s l y := by
  have hsees : ∀ u, threadSees t u = threadSees s u := fun u => by rw [hr]; rfl
  induction l generalizing y with
  | nil => rfl
  | cons u rest ih => simp only [behindRacing, hsees, ih]

theorem threadBytes_rest (hr : t = { s with cores := t.cores }) : threadBytes t flat n = threadBytes s flat n := by
  have hmem : t.mem = s.mem := by rw [hr]
  have hrace : t.racing = s.racing := by rw [hr]
  simp only [threadBytes, readWord, readBytes_of_mem hmem, hrace, behindRacing_rest hr]

end

/-- Settles O14: each load ends as the branch of its rule says; its value is read as its entry is opened. -/
theorem nearLoads : Obligations.NearLoads := by
  intro w s f n a k flat cl b o m x g v q hn hg hk hkind hflat hmay hcl hbk hfree hp harr
  subst hn hcl hbk hflat
  obtain ⟨e, hf⟩ := Option.isSome_iff_exists.mp hfree
  have hr : bound s f = true → openEntry s f e w.data 0 = { s with cores := (openEntry s f e w.data 0).cores } :=
    fun hb => (openEntry_spec hb hf).1.rest
  refine ⟨fun hc hs => ?_, fun hc hs => ?_⟩
  · have hb := reachesCheck_bound hc
    have he := exec_ld_near hc hg hs hk hkind hmay
    refine ⟨fun hmode => ⟨?_, threadBytes_calm⟩, fun h2 h3 h8 hq hfirst => ?_, fun h2 h3 h8 hwait => ?_, fun h2 h3 h16 => ?_⟩
    · have hno : (decide (k = 2) && bankMode s (clusterOf x.core) (a / 2 ^ 17) == 3) = false := by
        rcases hmode with rfl | hm
        · rfl
        · rw [beq_eq_false_iff_ne.mpr hm, Bool.and_false]
      simp only [hno, Bool.false_eq_true, if_false, withEntry_some hf] at he
      rw [threadBytes_rest (hr hb)] at he
      exact nearResult_sends hb hf hp rfl rfl rfl (hr hb) rfl he
    all_goals simp only [h2, h3, decide_true, beq_self_eq_true, Bool.and_self, if_true] at he
    · simp only [h8, if_true, headLoad, withEntry_some hf, fifoArrival_head harr, hq, hfirst] at he
      refine sendsResult_beside (u := setFifo s _ _ q) hb hf he rfl rfl ?_ rfl
      unfold setFifo modCluster clusterSt
      rw [hr hb]
    · have hblock : block (.fifoHead (clusterOf x.core) (a / 2 ^ 17) o) f { s with ord := m } = _ :=
        block_eq (s := { s with ord := m }) _ hc.2.1
      simp only [h8, if_true, headLoad, withEntry_some hf, fifoArrival_head harr, hblock] at he
      rw [he]
      cases hl : fifoOf s (clusterOf x.core) (a / 2 ^ 17) with
      | nil => rfl
      | cons y ys =>
        rcases hwait with hnil | hturn
        · rw [hl] at hnil
          cases hnil
        · simp only [hturn, Bool.false_eq_true, if_false]
    · have h : ¬ a % 2 ^ 17 = 8 := by omega
      simp only [h, if_false, withEntry_some hf] at he
      have hfifo : fifoOf (openEntry s f e w.data 0) (clusterOf x.core) (a / 2 ^ 17) = fifoOf s (clusterOf x.core) (a / 2 ^ 17) := by
        unfold fifoOf clusterSt
        rw [hr hb]
      rw [hfifo] at he
      exact sendsResult_beside hb hf he rfl rfl (hr hb) rfl
  · have hb := reachesCheck_bound hc
    have he := exec_ldsync_near hc hg hs hk hkind hmay
    have hmem : (openEntry s f e w.data 0).mem = s.mem := by rw [hr hb]
    refine ⟨fun hfull => ⟨x, hc.2.1, ?_⟩, fun hfull htake => ?_, fun hfull htake => ?_⟩
    · rw [he, hfull]
      exact congrArg _ (block_eq _ hc.2.1)
    · have h : ¬ qExtra w.qual % 2 = 1 := by omega
      simp only [hfull, h, Bool.not_true, Bool.false_eq_true, if_false, withEntry_some hf, readBytes_of_mem hmem] at he
      exact nearResult_sends hb hf hp rfl rfl rfl (hr hb) rfl he
    · simp only [hfull, htake, Bool.not_true, Bool.false_eq_true, if_false, if_true, withEntry_some hf] at he
      rw [readBytes_of_mem (s := s) (by rw [← hmem]; rfl)] at he
      refine nearResult_sends (u := setFull s _ false) hb hf hp rfl rfl rfl ?_ rfl he
      unfold setFull
      rw [hr hb]

section
variable {α : Type} [DecidableEq α] {d : α} {m m' : SMap α} {k : Nat} {g : Nat → α → α}

omit [DecidableEq α] in
theorem get_eq_of_filter (h : m.filter (fun p => p.1 == k) = m'.filter fun p => p.1 == k) : SMap.get d m k = SMap.get d m' k := by
  have hself : ∀ l : SMap α, SMap.get d (l.filter fun p => p.1 == k) k = SMap.get d l k := by
    intro l
    induction l with
    | nil => rfl
    | cons p t ih =>
      obtain ⟨j, v⟩ := p
      by_cases hj : j = k
      · subst hj
        simp [SMap.get]
      · simp [SMap.get, hj, ih]
  rw [← hself m, h, hself]

theorem filter_mapOn (m : SMap α) :
    (SMap.mapOn d g m).filter (fun p => p.1 == k) = SMap.mapOn d g (m.filter fun p => p.1 == k) := by
  simp only [SMap.mapOn, List.filter_filter, List.filter_map]
  exact congrArg _ (List.filter_congr fun p _ => Bool.and_comm _ _)

theorem get_mapOn_of_filter (h : m.filter (fun p => p.1 == k) = m'.filter fun p => p.1 == k) :
    SMap.get d (SMap.mapOn d g m) k = SMap.get d (SMap.mapOn d g m') k :=
  get_eq_of_filter (by rw [filter_mapOn, filter_mapOn, h])

/-- A listed value whose image is no default maps to it. -/
theorem get_mapOn_of_ne (h : SMap.get d m k ≠ d) (hg : g k (SMap.get d m k) ≠ d) :
    SMap.get d (SMap.mapOn d g m) k = g k (SMap.get d m k) := by
  induction m with
  | nil => exact absurd rfl h
  | cons p t ih =>
    obtain ⟨j, v⟩ := p
    by_cases hj : j = k
    · subst hj
      simp only [SMap.get, if_true] at h hg ⊢
      simp [SMap.mapOn, hg, SMap.get]
    · simp only [SMap.get, hj, if_false] at h hg ⊢
      rw [← ih h hg]
      simp only [SMap.mapOn, List.map_cons, List.filter_cons]
      split
      · simp only [SMap.get, hj, if_false]
      · rfl

theorem filter_set_ne {j : Nat} {x : α} (h : k ≠ j) :
    (SMap.set d m j x).filter (fun p => p.1 == k) = m.filter fun p => p.1 == k := by
  have hne : (j == k) = false := beq_eq_false_iff_ne.mpr (Ne.symm h)
  unfold SMap.set
  split
  · induction m with
    | nil => rfl
    | cons p t ih =>
      obtain ⟨i, v⟩ := p
      simp only [SMap.drop]
      split
      · next hi => subst hi; simp only [List.filter_cons, hne, Bool.false_eq_true, if_false, ih]
      · simp only [List.filter_cons, ih]
  · induction m with
    | nil => simp [SMap.insert, hne]
    | cons p t ih =>
      obtain ⟨i, v⟩ := p
      simp only [SMap.insert]
      split
      · simp only [List.filter_cons, hne, Bool.false_eq_true, if_false]
      · split
        · next hi => subst hi; simp only [List.filter_cons, hne, Bool.false_eq_true, if_false]
        · simp only [List.filter_cons, ih]

end

/-- No frame of a context and its trailing copy is at core `c`. -/
def seatedApart (s : State) (f c : Nat) : Prop :=
  ∀ g x, (g = f ∨ twinOf s f = some g) → ctxOf s g = some x → x.core ≠ c

/-- What is listed of core `c`. -/
def listed (s : State) (c : Nat) : SMap Core := s.cores.filter fun p => p.1 == c

section
variable {s t : State} {f c w : Nat} {x : Word}

theorem listed_modSlot {k k' : Nat} {F : Slot → Slot} (h : k ≠ c) : listed (modSlot s k k' F) c = listed s c :=
  filter_set_ne (Ne.symm h)

theorem listed_writeFrame1 (hi : inSlot s f = true) (hw : w < 640) (hc : ∀ y, ctxOf s f = some y → y.core ≠ c) :
    listed (writeFrame1 s f w x) c = listed s c := by
  obtain ⟨y, hy, hf, hwhole⟩ := inSlot_some hi
  have hv : (slotOf s y.core y.slot).act.valid = BitVec.allOnes 40 := by simpa [wholeBank, hf] using hwhole
  simp only [writeFrame1, hy, bankHas_act hf hv hw, if_true]
  exact listed_modSlot (hc y hy)

theorem listed_markWord (hi : inSlot s f = true) (hw : w < 640) (hc : ∀ y, ctxOf s f = some y → y.core ≠ c) :
    listed (markWord s f w) c = listed s c := by
  obtain ⟨y, hy, hf, hwhole⟩ := inSlot_some hi
  have hv : (slotOf s y.core y.slot).act.valid = BitVec.allOnes 40 := by simpa [wholeBank, hf] using hwhole
  simp only [markWord, hy, bankHas_act hf hv hw, if_true]
  exact listed_modSlot (hc y hy)

theorem inSlot_writeFrame1 {g : Nat} (hi : inSlot s f = true) (hw : w < 640) (hg : inSlot s g = true) :
    inSlot (writeFrame1 s f w x) g = true := by
  have p := writeFrame1_puts (x := x) hi hw
  obtain ⟨y, hy, hf, hwhole⟩ := inSlot_some hg
  have hy' : ctxOf (writeFrame1 s f w x) g = some y := by
    rw [p.rest]
    exact hy
  simp only [inSlot, hy']
  rw [p.slot, Bool.and_eq_true, beq_iff_eq]
  exact ⟨hf, hwhole⟩

theorem listed_writeFrame (hb : bound s f = true) (hw : w < 640) (hc : seatedApart s f c) :
    listed (writeFrame s f w x) c = listed s c := by
  have h1 := listed_writeFrame1 (x := x) (bound_inSlot hb) hw fun y => hc f y (.inl rfl)
  unfold writeFrame
  cases ht : (ctxOf s f).bind Ctx.twin with
  | none => exact h1
  | some g =>
    obtain ⟨-, hi⟩ := bound_twin hb ht
    refine (listed_writeFrame1 (inSlot_writeFrame1 (bound_inSlot hb) hw hi) hw fun y hy => hc g y (.inr ht) ?_).trans h1
    rw [← hy, (writeFrame1_puts (x := x) (bound_inSlot hb) hw).rest]
    rfl

theorem listed_setEntry {e v : Nat} (hb : bound s f = true) (he : e < 16) (hc : seatedApart s f c) :
    listed (setEntry s f e v) c = listed s c := by
  have hw : 102 + e / 2 < 640 := by omega
  unfold setEntry
  generalize BitVec.ofNat 64 (putBits (readFrame s f (102 + e / 2)).toNat (32 * (e % 2) + 31) (32 * (e % 2)) v) = x
  have hmark : ∀ (t : State) g (m : Bool), Banked s t f (· = 102 + e / 2) → listed t c = listed s c → (g = f ∨ twinOf s f = some g) →
      Banked s (if m then markWord t g (102 + e / 2) else t) f (· = 102 + e / 2) ∧
        listed (if m then markWord t g (102 + e / 2) else t) c = listed s c := by
    intro t g m b hl hg
    cases m with
    | false => exact ⟨b, hl⟩
    | true =>
      have hi : inSlot t g = true := by
        rw [b.inSlot]
        rcases hg with rfl | hg
        · exact bound_inSlot hb
        · exact (bound_twin hb hg).2
      exact ⟨(b.mark hi hw hg).1, (listed_markWord hi hw fun y hy => hc g y hg (by rw [← hy, b.ctxOf])).trans hl⟩
  obtain ⟨b1, l1⟩ := hmark _ f (wordMarked s f (102 + e / 2)) (writeFrame_spec (x := x) hb hw).1 (listed_writeFrame hb hw hc) (.inl rfl)
  unfold writePart
  cases ht : (ctxOf s f).bind Ctx.twin with
  | none => exact l1
  | some g => exact (hmark _ g _ b1 l1 (.inr ht)).2

end

/-- The stores of a core's threads that an engine may still read behind, once a range has been written by another (R109). -/
def olderLeft (flat n : Nat) (x : Core) : List Unfenced :=
  x.unfenced.filter fun u => !(decide (flat / 8 ≤ u.addr) && decide (u.addr < (flat + n + 7) / 8))

/-- A core once a range has been written; the writer's own is left as it is. -/
def olderCore (o : Option Nat) (flat n c : Nat) (x : Core) : Core :=
  if o = some c then x else { x with unfenced := olderLeft flat n x }

/-- A thread's store, in the list of its core (R109). -/
def storeNoted (s : State) (f flat : Nat) (x : Core) : Core :=
  { x with unfenced := { frame := f, addr := flat / 8, old := readWord s (flat / 8 * 8)
                         made := s.tick * 2 ^ 100 + flat / 8 * 2 ^ 10 + (x.unfenced.filter fun u => u.addr == flat / 8).length } :: x.unfenced }

section
variable {s t : State} {f c core flat n y e : Nat} {b : Bool}

theorem core_ne_default {k : Nat} {x : Core} (h : (SMap.get ({} : Slot) x.slots k).act.frame ≠ none) : x ≠ {} := by
  rintro rfl
  exact h rfl

theorem endOlder_cores {o : Option Nat} : (endOlder s o flat n).cores = SMap.mapOn {} (olderCore o flat n) s.cores := rfl

/-- A core that holds a frame stays listed. -/
theorem coreOf_endOlder {o : Option Nat} {k : Nat} (h : (slotOf s c k).act.frame ≠ none) :
    coreOf (endOlder s o flat n) c = olderCore o flat n c (coreOf s c) := by
  rw [coreOf, endOlder_cores]
  refine get_mapOn_of_ne (core_ne_default h) ?_
  unfold olderCore
  split
  · exact core_ne_default h
  · exact core_ne_default (x := { coreOf s c with unfenced := _ }) h

theorem coreOf_nearStore_self {k : Nat} (h : (slotOf s core k).act.frame ≠ none) :
    coreOf (nearStore s core f flat n y b) core = storeNoted s f flat (coreOf s core) := by
  have hset : coreOf (nearStore s core f flat n y b) core = coreOf (addUnfenced (endOlder s (some core) flat n) core f flat) core := by
    cases b <;> rfl
  rw [hset, addUnfenced, coreOf_modCore_eq, coreOf_endOlder h, olderCore, if_pos rfl]
  rfl

theorem coreOf_nearStore_ne (hc : c ≠ core) :
    coreOf (nearStore s core f flat n y b) c = coreOf (endOlder s (some core) flat n) c := by
  have hset : coreOf (nearStore s core f flat n y b) c = coreOf (addUnfenced (endOlder s (some core) flat n) core f flat) c := by
    cases b <;> rfl
  rw [hset, addUnfenced, coreOf_modCore_ne hc]

theorem nearStore_apart : Apart s (nearStore s core f flat n y b) := by
  refine ⟨fun g => by cases b <;> rfl, fun c k h => ?_⟩
  by_cases hc : c = core
  · subst hc
    rw [slotOf, coreOf_nearStore_self h]
    rfl
  · rw [slotOf, coreOf_nearStore_ne hc, coreOf_endOlder h, olderCore]
    split <;> rfl

theorem nearStore_rest (hr : t = { s with cores := t.cores }) :
    nearStore t core f flat n y b = { nearStore s core f flat n y b with cores := (nearStore t core f flat n y b).cores } := by
  rw [hr]
  cases b <;> rfl

theorem storeNoted_rest (hr : t = { s with cores := t.cores }) (x : Core) : storeNoted t f flat x = storeNoted s f flat x := by
  rw [hr]
  rfl

/-- A near store goes beside the opening of its context's entry. -/
theorem nearStore_beside {d0 d1 : BitVec 8} {x : Ctx} (hb : bound s f = true) (hx : ctxOf s f = some x) (hf : freeEntry s f = some e) :
    Beside s (openEntry s f e d0 d1) (nearStore s x.core f flat n y b) (nearStore (openEntry s f e d0 d1) x.core f flat n y b) := by
  obtain ⟨hbank, -⟩ := openEntry_spec (d0 := d0) (d1 := d1) hb hf
  have hframe : ∀ {c k}, (slotOf s c k).act.frame ≠ none → (slotOf (openEntry s f e d0 d1) c k).act.frame ≠ none :=
    fun h => by rw [hbank.slot]; exact h
  have hseat : ∀ {g z}, (g = f ∨ twinOf s f = some g) → ctxOf s g = some z → (slotOf s z.core z.slot).act.frame ≠ none := by
    intro g z hg hz
    have hin : inSlot s g = true := by
      rcases hg with rfl | hg
      · exact bound_inSlot hb
      · exact (bound_twin hb hg).2
    obtain ⟨z', hz', hfr, -⟩ := inSlot_some hin
    obtain rfl : z' = z := Option.some.inj (hz'.symm.trans hz)
    rw [hfr]
    exact Option.some_ne_none g
  refine ⟨nearStore_rest hbank.rest, nearStore_apart.seats, fun c => ?_⟩
  by_cases hc : c = x.core
  · subst hc
    have h := hseat (.inl rfl) hx
    rw [coreOf_nearStore_self (hframe h), coreOf_nearStore_self h, hbank.core, storeNoted_rest hbank.rest]
    exact .inr ⟨rfl, rfl⟩
  · rw [coreOf_nearStore_ne hc, coreOf_nearStore_ne hc]
    by_cases hs : seatedApart s f c
    · refine .inl ?_
      rw [coreOf, coreOf, endOlder_cores, endOlder_cores]
      refine get_mapOn_of_filter ?_
      exact listed_setEntry hb (freeEntry_lt hf) hs
    · simp only [seatedApart, not_forall, not_not] at hs
      obtain ⟨g, z, hg, hz, rfl⟩ := hs
      have h := hseat hg hz
      have hne : ¬ some x.core = some z.core := fun e => hc (Option.some.inj e).symm
      rw [coreOf_endOlder (hframe h), coreOf_endOlder h, olderCore, olderCore, if_neg hne, if_neg hne, hbank.core]
      exact .inr ⟨rfl, rfl⟩

end

end Sys2Proof.Laws

namespace Sys2Proof.Laws
/-! Atomics in near memory at their issue (R106, R166, R167). -/

open Sys2Proof.Machine

section
variable {s t u v : State} {f e flat old new : Nat} {i : Instr} {w : MWord} {x : Ctx} {g : Nat → Option Nat}

theorem Beside.withRet (b : Beside s t u v) (ws : List RegWrite) (late : List TrapInfo) :
    Beside s t (withRet u f e ws late) (sendResult v f e ws late) := by
  refine ⟨?_, b.seats, b.core⟩
  unfold sendResult Machine.withRet
  rw [b.rest]

theorem Beside.refl (h : Banked s t f (· = 102 + e / 2)) : Beside s t s t := ⟨h.rest, fun _ => rfl, fun c => .inr ⟨h.core c, rfl⟩⟩

/-- An atomic whose turn it is: its old value is sent, and the new one, if there is one, stored. -/
theorem nearAtomic_sends (hb : bound s f = true) (hx : ctxOf s f = some x) (hf : freeEntry s f = some e)
    (hmay : mayPerform s x.core f w.qual (nearPlace s flat) = true) (hp : poisoned s flat (tyWidth (tyOf w.hdr) / 8) = false)
    (hold : old = readBytes s flat (tyWidth (tyOf w.hdr) / 8)) (he : exec i s = .next (nearAtomic w f x flat g s)) :
    SendsResult i w.hdr w.data 0 [regWrite w.data (extend (tyOf w.hdr) old)] [] s
      (match g old with
        | some v => nearStore s x.core f flat (tyWidth (tyOf w.hdr) / 8) v false
        | none => s) f := by
  obtain ⟨hbank, -⟩ := openEntry_spec (d0 := w.data) (d1 := 0) hb hf
  have hp' : poisoned (openEntry s f e w.data 0) flat (tyWidth (tyOf w.hdr) / 8) = false := by
    rw [← hp, hbank.rest]
    rfl
  have hmem : (openEntry s f e w.data 0).mem = s.mem := by rw [hbank.rest]
  simp only [nearAtomic, nearReady, wBytes, hmay, Bool.not_true, Bool.false_eq_true, if_false, withEntry_some hf, hp',
    readBytes_of_mem hmem, ← hold] at he
  refine ⟨e, hf, ?_⟩
  cases hg : g old with
  | none =>
    simp only [hg] at he
    exact endsAs_opened hb hf he (.of_eq rfl rfl) (.of_eq rfl rfl) ((Beside.refl hbank).withRet _ _) rfl
  | some v =>
    simp only [hg] at he
    exact endsAs_opened hb hf he (nearStore_apart.trans (.of_eq rfl rfl)) (nearStore_apart.trans (.of_eq rfl rfl))
      ((nearStore_beside hb hx hf).withRet _ _) rfl

theorem nearStore_stored {core n y : Nat} : Stored s (nearStore s core f flat n y false) flat n y := stored_of_mem rfl

/-- Values below the width are told apart by the integers they read as. -/
theorem asInt_inj {ty a b : Nat} (ha : a < 2 ^ tyWidth ty) (hb : b < 2 ^ tyWidth ty) (h : asInt ty a = asInt ty b) : a = b := by
  unfold asInt sextInt at h
  rw [Nat.mod_eq_of_lt ha, Nat.mod_eq_of_lt hb] at h
  generalize 2 ^ tyWidth ty = p at *
  split at h
  · split at h <;> split at h <;> omega
  · omega

theorem atomNew_eq {fn ty a b : Nat} (ha : a < 2 ^ tyWidth ty) (hb : b < 2 ^ tyWidth ty) :
    atomNew fn ty a b = (match fn with
      | 0 => a + b
      | 1 => a &&& b
      | 2 => a ||| b
      | 3 => a ^^^ b
      | 4 => b
      | 5 => if asInt ty a ≤ asInt ty b then a else b
      | _ => if asInt ty a ≤ asInt ty b then b else a) % 2 ^ tyWidth ty := by
  have hmax : (if asInt ty b ≤ asInt ty a then a else b) = if asInt ty a ≤ asInt ty b then b else a := by
    split <;> split
    · exact asInt_inj ha hb (by omega)
    · rfl
    · rfl
    · omega
  rw [← hmax]
  rfl

end

/-- Settles O15: the word is read, its new value found and stored, as one step of the issue. -/
theorem nearAtomics : Obligations.NearAtomics := by
  intro w s f n a k flat old v v2 y x g hn hg hk hkind hflat hmay hfree hp hold hv hv2 hs
  obtain ⟨e, hf⟩ := Option.isSome_iff_exists.mp hfree
  have hwidth : ∀ {i specs}, reachesCheck i w specs s f x → (legal i = true → tyAtom (tyOf w.hdr) = true) →
      8 * n = tyWidth (tyOf w.hdr) := by
    intro i specs hc ht
    have := ht (canIssue_legal hc.1)
    simp only [tyAtom, Bool.or_eq_true, beq_iff_eq] at this
    rcases this with ((h | h) | h) | h <;> rw [hn, h] <;> rfl
  subst hn hflat
  refine ⟨fun hc hy => ?_, fun hc => ?_⟩
  · have hb := reachesCheck_bound hc
    have h8 := hwidth hc fun hl => by simp only [legal, okM, Bool.and_eq_true] at hl; tauto
    have he : exec (.atom w) s = .next (nearAtomic w f x (nearFlat x k a) (fun old =>
        some (atomNew (fnOf w.hdr) (tyOf w.hdr) old (readReg s f w.data % 2 ^ tyWidth (tyOf w.hdr)))) s) := by
      show execAtom w s = _
      simp only [execAtom, atomRule, wBytes]
      rw [memAccess_next hc hg rfl hs]
      rcases hkind with rfl | rfl <;> simp only [← hk]
    have hnew : atomNew (fnOf w.hdr) (tyOf w.hdr) old (readReg s f w.data % 2 ^ tyWidth (tyOf w.hdr)) = y := by
      have hlt : old < 2 ^ tyWidth (tyOf w.hdr) := by
        have := readBytes_lt (s := s) (k := nearFlat x k a) (n := tyWidth (tyOf w.hdr) / 8)
        rwa [← hold, show 256 = 2 ^ 8 from rfl, ← Nat.pow_mul, h8] at this
      rw [atomNew_eq hlt (Nat.mod_lt _ (by positivity)), hy, hv, h8] <;> rfl
    have := nearAtomic_sends hb hc.2.1 hf hmay hp hold he
    simp only [hnew] at this
    exact ⟨this, nearStore_stored⟩
  · have hb := reachesCheck_bound hc
    have h8 := hwidth hc fun hl => by simp only [legal, okM, Bool.and_eq_true] at hl; tauto
    have he : exec (.cas w) s = .next (nearAtomic w f x (nearFlat x k a) (fun old =>
        if old = v then some v2 else none) s) := by
      show execCas w s = _
      simp only [execCas, atomRule, wBytes, gSpec]
      rw [hv, hv2, h8, memAccess_next hc hg rfl hs]
      rcases hkind with rfl | rfl <;> simp only [← hk]
    have := nearAtomic_sends hb hc.2.1 hf hmay hp hold he
    refine ⟨fun heq => ⟨?_, nearStore_stored⟩, fun hne => ?_⟩
    · simpa only [heq, if_true] using this
    · simpa only [hne, if_false] using this

end Sys2Proof.Laws

namespace Sys2Proof.Laws
/-! The work of the home slices and the caches (R305 to R316): what it keeps of the machine. -/

open Sys2Proof.Machine

/-- Every bank of a core's slots is whole or empty. -/
def wholeCore (x : Core) : Bool := x.slots.all fun k => wholeBank k.2.act && wholeBank k.2.shadow

/-- From `s` to `t` memory stays canonical and the banks stay whole. -/
structure Keeps (s t : State) : Prop where
  tidy : tidyMemory s = true → tidyMemory t = true
  whole : wholeBanks s = true → wholeBanks t = true

/-- From `s` to `t` slices and caches have worked, or bytes have been written at their home: a core that holds a frame
keeps all but what its engines and its micro-TLB see, and a context all but its watch set. -/
structure Busy (s t : State) : Prop where
  rest : t = { s with mem := t.mem, poison := t.poison, copyMarks := t.copyMarks, behind := t.behind, racing := t.racing
                      cores := t.cores, ctxs := t.ctxs, clusters := t.clusters, slices := t.slices }
  core : ∀ c k, (slotOf s c k).act.frame ≠ none →
    coreOf t c = { coreOf s c with unfenced := (coreOf t c).unfenced, utlb := (coreOf t c).utlb }
  ctx : ∀ g x, ctxOf s g = some x → ∃ l, ctxOf t g = some { x with watch := l }
  empty : s.ctxs = [] → t.ctxs = []
  keeps : Keeps s t

/-- A watch set once a line of it has changed (R314). -/
def touchSet (line : Nat) (l : List Watch) : List Watch :=
  l.map fun w => if w.served && w.line == line then { w with changed := true } else w

theorem touchWatch_ctxs (s : State) (line : Nat) : (touchWatch s line).ctxs =
    SMap.mapOn none (fun _ o => o.map fun x => { x with watch := touchSet line x.watch }) s.ctxs := rfl

section
variable {s t u : State}

theorem wholeBanks_iff : wholeBanks s = true ↔ ∀ p ∈ s.cores, wholeCore p.2 = true := by
  simp only [wholeBanks, List.all_eq_true, wholeCore]

theorem wholeCore_coreOf (h : wholeBanks s = true) (c : Nat) : wholeCore (coreOf s c) = true := by
  rcases SMap.get_mem (d := ({} : Core)) (m := s.cores) (k := c) with h0 | h0
  · rw [coreOf, h0]
    rfl
  · exact wholeBanks_iff.mp h _ h0

theorem Keeps.refl : Keeps s s := ⟨id, id⟩

theorem Keeps.trans (a : Keeps s t) (b : Keeps t u) : Keeps s u := ⟨b.tidy ∘ a.tidy, b.whole ∘ a.whole⟩

/-- What leaves memory and the cores alone keeps them. -/
theorem Keeps.of_eq (hm : t.mem = s.mem) (hf : t.full = s.full) (hp : t.poison = s.poison) (hc : t.cores = s.cores) : Keeps s t :=
  ⟨fun h => by rw [tidyMemory, hm, hf, hp]; exact h, fun h => by rw [wholeBanks, hc]; exact h⟩

theorem keeps_modCore {c : Nat} {F : Core → Core} (hF : wholeCore (coreOf s c) = true → wholeCore (F (coreOf s c)) = true) :
    Keeps s (modCore s c F) := by
  refine ⟨fun h => h, fun h => wholeBanks_iff.mpr fun p hp => ?_⟩
  rcases SMap.mem_set hp with hp | rfl
  · exact wholeBanks_iff.mp h p hp
  · exact hF (wholeCore_coreOf h c)

theorem keeps_mapCores {F : Nat → Core → Core} (ht : t.cores = SMap.mapOn {} F s.cores)
    (hF : ∀ c x, wholeCore x = true → wholeCore (F c x) = true) (htidy : tidyMemory s = true → tidyMemory t = true) : Keeps s t := by
  refine ⟨htidy, fun h => wholeBanks_iff.mpr fun p hp => ?_⟩
  rw [ht, SMap.mapOn, List.mem_filter, List.mem_map] at hp
  obtain ⟨⟨q, hq, rfl⟩, -⟩ := hp
  exact hF _ _ (wholeBanks_iff.mp h q hq)

theorem Busy.refl : Busy s s := ⟨rfl, fun _ _ _ => rfl, fun _ x h => ⟨x.watch, h⟩, id, .refl⟩

theorem Busy.trans (a : Busy s t) (b : Busy t u) : Busy s u := by
  refine ⟨b.rest.trans (by rw [a.rest]), fun c k h => ?_, fun g x hx => ?_, b.empty ∘ a.empty, a.keeps.trans b.keeps⟩
  · have hs : slotOf t c k = slotOf s c k := by rw [slotOf, a.core c k h, slotOf]
    have h2 := b.core c k (by rw [hs]; exact h)
    rw [a.core c k h] at h2
    exact h2
  · obtain ⟨l, hl⟩ := a.ctx g x hx
    obtain ⟨m, hm⟩ := b.ctx g _ hl
    exact ⟨m, hm⟩

theorem busy_foldl {α : Type} {F : State → α → State} (hF : ∀ s a, Busy s (F s a)) (l : List α) (s : State) :
    Busy s (l.foldl F s) := by
  induction l generalizing s with
  | nil => exact .refl
  | cons a l ih => exact (hF s a).trans (ih _)

/-- What changes slices, caches and what lies behind a line, and nothing else. -/
theorem Busy.quiet (h : t = { s with copyMarks := t.copyMarks, behind := t.behind, clusters := t.clusters, slices := t.slices }) :
    Busy s t := by
  refine ⟨by rw [h], fun c k _ => ?_, fun g x hx => ⟨x.watch, by rw [h]; exact hx⟩,
    fun hc => by rw [h]; exact hc, .of_eq (by rw [h]) (by rw [h]) (by rw [h]) (by rw [h])⟩
  have : coreOf t c = coreOf s c := by rw [h]; rfl
  rw [this]

variable {n sel cl line sec flat k v : Nat}

theorem busy_modSlice (F : Slice → Slice) : Busy s (modSlice s n F) := .quiet rfl
theorem busy_modCluster (F : Cluster → Cluster) : Busy s (modCluster s cl F) := .quiet rfl
theorem busy_touchWatch : Busy s (touchWatch s line) := by
  refine ⟨rfl, fun _ _ _ => rfl, fun g x hx => ?_, fun hc => by rw [touchWatch_ctxs, hc]; rfl, .of_eq rfl rfl rfl rfl⟩
  have hg : SMap.get none s.ctxs g = some x := hx
  refine ⟨touchSet line x.watch, ?_⟩
  rw [ctxOf, touchWatch_ctxs]
  refine (get_mapOn_of_ne (by simp [hg]) (by simp [hg])).trans ?_
  rw [hg]
  rfl
theorem busy_clearBehind : Busy s (clearBehind s flat) := .quiet rfl
theorem busy_settleMarks : Busy s (settleMarks s flat) := .quiet rfl
theorem busy_unshare : Busy s (unshare s cl line) := .quiet rfl
theorem busy_countSlice : Busy s (countSlice s n sel k) := busy_modSlice _
theorem busy_countCluster : Busy s (countCluster s cl sel k) := busy_modCluster _
theorem busy_slicePut (l : SLine) : Busy s (slicePut s n l) := busy_modSlice _
theorem busy_dropClusterLine : Busy s (dropClusterLine s cl line) := busy_modCluster _
theorem busy_share : Busy s (share s n cl line) := busy_modSlice _
theorem busy_countServed (b : Bool) : Busy s (countServed s n b) := busy_countSlice

theorem busy_endOlder {o : Option Nat} : Busy s (endOlder s o flat n) := by
  refine ⟨rfl, fun c k h => ?_, fun _ x h => ⟨x.watch, h⟩, id, keeps_mapCores endOlder_cores (fun c x hx => ?_) id⟩
  · rw [coreOf_endOlder h, olderCore]
    split <;> rfl
  · unfold olderCore
    split <;> exact hx

theorem busy_fillCluster {part va level e : Nat} : Busy s (fillCluster s cl part va level e) := busy_modCluster _

theorem busy_fillMicro {core slot va level e : Nat} : Busy s (fillMicro s core slot va level e) := by
  refine ⟨rfl, fun c k _ => ?_, fun _ x h => ⟨x.watch, h⟩, id, keeps_modCore fun h => h⟩
  by_cases hc : c = core
  · subst hc
    rw [fillMicro, coreOf_modCore_eq]
  · rw [fillMicro, coreOf_modCore_ne hc]

/-- What changes memory and its marks, canonically. -/
theorem Busy.memory (h : t = { s with mem := t.mem, poison := t.poison, behind := t.behind, copyMarks := t.copyMarks })
    (ht : tidyMemory s = true → tidyMemory t = true) : Busy s t := by
  have hc : ∀ c, coreOf t c = coreOf s c := fun c => by rw [h]; rfl
  exact ⟨by rw [h], fun c k _ => by rw [hc c], fun g x hx => ⟨x.watch, by rw [h]; exact hx⟩,
    fun hx => by rw [h]; exact hx, ht, fun hw => by rw [wholeBanks, h]; exact hw⟩

theorem busy_writeBytes : Busy s (writeBytes s k n v) := .memory rfl tidyMemory_writeBytes

theorem putBehind_foldl_wf (l : List (Nat × Option Byte)) {m : List Host.Cell} (h : Memory.wf m = true) :
    Memory.wf (l.foldl putBehind m) = true := by
  induction l generalizing m with
  | nil => exact h
  | cons p l ih =>
    refine ih ?_
    unfold putBehind
    cases p.2 with
    | none => exact h
    | some b => exact writeByte_wf h

theorem busy_revealSector : Busy s (revealSector s flat) := by
  refine Busy.trans ?_ (busy_clearBehind.trans busy_settleMarks)
  refine (busy_foldl (fun s p => busy_endOlder) _ s).trans (.memory rfl fun h => ?_)
  simp only [tidyMemory, Bool.and_eq_true] at h ⊢
  obtain ⟨⟨hm, hf⟩, hp⟩ := h
  exact ⟨⟨putBehind_foldl_wf _ hm, hf⟩, foldl_mark_wf _ hp _⟩

theorem busy_writeBack (l : SLine) : Busy s (writeBack s n l sec) := by
  unfold writeBack
  split
  · exact (busy_clearBehind.trans busy_settleMarks).trans busy_countSlice
  · exact .refl

theorem busy_releaseSector (l : SLine) : Busy s (releaseSector s n l sec) := by
  unfold releaseSector
  split
  · exact (busy_writeBack l).trans busy_revealSector
  · exact .refl

theorem busy_evictLine (l : SLine) : Busy s (evictLine s n sel l) := by
  refine Busy.trans ?_ (((busy_modSlice _).trans (busy_countSlice.trans busy_countSlice)).trans busy_touchWatch)
  refine Busy.trans ?_ ((busy_releaseSector (sec := 0) l).trans (busy_releaseSector (sec := 1) l))
  exact busy_foldl (fun s cl => busy_dropClusterLine) _ s

theorem busy_makeRoom {set need : Nat} {keep : List Nat} (fuel : Nat) : Busy s (makeRoom n set sel keep need fuel s) := by
  induction fuel generalizing s with
  | zero => exact .refl
  | succ fuel ih =>
    unfold makeRoom
    split
    · exact .refl
    · split
      · exact .refl
      · exact (busy_evictLine _).trans ih

theorem busy_freeTag {set : Nat} {keep : List Nat} : Busy s (freeTag s n set keep) := by
  unfold freeTag
  split
  · exact .refl
  · split
    · exact busy_evictLine _
    · exact .refl

theorem busy_holdSector {keep : List Nat} (t : Target) : Busy s (holdSector s n keep t).2 := by
  unfold holdSector
  simp only
  split
  · split
    · exact busy_slicePut _
    · exact ((busy_makeRoom 24).trans (busy_slicePut _)).trans busy_countSlice
  · exact ((busy_freeTag.trans (busy_makeRoom 24)).trans (busy_slicePut _)).trans busy_countSlice

theorem busy_countPoolRead (t : Target) : Busy s (countPoolRead s n t) := by
  unfold countPoolRead
  split
  · exact busy_countSlice
  · exact .refl

theorem busy_askSectors (ts : List Target) : Busy s (askSectors s n ts) := by
  have h : ∀ (l : List Target) (p : Bool × State), Busy p.2 (l.foldl (fun (p : Bool × State) t =>
      let q := holdSector p.2 n [] t
      (p.1 || q.1, q.2)) p).2 := by
    intro l
    induction l with
    | nil => exact fun p => .refl
    | cons t l ih => exact fun p => Busy.trans (busy_holdSector (n := n) (keep := []) t) (ih (p.1 || (holdSector p.2 n [] t).1, _))
  exact (h ts (false, s)).trans (busy_countServed _)

theorem busy_sliceRead (t : Target) : Busy s (sliceRead s n t) :=
  ((busy_holdSector t).trans (busy_countServed _)).trans (busy_countPoolRead t)

theorem busy_noteSlice (t : Target) : Busy s (noteSlice s t) := by
  unfold noteSlice
  split
  · exact .refl
  · exact busy_sliceRead t

theorem busy_noteWalk {part va : Nat} : Busy s (noteWalk s part va) := busy_foldl (fun _ _ => busy_noteSlice _) _ s

theorem busy_trimCluster {set keep : Nat} {grow : Bool} (fuel : Nat) : Busy s (trimCluster cl set keep grow fuel s) := by
  induction fuel generalizing s with
  | zero => exact .refl
  | succ fuel ih =>
    unfold trimCluster
    simp only
    split
    · exact .refl
    · split
      · exact .refl
      · refine Busy.trans ?_ ih
        split
        · exact (busy_dropClusterLine.trans busy_unshare).trans busy_countCluster
        · exact busy_dropClusterLine.trans busy_unshare

theorem busy_fillCline (t : Target) : Busy s (fillCline s cl t) := (busy_modCluster _).trans (busy_trimCluster 64)

theorem busy_clusterRead {o : Option Nat} (t : Target) : Busy s (clusterRead s cl o t) := by
  unfold clusterRead
  simp only
  refine (busy_countCluster (s := s) (cl := cl) (sel := 3) (k := 1)).trans ?_
  split
  · split
    · exact busy_countCluster.trans (busy_modCluster _)
    · refine Busy.trans ?_ (busy_fillCline t)
      cases o with
      | none => exact .refl
      | some n => exact (busy_sliceRead t).trans busy_share
  · have hread : ∀ u : State, Busy u (o.elim u fun n => sliceRead u n t) := fun u => by
      cases o with
      | none => exact .refl
      | some n => exact busy_sliceRead t
    refine (hread _).trans ?_
    split
    · exact .refl
    · refine Busy.trans ?_ (busy_fillCline t)
      cases o with
      | none => exact .refl
      | some n => exact busy_share

theorem busy_expanderRead : Busy s (expanderRead s cl line) := by
  unfold expanderRead
  simp only
  split
  · exact .refl
  · refine Busy.trans ?_ (busy_modCluster _)
    split
    · exact busy_countCluster.trans busy_countCluster
    · exact busy_countCluster

theorem busy_noteFetch (t : Target) : Busy s (noteFetch s cl t) := by
  unfold noteFetch
  split
  · exact busy_clusterRead t
  · exact busy_noteSlice t

theorem busy_noteRead (t : Target) : Busy s (noteRead s cl t) := by
  unfold noteRead
  split
  · exact (busy_clusterRead t).trans busy_expanderRead
  · exact busy_noteSlice t

theorem busy_noteWrite {o : Option Nat} {keep : List Nat} (t : Target) : Busy s (noteWrite s o n keep t) := by
  unfold noteWrite
  simp only
  have htouch := busy_touchWatch (s := s) (line := t.flat / 256)
  split
  · exact htouch
  · next l _ =>
    have hput : ∀ (u : State) (m : SLine) (k : Nat) (c : List Nat) (g : Nat), Busy s u →
        Busy s (countSlice (slicePut (makeRoom n l.set 9 c g 24 u) n m) n 13 k) := fun u m k c g h =>
      ((h.trans (busy_makeRoom 24)).trans (busy_slicePut _)).trans busy_countSlice
    split
    · exact hput _ _ _ _ _ (htouch.trans (busy_foldl (fun s c => busy_dropClusterLine) _ _))
    · refine Busy.trans ?_ (busy_trimCluster 64)
      exact hput _ _ _ _ _ (htouch.trans (busy_foldl (fun s c => busy_dropClusterLine) _ _))

theorem busy_homeWriteIn {keep : List Nat} {asked : Bool} (w : Writer) (t : Target) : Busy s (homeWriteIn keep asked s w t n v) := by
  unfold homeWriteIn
  simp only
  have hend := busy_endOlder (s := s) (o := w.core) (flat := t.flat) (n := n)
  split
  · exact (hend.trans busy_writeBytes).trans busy_touchWatch
  · next h _ =>
    refine Busy.trans ?_ (busy_writeBytes.trans (busy_noteWrite t))
    split
    · exact (hend.trans (busy_holdSector t)).trans (busy_countServed _)
    · exact hend.trans (busy_holdSector t)

theorem busy_homeWrite (w : Writer) (t : Target) : Busy s (homeWrite s w t n v) := busy_homeWriteIn w t

theorem busy_devWrite : Busy s (devWrite s flat v n) := by
  induction n with
  | zero => exact .refl
  | succ n ih => exact ih.trans (busy_homeWrite _ _)

theorem busy_devClear : Busy s (devClear s flat n) := by
  induction n with
  | zero => exact .refl
  | succ n ih => exact ih.trans (busy_homeWrite _ _)

theorem busy_devRead : Busy s (devRead s flat n) := by
  induction n with
  | zero => exact .refl
  | succ n ih => exact ih.trans (busy_noteSlice _)

theorem busy_portWrite : Busy s (portWrite s k n v) :=
  (busy_endOlder.trans (busy_writeBytes.trans (.quiet rfl))).trans (busy_foldl (fun _ _ => busy_touchWatch) _ _)

theorem busy_portXlate {part va : Nat} : Busy s (portXlate s cl part va).1 := by
  unfold portXlate
  split
  · exact .refl
  · split
    · exact busy_noteWalk.trans busy_fillCluster
    · exact busy_noteWalk

theorem busy_missWalk {core slot part va : Nat} : Busy s (missWalk s core slot part va).1 := by
  have hp := busy_portXlate (s := s) (cl := clusterOf core) (part := part) (va := va)
  unfold missWalk
  split
  · next h =>
    rw [h] at hp
    exact hp.trans busy_fillMicro
  · exact hp

theorem busy_engineXlate {core slot part va : Nat} : Busy s (engineXlate s core slot part va).1 := by
  unfold engineXlate
  split
  · exact .refl
  · exact busy_missWalk

theorem busy_writeVirt {part : Nat} (fuel : Nat) {va n v : Nat} : Busy s (writeVirt part fuel s va n v) := by
  induction fuel generalizing s va n v with
  | zero => exact .refl
  | succ fuel ih =>
    unfold writeVirt
    split
    · exact .refl
    · simp only
      refine Busy.trans ?_ ih
      split
      · exact busy_noteWalk.trans (busy_homeWrite _ _)
      · exact busy_noteWalk

/-- The task of a context whose frame is in its slot, after a slice's work. -/
theorem Busy.ctxPart {f : Nat} {x : Ctx} (b : Busy s t) (hb : inSlot s f = true) (hx : ctxOf s f = some x) :
    ctxPart t x = ctxPart s x := by
  obtain ⟨y, hy, hf, -⟩ := inSlot_some hb
  obtain rfl := Option.some.inj (hy.symm.trans hx)
  rw [Machine.ctxPart, ctxTask, taskOf, b.core y.core y.slot (by rw [hf]; exact Option.some_ne_none f)]
  rfl

end

end Sys2Proof.Laws

namespace Sys2Proof.Laws
/-! LAUNCH (R163). -/

open Sys2Proof.Machine

section
variable {s t v : State} {f e d flat : Nat} {w : RWord} {x : Ctx}

/-- The record of a launch that is accepted joins its die's queue under the next token. -/
theorem acceptLaunch_queues {core part n : Nat} {tok : Word} (hd : d = dieOf core)
    (htok : tok = BitVec.ofNat 64 (d / 4 % 1024 * 2 ^ 54 + d % 4 * 2 ^ 52 + (dieSt s d).seqTok.toNat)) :
    (acceptLaunch s core part n).1 = tok ∧
      (dieSt (acceptLaunch s core part n).2 d).devQ = (dieSt s d).devQ ++
        [{ token := tok, words := (splitBits 64 16 n).map (BitVec.ofNat 64), die := d, part := part, ord := s.ord }] ∧
      (dieSt (acceptLaunch s core part n).2 d).seqTok = (dieSt s d).seqTok + 1 ∧ (acceptLaunch s core part n).2.mem = s.mem := by
  subst hd htok
  have hdie : ∀ (u : State) (F : Die → Die), dieSt (modDie u (dieOf core) F) (dieOf core) = F (dieSt u (dieOf core)) :=
    fun u F => SMap.get_set_eq
  refine ⟨rfl, ?_, ?_, rfl⟩
  · rw [acceptLaunch, hdie]
    show (dieSt (takeToken s (dieOf core)).2 (dieOf core)).devQ ++ _ = _
    rw [takeToken, hdie]
    rfl
  · rw [acceptLaunch, hdie]
    show (dieSt (takeToken s (dieOf core)).2 (dieOf core)).seqTok = _
    rw [takeToken, hdie]

/-- Where the segment's kind has been resolved, LAUNCH reads its record there, at `flat` or nowhere. -/
theorem readLaunch_effect {at_ : Option Nat} {tok : Word} (hd : d = dieOf x.core) (hpart : ctxPart v x = ctxPart s x)
    (he : exec (.launch w) s = .next (readLaunch w f e x at_ v)) :
    (at_ = none → exec (.launch w) s = .next (finish w.hdr f (sendResult v f e [regWrite w.d 0] []))) ∧
    (∀ flat, at_ = some flat → firmwareRuns v d = false →
      exec (.launch w) s = .next (finish w.hdr f (sendResult v f e [regWrite w.d 0] []))) ∧
    (∀ flat, at_ = some flat → firmwareRuns v d = true → poisoned v flat 128 = true →
      exec (.launch w) s = .next (finish w.hdr f (sendResult (logPoison v f (firstPoison v flat 128) v.iss.pc) f e
        [regWrite w.d 0] []))) ∧
    (∀ flat, at_ = some flat → firmwareRuns v d = true → poisoned v flat 128 = false →
      64 ≤ ((dieSt v d).devQ.filter fun l => l.src == 0).length →
      exec (.launch w) s = .next (finish w.hdr f (sendResult v f e [regWrite w.d 0] []))) ∧
    (∀ flat, at_ = some flat → firmwareRuns v d = true → poisoned v flat 128 = false →
      ((dieSt v d).devQ.filter fun l => l.src == 0).length < 64 →
      tok = BitVec.ofNat 64 (d / 4 % 1024 * 2 ^ 54 + d % 4 * 2 ^ 52 + (dieSt v d).seqTok.toNat) →
      ∃ u, exec (.launch w) s = .next (finish w.hdr f (sendResult u f e [regWrite w.d tok.toNat] [])) ∧
        (dieSt u d).devQ = (dieSt v d).devQ ++
          [{ token := tok, words := (splitBits 64 16 (readBytes v flat 128)).map (BitVec.ofNat 64),
             die := d, part := ctxPart s x, ord := v.ord }] ∧
        (dieSt u d).seqTok = (dieSt v d).seqTok + 1 ∧ u.mem = v.mem) := by
  refine ⟨fun ha => ?_, fun flat ha hrun => ?_, fun flat ha hrun hp => ?_, fun flat ha hrun hp hq => ?_,
    fun flat ha hrun hp hq htok => ?_⟩ <;> subst ha hd
  · exact he
  · rw [he, readLaunch]
    simp only [hrun, Bool.not_false, if_true]
    rfl
  · rw [he, readLaunch]
    simp only [hrun, hp, Bool.not_true, Bool.false_eq_true, if_false, if_true]
    rfl
  · rw [he, readLaunch]
    simp only [hrun, hp, hq, Bool.not_true, Bool.false_eq_true, if_false, if_true]
    rfl
  · obtain ⟨h1, hq', ht', hm⟩ := acceptLaunch_queues (n := readBytes v flat 128) (part := ctxPart v x) rfl htok
    refine ⟨(acceptLaunch v x.core (ctxPart v x) (readBytes v flat 128)).2, ?_, by rw [hq', hpart], ht', hm⟩
    rw [he, readLaunch]
    simp only [hrun, hp, Nat.not_le.mpr hq, Bool.not_true, Bool.false_eq_true, if_false, h1]

end

/-- Settles O11: whatever the kind of its segment, LAUNCH comes to `readLaunch` at the record's place. -/
theorem launchQueuesRecord : Obligations.LaunchQueuesRecord := by
  intro w s v f a e d at_ x g tok hc hx hg hheld hs hperf hf hkind hd
  have hb := canIssue_bound hc
  obtain ⟨hbank, -⟩ := openEntry_spec (d0 := w.d) (d1 := 0) hb hf
  have hin : inSlot (openEntry s f e w.d 0) f = true := by
    rw [hbank.inSlot]
    exact bound_inSlot hb
  have hctx : ctxOf (openEntry s f e w.d 0) f = some x := by rw [hbank.ctxOf, hx]
  have hpart : ctxPart (openEntry s f e w.d 0) x = ctxPart s x := by
    rw [ctxPart, ctxTask, taskOf, hbank.core]
    rfl
  subst hg
  have hbusy := busy_engineXlate (s := openEntry s f e w.d 0) (core := x.core) (slot := x.slot) (part := ctxPart s x) (va := a)
  refine readLaunch_effect hd ?_ ?_
  · rcases hkind with ⟨-, rfl, -⟩ | ⟨-, -, -, -, rfl, -⟩ | ⟨-, u, level, pte, hx', -, -, rfl, -⟩ | ⟨-, cause, level, hx', -⟩
    · exact hpart
    · exact hpart
    · rw [hx'] at hbusy
      exact ((hbusy.trans (busy_noteSlice _)).ctxPart hin hctx).trans hpart
    · rw [hx'] at hbusy
      exact (hbusy.ctxPart hin hctx).trans hpart
  · show execLaunch w s = _
    simp only [execLaunch, withIssue_next hc, hx, hs, hheld, hperf, Bool.not_true, Bool.or_self, Bool.false_eq_true, if_false,
      withEntry_some hf]
    rcases hkind with ⟨hk, rfl, rfl⟩ | ⟨hk, hroute, hreach, hwin, rfl, rfl⟩ |
      ⟨hk, u, level, pte, hx', hwait, hreach, rfl, rfl⟩ | ⟨hk, cause, level, hx', rfl⟩
    · rcases hk with hk | hk <;> simp only [hk]
    · simp only [hk, hroute, hreach, hwin, Bool.and_self, Bool.false_eq_true, if_false, if_true]
    · simp only [hk, hx', hwait, hreach, Bool.false_eq_true, if_false, if_true]
    · simp only [hk, hx']

end Sys2Proof.Laws

namespace Sys2Proof.Refutations
/-! A refutation that turns on a core that is listed twice. -/

open Sys2Proof.Machine Sys2Proof.Tests

/-- A line of the set that a prefetch of `0x10000` fills, with more billets than leave room for another. -/
def otherLine : SLine :=
  { line := 0x200, set := 1, cmp := false, held := 1, enc0 := 8 * 64, enc1 := 0, dirty := 0, sharers := 0, pinned := 0 }

/-- Core 7 is listed twice: with a store of the word `0x20000` that its engines may not see yet, and with a bank that holds
a frame. An agent outside the package has written behind `otherLine`, at that word. -/
def twiceListed : State :=
  { paged with
    cores := paged.cores ++ [(7, { unfenced := [{ frame := 9, addr := 0x4000, old := 0, made := 0 }] }),
      (7, { slots := [(0, { act := { frame := some 9 } })] })]
    slices := [(1, { lines := [otherLine] })]
    behind := [(0x20000, some 0xAA)] }

/-- The frame in slot 0 of core 7 after a step. -/
def frameOf7 : Out → Option Nat
  | .next t => (slotOf t 7 0).act.frame
  | _ => none

theorem frameOf7_twiceListed : frameOf7 (exec (.pref (mm 0 0 1 0x10000)) twiceListed) = some 9 := by decide +kernel

/-- The program counter in the bank of slot 0 of core 0 after a step. -/
def pcOf0 : Out → Option Word
  | .next t => some (SMap.get 0 (slotOf t 0 0).act.words wPc)
  | _ => none

/-- The place of context 2 after a step. -/
def seatOf2 : Out → Option (Nat × Nat × Option Nat)
  | .next t => (ctxOf t 2).map Laws.seat
  | _ => none

theorem pcOf0_twiceListed : pcOf0 (exec (.pref (mm 0 0 1 0x10000)) twiceListed) = some 0x10001 := by decide +kernel

theorem seatOf2_twiceListed : seatOf2 (exec (.pref (mm 0 0 1 0x10000)) twiceListed) = some (0, 0, none) := by decide +kernel

/-- A context stays, in its place, whatever is written of its frame. -/
theorem writeFrame1_seat {u : State} {f g w : Nat} {v : Word} {y : Ctx} (hy : ctxOf u g = some y) :
    ∃ l, ctxOf (writeFrame1 u f w v) g = some { y with watch := l } := by
  unfold writeFrame1
  split
  · exact Laws.busy_devWrite.ctx g y hy
  · simp only
    split
    · exact ⟨y.watch, hy⟩
    · split
      · exact ⟨y.watch, hy⟩
      · exact Laws.busy_devWrite.ctx g y hy

theorem finish_seat {u : State} {f : Nat} {h : Hdr} {y z : Ctx} (hy : ctxOf u f = some y) (hz : ctxOf (finish h f u) f = some z) :
    z.core = y.core ∧ z.slot = y.slot ∧ z.twin = y.twin := by
  have hw : ∃ l, ctxOf (writeFrame u f wPc u.iss.next) f = some { y with watch := l } := by
    obtain ⟨l, hl⟩ := writeFrame1_seat (f := f) (w := wPc) (v := u.iss.next) hy
    unfold writeFrame
    simp only
    split
    · exact ⟨l, hl⟩
    · obtain ⟨m, hm⟩ := writeFrame1_seat hl
      exact ⟨m, hm⟩
  obtain ⟨l, hl⟩ := hw
  have hfin : ctxOf (finish h f u) f = (ctxOf (writeFrame u f wPc u.iss.next) f).map _ := ctxOf_modCtx_eq _
  rw [hfin, hl] at hz
  obtain rfl := Option.some.inj hz
  exact ⟨rfl, rfl, rfl⟩

/-- The end of the issue of a context that is none leaves a slot that holds a frame as it is. -/
theorem finish_none {u : State} {f c k : Nat} {h : Hdr} (hy : ctxOf u f = none) (hk : (slotOf u c k).act.frame ≠ none) :
    slotOf (finish h f u) c k = slotOf u c k := by
  have hw : writeFrame u f wPc u.iss.next = writeStored u f wPc u.iss.next := by
    simp only [writeFrame, writeFrame1, hy, Option.bind_none]
  have hfin : slotOf (finish h f u) c k = slotOf (writeFrame u f wPc u.iss.next) c k := slotOf_modCtx _ c k
  have hbusy : Laws.Busy u (writeStored u f wPc u.iss.next) := Laws.busy_devWrite
  rw [hfin, hw, slotOf, hbusy.core c k hk, slotOf]

/-- Refutes O18: what PREF evicts ends the store that made the first listing, so that the second one shows. -/
theorem not_fencesAndConditionalStore : ¬ Obligations.FencesAndConditionalStore := by
  intro h
  obtain ⟨-, -, hpref⟩ := h.1 (rr 0 0 0 0 0) (mm 0 0 1 0x10000) twiceListed 2 x0 (by decide +kernel)
  obtain ⟨-, u, hu, -, hslots, -⟩ := hpref (by decide +kernel)
  have hframe := frameOf7_twiceListed
  have hpc := pcOf0_twiceListed
  have hseat := seatOf2_twiceListed
  rw [hu] at hframe hpc hseat
  cases hy : ctxOf u 2 with
  | none =>
    have hk : (slotOf u 0 0).act.frame ≠ none := by
      rw [hslots]
      decide +kernel
    rw [pcOf0, finish_none hy hk, hslots] at hpc
    exact absurd hpc (by decide +kernel)
  | some y =>
    cases hz : ctxOf (finish (mm 0 0 1 0x10000).hdr 2 u) 2 with
    | none =>
      rw [seatOf2, hz] at hseat
      cases hseat
    | some z =>
      obtain ⟨hc, hs, ht⟩ := finish_seat hy hz
      rw [seatOf2, hz, Option.map_some, Laws.seat, hc, hs, ht, Option.some.injEq, Prod.mk.injEq, Prod.mk.injEq] at hseat
      obtain ⟨hc, hs, ht⟩ := hseat
      have hbound : bound u 2 = true := by
        simp only [bound, inSlot, twinOf, hy, Option.bind_some, hc, hs, ht, hslots]
        decide +kernel
      obtain ⟨hw, -⟩ := finish_wrote (h := (mm 0 0 1 0x10000).hdr) (ws := fun _ => False) hbound Banked.refl
      rw [frameOf7, hw.slot, hslots] at hframe
      exact absurd (show (slotOf twiceListed 7 0).act.frame = some 9 from hframe) (by decide +kernel)

end Sys2Proof.Refutations

namespace Sys2Proof.Laws
/-! Fetch lines, bank modes, prefetches, flushes and drops (R51, R302, R319, R320, R337). -/

open Sys2Proof.Machine

section
variable {α : Type} [DecidableEq α] {d : α} {m : SMap α} {k : Nat} {g : Nat → α → α}

/-- What a changed map lists is the image of something. -/
theorem get_mapOn_image : SMap.get d (SMap.mapOn d g m) k = d ∨ ∃ x, SMap.get d (SMap.mapOn d g m) k = g k x := by
  refine (SMap.get_mem (m := SMap.mapOn d g m)).imp_right fun h => ?_
  rw [SMap.mapOn, List.mem_filter, List.mem_map] at h
  obtain ⟨⟨p, -, hp⟩, -⟩ := h
  obtain ⟨rfl, hv⟩ := Prod.mk.inj hp
  exact ⟨p.2, hv.symm⟩

end

/-- An entry of a cluster's TLB that a drop reaches (R337). -/
def dropsEntry (d : TlbDrop) (e : TlbEntry) : Bool :=
  e.tag == d.part && (d.mode == 2 || (d.mode == 0 && tlbOverlaps e d.lo d.len))

/-- A cluster once a drop has been made there. -/
def dropCluster (s : State) (d : TlbDrop) (cl : Nat) (x : Cluster) : Cluster :=
  if dropScope s d (cl * 16) then { x with tlb := x.tlb.filter fun e => !dropsEntry d e } else x

/-- The machine once the n-th drop has been made. -/
def dropMade (s : State) (d : TlbDrop) (n : Nat) : State :=
  { s with
    drops := s.drops.eraseIdx n
    cores := SMap.mapOn {} (fun c x =>
      if dropScope s d c then { x with utlb := x.utlb.filter fun e => !dropsMicro s d c e } else x) s.cores
    clusters := SMap.mapOn {} (dropCluster s d) s.clusters }

section
variable {s : State} {d : TlbDrop} {n : Nat}

theorem dropBusy_of {y : Req} (hy : y ∈ s.reqs) (ht : y.target.isSome = true) (hs : dropScope s d y.core = true)
    (hm : d.mode ≠ 0 ∨ inSpans y ((d.lo, d.len) :: d.spans) = true) : dropBusy s d = true := by
  rw [dropBusy, Bool.or_eq_true, List.any_eq_true]
  refine .inl ⟨y, hy, ?_⟩
  rw [ht, hs, Bool.true_and, Bool.true_and, Bool.or_eq_true, bne_iff_ne]
  exact hm

/-- A drop that is made leaves no entry that it reaches, in a cluster of its scope. -/
theorem tlbDrop_done (hd : s.drops[n]? = some d) (hb : dropBusy s d = false) :
    ∃ t, exec (.tlbDropComplete n) s = .next t ∧ t.drops = s.drops.eraseIdx n ∧ t.mem = s.mem ∧
      t.clusters = SMap.mapOn {} (dropCluster s d) s.clusters := by
  refine ⟨dropMade s d n, ?_, rfl, rfl, rfl⟩
  show execTlbDropComplete n s = _
  simp only [execTlbDropComplete, hd, hb, Bool.false_eq_true, if_false]
  rfl

theorem tlb_dropped {t : State} {c : Nat} {e : TlbEntry} (ht : t.clusters = SMap.mapOn {} (dropCluster s d) s.clusters)
    (hs : dropScope s d (c * 16) = true) (he : e ∈ (clusterSt t c).tlb) : dropsEntry d e = false := by
  rw [clusterSt, ht] at he
  rcases get_mapOn_image (d := ({} : Cluster)) (g := dropCluster s d) (m := s.clusters) (k := c) with h | ⟨x, h⟩
  · rw [h] at he
    cases he
  · rw [h, dropCluster, if_pos hs, List.mem_filter] at he
    simpa using he.2

end

/-- Settles O52: each event's branch is the one its premises name; a drop filters every TLB of its scope. -/
theorem fetchAndSliceEvents : Obligations.FetchAndSliceEvents := by
  intro s core slot n f cl r t w rest p q d
  refine ⟨fun hf hfr => ⟨fun hw => ?_, fun hw hreach hp => ?_⟩, fun hr ht => ⟨fun hw => ?_, fun hw hreach hp => ?_⟩,
    fun hsw hrow => ?_, fun hsw hrow => ⟨fun hne => ?_, fun he => ⟨_, rfl, ?_⟩⟩, fun hp => ?_, fun hq l ls hl => ?_,
    fun hd ⟨y, hy, ht, hs, hm⟩ => ?_, fun hd hb => ?_⟩
  · show execLineRefetch core slot s = _
    simp only [execLineRefetch, hf, hfr, hw, if_true]
  · show execLineRefetch core slot s = _
    simp only [execLineRefetch, hf, hfr, hw, hreach, hp, Bool.not_true, Bool.false_eq_true, if_false]
  · show execInstructionFetchComplete core slot s = _
    simp only [execInstructionFetchComplete, hr, ht, hw, if_true]
  · show execInstructionFetchComplete core slot s = _
    simp only [execInstructionFetchComplete, hr, ht, hw, hreach, hp, Bool.not_true, Bool.false_eq_true, if_false]
  · show execBankModeSwitchComplete cl w.bank s = _
    simp only [execBankModeSwitchComplete, hsw, hrow, Bool.or_true, if_true]
  · show execBankModeSwitchComplete cl w.bank s = _
    simp only [execBankModeSwitchComplete, hsw, hrow, ne_eq, hne, not_true, not_false_eq_true, decide_false, Bool.or_self,
      Bool.false_eq_true, if_true, if_false]
  · show execBankModeSwitchComplete cl w.bank s = _
    subst he
    simp only [execBankModeSwitchComplete, hsw, hrow, ne_eq, not_true, decide_false, Bool.or_self, Bool.false_eq_true, if_false]
  · show execPfrComplete core n s = _
    simp only [execPfrComplete, hp]
  · show execSectorWriteBackComplete n s = _
    simp only [execSectorWriteBackComplete, hq, hl]
  · show execTlbDropComplete n s = _
    simp only [execTlbDropComplete, hd, dropBusy_of hy ht hs hm, if_true]
  · obtain ⟨t, hx, hdrops, hmem, hcl⟩ := tlbDrop_done hd hb
    refine ⟨t, hx, hdrops, hmem, fun c e hlevel hin he htag => ?_⟩
    have hs : dropScope s d (c * 16) = true := by
      rw [dropScope, hin, hlevel, beq_self_eq_true, Bool.and_self]
    have hno := tlb_dropped hcl hs he
    rw [dropsEntry, htag, beq_self_eq_true, Bool.true_and, Bool.or_eq_false_iff] at hno
    obtain ⟨h2, h0⟩ := hno
    refine ⟨by simpa using h2, fun hm => ?_⟩
    rwa [hm, beq_self_eq_true, Bool.true_and] at h0

end Sys2Proof.Laws

namespace Sys2Proof.Laws
/-! Flits, nacks and injectors (R382, R395, R396). -/

open Sys2Proof.Machine

section
variable {α : Type} [DecidableEq α] {d : α} {m : SMap α} {k : Nat} {x y : α}

omit [DecidableEq α] in
theorem insert_insert : SMap.insert (SMap.insert m k x) k y = SMap.insert m k y := by
  induction m with
  | nil => simp [SMap.insert]
  | cons p t ih =>
    obtain ⟨j, v⟩ := p
    by_cases h1 : k < j
    · simp [SMap.insert, h1]
    · by_cases h2 : j = k
      · subst h2
        simp [SMap.insert]
      · simp [SMap.insert, h1, h2, ih]

omit [DecidableEq α] in
theorem drop_insert : SMap.drop (SMap.insert m k x) k = SMap.drop m k := by
  induction m with
  | nil => simp [SMap.insert, SMap.drop]
  | cons p t ih =>
    obtain ⟨j, v⟩ := p
    by_cases h1 : k < j
    · simp [SMap.insert, h1, SMap.drop]
    · by_cases h2 : j = k
      · subst h2
        simp [SMap.insert, SMap.drop]
      · simp [SMap.insert, h1, h2, SMap.drop, ih]

theorem set_set (h : x ≠ d) : SMap.set d (SMap.set d m k x) k y = SMap.set d m k y := by
  unfold SMap.set
  rw [if_neg h, drop_insert, insert_insert]

end

section
variable {s : State} {k : Nat} {F G : Link → Link}

theorem linkSt_modLink : linkSt (modLink s k F) k = F (linkSt s k) := SMap.get_set_eq

theorem linkSt_modLink_ne {j : Nat} (h : j ≠ k) : linkSt (modLink s k F) j = linkSt s j := SMap.get_set_ne h

theorem modLink_congr (h : F (linkSt s k) = G (linkSt s k)) : modLink s k F = modLink s k G := by
  rw [modLink, modLink, h]

/-- Two changes of a link that is up in between. -/
theorem modLink_modLink (h : (F (linkSt s k)).up = true) : modLink (modLink s k F) k G = modLink s k fun x => G (F x) := by
  have hne : F (linkSt s k) ≠ {} := by
    intro e
    rw [e] at h
    cases h
  have hset : SMap.set {} (SMap.set {} s.links k (F (linkSt s k))) k (G (F (linkSt s k))) =
      SMap.set {} s.links k (G (F (linkSt s k))) := set_set hne
  unfold modLink
  rw [show linkSt { s with links := SMap.set {} s.links k (F (linkSt s k)) } k = F (linkSt s k) from SMap.get_set_eq]
  simp only [hset]

end

/-- What sending flits leaves of a link: what it has received. -/
theorem pumpFlits_keeps (l : List FlitOut) (x : Link) : (pumpFlits l x).inbox = x.inbox ∧ (pumpFlits l x).rxSeq = x.rxSeq ∧
    (pumpFlits l x).fails = x.fails ∧ (pumpFlits l x).up = x.up := by
  induction l generalizing x with
  | nil => exact ⟨rfl, rfl, rfl, rfl⟩
  | cons f l ih =>
    rw [pumpFlits]
    split
    · obtain ⟨h1, h2, h3, h4⟩ := ih (emitFlit x f)
      rw [h1, h2, h3, h4]
      unfold emitFlit
      simp only
      split <;> exact ⟨rfl, rfl, rfl, rfl⟩
    · exact ih _

theorem pumpFlits_ack (x : Link) (b : Bool) (q : BitVec 12) :
    pumpFlits [ackFlit b q] x = { x with out := x.out ++ [flitBits x.txSeq (ackFlit b q)], sent := x.sent + 1 } := by
  have hn : numbered (ackFlit b q).type = false := rfl
  simp only [pumpFlits, mayEmit, emitFlit, hn, Bool.not_false, Bool.true_or, Bool.false_and, Bool.and_self, if_true]

/-- A link once a flit of its number has been accepted. -/
def took (type : BitVec 4) (seq : BitVec 12) (x : Link) : Link :=
  { x with rxSeq := if numbered type then seq + 1 else seq, fails := 0 }

/-- The machine once a flit of its number has been noted, and answered where it has one. -/
def noted (s : State) (k : Nat) (type : BitVec 4) (seq : BitVec 12) : State :=
  if numbered type then sendFlit (modLink s k (took type seq)) k (ackFlit false seq) else modLink s k (took type seq)

section
variable {s : State} {k : Nat} {f : BitVec 256} {x : Link} {type : BitVec 4} {seq : BitVec 12}

theorem takeFlit_eq : takeFlit s k f =
    (if f.extractLsb' 237 4 = 3 then
      modLink (noted s k (f.extractLsb' 237 4) (f.extractLsb' 244 12)) k fun x =>
        if (Config.ackRead (f.extractLsb' 32 192)).1 then replayFrom x (Config.ackRead (f.extractLsb' 32 192)).2
        else ackedTo x (Config.ackRead (f.extractLsb' 32 192)).2
    else if f.extractLsb' 237 4 = 5 then
      modLink (noted s k (f.extractLsb' 237 4) (f.extractLsb' 244 12)) k fun x => pumpWaiting { x with
        credits := SMap.set 0 x.credits (f.extractLsb' 241 3).toNat
          (SMap.get 0 x.credits (f.extractLsb' 241 3).toNat + Config.creditRead (f.extractLsb' 32 192)) }
    else if takesCredit (f.extractLsb' 237 4) && (f.extractLsb' 241 3).toNat < 5 && (f.extractLsb' 237 4).toNat < 7 then
      sendFlit (modLink (noted s k (f.extractLsb' 237 4) (f.extractLsb' 244 12)) k fun x => { x with inbox := x.inbox ++ [f] }) k
        (creditFlit (f.extractLsb' 241 3))
    else noted s k (f.extractLsb' 237 4) (f.extractLsb' 244 12)) := rfl

/-- What noting a flit that has a number leaves of its link. -/
theorem noted_numbered (hn : numbered type = true) :
    (linkSt (noted s k type seq) k).inbox = (linkSt s k).inbox ∧ (linkSt (noted s k type seq) k).rxSeq = seq + 1 ∧
      (linkSt (noted s k type seq) k).fails = 0 := by
  obtain ⟨h1, h2, h3, -⟩ := pumpFlits_keeps [ackFlit false seq] (took type seq (linkSt s k))
  simp only [noted, hn, if_true, sendFlit, linkSt_modLink]
  rw [h1, h2, h3, took, hn]
  exact ⟨rfl, rfl, rfl⟩

/-- One that has none changes no number. -/
theorem noted_unnumbered (hn : numbered type = false) (hseq : seq = (linkSt s k).rxSeq) :
    noted s k type seq = modLink s k fun x => { x with fails := 0 } := by
  rw [noted, hn, if_neg Bool.false_ne_true]
  refine modLink_congr ?_
  rw [took, hn, if_neg Bool.false_ne_true, hseq]

theorem takeFlit_delivers (ht : type = f.extractLsb' 237 4) (hseq : f.extractLsb' 244 12 = (linkSt s k).rxSeq)
    (h : type = 1 ∨ type = 2 ∨ type = 4 ∨ type = 6) (hc : (f.extractLsb' 241 3).toNat < 5) :
    (linkSt (takeFlit s k f) k).inbox = (linkSt s k).inbox ++ [f] ∧
      (linkSt (takeFlit s k f) k).rxSeq = (linkSt s k).rxSeq + 1 ∧ (linkSt (takeFlit s k f) k).fails = 0 := by
  have hnum : numbered type = true ∧ takesCredit type = true ∧ type ≠ 3 ∧ type ≠ 5 ∧ type.toNat < 7 := by
    rcases h with rfl | rfl | rfl | rfl <;> decide
  obtain ⟨hn, htc, h3, h5, h7⟩ := hnum
  rw [takeFlit_eq, ← ht, if_neg h3, if_neg h5, htc, if_pos (by simp only [hc, h7, decide_true, Bool.and_self])]
  obtain ⟨n1, n2, n3⟩ := noted_numbered (s := s) (k := k) (seq := f.extractLsb' 244 12) hn
  simp only [sendFlit, linkSt_modLink]
  obtain ⟨h1, h2, h3, -⟩ := pumpFlits_keeps [creditFlit (f.extractLsb' 241 3)]
    { linkSt (noted s k type (f.extractLsb' 244 12)) k with
      inbox := (linkSt (noted s k type (f.extractLsb' 244 12)) k).inbox ++ [f] }
  rw [h1, h2, h3]
  exact ⟨by rw [n1], by rw [← hseq]; exact n2, n3⟩

theorem takeFlit_idle (ht : f.extractLsb' 237 4 = 0) (hseq : f.extractLsb' 244 12 = (linkSt s k).rxSeq) :
    takeFlit s k f = modLink s k fun x => { x with fails := 0 } := by
  rw [takeFlit_eq, ht, if_neg (by decide), if_neg (by decide), if_neg (by simp [takesCredit, numbered])]
  exact noted_unnumbered (by decide) hseq

theorem takeFlit_answer (hup : (linkSt s k).up = true) (ht : f.extractLsb' 237 4 = 3)
    (hseq : f.extractLsb' 244 12 = (linkSt s k).rxSeq) {b : Bool} {q : BitVec 12} (ha : Config.ackRead (f.extractLsb' 32 192) = (b, q)) :
    takeFlit s k f = modLink s k fun x => if b then replayFrom { x with fails := 0 } q else ackedTo { x with fails := 0 } q := by
  rw [takeFlit_eq, ht, if_pos rfl, noted_unnumbered (by decide) hseq, ha, modLink_modLink hup]

theorem takeFlit_credit (ht : f.extractLsb' 237 4 = 5) (hseq : f.extractLsb' 244 12 = (linkSt s k).rxSeq) :
    (linkSt (takeFlit s k f) k).inbox = (linkSt s k).inbox ∧ (linkSt (takeFlit s k f) k).rxSeq = (linkSt s k).rxSeq + 1 := by
  rw [takeFlit_eq, ht, if_neg (by decide), if_pos rfl, linkSt_modLink, pumpWaiting]
  obtain ⟨n1, n2, -⟩ := noted_numbered (s := s) (k := k) (seq := f.extractLsb' 244 12) (type := 5) (by decide)
  obtain ⟨h1, h2, -⟩ := pumpFlits_keeps (linkSt (noted s k 5 (f.extractLsb' 244 12)) k).waiting
    { linkSt (noted s k 5 (f.extractLsb' 244 12)) k with
      credits := SMap.set 0 (linkSt (noted s k 5 (f.extractLsb' 244 12)) k).credits (f.extractLsb' 241 3).toNat
        (SMap.get 0 (linkSt (noted s k 5 (f.extractLsb' 244 12)) k).credits (f.extractLsb' 241 3).toNat +
          Config.creditRead (f.extractLsb' 32 192))
      waiting := [] }
  rw [h1, h2, ← hseq]
  exact ⟨n1, n2⟩

end

/-- The injector's place among the flits still on the link. -/
theorem inject_place {link j : Nat} {x : Link} {f : BitVec 256}
    (hj : injectAt link x + x.out.length = x.sent + j) (hf : x.out[j]? = some f) :
    x.sent - injectAt link x ≤ x.out.length ∧ x.out.length - (x.sent - injectAt link x) = j := by
  have hlt : j < x.out.length := (List.getElem?_eq_some_iff.mp hf).1
  omega

/-- What an injector does, by its kind (R396). -/
theorem inject_kinds {v : Word} {j : Nat} {out : List (BitVec 256)} {f : BitVec 256} (hf : out[j]? = some f) :
    (v.extractLsb' 61 2 = 0#2 → inject v.toNat j out = out.set j (f ^^^ BitVec.ofNat 256 (2 ^ fld v 39 32))) ∧
    (v.extractLsb' 61 2 = 1#2 → inject v.toNat j out = out.eraseIdx j) ∧
    (v.extractLsb' 61 2 = 2#2 → inject v.toNat j out = out.take j ++ (out.drop (j + 1)).take (fld v 51 40) ++ [f] ++
      (out.drop (j + 1)).drop (fld v 51 40)) := by
  have hkind : ∀ b : BitVec 2, v.extractLsb' 61 2 = b → bitsOf v.toNat 62 61 = b.toNat := by
    rintro b rfl
    rw [BitVec.extractLsb'_toNat]
    rfl
  refine ⟨fun h => ?_, fun h => ?_, fun h => ?_⟩ <;> simp only [inject, hf, hkind _ h] <;> rfl

theorem injectAt_lane {link : Nat} {x : Link} (hl : link < 36) (hn : fld x.injector 31 0 ≠ 0) :
    injectAt link x % 4 = fld x.injector 57 52 % 4 ∧ x.armedAt + 4 * (fld x.injector 31 0 - 1) ≤ injectAt link x ∧
      injectAt link x < x.armedAt + 4 * fld x.injector 31 0 := by
  have hmax : max 1 (fld x.injector 31 0) = fld x.injector 31 0 := by omega
  have hat : injectAt link x = x.armedAt + (fld x.injector 57 52 % 4 + 4 - x.armedAt % 4) % 4 + 4 * (fld x.injector 31 0 - 1) := by
    rw [injectAt, laneCount, if_pos hl]
    show _ + _ + 4 * (max 1 (fld x.injector 31 0) - 1) = _
    rw [hmax]
    rfl
  rw [hat]
  omega

end Sys2Proof.Laws

namespace Sys2Proof.Laws
/-! Error records, links that go down, and power (R384, R389, R395, R398, R412 to R415). -/

open Sys2Proof.Machine

/-- From `s` to `t` error records have been written: slices have worked, and partitions' rings and the mail have grown. -/
structure Logged (s t : State) : Prop where
  rest : t = { s with mem := t.mem, poison := t.poison, copyMarks := t.copyMarks, behind := t.behind, racing := t.racing
                      cores := t.cores, ctxs := t.ctxs, clusters := t.clusters, slices := t.slices
                      parts := t.parts, mail := t.mail }
  empty : s.ctxs = [] → t.ctxs = []
  keeps : Keeps s t

/-- The cycles of one core are brought up to date (R126). -/
def countCore (s : State) (c : Nat) : State :=
  if (coreOf s c).preReq then modCore s c fun x => { x with preAt := s.time, preCycles := x.preCycles + cyclesSince s c }
  else s

section
variable {s t u : State}

theorem Logged.refl : Logged s s := ⟨rfl, id, .refl⟩

theorem Logged.trans (a : Logged s t) (b : Logged t u) : Logged s u :=
  ⟨b.rest.trans (by rw [a.rest]), b.empty ∘ a.empty, a.keeps.trans b.keeps⟩

theorem Busy.logged (b : Busy s t) : Logged s t := ⟨by rw [b.rest], b.empty, b.keeps⟩

theorem logged_foldl {α : Type} {F : State → α → State} (hF : ∀ s a, Logged s (F s a)) (l : List α) (s : State) :
    Logged s (l.foldl F s) := by
  induction l generalizing s with
  | nil => exact .refl
  | cons a l ih => exact (hF s a).trans (ih _)

theorem logged_modPart {p : Nat} (F : Part → Part) : Logged s (modPart s p F) := ⟨rfl, id, .of_eq rfl rfl rfl rfl⟩

theorem logged_postMail {part : Nat} {a b c d : Word} : Logged s (postMail s part a b c d) := ⟨rfl, id, .of_eq rfl rfl rfl rfl⟩

theorem logged_logError {part kind unit where_ len w14 : Nat} {ctxid pc : Word} {ranges : List (Nat × Nat)} :
    Logged s (logError s part kind unit where_ len ctxid pc w14 ranges) := by
  unfold logError
  exact (Logged.trans (busy_homeWrite _ _).logged (logged_modPart _)).trans logged_postMail

theorem logged_logAll {kind number : Nat} : Logged s (logAll s kind number) := logged_foldl (fun _ _ => logged_logError) _ s

theorem busy_storeForm {n sec form : Nat} {l : SLine} {a b : BitVec 2} : Busy s (storeForm s n l sec form a b) :=
  ((busy_makeRoom 24).trans (busy_slicePut _)).trans busy_countSlice

theorem busy_pinSector (t : Target) : Busy s (pinSector s t).2 := by
  unfold pinSector
  split
  · exact .refl
  · simp only
    split
    · exact .refl
    · split
      · exact .refl
      · split
        · exact busy_askSectors _
        · exact ((busy_askSectors _).trans busy_storeForm).trans busy_touchWatch

theorem busy_repin (l : List Nat) : Busy s (repin s l) := busy_foldl (fun _ _ => busy_pinSector _) l s

/-- A die that still has a link is not lost (R398). -/
theorem linkLost_kept {link : Nat} (h : ∀ d, d / 4 = s.pkg → link ∈ dieLinks d → ∃ l, l ∈ dieLinks d ∧ (linkSt s l).up = true) :
    linkLost s link = s := by
  have hstep : ∀ d ∈ upFrom (s.pkg * 4) 4,
      ((dieSt s d).up && (dieLinks d).contains link && (dieLinks d).all fun l => !(linkSt s l).up) = false := by
    intro d hd
    rw [upFrom_eq, List.mem_map] at hd
    obtain ⟨j, hj, rfl⟩ := hd
    rw [List.mem_range] at hj
    by_cases hl : link ∈ dieLinks (s.pkg * 4 + j)
    · obtain ⟨l, hl, hup⟩ := h _ (by omega) hl
      have hall : ((dieLinks (s.pkg * 4 + j)).all fun l => !(linkSt s l).up) = false := by
        rw [List.all_eq_false]
        exact ⟨l, hl, by simp [hup]⟩
      rw [hall, Bool.and_false]
    · have hno : (dieLinks (s.pkg * 4 + j)).contains link = false := by simpa using hl
      rw [hno, Bool.and_false, Bool.false_and]
  have hfold : ∀ l : List Nat, (∀ d ∈ l, d ∈ upFrom (s.pkg * 4) 4) → l.foldl (fun s d =>
      if (dieSt s d).up && (dieLinks d).contains link && (dieLinks d).all fun l => !(linkSt s l).up
      then dieOut (loseTasks s d) d else s) s = s := by
    intro l
    induction l with
    | nil => exact fun _ => rfl
    | cons d l ih =>
      intro hd
      rw [List.foldl_cons, hstep d (hd d (List.mem_cons_self ..)), if_neg Bool.false_ne_true]
      exact ih fun e he => hd e (List.mem_cons_of_mem _ he)
  exact hfold _ fun _ hd => hd

/-! The governor (R414). -/

variable {cl : Nat}

theorem countCycles_eq (c : Nat) : countCycles s c = (upFrom (16 * c) 16).foldl countCore s := rfl

theorem countCore_keeps (c : Nat) : (countCore s c).clusters = s.clusters ∧ ∀ k, (coreOf (countCore s c) k).cur = (coreOf s k).cur := by
  unfold countCore
  split
  · refine ⟨rfl, fun k => ?_⟩
    by_cases hk : k = c
    · subst hk
      rw [coreOf_modCore_eq]
    · rw [coreOf_modCore_ne hk]
  · exact ⟨rfl, fun _ => rfl⟩

/-- Counting cycles leaves the clusters alone, and which cores are busy. -/
theorem countCycles_keeps (c : Nat) : (countCycles s c).clusters = s.clusters ∧
    ∀ k, (coreOf (countCycles s c) k).cur = (coreOf s k).cur := by
  rw [countCycles_eq]
  generalize upFrom (16 * c) 16 = l
  induction l generalizing s with
  | nil => exact ⟨rfl, fun _ => rfl⟩
  | cons d l ih =>
    obtain ⟨h1, h2⟩ := countCore_keeps (s := s) d
    obtain ⟨h3, h4⟩ := ih (s := countCore s d)
    exact ⟨h3.trans h1, fun k => (h4 k).trans (h2 k)⟩

/-- A clock changed on one island. -/
def setClock (s : State) (c : Nat) (g : Nat → Nat) : State :=
  modCluster (countCycles s c) c fun x => { x with clock := g x.clock }

theorem setClock_clock {g : Nat → Nat} (c c' : Nat) :
    (clusterSt (setClock s c g) c').clock = if c' = c then g (clusterSt s c).clock else (clusterSt s c').clock := by
  have hc : ∀ k, clusterSt (countCycles s c) k = clusterSt s k := fun k => by rw [clusterSt, (countCycles_keeps c).1]; rfl
  split
  · next h =>
    subst h
    rw [setClock, modCluster, clusterSt, SMap.get_set_eq, hc]
  · next h => rw [setClock, modCluster, clusterSt, SMap.get_set_ne h, ← hc c']; rfl

theorem coreOf_modCluster {c k : Nat} {F : Cluster → Cluster} : coreOf (modCluster s c F) k = coreOf s k := rfl

theorem setClock_busy {g : Nat → Nat} (c c' : Nat) : islandBusy (setClock s c g) c' = islandBusy s c' := by
  have hcur : ∀ k, (coreOf (setClock s c g) k).cur = (coreOf s k).cur := fun k => by
    rw [setClock, coreOf_modCluster, (countCycles_keeps c).2]
  unfold islandBusy
  simp only [hcur]

/-- One island after another, each by what it was. -/
theorem foldl_islands {P : State → Nat → Bool} {g : Nat → Nat} (hP : ∀ s c c', c' ≠ c → P (setClock s c g) c' = P s c')
    {l : List Nat} (hl : l.Nodup) (s : State) {c : Nat} :
    (clusterSt (l.foldl (fun s c => if P s c then setClock s c g else s) s) c).clock =
      if c ∈ l ∧ P s c = true then g (clusterSt s c).clock else (clusterSt s c).clock := by
  induction l generalizing s with
  | nil => simp
  | cons a l ih =>
    obtain ⟨ha, hl⟩ := List.nodup_cons.mp hl
    rw [List.foldl_cons, ih hl]
    by_cases hca : c = a
    · subst hca
      simp only [ha, false_and, if_false, List.mem_cons, true_or, true_and]
      split
      · rw [setClock_clock, if_pos rfl]
      · rfl
    · have h1 : P (if P s a then setClock s a g else s) c = P s c := by
        split
        · exact hP s a c hca
        · rfl
      have h2 : (clusterSt (if P s a then setClock s a g else s) c).clock = (clusterSt s c).clock := by
        split
        · rw [setClock_clock, if_neg hca]
        · rfl
      rw [h1, h2]
      simp only [List.mem_cons, hca, false_or]

theorem mem_islands {c : Nat} : c ∈ islands s ↔ c / 128 = s.pkg := by
  rw [islands, upFrom_eq, List.mem_map]
  constructor
  · rintro ⟨j, hj, rfl⟩
    rw [List.mem_range] at hj
    omega
  · intro h
    exact ⟨c % 128, List.mem_range.mpr (by omega), by omega⟩

theorem islands_nodup : (islands s).Nodup := by
  rw [islands, upFrom_eq]
  exact List.nodup_range.map fun a b h => by simpa using h

/-! Memory outside a package (R415). -/

theorem get_filter_key {α : Type} {d : α} {m : SMap α} {k : Nat} {P : Nat → Bool} (h : P k = true) :
    SMap.get d (m.filter fun p => P p.1) k = SMap.get d m k := by
  induction m with
  | nil => rfl
  | cons p t ih =>
    obtain ⟨j, v⟩ := p
    by_cases hj : j = k
    · subst hj
      simp [h, SMap.get]
    · by_cases hp : P j = true
      · simp [hp, SMap.get, hj, ih]
      · simp [hp, SMap.get, hj, ih]

theorem get_putBehind_ne (l : List (Nat × Option Byte)) {m : List Host.Cell} {a : Nat} (h : ∀ p ∈ l, p.1 ≠ a) :
    SMap.get 0 (l.foldl putBehind m) a = SMap.get 0 m a := by
  induction l generalizing m with
  | nil => rfl
  | cons p l ih =>
    rw [List.foldl_cons, ih fun q hq => h q (List.mem_cons_of_mem _ hq)]
    unfold putBehind
    cases p.2 with
    | none => rfl
    | some b => exact SMap.get_set_ne (Ne.symm (h p (List.mem_cons_self ..)))

theorem shutdown_outside {a : Nat} (h1 : a / 2 ^ 64 < 2 ^ 23) (h2 : 4096 ≤ a / 2 ^ 64 ∨ a / 2 ^ 64 / 4 ≠ s.pkg)
    (h3 : ∀ p, p ∈ s.behind → p.1 ≠ a) : readByte { coldState s with powered := false } a = readByte s a := by
  have hout : outsideRegion s.pkg a = true := by
    simp only [outsideRegion, Bool.and_eq_true, decide_eq_true_eq, Bool.or_eq_true, bne_iff_ne]
    exact ⟨h1, h2⟩
  show SMap.get 0 (outsideMem s) a = SMap.get 0 s.mem a
  rw [outsideMem, get_filter_key hout, get_putBehind_ne _ h3]

end

end Sys2Proof.Laws

namespace Sys2Proof.Laws
/-! Power-on (R412). -/

open Sys2Proof.Machine

/-- What the later stages of power-on keep. -/
structure Boots (s t : State) : Prop where
  powered : t.powered = s.powered
  parts : t.parts = s.parts
  pkg : t.pkg = s.pkg
  partners : t.partners = s.partners
  ctxs : s.ctxs = [] → t.ctxs = []
  dies : ∀ d, (dieSt t d).up = (dieSt s d).up

section
variable {s t u : State} {d link version : Nat} {features : BitVec 32}

theorem Boots.refl : Boots s s := ⟨rfl, rfl, rfl, rfl, id, fun _ => rfl⟩

theorem Boots.trans (a : Boots s t) (b : Boots t u) : Boots s u :=
  ⟨b.powered.trans a.powered, b.parts.trans a.parts, b.pkg.trans a.pkg, b.partners.trans a.partners, b.ctxs ∘ a.ctxs,
    fun d => (b.dies d).trans (a.dies d)⟩

theorem boots_foldl {α : Type} {F : State → α → State} (hF : ∀ s a, Boots s (F s a)) (l : List α) (s : State) :
    Boots s (l.foldl F s) := by
  induction l generalizing s with
  | nil => exact .refl
  | cons a l ih => exact (hF s a).trans (ih _)

theorem Busy.boots (b : Busy s t) : Boots s t := by
  have hr := b.rest
  exact ⟨by rw [hr], by rw [hr], by rw [hr], by rw [hr], b.empty, fun d => by rw [hr]; rfl⟩

theorem boots_modLink {F : Link → Link} : Boots s (modLink s link F) := ⟨rfl, rfl, rfl, rfl, id, fun _ => rfl⟩

theorem boots_noteImage {n : Nat} {i : FwImage} : Boots s (noteImage s n i) := ⟨rfl, rfl, rfl, rfl, id, fun _ => rfl⟩

theorem applyRepair_up (p : Die × List (Nat × Nat)) (e : Nat × Nat × Bool) : (applyRepair p e).1.up = p.1.up := by
  unfold applyRepair
  simp only
  split
  · rfl
  · split
    · rfl
    · split <;> rfl

theorem applyRepairs_foldl_up (l : List (Nat × Nat × Bool)) (p : Die × List (Nat × Nat)) : (l.foldl applyRepair p).1.up = p.1.up := by
  induction l generalizing p with
  | nil => rfl
  | cons e l ih => rw [List.foldl_cons, ih, applyRepair_up]

theorem boots_modDie {F : Die → Die} (hF : (F (dieSt s d)).up = (dieSt s d).up) : Boots s (modDie s d F) := by
  refine ⟨rfl, rfl, rfl, rfl, id, fun c => ?_⟩
  by_cases hc : c = d
  · subst hc
    rw [dieSt, modDie, SMap.get_set_eq, hF]
  · rw [dieSt, modDie, SMap.get_set_ne hc, dieSt]

theorem boots_applyRepairs : Boots s (applyRepairs s d) :=
  (boots_modDie (applyRepairs_foldl_up _ _)).trans (busy_repin _).boots

/-- A port of the Faloz Link is no die's link. -/
theorem linkLost_port (h : link < 36) : linkLost s link = s := by
  refine linkLost_kept fun d _ hl => ?_
  simp only [dieLinks, List.mem_cons, List.not_mem_nil, or_false] at hl
  omega

theorem trainLink_port (h : link < 36) : trainLink s link version features =
    modLink s link (if version < 1 then downLink else fun x => retrain x (min 2 version) (features &&& Config.linkFeatures link)) := by
  unfold trainLink
  split
  · exact linkLost_port h
  · rfl

/-- A partner's port, by what the partner offers. -/
def trainPort (s : State) (p : Nat × Nat × BitVec 32) : State :=
  if p.1 < 36 then trainLink s p.1 p.2.1 p.2.2 else s

theorem boots_trainPort (p : Nat × Nat × BitVec 32) : Boots s (trainPort s p) := by
  unfold trainPort
  split
  · next h =>
    rw [trainLink_port h]
    exact boots_modLink
  · exact .refl

/-- A port is up, at a version. -/
def upAt (s : State) (p : Nat × Nat × BitVec 32) : Prop := (linkSt s p.1).up = true ∧ (linkSt s p.1).version = min 2 p.2.1

theorem trainPort_up {p : Nat × Nat × BitVec 32} (h36 : p.1 < 36) (h1 : 1 ≤ p.2.1) : upAt (trainPort s p) p := by
  have hv : ¬ p.2.1 < 1 := by omega
  rw [upAt, trainPort, if_pos h36, trainLink_port h36, if_neg hv, linkSt_modLink]
  exact ⟨rfl, rfl⟩

theorem trainPort_other {p q : Nat × Nat × BitVec 32} (h : q.1 ≠ p.1) (hp : upAt s p) : upAt (trainPort s q) p := by
  unfold trainPort
  split
  · next h36 =>
    rw [trainLink_port h36, upAt, linkSt_modLink_ne (Ne.symm h)]
    exact hp
  · exact hp

/-- Each partner of version 1 or more brings its port up. -/
theorem trainPorts_up {p : Nat × Nat × BitVec 32} (h36 : p.1 < 36) (h1 : 1 ≤ p.2.1) (l : List (Nat × Nat × BitVec 32))
    (hl : ∀ q ∈ l, q.1 = p.1 → q = p) (s : State) (h : p ∈ l ∨ upAt s p) : upAt (l.foldl trainPort s) p := by
  induction l generalizing s with
  | nil => exact h.resolve_left (List.not_mem_nil)
  | cons q l ih =>
    refine ih (fun r hr => hl r (List.mem_cons_of_mem _ hr)) _ ?_
    by_cases hq : q.1 = p.1
    · rw [hl q (List.mem_cons_self ..) hq]
      exact .inr (trainPort_up h36 h1)
    · rcases h with h | h
      · rcases List.mem_cons.mp h with rfl | h
        · exact absurd rfl hq
        · exact .inl h
      · exact .inr (trainPort_other hq h)

/-! The stages. -/

theorem placeImages_rest (l : List (Option FwImage)) (n : Nat) (s : State) :
    (placeImages s n l).powered = s.powered ∧ (placeImages s n l).parts = s.parts ∧ (placeImages s n l).ctxs = s.ctxs ∧
      (placeImages s n l).podNumber = s.podNumber ∧ (placeImages s n l).partners = s.partners := by
  induction l generalizing s n with
  | nil => exact ⟨rfl, rfl, rfl, rfl, rfl⟩
  | cons i l ih =>
    rw [placeImages]
    cases i with
    | none => exact ih (n + 1) s
    | some i => exact ih (n + 1) (placeImage s n (some i))

theorem renumber_rest (u : State) : (renumber u).powered = u.powered ∧ (renumber u).parts = u.parts ∧ (renumber u).ctxs = u.ctxs ∧
    (renumber u).pkg = u.podNumber ∧ (renumber u).partners = u.partners := ⟨rfl, rfl, rfl, rfl, rfl⟩

theorem coldState_rest (s : State) : (coldState s).powered = true ∧ (coldState s).parts = [] ∧ (coldState s).ctxs = [] ∧
    (coldState s).podNumber = s.podNumber ∧ (coldState s).partners = s.partners := ⟨rfl, rfl, rfl, rfl, rfl⟩

/-- A die loads its image, or stays unloaded. -/
def loadDie (u : State) (pkg : Nat) (s : State) (j : Nat) : State :=
  modDie s (pkg * 4 + j) fun x => { x with
    up := imageOk (storedImage u (1 + j)), loaded := imageOk (storedImage u (1 + j))
    image := if imageOk (storedImage u (1 + j)) then (storedImage u (1 + j)).ver else 0 }

/-- The four dies of the package load their images. -/
def loadDies (u : State) (pkg : Nat) (s : State) : State := (upFrom 0 4).foldl (loadDie u pkg) s

theorem dieSt_modDie (t : State) (c d : Nat) (F : Die → Die) :
    dieSt (modDie t d F) c = if c = d then F (dieSt t d) else dieSt t c := by
  split
  · next h => subst h; exact SMap.get_set_eq
  · next h => exact SMap.get_set_ne h

theorem loadDies_up {j pkg : Nat} (hj : j < 4) : (dieSt (loadDies u pkg s) (pkg * 4 + j)).up = imageOk (storedImage u (1 + j)) := by
  simp only [loadDies, upFrom, List.foldl_cons, List.foldl_nil, loadDie, dieSt_modDie]
  obtain rfl | rfl | rfl | rfl : j = 0 ∨ j = 1 ∨ j = 2 ∨ j = 3 := by omega
  all_goals simp

theorem loadDies_rest {pkg : Nat} : (loadDies u pkg s).powered = s.powered ∧ (loadDies u pkg s).parts = s.parts ∧
    (loadDies u pkg s).pkg = s.pkg ∧ (loadDies u pkg s).partners = s.partners ∧ (loadDies u pkg s).ctxs = s.ctxs := by
  unfold loadDies
  generalize upFrom 0 4 = l
  induction l generalizing s with
  | nil => exact ⟨rfl, rfl, rfl, rfl, rfl⟩
  | cons j l ih => exact ih

/-- The dies' links come up with both their dies. -/
def linkDies (ok : List Nat) (s : State) (p : Nat × List Nat) : State :=
  if p.2.all fun d => ok.contains d then modLink s p.1 fun x => { x with up := true, version := 2, epoch := 1 } else s

theorem boots_linkDies {ok : List Nat} (p : Nat × List Nat) : Boots s (linkDies ok s p) := by
  unfold linkDies
  split
  · exact boots_modLink
  · exact .refl

/-- The links between the dies and to the chief's, each with its dies. -/
def dieEnds : List (Nat × List Nat) :=
  [(36, [0, 1]), (37, [2, 3]), (38, [0, 2]), (39, [1, 3]), (40, [0]), (41, [1]), (42, [2]), (43, [3])]

/-- The dies whose images load, once the package has its number. -/
def goodDies (u : State) : List Nat :=
  (((upFrom 0 4).map fun d => (d, storedImage (renumber u) (1 + d))).filter fun p => imageOk p.2).map Prod.fst

/-- The dies load and their repairs are applied. -/
def bringDies (u : State) : State :=
  (goodDies u).foldl (fun s d => applyRepairs s ((renumber u).pkg * 4 + d)) (loadDies u (renumber u).pkg (renumber u))

/-- The links come up, the ports train, and the host's queue opens. -/
def bringLinks (t : State) (ok : List Nat) : State :=
  let t := dieEnds.foldl (linkDies ok) t
  let t := t.partners.foldl trainPort t
  setQueue t 0 { queueOf t 0 with enabled := true }

/-- What reports say of the images. -/
def noteImages (t : State) : State := (upFrom 0 5).foldl (fun s n => noteImage s n (storedImage s n)) t

theorem bringDies_eq (u : State) :
    (goodDies u).foldl (fun s d => applyRepairs s ((renumber u).pkg * 4 + d))
      (((upFrom 0 4).map fun d => (d, storedImage (renumber u) (1 + d))).foldl (fun s p => modDie s ((renumber u).pkg * 4 + p.1) fun x =>
        { x with up := imageOk p.2, loaded := imageOk p.2, image := if imageOk p.2 then p.2.ver else 0 }) (renumber u)) =
      bringDies u := by
  rw [List.foldl_map]
  rfl

theorem powerOn_good {s u : State} {chief d0 d1 d2 d3 : Option FwImage} (hu : u = placeImages (coldState s) 0 [chief, d0, d1, d2, d3])
    (hok : imageOk (storedImage u 0) = true) : exec (.powerOnReset chief d0 d1 d2 d3) s =
      .next { noteImages (bringLinks (bringDies u) (goodDies u)) with stage := 6, chief := (storedImage u 0).ver } := by
  have he : exec (.powerOnReset chief d0 d1 d2 d3) s = .next (if !imageOk (storedImage u 0) then { u with stage := 1 }
      else { noteImages (bringLinks ((goodDies u).foldl (fun s d => applyRepairs s ((renumber u).pkg * 4 + d))
        (((upFrom 0 4).map fun d => (d, storedImage (renumber u) (1 + d))).foldl (fun s p => modDie s ((renumber u).pkg * 4 + p.1)
          fun x => { x with up := imageOk p.2, loaded := imageOk p.2, image := if imageOk p.2 then p.2.ver else 0 })
          (renumber u))) (goodDies u)) with stage := 6, chief := (storedImage u 0).ver }) := by
    rw [hu]
    rfl
  rw [he, hok, bringDies_eq]
  rfl

/-- What the bring-up keeps, and the queue that it opens. -/
theorem bringLinks_rest (t : State) (ok : List Nat) : Boots t (bringLinks t ok) ∧ (queueOf (bringLinks t ok) 0).enabled = true ∧
    ∀ p, p ∈ t.partners → p.1 < 36 → 1 ≤ p.2.1 → (∀ q, q ∈ t.partners → q.1 = p.1 → q = p) → upAt (bringLinks t ok) p := by
  have h1 : Boots t (dieEnds.foldl (linkDies ok) t) := boots_foldl (fun _ _ => boots_linkDies _) _ _
  unfold bringLinks
  simp only
  generalize dieEnds.foldl (linkDies ok) t = v at h1 ⊢
  have h2 := boots_foldl (fun _ p => boots_trainPort p) v.partners v
  refine ⟨⟨(h1.trans h2).powered, (h1.trans h2).parts, (h1.trans h2).pkg, (h1.trans h2).partners, (h1.trans h2).ctxs,
    (h1.trans h2).dies⟩, ?_, fun p hp h36 h1' huniq => ?_⟩
  · rw [queueOf, setQueue, SMap.get_set_eq]
  · rw [← h1.partners] at hp huniq
    exact trainPorts_up h36 h1' _ huniq _ (.inl hp)

theorem bringDies_rest (u : State) : Boots (loadDies u (renumber u).pkg (renumber u)) (bringDies u) :=
  boots_foldl (fun _ _ => boots_applyRepairs) _ _

theorem noteImages_boots (t : State) :
    Boots t (noteImages t) ∧ (noteImages t).queues = t.queues ∧ (noteImages t).links = t.links := by
  unfold noteImages
  generalize upFrom 0 5 = l
  induction l generalizing t with
  | nil => exact ⟨.refl, rfl, rfl⟩
  | cons n l ih =>
    obtain ⟨h1, h2, h3⟩ := ih (noteImage t n (storedImage t n))
    exact ⟨boots_noteImage.trans h1, h2, h3⟩

/-- Power-on with good images (R412). -/
theorem powerOn_reaches {s u : State} {chief d0 d1 d2 d3 : Option FwImage}
    (hu : u = placeImages (coldState s) 0 [chief, d0, d1, d2, d3]) (hok : imageOk (storedImage u 0) = true) :
    ∃ t, exec (.powerOnReset chief d0 d1 d2 d3) s = .next t ∧ t.stage = 6 ∧ t.powered = true ∧ (queueOf t 0).enabled = true ∧
      t.parts = [] ∧ t.ctxs = [] ∧ t.pkg = s.podNumber ∧
      (∀ p, p ∈ s.partners → p.1 < 36 → 1 ≤ p.2.1 → (∀ q, q ∈ s.partners → q.1 = p.1 → q = p) →
        (linkSt t p.1).up = true ∧ (linkSt t p.1).version = min 2 p.2.1) ∧
      ∀ j, j < 4 → (dieSt t (t.pkg * 4 + j)).up = imageOk (storedImage u (1 + j)) := by
  have he := powerOn_good hu hok
  obtain ⟨p1, p2, p3, p4, p5⟩ := placeImages_rest [chief, d0, d1, d2, d3] 0 (coldState s)
  rw [← hu] at p1 p2 p3 p4 p5
  obtain ⟨r1, r2, r3, r4, r5⟩ := renumber_rest u
  obtain ⟨c1, c2, c3, c4, c5⟩ := coldState_rest s
  obtain ⟨l1, l2, l3, l4, l5⟩ := loadDies_rest (u := u) (s := renumber u) (pkg := (renumber u).pkg)
  have hdies := bringDies_rest u
  obtain ⟨hlinks, hq, hup⟩ := bringLinks_rest (bringDies u) (goodDies u)
  obtain ⟨hnote, hqs, hls⟩ := noteImages_boots (bringLinks (bringDies u) (goodDies u))
  have hb := (hdies.trans hlinks).trans hnote
  have hload := fun j hj => loadDies_up (u := u) (s := renumber u) (pkg := (renumber u).pkg) (j := j) hj
  have hpart : (bringDies u).partners = s.partners := hdies.partners.trans (l4.trans (r5.trans (p5.trans c5)))
  have hpkg : (noteImages (bringLinks (bringDies u) (goodDies u))).pkg = (renumber u).pkg := hb.pkg.trans l3
  generalize noteImages (bringLinks (bringDies u) (goodDies u)) = t at *
  generalize bringLinks (bringDies u) (goodDies u) = v at *
  refine ⟨_, he, rfl, hb.powered.trans (l1.trans (r1.trans (p1.trans c1))), ?_, hb.parts.trans (l2.trans (r2.trans (p2.trans c2))),
    hb.ctxs (l5.trans (r3.trans (p3.trans c3))), hpkg.trans (r4.trans (p4.trans c4)), fun p hp h36 h1 huniq => ?_, fun j hj => ?_⟩
  · rw [queueOf] at hq ⊢
    simp only [hqs, hq]
  · rw [← hpart] at hp huniq
    have h := hup p hp h36 h1 huniq
    rw [upAt, linkSt] at h
    rw [linkSt]
    simp only [hls]
    exact h
  · rw [dieSt]
    show (dieSt t (t.pkg * 4 + j)).up = _
    rw [hpkg, hb.dies]
    exact hload j hj

end

end Sys2Proof.Laws

namespace Sys2Proof.Laws
/-! Links and power (R382 to R415): each event by the branch its premises name. -/

open Sys2Proof.Machine

section
variable {s u : State} {link epoch version src dst k unit count watts : Nat} {flit : BitVec 256} {x : Link} {seq : BitVec 12}

theorem flitArrival_good (hx : x = linkSt s link) (hup : x.up = true) (he : epoch = x.epoch)
    (hg : (Config.crc32 (flit.extractLsb' 32 224) == flit.extractLsb' 0 32 && flit.extractLsb' 224 13 == 0 &&
      flit.extractLsb' 244 12 == x.rxSeq) = true) :
    exec (.flitArrival link epoch flit) s = .next (takeFlit s link flit) ∧ flit.extractLsb' 244 12 = (linkSt s link).rxSeq := by
  refine ⟨?_, ?_⟩
  · show execFlitArrival link epoch flit s = _
    simp only [execFlitArrival, ← hx, hup, he, hg, Bool.not_true, ne_eq, not_true, decide_false, Bool.or_self, Bool.false_eq_true,
      if_false, if_true]
  · rw [Bool.and_eq_true, beq_iff_eq] at hg
    rw [hg.2, hx]

theorem flitArrival_bad (hx : x = linkSt s link) (hup : x.up = true) (he : epoch = x.epoch)
    (hg : (Config.crc32 (flit.extractLsb' 32 224) == flit.extractLsb' 0 32 && flit.extractLsb' 224 13 == 0 &&
      flit.extractLsb' 244 12 == x.rxSeq) = false) :
    ∃ t, exec (.flitArrival link epoch flit) s = .next t ∧
      (linkSt t link).out = x.out ++ [flitBits x.txSeq (ackFlit true x.rxSeq)] ∧
      (linkSt t link).fails = (if x.failSeq ≠ x.rxSeq ∨ x.fails = 0 then 1
        else if (flit.extractLsb' 244 12 - x.rxSeq).toNat ≤ x.failDist then x.fails + 1 else x.fails) ∧
      (linkSt t link).inbox = x.inbox ∧ (linkSt t link).rxSeq = x.rxSeq := by
  refine ⟨sendFlit (modLink s link fun y => countFail y y.rxSeq (flit.extractLsb' 244 12)) link (ackFlit true x.rxSeq), ?_, ?_⟩
  · show execFlitArrival link epoch flit s = _
    simp only [execFlitArrival, ← hx, hup, he, hg, Bool.not_true, ne_eq, not_true, decide_false, Bool.or_self, Bool.false_eq_true,
      if_false]
  · rw [sendFlit, linkSt_modLink, linkSt_modLink, pumpFlits_ack, ← hx]
    refine ⟨rfl, ?_, rfl, rfl⟩
    simp only [countFail, Bool.or_eq_true, decide_eq_true_eq]

theorem flitArrival_past (hx : x = linkSt s link) (h : x.up = false ∨ epoch ≠ x.epoch) :
    exec (.flitArrival link epoch flit) s = .next s := by
  have hno : (!x.up || decide (epoch ≠ x.epoch)) = true := by
    rcases h with h | h <;> simp [h]
  show execFlitArrival link epoch flit s = _
  simp only [execFlitArrival, ← hx, hno, if_true]

theorem injectorFire_fires (hx : x = linkSt s link) (hdue : injectorDue link x = true) :
    ∃ t, exec (.injectorFire link) s = .next t ∧ (linkSt t link).injector.getLsbD 63 = false ∧
      ∀ j f, injectAt link x + x.out.length = x.sent + j → x.out[j]? = some f →
        (x.injector.extractLsb' 61 2 = 0#2 →
          (linkSt t link).out = x.out.set j (f ^^^ BitVec.ofNat 256 (2 ^ fld x.injector 39 32))) ∧
        (x.injector.extractLsb' 61 2 = 1#2 → (linkSt t link).out = x.out.eraseIdx j) ∧
        (x.injector.extractLsb' 61 2 = 2#2 → (linkSt t link).out = x.out.take j ++
          (x.out.drop (j + 1)).take (fld x.injector 51 40) ++ [f] ++ (x.out.drop (j + 1)).drop (fld x.injector 51 40)) := by
  refine ⟨modLink s link fun y => { y with
    injector := BitVec.ofNat 64 (putBits x.injector.toNat 63 63 0)
    out := if x.sent - injectAt link x ≤ y.out.length then inject x.injector.toNat (y.out.length - (x.sent - injectAt link x)) y.out
      else y.out }, ?_, ?_, fun j f hj hf => ?_⟩
  · show execInjectorFire link s = _
    simp only [execInjectorFire, ← hx, hdue, Bool.not_true, Bool.false_eq_true, if_false]
  · rw [linkSt_modLink]
    simp only [BitVec.getLsbD_ofNat]
    have h := bitsOf_putBits_same x.injector.toNat 63 63 0 (by omega)
    have hbit : bitsOf (putBits x.injector.toNat 63 63 0) 63 63 = 0 := by rw [h]; rfl
    have := testBit_bitsOf (putBits x.injector.toNat 63 63 0) 63 63 0
    rw [hbit] at this
    simpa using this
  · obtain ⟨hle, hplace⟩ := inject_place hj hf
    rw [linkSt_modLink, ← hx]
    simp only [hle, if_true, hplace]
    exact inject_kinds hf

theorem route_eq (h : src / 4 = dst / 4 → src % 2 ≠ dst % 2 → src / 2 ≠ dst / 2 → (routeOf false (src % 4) (dst % 4)).2 = some k)
    (h1 : src / 4 = dst / 4) (h2 : src % 2 ≠ dst % 2) (h3 : src / 2 ≠ dst / 2) :
    exec (.routeChange src dst) s = .next (
      if !drained s src dst then s
      else if !((dieSt s (src / 4 * 4 + k)).up && !linkClosed s (src / 4 * 4 + k)) && !s.detours.contains (src, dst)
      then { s with detours := s.detours ++ [(src, dst)] }
      else if (dieSt s (src / 4 * 4 + k)).up && !linkClosed s (src / 4 * 4 + k)
      then { s with detours := s.detours.filter (· != (src, dst)) } else s) := by
  have hno : (decide (src / 4 ≠ dst / 4) || decide (src % 2 = dst % 2) || decide (src / 2 = dst / 2)) = false := by
    simp [h1, h2, h3]
  show execRouteChange src dst s = _
  simp only [execRouteChange, hno, h h1 h2 h3, Bool.false_eq_true, if_false]

/-- Corrected errors of a core are counted, with a record for each partition where they cross a multiple of 4,096. -/
theorem corrected_core (hc : (coreOf s unit).corrected.toNat / 4096 ≠ ((coreOf s unit).corrected.toNat + count) / 4096) :
    exec (.correctedErrorThreshold false unit count) s =
      .next ((s.parts.filter fun p => inPart s p.1 (clusterOf unit)).foldl
        (fun t p => logError t p.1 2 (Config.pick (s.tick * 2 ^ 80) % 8) (dieOf unit % 4 * 2 ^ 60) 8 0 0
          ((coreOf s unit).corrected.toNat + count) [])
        (modCore s unit fun x => { x with corrected := x.corrected + BitVec.ofNat 64 count })) := by
  have hcross : ((coreOf s unit).corrected.toNat / 4096 != ((coreOf s unit).corrected.toNat + count) / 4096) = true := by
    simpa using hc
  have hfold : ∀ (l : List (Nat × Part)) (t : State), t.tick = s.tick →
      l.foldl (fun t p => logError t p.1 2 (Config.pick (t.tick * 2 ^ 80) % 8) (dieOf unit % 4 * 2 ^ 60) 8 0 0
        ((coreOf s unit).corrected.toNat + count) []) t =
      l.foldl (fun t p => logError t p.1 2 (Config.pick (s.tick * 2 ^ 80) % 8) (dieOf unit % 4 * 2 ^ 60) 8 0 0
        ((coreOf s unit).corrected.toNat + count) []) t := by
    intro l
    induction l with
    | nil => simp only [List.foldl_nil, implies_true]
    | cons p l ih =>
      intro t ht
      rw [List.foldl_cons, List.foldl_cons, ht]
      exact ih _ ((congrArg State.tick logged_logError.rest).trans ht)
  show execCorrectedErrorThreshold false unit count s = _
  simp only [execCorrectedErrorThreshold, Bool.false_eq_true, if_false, hcross, if_true]
  exact congrArg _ (hfold _ (modCore s unit fun x => { x with corrected := x.corrected + BitVec.ofNat 64 count }) rfl)

end

/-! The governor (R414). -/

/-- The state a tick of the governor begins with: the averages' window, and whether islands are lowered. -/
def metered (s : State) (watts : Nat) : State :=
  { s with
    power := (watts :: s.power).take 100
    lowering := decide (2800 * ((watts :: s.power).take 100).length < ((watts :: s.power).take 100).sum) ||
      (s.lowering && decide (2800 * ((watts :: s.power).take 100).length ≤ ((watts :: s.power).take 100).sum)) }

/-- Busy islands one step slower. -/
def slowed (s : State) : State :=
  (islands s).foldl (fun s c => if islandBusy s c then setClock s c fun k => max 6 (k - 1) else s) s

/-- Islands below their full clock one step faster. -/
def quickened (s : State) : State :=
  (islands s).foldl (fun s c => if decide ((clusterSt s c).clock < 36) then setClock s c fun k => k + 1 else s) s

theorem execGovernorTick_eq (s : State) (watts : Nat) : exec (.governorTick watts) s = .next (
    if (metered s watts).lowering then slowed (metered s watts)
    else if (metered s watts).power.sum < 2700 * (metered s watts).power.length then quickened (metered s watts)
    else metered s watts) := by
  simp only [quickened, decide_eq_true_eq]
  rfl

theorem countCycles_governor (s : State) (c : Nat) :
    (countCycles s c).power = s.power ∧ (countCycles s c).lowering = s.lowering := by
  rw [countCycles_eq]
  generalize upFrom (16 * c) 16 = l
  induction l generalizing s with
  | nil => exact ⟨rfl, rfl⟩
  | cons d l ih =>
    obtain ⟨h1, h2⟩ := ih (countCore s d)
    rw [List.foldl_cons, h1, h2]
    unfold countCore
    split <;> exact ⟨rfl, rfl⟩

theorem setClock_governor {g : Nat → Nat} (s : State) (c : Nat) :
    (setClock s c g).power = s.power ∧ (setClock s c g).lowering = s.lowering := by
  have h : ∀ (t : State) F, (modCluster t c F).power = t.power ∧ (modCluster t c F).lowering = t.lowering := fun _ _ => ⟨rfl, rfl⟩
  obtain ⟨h1, h2⟩ := countCycles_governor s c
  exact ⟨(h _ _).1.trans h1, (h _ _).2.trans h2⟩

/-- Clocks apart, a tick changes nothing of what it goes by. -/
theorem foldl_governor {P : State → Nat → Bool} {g : Nat → Nat} (l : List Nat) (s : State) :
    (l.foldl (fun s c => if P s c then setClock s c g else s) s).power = s.power ∧
      (l.foldl (fun s c => if P s c then setClock s c g else s) s).lowering = s.lowering := by
  induction l generalizing s with
  | nil => exact ⟨rfl, rfl⟩
  | cons a l ih =>
    obtain ⟨h1, h2⟩ := ih (if P s a then setClock s a g else s)
    rw [List.foldl_cons, h1, h2]
    split
    · exact setClock_governor s a
    · exact ⟨rfl, rfl⟩

theorem slowed_clock {s : State} {c : Nat} (hc : c / 128 = s.pkg) :
    (clusterSt (slowed s) c).clock = if islandBusy s c = true then max 6 ((clusterSt s c).clock - 1) else (clusterSt s c).clock := by
  rw [slowed, foldl_islands (P := islandBusy) (g := fun k => max 6 (k - 1)) (fun _ _ _ _ => setClock_busy _ _) islands_nodup]
  simp only [mem_islands, hc, true_and]

theorem quickened_clock {s : State} {c : Nat} (hc : c / 128 = s.pkg) :
    (clusterSt (quickened s) c).clock = if (clusterSt s c).clock < 36 then (clusterSt s c).clock + 1 else (clusterSt s c).clock := by
  rw [quickened, foldl_islands (P := fun s c => decide ((clusterSt s c).clock < 36)) (g := fun k => k + 1) _ islands_nodup]
  · simp only [mem_islands, hc, true_and, decide_eq_true_eq]
  · intro s c c' hne
    show decide _ = decide _
    rw [setClock_clock, if_neg hne]

theorem governor_steps {s : State} {watts : Nat} : ∃ t, exec (.governorTick watts) s = .next t ∧ t.power = (watts :: s.power).take 100 ∧
    ((2800 * t.power.length < t.power.sum ∨ (s.lowering = true ∧ 2800 * t.power.length ≤ t.power.sum)) →
      t.lowering = true ∧ ∀ c, c / 128 = s.pkg →
        (clusterSt t c).clock = if islandBusy s c = true then max 6 ((clusterSt s c).clock - 1) else (clusterSt s c).clock) ∧
    ((t.power.sum < 2800 * t.power.length ∨ (s.lowering = false ∧ t.power.sum = 2800 * t.power.length)) →
      t.lowering = false ∧ (2700 * t.power.length ≤ t.power.sum → t.clusters = s.clusters)) ∧
    (t.power.sum < 2700 * t.power.length → ∀ c, c / 128 = s.pkg →
      (clusterSt t c).clock = if (clusterSt s c).clock < 36 then (clusterSt s c).clock + 1 else (clusterSt s c).clock) := by
  have hp : (metered s watts).power = (watts :: s.power).take 100 := rfl
  have hl : (metered s watts).lowering = (decide (2800 * (metered s watts).power.length < (metered s watts).power.sum) ||
    (s.lowering && decide (2800 * (metered s watts).power.length ≤ (metered s watts).power.sum))) := rfl
  have hlow : (metered s watts).lowering = true ↔ 2800 * (metered s watts).power.length < (metered s watts).power.sum ∨
      (s.lowering = true ∧ 2800 * (metered s watts).power.length ≤ (metered s watts).power.sum) := by
    simp only [hl, Bool.or_eq_true, Bool.and_eq_true, decide_eq_true_eq]
  by_cases h1 : (metered s watts).lowering = true
  · obtain ⟨k1, k2⟩ := foldl_governor (P := islandBusy) (g := fun k => max 6 (k - 1)) (islands (metered s watts)) (metered s watts)
    have k1 : (slowed (metered s watts)).power = (metered s watts).power := k1
    have k2 : (slowed (metered s watts)).lowering = (metered s watts).lowering := k2
    refine ⟨slowed (metered s watts), by rw [execGovernorTick_eq, if_pos h1], k1.trans hp, ?_, ?_, ?_⟩ <;> rw [k1]
    · exact fun _ => ⟨k2.trans h1, fun c hc => slowed_clock hc⟩
    · intro h
      rw [hlow] at h1
      rcases h1 with h1 | ⟨h1, h1'⟩ <;> rcases h with h | ⟨h, h'⟩
      · omega
      · omega
      · omega
      · rw [h] at h1
        cases h1
    · intro h
      rw [hlow] at h1
      omega
  · have h1' : (metered s watts).lowering = false := Bool.not_eq_true _ ▸ h1
    by_cases h2 : (metered s watts).power.sum < 2700 * (metered s watts).power.length
    · obtain ⟨k1, k2⟩ := foldl_governor (P := fun s c => decide ((clusterSt s c).clock < 36)) (g := fun k => k + 1)
        (islands (metered s watts)) (metered s watts)
      have k1 : (quickened (metered s watts)).power = (metered s watts).power := k1
      have k2 : (quickened (metered s watts)).lowering = (metered s watts).lowering := k2
      refine ⟨quickened (metered s watts), by rw [execGovernorTick_eq, if_neg h1, if_pos h2], k1.trans hp, ?_, ?_, ?_⟩ <;> rw [k1]
      · exact fun h => absurd (hlow.mpr h) h1
      · exact fun _ => ⟨k2.trans h1', fun h => by omega⟩
      · exact fun _ c hc => quickened_clock hc
    · refine ⟨metered s watts, by rw [execGovernorTick_eq, if_neg h1, if_neg h2], hp, fun h => absurd (hlow.mpr h) h1,
        fun _ => ⟨h1', fun _ => rfl⟩, fun h => absurd h h2⟩

/-! Power-on (R412). -/

theorem powerOn_bad {s u : State} {chief d0 d1 d2 d3 : Option FwImage} (hu : u = placeImages (coldState s) 0 [chief, d0, d1, d2, d3])
    (hbad : imageOk (storedImage u 0) = false) :
    ∃ t, exec (.powerOnReset chief d0 d1 d2 d3) s = .next t ∧ t.stage = 1 ∧ t.powered = true := by
  refine ⟨{ u with stage := 1 }, ?_, rfl, ?_⟩
  · subst hu
    show execPowerOnReset chief d0 d1 d2 d3 s = _
    simp only [execPowerOnReset, hbad, Bool.not_false, if_true]
  · subst hu
    exact (placeImages_rest _ _ _).1.trans (coldState_rest s).1

/-- Settles O51: each event by its branch; what an error record, a lost link or a stage changes is no part of the claim. -/
theorem linkAndPowerEvents : Obligations.LinkAndPowerEvents := by
  intro s u link epoch version src dst k unit count watts cl flit features seq x chief d0 d1 d2 d3 nonce good type hx htype
  refine ⟨fun hgood => ⟨fun hup he hg => ?_, fun hup he hg => flitArrival_bad hx hup he (hgood.symm.trans hg), flitArrival_past hx⟩,
    fun hup => ?_, fun hdue => ?_, injectorFire_fires hx, injectAt_lane, fun hup hfail hu hkept => ?_, fun hst => ?_,
    fun hst hv => ?_, fun hst hv => ?_, fun h1 h2 h3 hr => ⟨fun hd => ?_, fun hd hdown hno => ?_, fun hd hdie hcl => ?_⟩,
    fun hc => ?_, fun hc => ⟨_, Nat.mod_lt _ (by decide), corrected_core hc⟩, fun hc => ?_, fun hc => ?_, ?_, rfl, rfl,
    ⟨_, rfl, rfl, fun a => shutdown_outside⟩, fun hu => ⟨fun hbad => ?_, powerOn_reaches hu⟩, fun hst a => ?_, rfl⟩
  · obtain ⟨hexec, hseq⟩ := flitArrival_good hx hup he (hgood.symm.trans hg)
    refine ⟨_, hexec, fun ht hc => ?_, fun ht => takeFlit_idle (htype ▸ ht) hseq, fun q ht ha => ?_, fun q ht ha => ?_, fun ht => ?_⟩
    · rw [hx]
      exact takeFlit_delivers htype hseq ht hc
    · exact takeFlit_answer (hx ▸ hup) (htype ▸ ht) hseq ha
    · exact takeFlit_answer (hx ▸ hup) (htype ▸ ht) hseq ha
    · rw [hx]
      exact takeFlit_credit (htype ▸ ht) hseq
  · refine ⟨modLink s link fun x => replayFrom x seq, ?_, ?_⟩
    · show execNackReplay link seq s = _
      simp only [execNackReplay, ← hx, hup, Bool.not_true, Bool.false_eq_true, if_false]
    · rw [linkSt_modLink, ← hx, replayFrom]
      split <;> rfl
  · show execInjectorFire link s = _
    simp only [execInjectorFire, ← hx, hdue, Bool.not_false, if_true]
  · have hno : (!x.up || (decide (x.fails < 9) && decide (x.nacks < 9))) = false := by
      rw [hup, Bool.not_true, Bool.false_or, Bool.and_eq_false_iff, decide_eq_false_iff_not, decide_eq_false_iff_not]
      omega
    have hall : ∀ v : State, (logAll v 4 link).pkg = v.pkg := fun v => by
      have h := congrArg State.pkg (logged_logAll (s := v) (kind := 4) (number := link)).rest
      exact h
    have hpkg : u.pkg = s.pkg := by
      rw [hu, hall]
      rfl
    show execLinkDown link s = _
    simp only [execLinkDown, ← hx, hno, Bool.false_eq_true, if_false]
    rw [← hpkg] at hkept
    exact (congrArg (fun v => Host.Outcome.next (linkLost v link)) hu.symm).trans (congrArg _ (linkLost_kept hkept))
  · show execLinkTraining link version features s = _
    simp only [execLinkTraining, hst, if_true]
  · have h5 : ¬ s.stage < 5 := by omega
    have h1 : ¬ version < 1 := by omega
    show execLinkTraining link version features s = _
    simp only [execLinkTraining, trainLink, h5, h1, if_false]
    rfl
  · have h5 : ¬ s.stage < 5 := by omega
    show execLinkTraining link version features s = _
    simp only [execLinkTraining, trainLink, h5, hv, Nat.zero_lt_one, if_false, if_true]
  · rw [route_eq (fun _ _ _ => hr) h1 h2 h3, hd]
    rfl
  · have hup : ((dieSt s (src / 4 * 4 + k)).up && !linkClosed s (src / 4 * 4 + k)) = false := by
      rcases hdown with h | h <;> simp [h]
    have hnot : s.detours.contains (src, dst) = false := by simpa using hno
    rw [route_eq (fun _ _ _ => hr) h1 h2 h3, hd, hup, hnot]
    rfl
  · have hup : ((dieSt s (src / 4 * 4 + k)).up && !linkClosed s (src / 4 * 4 + k)) = true := by rw [hdie, hcl]; rfl
    rw [route_eq (fun _ _ _ => hr) h1 h2 h3, hd, hup]
    rfl
  · have hcross : ((coreOf s unit).corrected.toNat / 4096 != ((coreOf s unit).corrected.toNat + count) / 4096) = false := by
      simpa using hc
    show execCorrectedErrorThreshold false unit count s = _
    simp only [execCorrectedErrorThreshold, Bool.false_eq_true, if_false, hcross]
  · have hcross : ((sliceSt s unit).corrected.toNat / 4096 != ((sliceSt s unit).corrected.toNat + count) / 4096) = false := by
      simpa using hc
    show execCorrectedErrorThreshold true unit count s = _
    simp only [execCorrectedErrorThreshold, Bool.false_eq_true, if_true, if_false, hcross]
  · have hcross : ((sliceSt s unit).corrected.toNat / 4096 != ((sliceSt s unit).corrected.toNat + count) / 4096) = true := by
      simpa using hc
    show execCorrectedErrorThreshold true unit count s = _
    simp only [execCorrectedErrorThreshold, if_true, hcross]
    rfl
  · exact governor_steps
  · exact powerOn_bad hu hbad
  · simp only [bar0Read, hst, decide_true, Bool.true_or, if_true]

end Sys2Proof.Laws

namespace Sys2Proof.Machine

/-! The vector engine's forms (R208 to R212): what one reads, writes and leaves. -/

open Sys2Proof.Laws

section
variable {i : Instr} {w : RWord} {h : Hdr} {specs : List (BitVec 8)} {s t u : State} {f : Nat} {d : BitVec 8}

theorem canVector_bound (hc : canVector i h specs s f = true) : bound s f = true := by
  simp only [canVector, Bool.and_eq_true] at hc
  exact issues_bound hc.1

theorem canVector_legal (hc : canVector i h specs s f = true) : legal i = true := by
  simp only [canVector, issues, Bool.and_eq_true] at hc
  exact hc.1.1.2

theorem mem_upFrom {a n k : Nat} : k ∈ upFrom a n ↔ a ≤ k ∧ k < a + n := by
  rw [upFrom_eq, List.mem_map]
  constructor
  · rintro ⟨j, hj, rfl⟩
    rw [List.mem_range] at hj
    omega
  · rintro ⟨h1, h2⟩
    exact ⟨k - a, List.mem_range.mpr (by omega), by omega⟩

theorem upFrom_getD {n k x : Nat} (hk : k < n) (F : Nat → Nat) : ((upFrom 0 n).map F).getD k x = F k := by
  rw [upFrom_eq, List.map_map]
  simp [hk]

theorem not_isS_of_isV (hd : isV d = true) : isS d = false := by
  simp only [isV, Bool.and_eq_true, beq_iff_eq] at hd
  simp [isS, hd.1]

theorem regWords_of_isV (hd : isV d = true) : regWords d = (128 + 16 * idx d, 16) := by
  have h : fld d 7 6 = 1 := by
    simp only [isV, Bool.and_eq_true, beq_iff_eq] at hd
    exact hd.1
  simp [regWords, isG, isP, h, hd]

/-- The words of a vector register. -/
theorem readWords_of_isV (hd : isV d = true) : readWords d = upFrom (128 + 16 * idx d) 16 := by
  rw [readWords, not_isS_of_isV hd, if_neg Bool.false_ne_true, regWords_of_isV hd]

/-- What the active elements read is of the register. -/
theorem activeWords_sub {n m v : Nat} (hv : v ∈ activeWords n m d) : v ∈ readWords d := by
  unfold activeWords at hv
  split at hv
  · next hd =>
    obtain ⟨k, hk, rfl⟩ := List.mem_map.mp hv
    have hk := (List.mem_filter.mp hk).1
    rw [mem_upFrom] at hk
    rw [readWords_of_isV hd, regWords_of_isV hd, mem_upFrom]
    exact ⟨Nat.le_add_right .., by omega⟩
  · split at hv
    · exact hv
    · exact absurd hv (List.not_mem_nil)

theorem laneReads_sub {n m v : Nat} (hv : v ∈ laneReads n specs f s m) : v ∈ specs.flatMap readWords := by
  obtain ⟨d, hd, hv⟩ := List.mem_flatMap.mp hv
  exact List.mem_flatMap.mpr ⟨d, hd, activeWords_sub hv⟩

theorem wholeIf_sub {on : Bool} {v : Nat} (hv : v ∈ wholeIf on specs) : v ∈ specs.flatMap readWords := by
  unfold wholeIf at hv
  split at hv
  · exact hv
  · exact absurd hv (List.not_mem_nil)

theorem wholeReads_sub {n m v : Nat} (hv : v ∈ wholeReads n specs f s m) : v ∈ specs.flatMap readWords := wholeIf_sub hv

/-! A register written in part. -/

theorem Banked.markOwn {ws : Nat → Prop} {k : Nat} (b : Banked s t f ws) (hb : Machine.bound s f = true) (hk : k < 640) (hws : ws k) :
    Banked s (markWord t f k) f ws ∧ ∀ g v, readFrame (markWord t f k) g v = readFrame t g v := by
  have hin : Machine.inSlot t f = true := bound_inSlot (b.bound f ▸ hb)
  obtain ⟨b', hr⟩ := (Banked.refl (s := t) (f := f) (ws := (· = k))).mark hin hk (.inl rfl)
  exact ⟨b.trans (b'.mono fun v hv => hv ▸ hws), hr⟩

/-- The marks put back are on the register's own words (R387). -/
theorem Banked.keepMarks {before : State} {whole : Nat → Bool} (b : Banked s t f (regHas d)) (hb : Machine.bound s f = true) :
    Banked s (Machine.keepMarks before f d whole t) f (regHas d) ∧
      ∀ g v, readFrame (Machine.keepMarks before f d whole t) g v = readFrame t g v := by
  have hwords := regWords_bound d
  have hall : ∀ k ∈ upFrom 0 (regWords d).2, k < (regWords d).2 := fun k hk => by
    rw [mem_upFrom] at hk
    omega
  unfold Machine.keepMarks
  generalize upFrom 0 (regWords d).2 = l at hall
  induction l generalizing t with
  | nil => exact ⟨b, fun _ _ => rfl⟩
  | cons k l ih =>
    have hk := hall k (List.mem_cons_self ..)
    rw [List.foldl_cons]
    simp only
    split
    · obtain ⟨b1, r1⟩ := b.markOwn hb (k := (regWords d).1 + k) (by omega) ⟨by omega, by omega⟩
      obtain ⟨b2, r2⟩ := ih b1 fun j hj => hall j (List.mem_cons_of_mem _ hj)
      exact ⟨b2, fun g v => (r2 g v).trans (r1 g v)⟩
    · exact ih b fun j hj => hall j (List.mem_cons_of_mem _ hj)

theorem not_regHas_pc : ¬ regHas d wPc := by
  have := regWords_bound d
  simp only [regHas, wPc]
  omega

/-- A register of `u` written in part, beside whatever `u` changes of `s`. -/
theorem finishPart_spec {whole : Nat → Bool} {v : Nat} (hb : bound u f = true) (hn : u.iss.next = s.iss.next) :
    Wrote u (finishPart h d whole v f u) f h (regHas d) ∧ (finishPart h d whole v f u).iss.next = s.iss.next ∧
      ∀ g, g = f ∨ twinOf u f = some g →
        readReg (finishPart h d whole v f u) g d = regValue d v ∧ ctxPc (finishPart h d whole v f u) g = s.iss.next := by
  obtain ⟨b, e⟩ := writeReg_spec hb d v
  obtain ⟨b', hr⟩ := b.keepMarks (before := u) (whole := whole) hb
  obtain ⟨hw, hnext, hall⟩ := finish_wrote (h := h) hb b'
  refine ⟨hw, hnext.trans hn, fun g hg => ⟨?_, (hall g hg).1.trans hn⟩⟩
  rw [← e g hg]
  refine readReg_of_frame fun k hk => ?_
  rw [← hr]
  exact (hall g hg).2 k fun e => not_regHas_pc (e ▸ hk)

theorem finishPart_sets {whole : Nat → Bool} {v : Nat} (hb : bound s f = true) (he : exec i s = .next (finishPart h d whole v f s)) :
    SetsReg i h d v s f := by
  obtain ⟨hw, hn, hall⟩ := finishPart_spec (h := h) (whole := whole) (v := v) (d := d) hb rfl
  exact ⟨_, he, hw, hn, (hall f (.inl rfl)).1, (hall f (.inl rfl)).2, fun g hg => hall g (.inr hg)⟩

/-- The end of an instruction without an effect. -/
theorem endsAs_of_finish (hb : bound s f = true) (he : exec i s = .next (finish h f s)) :
    EndsAs i h (fun _ => False) s s f fun _ => True := by
  obtain ⟨hw, -, hall⟩ := finish_wrote (h := h) hb (Banked.refl (ws := fun _ => False))
  exact ⟨_, he, hw, (hall f (.inl rfl)).1, trivial⟩

/-! Elements. -/

theorem lane_lt (n x e : Nat) : lane n x e < 2 ^ n := Nat.mod_lt _ (Nat.two_pow_pos n)

theorem lane_packBits (n : Nat) (l : List Nat) (e : Nat) : lane n (packBits n l) e = l.getD e 0 % 2 ^ n := by
  rcases Nat.eq_zero_or_pos n with rfl | hn
  · simp only [lane, Nat.pow_zero, Nat.mod_one]
  · rw [← bitsOf_packBits hn, bitsOf, lane, Nat.shiftRight_eq_div_pow, show n * e + (n - 1) + 1 - n * e = n by omega]

theorem lane_mod_self (n x e : Nat) : lane n x e % 2 ^ n = lane n x e := Nat.mod_mod ..

/-- Each element of a register written under a mask (R56, R209). -/
theorem lane_mapLanes {n stride m old : Nat} {mask : Nat → Bool} {g : Nat → Nat} {e : Nat} (he : e < m) :
    lane n (mapLanes n stride m mask old g) e = if mask (stride * e) = true then g e % 2 ^ n else lane n old e := by
  rw [mapLanes, lane_packBits, upFrom_getD he]
  split
  · rfl
  · exact lane_mod_self ..

/-- The element-by-element form of a context that can issue (R209, R210). -/
theorem laneBody_sets {reads : Nat → State → Nat → List Nat} {g : Nat → State → Nat → Nat} (he : exec i s = laneBody i w reads s g)
    (hs : ∀ m, ∀ v ∈ reads f s m, v ∈ specs.flatMap readWords) (hc : canVector i w.hdr specs s f = true) :
    SetsLanes i w.hdr w.d (tyWidth (tyOf w.hdr)) (tyWidth (tyOf w.hdr) / 8) (1024 / tyWidth (tyOf w.hdr)) s f (g f s) :=
  ⟨_, finishPart_sets (canVector_bound hc) (he.trans (withVector_next hs hc)), fun _ he => lane_mapLanes he⟩

theorem laneOp_sets {g : Nat → State → Nat → Nat} (he : exec i s = laneOp i w specs s g) (hc : canVector i w.hdr specs s f = true) :
    SetsLanes i w.hdr w.d (tyWidth (tyOf w.hdr)) (tyWidth (tyOf w.hdr) / 8) (1024 / tyWidth (tyOf w.hdr)) s f (g f s) :=
  laneBody_sets he (fun _ _ hv => laneReads_sub hv) hc

theorem laneOp2_sets {g : Nat → Nat → Nat} (he : exec i s = laneOp2 i w s g) (hc : canVector i w.hdr [w.a, w.b] s f = true) :
    SetsLanes i w.hdr w.d (tyWidth (tyOf w.hdr)) (tyWidth (tyOf w.hdr) / 8) (1024 / tyWidth (tyOf w.hdr)) s f fun e =>
      g (lane (tyWidth (tyOf w.hdr)) (readReg s f w.a) e) (operandB s f (tyWidth (tyOf w.hdr)) w.b w.imm e) :=
  laneOp_sets (g := fun f s e => g (lane (tyWidth (tyOf w.hdr)) (readReg s f w.a) e)
    (operandB s f (tyWidth (tyOf w.hdr)) w.b w.imm e)) he hc

/-- Only the low bits of an element count. -/
theorem SetsLanes.congr {n stride m : Nat} {g g' : Nat → Nat} (hs : SetsLanes i h d n stride m s f g)
    (hg : ∀ e, g e % 2 ^ n = g' e % 2 ^ n) : SetsLanes i h d n stride m s f g' := by
  obtain ⟨y, hy, hl⟩ := hs
  refine ⟨y, hy, fun e he => ?_⟩
  rw [hl e he, hg]

/-! Whether an element is active. -/

theorem bitOf_allOnes {k : Nat} (hk : k < 128) : bitOf (2 ^ 128 - 1) k = true := by
  rw [bitOf, Nat.testBit_two_pow_sub_one, decide_eq_true hk]

theorem bitOf_maskBits {k : Nat} (hk : k < 128) : bitOf (maskBits s f h) k = maskAt s f h k := by
  unfold maskBits maskAt maskBit
  cases h.pn
  · rw [if_neg Bool.false_ne_true, Nat.xor_zero, Bool.bne_false]
  · rw [if_pos rfl, bitOf, Nat.testBit_xor]
    have h1 : Nat.testBit (2 ^ 128 - 1) k = true := bitOf_allOnes hk
    rw [h1, bitOf]

theorem laneOn_maskBits {n e : Nat} (he : e < 1024 / n) : laneOn n (maskBits s f h) e = maskAt s f h (n / 8 * e) := by
  have hlt : n / 8 * e < 128 := by
    rcases Nat.eq_zero_or_pos n with rfl | hn
    · simp at he
    · have h1 : (e + 1) * n ≤ 1024 := (Nat.le_div_iff_mul_le hn).mp he
      have h2 : n / 8 * 8 * e ≤ n * e := Nat.mul_le_mul_right e (Nat.div_mul_le_self n 8)
      have h3 : n / 8 * 8 * e = n / 8 * e * 8 := by ring
      have h4 : (e + 1) * n = n * e + n := by ring
      omega
  exact bitOf_maskBits hlt

theorem someLane_eq_true {n : Nat} : someLane n (maskBits s f h) = true ↔ ∃ e, e < 1024 / n ∧ maskAt s f h (n / 8 * e) = true := by
  simp only [someLane, List.any_eq_true, mem_upFrom, Nat.zero_le, true_and, Nat.zero_add]
  refine exists_congr fun e => and_congr_right fun he => ?_
  rw [laneOn_maskBits he]

/-- A long element-by-element form with no active element (R211). -/
theorem laneLong_none {g : Nat → State → Nat → Nat} (he : exec i s = laneLong i w specs s g)
    (hc : canVector i w.hdr specs s f = true)
    (hno : ∀ e, e < 1024 / tyWidth (tyOf w.hdr) → maskAt s f w.hdr (tyWidth (tyOf w.hdr) / 8 * e) = false) :
    EndsAs i w.hdr (fun _ => False) s s f fun _ => True := by
  have hsome : someLane (tyWidth (tyOf w.hdr)) (maskBits s f w.hdr) = false := by
    rw [← Bool.not_eq_true, someLane_eq_true]
    rintro ⟨e, he, ht⟩
    exact Bool.false_ne_true ((hno e he).symm.trans ht)
  refine endsAs_of_finish (canVector_bound hc) (he.trans ?_)
  rw [laneLong, withVector_next (fun _ _ hv => laneReads_sub hv) hc]
  simp only [hsome, Bool.not_false, if_true]

/-- The registers lie beside the entries of the long results (R118, R119). -/
theorem readReg_openEntry {e : Nat} {d0 d1 : BitVec 8} (hb : bound s f = true) (hf : freeEntry s f = some e) (r : BitVec 8) :
    readReg (openEntry s f e d0 d1) f r = readReg s f r := by
  refine readReg_of_frame fun k hk => (openEntry_spec hb hf).1.kept k ?_
  have hlt := freeEntry_lt hf
  have hfar : ∀ r : BitVec 8, (regWords r).1 + (regWords r).2 ≤ 102 ∨ 110 ≤ (regWords r).1 := by decide +kernel
  have := hfar r
  simp only [regHas] at hk
  omega

/-- A long element-by-element form: the active elements return later (R211). -/
theorem laneLong_sends {g : Nat → State → Nat → Nat} (hg : ∀ t, (∀ r, readReg t f r = readReg s f r) → g f t = g f s) (he : exec i s = laneLong i w specs s g)
    (hc : canVector i w.hdr specs s f = true) (hf : (freeEntry s f).isSome = true)
    (hany : ∃ e, e < 1024 / tyWidth (tyOf w.hdr) ∧ maskAt s f w.hdr (tyWidth (tyOf w.hdr) / 8 * e) = true) :
    SendsResult i w.hdr w.d 0 (laneWrites w.d (tyWidth (tyOf w.hdr)) (tyWidth (tyOf w.hdr) / 8) (1024 / tyWidth (tyOf w.hdr))
      (maskAt s f w.hdr) (g f s)) [] s s f := by
  obtain ⟨e, hf⟩ := Option.isSome_iff_exists.mp hf
  refine sendsResult_beside (u := s) (v := openEntry s f e w.d 0) (canVector_bound hc) hf (he.trans ?_) rfl rfl
    (openEntry_spec (canVector_bound hc) hf).1.rest rfl
  rw [laneLong, withVector_next (fun _ _ hv => laneReads_sub hv) hc]
  simp only [someLane_eq_true.mpr hany, Bool.not_true, Bool.false_eq_true, if_false, withEntry, hf]
  have hr := readReg_openEntry (d0 := w.d) (d1 := 0) (canVector_bound hc) hf
  rw [hg _ hr, maskAt, maskAt, hr]

end

end Sys2Proof.Machine

namespace Sys2Proof.Laws
/-! Vector arithmetic (R213 to R217): the value of each active element. -/

open Sys2Proof.Machine

section
variable {t a b c n : Nat} {r : Rnd} {y : Int}

theorem lowBits_natCast (n x : Nat) : lowBits n (x : Int) = x % 2 ^ n := by
  rw [lowBits, ← Int.natCast_mod, Int.toNat_natCast]

/-- A value read signed or unsigned keeps its low bits. -/
theorem lowBits_sextInt (n x : Nat) : lowBits n (sextInt n x) = x % 2 ^ n := by
  rw [sextInt]
  split
  · rw [lowBits, Int.sub_emod_right, ← Int.natCast_mod, Int.toNat_natCast, Nat.mod_mod]
  · rw [lowBits_natCast, Nat.mod_mod]

theorem lowBits_asInt : lowBits (tyWidth t) (asInt t a) = a % 2 ^ tyWidth t := by
  unfold asInt
  split
  · exact lowBits_sextInt _ _
  · rw [lowBits_natCast, Nat.mod_mod]

theorem intCode_eq {sat : Bool} : intCode t sat y = lowBits (tyWidth t) (if sat = true then clampTy t y else y) := rfl

theorem tyInt_of_tyF (h : tyF t = true) : tyInt t = false ∧ tyC t = false := by
  simp only [tyF, tyInt, tyC, decide_eq_true_eq, decide_eq_false_iff_not] at *
  omega

/-- The complex types: none is an integer's, and both parts have half the bits (R73). -/
theorem tyC_spec (h : tyC t = true) : tyInt t = false ∧ tyWidth (partType t) = tyWidth t / 2 ∧
    (fmtOf (partType t)).width = tyWidth t / 2 ∧ tyF (partType t) = true ∧ tyWidth t = tyWidth t / 2 + tyWidth t / 2 := by
  have h : t = 15 ∨ t = 16 ∨ t = 17 := by
    simp only [tyC, decide_eq_true_eq] at h
    omega
  rcases h with rfl | rfl | rfl <;> decide

theorem sumLane_int {minus : Bool} (h : tyInt t = true) :
    sumLane t r minus a b = intCode t r.sat (if minus then asInt t a - asInt t b else asInt t a + asInt t b) := by
  simp only [sumLane, h, if_true]

theorem sumLane_real {minus : Bool} (h : tyF t = true) :
    sumLane t r minus a b = roundNow (fmtOf t) r (addNum (r.rm == 2) (decodeF r.ftz (fmtOf t) a)
      (if minus then negNum (decodeF r.ftz (fmtOf t) b) else decodeF r.ftz (fmtOf t) b)) := by
  obtain ⟨h1, h2⟩ := tyInt_of_tyF h
  simp only [sumLane, h1, h2, Bool.false_eq_true, if_false]

/-- Complex sums go part by part (R213). -/
theorem sumLane_complex {minus : Bool} (h : tyC t = true) :
    sumLane t r minus a b = sumLane (partType t) r minus (a % 2 ^ (tyWidth t / 2)) (b % 2 ^ (tyWidth t / 2)) +
      sumLane (partType t) r minus (a / 2 ^ (tyWidth t / 2)) (b / 2 ^ (tyWidth t / 2)) * 2 ^ (tyWidth t / 2) := by
  obtain ⟨h1, h2, -, h4, -⟩ := tyC_spec h
  rw [sumLane_real h4, sumLane_real h4]
  simp only [sumLane, h1, h, h2, Bool.false_eq_true, if_false, if_true]

theorem mulLane_int (h : tyInt t = true) : mulLane t r a b = intCode t r.sat (asInt t a * asInt t b) := by
  simp only [mulLane, h, if_true]

theorem mulLane_real (h : tyF t = true) :
    mulLane t r a b = roundNow (fmtOf t) r (mulNum (decodeF r.ftz (fmtOf t) a) (decodeF r.ftz (fmtOf t) b)) := by
  obtain ⟨h1, h2⟩ := tyInt_of_tyF h
  simp only [mulLane, h1, h2, Bool.false_eq_true, if_false]

theorem half_lt (hn : n = n / 2 + n / 2) (ha : a < 2 ^ n) : a / 2 ^ (n / 2) % 2 ^ (n / 2) = a / 2 ^ (n / 2) := by
  refine Nat.mod_eq_of_lt (Nat.div_lt_of_lt_mul ?_)
  rwa [← Nat.pow_add, ← hn]

/-- A complex product: each part is one rounding of its exact sum (R213). -/
theorem mulLane_complex {V : Nat → Machine.Num} (h : tyC t = true) (hV : V = decodeF r.ftz (fmtOf (partType t)))
    (ha : a < 2 ^ tyWidth t) (hb : b < 2 ^ tyWidth t) :
    mulLane t r a b =
      roundNow (fmtOf (partType t)) r (addNum (r.rm == 2) (mulNum (V (a % 2 ^ (tyWidth t / 2))) (V (b % 2 ^ (tyWidth t / 2))))
        (negNum (mulNum (V (a / 2 ^ (tyWidth t / 2))) (V (b / 2 ^ (tyWidth t / 2)))))) +
      roundNow (fmtOf (partType t)) r (addNum (r.rm == 2) (mulNum (V (a % 2 ^ (tyWidth t / 2))) (V (b / 2 ^ (tyWidth t / 2))))
        (mulNum (V (a / 2 ^ (tyWidth t / 2))) (V (b % 2 ^ (tyWidth t / 2))))) * 2 ^ (tyWidth t / 2) := by
  obtain ⟨h1, -, h3, -, h5⟩ := tyC_spec h
  simp only [mulLane, h1, h, h3, Bool.false_eq_true, if_false, if_true, half_lt h5 ha, half_lt h5 hb, hV]

theorem fmaLane_int (h : tyInt t = true) : fmaLane t r a b c = intCode t r.sat (asInt t a * asInt t b + asInt t c) := by
  simp only [fmaLane, h, if_true]

theorem fmaLane_real (h : tyF t = true) : fmaLane t r a b c =
    roundNow (fmtOf t) r (addNum (r.rm == 2) (mulNum (decodeF r.ftz (fmtOf t) a) (decodeF r.ftz (fmtOf t) b))
      (decodeF r.ftz (fmtOf t) c)) := by
  obtain ⟨h1, -⟩ := tyInt_of_tyF h
  simp only [fmaLane, h1, Bool.false_eq_true, if_false]

/-- The lesser element of an integer type, on its low bits (R213). -/
theorem pickLane_min {ftz : Bool} (h : tyInt t = true) :
    pickLane t ftz false a b % 2 ^ tyWidth t = lowBits (tyWidth t) (min (asInt t a) (asInt t b)) := by
  simp only [pickLane, h, if_true, Bool.false_eq_true, if_false]
  split
  · next h => rw [min_eq_left h, lowBits_asInt]
  · next h => rw [min_eq_right (le_of_not_ge h), lowBits_asInt]

theorem pickLane_max {ftz : Bool} (h : tyInt t = true) :
    pickLane t ftz true a b % 2 ^ tyWidth t = lowBits (tyWidth t) (max (asInt t a) (asInt t b)) := by
  simp only [pickLane, h, if_true]
  split
  · next h => rw [max_eq_left h, lowBits_asInt]
  · next h => rw [max_eq_right (le_of_not_ge h), lowBits_asInt]

theorem pickLane_real {ftz greater : Bool} (h : tyF t = true) : pickLane t ftz greater a b = pickF (fmtOf t) ftz greater a b := by
  obtain ⟨h1, -⟩ := tyInt_of_tyF h
  simp only [pickLane, h1, Bool.false_eq_true, if_false]

theorem absLane_signed {sat neg : Bool} (h : tySigned t = true) :
    absLane t sat neg a = intCode t sat (if neg = true then -asInt t a else (asInt t a).natAbs) := by
  have hi : tyInt t = true := by
    simp only [tySigned, tyInt, decide_eq_true_eq] at *
    omega
  simp only [absLane, hi, h, Bool.and_true, if_true]

/-- An unsigned element's negation and absolute value (R217). -/
theorem absLane_unsigned {sat neg : Bool} (h : tyInt t = true) (hs : tySigned t = false) (ha : a < 2 ^ tyWidth t) :
    absLane t sat neg a % 2 ^ tyWidth t = (if neg = true then 2 ^ tyWidth t - a else a) % 2 ^ tyWidth t := by
  have hv : asInt t a = (a : Int) := by
    simp only [asInt, hs, Bool.false_eq_true, if_false, Nat.mod_eq_of_lt ha]
  simp only [absLane, h, hs, Bool.and_false, if_true, intCode_eq, Bool.false_eq_true, if_false, hv]
  split
  · have he : -(a : Int) = ((2 ^ tyWidth t - a : Nat) : Int) - (2 ^ tyWidth t : Nat) := by
      rw [Nat.cast_sub ha.le]
      ring
    rw [he, lowBits, Int.sub_emod_right, ← Int.natCast_mod, Int.toNat_natCast, Nat.mod_mod]
  · rw [Int.natAbs_natCast, lowBits_natCast, Nat.mod_mod]

theorem absLane_real {sat neg : Bool} (h : tyF t = true) :
    absLane t sat neg a = if neg = true then a ^^^ 2 ^ (tyWidth t - 1) else a % 2 ^ (tyWidth t - 1) := by
  obtain ⟨h1, -⟩ := tyInt_of_tyF h
  simp only [absLane, h1, Bool.false_eq_true, if_false]

theorem operandB_lt {s : State} {f e : Nat} {d : BitVec 8} {imm : BitVec 32} : operandB s f n d imm e < 2 ^ n := by
  unfold operandB
  split
  · exact lane_lt _ _ _
  · exact Nat.mod_lt _ (Nat.two_pow_pos n)

end

/-- Settles O34: each form's element function, by the class of its type; the long forms by whether an element is active. -/
theorem vectorArithmetic : Obligations.VectorArithmetic := by
  rintro w s f t n k r p A B C I F V q rfl rfl rfl rfl rfl rfl rfl rfl rfl rfl rfl rfl
  refine ⟨fun hc => ⟨fun h => ?_, fun h => ?_, fun h => ?_⟩, fun hc => ⟨fun h => ?_, fun h => ?_, fun h => ?_⟩,
    fun hc => ⟨fun h => ?_, fun h => ?_, fun h => ?_⟩, fun hc => ⟨fun h => ?_, fun h => ?_⟩, fun hc => ⟨fun h => ?_, fun h => ?_⟩,
    fun hc => ⟨fun h => ?_, fun h => ?_⟩, fun hc => ⟨fun h => ?_, fun h hs => ?_, fun h => ?_⟩,
    fun hno => ⟨fun hc => ?_, fun hc => ?_⟩, fun hf hany => ⟨fun hc => ?_, fun hc => ?_⟩⟩
  · exact (laneOp2_sets rfl hc).congr fun e => by rw [sumLane_int h]; rfl
  · exact (laneOp2_sets rfl hc).congr fun e => by rw [sumLane_real h]; rfl
  · exact (laneOp2_sets rfl hc).congr fun e => by rw [sumLane_complex h]
  · exact (laneOp2_sets rfl hc).congr fun e => by rw [sumLane_int h]; rfl
  · exact (laneOp2_sets rfl hc).congr fun e => by rw [sumLane_real h]; rfl
  · exact (laneOp2_sets rfl hc).congr fun e => by rw [sumLane_complex h]
  · exact (laneOp2_sets rfl hc).congr fun e => by rw [mulLane_int h]; rfl
  · exact (laneOp2_sets rfl hc).congr fun e => by rw [mulLane_real h]
  · exact (laneOp2_sets rfl hc).congr fun e => by rw [mulLane_complex h rfl (lane_lt _ _ _) operandB_lt]
  · exact (laneOp_sets rfl hc).congr fun e => by simp only [fmaLane_int h]; rfl
  · exact (laneOp_sets rfl hc).congr fun e => by simp only [fmaLane_real h]
  · exact (laneOp2_sets rfl hc).congr fun e => by rw [pickLane_min h, Nat.mod_eq_of_lt (lowBits_lt _ _)]
  · exact (laneOp2_sets rfl hc).congr fun e => by rw [pickLane_real h]; rfl
  · exact (laneOp2_sets rfl hc).congr fun e => by rw [pickLane_max h, Nat.mod_eq_of_lt (lowBits_lt _ _)]
  · exact (laneOp2_sets rfl hc).congr fun e => by rw [pickLane_real h]; rfl
  · exact (laneOp_sets rfl hc).congr fun e => by simp only [absLane_signed h, beq_iff_eq]; rfl
  · exact (laneOp_sets rfl hc).congr fun e => by simp only [absLane_unsigned h hs (lane_lt _ _ _), beq_iff_eq]
  · exact (laneOp_sets rfl hc).congr fun e => by simp only [absLane_real h, beq_iff_eq]
  · exact laneLong_none rfl hc hno
  · exact laneLong_none rfl hc hno
  · exact laneLong_sends (fun t ht => by simp only [operandB, src, ht]) rfl hc hf hany
  · exact laneLong_sends (fun t ht => by simp only [ht]) rfl hc hf hany

end Sys2Proof.Laws

namespace Sys2Proof.Laws
/-! Vector functions, bits, shifts, moves and shuffles (R216 to R230). -/

open Sys2Proof.Machine

section
variable {i : Instr} {w : RWord} {s : State} {f n a b e k : Nat}

theorem xor_allOnes (h : b < 2 ^ n) : b ^^^ (2 ^ n - 1) = 2 ^ n - 1 - b := by
  refine Nat.eq_of_testBit_eq fun j => ?_
  rw [Nat.testBit_xor, Nat.testBit_two_pow_sub_one, Nat.sub_sub, Nat.add_comm 1, Nat.testBit_two_pow_sub_succ h]
  by_cases hj : j < n
  · simp [hj]
  · have hb : b.testBit j = false :=
      Nat.testBit_eq_false_of_lt (lt_of_lt_of_le h (Nat.pow_le_pow_right (by decide) (Nat.le_of_not_lt hj)))
    simp [hj, hb]

/-- One element replaced, element by element (R230). -/
theorem lane_putBits {x v : Nat} (hn : 0 < n) : lane n (putBits x (n * k + n - 1) (n * k) v) e = if e = k then v % 2 ^ n else lane n x e := by
  refine Nat.eq_of_testBit_eq fun j => ?_
  have hlane : ∀ y, (lane n y e).testBit j = (decide (j < n) && y.testBit (n * e + j)) := fun y => by
    rw [lane, Nat.testBit_mod_two_pow, Nat.testBit_div_two_pow, Nat.add_comm]
  rw [hlane, testBit_putBits _ _ _ _ _ (by omega)]
  by_cases hj : j < n
  · by_cases he : e = k
    · subst he
      rw [if_pos (by omega), if_pos rfl, Nat.add_sub_cancel_left, Nat.testBit_mod_two_pow]
    · have hout : ¬ (n * k ≤ n * e + j ∧ n * e + j ≤ n * k + n - 1) := by
        rcases Nat.lt_or_gt_of_ne he with h | h
        · have := Nat.mul_le_mul_left n (Nat.succ_le_of_lt h)
          rw [Nat.mul_succ] at this
          omega
        · have := Nat.mul_le_mul_left n (Nat.succ_le_of_lt h)
          rw [Nat.mul_succ] at this
          omega
      rw [if_neg hout, if_neg he, hlane]
  · have h1 : decide (j < n) = false := decide_eq_false hj
    rw [h1, Bool.false_and]
    split
    · rw [Nat.testBit_mod_two_pow, h1, Bool.false_and]
    · rw [hlane, h1, Bool.false_and]

theorem tyWidth_of_tyW {t : Nat} (h : tyW t = true) : 8 ≤ tyWidth t := by
  have : t < 18 := by
    simp only [tyW, tyC, Bool.or_eq_true, decide_eq_true_eq] at h
    omega
  interval_cases t <;> revert h <;> decide

/-- A bounded function's form (R216). -/
theorem boundedLanes_sets {op : Nat} (he : exec i s = boundedLanes i op w s) (hc : canVector i w.hdr [w.a] s f = true) :
    SetsLanes i w.hdr w.d (tyWidth (tyOf w.hdr)) (tyWidth (tyOf w.hdr) / 8) (1024 / tyWidth (tyOf w.hdr)) s f fun e =>
      boundedOp op (tyOf w.hdr) (qSat w.qual) (qFtz w.qual) (lane (tyWidth (tyOf w.hdr)) (readReg s f w.a) e) :=
  laneOp_sets (g := fun f s e => boundedOp op (tyOf w.hdr) (qSat w.qual) (qFtz w.qual) (lane _ (readReg s f w.a) e)) he hc

/-- The verdicts of VCMP (R218). -/
theorem vcmp_sets (hc : canVector (.vcmp w) w.hdr [w.a, w.b] s f = true) :
    SetsLanes (.vcmp w) w.hdr w.d (tyWidth (tyOf w.hdr) / 8) (tyWidth (tyOf w.hdr) / 8) (1024 / tyWidth (tyOf w.hdr)) s f fun e =>
      if cmpLane (tyOf w.hdr) (qFtz w.qual) (qExtra w.qual) (lane (tyWidth (tyOf w.hdr)) (readReg s f w.a) e)
        (operandB s f (tyWidth (tyOf w.hdr)) w.b w.imm e) then 2 ^ (tyWidth (tyOf w.hdr) / 8) - 1 else 0 := by
  refine ⟨_, finishPart_sets (whole := fun k => (upFrom (512 / tyWidth (tyOf w.hdr) * k) (512 / tyWidth (tyOf w.hdr))).all
    (laneOn (tyWidth (tyOf w.hdr)) (maskBits s f w.hdr))) (canVector_bound hc) ?_, fun _ he => lane_mapLanes he⟩
  show execVcmp w s = _
  rw [execVcmp, withVector_next (fun _ _ hv => laneReads_sub hv) hc]

theorem vsel_reads {m v : Nat} (hv : v ∈ wholeIf (someLane n m) [w.c] ++ activeWords n (m &&& readReg s f w.c) w.a ++
    activeWords n (m &&& (readReg s f w.c ^^^ (2 ^ 128 - 1))) w.b) : v ∈ [w.a, w.b, w.c].flatMap readWords := by
  simp only [List.flatMap_cons, List.flatMap_nil, List.append_nil, List.mem_append]
  rcases List.mem_append.mp hv with hv | hv
  · rcases List.mem_append.mp hv with hv | hv
    · have h := wholeIf_sub hv
      simp only [List.flatMap_cons, List.flatMap_nil, List.append_nil] at h
      exact .inr (.inr h)
    · exact .inl (activeWords_sub hv)
  · exact .inr (.inl (activeWords_sub hv))

/-- VSEL (R219). -/
theorem vsel_sets (hc : canVector (.vsel w) w.hdr [w.a, w.b, w.c] s f = true) :
    SetsLanes (.vsel w) w.hdr w.d (tyWidth (tyOf w.hdr)) (tyWidth (tyOf w.hdr) / 8) (1024 / tyWidth (tyOf w.hdr)) s f fun e =>
      if bitOf (readReg s f w.c) (tyWidth (tyOf w.hdr) / 8 * e) then lane (tyWidth (tyOf w.hdr)) (readReg s f w.a) e
      else operandB s f (tyWidth (tyOf w.hdr)) w.b w.imm e :=
  have he : exec (.vsel w) s = execVsel w s := rfl
  laneBody_sets (g := fun f s e => if bitOf (readReg s f w.c) (tyWidth (tyOf w.hdr) / 8 * e)
    then lane (tyWidth (tyOf w.hdr)) (readReg s f w.a) e else operandB s f (tyWidth (tyOf w.hdr)) w.b w.imm e) he
    (fun _ _ hv => vsel_reads hv) hc

/-- VPERM (R228). -/
theorem vperm_sets (hc : canVector (.vperm w) w.hdr [w.a, w.b] s f = true) :
    SetsLanes (.vperm w) w.hdr w.d (tyWidth (tyOf w.hdr)) (tyWidth (tyOf w.hdr) / 8) (1024 / tyWidth (tyOf w.hdr)) s f fun e =>
      lane (tyWidth (tyOf w.hdr)) (readReg s f w.a)
        (lane (tyWidth (tyOf w.hdr)) (readReg s f w.b) e % (1024 / tyWidth (tyOf w.hdr))) :=
  have he : exec (.vperm w) s = execVperm w s := rfl
  laneBody_sets (g := fun f s e => lane (tyWidth (tyOf w.hdr)) (readReg s f w.a)
    (lane (tyWidth (tyOf w.hdr)) (readReg s f w.b) e % (1024 / tyWidth (tyOf w.hdr)))) he
    (fun m v hv => by
      rw [List.flatMap_cons, List.mem_append]
      rcases List.mem_append.mp hv with hv | hv
      · exact .inl (by simpa using wholeReads_sub hv)
      · exact .inr (laneReads_sub hv)) hc

/-- VSHUF (R229). -/
theorem vshuf_sets (hc : canVector (.vshuf w) w.hdr [w.a, w.b] s f = true) :
    SetsLanes (.vshuf w) w.hdr w.d (tyWidth (tyOf w.hdr)) (tyWidth (tyOf w.hdr) / 8) (1024 / tyWidth (tyOf w.hdr)) s f
      (shufLane (fld w.imm 3 0) (fld w.imm 15 8) (1024 / tyWidth (tyOf w.hdr)) (tyWidth (tyOf w.hdr)) (readReg s f w.a)
        (readReg s f w.b)) :=
  laneBody_sets (g := fun f s => shufLane (fld w.imm 3 0) (fld w.imm 15 8) (1024 / tyWidth (tyOf w.hdr)) (tyWidth (tyOf w.hdr))
    (readReg s f w.a) (readReg s f w.b)) rfl (fun _ _ hv => wholeReads_sub hv) hc

/-- Every pattern of VSHUF gives an element, or zero. -/
theorem shufLane_lt (pat k m n a b e : Nat) : shufLane pat k m n a b e < 2 ^ n := by
  unfold shufLane
  have h0 : 0 < 2 ^ n := Nat.two_pow_pos n
  split
  case h_2 | h_3 => split <;> [exact lane_lt _ _ _; exact h0]
  case h_6 | h_7 => split <;> exact lane_lt _ _ _
  all_goals exact lane_lt _ _ _

theorem okVmovx_spec {fn : Nat} {d a : BitVec 8 → Bool} (h : okVmovx w fn d a = true) :
    8 ≤ tyWidth (tyOf w.hdr) ∧ fld w.imm 6 0 < 1024 / tyWidth (tyOf w.hdr) ∧ d w.d = true ∧ a w.a = true := by
  obtain ⟨-, hty, -, hd, ha, -, -, him⟩ := okR_iff.mp h
  simp only [Bool.and_eq_true] at him
  exact ⟨tyWidth_of_tyW hty, of_decide_eq_true him.2, hd, ha⟩

/-- An element inserted in a register (R230). -/
theorem vmovxIns_sets (hc : canVector (.vmovxIns w) w.hdr [w.a] s f = true) :
    (maskAt s f w.hdr (tyWidth (tyOf w.hdr) / 8 * fld w.imm 6 0) = true → ∃ y, SetsReg (.vmovxIns w) w.hdr w.d y s f ∧
      ∀ e, e < 1024 / tyWidth (tyOf w.hdr) → lane (tyWidth (tyOf w.hdr)) y e =
        if e = fld w.imm 6 0 then readReg s f w.a % 2 ^ tyWidth (tyOf w.hdr) else lane (tyWidth (tyOf w.hdr)) (readReg s f w.d) e) ∧
    (maskAt s f w.hdr (tyWidth (tyOf w.hdr) / 8 * fld w.imm 6 0) = false →
      EndsAs (.vmovxIns w) w.hdr (fun _ => False) s s f fun _ => True) := by
  obtain ⟨hw, -, -, -⟩ := okVmovx_spec (canVector_legal hc)
  have he : exec (.vmovxIns w) s = execVmovxIns w s := rfl
  rw [execVmovxIns, withVector_next (fun _ _ hv => wholeIf_sub hv) hc] at he
  refine ⟨fun hon => ?_, fun hoff => endsAs_of_finish (canVector_bound hc) (he.trans (by simp only [hoff, Bool.false_eq_true, if_false]))⟩
  rw [if_pos hon] at he
  exact ⟨_, finishPart_sets (canVector_bound hc) he, fun e _ => lane_putBits (by omega)⟩

/-- An element read into a general register (R230). -/
theorem vmovxExt_sets (hc : canVector (.vmovxExt w) w.hdr [w.a] s f = true) :
    (maskAt s f w.hdr (tyWidth (tyOf w.hdr) / 8 * fld w.imm 6 0) = true → SetsReg (.vmovxExt w) w.hdr w.d
      (extend (tyOf w.hdr) (lane (tyWidth (tyOf w.hdr)) (readReg s f w.a) (fld w.imm 6 0))) s f) ∧
    (maskAt s f w.hdr (tyWidth (tyOf w.hdr) / 8 * fld w.imm 6 0) = false →
      EndsAs (.vmovxExt w) w.hdr (fun _ => False) s s f fun _ => True) := by
  obtain ⟨hw, hlt, -, ha⟩ := okVmovx_spec (canVector_legal hc)
  have he : exec (.vmovxExt w) s = execVmovxExt w s := rfl
  rw [execVmovxExt, withVector_next (fun m v hv => ?_) hc] at he
  · exact ⟨fun hon => finishReg_sets (canVector_bound hc) (he.trans (by simp only [hon, if_true])),
      fun hoff => endsAs_of_finish (canVector_bound hc) (he.trans (by simp only [hoff, Bool.false_eq_true, if_false]))⟩
  · split at hv
    · rw [List.mem_singleton] at hv
      have hin : tyWidth (tyOf w.hdr) * fld w.imm 6 0 < 1024 := by
        have h1 := (Nat.le_div_iff_mul_le (by omega)).mp (Nat.succ_le_of_lt hlt)
        rw [Nat.succ_mul, Nat.mul_comm] at h1
        omega
      rw [regWords_of_isV ha] at hv
      simp only [List.flatMap_cons, List.flatMap_nil, List.append_nil, readWords_of_isV ha, mem_upFrom]
      omega
    · exact absurd hv (List.not_mem_nil)

theorem xor_one (e : Nat) : e ^^^ 1 = if e % 2 = 0 then e + 1 else e - 1 := by
  split
  · next h => exact Nat.xor_one_of_even (Nat.even_iff.mpr h)
  · next h => exact Nat.xor_one_of_odd (Nat.odd_iff.mpr (by omega))

end

/-- Settles O35: each form's element function; an inactive element keeps its value, or the whole form does nothing. -/
theorem vectorLanes : Obligations.VectorLanes := by
  constructor
  · rintro w s f t n x A B S rfl rfl rfl rfl rfl rfl
    refine ⟨boundedLanes_sets rfl, boundedLanes_sets rfl, boundedLanes_sets rfl, boundedLanes_sets rfl, fun hc => vcmp_sets hc,
      fun hc => vsel_sets hc, fun hc => ⟨fun h => ?_, fun h => ?_, fun h => ?_, fun h => ?_, fun h => ?_⟩,
      fun hc => ⟨fun h => ?_, fun h => ?_, fun h => ?_⟩, fun hc => ?_, fun hc => vperm_sets hc, vmovxIns_sets, vmovxExt_sets⟩
    · exact (laneOp2_sets rfl hc).congr fun e => by rw [h]; rfl
    · exact (laneOp2_sets rfl hc).congr fun e => by rw [h]; rfl
    · exact (laneOp2_sets rfl hc).congr fun e => by rw [h]; rfl
    · exact (laneOp2_sets rfl hc).congr fun e => by rw [h, bitLane, xor_allOnes operandB_lt]
    · exact (laneOp2_sets rfl hc).congr fun e => by rw [h]; exact congrArg (· % _) (xor_allOnes (lane_lt _ _ _))
    · exact (laneOp2_sets rfl hc).congr fun e => by rw [h, shiftLane, shiftCount, Nat.mod_mod]
    · exact (laneOp2_sets rfl hc).congr fun e => by rw [h]; rfl
    · exact (laneOp2_sets rfl hc).congr fun e => by rw [h]; rfl
    · exact (laneOp_sets rfl hc).congr fun e => Nat.mod_mod ..
  · rintro w s f n N k A B hc rfl rfl rfl rfl rfl
    obtain ⟨y, hy, hl⟩ := vshuf_sets hc
    have hon : ∀ e, e < 1024 / tyWidth (tyOf w.hdr) → maskAt s f w.hdr (tyWidth (tyOf w.hdr) / 8 * e) = true →
        lane (tyWidth (tyOf w.hdr)) y e = shufLane (fld w.imm 3 0) (fld w.imm 15 8) (1024 / tyWidth (tyOf w.hdr))
          (tyWidth (tyOf w.hdr)) (readReg s f w.a) (readReg s f w.b) e := fun e he hm => by
      rw [hl e he, if_pos hm, Nat.mod_eq_of_lt (shufLane_lt ..)]
    refine ⟨y, hy, fun e he hm => by rw [hl e he, hm, if_neg Bool.false_ne_true], fun e he hm => ?_, fun j hj => ?_⟩
    · rw [hon e he hm]
      refine ⟨fun h => ?_, fun h => ?_, fun h => ?_, fun h => ?_, fun h => ?_⟩ <;> rw [h]
      · rfl
      · rfl
      · rfl
      · rfl
      · rw [← xor_one]; rfl
    · generalize 1024 / tyWidth (tyOf w.hdr) = N at *
      have h2 : 2 * j % 2 = 0 ∧ 2 * j / 2 = j ∧ (2 * j + 1) % 2 = 1 ∧ (2 * j + 1) / 2 = j := by omega
      have hlow : j < N / 2 := hj
      have hhigh : ¬ N / 2 + j < N / 2 ∧ N / 2 + j - N / 2 = j := by omega
      refine ⟨fun h => ⟨fun hm => ?_, fun hm => ?_⟩, fun h => ⟨fun hm => ?_, fun hm => ?_⟩, fun h => ⟨fun hm => ?_, fun hm => ?_⟩,
        fun h => ⟨fun hm => ?_, fun hm => ?_⟩⟩ <;> rw [hon _ (by omega) hm, h, shufLane]
      · rw [h2.1, h2.2.1, if_pos rfl]
      · rw [h2.2.2.1, h2.2.2.2, if_neg (by decide)]
      · rw [h2.1, h2.2.1, if_pos rfl]
      · rw [h2.2.2.1, h2.2.2.2, if_neg (by decide)]
      · rw [if_pos hlow]
      · rw [if_neg hhigh.1, hhigh.2]
      · rw [if_pos hlow]
      · rw [if_neg hhigh.1, hhigh.2]

end Sys2Proof.Laws

namespace Sys2Proof.Laws
/-! Vector reductions, rankings, dot products and conversions (R220, R221, R231 to R235). -/

open Sys2Proof.Machine

section
variable {i : Instr} {w : RWord} {h : Hdr} {s u : State} {f n e k : Nat} {d : BitVec 8}

theorem tyWidth_of_tyIF {t : Nat} (h : (tyI t || tyF t) = true) : 8 ≤ tyWidth t := by
  refine tyWidth_of_tyW ?_
  simp only [tyI, tyF, tyW, tyC, Bool.or_eq_true, decide_eq_true_eq] at *
  omega

/-- Elements from the register's last on do not count (R91). -/
theorem reduceBelow_all {fn t : Nat} {r : Rnd} {mask : Nat → Bool} {a : Nat} (ht : 8 ≤ tyWidth t) :
    reduceBelow fn t r mask a 128 = reduceBelow fn t r mask a (1024 / tyWidth t) := by
  have hle : 1024 / tyWidth t ≤ 128 := Nat.div_le_div_left (c := 8) ht (by decide)
  refine congrArg (reduceTree (reduceOp fn t r) (1024 / tyWidth t).log2) (List.map_congr_left fun e he => ?_)
  have he := (mem_upFrom.mp he).2
  have h1 : decide (e < 128) = true := decide_eq_true (by omega)
  have h2 : decide (e < 1024 / tyWidth t) = true := decide_eq_true (by omega)
  rw [h1, h2]

/-! Elements of a register's bits. -/

theorem testBit_lane (n y e j : Nat) : (lane n y e).testBit j = (decide (j < n) && y.testBit (n * e + j)) := by
  rw [lane, Nat.testBit_mod_two_pow, Nat.testBit_div_two_pow, Nat.add_comm]

theorem lane_mod {m x : Nat} (hm : n * e + n ≤ m) : lane n (x % 2 ^ m) e = lane n x e := by
  refine Nat.eq_of_testBit_eq fun j => ?_
  rw [testBit_lane, testBit_lane]
  by_cases hj : j < n
  · rw [Nat.testBit_mod_two_pow, decide_eq_true (show n * e + j < m by omega), Bool.true_and]
  · rw [decide_eq_false hj, Bool.false_and, Bool.false_and]

/-- The first `k` elements replaced (R233). -/
theorem lane_putLow {x v : Nat} (hn : 0 < n) (hk : 0 < k) :
    lane n (putBits x (n * k - 1) 0 v) e = if e < k then lane n v e else lane n x e := by
  have hpos : 0 < n * k := Nat.mul_pos hn hk
  refine Nat.eq_of_testBit_eq fun j => ?_
  rw [testBit_lane, testBit_putBits _ _ _ _ _ (by omega), Nat.sub_zero]
  by_cases hj : j < n
  · by_cases he : e < k
    · have := Nat.mul_le_mul_left n (Nat.succ_le_of_lt he)
      rw [Nat.mul_succ] at this
      rw [if_pos (by omega), if_pos he, testBit_lane]
    · have := Nat.mul_le_mul_left n (Nat.le_of_not_lt he)
      rw [if_neg (by omega), if_neg he, testBit_lane]
  · rw [decide_eq_false hj, Bool.false_and]
    split <;> rw [testBit_lane, decide_eq_false hj, Bool.false_and]

theorem lane_within (he : e < 1024 / n) : n * e + n ≤ 1024 := by
  rcases Nat.eq_zero_or_pos n with rfl | hn
  · omega
  · have h := (Nat.le_div_iff_mul_le hn).mp (Nat.succ_le_of_lt he)
    rw [Nat.succ_mul, Nat.mul_comm] at h
    exact h

theorem not_isP_of_isV (hd : isV d = true) : isP d = false := by
  simp only [isV, Bool.and_eq_true, beq_iff_eq] at hd
  simp [isP, hd.1]

theorem regValue_of_isV (hd : isV d = true) (v : Nat) : regValue d v = v % 2 ^ 1024 := by
  have h : (regWords d).2 = 16 := by rw [regWords_of_isV hd]
  rw [regValue, not_isP_of_isV hd, Bool.false_and, if_neg Bool.false_ne_true, h]

theorem vSpec_spec (hk : k < 32) : isV (vSpec k) = true ∧ idx (vSpec k) = k := by
  interval_cases k <;> decide

theorem vIdx30_iff : vIdx30 d = true ↔ isV d = true ∧ idx d ≤ 30 := by
  rw [vIdx30, Bool.and_eq_true, decide_eq_true_eq]

/-! Two registers written in part. -/

/-- Two vector registers written in part (R233). -/
theorem finishPart_two {whole whole' : Nat → Bool} {d' : BitVec 8} {v v' : Nat} (hb : bound s f = true) (hd : isV d = true)
    (hd' : isV d' = true) (hne : idx d ≠ idx d') (he : exec i s =
      .next (finishPart h d' whole' v' f (keepMarks s f d whole (writeReg s f d v)))) :
    EndsAs i h (fun k => regHas d k ∨ regHas d' k) s s f fun t => readReg t f d = v % 2 ^ 1024 ∧ readReg t f d' = v' % 2 ^ 1024 := by
  obtain ⟨b, e1⟩ := writeReg_spec hb d v
  obtain ⟨b, r1⟩ := b.keepMarks (before := s) (whole := whole) hb
  have hr1 : readReg (keepMarks s f d whole (writeReg s f d v)) f d = regValue d v := by
    rw [← e1 f (.inl rfl)]
    exact readReg_of_frame fun k _ => r1 f k
  have hb1 : bound (keepMarks s f d whole (writeReg s f d v)) f = true := b.bound f ▸ hb
  generalize keepMarks s f d whole (writeReg s f d v) = s1 at *
  obtain ⟨b2, e2⟩ := writeReg_spec hb1 d' v'
  obtain ⟨b2, r2⟩ := b2.keepMarks (before := s1) (whole := whole') hb1
  have b3 : Banked s _ f (fun k => regHas d k ∨ regHas d' k) := (b.mono fun k hk => .inl hk).trans (b2.mono fun k hk => .inr hk)
  obtain ⟨hw, hn, hall⟩ := finish_wrote (h := h) hb b3
  refine ⟨_, he, hw, (hall f (.inl rfl)).1, ?_, ?_⟩
  · rw [← regValue_of_isV hd, ← hr1]
    refine readReg_of_frame fun k hk => ?_
    rw [finishPart, (hall f (.inl rfl)).2 k fun e => not_regHas_pc (e ▸ hk)]
    refine b2.kept k fun hk' => ?_
    simp only [regHas, regWords_of_isV hd, regWords_of_isV hd'] at hk hk'
    omega
  · rw [← regValue_of_isV hd', ← e2 f (.inl rfl)]
    refine readReg_of_frame fun k hk => ?_
    rw [finishPart, (hall f (.inl rfl)).2 k fun e => not_regHas_pc (e ▸ hk)]
    exact r2 f k

/-! Rankings (R233, R234). -/

theorem mem_insertRank {before : Nat → Nat → Bool} {x y : Nat × Nat} {l : List (Nat × Nat)} (h : y ∈ insertRank before x l) :
    y = x ∨ y ∈ l := by
  induction l with
  | nil => exact .inl (List.mem_singleton.mp h)
  | cons z l ih =>
    rw [insertRank] at h
    split at h
    · rcases List.mem_cons.mp h with rfl | h
      · exact .inr (List.mem_cons_self ..)
      · exact (ih h).imp_right fun h => List.mem_cons_of_mem _ h
    · exact List.mem_cons.mp h

/-- Every ranked element is one of the register's. -/
theorem mem_ranked {t : Nat} {asc : Bool} {mask : Nat → Bool} {a : Nat} {y : Nat × Nat} (h : y ∈ ranked t asc mask a) :
    y.1 < 1024 / tyWidth t ∧ y.2 < 2 ^ tyWidth t := by
  have hall : ∀ l : List (Nat × Nat), y ∈ l.foldr (insertRank (ranksBefore t asc)) [] → y ∈ l := by
    intro l
    induction l with
    | nil => exact fun h => h
    | cons x l ih =>
      intro h
      rcases mem_insertRank h with rfl | h
      · exact List.mem_cons_self ..
      · exact List.mem_cons_of_mem _ (ih h)
  obtain ⟨e, he, rfl⟩ := List.mem_map.mp (hall _ h)
  exact ⟨by simpa using (mem_upFrom.mp (List.mem_filter.mp he).1).2, lane_lt _ _ _⟩

theorem ranked_getD {l : List (Nat × Nat)} {g : Nat × Nat → Nat} {m x : Nat} (hg : ∀ y ∈ l, g y < m) (hx : x < m) :
    ((l[e]?).map g).getD x < m := by
  cases hl : l[e]? with
  | none => exact hx
  | some y => exact hg y (List.mem_of_getElem? hl)

end

end Sys2Proof.Laws

namespace Sys2Proof.Laws
/-! Reductions, rankings, dot products, conversions and quantised rows (O36). -/

open Sys2Proof.Machine

section
variable {w : RWord} {s : State} {f : Nat}

theorem vred_sets (hc : canVector (.vred w) w.hdr [w.a] s f = true) :
    SetsReg (.vred w) w.hdr w.d (extend (tyOf w.hdr) (reduceBelow (fnOf w.hdr) (tyOf w.hdr) (rndOf w.qual) (maskAt s f w.hdr)
      (readReg s f w.a) (1024 / tyWidth (tyOf w.hdr)))) s f := by
  have h := canVector_legal hc
  rw [legal] at h
  obtain ⟨-, hty, -⟩ := okR_iff.mp h
  refine finishReg_sets (canVector_bound hc) ?_
  rw [← reduceBelow_all (tyWidth_of_tyIF hty)]
  show execVred w s = _
  rw [execVred, withVector_next (fun _ _ hv => laneReads_sub hv) hc]

theorem vscan_sets (hc : canVector (.vscan w) w.hdr [w.a] s f = true) :
    SetsLanes (.vscan w) w.hdr w.d (tyWidth (tyOf w.hdr)) (tyWidth (tyOf w.hdr) / 8) (1024 / tyWidth (tyOf w.hdr)) s f fun e =>
      reduceBelow (if fnOf w.hdr = 0 then 0 else 2) (tyOf w.hdr) (rndOf w.qual) (maskAt s f w.hdr) (readReg s f w.a) (e + 1) := by
  have h := canVector_legal hc
  rw [legal] at h
  obtain ⟨hfn, -⟩ := okR_iff.mp h
  have hfn : 2 * fnOf w.hdr = if fnOf w.hdr = 0 then 0 else 2 := by
    have := of_decide_eq_true hfn
    split <;> omega
  have he : exec (.vscan w) s = execVscan w s := rfl
  rw [execVscan] at he
  rw [← hfn]
  exact laneOp_sets (g := fun f s e => reduceBelow (2 * fnOf w.hdr) (tyOf w.hdr) (rndOf w.qual) (maskAt s f w.hdr)
    (readReg s f w.a) (e + 1)) he hc

/-- The elements of a list of `k` values of `n` bits, each of its own. -/
theorem lane_pack_of_lt {n k e : Nat} {F : Nat → Nat} (he : e < k) (hF : F e < 2 ^ n) :
    lane n (packBits n ((upFrom 0 k).map F)) e = F e := by
  rw [lane_packBits, upFrom_getD he, Nat.mod_eq_of_lt hF]

/-- VTOPK (R233). -/
theorem vtopk_ends {l : List (Nat × Nat)} (hc : canVector (.vtopk w) w.hdr [w.a] s f = true)
    (hl : l = ranked (tyOf w.hdr) (qExtra w.qual == 1) (maskAt s f w.hdr) (readReg s f w.a)) :
    EndsAs (.vtopk w) w.hdr (fun v => regHas w.d v ∨ regHas (vSpec (idx w.d + 1)) v) s s f fun t =>
      ∀ e, e < 1024 / tyWidth (tyOf w.hdr) →
        lane (tyWidth (tyOf w.hdr)) (readReg t f w.d) e = (if e < fld w.imm 7 0 then ((l[e]?).map Prod.snd).getD 0
          else lane (tyWidth (tyOf w.hdr)) (readReg s f w.d) e) ∧
        lane (tyWidth (tyOf w.hdr)) (readReg t f (vSpec (idx w.d + 1))) e = if e < fld w.imm 7 0
          then ((l[e]?).map Prod.fst).getD (2 ^ tyWidth (tyOf w.hdr) - 1)
          else lane (tyWidth (tyOf w.hdr)) (readReg s f (vSpec (idx w.d + 1))) e := by
  have h := canVector_legal hc
  rw [legal] at h
  obtain ⟨-, hty, -, hd, -, -, -, him⟩ := okR_iff.mp h
  obtain ⟨hd, hidx⟩ := vIdx30_iff.mp hd
  obtain ⟨hk, -⟩ := of_decide_eq_true (Bool.and_eq_true_iff.mp him).2
  have hn := tyWidth_of_tyIF hty
  obtain ⟨hd', hidx'⟩ := vSpec_spec (k := idx w.d + 1) (by omega)
  have he : exec (.vtopk w) s = execVtopk w s := rfl
  rw [execVtopk, withVector_next (fun _ _ hv => laneReads_sub hv) hc] at he
  simp only [← hl] at he
  obtain ⟨t, ht, hw, hpc, h1, h2⟩ := finishPart_two (canVector_bound hc) hd hd' (by omega) he
  have hpow : (2 : Nat) ^ 8 ≤ 2 ^ tyWidth (tyOf w.hdr) := Nat.pow_le_pow_right (by decide) hn
  have hlanes : 1024 / tyWidth (tyOf w.hdr) ≤ 128 := Nat.div_le_div_left (c := 8) hn (by decide)
  have hl1 : ∀ y ∈ l, y.2 < 2 ^ tyWidth (tyOf w.hdr) := fun y hy => (mem_ranked (hl ▸ hy)).2
  have hl2 : ∀ y ∈ l, y.1 < 2 ^ tyWidth (tyOf w.hdr) := fun y hy => by
    have := (mem_ranked (hl ▸ hy)).1
    omega
  refine ⟨t, ht, hw, hpc, fun e he => ⟨?_, ?_⟩⟩
  · rw [h1, lane_mod (lane_within he), lane_putLow (by omega) hk]
    split
    · next hlt => exact lane_pack_of_lt hlt (ranked_getD hl1 (by omega))
    · rfl
  · rw [h2, lane_mod (lane_within he), lane_putLow (by omega) hk]
    split
    · next hlt => exact lane_pack_of_lt hlt (ranked_getD hl2 (by omega))
    · rfl

theorem vargmax_sets {l : List (Nat × Nat)} (hc : canVector (.vargmax w) w.hdr [w.a] s f = true)
    (hl : l = ranked (tyOf w.hdr) (qExtra w.qual == 1) (maskAt s f w.hdr) (readReg s f w.a)) :
    (l = [] → SetsReg (.vargmax w) w.hdr w.d (2 ^ 32 - 1) s f) ∧
      ∀ e v rest, l = (e, v) :: rest → SetsReg (.vargmax w) w.hdr w.d (e + v * 2 ^ 32) s f := by
  have he : exec (.vargmax w) s = execVargmax w s := rfl
  rw [execVargmax, withVector_next (fun _ _ hv => laneReads_sub hv) hc] at he
  simp only [← hl] at he
  exact ⟨fun h => finishReg_sets (canVector_bound hc) (he.trans (by rw [h])),
    fun e v rest h => finishReg_sets (canVector_bound hc) (he.trans (by rw [h]))⟩

theorem vdot_sets (hc : canVector (.vdot w) w.hdr [w.a, w.b, w.c] s f = true) :
    SetsLanes (.vdot w) w.hdr w.d 32 4 32 s f fun e =>
      dotLane (tyOf w.hdr) (qSat w.qual) (readReg s f w.a) (readReg s f w.b) (lane 32 (readReg s f w.c) e) e := by
  have he : exec (.vdot w) s = execVdot w s := rfl
  rw [execVdot, withVector_next (fun _ _ hv => laneReads_sub hv) hc] at he
  exact ⟨_, finishPart_sets (canVector_bound hc) he, fun _ he => lane_mapLanes he⟩

/-! The rounding register beside a write (R86). -/

theorem putLfsr_eq (v : BitVec 32) : putLfsr s f v = { s with lfsr := (putLfsr s f v).lfsr } := by
  unfold putLfsr
  split <;> rfl

/-- A register written in part, and the slot's rounding register. -/
theorem finishPart_lfsr {i : Instr} {h : Hdr} {d : BitVec 8} {whole : Nat → Bool} {v : Nat} {o : BitVec 32}
    (hb : bound s f = true) (he : exec i s = .next (finishPart h d whole v f (putLfsr s f o))) :
    EndsAs i h (regHas d) s (putLfsr s f o) f fun t => readReg t f d = regValue d v := by
  have hb' : bound (putLfsr s f o) f = true := by
    rw [putLfsr_eq]
    exact hb
  have hn : (putLfsr s f o).iss.next = s.iss.next := by rw [putLfsr_eq]
  obtain ⟨hw, -, hall⟩ := finishPart_spec (h := h) (d := d) (whole := whole) (v := v) hb' hn
  exact ⟨_, he, hw, (hall f (.inl rfl)).2, (hall f (.inl rfl)).1⟩

theorem mem_words_of_isV {d : BitVec 8} (hd : isV d = true) {v k : Nat} (hv : v = (regWords d).1 + k) (hk : k < 16) :
    v ∈ readWords d := by
  rw [readWords_of_isV hd, hv, regWords_of_isV hd, mem_upFrom]
  exact ⟨Nat.le_add_right .., by omega⟩

/-- The widths of a conversion's two types (R81). -/
theorem cvtPair_spec {st dt : Nat} (h : cvtPair st dt = true) : 0 < tyWidth st ∧ 0 < tyWidth dt ∧
    (tyWidth st < tyWidth dt → tyWidth dt % tyWidth st = 0) := by
  have hlt : st < 18 ∧ dt < 18 := by
    simp only [cvtPair, tyInt, tyF, tyE8, tyC, Bool.or_eq_true, Bool.and_eq_true, decide_eq_true_eq, beq_iff_eq] at h
    omega
  have hall : ∀ st < 18, ∀ dt < 18, cvtPair st dt = true → 0 < tyWidth st ∧ 0 < tyWidth dt ∧
      (tyWidth st < tyWidth dt → tyWidth dt % tyWidth st = 0) := by decide +kernel
  exact hall st hlt.1 dt hlt.2 h

/-- The source element of a conversion lies in its register (R220). -/
theorem cvt_within {ws wd p i : Nat} (hws : 0 < ws) (hdvd : ws < wd → wd % ws = 0) (hp : ws < wd → p * ws < wd)
    (hi : i < 1024 / max ws wd) : ws * (if ws < wd then i + 1024 / max ws wd * p else i) / 64 < 16 := by
  refine Nat.div_lt_of_lt_mul ?_
  by_cases h : ws < wd
  · rw [max_eq_right h.le] at hi ⊢
    obtain ⟨q, hq⟩ := Nat.dvd_of_mod_eq_zero (hdvd h)
    rw [if_pos h]
    have hpq : p + 1 ≤ q := by
      have h1 := hp h
      rw [hq, Nat.mul_comm] at h1
      exact Nat.lt_of_mul_lt_mul_left h1
    calc ws * (i + 1024 / wd * p) < ws * (1024 / wd * (p + 1)) :=
          Nat.mul_lt_mul_of_pos_left (by rw [Nat.mul_succ]; omega) hws
      _ ≤ ws * (1024 / wd * q) := Nat.mul_le_mul_left _ (Nat.mul_le_mul_left _ hpq)
      _ = 1024 / wd * wd := by rw [hq]; ring
      _ ≤ 64 * 16 := Nat.div_mul_le_self 1024 wd
  · rw [max_eq_left (Nat.le_of_not_lt h)] at hi
    rw [if_neg h]
    have h1 := lane_within hi
    omega

/-- VCVT (R220). -/
theorem vcvt_ends {ws wd m : Nat} {out : Nat × BitVec 32} (hws : ws = tyWidth (fld w.imm 4 0)) (hwd : wd = tyWidth (tyOf w.hdr))
    (hm : m = max ws wd)
    (hout : out = cvtLanes (fld w.imm 4 0) (tyOf w.hdr) (rndOf w.qual) (fun i => maskAt s f w.hdr (m / 8 * i))
      (fun i => if ws < wd then i + 1024 / m * fld w.imm 10 8 else i)
      (fun i => if wd < ws then i + 1024 / m * fld w.imm 10 8 else i) (readReg s f w.a) (upFrom 0 (1024 / m))
      (readReg s f w.d, lfsrOf s s.iss.core s.iss.slot))
    (hc : canVector (.vcvt w) w.hdr [w.a] s f = true) :
    EndsAs (.vcvt w) w.hdr (regHas w.d) s (putLfsr s f out.2) f fun t => readReg t f w.d = regValue w.d out.1 := by
  subst hws hwd hm
  have h := canVector_legal hc
  rw [legal, okVcvt] at h
  obtain ⟨hpair, h⟩ := Bool.and_eq_true_iff.mp h
  obtain ⟨-, -, -, -, ha, -, -, him⟩ := okR_iff.mp h
  obtain ⟨hw1, -, hw3⟩ := cvtPair_spec hpair
  have hp := of_decide_eq_true (Bool.and_eq_true_iff.mp him).2
  have he : exec (.vcvt w) s = execVcvt w s := rfl
  rw [execVcvt, withVector_next (fun m v hv => ?_) hc] at he
  · simp only [← hout] at he
    exact finishPart_lfsr (canVector_bound hc) he
  · rw [List.mem_eraseDups, List.mem_map] at hv
    obtain ⟨i, hi, rfl⟩ := hv
    have hi := (mem_upFrom.mp (List.mem_filter.mp hi).1).2
    rw [Nat.zero_add] at hi
    simp only [List.flatMap_cons, List.flatMap_nil, List.append_nil]
    exact mem_words_of_isV ha rfl (cvt_within hw1 hw3 (fun hlt => by rwa [if_pos hlt, if_pos hlt] at hp) hi)

/-! Quantised rows (R221). -/

/-- The source types of VQF4: 8, 16 or 32 bits. -/
theorem okVqf4_spec (hok : okVqf4 w = true) : isV w.d = true ∧ isV w.a = true ∧
    (tyWidth (fld w.imm 4 0) = 8 ∨ tyWidth (fld w.imm 4 0) = 16 ∨ (tyWidth (fld w.imm 4 0) = 32 ∧ idx w.a ≤ 30)) := by
  rw [okVqf4] at hok
  obtain ⟨-, -, -, hd, ha, -, -, him⟩ := okR_iff.mp hok
  simp only [Bool.and_eq_true, Bool.or_eq_true, bne_iff_ne, decide_eq_true_eq] at ha
  simp only [Bool.and_eq_true] at him
  have hty := him.1.1.1
  refine ⟨hd, ha.1, ?_⟩
  have hlt : fld w.imm 4 0 < 18 := by
    simp only [tyI, tyF, tyE8, Bool.or_eq_true, decide_eq_true_eq, beq_iff_eq] at hty
    omega
  have hall : ∀ t < 18, (tyI t || tyF t || tyE8 t) = true → tyWidth t = 8 ∨ tyWidth t = 16 ∨ tyWidth t = 32 := by decide +kernel
  rcases hall _ hlt hty with h | h | h
  · exact .inl h
  · exact .inr (.inl h)
  · exact .inr (.inr ⟨h, ha.2.resolve_left fun hne => hne h⟩)

/-- The source elements of VQF4 lie in its one or two registers. -/
theorem vqf4_reads {ws k v : Nat} {at_ : Nat → Nat} (hat : at_ = fun j => if ws = 8 then 64 * fld w.imm 8 8 + j else j)
    (ha : isV w.a = true) (hws : ws = 8 ∨ ws = 16 ∨ (ws = 32 ∧ idx w.a ≤ 30)) (hk : k < 64)
    (hv : v = (regWords w.a).1 + ws * at_ k / 64) :
    v ∈ readWords w.a ∨ (ws = 32 ∧ v ∈ readWords (vSpec (idx w.a + 1))) := by
  subst hat
  have hbit : fld w.imm 8 8 < 2 := bitsOf_lt _ _ _
  simp only at hv
  rcases hws with rfl | rfl | ⟨rfl, hidx⟩
  · exact .inl (mem_words_of_isV ha (by rwa [if_pos rfl] at hv) (by omega))
  · exact .inl (mem_words_of_isV ha (by rwa [if_neg (by decide)] at hv) (by omega))
  · rw [if_neg (by decide)] at hv
    by_cases hlow : k < 32
    · exact .inl (mem_words_of_isV ha hv (by omega))
    · obtain ⟨h1, h2⟩ := vSpec_spec (k := idx w.a + 1) (by omega)
      refine .inr ⟨rfl, ?_⟩
      rw [readWords_of_isV h1, h2, mem_upFrom]
      rw [regWords_of_isV ha] at hv
      simp only at hv
      omega

/-- VQF4 with an active element, or none. -/
theorem vqf4_ends {ws row : Nat} {a : Nat → Nat} {q : List Nat × List Nat × BitVec 32} (hws : ws = tyWidth (fld w.imm 4 0))
    (ha : a = fun j => if ws = 8 then 64 * fld w.imm 8 8 + j else j)
    (hc : canVector (.vqf4 w) w.hdr ([w.a, w.b] ++ if ws = 32 then [vSpec (idx w.a + 1)] else []) s f = true) :
    ((∀ j, j < 64 → maskAt s f w.hdr (ws / 8 * a j % 128) = false) →
      EndsAs (.vqf4 w) w.hdr (fun _ => False) s s f fun _ => True) ∧
    ((∃ j, j < 64 ∧ maskAt s f w.hdr (ws / 8 * a j % 128) = true) →
      q = quantRow (qRm w.qual) (decodeF false (fmtOf 10) (readReg s f w.b % 2 ^ 16))
        (decodeF false (fmtOf 10) (readReg s f w.b / 2 ^ 16 % 2 ^ 16)) 8
        ((upFrom 0 64).map fun j => if maskAt s f w.hdr (ws / 8 * a j % 128) then
          numOf (qFtz w.qual) (fld w.imm 4 0)
            (lane ws (readReg s f w.a + if ws = 32 then readReg s f (vSpec (idx w.a + 1)) * 2 ^ 1024 else 0) (a j))
          else .rat false 0 1 0) (lfsrOf s s.iss.core s.iss.slot) →
      row = packBits 4 q.1 + packBits 16 q.2.1 * 2 ^ 256 + (fld w.imm 15 10 * 2 ^ 9) * 2 ^ 256 →
      EndsAs (.vqf4 w) w.hdr (regHas w.d) s (putLfsr s f q.2.2) f fun t => ∀ j, j < 1024 →
        (readReg t f w.d).testBit j =
          if 384 * fld w.imm 9 9 ≤ j ∧ j < 384 * fld w.imm 9 9 + 384 then row.testBit (j - 384 * fld w.imm 9 9)
          else (readReg s f w.d).testBit j) := by
  have h := canVector_legal hc
  rw [legal] at h
  obtain ⟨hd, hva, hty⟩ := okVqf4_spec h
  rw [← hws] at hty
  have hany : ((upFrom 0 64).any fun j => maskAt s f w.hdr (ws / 8 * a j % 128)) = true ↔
      ∃ j, j < 64 ∧ maskAt s f w.hdr (ws / 8 * a j % 128) = true := by
    simp only [List.any_eq_true, mem_upFrom, Nat.zero_le, true_and, Nat.zero_add]
  have he : exec (.vqf4 w) s = execVqf4 w s := rfl
  rw [execVqf4, withVector_next (fun m v hv => ?_) hc] at he
  · subst hws ha
    refine ⟨fun hno => endsAs_of_finish (canVector_bound hc) (he.trans (congrArg _ (if_neg ?_))), fun hon hq hrow => ?_⟩
    · rw [hany]
      rintro ⟨j, hj, h1⟩
      exact Bool.false_ne_true ((hno j hj).symm.trans h1)
    · have he := he.trans (congrArg _ (if_pos (hany.mpr hon)))
      subst hq hrow
      obtain ⟨t, ht, hw, hpc, hr⟩ := finishPart_lfsr (canVector_bound hc) he
      refine ⟨t, ht, hw, hpc, fun j hj => ?_⟩
      rw [hr, regValue_of_isV hd, Nat.testBit_mod_two_pow, decide_eq_true hj, Bool.true_and, testBit_putBits _ _ _ _ _ (by omega)]
      simp only [show j ≤ 384 * fld w.imm 9 9 + 383 ↔ j < 384 * fld w.imm 9 9 + 384 by omega]
  · simp only [← hws] at hv
    rcases List.mem_append.mp hv with hv | hv
    · have hv := wholeIf_sub hv
      simp only [List.flatMap_cons, List.flatMap_nil, List.append_nil, List.flatMap_append, List.mem_append] at hv ⊢
      exact .inl (.inr hv)
    · rw [List.mem_eraseDups, List.mem_map] at hv
      obtain ⟨k, hk, rfl⟩ := hv
      have hk := (mem_upFrom.mp (List.mem_filter.mp hk).1).2
      rw [Nat.zero_add] at hk
      simp only [List.flatMap_cons, List.flatMap_nil, List.append_nil, List.flatMap_append, List.mem_append]
      subst ha
      rcases vqf4_reads rfl hva hty hk rfl with h | ⟨h32, h⟩
      · exact .inl (.inl h)
      · rw [if_pos h32]
        simp only [List.flatMap_cons, List.flatMap_nil, List.append_nil]
        exact .inr h

end

/-- Settles O36: each form writes what its rule computes on the active elements, and keeps the rest of the register. -/
theorem vectorReductionsAndConversions : Obligations.VectorReductionsAndConversions := by
  rintro w s f t n k d2 l mask A rfl rfl rfl rfl rfl rfl hl
  exact ⟨vred_sets, vscan_sets, fun hc => vtopk_ends hc hl, fun hc => vargmax_sets hc hl, vdot_sets,
    fun ws wd m out hws hwd hm hout hc => vcvt_ends hws hwd hm hout hc, fun ws a row q hws ha hc => vqf4_ends hws ha hc⟩

end Sys2Proof.Laws

namespace Sys2Proof.Laws
/-! Canonical memory and whole banks: the rules by which every function of the model keeps both. -/

open Sys2Proof.Machine

/-- Where an instruction goes on, what it leaves keeps memory canonical and the banks whole. -/
def Ends (r : State) (o : Out) : Prop := ∀ t, o = .next t → Keeps r t

section
variable {r s t v : State} {f c k n : Nat}

theorem ends_next (h : Keeps r t) : Ends r (.next t) := fun _ e => Host.Outcome.next.inj e ▸ h

theorem ends_refused {x : Refusal} : Ends r (.refused x) := by
  intro t e
  cases e

theorem ends_fault {x : Fault} : Ends r (.fault x) := by
  intro t e
  cases e

theorem kept_ite {p : Prop} [Decidable p] (ht : Keeps r s) (he : Keeps r t) : Keeps r (if p then s else t) := by
  split
  · exact ht
  · exact he

theorem kept_foldl {α : Type} {l : List α} {F : State → α → State} (hF : ∀ s a, Keeps r s → Keeps r (F s a)) (h : Keeps r s) :
    Keeps r (l.foldl F s) := by
  induction l generalizing s with
  | nil => exact h
  | cons a l ih => exact ih (hF s a h)

theorem kept_fst {α : Type} {p : State × α} {a : α} (h : Keeps r p.1) (e : p = (t, a)) : Keeps r t := by
  subst e
  exact h

theorem kept_snd {α : Type} {p : α × State} {a : α} (h : Keeps r p.2) (e : p = (a, t)) : Keeps r t := by
  subst e
  exact h

/-- Memory, its marks and the cores are as they were. -/
theorem kept_with (h : Keeps r v) {time pkg stage powered copyMarks behind racing lfsr ctxs clusters slices dies experts copies updates
    parts barriers launches outcomes queues ignored links detours chief power lowering partners podNumber store images report reqs
    faulted wreqs rets net arrivals mail caps flushes drops sched turn iss tick ord} :
    Keeps r { v with
      time := time, pkg := pkg, stage := stage, powered := powered, copyMarks := copyMarks, behind := behind, racing := racing
      lfsr := lfsr, ctxs := ctxs, clusters := clusters, slices := slices, dies := dies, experts := experts, copies := copies
      updates := updates, parts := parts, barriers := barriers, launches := launches, outcomes := outcomes, queues := queues
      ignored := ignored, links := links, detours := detours, chief := chief, power := power, lowering := lowering
      partners := partners, podNumber := podNumber, store := store, images := images, report := report, reqs := reqs
      faulted := faulted, wreqs := wreqs, rets := rets, net := net, arrivals := arrivals, mail := mail, caps := caps
      flushes := flushes, drops := drops, sched := sched, turn := turn, iss := iss, tick := tick, ord := ord } :=
  h.trans (.of_eq rfl rfl rfl rfl)

/-! The parts of the state. -/

theorem kept_modCore {F : Core → Core} (h : Keeps r s) (hF : ∀ x, (F x).slots = x.slots) : Keeps r (modCore s c F) :=
  h.trans (keeps_modCore fun hw => by
    unfold wholeCore
    rw [hF]
    exact hw)

theorem wholeCore_slot {x : Core} (h : wholeCore x = true) (k : Nat) :
    wholeBank (SMap.get {} x.slots k).act = true ∧ wholeBank (SMap.get {} x.slots k).shadow = true := by
  rcases SMap.get_mem (d := ({} : Slot)) (m := x.slots) (k := k) with h0 | h0
  · rw [h0]
    exact ⟨rfl, rfl⟩
  · exact Bool.and_eq_true_iff.mp (List.all_eq_true.mp h _ h0)

theorem wholeBanks_slot (h : wholeBanks s = true) (c k : Nat) :
    wholeBank (slotOf s c k).act = true ∧ wholeBank (slotOf s c k).shadow = true := wholeCore_slot (wholeCore_coreOf h c) k

/-- A slot whose new banks are whole where the old ones are. -/
theorem keeps_modSlot {F : Slot → Slot} (hF : wholeBanks s = true →
    wholeBank (F (slotOf s c k)).act = true ∧ wholeBank (F (slotOf s c k)).shadow = true) : Keeps s (modSlot s c k F) := by
  refine ⟨id, fun h => wholeBanks_iff.mpr fun p hp => ?_⟩
  rcases SMap.mem_set hp with hp | rfl
  · exact wholeBanks_iff.mp h p hp
  · refine List.all_eq_true.mpr fun q hq => ?_
    rcases SMap.mem_set hq with hq | rfl
    · exact List.all_eq_true.mp (wholeCore_coreOf h c) q hq
    · exact Bool.and_eq_true_iff.mpr (hF h)

theorem kept_modSlot {F : Slot → Slot} (h : Keeps r s) (hF : ∀ x, (F x).act = x.act ∧ (F x).shadow = x.shadow) :
    Keeps r (modSlot s c k F) :=
  h.trans (keeps_modSlot fun hw => by
    rw [(hF _).1, (hF _).2]
    exact wholeBanks_slot hw c k)

/-- A slot of whose banks only words, marks and dirty lines change. -/
theorem kept_modBanks {F : Slot → Slot} (h : Keeps r s)
    (hF : ∀ x, ((F x).act.frame = x.act.frame ∧ (F x).act.valid = x.act.valid) ∧
      (F x).shadow.frame = x.shadow.frame ∧ (F x).shadow.valid = x.shadow.valid) : Keeps r (modSlot s c k F) :=
  h.trans (keeps_modSlot fun hw => by
    obtain ⟨⟨h1, h2⟩, h3, h4⟩ := hF (SMap.get {} (coreOf s c).slots k)
    obtain ⟨w1, w2⟩ := wholeBanks_slot hw c k
    unfold wholeBank at *
    unfold slotOf at *
    rw [h1, h2, h3, h4]
    exact ⟨w1, w2⟩)

theorem kept_modTask {F : Task → Task} (h : Keeps r s) : Keeps r (modTask s c k F) := kept_modCore h fun _ => rfl
theorem kept_modBind {F : Bind → Bind} (h : Keeps r s) : Keeps r (modBind s c k F) := kept_modCore h fun _ => rfl
theorem kept_setCtx {o : Option Ctx} (h : Keeps r s) : Keeps r (setCtx s f o) := kept_with h

theorem kept_modCtx {F : Ctx → Ctx} (h : Keeps r s) : Keeps r (modCtx s f F) := by
  unfold modCtx
  split
  · exact h
  · exact kept_setCtx h

theorem kept_modCluster {F : Cluster → Cluster} (h : Keeps r s) : Keeps r (modCluster s n F) := kept_with h
theorem kept_modSlice {F : Slice → Slice} (h : Keeps r s) : Keeps r (modSlice s n F) := kept_with h
theorem kept_modDie {F : Die → Die} (h : Keeps r s) : Keeps r (modDie s n F) := kept_with h
theorem kept_modPart {F : Part → Part} (h : Keeps r s) : Keeps r (modPart s n F) := kept_with h
theorem kept_modLink {F : Link → Link} (h : Keeps r s) : Keeps r (modLink s n F) := kept_with h
theorem kept_modExpert {F : Expert → Expert} (h : Keeps r s) : Keeps r (modExpert s n F) := kept_with h

/-- Every core changed, its banks as they were. -/
theorem kept_mapCores {F : Nat → Core → Core} (h : Keeps r s) (hm : t.mem = s.mem) (hf : t.full = s.full) (hp : t.poison = s.poison)
    (hc : t.cores = SMap.mapOn {} F s.cores) (hF : ∀ c x, (F c x).slots = x.slots) : Keeps r t :=
  h.trans (keeps_mapCores hc (fun c x hx => by
    unfold wholeCore
    rw [hF]
    exact hx) fun ht => by
      rw [tidyMemory, hm, hf, hp]
      exact ht)

/-! Memory. -/

theorem kept_writeBytes {v : Nat} (h : Keeps r s) : Keeps r (writeBytes s k n v) := h.trans busy_writeBytes.keeps

theorem kept_setFull {b : Bool} (h : Keeps r s) : Keeps r (setFull s k b) :=
  h.trans ⟨fun ht => tidyMemory_setFull ht b, id⟩

/-- Marks set or cleared. -/
theorem kept_mark (h : Keeps r s) {b : Bool} {l : List Nat} {copyMarks : SMap Bool} :
    Keeps r { s with poison := l.foldl (fun m w => SMap.set false m w b) s.poison, copyMarks := copyMarks } := by
  refine h.trans ⟨fun ht => ?_, id⟩
  simp only [tidyMemory, Bool.and_eq_true] at ht ⊢
  exact ⟨ht.1, foldl_mark_wf l ht.2 b⟩

end

end Sys2Proof.Laws

namespace Sys2Proof.Laws
/-! Canonical memory and whole banks are kept: registers, frames, results and traps. -/

open Sys2Proof.Machine

section
variable {r s t : State}

theorem kept_writeWord {k : Nat} {x : Word} (h : Keeps r s) : Keeps r (writeWord s k x) := kept_writeBytes h

theorem kept_writeStored {f w : Nat} {x : Word} (h : Keeps r s) : Keeps r (writeStored s f w x) := h.trans busy_devWrite.keeps

theorem kept_foldl_fst {α β : Type} {l : List α} {F : State × β → α → State × β} (hF : ∀ a x, Keeps r a.1 → Keeps r (F a x).1)
    {a : State × β} (h : Keeps r a.1) : Keeps r (l.foldl F a).1 := by
  induction l generalizing a with
  | nil => exact h
  | cons x l ih => exact ih (hF a x h)

theorem wholeBank_bankPut {b : Bank} {w : Nat} {x : Word} (h : wholeBank b = true) : wholeBank (bankPut b w x) = true := by
  simp only [wholeBank, Bool.or_eq_true, beq_iff_eq] at h ⊢
  refine h.imp_right fun hv => ?_
  show b.valid ||| _ = _
  rw [hv, BitVec.allOnes_or]

/-- A slot of whose banks the new ones are whole where the old ones were. -/
theorem kept_putBanks {c k : Nat} {F : Slot → Slot} (h : Keeps r s) (hF : ∀ x, wholeBank x.act = true → wholeBank x.shadow =
    true →
    wholeBank (F x).act = true ∧ wholeBank (F x).shadow = true) : Keeps r (modSlot s c k F) :=
  h.trans (keeps_modSlot fun hw => hF _ (wholeBanks_slot hw c k).1 (wholeBanks_slot hw c k).2)

/-- Words of memory marked, or unmarked. -/
theorem kept_marks {l : List Nat} {g : Nat → Nat} {b : Bool} {copyMarks : SMap Bool} (h : Keeps r s) :
    Keeps r { s with poison := l.foldl (fun m w => SMap.set false m (g w) b) s.poison, copyMarks := copyMarks } := by
  have hl := kept_mark (b := b) (l := l.map g) (copyMarks := copyMarks) h
  rw [List.foldl_map] at hl
  exact hl

theorem kept_writeFrame1 {f w : Nat} {x : Word} (h : Keeps r s) : Keeps r (writeFrame1 s f w x) := by
  unfold writeFrame1
  split
  · exact kept_writeStored h
  · refine kept_ite (kept_putBanks h fun _ h1 h2 => ⟨wholeBank_bankPut h1, h2⟩) (kept_ite ?_ (kept_writeStored h))
    exact kept_putBanks h fun _ h1 h2 => ⟨h1, wholeBank_bankPut h2⟩

theorem kept_writeFrame {f w : Nat} {x : Word} (h : Keeps r s) : Keeps r (writeFrame s f w x) := by
  unfold writeFrame
  dsimp only
  split
  · exact kept_writeFrame1 h
  · exact kept_writeFrame1 (kept_writeFrame1 h)

theorem kept_noteFrame {f w : Nat} (h : Keeps r s) : Keeps r (noteFrame s f w) := kept_ite h (h.trans (busy_noteSlice _).keeps)

theorem kept_writeFrames {f w n v : Nat} (h : Keeps r s) : Keeps r (writeFrames s f w n v) := by
  induction n generalizing s w v with
  | zero => exact h
  | succ n ih => exact ih (kept_writeFrame h)

theorem kept_markWord {f w : Nat} (h : Keeps r s) : Keeps r (markWord s f w) := by
  have hstored : Keeps r { s with poison := SMap.set false s.poison (frameAddr f w / 8) true } :=
    kept_mark (b := true) (l := [frameAddr f w / 8]) h
  unfold markWord
  split
  · exact hstored
  · refine kept_ite (kept_modBanks h fun _ => ⟨⟨rfl, rfl⟩, rfl, rfl⟩) (kept_ite ?_ hstored)
    exact kept_modBanks h fun _ => ⟨⟨rfl, rfl⟩, rfl, rfl⟩

theorem kept_writePart {f w : Nat} {x : Word} (h : Keeps r s) : Keeps r (writePart s f w x) := by
  unfold writePart
  dsimp only
  split
  · exact kept_ite (kept_markWord (kept_ite (kept_markWord (kept_writeFrame h)) (kept_writeFrame h))) (kept_ite
        (kept_markWord (kept_writeFrame h)) (kept_writeFrame h))
  · exact kept_ite (kept_markWord (kept_writeFrame h)) (kept_writeFrame h)

theorem kept_writeReg {f : Nat} {spec : BitVec 8} {v : Nat} (h : Keeps r s) : Keeps r
    (writeReg s f spec v) := kept_writeFrames h

theorem kept_writeSeg {f k : Nat} {g : Seg} (h : Keeps r s) : Keeps r (writeSeg s f k g) :=
  kept_writeFrame (kept_writeFrame (kept_writePart h))

theorem kept_setStatus {f hi lo v : Nat} (h : Keeps r s) : Keeps r (setStatus s f hi lo v) := kept_writePart h

theorem kept_setEntry {f k v : Nat} (h : Keeps r s) : Keeps r (setEntry s f k v) := kept_writePart h

theorem kept_openEntry {f k : Nat} {d0 d1 : BitVec 8} (h : Keeps r s) : Keeps r (openEntry s f k d0 d1) := kept_setEntry h

theorem kept_keepMarks {before : State} {f : Nat} {d : BitVec 8} {whole : Nat → Bool} (h : Keeps r s) :
    Keeps r (keepMarks before f d whole s) :=
  kept_foldl (fun _ _ h => kept_ite (kept_markWord h) h) h

theorem kept_writeBits1 {f : Nat} {r1 : RegWrite} (h : Keeps r s) : Keeps r (writeBits1 s f r1) :=
  kept_keepMarks (kept_foldl (fun _ _ h1 => kept_writeFrame1 h1) (kept_ite h (kept_noteFrame h)))

theorem kept_writeRegBits {f : Nat} {r1 : RegWrite} (h : Keeps r s) : Keeps r (writeRegBits s f r1) := by
  unfold writeRegBits
  refine kept_ite ?_ ?_
  · exact h
  · split
    · exact kept_writeBits1 h
    · exact kept_writeBits1 (kept_writeBits1 h)

theorem kept_sendResult {f e : Nat} {ws : List RegWrite} {late : List TrapInfo} (h : Keeps r s) :
    Keeps r (sendResult s f e ws late) :=
  kept_with h

theorem kept_setEnd {e : IssueEnd} (h : Keeps r s) : Keeps r (setEnd s e) := kept_with h

theorem kept_finish {h1 : Hdr} {f : Nat} (h : Keeps r s) : Keeps r (finish h1 f s) :=
  kept_setEnd (kept_modCtx (kept_writeFrame h))

theorem kept_hold {w : Wait} {f : Nat} (h : Keeps r s) : Keeps r (hold w f s) := kept_setEnd (kept_modCtx h)

theorem kept_block {w : Wait} {f : Nat} (h : Keeps r s) : Keeps r (block w f s) := kept_setEnd (kept_modCtx h)

theorem kept_withEntry {d0 d1 : BitVec 8} {f : Nat} {body : Nat → State → State} (h : Keeps r s)
    (hb : ∀ e s, Keeps r s → Keeps r (body e s)) : Keeps r (withEntry d0 d1 f s body) := by
  unfold withEntry
  split
  · exact kept_hold h
  · exact hb _ _ (kept_openEntry h)

theorem kept_finishLong {h1 : Hdr} {d : BitVec 8} {v f : Nat} (h : Keeps r s) : Keeps r (finishLong h1 d v f s) :=
  kept_withEntry h (fun _ _ h2 => kept_finish (kept_sendResult h2))

theorem kept_escalate {f : Nat} {t : TrapInfo} (h : Keeps r s) : Keeps r (escalate s f t) := by
  unfold escalate
  split
  · exact h
  · exact (kept_modCtx h).trans logged_postMail.keeps

theorem kept_enterHandler {f : Nat} {t : TrapInfo} (h : Keeps r s) : Keeps r (enterHandler s f t) :=
  kept_modCtx (kept_writeFrame (kept_setStatus (kept_writeFrame (kept_writeFrame (kept_writeFrame (kept_writeFrame
      (kept_writeFrame (kept_writeFrame h))))))))

theorem kept_throwCapsule {c : Capsule} {die : Nat} {holder : Option Nat} {flt : CapFault} (h : Keeps r s) :
    Keeps r (throwCapsule s c die holder flt) := by
  unfold throwCapsule
  split
  · exact kept_with h
  · exact kept_modCore h fun _ => rfl

theorem kept_divertCurrent {f code cause detail pc : Nat} (h : Keeps r s) : Keeps r
    (divertCurrent s f code cause detail pc) := by
  unfold divertCurrent
  split
  · exact h
  · split
    · exact h
    · exact kept_throwCapsule (kept_modCtx h)

theorem kept_withdrawArm {f : Nat} (h : Keeps r s) : Keeps r (withdrawArm s f) := by
  unfold withdrawArm
  split
  · exact h
  · split
    · exact kept_ite (kept_modCore h (fun _ => rfl)) h
    · exact h

theorem wholeBank_scrub {b : Bank} (h : wholeBank b = true) {p : Bool} : wholeBank (if p then scrubBank b else b) = true := by
  split <;> exact h

theorem kept_scrubFrame {f : Nat} (h : Keeps r s) : Keeps r (scrubFrame s f) := by
  unfold scrubFrame
  dsimp only
  split
  · exact h
  · exact kept_putBanks (kept_modCtx h) fun _ h1 h2 => ⟨wholeBank_scrub h1, wholeBank_scrub h2⟩

theorem kept_enterTrap {f : Nat} {t : TrapInfo} (h : Keeps r s) : Keeps r (enterTrap s f t) :=
  kept_ite (kept_enterHandler (kept_ite (kept_modCtx (kept_withdrawArm (kept_ite (kept_scrubFrame h) h)))
      (kept_divertCurrent (kept_modCtx (kept_withdrawArm (kept_ite (kept_scrubFrame h) h)))))) (kept_escalate (kept_ite
      (kept_modCtx (kept_withdrawArm (kept_ite (kept_scrubFrame h) h))) (kept_divertCurrent (kept_modCtx (kept_withdrawArm
      (kept_ite (kept_scrubFrame h) h))))))

theorem kept_takeLate {f : Nat} {t : TrapInfo} {rest : List (Nat × TrapInfo)} (h : Keeps r s) : Keeps r (takeLate s f t rest) :=
  kept_enterTrap (kept_modCtx h)

theorem kept_resolveTrap {f : Nat} (h : Keeps r s) : Keeps r (resolveTrap s f) := by
  unfold resolveTrap
  split
  · exact h
  · split
    · exact kept_ite (kept_enterTrap (kept_modCtx h)) (kept_takeLate h)
    · exact kept_takeLate h
    · exact kept_enterTrap (kept_modCtx h)
    · exact h

theorem kept_resolveDue {f : Nat} (h : Keeps r s) : Keeps r (resolveDue s f) := by
  unfold resolveDue
  split
  · exact h
  · split
    · exact kept_enterTrap (kept_modCtx h)
    · exact h

theorem kept_takeTrap {f : Nat} {t : TrapInfo} (h : Keeps r s) : Keeps r (takeTrap s f t) :=
  kept_ite (kept_resolveTrap (kept_modCtx h)) (kept_modCtx h)

theorem kept_trapNow {code cause : Nat} {addr : Word} {f : Nat} (h : Keeps r s) : Keeps r (trapNow code cause addr f s) :=
  kept_setEnd (kept_takeTrap h)

theorem kept_keepRunFaults {f : Nat} (h : Keeps r s) : Keeps r (keepRunFaults s f) := kept_ite h (kept_modCtx h)

theorem kept_leaveHandler {f : Nat} (h : Keeps r s) : Keeps r (leaveHandler s f) := kept_writeFrame (kept_writePart h)

theorem kept_setLfsr {core slot : Nat} {v : BitVec 32} {pair : Bool} (h : Keeps r s) : Keeps r (setLfsr s core slot v pair) :=
  kept_with h

theorem kept_markBound {c b : Nat} (h : Keeps r s) : Keeps r (markBound s c b) := kept_modBind h

theorem kept_markReady {c b : Nat} (h : Keeps r s) : Keeps r (markReady s c b) := kept_modBind h

theorem kept_newSlice {c b : Nat} (h : Keeps r s) : Keeps r (newSlice s c b) := kept_modCore h fun _ => rfl

theorem kept_runOn {c b : Nat} (h : Keeps r s) : Keeps r (runOn s c b) :=
  kept_newSlice (kept_modCore (kept_foldl (fun _ _ h1 => kept_modCtx (kept_setStatus h1)) h) (fun _ => rfl))

theorem kept_beginSwap {c : Nat} {next : Option Nat} (h : Keeps r s) : Keeps r (beginSwap s c next) := by
  unfold beginSwap
  refine kept_modCore ?_ fun _ => rfl
  split
  · exact kept_markBound h
  · exact h

theorem kept_dispatchFree {c : Nat} (h : Keeps r s) : Keeps r (dispatchFree s c) := by
  unfold dispatchFree
  refine kept_ite ?_ ?_
  · exact h
  · split
    · exact h
    · exact kept_beginSwap h

theorem kept_dispatchOver {c b : Nat} (h : Keeps r s) : Keeps r (dispatchOver s c b) := by
  unfold dispatchOver
  refine kept_ite ?_ ?_
  · exact h
  · refine kept_ite ?_ ?_
    · exact kept_beginSwap (kept_markReady h)
    · split
      · exact kept_runOn (kept_markBound (kept_markReady h))
      · exact kept_ite (kept_runOn (kept_markBound (kept_markReady h))) (kept_beginSwap (kept_markReady h))

theorem kept_dispatchPast {c : Nat} (h : Keeps r s) : Keeps r (dispatchPast s c) := kept_ite h (kept_beginSwap h)

theorem kept_suspendCheck {c b : Nat} (h : Keeps r s) : Keeps r (suspendCheck s c b) :=
  kept_ite h (kept_ite (kept_dispatchPast (kept_runOn (kept_modBind h))) (kept_ite (kept_modBind h) h))

theorem kept_dispatchAgain {c : Nat} (h : Keeps r s) : Keeps r (dispatchAgain s c) := by
  unfold dispatchAgain
  split
  · exact kept_ite (kept_dispatchPast h) (kept_dispatchOver h)
  · exact kept_dispatchFree h

end

end Sys2Proof.Laws

namespace Sys2Proof.Laws
/-! Canonical memory and whole banks are kept: accesses, contexts, barriers, switching and the events of memory. -/

open Sys2Proof.Machine

section
variable {r s t : State}

theorem kept_noteTables {part : Nat} (h : Keeps r s) : Keeps r (noteTables s part) :=
  kept_foldl (fun _ _ h1 => h1.trans busy_devRead.keeps) h

theorem kept_logPoisonFor {part : Nat} {id : Word} {flat : Nat} {pc : Word} (h : Keeps r s) :
    Keeps r (logPoisonFor s part id flat pc) :=
  kept_ite (kept_ite ((kept_ite (kept_noteTables h) h).trans logged_logError.keeps) (kept_ite ((kept_ite
      (kept_noteTables h) h).trans logged_logError.keeps) ((kept_ite (kept_noteTables h) h).trans logged_logError.keeps)))
      ((kept_ite (kept_noteTables h) h).trans logged_logError.keeps)

theorem kept_logPoison {f flat : Nat} {pc : Word} (h : Keeps r s) : Keeps r (logPoison s f flat pc) := by
  unfold logPoison
  split
  · exact h
  · exact kept_logPoisonFor h

theorem kept_setFifo {cl b : Nat} {l : List Word} (h : Keeps r s) : Keeps r (setFifo s cl b l) := kept_modCluster h

theorem kept_addUnfenced {core f flat : Nat} (h : Keeps r s) : Keeps r (addUnfenced s core f flat) :=
  kept_modCore h fun _ => rfl

theorem kept_settleRacing {f : Nat} (h : Keeps r s) : Keeps r (settleRacing s f) :=
  kept_foldl (fun _ _ h1 => kept_ite (kept_writeWord h1) h1) (kept_with h)

theorem kept_nearStore {core f flat n v : Nat} {stf : Bool} (h : Keeps r s) : Keeps r (nearStore s core f flat n v stf) :=
  kept_ite (kept_setFull (kept_writeBytes (kept_addUnfenced (h.trans busy_endOlder.keeps)))) (kept_writeBytes
      (kept_addUnfenced (h.trans busy_endOlder.keeps)))

theorem kept_setJentry {core k : Nat} {j : JEntry} (h : Keeps r s) : Keeps r (setJentry s core k j) :=
  kept_modCore h fun _ => rfl

theorem kept_openJournal {core k : Nat} {j : JEntry} (h : Keeps r s) : Keeps r (openJournal s core k j) := by
  have h1 : Keeps r (setJentry s core k { j with jseq := (coreOf s core).jnext, num := (coreOf s core).jcount, ord := s.ord }) :=
    kept_modCore h fun _ => rfl
  have h2 := kept_modSlot (c := core) (k := j.slot) (F := fun x => { x with quiet := false }) h1 fun _ => ⟨rfl, rfl⟩
  have h3 := kept_modCore (c := core) (F := fun x => { x with jnext := (coreOf s core).jnext + 1, jcount := x.jcount + 1 }) h2
    fun _ => rfl
  unfold openJournal
  dsimp only
  exact kept_with h3

theorem kept_setApend {f : Nat} (h : Keeps r s) : Keeps r (setApend s f) := kept_ite (kept_setStatus h) h

theorem kept_pushReq {r1 : Req} (h : Keeps r s) : Keeps r (pushReq s r1) := kept_with h

theorem kept_setRing {f head tail count : Nat} (h : Keeps r s) : Keeps r (setRing s f head tail count) := kept_writeFrame h

theorem kept_setRingState {f k v : Nat} (h : Keeps r s) : Keeps r (setRingState s f k v) := h.trans (busy_homeWrite _ _).keeps

theorem kept_postFault {part f : Nat} {r1 : Req} (h : Keeps r s) : Keeps r (postFault s part f r1) :=
  h.trans logged_postMail.keeps

theorem kept_recordFault {r1 : Req} {cause level : Nat} (h : Keeps r s) : Keeps r (recordFault s r1 cause level) := by
  unfold recordFault
  dsimp only
  split
  · exact kept_with h
  · exact kept_ite h (kept_ite (kept_postFault (kept_modCtx (kept_setRing ((kept_with (kept_noteFrame
        (kept_noteFrame h))).trans (busy_homeWrite _ _).keeps)))) (kept_modCtx (kept_setRing ((kept_with (kept_noteFrame
        (kept_noteFrame h))).trans (busy_homeWrite _ _).keeps))))

theorem kept_probe {f : Nat} {x : Ctx} {op : BitVec 3} {va : Nat} {p : State × Target} (h : Keeps r s)
    (e : probe s f x op va = .ok p) : Keeps r p.1 := by
  have hx : Keeps r (engineXlate s x.core x.slot (ctxPart s x) va).1 := h.trans busy_engineXlate.keeps
  unfold probe at e
  split at e
  · next e1 => split at e
               · cases e
                 exact kept_fst hx e1
               · cases e
  · cases e

theorem kept_probe_error {f : Nat} {x : Ctx} {op : BitVec 3} {va : Nat} (h : Keeps r s)
    (e : probe s f x op va = .error t) : Keeps r t := by
  have hx : Keeps r (engineXlate s x.core x.slot (ctxPart s x) va).1 := h.trans busy_engineXlate.keeps
  unfold probe at e
  split at e
  · next e1 => split at e
               · cases e
               · cases e
                 exact kept_recordFault (kept_with (kept_fst hx e1))
  · next e1 =>
    cases e
    exact kept_recordFault (kept_with (kept_fst hx e1))

theorem kept_reqResult {r1 : Req} {ws : List RegWrite} {late : List TrapInfo} (h : Keeps r s) : Keeps r
    (reqResult s r1 ws late) := by
  unfold reqResult
  split
  · exact h
  · exact kept_with h

theorem kept_dropReq {r1 : Req} (h : Keeps r s) : Keeps r (dropReq s r1) := kept_with h

theorem kept_serveWatch {r1 : Req} {t : Target} (h : Keeps r s) : Keeps r (serveWatch s r1 t) := kept_ite (kept_modCtx h) h

theorem kept_linkFrame {f : Nat} (h : Keeps r s) : Keeps r (linkFrame s f) := h.trans busy_devWrite.keeps

theorem kept_takePool {p n : Nat} {l : List Nat} (h : Keeps r s) (e : takePool p n s = some (l, t)) : Keeps r t := by
  induction n generalizing s t l with
  | zero =>
    cases e
    exact h
  | succ n ih =>
    rw [takePool] at e
    split at e
    · cases e
    · dsimp only at e
      split at e
      · cases e
      · next e1 =>
        cases e
        exact ih (kept_linkFrame (kept_modPart h)) e1

theorem kept_givePool {p : Nat} {fs : List Nat} (h : Keeps r s) : Keeps r (givePool s p fs) := kept_modPart h

theorem kept_takeFrame {c b n : Nat} (h : Keeps r s) (e : takeFrame s c b = some (n, t)) : Keeps r t := by
  unfold takeFrame at e
  dsimp only at e
  split at e
  · cases e
  · split at e
    · split at e
      · next e1 =>
        cases e
        exact kept_modTask (kept_takePool h e1)
      · cases e
    · split at e
      · cases e
      · cases e
        exact kept_modTask h

theorem kept_giveFrame {c b f : Nat} (h : Keeps r s) : Keeps r (giveFrame s c b f) :=
  kept_ite (kept_givePool (kept_modTask h)) (kept_modTask h)

theorem kept_clearFrame {f : Nat} (h : Keeps r s) : Keeps r (clearFrame s f) := kept_writeStored (h.trans busy_devClear.keeps)

theorem kept_occupy {c k : Nat} {b : Bank} (h : Keeps r s) (hb : wholeBanks r = true → wholeBank b = true) :
    Keeps r (occupy s c k b) := by
  unfold occupy
  dsimp only
  refine kept_modCore ⟨h.tidy, fun hw => ?_⟩ fun _ => rfl
  exact (keeps_modSlot fun hs => ⟨hb hw, (wholeBanks_slot hs c k).2⟩).whole (h.whole hw)

theorem kept_vacate {c k : Nat} (h : Keeps r s) : Keeps r (vacate s c k) := kept_occupy h fun _ => rfl

theorem kept_startContext {c b kind cls n : Nat} {pc : Word} {gs : List Word} {caller : Option (Nat × BitVec 16 × Word)}
    (h : Keeps r s) (e : startContext s c b kind cls pc gs caller = some (n, t)) : Keeps r t := by
  unfold startContext at e
  dsimp only at e
  split at e
  · cases e
  · split at e
    · cases e
    · next e1 =>
      have h1 := kept_takeFrame h e1
      split at e
      · split at e
        · cases e
        · next e2 =>
          cases e
          have h2 := kept_takeFrame h1 e2
          exact kept_setCtx (kept_occupy (kept_clearFrame (kept_setCtx (kept_occupy (kept_clearFrame
              (kept_setLfsr h2)) fun _ => rfl)))
            fun _ => rfl)
      · cases e
        exact kept_setCtx (kept_occupy (kept_clearFrame h1) fun _ => rfl)

theorem kept_pushMsg {m : Msg} (h : Keeps r s) : Keeps r (pushMsg s m) := kept_with h

theorem kept_forget {f : Nat} (h : Keeps r s) : Keeps r (forget s f) := by
  unfold forget
  dsimp only
  split
  · exact kept_with h
  · exact kept_modCore (kept_with h) fun _ => rfl

theorem kept_noReply {x : Ctx} (h : Keeps r s) : Keeps r (noReply s x) := by
  unfold noReply
  split
  · exact kept_ite h (kept_pushMsg h)
  · exact h

theorem kept_dropContext {f : Nat} (h : Keeps r s) : Keeps r (dropContext s f) := by
  unfold dropContext
  dsimp only
  split
  · exact h
  · have h1 := kept_divertCurrent (f := f) (code := 13) (cause := 0) (detail := 0) (pc := (ctxPc s f).toNat) h
    have h2 {c k : Nat} {x : Ctx} {F : Task → Task} := kept_forget (f := f) (kept_modTask (c := c) (k := k) (F := F)
      (kept_ite (p := x.trail = true) h1 (kept_noReply (x := x) h1)))
    refine kept_setCtx (kept_giveFrame (kept_putBanks (kept_ite (kept_vacate h2) h2) fun y ha hb => ⟨?_, ?_⟩))
    · split <;> exact ha
    · split
      · rfl
      · exact hb

theorem kept_discardQueues {c b : Nat} (h : Keeps r s) : Keeps r (discardQueues s c b) := by
  unfold discardQueues
  exact kept_modCore (kept_foldl (fun _ _ h1 => kept_ite (kept_pushMsg h1) h1) h) fun _ => rfl

theorem kept_missDeadline {l : Launch} (h : Keeps r s) : Keeps r (missDeadline s l).1 := by
  unfold missDeadline
  split
  · exact h
  · exact h.trans logged_postMail.keeps

theorem kept_completeLaunch {l : Launch} {status cause detail : Nat} (h : Keeps r s) :
    Keeps r (completeLaunch s l status cause detail) := by
  unfold completeLaunch
  dsimp only
  refine kept_with (kept_givePool ?_)
  split
  · exact kept_missDeadline h
  · exact (kept_missDeadline h).trans (busy_writeVirt _).keeps

theorem kept_setLaunch {l : Launch} (h : Keeps r s) : Keeps r (setLaunch s l) := kept_with h

theorem kept_endLaunch {l : Launch} (h : Keeps r s) : Keeps r (endLaunch s l) := kept_ite (kept_completeLaunch h) h

theorem kept_reportTask {token : Word} {index : Nat} {how : TaskEnd} (h : Keeps r s) : Keeps r
    (reportTask s token index how) := by
  unfold reportTask
  dsimp only
  split
  · exact h
  · exact kept_endLaunch (kept_setLaunch h)

theorem kept_dropTask {c b : Nat} (h : Keeps r s) : Keeps r (dropTask s c b) := kept_modCore h fun _ => rfl

theorem kept_finishTask {c b : Nat} {how : TaskEnd} (h : Keeps r s) : Keeps r (finishTask s c b how) :=
  kept_ite (kept_dispatchAgain (kept_reportTask (kept_dropTask (kept_givePool (kept_foldl
      (fun _ _ h1 => kept_dropContext h1) (kept_discardQueues (kept_with h))))))) (kept_reportTask (kept_dropTask
      (kept_givePool (kept_foldl (fun _ _ h1 => kept_dropContext h1) (kept_discardQueues (kept_with h))))))

theorem kept_decideEnd {f : Nat} (h : Keeps r s) : Keeps r (decideEnd s f) := by
  unfold decideEnd
  split
  · exact h
  · exact kept_modCtx (kept_ite h (kept_noReply h))

theorem kept_endTask {c b : Nat} {how : TaskEnd} (h : Keeps r s) : Keeps r (endTask s c b how) :=
  kept_ite (kept_foldl (fun _ _ h1 => kept_decideEnd h1) (kept_modBind (kept_modTask h))) (kept_finishTask h)

theorem kept_endContext {f : Nat} (h : Keeps r s) : Keeps r (endContext s f) := by
  unfold endContext
  split
  · exact h
  · refine kept_ite ?_ ?_
    · exact kept_modCtx (kept_decideEnd h)
    · refine kept_suspendCheck ?_
      refine kept_dropContext ?_
      split
      · exact kept_dropContext h
      · exact h

theorem kept_settleEnd {f : Nat} (h : Keeps r s) : Keeps r (settleEnd s f) := by
  unfold settleEnd
  split
  · exact h
  · refine kept_ite ?_ ?_
    · exact h
    · split
      · exact kept_endTask h
      · exact kept_ite (kept_endContext h) h

theorem kept_killContext {f : Nat} (h : Keeps r s) : Keeps r (killContext s f) := by
  unfold killContext
  split
  · exact h
  · exact kept_ite (kept_endTask h) (kept_endContext h)

theorem kept_killLaunch {token : Word} (h : Keeps r s) : Keeps r (killLaunch s token) := by
  unfold killLaunch
  dsimp only
  split
  · exact kept_foldl (fun _ _ h1 => kept_endTask h1) h
  · split
    · exact kept_foldl (fun _ _ h1 => kept_endTask h1) (kept_setLaunch h)
    · exact kept_endLaunch (kept_foldl (fun _ _ h1 => kept_endTask h1) (kept_setLaunch h))

theorem kept_pairMismatch {f : Nat} (h : Keeps r s) : Keeps r (pairMismatch s f) := by
  unfold pairMismatch
  split
  · exact h
  · exact kept_killContext (h.trans logged_logError.keeps)

theorem kept_setBarrier {i : BarrierId} {b : Barrier} (h : Keeps r s) : Keeps r (setBarrier s i b) :=
  kept_ite (kept_modTask h) (kept_with h)

theorem kept_settle {part n : Nat} {i : BarrierId} (h : Keeps r s) : Keeps r (settle part i n s) := by
  induction n generalizing s with
  | zero => exact h
  | succ n ih =>
    rw [settle]
    dsimp only
    exact kept_ite (ih (kept_setBarrier h)) h

theorem kept_countArrival {part : Nat} {i : BarrierId} {m : Nat} (h : Keeps r s) : Keeps r (countArrival s part i m) :=
  kept_settle (kept_setBarrier h)

theorem kept_endWait {i : BarrierId} {m ph : Nat} (h : Keeps r s) : Keeps r (endWait s i m ph) := kept_setBarrier h

theorem kept_engineArrive {part : Nat} {i : BarrierId} {m : Nat} (h : Keeps r s) : Keeps r (engineArrive s part i m) :=
  kept_ite h (kept_ite (kept_setBarrier h) (kept_countArrival h))

theorem kept_rewriteMask {i : BarrierId} {m : Members} (h : Keeps r s) : Keeps r (rewriteMask s i m) :=
  kept_ite (kept_setBarrier h) (kept_setBarrier h)

theorem kept_wakeFailed {key phase : Nat} (h : Keeps r s) : Keeps r (wakeFailed s key phase) := kept_with h

theorem kept_failBarriers {d : Nat} (h : Keeps r s) : Keeps r (failBarriers s d) :=
  kept_foldl (fun _ _ h1 => kept_ite (kept_wakeFailed (kept_with h1)) h1) h

theorem kept_takePreempt {c : Nat} (h : Keeps r s) : Keeps r (takePreempt s c) := by
  unfold takePreempt
  dsimp only
  split
  · exact kept_ite (kept_ite (kept_modCore (kept_dispatchOver (kept_modCore h (fun _ => rfl))) (fun _ => rfl))
        (kept_dispatchOver (kept_modCore h (fun _ => rfl)))) h
  · exact h

theorem kept_unmask {before f : Nat} (h : Keeps r s) : Keeps r (unmask before f s) := kept_ite (kept_modCore h (fun _ => rfl)) h

theorem kept_sliceEnd {c b : Nat} (h : Keeps r s) : Keeps r (sliceEnd s c b) :=
  kept_dispatchOver (kept_foldl (fun _ _ h1 => kept_modBind h1) (kept_modCore h (fun _ => rfl)))

theorem kept_suspendTask {f : Nat} (h : Keeps r s) : Keeps r (suspendTask s f) := by
  unfold suspendTask
  split
  · exact h
  · exact kept_suspendCheck h

theorem kept_resumeTask {f : Nat} (h : Keeps r s) : Keeps r (resumeTask s f) := by
  unfold resumeTask
  dsimp only
  split
  · exact h
  · exact kept_ite (kept_ite (kept_dispatchOver (kept_modBind h)) (kept_dispatchFree (kept_modBind h))) h

theorem kept_advanceHead {f n : Nat} (h : Keeps r s) : Keeps r (advanceHead s f n) := by
  induction n generalizing s with
  | zero => exact h
  | succ n ih =>
    rw [advanceHead]
    exact kept_ite (kept_setRing h) (kept_ite (ih (kept_setRing h)) h)

theorem kept_freeRing {f k : Nat} (h : Keeps r s) : Keeps r (freeRing s f k) :=
  kept_advanceHead (kept_with (kept_setRing (kept_setRingState h)))

theorem kept_endReplay {f : Nat} {ring : Option Nat} (h : Keeps r s) : Keeps r (endReplay s f ring) := by
  unfold endReplay
  split
  · exact h
  · exact kept_resumeTask (kept_freeRing h)

theorem kept_spillHalf {cl f k : Nat} {b : Bank} (h : Keeps r s) : Keeps r (spillHalf cl b f s k) :=
  kept_marks (h.trans (busy_homeWrite _ _).keeps)

theorem kept_spillBank {cl : Nat} {b : Bank} {f : Nat} {live : Option PredBits} (h : Keeps r s) :
    Keeps r (spillBank s cl b f live) :=
  kept_foldl (fun _ _ h1 => kept_spillHalf h1) h

theorem kept_cancelWait {f : Nat} (h : Keeps r s) : Keeps r (cancelWait s f) := by
  unfold cancelWait
  dsimp only
  split
  · exact h
  · split
    · split
      · refine kept_modCtx ?_
        refine kept_with ?_
        split
        · exact kept_setEntry h
        · exact h
      · exact kept_ite (kept_modCtx (kept_with h)) h
    · exact h
    · exact h
    · exact h
    · exact kept_ite h (kept_modCtx h)
    · exact kept_modCtx h

theorem kept_exchangeSlot {c k : Nat} (h : Keeps r s) : Keeps r (exchangeSlot s c k) := by
  have hb (hw : wholeBanks r = true) := wholeBanks_slot (h.whole hw) c k
  have h1 := kept_occupy (c := c) (k := k) h fun hw => (hb hw).2
  unfold exchangeSlot
  dsimp only
  generalize (slotOf s c k).act = a at hb ⊢
  generalize (slotOf s c k).shadow = b at h1 ⊢
  generalize occupy s c k b = u at h1 ⊢
  refine ⟨h1.tidy, fun hw => ?_⟩
  exact (keeps_modSlot fun hu => ⟨(wholeBanks_slot hu c k).1, (hb hw).1⟩).whole (h1.whole hw)

theorem kept_leaveSlot {f : Nat} (h : Keeps r s) : Keeps r (leaveSlot s f) := kept_modCtx (kept_setStatus (kept_cancelWait h))

theorem kept_enterSlot {c f : Nat} {x : Ctx} (h : Keeps r s) : Keeps r (enterSlot s c f x) :=
  kept_ite (kept_setLfsr (kept_modCtx (kept_modSlot h (fun _ => ⟨rfl, rfl⟩)))) (kept_modCtx (kept_modSlot h
      (fun _ => ⟨rfl, rfl⟩)))

theorem kept_exchange {c : Nat} {w : Swap} (h : Keeps r s) : Keeps r (exchange s c w) := by
  unfold exchange
  dsimp only
  split
  · refine kept_suspendCheck ?_
    refine kept_foldl (fun _ _ h1 => kept_enterSlot h1) ?_
    refine kept_newSlice ?_
    refine kept_modCore ?_ fun _ => rfl
    refine kept_modCore ?_ fun _ => rfl
    split
    · exact kept_ite (kept_modCore (kept_foldl (fun _ _ h1 => kept_exchangeSlot h1) (kept_modCore (kept_foldl
          (fun _ _ h1 => kept_leaveSlot h1) h) (fun _ => rfl))) (fun _ => rfl)) (kept_foldl
          (fun _ _ h1 => kept_exchangeSlot h1) (kept_modCore (kept_foldl (fun _ _ h1 => kept_leaveSlot h1) h) (fun _ => rfl)))
    · exact kept_foldl (fun _ _ h1 => kept_exchangeSlot h1) (kept_modCore (kept_foldl (fun _ _ h1 => kept_leaveSlot h1) h)
          (fun _ => rfl))
  · refine kept_modCore ?_ fun _ => rfl
    dsimp only
    split
    · exact kept_ite (kept_modCore (kept_foldl (fun _ _ h1 => kept_exchangeSlot h1) (kept_modCore (kept_foldl
          (fun _ _ h1 => kept_leaveSlot h1) h) (fun _ => rfl))) (fun _ => rfl)) (kept_foldl
          (fun _ _ h1 => kept_exchangeSlot h1) (kept_modCore (kept_foldl (fun _ _ h1 => kept_leaveSlot h1) h) (fun _ => rfl)))
    · exact kept_foldl (fun _ _ h1 => kept_exchangeSlot h1) (kept_modCore (kept_foldl (fun _ _ h1 => kept_leaveSlot h1) h)
          (fun _ => rfl))

theorem kept_serveLoad {r1 : Req} {t : Target} (h : Keeps r s) : Keeps r (serveLoad s r1 t) :=
  kept_ite (kept_ite (kept_reqResult (kept_dropReq h)) (kept_reqResult (kept_dropReq h))) (kept_ite (kept_reqResult
      (kept_logPoison (kept_ite ((kept_dropReq h).trans (busy_noteSlice _).keeps) ((kept_dropReq h).trans
      (busy_noteRead _).keeps)))) (kept_ite (kept_reqResult (kept_serveWatch (kept_ite ((kept_dropReq h).trans
      (busy_noteSlice _).keeps) ((kept_dropReq h).trans (busy_noteRead _).keeps)))) (kept_reqResult (kept_ite
      ((kept_dropReq h).trans (busy_noteSlice _).keeps) ((kept_dropReq h).trans (busy_noteRead _).keeps)))))

theorem kept_refuseStore {r1 : Req} (h : Keeps r s) : Keeps r (refuseStore s r1) := by
  unfold refuseStore
  dsimp only
  split
  · exact h
  · split
    · exact kept_dropReq h
    · exact kept_reqResult (kept_setApend (kept_openJournal (kept_dropReq h)))

theorem kept_serveStore {r1 : Req} {t : Target} (h : Keeps r s) : Keeps r (serveStore s r1 t) :=
  kept_ite (kept_refuseStore h) (kept_reqResult ((kept_addUnfenced (kept_dropReq h)).trans (busy_homeWrite _ _).keeps))

theorem kept_serveAtomic {r1 : Req} {t : Target} (h : Keeps r s) : Keeps r (serveAtomic s r1 t) := by
  unfold serveAtomic
  refine kept_ite ?_ ?_
  · exact kept_reqResult (kept_dropReq h)
  · refine kept_ite ?_ ?_
    · exact kept_reqResult (kept_logPoison ((kept_dropReq h).trans (busy_noteSlice _).keeps))
    · refine kept_reqResult ?_
      split
      · exact (kept_addUnfenced ((kept_dropReq h).trans (busy_noteSlice _).keeps)).trans (busy_homeWriteIn _ _).keeps
      · exact (kept_dropReq h).trans (busy_noteSlice _).keeps

theorem kept_served {r1 : Req} (h : Keeps r s) : Keeps r (served r1 s) := kept_ite (kept_endReplay h) h

theorem kept_execLineFillServe {n : Nat} (h : Keeps r s) : Ends r (execLineFillServe n s) := by
  unfold execLineFillServe
  refine ends_next ?_
  split
  · split
    · exact kept_ite (kept_served (kept_serveLoad h)) h
    · exact h
  · exact h

theorem kept_execStoreApplyHome {n : Nat} (h : Keeps r s) : Ends r (execStoreApplyHome n s) := by
  unfold execStoreApplyHome
  refine ends_next ?_
  split
  · split
    · exact kept_ite (kept_served (kept_serveStore h)) (kept_ite (kept_served (kept_serveAtomic h)) h)
    · exact h
  · exact h

theorem kept_reqXlate {r1 : Req} {part : Nat} (h : Keeps r s) : Keeps r (reqXlate s r1 part).1 := by
  unfold reqXlate
  split
  · exact h.trans busy_missWalk.keeps
  · exact h.trans busy_portXlate.keeps

theorem kept_execTlbMissWalk {n : Nat} (h : Keeps r s) : Ends r (execTlbMissWalk n s) := by
  unfold execTlbMissWalk
  refine ends_next ?_
  split
  · refine kept_ite ?_ ?_
    · exact h
    · split
      · exact kept_dropReq h
      · split
        · next e3 =>
            split
            · exact kept_suspendTask (kept_recordFault (kept_fst (kept_reqXlate h) e3))
            · exact kept_with (kept_fst (kept_reqXlate h) e3)
        · next e2 => exact kept_suspendTask (kept_recordFault (kept_fst (kept_reqXlate h) e2))
  · exact h

theorem kept_landResult {r1 : Ret} (h : Keeps r s) : Keeps r (landResult s r1) := by
  unfold landResult
  refine kept_ite ?_ ?_
  · refine kept_resumeTask ?_
    refine kept_ite ?_ ?_
    · dsimp only
      split
      · exact kept_modCtx (kept_foldl (fun _ _ h1 => kept_writeRegBits h1) h)
      · exact kept_freeRing (kept_modCtx (kept_foldl (fun _ _ h1 => kept_writeRegBits h1) h))
    · refine kept_modCtx ?_
      refine kept_setEntry ?_
      refine kept_settleRacing ?_
      dsimp only
      split
      · exact kept_modCtx (kept_foldl (fun _ _ h1 => kept_writeRegBits h1) h)
      · exact kept_freeRing (kept_modCtx (kept_foldl (fun _ _ h1 => kept_writeRegBits h1) h))
  · refine kept_ite ?_ ?_
    · dsimp only
      split
      · exact kept_modCtx (kept_foldl (fun _ _ h1 => kept_writeRegBits h1) h)
      · exact kept_freeRing (kept_modCtx (kept_foldl (fun _ _ h1 => kept_writeRegBits h1) h))
    · refine kept_modCtx ?_
      refine kept_setEntry ?_
      refine kept_settleRacing ?_
      dsimp only
      split
      · exact kept_modCtx (kept_foldl (fun _ _ h1 => kept_writeRegBits h1) h)
      · exact kept_freeRing (kept_modCtx (kept_foldl (fun _ _ h1 => kept_writeRegBits h1) h))

theorem kept_execLongResultReturn {n : Nat} (h : Keeps r s) : Ends r (execLongResultReturn n s) := by
  unfold execLongResultReturn
  refine ends_next ?_
  split
  · exact kept_ite (kept_landResult (kept_with h)) h
  · exact h

theorem kept_execTrapEntry {core slot : Nat} (h : Keeps r s) : Ends r (execTrapEntry core slot s) := by
  unfold execTrapEntry
  refine ends_next ?_
  split
  · split
    · exact kept_ite (kept_resolveTrap h) h
    · exact h
  · exact h

theorem kept_execNotAnInstructionIssue {word : BitVec 96} (h : Keeps r s) : Ends r (execNotAnInstructionIssue word s) := by
  unfold execNotAnInstructionIssue
  dsimp only
  split
  · exact ends_refused
  · split
    · exact ends_next (kept_trapNow (kept_with h))
    · exact ends_refused

end

end Sys2Proof.Laws

namespace Sys2Proof.Laws
/-! Canonical memory and whole banks are kept: the issue of an instruction, arithmetic, loads and stores. -/

open Sys2Proof.Machine

section
variable {r s t : State}

theorem kept_registerPoison {f w : Nat} (h : Keeps r s) : Keeps r (registerPoison f w s) := by
  unfold registerPoison
  dsimp only
  split
  · exact h
  · exact kept_ite (kept_setEnd (kept_pairMismatch h)) (kept_setEnd (kept_takeTrap
        ((kept_noteTables h).trans logged_logError.keeps)))

theorem kept_unmarked {f : Nat} {ws : List Nat} {body : State → State} (h : Keeps r s) (hb : ∀ s, Keeps r s → Keeps r
    (body s)) :
    Keeps r (unmarked f ws s body) := by
  unfold unmarked
  split
  · exact kept_registerPoison h
  · exact hb _ h

theorem kept_withIssue {i : Instr} {h1 : Hdr} {specs : List (BitVec 8)} {body : Nat → State → State} (h : Keeps r s)
    (hb : ∀ a s, Keeps r s → Keeps r (body a s)) :
    Ends r (withIssue i h1 specs s body) := by
  unfold withIssue
  split
  · exact ends_refused
  · split
    · exact ends_next (kept_trapNow h)
    · exact ends_next (kept_unmarked h (fun _ h3 => kept_ite (kept_finish h3) (kept_unmarked h3 (fun _ h4 => hb _ _ h4))))

theorem kept_withVector {i : Instr} {h1 : Hdr} {reads : Nat → State → Nat → List Nat} {body : Nat → State → State}
    (h : Keeps r s) (hb : ∀ a s, Keeps r s → Keeps r (body a s)) :
    Ends r (withVector i h1 reads s body) := by
  unfold withVector
  split
  · exact ends_refused
  · split
    · exact ends_next (kept_trapNow h)
    · exact ends_next (kept_ite (kept_finish h) (kept_unmarked h (fun _ h3 => kept_unmarked h3 (fun _ h4 => hb _ _ h4))))

theorem kept_finishReg {h1 : Hdr} {d : BitVec 8} {v f : Nat} (h : Keeps r s) : Keeps r (finishReg h1 d v f s) :=
  kept_finish (kept_writeReg h)

theorem kept_intOp {i : Instr} {w : RWord} {g : ℤ → ℤ → ℤ} (h : Keeps r s) : Ends r (intOp i w s g) :=
  kept_withIssue h (fun _ _ h1 => kept_finishReg h1)

theorem kept_bitsOp {i : Instr} {w : RWord} {g : Nat → Nat → Nat → ℤ} (h : Keeps r s) : Ends r (bitsOp i w s g) :=
  kept_withIssue h (fun _ _ h1 => kept_finishReg h1)

theorem kept_countOp {i : Instr} {w : RWord} {g : Nat → Nat → Nat} (h : Keeps r s) : Ends r (countOp i w s g) :=
  kept_withIssue h (fun _ _ h1 => kept_finishReg h1)

theorem kept_execAdd {w : RWord} (h : Keeps r s) : Ends r (execAdd w s) := kept_intOp h

theorem kept_execSub {w : RWord} (h : Keeps r s) : Ends r (execSub w s) := kept_intOp h

theorem kept_execMul {w : RWord} (h : Keeps r s) : Ends r (execMul w s) := kept_intOp h

theorem kept_execMulh {w : RWord} (h : Keeps r s) : Ends r (execMulh w s) := kept_intOp h

theorem kept_execMin {w : RWord} (h : Keeps r s) : Ends r (execMin w s) := kept_intOp h

theorem kept_execMax {w : RWord} (h : Keeps r s) : Ends r (execMax w s) := kept_intOp h

theorem kept_execDiv {w : RWord} (h : Keeps r s) : Ends r (execDiv w s) := kept_withIssue h (fun _ _ h1 => kept_finishLong h1)

theorem kept_execRem {w : RWord} (h : Keeps r s) : Ends r (execRem w s) := kept_withIssue h (fun _ _ h1 => kept_finishLong h1)

theorem kept_execLea {w : RWord} (h : Keeps r s) : Ends r (execLea w s) := kept_withIssue h (fun _ _ h1 => kept_finishReg h1)

theorem kept_execAnd {w : RWord} (h : Keeps r s) : Ends r (execAnd w s) := kept_bitsOp h

theorem kept_execOr {w : RWord} (h : Keeps r s) : Ends r (execOr w s) := kept_bitsOp h

theorem kept_execXor {w : RWord} (h : Keeps r s) : Ends r (execXor w s) := kept_bitsOp h

theorem kept_execAndn {w : RWord} (h : Keeps r s) : Ends r (execAndn w s) := kept_bitsOp h

theorem kept_execShl {w : RWord} (h : Keeps r s) : Ends r (execShl w s) := kept_bitsOp h

theorem kept_execShr {w : RWord} (h : Keeps r s) : Ends r (execShr w s) := kept_bitsOp h

theorem kept_execSra {w : RWord} (h : Keeps r s) : Ends r (execSra w s) := kept_bitsOp h

theorem kept_execRot {w : RWord} (h : Keeps r s) : Ends r (execRot w s) := kept_bitsOp h

theorem kept_execBfx {w : RWord} (h : Keeps r s) : Ends r (execBfx w s) := kept_withIssue h (fun _ _ h1 => kept_finishReg h1)

theorem kept_execBfi {w : RWord} (h : Keeps r s) : Ends r (execBfi w s) := kept_withIssue h (fun _ _ h1 => kept_finishReg h1)

theorem kept_execClz {w : RWord} (h : Keeps r s) : Ends r (execClz w s) := kept_countOp h

theorem kept_execCtz {w : RWord} (h : Keeps r s) : Ends r (execCtz w s) := kept_countOp h

theorem kept_execPopc {w : RWord} (h : Keeps r s) : Ends r (execPopc w s) := kept_countOp h

theorem kept_execBrev {w : RWord} (h : Keeps r s) : Ends r (execBrev w s) := kept_countOp h

theorem kept_execCmp {w : RWord} (h : Keeps r s) : Ends r (execCmp w s) := kept_withIssue h (fun _ _ h1 => kept_finishReg h1)

theorem kept_execSel {w : RWord} (h : Keeps r s) : Ends r (execSel w s) := kept_withIssue h (fun _ _ h1 => kept_finishReg h1)

theorem kept_execMov {w : RWord} (h : Keeps r s) : Ends r (execMov w s) := kept_withIssue h (fun _ _ h1 => kept_finishReg h1)

theorem kept_execMovi {w : LWord} (h : Keeps r s) : Ends r (execMovi w s) := kept_withIssue h (fun _ _ h1 => kept_finishReg h1)

theorem kept_execPlog {w : RWord} (h : Keeps r s) : Ends r (execPlog w s) := kept_withIssue h (fun _ _ h1 => kept_finishReg h1)

theorem kept_fifoLost {w : MWord} {f : Nat} {off : ℤ} (h : Keeps r s) : Keeps r (fifoLost w f off s) :=
  kept_withEntry h (fun _ _ h1 => kept_finish (kept_sendResult h1))

theorem kept_memAccess {i : Instr} {w : MWord} {specs : List (BitVec 8)} {r1 : AccessRule}
    {body : Nat → Ctx → Seg → ℤ → Nat → State → State} (h : Keeps r s) (hb : ∀ a a1 a2 a3 a4 s, Keeps r s → Keeps r
    (body a a1 a2 a3 a4 s)) :
    Ends r (memAccess i w specs r1 s body) := by
  unfold memAccess
  refine kept_withIssue h ?_
  intro _ _ h1
  dsimp only
  split
  · exact h1
  · split
    · exact kept_ite (kept_fifoLost h1) (kept_trapNow h1)
    · refine kept_ite ?_ ?_
      · exact kept_hold h1
      · split
        · exact kept_trapNow h1
        · exact hb _ _ _ _ _ _ h1

theorem kept_pushWindow {r1 : Req} (h : Keeps r s) : Keeps r (pushWindow s r1) := kept_with h

theorem kept_nearResult {w : MWord} {f e flat n v : Nat} (h : Keeps r s) : Keeps r (nearResult w f e flat n v s) :=
  kept_ite (kept_finish (kept_sendResult (kept_logPoison h))) (kept_finish (kept_sendResult h))

theorem kept_fifoArrival {x : Ctx} {cl b : Nat} {head : Bool} (h : Keeps r s) : Keeps r (fifoArrival s x cl b head).2 := by
  unfold fifoArrival
  dsimp only
  split
  · split
    · exact h
    · exact kept_with h
  · split
    · exact h
    · exact kept_with h
  · exact kept_with h

theorem kept_headLoad {w : MWord} {f : Nat} {x : Ctx} {cl b : Nat} (h : Keeps r s) : Keeps r (headLoad w f x cl b s) := by
  unfold headLoad
  refine kept_withEntry h ?_
  intro _ _ h1
  dsimp only
  split
  · exact kept_ite (kept_finish (kept_sendResult (kept_setFifo h1))) (kept_block (kept_fifoArrival h))
  · exact kept_block (kept_fifoArrival h)

theorem kept_tailStore {w : MWord} {f : Nat} {x : Ctx} {cl b v : Nat} (h : Keeps r s) : Keeps r (tailStore w f x cl b v s) := by
  unfold tailStore
  refine kept_ite ?_ ?_
  · exact kept_finish (kept_setFifo h)
  · refine kept_hold ?_
    split
    · split
      · exact h
      · exact kept_with h
    · split
      · exact h
      · exact kept_with h
    · exact kept_with h

theorem kept_execLd {w : MWord} (h : Keeps r s) : Ends r (execLd w s) := by
  unfold execLd
  refine kept_memAccess h ?_
  intro _ _ _ _ _ _ h1
  dsimp only
  split
  · exact kept_withEntry h1 (fun _ _ h2 => kept_finish (kept_pushReq h2))
  · exact kept_withEntry h1 (fun _ _ h2 => kept_finish (kept_pushWindow h2))
  · exact kept_ite (kept_hold h1) (kept_ite (kept_ite (kept_headLoad h1) (kept_withEntry h1 (fun _ _ h2 => kept_finish
        (kept_sendResult h2)))) (kept_withEntry h1 (fun _ _ h2 => kept_nearResult h2)))

theorem kept_remoteStore {w : MWord} {kind : BitVec 3} {f : Nat} {x : Ctx} {a n v : Nat} (h : Keeps r s) :
    Keeps r (remoteStore w kind f x a n v s) := by
  unfold remoteStore
  split
  · exact kept_hold h
  · exact kept_finish (kept_openJournal h)

theorem kept_storeAccess {i : Instr} {w : MWord} {stf : Bool} (h : Keeps r s) : Ends r (storeAccess i w stf s) := by
  unfold storeAccess
  refine kept_memAccess h ?_
  intro _ _ _ _ _ _ h1
  dsimp only
  split
  · exact kept_finish (kept_pushReq h1)
  · exact kept_remoteStore h1
  · exact kept_ite (kept_hold h1) (kept_ite (kept_tailStore h1) (kept_finish (kept_nearStore h1)))

theorem kept_execSt {w : MWord} (h : Keeps r s) : Ends r (execSt w s) := kept_storeAccess h

theorem kept_execStf {w : MWord} (h : Keeps r s) : Ends r (execStf w s) := kept_storeAccess h

theorem kept_execLdsync {w : MWord} (h : Keeps r s) : Ends r (execLdsync w s) := by
  unfold execLdsync
  refine kept_memAccess h ?_
  intro _ _ _ _ _ _ h1
  dsimp only
  split
  · exact kept_withEntry h1 (fun _ _ h2 => kept_finish (kept_pushReq h2))
  · split
    · exact kept_ite (kept_block h1) (kept_finish h1)
    · exact kept_withEntry h1 (fun _ _ h2 => kept_block (kept_pushWindow h2))
  · exact kept_ite (kept_hold h1) (kept_ite (kept_block h1) (kept_withEntry h1 (fun _ _ h2 => kept_nearResult (kept_ite
        (kept_setFull h2) h2))))

theorem kept_execLdw {w : MWord} (h : Keeps r s) : Ends r (execLdw w s) :=
  kept_memAccess h (fun _ _ _ _ _ _ h1 => kept_withEntry h1 (fun _ _ h2 => kept_finish (kept_modCtx (kept_pushReq h2))))

theorem kept_watchTargets {x : Ctx} {l : List Nat} {ts : List Target} (h : Keeps r s) (e : watchTargets x l s = some (t, ts)) :
    Keeps r t := by
  induction l generalizing s t ts with
  | nil =>
    cases e
    exact h
  | cons a rest ih =>
    have hx : Keeps r (engineXlate s x.core x.slot (ctxPart s x) a).1 := h.trans busy_engineXlate.keeps
    rw [watchTargets] at e
    split at e
    · next e1 =>
      dsimp only at e
      split at e
      · obtain ⟨p, hp, hq⟩ := Option.map_eq_some_iff.mp e
        cases hq
        exact ih (kept_fst hx e1) hp
      · cases e
    · cases e

theorem kept_storeWatched {v core f : Nat} {keep : List Nat} {l : List Target} {j : Nat} (h : Keeps r s) :
    Keeps r (storeWatched v core f keep l j s) := by
  induction l generalizing s j with
  | nil => exact h
  | cons a rest ih => exact ih ((kept_addUnfenced h).trans (busy_homeWriteIn _ _).keeps)

theorem kept_execCst {w : MWord} (h : Keeps r s) : Ends r (execCst w s) := by
  refine kept_withIssue h fun f s h => ?_
  have hv {s : State} (h : Keeps r s) {p : BitVec 8} {ok : Bool} : Keeps r (withEntry p 0 f s fun e s =>
      finish w.hdr f (sendResult (modCtx s f fun x => { x with watch := [], broken := false }) f e [regWrite p
          (predAll ok)] [])) :=
    kept_withEntry h fun _ _ h => kept_finish (kept_sendResult (kept_modCtx h))
  split
  · exact h
  · refine kept_ite (kept_hold h) ?_
    dsimp only
    refine kept_ite (hv h) ?_
    split
    · exact kept_trapNow (kept_modCtx h)
    · refine kept_ite (kept_hold h) (kept_ite (hv h) (kept_ite (kept_hold h) ?_))
      split
      · exact hv h
      · next e =>
        have h1 := kept_watchTargets h e
        exact kept_ite (hv h1) (hv (kept_storeWatched h1))

theorem kept_nearAtomic {w : MWord} {f : Nat} {x : Ctx} {flat : Nat} {new : Nat → Option Nat} (h : Keeps r s) :
    Keeps r (nearAtomic w f x flat new s) := by
  unfold nearAtomic
  refine kept_ite ?_ ?_
  · exact kept_hold h
  · refine kept_withEntry h ?_
    intro _ _ h1
    refine kept_ite ?_ ?_
    · exact kept_nearResult h1
    · refine kept_finish ?_
      refine kept_sendResult ?_
      split
      · exact kept_nearStore h1
      · exact h1

theorem kept_execAtom {w : MWord} (h : Keeps r s) : Ends r (execAtom w s) := by
  unfold execAtom
  refine kept_memAccess h ?_
  intro _ _ _ _ _ _ h1
  dsimp only
  split
  · exact kept_withEntry h1 (fun _ _ h2 => kept_finish (kept_pushReq h2))
  · exact kept_withEntry h1 (fun _ _ h2 => kept_finish (kept_pushWindow h2))
  · exact kept_nearAtomic h1

theorem kept_execCas {w : MWord} (h : Keeps r s) : Ends r (execCas w s) := by
  unfold execCas
  refine kept_memAccess h ?_
  intro _ _ _ _ _ _ h1
  dsimp only
  split
  · exact kept_withEntry h1 (fun _ _ h2 => kept_finish (kept_pushReq h2))
  · exact kept_withEntry h1 (fun _ _ h2 => kept_finish (kept_pushWindow h2))
  · exact kept_nearAtomic h1

theorem kept_execFence {w : RWord} (h : Keeps r s) : Ends r (execFence w s) :=
  kept_withIssue h (fun _ _ h1 => kept_ite (kept_finish h1) (kept_block h1))

theorem kept_execXfence {w : RWord} (h : Keeps r s) : Ends r (execXfence w s) :=
  kept_withIssue h (fun _ _ h1 => kept_ite (kept_block h1) (kept_finish (kept_modCore h1 (fun _ => rfl))))

theorem kept_execPref {w : MWord} (h : Keeps r s) : Ends r (execPref w s) := by
  unfold execPref
  refine kept_withIssue h ?_
  intro _ _ h1
  dsimp only
  split
  · exact h1
  · split
    · exact kept_finish h1
    · split
      · next e3 =>
          refine kept_finish ?_
          split
          · exact kept_ite ((kept_fst (h1.trans busy_engineXlate.keeps) e3).trans (busy_askSectors _).keeps) (kept_fst
                (h1.trans busy_engineXlate.keeps) e3)
          · exact kept_fst (h1.trans busy_engineXlate.keeps) e3
      · next e2 => exact kept_finish (kept_fst (h1.trans busy_engineXlate.keeps) e2)

end

end Sys2Proof.Laws

namespace Sys2Proof.Laws
/-! Canonical memory and whole banks are kept: messages, the journal and the slices. -/

open Sys2Proof.Machine

section
variable {r s t : State}

theorem kept_sendMsg {w : RWord} {f : Nat} {x : Ctx} {cls dst : Nat} {tag : BitVec 16} {words : List Word} {call : Bool}
    (h : Keeps r s) :
    Keeps r (sendMsg w f x cls dst tag words call s) :=
  kept_withEntry h (fun _ _ h1 => kept_finish (kept_pushMsg h1))

theorem kept_withDest {w : RWord} {f : Nat} {body : Ctx → Nat → State} (h : Keeps r s) (hb : ∀ x k, Keeps r (body x k)) :
    Keeps r (withDest w f s body) := by
  unfold withDest
  split
  · exact h
  · exact kept_ite (kept_trapNow h) (kept_ite (kept_trapNow h) (hb _ _))

theorem kept_execSend {w : RWord} (h : Keeps r s) : Ends r (execSend w s) :=
  kept_withIssue h (fun _ _ h1 => kept_withDest h1 (fun _ _ => kept_sendMsg h1))

theorem kept_execCallat {w : RWord} (h : Keeps r s) : Ends r (execCallat w s) :=
  kept_withIssue h (fun _ _ h1 => kept_withDest h1 (fun _ _ => kept_ite (kept_hold h1) (kept_sendMsg (kept_modCore h1
      (fun _ => rfl)))))

theorem kept_execSpawn {w : RWord} (h : Keeps r s) : Ends r (execSpawn w s) :=
  kept_withIssue h (fun _ _ h1 => kept_withDest h1 (fun _ _ => kept_sendMsg h1))

theorem kept_execReply {w : RWord} (h : Keeps r s) : Ends r (execReply w s) := by
  unfold execReply
  refine kept_withIssue h ?_
  intro _ _ h1
  dsimp only
  split
  · exact h1
  · split
    · exact kept_trapNow h1
    · exact kept_ite (kept_trapNow h1) (kept_finish (kept_modCtx (kept_pushMsg h1)))

theorem kept_takeMsg {w : RWord} {f : Nat} {x : Ctx} {k : Nat} {m : Msg} (h : Keeps r s) : Keeps r (takeMsg w f x k m s) :=
  kept_finish (kept_writeReg (kept_writeReg (kept_ite (kept_modSlot (kept_ite (kept_modPart (kept_modCore h
      (fun _ => rfl))) (kept_modCore h (fun _ => rfl))) (fun _ => ⟨rfl, rfl⟩)) (kept_ite (kept_modPart (kept_modCore h
      (fun _ => rfl))) (kept_modCore h (fun _ => rfl))))))

theorem kept_receive {i : Instr} {w : RWord} {x : Nat → State → State} (h : Keeps r s) (hx : ∀ a s, Keeps r s → Keeps r
    (x a s)) :
    Ends r (receive i w x s) := by
  unfold receive
  refine kept_withIssue h ?_
  intro _ _ h1
  dsimp only
  split
  · exact h1
  · refine kept_ite ?_ ?_
    · exact kept_trapNow h1
    · split
      · exact kept_takeMsg h1
      · exact hx _ _ h1

theorem kept_execRecv {w : RWord} (h : Keeps r s) : Ends r (execRecv w s) := kept_receive h (fun _ _ h1 => kept_block h1)

theorem kept_execRecvnb {w : RWord} (h : Keeps r s) : Ends r (execRecvnb w s) := kept_receive h
    (fun _ _ h1 => kept_finishReg h1)

theorem kept_arrive {w : RWord} {f : Nat} {x : Ctx} {next : State → State} (h : Keeps r s) (hn : ∀ s, Keeps r s → Keeps r
    (next s)) :
    Keeps r (arrive w f x s next) :=
  kept_ite (kept_trapNow h) (kept_ite (kept_hold h) (kept_ite (hn _ h) (kept_ite (kept_hold h) (hn _ (kept_countArrival h)))))

theorem kept_barrierWait {w : RWord} {f : Nat} {x : Ctx} (h : Keeps r s) : Keeps r (barrierWait w f x s) := by
  unfold barrierWait
  dsimp only
  split
  · exact kept_ite (kept_hold h) (kept_finishReg h)
  · exact kept_ite (kept_finishReg (kept_endWait h)) (kept_block h)

theorem kept_barrierResume {w : RWord} {f : Nat} {x : Ctx} {ph : Nat} {failed : Bool} (h : Keeps r s) :
    Keeps r (barrierResume w f x ph failed s) :=
  kept_ite (kept_finishReg (kept_endWait h)) (kept_block h)

theorem kept_execArrive {w : RWord} (h : Keeps r s) : Ends r (execArrive w s) := by
  unfold execArrive
  refine kept_withIssue h ?_
  intro _ _ h1
  split
  · exact h1
  · exact kept_arrive h1 (fun _ h2 => kept_finish h2)

theorem kept_execBwait {w : RWord} (h : Keeps r s) : Ends r (execBwait w s) := by
  unfold execBwait
  refine kept_withIssue h ?_
  intro _ _ h1
  split
  · exact h1
  · split
    · exact kept_barrierResume h1
    · exact kept_barrierResume h1
    · exact kept_barrierWait h1

theorem kept_execBsync {w : RWord} (h : Keeps r s) : Ends r (execBsync w s) := by
  unfold execBsync
  refine kept_withIssue h ?_
  intro _ _ h1
  split
  · exact h1
  · split
    · exact kept_barrierResume h1
    · exact kept_barrierResume h1
    · exact kept_arrive h1 (fun _ h2 => kept_barrierWait h2)

theorem kept_execBmask {w : RWord} (h : Keeps r s) : Ends r (execBmask w s) := by
  unfold execBmask
  refine kept_withIssue h ?_
  intro _ _ h1
  dsimp only
  split
  · exact h1
  · exact kept_ite (kept_trapNow h1) (kept_ite (kept_trapNow h1) (kept_finish (kept_rewriteMask h1)))

theorem kept_clearTags {w : RWord} {f bits : Nat} (h : Keeps r s) : Keeps r (clearTags w f bits s) := by
  unfold clearTags
  split
  · exact h
  · exact kept_ite (kept_modTask h) h

theorem kept_tagWait {i : Instr} {w : RWord} {done : Nat → Nat → Bool} (h : Keeps r s) : Ends r (tagWait i w done s) :=
  kept_withIssue h (fun _ _ h1 => kept_ite (kept_finishReg (kept_clearTags h1)) (kept_block h1))

theorem kept_execTwaitany {w : RWord} (h : Keeps r s) : Ends r (execTwaitany w s) := kept_tagWait h

theorem kept_execTwaitall {w : RWord} (h : Keeps r s) : Ends r (execTwaitall w s) := kept_tagWait h

theorem kept_execTfind {w : RWord} (h : Keeps r s) : Ends r (execTfind w s) :=
  kept_withIssue h (fun _ _ h1 => kept_finishReg (kept_ite h1 (kept_clearTags h1)))

theorem kept_execSfence {w : RWord} (h : Keeps r s) : Ends r (execSfence w s) :=
  kept_withIssue h (fun _ _ h1 => kept_ite (kept_block h1) (kept_finish h1))

theorem kept_setLastMcst {c k : Nat} {v : BitVec 16} (h : Keeps r s) : Keeps r (setLastMcst s c k v) :=
  kept_modSlot h (fun _ => ⟨rfl, rfl⟩)

theorem kept_noteMcst {c k : Nat} {v : BitVec 16} {q : Option (BitVec 16)} (h : Keeps r s) : Keeps r (noteMcst s c k v q) :=
  kept_modSlot h (fun _ => ⟨rfl, rfl⟩)

theorem kept_execMcst {w : RWord} (h : Keeps r s) : Ends r (execMcst w s) := by
  unfold execMcst
  refine kept_withIssue h ?_
  intro _ _ h1
  dsimp only
  split
  · exact h1
  · refine kept_ite ?_ ?_
    · exact kept_trapNow h1
    · refine kept_ite ?_ ?_
      · exact kept_withEntry h1 (fun _ _ h2 => kept_finish (kept_sendResult (kept_noteMcst h2)))
      · refine kept_ite ?_ ?_
        · exact kept_trapNow h1
        · split
          · exact kept_hold h1
          · exact kept_withEntry h1 (fun _ _ h2 => kept_finish (kept_openJournal (kept_noteMcst h2)))

theorem kept_execJrd {w : RWord} (h : Keeps r s) : Ends r (execJrd w s) := kept_withIssue h (fun _ _ h1 => kept_finishReg h1)

theorem kept_execMquery {w : RWord} (h : Keeps r s) : Ends r (execMquery w s) := by
  unfold execMquery
  refine kept_withIssue h ?_
  intro _ _ h1
  split
  · exact h1
  · exact kept_finishReg h1

theorem kept_traceRecord {cl srcCore kind size jseq off : Nat} (h : Keeps r s) :
    Keeps r (traceRecord s cl srcCore kind size jseq off) :=
  kept_modCluster h

theorem kept_refusedLoad {r1 : Req} (h : Keeps r s) : Keeps r (refusedLoad s r1) := kept_reqResult h

theorem kept_dropWreq {r1 : Req} (h : Keeps r s) : Keeps r (dropWreq s r1) := kept_with h

theorem kept_wordLoad {r1 : Req} {flat : Nat} (h : Keeps r s) : Keeps r (wordLoad s r1 flat) :=
  kept_ite h (kept_ite (kept_reqResult (kept_logPoison (kept_ite (kept_setFull (kept_dropWreq h)) (kept_dropWreq h))))
      (kept_reqResult (kept_ite (kept_setFull (kept_dropWreq h)) (kept_dropWreq h))))

theorem kept_execWindowLoadServe {n : Nat} (h : Keeps r s) : Ends r (execWindowLoadServe n s) := by
  unfold execWindowLoadServe
  refine ends_next ?_
  dsimp only
  split
  · exact h
  · refine kept_ite ?_ ?_
    · exact h
    · split
      · exact h
      · exact kept_refusedLoad (kept_dropWreq h)
      · exact kept_wordLoad h
      · refine kept_ite ?_ ?_
        · exact kept_refusedLoad (kept_dropWreq h)
        · refine kept_ite ?_ ?_
          · refine kept_ite ?_ ?_
            · exact h
            · split
              · exact kept_refusedLoad (kept_dropWreq h)
              · exact kept_reqResult (kept_setFifo (kept_dropWreq h))
          · exact kept_ite (kept_reqResult (kept_dropWreq h)) (kept_refusedLoad (kept_dropWreq h))

theorem kept_execRemoteAtomicApply {n : Nat} (h : Keeps r s) : Ends r (execRemoteAtomicApply n s) := by
  unfold execRemoteAtomicApply
  refine ends_next ?_
  dsimp only
  split
  · exact h
  · refine kept_ite ?_ ?_
    · exact h
    · split
      · exact h
      · refine kept_ite ?_ ?_
        · exact kept_reqResult (kept_logPoison (kept_dropWreq h))
        · refine kept_reqResult ?_
          refine kept_ite ?_ ?_
          · refine kept_traceRecord ?_
            split
            · exact kept_writeBytes ((kept_dropWreq h).trans busy_endOlder.keeps)
            · exact kept_dropWreq h
          · split
            · exact kept_writeBytes ((kept_dropWreq h).trans busy_endOlder.keeps)
            · exact kept_dropWreq h
      · exact kept_refusedLoad (kept_dropWreq h)

theorem kept_applyPart {core cl : Nat} {j : JEntry} {o : Option Nat} (h : Keeps r s) (e : applyPart s core j cl = some (o, t)) :
    Keeps r t := by
  unfold applyPart at e
  dsimp only at e
  split at e
  · cases e
  · cases e
    exact h
  · split at e
    · cases e
      exact kept_logPoisonFor h
    · cases e
      have h1 : Keeps r (writeBytes (endOlder s none ‹_› (2 ^ j.size.toNat)) ‹_› (2 ^ j.size.toNat) j.data.toNat) :=
        kept_writeBytes (h.trans busy_endOlder.keeps)
      exact kept_ite (kept_traceRecord (kept_ite (kept_setFull h1) h1)) (kept_ite (kept_setFull h1) h1)
  · split at e
    · cases e
      exact h
    · split at e
      · cases e
        exact h
      · split at e
        · cases e
        · cases e
          exact kept_ite (kept_traceRecord (kept_setFifo h)) (kept_setFifo h)

theorem kept_noteApplied {cl core : Nat} {j : JEntry} (h : Keeps r s) : Keeps r (noteApplied s cl core j) := kept_modCluster h

theorem kept_execRemoteStoreApply {core entry part : Nat} (h : Keeps r s) : Ends r
    (execRemoteStoreApply core entry part s) := by
  refine ends_next ?_
  dsimp only
  refine kept_ite h (kept_ite (kept_setJentry h) ?_)
  split
  · exact h
  · next e =>
    have h1 := kept_applyPart h e
    exact kept_setJentry (kept_ite (kept_noteApplied h1) h1)

theorem kept_execJournalAck {core entry : Nat} (h : Keeps r s) : Ends r (execJournalAck core entry s) := by
  unfold execJournalAck
  refine ends_next ?_
  refine kept_ite ?_ ?_
  · exact h
  · refine kept_ite ?_ ?_
    · dsimp only
      split
      · exact kept_ite (kept_setLastMcst (kept_setJentry h)) (kept_setJentry h)
      · exact kept_sendResult (kept_ite (kept_setLastMcst (kept_setJentry h)) (kept_setJentry h))
    · exact kept_setJentry h

theorem kept_execJournalRefusal {core entry : Nat} (h : Keeps r s) : Ends r (execJournalRefusal core entry s) :=
  ends_next (kept_ite h (kept_ite (kept_setJentry h) (kept_ite (kept_setJentry h) (kept_setApend (kept_setJentry h)))))

theorem kept_execReleaseStoreSend {core entry : Nat} (h : Keeps r s) : Ends r (execReleaseStoreSend core entry s) :=
  ends_next (kept_ite (kept_setJentry h) h)

theorem kept_execReleaseMessageSend {n : Nat} (h : Keeps r s) : Ends r (execReleaseMessageSend n s) := by
  unfold execReleaseMessageSend
  refine ends_next ?_
  split
  · exact h
  · exact kept_ite (kept_with h) h

theorem kept_msgVerdict {m : Msg} {code : Nat} (h : Keeps r s) : Keeps r (msgVerdict s m code) := by
  unfold msgVerdict
  dsimp only
  split
  · exact h
  · exact kept_sendResult (kept_ite (kept_modSlot h (fun _ => ⟨rfl, rfl⟩)) h)

theorem kept_countRefused {core k : Nat} (h : Keeps r s) : Keeps r (countRefused s core k) := kept_modCore h fun _ => rfl

theorem kept_refuseMsg {m : Msg} {code : Nat} (h : Keeps r s) : Keeps r (refuseMsg s m code) :=
  kept_ite (kept_modCore (kept_msgVerdict (kept_ite h (kept_countRefused h))) (fun _ => rfl)) (kept_msgVerdict (kept_ite h
      (kept_countRefused h)))

theorem kept_setReady {core k : Nat} (h : Keeps r s) : Keeps r (setReady s core k) := by
  unfold setReady
  split
  · exact kept_ite (kept_modSlot h (fun _ => ⟨rfl, rfl⟩)) h
  · exact h

theorem kept_missRefused {m : Msg} (h : Keeps r s) : Keeps r (missRefused s m) := kept_modExpert h

theorem kept_execMessageArrival {n : Nat} (h : Keeps r s) : Ends r (execMessageArrival n s) := by
  unfold execMessageArrival
  refine ends_next ?_
  dsimp only
  split
  · exact h
  · refine kept_ite ?_ ?_
    · exact h
    · refine kept_ite ?_ ?_
      · exact kept_ite (kept_modCore (kept_with h) (fun _ => rfl)) (kept_modCore (kept_countRefused (kept_with h))
            (fun _ => rfl))
      · refine kept_ite ?_ ?_
        · exact kept_ite h (kept_ite (kept_missRefused (kept_refuseMsg (kept_with h))) (kept_refuseMsg (kept_with h)))
        · split
          · exact kept_ite h (kept_ite (kept_missRefused (kept_refuseMsg (kept_with h))) (kept_refuseMsg (kept_with h)))
          · exact kept_ite (kept_ite h (kept_ite (kept_missRefused (kept_refuseMsg (kept_with h))) (kept_refuseMsg
                (kept_with h)))) (kept_msgVerdict (kept_setReady (kept_modCore (kept_with h) (fun _ => rfl))))

theorem kept_execTaskQueueEntryArrival {n : Nat} (h : Keeps r s) : Ends r (execTaskQueueEntryArrival n s) := by
  unfold execTaskQueueEntryArrival
  refine ends_next ?_
  dsimp only
  split
  · exact h
  · refine kept_ite ?_ ?_
    · exact h
    · refine kept_ite ?_ ?_
      · exact kept_refuseMsg (kept_with h)
      · split
        · exact kept_refuseMsg (kept_with h)
        · exact kept_ite (kept_refuseMsg (kept_with h)) (kept_ite (kept_refuseMsg (kept_with h)) (kept_ite (kept_refuseMsg
              (kept_with h)) (kept_msgVerdict (kept_modCore (kept_with h) (fun _ => rfl)))))

theorem kept_execTaskQueueHelperStart {core : Nat} (h : Keeps r s) : Ends r (execTaskQueueHelperStart core s) := by
  refine ends_next ?_
  dsimp only
  split
  · exact h
  · split
    · exact h
    · split
      · exact h
      · split
        · exact h
        · next e => exact kept_modCore (kept_startContext h e) fun _ => rfl

theorem kept_execBarrierArrival {n : Nat} (h : Keeps r s) : Ends r (execBarrierArrival n s) := by
  unfold execBarrierArrival
  refine ends_next ?_
  dsimp only
  split
  · exact h
  · exact kept_ite h (kept_ite (kept_with h) (kept_engineArrive (kept_with h)))

theorem kept_sendIfLive {f e v : Nat} (h : Keeps r s) : Keeps r (sendIfLive s f e v) := kept_ite (kept_sendResult h) h

theorem kept_rangeTargets {core slot part l n : Nat} (h : Keeps r s) : Keeps r (rangeTargets core slot part l n s).1 := by
  induction n generalizing s l with
  | zero => exact h
  | succ n ih =>
    rw [rangeTargets]
    split
    · exact h
    · dsimp only
      have h1 := ih (l := l + 1) (h.trans (busy_engineXlate (core := core) (slot := slot) (part := part) (va := 256 * l)).keeps)
      split <;> exact h1

theorem kept_withRange {i : Instr} {w : RWord} {specs : List (BitVec 8)} {body : Nat → Ctx → Nat → Nat → State → State}
    (h : Keeps r s) (hb : ∀ a a1 a2 a3 s, Keeps r s → Keeps r (body a a1 a2 a3 s)) :
    Ends r (withRange i w specs s body) := by
  unfold withRange
  refine kept_withIssue h ?_
  intro _ _ h1
  dsimp only
  split
  · exact h1
  · split
    · exact kept_trapNow h1
    · exact hb _ _ _ _ _ h1

theorem kept_setTag {core bind tag : Nat} {v : Bool} (h : Keeps r s) : Keeps r (setTag s core bind tag v) :=
  kept_ite h (kept_modTask h)

theorem kept_pushArrival {a : Option Arrival} (h : Keeps r s) : Keeps r (pushArrival s a) := by
  unfold pushArrival
  split
  · exact kept_with h
  · exact h

theorem kept_endPfr {core : Nat} {p : Pfr} (h : Keeps r s) : Keeps r (endPfr s core p) := by
  unfold endPfr
  split
  · exact kept_setTag h
  · exact kept_pushArrival h

theorem kept_prefetchRange {i : Instr} {w : RWord} {bar : Bool} (h : Keeps r s) : Ends r (prefetchRange i w bar s) :=
  kept_withRange h (fun _ _ _ _ _ h1 => kept_ite (kept_hold h1) (kept_ite (kept_hold h1) (kept_finish (kept_ite
      (kept_endPfr (kept_rangeTargets (kept_ite h1 (kept_setTag h1)))) (kept_modCore (kept_rangeTargets (kept_ite h1
      (kept_setTag h1))) (fun _ => rfl))))))

theorem kept_execPfr {w : RWord} (h : Keeps r s) : Ends r (execPfr w s) := kept_prefetchRange h

theorem kept_execPfrBar {w : RWord} (h : Keeps r s) : Ends r (execPfrBar w s) := kept_prefetchRange h

theorem kept_ensureLine {t : Target} (h : Keeps r s) : Keeps r (ensureLine s t) := by
  unfold ensureLine
  split
  · exact h
  · exact h.trans (busy_askSectors _).keeps

theorem kept_execPfrComplete {core n : Nat} (h : Keeps r s) : Ends r (execPfrComplete core n s) := by
  unfold execPfrComplete
  refine ends_next ?_
  split
  · exact h
  · exact kept_endPfr (kept_modCore (kept_foldl (fun _ _ h1 => kept_ensureLine h1) h) (fun _ => rfl))

theorem kept_flushRange {i : Instr} {w : RWord} {inval : Bool} (h : Keeps r s) : Ends r (flushRange i w inval s) := by
  unfold flushRange
  refine kept_withRange h ?_
  intro _ _ _ _ _ h1
  dsimp only
  split
  · exact kept_ite (kept_block h1) (kept_finish h1)
  · exact kept_ite (kept_finish h1) (kept_ite (kept_block h1) (kept_block (kept_with (kept_rangeTargets h1))))

theorem kept_execRflush {w : RWord} (h : Keeps r s) : Ends r (execRflush w s) := kept_flushRange h

theorem kept_execRinval {w : RWord} (h : Keeps r s) : Ends r (execRinval w s) := kept_flushRange h

theorem kept_dropCopies {line : Nat} (h : Keeps r s) : Keeps r (dropCopies s line) :=
  kept_foldl (fun _ _ h1 => h1.trans busy_dropClusterLine.keeps) h

theorem kept_flushLine {inval : Bool} {line : Nat} (h : Keeps r s) : Keeps r (flushLine s inval line) := by
  unfold flushLine
  dsimp only
  split
  · exact kept_ite (kept_dropCopies h) h
  · exact kept_ite (kept_modSlice (kept_foldl (fun _ _ h1 => h1.trans (busy_writeBack _).keeps) h)) (((kept_modSlice
        (kept_foldl (fun _ _ h1 => kept_ite (h1.trans busy_revealSector.keeps) h1) (kept_foldl
        (fun _ _ h1 => h1.trans busy_dropClusterLine.keeps) (kept_foldl (fun _ _ h1 => h1.trans
        (busy_writeBack _).keeps) h)))).trans busy_countSlice.keeps).trans busy_touchWatch.keeps)

theorem kept_execSectorWriteBackComplete {n : Nat} (h : Keeps r s) : Ends r (execSectorWriteBackComplete n s) := by
  unfold execSectorWriteBackComplete
  refine ends_next ?_
  dsimp only
  split
  · exact h
  · split
    · exact kept_with h
    · exact kept_ite (kept_with (kept_flushLine h)) (kept_with (kept_flushLine h))

theorem kept_unpinSector {t : Target} (h : Keeps r s) : Keeps r (unpinSector s t).2 := by
  unfold unpinSector
  dsimp only
  split
  · exact h
  · split
    · exact h
    · split
      · exact h
      · exact ((h.trans (busy_writeBack _).keeps).trans busy_storeForm.keeps).trans busy_touchWatch.keeps

theorem kept_sectorPin {i : Instr} {w : RWord} {act : State → Target → Nat × State} (h : Keeps r s)
    (ha : ∀ s a, Keeps r s → Keeps r (act s a).2) :
    Ends r (sectorPin i w act s) := by
  unfold sectorPin
  refine kept_withIssue h ?_
  intro _ _ h1
  dsimp only
  split
  · exact h1
  · refine kept_ite ?_ ?_
    · exact kept_trapNow h1
    · split
      · exact kept_trapNow h1
      · refine kept_withEntry h1 ?_
        intro _ _ h2
        split
        · exact kept_finish (kept_sendResult (h2.trans busy_engineXlate.keeps))
        · exact kept_ite (kept_finish (kept_sendResult (h2.trans busy_engineXlate.keeps))) (kept_ite (kept_hold h1)
              (kept_ite (kept_finish (kept_sendResult (ha _ _ (h2.trans busy_engineXlate.keeps)))) (kept_finish
              (kept_sendResult (h2.trans busy_engineXlate.keeps)))))

theorem kept_execSecpin {w : RWord} (h : Keeps r s) : Ends r (execSecpin w s) :=
  kept_sectorPin h (fun _ _ h1 => h1.trans (busy_pinSector _).keeps)

theorem kept_execSecpinUn {w : RWord} (h : Keeps r s) : Ends r (execSecpinUn w s) :=
  kept_sectorPin h (fun _ _ h1 => kept_unpinSector h1)

theorem kept_startSwitch {cl : Nat} (h : Keeps r s) : Keeps r (startSwitch s cl) := by
  unfold startSwitch
  dsimp only
  split
  · exact h
  · exact kept_with h

theorem kept_execBmode {w : RWord} (h : Keeps r s) : Ends r (execBmode w s) := by
  unfold execBmode
  refine kept_withIssue h ?_
  intro _ _ h1
  dsimp only
  split
  · exact h1
  · exact kept_ite (kept_finishLong h1) (kept_ite (kept_finishLong h1) (kept_ite (kept_hold h1) (kept_ite
        (kept_finishLong h1) (kept_ite (kept_finishLong h1) (kept_withEntry h1 (fun _ _ h2 => kept_finish
        (kept_startSwitch (kept_modCluster h2))))))))

theorem kept_clearRange {lo n : Nat} (h : Keeps r s) : Keeps r (clearRange s lo n) :=
  h.trans ⟨tidyMemory_clearRange, busy_endOlder.keeps.whole⟩

theorem kept_discardBank {cl b : Nat} (h : Keeps r s) : Keeps r (discardBank s cl b) := by
  unfold discardBank
  dsimp only
  split
  · exact kept_foldl (fun _ _ h1 => (h1.trans busy_dropClusterLine.keeps).trans busy_unshare.keeps) (kept_clearRange h)
  · exact kept_setFifo (kept_clearRange h)
  · exact kept_clearRange h

theorem kept_trimAll {cl : Nat} (h : Keeps r s) : Keeps r (trimAll s cl) :=
  kept_foldl (fun _ _ h1 => h1.trans (busy_trimCluster _).keeps) h

theorem kept_setBankMode {cl b : Nat} {mode : BitVec 2} (h : Keeps r s) : Keeps r (setBankMode s cl b mode) :=
  kept_trimAll (kept_modCluster (kept_discardBank h))

theorem kept_execBankModeSwitchComplete {cluster bank : Nat} (h : Keeps r s) :
    Ends r (execBankModeSwitchComplete cluster bank s) := by
  unfold execBankModeSwitchComplete
  refine ends_next ?_
  dsimp only
  split
  · exact h
  · exact kept_ite h (kept_ite (kept_startSwitch (kept_modCluster (kept_setBankMode h))) (kept_foldl
        (fun _ _ h1 => kept_sendIfLive h1) (kept_modCluster (kept_modCluster (kept_setBankMode h)))))

theorem kept_execCtrrd {w : RWord} (h : Keeps r s) : Ends r (execCtrrd w s) := by
  unfold execCtrrd
  refine kept_withIssue h ?_
  intro _ _ h1
  dsimp only
  split
  · exact h1
  · exact kept_finishLong h1

end

end Sys2Proof.Laws

namespace Sys2Proof.Laws
/-! Canonical memory and whole banks are kept: experts, capsules and control. -/

open Sys2Proof.Machine

section
variable {r s t : State}

theorem kept_changeRep {k : Nat} {g : ExRep → ExRep} (h : Keeps r s) : Keeps r (changeRep s k g) := kept_with (kept_modExpert h)

theorem kept_completeWaiters {k : Nat} (h : Keeps r s) : Keeps r (completeWaiters s k) :=
  kept_foldl (fun _ _ h1 => kept_sendIfLive h1) (kept_modExpert h)

theorem kept_refuseUpdate {die : Nat} {u : ExUpdate} (h : Keeps r s) : Keeps r (refuseUpdate s die u) :=
  (kept_modDie h).trans logged_logError.keeps

theorem kept_execResidencyBroadcastApply {die expert : Nat} (h : Keeps r s) : Ends r
    (execResidencyBroadcastApply die expert s) := by
  unfold execResidencyBroadcastApply
  refine ends_next ?_
  split
  · exact h
  · exact kept_ite h (kept_ite (kept_refuseUpdate h) (kept_completeWaiters (kept_with h)))

theorem kept_sendMiss {k : Nat} {time : Word} (h : Keeps r s) : Keeps r (sendMiss s k time) := by
  unfold sendMiss
  exact kept_modExpert (kept_pushMsg h)

theorem kept_execResidencyMissResend {expert : Nat} (h : Keeps r s) : Ends r (execResidencyMissResend expert s) :=
  ends_next (kept_ite (kept_sendMiss h) h)

theorem kept_parkCapsule {k : Nat} {c : Capsule} (h : Keeps r s) : Keeps r (parkCapsule s k c) := by
  unfold parkCapsule
  dsimp only
  split
  · exact kept_ite (kept_throwCapsule h) (kept_modDie (kept_modExpert h))
  · exact kept_throwCapsule h

theorem kept_leaveSluice {k : Nat} (h : Keeps r s) : Keeps r (leaveSluice s k) := by
  unfold leaveSluice
  exact kept_modExpert (kept_modDie h)

theorem kept_nextTarget {k : Nat} (h : Keeps r s) : Keeps r (nextTarget s k).2 := by
  unfold nextTarget
  dsimp only
  exact kept_modExpert h

theorem kept_deliverExpert {k : Nat} {c : Capsule} (h : Keeps r s) : Keeps r (deliverExpert s k c) := by
  unfold deliverExpert
  refine kept_ite ?_ ?_
  · exact kept_throwCapsule h
  · dsimp only
    split
    · exact kept_throwCapsule (kept_nextTarget (kept_modExpert h))
    · exact kept_with (kept_nextTarget (kept_modExpert h))

theorem kept_offerHead {k n : Nat} (h : Keeps r s) : Keeps r (offerHead k n s) := by
  induction n generalizing s with
  | zero => exact h
  | succ n ih =>
    rw [offerHead]
    dsimp only
    split
    · exact h
    · refine kept_ite h (kept_ite (ih (kept_throwCapsule (kept_leaveSluice h))) ?_)
      split
      · exact ih (kept_throwCapsule (kept_leaveSluice (kept_nextTarget (kept_modExpert h))))
      · exact kept_with (kept_nextTarget (kept_modExpert h))

theorem kept_release {k : Nat} (h : Keeps r s) : Keeps r (release s k) := kept_offerHead h

theorem kept_execSluiceReoffer {expert : Nat} (h : Keeps r s) : Ends r (execSluiceReoffer expert s) :=
  ends_next (kept_ite (kept_release h) h)

theorem kept_execSluiceReofferTimer {expert : Nat} (h : Keeps r s) : Ends r (execSluiceReofferTimer expert s) :=
  ends_next (kept_ite (kept_release h) h)

theorem kept_resolveExpert {k : Nat} {c : Capsule} (h : Keeps r s) : Keeps r (resolveExpert s k c) :=
  kept_ite (kept_throwCapsule h) (kept_ite (kept_parkCapsule (kept_ite (kept_sendMiss (kept_changeRep h)) h))
      (kept_deliverExpert h))

theorem kept_execExq {w : RWord} (h : Keeps r s) : Ends r (execExq w s) := by
  unfold execExq
  refine kept_withIssue h ?_
  intro _ _ h1
  dsimp only
  split
  · exact h1
  · exact kept_finishLong h1

theorem kept_expertChange {i : Instr} {w : RWord} {guarded : Bool} {operands : Nat → State → Bool}
    {status : Expert → Nat → Nat} {act : Nat → State → State} (h : Keeps r s) (ha : ∀ a s, Keeps r s → Keeps r (act a s)) :
    Ends r (expertChange i w guarded operands status act s) := by
  unfold expertChange
  refine kept_withIssue h ?_
  intro _ _ h1
  dsimp only
  split
  · exact h1
  · refine kept_ite ?_ ?_
    · exact kept_trapNow h1
    · refine kept_ite ?_ ?_
      · exact kept_hold h1
      · refine kept_ite ?_ ?_
        · exact kept_hold h1
        · refine kept_withEntry h1 ?_
          intro _ _ h2
          split
          · exact kept_finish (kept_sendResult h2)
          · exact kept_ite (kept_finish (kept_sendResult h2)) (kept_modExpert (ha _ _ (kept_finish h2)))

theorem kept_execExpin {w : RWord} (h : Keeps r s) : Ends r (execExpin w s) :=
  kept_expertChange h (fun _ _ h1 => kept_changeRep h1)

theorem kept_execExunpin {w : RWord} (h : Keeps r s) : Ends r (execExunpin w s) :=
  kept_expertChange h (fun _ _ h1 => kept_changeRep h1)

theorem kept_execExload {w : RWord} (h : Keeps r s) : Ends r (execExload w s) := by
  unfold execExload
  dsimp only
  split
  · exact ends_refused
  · exact kept_expertChange h (fun _ _ h1 => kept_release (kept_changeRep h1))

theorem kept_execExevict {w : RWord} (h : Keeps r s) : Ends r (execExevict w s) :=
  kept_expertChange h (fun _ _ h1 => kept_ite (kept_sendMiss (kept_changeRep h1)) (kept_changeRep h1))

theorem kept_execExrepl {w : RWord} (h : Keeps r s) : Ends r (execExrepl w s) := by
  unfold execExrepl
  dsimp only
  split
  · exact ends_refused
  · exact kept_expertChange h (fun _ _ h1 => kept_changeRep h1)

theorem kept_ingressFault {c : Capsule} {die code detail : Nat} (h : Keeps r s) : Keeps r (ingressFault s c die code detail) :=
  kept_throwCapsule h

theorem kept_freeBuffer {q : CapFly} (h : Keeps r s) : Keeps r (freeBuffer s q) := by
  unfold freeBuffer
  split
  · exact kept_modCore h fun _ => rfl
  · exact h

theorem kept_forwardCapsule {q : CapFly} {keep : State → CapFly → State} (h : Keeps r s) (hk : ∀ s q, Keeps r s → Keeps r
    (keep s q)) :
    Keeps r (forwardCapsule s q keep) := by
  unfold forwardCapsule
  refine kept_ite (kept_ingressFault h) (kept_ite (kept_ingressFault h) (kept_ite (hk _ _ h) ?_))
  split
  · exact hk _ _ h
  · exact hk _ _ h
  · exact kept_resolveExpert h
  · exact hk _ _ h

theorem kept_offerTaken {q : CapFly} (h : Keeps r s) : Keeps r (offerTaken s q) := by
  unfold offerTaken
  split
  · exact kept_release (kept_leaveSluice h)
  · exact h

theorem kept_enterDie {out : State} {q : CapFly} {n d : Nat} (h : Keeps r s) (ho : Keeps r out) : Keeps r
    (enterDie s out q n d) :=
  kept_ite (kept_offerTaken (kept_ingressFault ho)) (kept_ite (kept_with h) (kept_ite h
    (kept_ite (kept_offerTaken (kept_ingressFault ho)) (kept_with h))))

theorem kept_execCapsuleDieIngress {n : Nat} (h : Keeps r s) : Ends r (execCapsuleDieIngress n s) := by
  unfold execCapsuleDieIngress
  refine ends_next ?_
  dsimp only
  split
  · exact h
  · exact kept_ite h (kept_ite (kept_offerTaken (kept_throwCapsule (kept_with (kept_freeBuffer h)))) (kept_ite
        (kept_enterDie (kept_freeBuffer h) (kept_with (kept_freeBuffer h))) (kept_ite (kept_ingressFault (kept_with
        (kept_freeBuffer h))) (kept_ite (kept_ingressFault (kept_with (kept_freeBuffer h))) (kept_ite (kept_ingressFault
        (kept_with (kept_freeBuffer h))) (kept_ite h (kept_forwardCapsule (kept_with (kept_freeBuffer h))
        (fun _ _ _ => kept_with (kept_freeBuffer h)))))))))

theorem kept_offerRefused {k : Nat} (h : Keeps r s) : Keeps r (offerRefused s k) := kept_modExpert h

theorem kept_refuseAt {a : CapDest} (h : Keeps r s) : Keeps r (refuseAt s a) := by
  unfold refuseAt
  split
  · exact kept_countRefused h
  · exact h

theorem kept_execCapsuleCoreIngress {n : Nat} (h : Keeps r s) : Ends r (execCapsuleCoreIngress n s) := by
  unfold execCapsuleCoreIngress
  refine ends_next ?_
  dsimp only
  split
  · exact h
  · split
    · exact h
    · refine kept_ite ?_ ?_
      · exact h
      · refine kept_ite ?_ ?_
        · exact kept_offerTaken (kept_ingressFault (kept_with h))
        · split
          · exact kept_ite (kept_offerTaken (kept_throwCapsule (kept_with h))) (kept_offerTaken (kept_setReady
                (kept_modCore (kept_with h) (fun _ => rfl))))
          · refine kept_ite ?_ ?_
            · exact kept_offerTaken (kept_throwCapsule (kept_with h))
            · split
              · exact kept_offerRefused (kept_with h)
              · exact kept_refuseAt (kept_throwCapsule (kept_with h))

theorem kept_putTile {p : TilePlace} {ws : List Word} (h : Keeps r s) : Keeps r (putTile s p ws) := by
  unfold putTile
  dsimp only
  split
  · exact kept_foldl (fun _ _ h1 => kept_setFull h1) (kept_writeBytes (h.trans busy_endOlder.keeps))
  · exact kept_setFifo h
  · exact h

theorem kept_takeCapsule {r1 : RecvAt} {c : Capsule} {pc : Nat} (h : Keeps r s) : Keeps r (takeCapsule r1 c pc s) :=
  kept_finish (kept_modCtx (kept_writeReg (kept_writeReg (kept_writeReg (kept_putTile h)))))

theorem kept_popCapsule {core f : Nat} (h : Keeps r s) : Keeps r (popCapsule s core f) := by
  unfold popCapsule
  dsimp only
  split
  · exact kept_ite (kept_modCore h (fun _ => rfl)) (kept_modSlot (kept_modCore h (fun _ => rfl)) (fun _ => ⟨rfl, rfl⟩))
  · exact h

theorem kept_recvLoop {a : RecvAt} {l : List Capsule} (h : Keeps r s) : Keeps r (recvLoop a l s) := by
  induction l generalizing s with
  | nil => exact kept_block h
  | cons c rest ih =>
    rw [recvLoop]
    dsimp only
    have hp := kept_popCapsule (core := a.core) (f := a.f) h
    have ht (z : CapFault) : Keeps r (throwCapsule (popCapsule s a.core a.f) c (dieOf a.core) none z) := kept_throwCapsule hp
    exact kept_ite (kept_block h) (kept_ite (kept_trapNow (kept_logPoison h)) (kept_ite (ih (ht _)) (kept_ite (ih (ht _))
      (kept_ite (kept_hold h) (kept_takeCapsule hp)))))

theorem kept_execCaprecv {w : RWord} (h : Keeps r s) : Ends r (execCaprecv w s) := by
  unfold execCaprecv
  refine kept_withIssue h ?_
  intro _ _ h1
  dsimp only
  split
  · exact h1
  · refine kept_ite ?_ ?_
    · exact kept_trapNow h1
    · refine kept_ite ?_ ?_
      · exact kept_trapNow h1
      · split
        · exact kept_trapNow h1
        · split
          · exact kept_trapNow h1
          · exact kept_hold h1
          · exact kept_recvLoop h1

theorem kept_launchCapsule {core : Nat} {c : Capsule} (h : Keeps r s) : Keeps r (launchCapsule s core c) := by
  have h1 : Keeps r (modCore s core fun x => { x with sendBuf := x.sendBuf + 1 }) := kept_modCore h fun _ => rfl
  exact kept_with h1

theorem kept_execCapsend {w : RWord} (h : Keeps r s) : Ends r (execCapsend w s) := by
  unfold execCapsend
  refine kept_withIssue h ?_
  intro _ _ h1
  dsimp only
  split
  · exact h1
  · refine kept_ite ?_ ?_
    · exact kept_hold h1
    · refine kept_ite ?_ ?_
      · exact kept_trapNow h1
      · split
        · exact kept_hold h1
        · exact kept_trapNow h1
        · exact kept_trapNow (kept_logPoison h1)
        · exact kept_finish (kept_launchCapsule h1)

theorem kept_trapKeeping {cause : Nat} {addr : Word} {f : Nat} (h : Keeps r s) : Keeps r (trapKeeping cause addr f s) :=
  kept_setEnd (kept_takeTrap h)

theorem kept_withCurrent {i : Instr} {w : RWord} {specs : List (BitVec 8)} {body : Nat → Ctx → Capsule → State → State}
    (h : Keeps r s) (hb : ∀ a a1 a2 s, Keeps r s → Keeps r (body a a1 a2 s)) :
    Ends r (withCurrent i w specs s body) := by
  unfold withCurrent
  refine kept_withIssue h ?_
  intro _ _ h1
  split
  · exact h1
  · refine kept_ite ?_ ?_
    · exact kept_trapNow h1
    · split
      · exact kept_trapNow h1
      · exact hb _ _ _ _ h1

theorem kept_setCurrent {f : Nat} {c : Option Capsule} (h : Keeps r s) : Keeps r (setCurrent s f c) := kept_modCtx h

theorem kept_execCapnext {w : RWord} (h : Keeps r s) : Ends r (execCapnext w s) := by
  unfold execCapnext
  refine kept_withCurrent h ?_
  intro _ _ _ _ h1
  refine kept_ite ?_ ?_
  · exact kept_hold h1
  · dsimp only
    split
    · exact kept_hold h1
    · exact kept_trapKeeping (kept_setCurrent h1)
    · exact kept_trapNow (kept_logPoison (kept_setCurrent h1))
    · exact kept_finishReg (kept_ite (kept_setCurrent h1) (kept_launchCapsule (kept_setCurrent h1)))

theorem kept_editHead {w : RWord} {f : Nat} {c : Option Capsule} (h : Keeps r s) : Keeps r (editHead w f s c) := by
  unfold editHead
  split
  · exact kept_finishReg (kept_setCurrent h)
  · exact kept_finishReg h

theorem kept_execCapins {w : RWord} (h : Keeps r s) : Ends r (execCapins w s) :=
  kept_withCurrent h (fun _ _ _ _ h1 => kept_ite (kept_trapNow h1) (kept_editHead h1))

theorem kept_execCapskip {w : RWord} (h : Keeps r s) : Ends r (execCapskip w s) :=
  kept_withCurrent h (fun _ _ _ _ h1 => kept_editHead h1)

theorem kept_execCaprepl {w : RWord} (h : Keeps r s) : Ends r (execCaprepl w s) :=
  kept_withCurrent h (fun _ _ _ _ h1 => kept_ite (kept_trapNow h1) (kept_editHead h1))

theorem kept_execCapfail {w : RWord} (h : Keeps r s) : Ends r (execCapfail w s) :=
  kept_withCurrent h (fun _ _ _ _ h1 => kept_ite (kept_hold h1) (kept_ite (kept_hold h1) (kept_finish (kept_throwCapsule
      (kept_modCore (kept_setCurrent h1) (fun _ => rfl))))))

theorem kept_execCapdrop {w : RWord} (h : Keeps r s) : Ends r (execCapdrop w s) :=
  kept_withCurrent h (fun _ _ _ _ h1 => kept_finish (kept_setCurrent h1))

theorem kept_cacheLine {c flat v : Nat} (h : Keeps r s) : Keeps r (cacheLine s c flat v) := kept_modCore h fun _ => rfl

theorem kept_fetchLine {c : Nat} {t : Target} (h : Keeps r s) : Keeps r (fetchLine s c t) :=
  kept_cacheLine (h.trans (busy_noteFetch _).keeps)

theorem kept_countDrop {c part : Nat} (h : Keeps r s) : Keeps r (countDrop s c part) := by
  have h1 : Keeps r (modCore s c fun x => { x with dropped := x.dropped + 1 }) := kept_modCore h fun _ => rfl
  unfold countDrop
  exact kept_ite (h1.trans logged_logError.keeps) h1

theorem kept_countCorrected {c part : Nat} (h : Keeps r s) : Keeps r (countCorrected s c part) := by
  have h1 : Keeps r (modCore s c fun x => { x with corrected := x.corrected + 1 }) := kept_modCore h fun _ => rfl
  unfold countCorrected
  exact kept_ite (h1.trans logged_logError.keeps) h1

theorem kept_fetchTrap {f code cause : Nat} {addr : Word} (h : Keeps r s) : Keeps r (fetchTrap s f code cause addr) :=
  kept_takeTrap h

theorem kept_fetchAhead {core slot f : Nat} {x : Ctx} (h : Keeps r s) : Keeps r (fetchAhead s core slot f x) := by
  unfold fetchAhead
  refine kept_ite ?_ ?_
  · exact kept_countDrop h
  · dsimp only
    split
    · next e1 => exact kept_ite (kept_fst (h.trans busy_engineXlate.keeps) e1) (kept_ite (kept_countDrop (kept_fst
          (h.trans busy_engineXlate.keeps) e1)) (kept_fetchLine (kept_fst (h.trans busy_engineXlate.keeps) e1)))
    · next e => exact kept_countDrop (kept_fst (h.trans busy_engineXlate.keeps) e)

theorem kept_execInstructionFetchComplete {core slot : Nat} (h : Keeps r s) : Ends r
    (execInstructionFetchComplete core slot s) := by
  unfold execInstructionFetchComplete
  refine ends_next ?_
  dsimp only
  split
  · split
    · exact h
    · exact kept_ite h (kept_ite (kept_fetchTrap (kept_dropReq h)) (kept_ite (kept_fetchTrap (kept_logPoison
          (kept_dropReq h))) (kept_fetchLine (kept_dropReq h))))
  · split
    · exact h
    · split
      · exact h
      · exact kept_fetchAhead h

theorem kept_execLineRefetch {core slot : Nat} (h : Keeps r s) : Ends r (execLineRefetch core slot s) := by
  unfold execLineRefetch
  refine ends_next ?_
  dsimp only
  split
  · exact kept_ite h (kept_ite (kept_fetchTrap (kept_modSlot h (fun _ => ⟨rfl, rfl⟩))) (kept_ite (kept_fetchTrap
        (kept_logPoison (kept_modSlot h (fun _ => ⟨rfl, rfl⟩)))) (kept_modSlot (kept_fetchLine h) (fun _ => ⟨rfl, rfl⟩))))
  · exact h

theorem kept_setNext {t : Word} (h : Keeps r s) : Keeps r (setNext s t) := kept_with h

theorem kept_lineAt {f va : Nat} (h : Keeps r s) (e : lineAt s f va = .wait t) : Keeps r t := by
  have hq {q : Req} : Keeps r (pushReq s q) := kept_with h
  unfold lineAt at e
  dsimp only at e
  split at e
  · cases e
  · split at e
    · cases e
    · split at e
      · cases e
        exact h
      · split at e
        · split at e
          · cases e
            exact hq
          · split at e
            · cases e
            · cases e
              exact hq
        · cases e
          exact hq

theorem kept_entryCheck {f : Nat} {a : Word} (h : Keeps r s) (e : entryCheck s f a = .wait t) : Keeps r t := by
  unfold entryCheck at e
  split at e
  · cases e
  · split at e
    · split at e <;> cases e
    · next e1 =>
      cases e
      exact kept_lineAt h e1
    · cases e

theorem kept_jumpTo {hd : Hdr} {link : BitVec 8} {a : Word} {f : Nat} (h : Keeps r s) : Keeps r (jumpTo hd link a f s) := by
  unfold jumpTo
  split
  · exact kept_trapNow h
  · next e => exact kept_hold (kept_entryCheck h e)
  · exact kept_finish (kept_setNext (kept_writeReg h))

theorem kept_execBr {w : BWord} (h : Keeps r s) : Ends r (execBr w s) :=
  kept_withIssue h (fun _ _ h1 => kept_ite (kept_jumpTo h1) (kept_finish h1))

theorem kept_execCall {w : BWord} (h : Keeps r s) : Ends r (execCall w s) := kept_withIssue h (fun _ _ h1 => kept_jumpTo h1)

theorem kept_execRet {w : RWord} (h : Keeps r s) : Ends r (execRet w s) := kept_withIssue h (fun _ _ h1 => kept_jumpTo h1)

theorem kept_execJmp {w : RWord} (h : Keeps r s) : Ends r (execJmp w s) := kept_withIssue h (fun _ _ h1 => kept_jumpTo h1)

theorem kept_execTrap {w : RWord} (h : Keeps r s) : Ends r (execTrap w s) := kept_withIssue h (fun _ _ h1 => kept_trapNow h1)

theorem kept_takeAsync {f : Nat} {x : Ctx} {k : Nat} (h : Keeps r s) : Keeps r (takeAsync s f x k) :=
  kept_takeTrap (kept_modCtx h)

theorem kept_freeServed {f : Nat} (h : Keeps r s) : Keeps r (freeServed s f) := by
  unfold freeServed
  dsimp only
  split
  · exact h
  · split
    · exact h
    · exact kept_setStatus (kept_modCtx (kept_setJentry h))

theorem kept_execTret {w : RWord} (h : Keeps r s) : Ends r (execTret w s) :=
  kept_withIssue h (fun _ _ h1 => kept_ite (kept_trapNow h1) (kept_unmarked h1 (fun _ h2 => kept_ite (kept_trapNow h2)
      (kept_unmask (kept_finish (kept_freeServed (kept_setNext (kept_keepRunFaults (kept_leaveHandler h2)))))))))

theorem kept_execNop {w : RWord} (h : Keeps r s) : Ends r (execNop w s) := kept_withIssue h (fun _ _ h1 => kept_finish h1)

theorem kept_startCommon {i : Instr} {w : RWord} {kind cls : Nat} {room : Nat → Ctx → State → Bool} (h : Keeps r s) :
    Ends r (startCommon i w kind cls s room) := by
  refine kept_withIssue h fun f s h => kept_ite (kept_hold h) (kept_withEntry h fun e s h => ?_)
  dsimp only
  split
  · exact kept_finish (kept_sendResult h)
  · split
    · split
      · exact kept_finish (kept_sendResult h)
      · next e1 =>
        have h1 := kept_startContext h e1
        refine kept_finish (kept_sendResult ?_)
        exact kept_ite (kept_modSlot (kept_ite (kept_modTask h1) h1) fun _ => ⟨rfl, rfl⟩) (kept_ite (kept_modTask h1) h1)
    · exact kept_finish (kept_sendResult h)

theorem kept_execStart {w : RWord} (h : Keeps r s) : Ends r (execStart w s) := kept_startCommon h

theorem kept_execStartSvc {w : RWord} (h : Keeps r s) : Ends r (execStartSvc w s) := kept_startCommon h

theorem kept_retire {f : Nat} (h : Keeps r s) : Keeps r (retire s f) := by
  unfold retire
  dsimp only
  split
  · exact h
  · exact kept_ite (kept_endTask (kept_ite (kept_modCore h (fun _ => rfl)) h)) (kept_endContext (kept_ite (kept_modCore h
        (fun _ => rfl)) h))

theorem kept_execExit {w : RWord} (h : Keeps r s) : Ends r (execExit w s) := by
  unfold execExit
  refine kept_withIssue h ?_
  intro _ _ h1
  split
  · exact h1
  · refine kept_ite ?_ ?_
    · exact kept_hold h1
    · refine kept_ite ?_ ?_
      · exact kept_setEnd (kept_resolveTrap h1)
      · split
        · exact kept_setEnd (kept_takeAsync h1)
        · exact kept_ite (kept_hold h1) (kept_setEnd (kept_retire h1))

theorem kept_execJoin {w : RWord} (h : Keeps r s) : Ends r (execJoin w s) := by
  unfold execJoin
  refine kept_withIssue h ?_
  intro _ _ h1
  split
  · exact h1
  · exact kept_ite (kept_block h1) (kept_finish h1)

theorem kept_execPpoint {w : RWord} (h : Keeps r s) : Ends r (execPpoint w s) :=
  kept_withIssue h (fun _ _ h1 => kept_ite (kept_ite (kept_takePreempt (kept_modCtx (kept_modCtx (kept_finish h1))))
      (kept_modCtx (kept_modCtx (kept_finish h1)))) (kept_modCtx (kept_finish h1)))

theorem kept_takeToken {d : Nat} (h : Keeps r s) : Keeps r (takeToken s d).2 := by
  unfold takeToken
  dsimp only
  exact kept_modDie h

theorem kept_acceptLaunch {core part v : Nat} (h : Keeps r s) : Keeps r (acceptLaunch s core part v).2 := by
  unfold acceptLaunch
  dsimp only
  exact kept_modDie (kept_with (kept_modDie h))

theorem kept_readLaunch {w : RWord} {f e : Nat} {x : Ctx} {x1 : Option Nat} (h : Keeps r s) : Keeps r
    (readLaunch w f e x x1 s) := by
  unfold readLaunch
  dsimp only
  split
  · exact kept_finish (kept_sendResult h)
  · exact kept_ite (kept_finish (kept_sendResult h)) (kept_ite (kept_finish (kept_sendResult (kept_logPoison h)))
        (kept_ite (kept_finish (kept_sendResult h)) (kept_finish (kept_sendResult (kept_acceptLaunch h)))))

theorem kept_execLaunch {w : RWord} (h : Keeps r s) : Ends r (execLaunch w s) := by
  unfold execLaunch
  refine kept_withIssue h ?_
  intro _ _ h1
  dsimp only
  split
  · exact h1
  · split
    · exact kept_ite (kept_hold h1) (kept_trapNow h1)
    · refine kept_ite ?_ ?_
      · exact kept_hold h1
      · refine kept_withEntry h1 ?_
        intro _ _ h2
        split
        · split
          · next e5 => exact kept_ite (kept_hold h1) (kept_ite (kept_readLaunch ((kept_fst
                (h2.trans busy_engineXlate.keeps) e5).trans (busy_noteSlice _).keeps)) (kept_trapNow h1))
          · next e4 => exact kept_readLaunch (kept_fst (h2.trans busy_engineXlate.keeps) e4)
        · exact kept_ite (kept_hold h1) (kept_ite (kept_readLaunch h2) (kept_trapNow h1))
        · exact kept_readLaunch h2

end

end Sys2Proof.Laws

namespace Sys2Proof.Laws
/-! Canonical memory and whole banks are kept: the matrix engine and the walk. -/

open Sys2Proof.Machine

section
variable {r s t : State}

theorem kept_setAcc {core k : Nat} {v : AccBits} (h : Keeps r s) : Keeps r (setAcc s core k v) := kept_modCore h fun _ => rfl

theorem kept_deliver {frame entry : Nat} {d : BitVec 8} {v : Nat} {t : Option TrapInfo} (h : Keeps r s) :
    Keeps r (deliver s frame entry d v t) := by
  unfold deliver
  dsimp only
  split
  · exact kept_takeTrap (kept_sendResult h)
  · exact kept_sendResult h

theorem kept_endOp {core : Nat} {m : MxOp} {ring : Bool} {status : Bool → Nat} {t : Option TrapInfo} (h : Keeps r s) :
    Keeps r (endOp s core m ring status t) := by
  unfold endOp
  dsimp only
  split
  · exact kept_modCore h fun _ => rfl
  · exact kept_settleEnd (kept_ite (kept_pushArrival (kept_ite (kept_deliver (kept_modCore h (fun _ => rfl)))
        (kept_settleRacing (kept_modCore h (fun _ => rfl))))) (kept_ite (kept_deliver (kept_modCore h (fun _ => rfl)))
        (kept_settleRacing (kept_modCore h (fun _ => rfl)))))

theorem kept_finishWaiting {h1 : Hdr} {f e : Nat} (h : Keeps r s) : Keeps r (finishWaiting h1 f e s) :=
  kept_modCtx (kept_finish h)

theorem kept_matrixStart {body : Nat → Ctx → State → State} {f : Nat} (h : Keeps r s)
    (hb : ∀ f x s, Keeps r s → Keeps r (body f x s)) : Keeps r (matrixStart body f s) := by
  unfold matrixStart
  split
  · exact h
  · exact kept_ite (kept_trapNow h) (kept_ite (kept_hold h) (hb _ _ _ (kept_modCore h fun _ => rfl)))

theorem kept_withMatrix {i : Instr} {w : RWord} {body : Nat → Ctx → State → State} (h : Keeps r s)
    (hb : ∀ a a1 s, Keeps r s → Keeps r (body a a1 s)) :
    Ends r (withMatrix i w s body) :=
  kept_withIssue h (fun _ _ h1 => kept_matrixStart h1 (fun _ _ _ h2 => hb _ _ _ h2))

theorem kept_execMzero {w : RWord} (h : Keeps r s) : Ends r (execMzero w s) :=
  kept_withMatrix h (fun _ _ _ h1 => kept_finish (kept_foldl (fun _ _ h2 => kept_ite (kept_setAcc h2) h2) h1))

theorem kept_execMswz {w : RWord} (h : Keeps r s) : Ends r (execMswz w s) :=
  kept_withMatrix h (fun _ _ _ h1 => kept_finish (kept_modTask h1))

theorem kept_singleOp {i : Instr} {op : Nat} {w : RWord} (h : Keeps r s) : Ends r (singleOp i op w s) :=
  kept_withMatrix h (fun _ _ _ h1 => kept_withEntry h1 (fun _ _ h2 => kept_finishWaiting (kept_modCore h2 (fun _ => rfl))))

theorem kept_execMma {w : RWord} (h : Keeps r s) : Ends r (execMma w s) := kept_singleOp h

theorem kept_execMcma {w : RWord} (h : Keeps r s) : Ends r (execMcma w s) := kept_singleOp h

theorem kept_engineStore {flat n v : Nat} (h : Keeps r s) : Keeps r (engineStore s flat n v) :=
  kept_foldl (fun _ _ h1 => kept_setFull h1) (kept_writeBytes (h.trans busy_endOlder.keeps))

theorem kept_opStore {f flat n v : Nat} (h : Keeps r s) : Keeps r (opStore s f flat n v) := kept_with (kept_engineStore h)

theorem kept_imageMove {i : Instr} {store : Bool} {w : RWord} (h : Keeps r s) : Ends r (imageMove i store w s) := by
  unfold imageMove
  refine kept_withMatrix h ?_
  intro _ _ _ h1
  refine kept_withEntry h1 ?_
  intro _ _ h2
  dsimp only
  split
  · exact kept_finishWaiting (kept_deliver h2)
  · exact kept_ite (kept_finishWaiting (kept_deliver (kept_opStore h2))) (kept_ite (kept_finishWaiting (kept_deliver
        (kept_logPoison h2))) (kept_finishWaiting (kept_deliver (kept_setAcc h2))))

theorem kept_execMlda {w : RWord} (h : Keeps r s) : Ends r (execMlda w s) := kept_imageMove h

theorem kept_execMsta {w : RWord} (h : Keeps r s) : Ends r (execMsta w s) := kept_imageMove h

theorem kept_armedWait {f : Nat} (h : Keeps r s) : Keeps r (armedWait f s) := kept_setEnd (kept_modCtx (kept_writeFrame h))

theorem kept_ringAgain {op : Nat} {w : RWord} {body : Nat → State → State} {first : State → Out} (h : Keeps r s)
    (hb : ∀ f s, Keeps r s → Keeps r (body f s)) (hf : ∀ s, Keeps r s → Ends r (first s)) : Ends r
        (ringAgain op w s body first) := by
  unfold ringAgain
  split
  · exact hf _ h
  · split
    · exact hf _ h
    · split
      · exact ends_next (hb _ _ h)
      · exact hf _ (kept_ite h (kept_withdrawArm h))

theorem kept_ringIssue {i : Instr} {op : Nat} {w : RWord} (h : Keeps r s) : Ends r (ringIssue i op w s) := by
  unfold ringIssue
  refine kept_ringAgain h ?_ ?_
  · intro _ _ h1
    refine kept_matrixStart h1 ?_
    intro _ _ _ h2
    dsimp only
    split
    · exact kept_ite (kept_withEntry h2 (fun _ _ h3 => kept_finishWaiting (kept_modCore h3 (fun _ => rfl)))) (kept_hold h2)
    · exact kept_ite (kept_withEntry h2 (fun _ _ h3 => kept_finishWaiting (kept_deliver h3))) (kept_ite (kept_hold h2)
          (kept_ite (kept_armedWait (kept_modCore h2 (fun _ => rfl))) (kept_hold (kept_modCore h2 (fun _ => rfl)))))
  · intro _ h1
    refine kept_withMatrix h1 ?_
    intro _ _ _ h2
    dsimp only
    split
    · exact kept_ite (kept_withEntry h2 (fun _ _ h3 => kept_finishWaiting (kept_modCore h3 (fun _ => rfl)))) (kept_hold h2)
    · exact kept_ite (kept_withEntry h2 (fun _ _ h3 => kept_finishWaiting (kept_deliver h3))) (kept_ite (kept_hold h2)
          (kept_ite (kept_armedWait (kept_modCore h2 (fun _ => rfl))) (kept_hold (kept_modCore h2 (fun _ => rfl)))))

theorem kept_execMarm {w : RWord} (h : Keeps r s) : Ends r (execMarm w s) := kept_ringIssue h

theorem kept_leaderIssue {i : Instr} {op : Nat} {w : RWord} (h : Keeps r s) : Ends r (leaderIssue i op w s) := by
  unfold leaderIssue
  split
  · split
    · exact ends_refused
    · exact ends_next (kept_trapNow h)
  · exact kept_ringIssue h

theorem kept_execMgang {w : RWord} (h : Keeps r s) : Ends r (execMgang w s) := kept_leaderIssue h

theorem kept_execMring {w : RWord} (h : Keeps r s) : Ends r (execMring w s) := kept_leaderIssue h

theorem kept_loadMember {core : Nat} {lead m : MxOp} (h : Keeps r s) : Keeps r (loadMember s core lead m) := by
  unfold loadMember
  dsimp only
  split
  · exact h
  · refine kept_ite ?_ ?_
    · exact kept_modCore h fun _ => rfl
    · split
      · exact kept_modCore h fun _ => rfl
      · split
        · exact kept_modCore h fun _ => rfl
        · exact kept_ite (kept_modCore (kept_logPoison h) (fun _ => rfl)) (kept_modCore (kept_modCore h (fun _ => rfl))
              (fun _ => rfl))

theorem kept_execGangStart {core : Nat} (h : Keeps r s) : Ends r (execGangStart core s) := by
  unfold execGangStart
  refine ends_next ?_
  split
  · exact h
  · refine kept_ite ?_ ?_
    · refine kept_foldl ?_ h
      intro _ _ h1
      split
      · exact kept_loadMember h1
      · exact h1
    · exact h

theorem kept_abortRing {step : Nat} {ms : List (Nat × Option MxOp)} {fails : List (Nat × Failure)} (h : Keeps r s) :
    Keeps r (abortRing s step ms fails) := by
  unfold abortRing
  refine kept_foldl ?_ h
  intro _ _ h1
  split
  · exact h1
  · split
    · exact kept_endOp h1
    · exact kept_endOp h1

theorem kept_completeRing {step : Nat} {ms : List (Nat × Option MxOp)} (h : Keeps r s) : Keeps r (completeRing s step ms) := by
  unfold completeRing
  refine kept_foldl ?_ h
  intro _ _ h1
  split
  · exact h1
  · exact kept_endOp h1

theorem kept_hopTiles {cs : List Nat} (h : Keeps r s) : Keeps r (hopTiles s cs) :=
  kept_foldl (fun _ _ h1 => kept_modCore h1 (fun _ => rfl)) h

theorem kept_reportFail {m : MxOp} {z : Failure} (h : Keeps r s) : Keeps r (reportFail s m z).1 := by
  unfold reportFail
  split
  · exact kept_logPoison h
  · exact h

theorem kept_applyStep {core : Nat} {x : Ctx} {m : MxOp} {first single : Bool} {a : Nat × Nat × Nat} (h : Keeps r s) :
    Keeps r (applyStep s core x m first single a) :=
  kept_setAcc h

theorem kept_stepSingle {core : Nat} {m : MxOp} (h : Keeps r s) : Keeps r (stepSingle s core m) := by
  unfold stepSingle
  dsimp only
  split
  · exact kept_modCore h fun _ => rfl
  · split
    · exact kept_endOp (kept_reportFail h)
    · exact kept_ite (kept_modCore (kept_applyStep h) (fun _ => rfl)) (kept_endOp (kept_applyStep h))

theorem kept_gangFails {k : Nat} {first : Bool} {ms : List (Nat × Option MxOp)} (h : Keeps r s) :
    Keeps r (gangFails s k first ms).1 := by
  unfold gangFails
  refine kept_foldl_fst (fun a _ h => ?_) h
  split
  · exact h
  · split
    · exact h
    · split
      · exact h
      · split
        · exact h
        · exact kept_reportFail h

theorem kept_stepGang {lead : MxOp} {ms : List (Nat × Option MxOp)} (h : Keeps r s) : Keeps r (stepGang s lead ms) := by
  unfold stepGang
  refine kept_ite ?_ ?_
  · exact kept_modCore (kept_hopTiles h) fun _ => rfl
  · refine kept_ite ?_ ?_
    · exact kept_abortRing (kept_gangFails h)
    · refine kept_ite ?_ ?_
      · refine kept_modCore ?_ fun _ => rfl
        refine kept_hopTiles ?_
        refine kept_foldl ?_ h
        intro _ _ h1
        split
        · exact h1
        · split
          · exact h1
          · split
            · exact kept_applyStep h1
            · exact h1
      · refine kept_completeRing ?_
        refine kept_foldl ?_ h
        intro _ _ h1
        split
        · exact h1
        · split
          · exact h1
          · split
            · exact kept_applyStep h1
            · exact h1

theorem kept_landRing {ms : List (Nat × Option MxOp)} (h : Keeps r s) : Keeps r (landRing s ms) := by
  unfold landRing
  refine kept_foldl ?_ h
  intro _ _ h1
  dsimp only
  split
  · exact h1
  · split
    · exact h1
    · split
      · exact kept_opStore h1
      · exact h1

theorem kept_stepRing {lead : MxOp} {ms : List (Nat × Option MxOp)} (h : Keeps r s) : Keeps r (stepRing s lead ms) :=
  kept_ite (kept_abortRing h) (kept_ite (kept_modCore (kept_hopTiles h) (fun _ => rfl)) (kept_completeRing (kept_landRing
      (kept_hopTiles h))))

theorem kept_execMatrixStep {core : Nat} (h : Keeps r s) : Ends r (execMatrixStep core s) := by
  unfold execMatrixStep
  refine ends_next ?_
  dsimp only
  split
  · exact h
  · refine kept_ite ?_ ?_
    · exact h
    · refine kept_ite ?_ ?_
      · exact kept_stepSingle h
      · refine kept_ite ?_ ?_
        · split
          · exact kept_ite h (kept_abortRing h)
          · exact kept_abortRing h
        · exact kept_ite (kept_abortRing h) (kept_ite h (kept_ite (kept_stepGang h) (kept_stepRing h)))

theorem kept_xlateParts {xl : State → Nat → State × Found} {l : List (Nat × Nat)} (hx : ∀ s a, Keeps r s → Keeps r (xl s a).1)
    (h : Keeps r s) : Keeps r (xlateParts xl l s).1 := by
  induction l generalizing s with
  | nil => exact h
  | cons a rest ih =>
    rw [xlateParts]
    split
    · next e => exact kept_fst (hx _ _ h) e
    · next e =>
      have h1 := ih (kept_fst (hx _ _ h) e)
      split
      · next e1 => exact kept_fst h1 e1
      · next e1 => exact kept_fst h1 e1

theorem kept_notePage {p : Page} (h : Keeps r s) : Keeps r (notePage s p) :=
  kept_foldl (fun _ _ h1 => h1.trans (busy_noteSlice _).keeps) h

theorem kept_nodeRange {x : Ctx} {f : Nat} {pc : Word} {g : Seg} {ptr n : Nat} (h : Keeps r s) :
    Keeps r (nodeRange s x f pc g ptr n).1 := by
  unfold nodeRange
  split
  · exact h
  · split
    · next e1 => exact kept_fst (kept_xlateParts (fun _ _ h1 => h1.trans busy_engineXlate.keeps) h) e1
    · next e1 =>
        split
        · exact kept_fst (kept_xlateParts (fun _ _ h1 => h1.trans busy_engineXlate.keeps) h) e1
        · split
          · exact kept_logPoison (kept_fst (kept_xlateParts (fun _ _ h2 => h2.trans busy_engineXlate.keeps) h) e1)
          · exact kept_fst (kept_xlateParts (fun _ _ h2 => h2.trans busy_engineXlate.keeps) h) e1

theorem kept_readNode {x : Ctx} {f : Nat} {pc : Word} {g : Seg} {ty d ptr : Nat} (h : Keeps r s) :
    Keeps r (readNode s x f pc g ty d ptr).1 := by
  unfold readNode
  dsimp only
  split
  · exact h
  · split
    · exact h
    · split
      · next e => exact kept_fst (kept_nodeRange h) e
      · next e =>
          split
          · exact kept_foldl (fun _ _ h4 => kept_notePage h4) (kept_fst (kept_nodeRange h) e)
          · split
            · next e1 => exact kept_fst (kept_nodeRange (kept_foldl (fun _ _ h4 => kept_notePage h4) (kept_fst
                  (kept_nodeRange h) e))) e1
            · next e1 =>
                split
                · exact kept_fst (kept_nodeRange (kept_foldl (fun _ _ h4 => kept_notePage h4) (kept_fst
                      (kept_nodeRange h) e))) e1
                · exact kept_foldl (fun _ _ h4 => kept_notePage h4) (kept_fst (kept_nodeRange (kept_foldl
                      (fun _ _ h4 => kept_notePage h4) (kept_fst (kept_nodeRange h) e))) e1)

theorem kept_putEntries {f a i : Nat} {os ns : List WEntry} (h : Keeps r s) : Keeps r (putEntries s f a i os ns) := by
  induction os generalizing s i ns with
  | nil => exact h
  | cons o os ih =>
    cases ns with
    | nil => exact h
    | cons n ns => exact ih (kept_ite h (kept_opStore h))

theorem kept_walkBoundary {core : Nat} {k : WalkOp} (h : Keeps r s) : Keeps r (walkBoundary s core k) :=
  kept_ite (kept_settleEnd (kept_deliver (kept_modCore h (fun _ => rfl)))) (kept_modCore h (fun _ => rfl))

theorem kept_walkStart {i : Instr} {resume : Bool} {w : RWord} (h : Keeps r s) : Ends r (walkStart i resume w s) := by
  unfold walkStart
  refine kept_withMatrix h ?_
  intro _ _ _ h1
  refine kept_withEntry h1 ?_
  intro _ _ h2
  dsimp only
  split
  · exact kept_finishWaiting (kept_deliver (kept_ite (kept_logPoison h2) h2))
  · exact kept_finishWaiting (kept_walkBoundary (kept_ite (kept_putEntries h2) (kept_foldl (fun _ _ h3 => kept_opStore h3) h2)))

theorem kept_execWalk {w : RWord} (h : Keeps r s) : Ends r (execWalk w s) := kept_walkStart h

theorem kept_execWalkResume {w : RWord} (h : Keeps r s) : Ends r (execWalkResume w s) := kept_walkStart h

theorem kept_execWstat {w : RWord} (h : Keeps r s) : Ends r (execWstat w s) := by
  unfold execWstat
  refine kept_withMatrix h ?_
  intro _ _ _ h1
  refine kept_withEntry h1 ?_
  intro _ _ h2
  dsimp only
  split
  · exact kept_finishWaiting (kept_deliver h2)
  · exact kept_ite (kept_finishWaiting (kept_deliver (kept_logPoison h2))) (kept_finishWaiting (kept_deliver h2))

theorem kept_execWchk {w : RWord} (h : Keeps r s) : Ends r (execWchk w s) :=
  kept_withMatrix h (fun _ _ _ h1 => kept_ite (kept_hold h1) (kept_withEntry h1 (fun _ _ h2 => kept_finishWaiting
      (kept_deliver (kept_readNode h2)))))

theorem kept_walkGroup {x : Ctx} {k : WalkOp} {a : State × List WEntry} {ptr : Nat} (h : Keeps r a.1) :
    Keeps r (walkGroup x k a ptr).1 := by
  unfold walkGroup
  dsimp only
  split
  · exact kept_readNode h
  · refine kept_foldl (fun _ _ h => ?_) (kept_readNode h)
    split
    · exact kept_opStore h
    · exact h

theorem kept_walkGroups {x : Ctx} {k : WalkOp} (h : Keeps r s) : Keeps r (walkGroups x k s).1 := by
  unfold walkGroups
  refine kept_foldl_fst (fun a _ h => ?_) h
  exact kept_walkGroup (a := (a.1, k.entries)) h

theorem kept_execWalkRound {core : Nat} (h : Keeps r s) : Ends r (execWalkRound core s) := by
  unfold execWalkRound
  refine ends_next ?_
  dsimp only
  split
  · exact h
  · split
    · exact kept_modCore h fun _ => rfl
    · exact kept_ite (kept_walkBoundary h) (kept_ite h (kept_walkBoundary (kept_setAcc (kept_putEntries (kept_walkGroups h)))))

end

end Sys2Proof.Laws

namespace Sys2Proof.Laws
/-! Canonical memory and whole banks are kept: the copy engine and the events of a switch. -/

open Sys2Proof.Machine

section
variable {r s t : State}

theorem kept_setCopyRec {core bind tag : Nat} {g : CopyRec → CopyRec} (h : Keeps r s) : Keeps r
    (setCopyRec s core bind tag g) :=
  kept_ite h (kept_modTask h)

theorem kept_copyCommand {i : Instr} {op : Nat} {w : RWord} {specs : List (BitVec 8)} (h : Keeps r s) :
    Ends r (copyCommand i op w specs s) := by
  unfold copyCommand
  refine kept_withIssue h ?_
  intro _ _ h1
  dsimp only
  split
  · exact h1
  · exact kept_ite (kept_trapNow h1) (kept_ite (kept_hold h1) (kept_finish (kept_modCore (kept_setCopyRec
        (kept_setTag h1)) (fun _ => rfl))))

theorem kept_execCpy {w : RWord} (h : Keeps r s) : Ends r (execCpy w s) := kept_copyCommand h

theorem kept_execCpy2d {w : RWord} (h : Keeps r s) : Ends r (execCpy2d w s) := kept_copyCommand h

theorem kept_execCgath {w : RWord} (h : Keeps r s) : Ends r (execCgath w s) := kept_copyCommand h

theorem kept_execCscat {w : RWord} (h : Keeps r s) : Ends r (execCscat w s) := kept_copyCommand h

theorem kept_execCfill {w : RWord} (h : Keeps r s) : Ends r (execCfill w s) := kept_copyCommand h

theorem kept_execCswz {w : RWord} (h : Keeps r s) : Ends r (execCswz w s) := kept_copyCommand h

theorem kept_execFemark {w : RWord} (h : Keeps r s) : Ends r (execFemark w s) := kept_copyCommand h

theorem kept_execCstat {w : RWord} (h : Keeps r s) : Ends r (execCstat w s) := by
  unfold execCstat
  refine kept_withIssue h ?_
  intro _ _ h1
  dsimp only
  split
  · exact h1
  · exact kept_ite (kept_trapNow h1) (kept_finishReg h1)

theorem kept_closeCopy {core : Nat} {q : CopyCmd} {g : CopyRec → CopyRec} (h : Keeps r s) : Keeps r (closeCopy s core q g) :=
  kept_setTag (kept_setCopyRec h)

theorem kept_endCopy {core : Nat} {q : CopyCmd} {g : CopyRec → CopyRec} (h : Keeps r s) : Keeps r (endCopy s core q g) :=
  kept_closeCopy (kept_modCore h (fun _ => rfl))

theorem kept_execCcancel {w : RWord} (h : Keeps r s) : Ends r (execCcancel w s) := by
  unfold execCcancel
  refine kept_withIssue h ?_
  intro _ _ h1
  dsimp only
  split
  · exact h1
  · exact kept_ite (kept_trapNow h1) (kept_finishReg (kept_foldl (fun _ _ h2 => kept_closeCopy h2) (kept_modCore h1
        (fun _ => rfl))))

theorem kept_execCopyCommandStart {core : Nat} (h : Keeps r s) : Ends r (execCopyCommandStart core s) := by
  unfold execCopyCommandStart
  refine ends_next ?_
  dsimp only
  split
  · exact h
  · refine kept_ite ?_ ?_
    · exact h
    · split
      · exact kept_endCopy h
      · exact kept_endCopy h
      · exact kept_modCore h fun _ => rfl

theorem kept_copyXlate {core : Nat} {q : CopyCmd} {va : Nat} (h : Keeps r s) : Keeps r (copyXlate s core q va).1 := by
  unfold copyXlate
  split
  · exact h.trans busy_engineXlate.keeps
  · exact h.trans busy_portXlate.keeps

theorem kept_pagedRange {core : Nat} {q : CopyCmd} {r1 : CopyRange} {a : Nat} (h : Keeps r s) :
    Keeps r (pagedRange s core q r1 a).1 := by
  unfold pagedRange
  split
  · next e => exact kept_fst (kept_xlateParts (fun _ _ h1 => kept_copyXlate h1) h) e
  · next e =>
      split
      · exact kept_fst (kept_xlateParts (fun _ _ h1 => kept_copyXlate h1) h) e
      · split
        · exact kept_fst (kept_xlateParts (fun _ _ h2 => kept_copyXlate h2) h) e
        · split
          · exact kept_fst (kept_xlateParts (fun _ _ h3 => kept_copyXlate h3) h) e
          · split
            · exact kept_fst (kept_xlateParts (fun _ _ h4 => kept_copyXlate h4) h) e
            · exact kept_fst (kept_xlateParts (fun _ _ h5 => kept_copyXlate h5) h) e

theorem kept_checkRange {core : Nat} {q : CopyCmd} {r1 : CopyRange} (h : Keeps r s) : Keeps r (checkRange s core q r1).1 := by
  unfold checkRange
  split
  · exact h
  · split
    · exact h
    · split
      · exact h
      · split
        · exact h
        · split
          · exact h
          · split
            · exact kept_pagedRange h
            · exact h
            · exact h
            · exact h

theorem kept_windowRead1 {core : Nat} {q : CopyCmd} {a u off : Nat} (h : Keeps r s) : Keeps r
    (windowRead1 s core q a u off).1 := by
  unfold windowRead1
  dsimp only
  split
  · split
    · exact kept_logPoisonFor h
    · exact h
  · split
    · split
      · exact kept_setFifo h
      · exact h
    · exact h
  · split
    · exact h
    · exact h
  · exact h

theorem kept_windowRead {core u n a off : Nat} {q : CopyCmd} (h : Keeps r s) : Keeps r (windowRead core q u n a off s).1 := by
  induction n generalizing s a off with
  | zero => exact h
  | succ n ih =>
    rw [windowRead]
    split
    · next e => exact kept_fst (kept_windowRead1 h) e
    · next e =>
      have h1 := ih (a := a + u) (off := off + u) (kept_fst (kept_windowRead1 h) e)
      split
      · next e1 => exact kept_fst h1 e1
      · next e1 => exact kept_fst h1 e1

theorem kept_readPlace {core : Nat} {q : CopyCmd} {p : Place} {n off : Nat} (h : Keeps r s) :
    Keeps r (readPlace s core q p n off).1 := by
  unfold readPlace
  dsimp only
  split
  · split
    · exact kept_logPoisonFor h
    · exact h
  · split
    · exact kept_logPoisonFor h
    · exact kept_foldl (fun _ _ h1 => kept_notePage h1) h
  · exact kept_windowRead h

theorem kept_withPlace {core : Nat} {q : CopyCmd} {a : CopyRange} {body : State → Place → State × RowEnd} (h : Keeps r s)
    (hb : ∀ s p, Keeps r s → Keeps r (body s p).1) : Keeps r (withPlace s core q a body).1 := by
  unfold withPlace
  split
  · next e => exact kept_fst (kept_checkRange h) e
  · next e => exact kept_fst (kept_checkRange h) e
  · next e =>
    have h1 := kept_fst (kept_checkRange h) e
    split
    · split
      · exact h1
      · exact hb _ _ h1
    · exact hb _ _ h1

theorem kept_withBytes {core : Nat} {q : CopyCmd} {r1 : CopyRange} {p : Place} {body : State → Nat → State × RowEnd}
    (h : Keeps r s) (hb : ∀ s a, Keeps r s → Keeps r (body s a).1) :
    Keeps r (withBytes s core q r1 p body).1 := by
  unfold withBytes
  split
  · next e => exact kept_fst (kept_readPlace h) e
  · next e => exact hb _ _ (kept_fst (kept_readPlace h) e)

theorem kept_finishRow {core : Nat} {q : CopyCmd} {r1 : CopyRange} {p : Place} {oob : Bool} {d : CopyData} (h : Keeps r s) :
    Keeps r (finishRow s core q r1 p oob d).1 :=
  h

theorem kept_moveRow {core : Nat} {q : CopyCmd} {so dof n : Nat} (h : Keeps r s) : Keeps r (moveRow s core q so dof n).1 :=
  kept_withPlace h (fun _ _ h1 => kept_withPlace h1 (fun _ _ h2 => kept_withBytes h2 (fun _ _ h3 => kept_finishRow h3)))

theorem kept_gatherRow {core : Nat} {q : CopyCmd} {i : Nat} (h : Keeps r s) : Keeps r (gatherRow s core q i).1 := by
  unfold gatherRow
  dsimp only
  split
  · exact kept_moveRow h
  · exact kept_withPlace h (fun _ _ h2 => kept_finishRow h2)

theorem kept_scatterRow {core : Nat} {q : CopyCmd} {i : Nat} (h : Keeps r s) : Keeps r (scatterRow s core q i).1 := by
  unfold scatterRow
  dsimp only
  split
  · exact kept_moveRow h
  · exact h

theorem kept_withIndex {core : Nat} {q : CopyCmd} {body : State → CopyCmd → Nat → State × RowEnd} (h : Keeps r s)
    (hb : ∀ s a a1, Keeps r s → Keeps r (body s a a1).1) :
    Keeps r (withIndex s core q body).1 := by
  unfold withIndex
  dsimp only
  split
  · exact kept_withPlace h (fun _ _ h1 => kept_withBytes h1 (fun _ _ h2 => hb _ _ _ h2))
  · exact hb _ _ _ h

theorem kept_linesToTiles {core : Nat} {q : CopyCmd} (h : Keeps r s) : Keeps r (linesToTiles s core q).1 := by
  unfold linesToTiles
  refine kept_withPlace h ?_
  intro _ _ h1
  dsimp only
  split
  · exact kept_withPlace h1 (fun _ _ h2 => kept_withPlace h2 (fun _ _ h3 => kept_withBytes h3 (fun _ _ h4 => h4)))
  · exact kept_withPlace h1 (fun _ _ h3 => kept_withBytes h3 (fun _ _ h4 => h4))

theorem kept_tilesToLines {core : Nat} {q : CopyCmd} (h : Keeps r s) : Keeps r (tilesToLines s core q).1 := by
  unfold tilesToLines
  refine kept_withPlace h ?_
  intro _ _ h1
  dsimp only
  split
  · refine kept_withPlace h1 ?_
    intro _ _ h2
    split
    · exact kept_logPoisonFor h2
    · exact kept_withBytes h2 (fun _ _ h3 => kept_finishRow h3)
  · refine kept_withPlace h1 ?_
    intro _ _ h3
    refine kept_withPlace h3 ?_
    intro _ _ h4
    split
    · exact kept_logPoisonFor h4
    · exact kept_withBytes h4 (fun _ _ h5 => kept_finishRow h5)

theorem kept_copyOne {core : Nat} {q : CopyCmd} (h : Keeps r s) : Keeps r (copyOne s core q).1 := by
  unfold copyOne
  dsimp only
  split
  · exact kept_moveRow h
  · split
    · exact kept_linesToTiles h
    · split
      · exact kept_tilesToLines h
      · exact kept_moveRow h
  · exact kept_withIndex h (fun _ _ _ h1 => kept_gatherRow h1)
  · exact kept_withIndex h (fun _ _ _ h1 => kept_scatterRow h1)
  · exact kept_withPlace h (fun _ _ h1 => kept_finishRow h1)
  · exact kept_ite h (kept_modTask h)
  · exact kept_withPlace h (fun _ _ h1 => kept_finishRow h1)

theorem kept_setHead {core : Nat} {q : CopyCmd} (h : Keeps r s) : Keeps r (setHead s core q) := kept_modCore h fun _ => rfl

theorem kept_finishHand {core : Nat} {q : CopyCmd} {h1 : RowInHand} (h : Keeps r s) : Keeps r (finishHand s core q h1) :=
  kept_setHead (kept_setCopyRec h)

theorem kept_windowPut {core a : Nat} {v : Option Word} (h : Keeps r s) (e : windowPut s core a v = .done t) : Keeps r t := by
  have ht {flat : Nat} {p : Prop} [Decidable p] (u : State) (hu : Keeps r u) :
      Keeps r (if p then traceRecord u (winCluster a) core 0 3 0 (flat % 2 ^ 64) else u) := kept_ite (kept_traceRecord hu) hu
  unfold windowPut at e
  dsimp only at e
  split at e
  · cases e
  · cases e
    exact ht _ (kept_engineStore h)
  · cases e
    exact ht _ (kept_setFull h)
  · split at e
    · cases e
    · cases e
      exact ht _ (kept_setFifo h)
  · cases e

theorem kept_takePut {core : Nat} {p : Put} (h : Keeps r s) (e : takePut s core p = .done t) : Keeps r t := by
  cases p with
  | near =>
    cases e
    exact kept_engineStore h
  | empty =>
    cases e
    exact kept_setFull h
  | paged =>
    unfold takePut at e
    dsimp only at e
    split at e
    · cases e
    · split at e
      · cases e
      · cases e
        exact h.trans (busy_homeWriteIn _ _).keeps
  | window => exact kept_windowPut h e

theorem kept_writeHand {core : Nat} {q : CopyCmd} {a : RowInHand} (h : Keeps r s) : Keeps r (writeHand s core q a) := by
  unfold writeHand
  split
  · exact kept_finishHand h
  · split
    · next e => exact kept_setHead (kept_takePut h e)
    · exact h
    · exact kept_endCopy h

theorem kept_execCopyRow {core : Nat} (h : Keeps r s) : Ends r (execCopyRow core s) := by
  unfold execCopyRow
  refine ends_next ?_
  split
  · exact h
  · refine kept_ite ?_ ?_
    · exact h
    · split
      · exact kept_writeHand h
      · refine kept_ite ?_ ?_
        · exact kept_endCopy h
        · refine kept_ite ?_ ?_
          · exact kept_endCopy h
          · split
            · exact h
            · next e2 => exact kept_endCopy (kept_fst (kept_copyOne h) e2)
            · next e2 => exact kept_setHead (kept_fst (kept_copyOne h) e2)

theorem kept_execTimeSliceEnd {core : Nat} (h : Keeps r s) : Ends r (execTimeSliceEnd core s) := by
  unfold execTimeSliceEnd
  refine ends_next ?_
  dsimp only
  split
  · exact h
  · exact kept_ite h (kept_sliceEnd h)

theorem kept_execPreemptionRequest {core : Nat} (h : Keeps r s) : Ends r (execPreemptionRequest core s) := by
  unfold execPreemptionRequest
  refine ends_next ?_
  refine kept_ite ?_ ?_
  · exact h
  · dsimp only
    split
    · exact h
    · exact kept_modCore (kept_foldl (fun _ _ h1 => kept_setStatus h1) h) fun _ => rfl

theorem kept_countCycles {cl : Nat} (h : Keeps r s) : Keeps r (countCycles s cl) :=
  kept_foldl (fun _ _ h1 => kept_ite (kept_modCore h1 (fun _ => rfl)) h1) h

theorem kept_execGraceWindowExpiry {core : Nat} (h : Keeps r s) : Ends r (execGraceWindowExpiry core s) := by
  unfold execGraceWindowExpiry
  refine ends_next ?_
  dsimp only
  split
  · exact h
  · exact kept_ite h (kept_takePreempt (kept_modCore (kept_foldl (fun _ _ h1 => kept_modCtx h1) h) (fun _ => rfl)))

/-- A bank loaded into the place of another, and what its slot reads noted. -/
theorem kept_execShadowBankLoadComplete {core slot : Nat} (h : Keeps r s) : Ends r
    (execShadowBankLoadComplete core slot s) := by
  refine ends_next ?_
  dsimp only
  split
  · exact h
  · refine kept_ite h (kept_modCore ?_ fun _ => rfl)
    split
    · exact kept_putBanks (h.trans busy_devRead.keeps) fun _ ha _ => ⟨ha, Bool.or_eq_true_iff.mpr (.inr (beq_self_eq_true _))⟩
    · exact h

theorem kept_execBankExchange {core : Nat} (h : Keeps r s) : Ends r (execBankExchange core s) := by
  unfold execBankExchange
  refine ends_next ?_
  dsimp only
  split
  · exact h
  · exact kept_ite (kept_dispatchFree (kept_exchange h)) h

theorem kept_execSpillComplete {core slot : Nat} (h : Keeps r s) : Ends r (execSpillComplete core slot s) := by
  refine ends_next ?_
  dsimp only
  split
  · exact h
  · split
    · exact h
    · exact kept_ite h (kept_putBanks (kept_spillBank h) fun _ ha _ => ⟨ha, rfl⟩)

theorem kept_accTargets {core b : Nat} {l : List Nat} {ts : List Target} (h : Keeps r s) (e : accTargets core b l s = some
    (t, ts)) :
    Keeps r t := by
  induction l generalizing s t ts with
  | nil =>
    cases e
    exact h
  | cons n rest ih =>
    rw [accTargets] at e
    dsimp only at e
    split at e
    · cases e
    · split at e
      · next e1 =>
        split at e
        · obtain ⟨p, hp, hq⟩ := Option.map_eq_some_iff.mp e
          cases hq
          exact ih (kept_fst (h.trans busy_portXlate.keeps) e1) hp
        · cases e
      · cases e

theorem kept_execAccumulatorSave {core : Nat} (h : Keeps r s) : Ends r (execAccumulatorSave core s) := by
  refine ends_next ?_
  split
  · split
    · exact h
    · next e =>
      refine kept_modTask (kept_modCore (kept_foldl (fun _ _ h => ?_) (kept_accTargets h e)) fun _ => rfl)
      exact h.trans (busy_homeWrite _ _).keeps
  · exact h

theorem kept_execAccumulatorRestore {core : Nat} (h : Keeps r s) : Ends r (execAccumulatorRestore core s) := by
  refine ends_next ?_
  split
  · refine kept_ite (kept_modCore h fun _ => rfl) ?_
    split
    · exact h
    · next e =>
      refine kept_modCore (kept_foldl (fun _ _ h => ?_) (kept_accTargets h e)) fun _ => rfl
      exact h.trans (busy_noteSlice _).keeps
  · exact h

theorem kept_execContextSavedReport {frame : Nat} (h : Keeps r s) : Ends r (execContextSavedReport frame s) := by
  unfold execContextSavedReport
  refine ends_next ?_
  dsimp only
  split
  · exact h
  · exact kept_ite (kept_modCtx h) h

theorem kept_execMailboxPost (h : Keeps r s) : Ends r (execMailboxPost s) := by
  unfold execMailboxPost
  refine ends_next ?_
  dsimp only
  split
  · exact h
  · exact kept_pushMsg (kept_modPart ((kept_with h).trans (busy_homeWrite _ _).keeps))

theorem kept_replayAccess {f k : Nat} {r1 : Req} {t : Target} (h : Keeps r s) : Keeps r (replayAccess s f k r1 t) :=
  kept_ite (kept_freeRing h) (kept_with h)

theorem kept_replayEntry {part f k : Nat} (h : Keeps r s) : Keeps r (replayEntry part f s k) := by
  unfold replayEntry
  refine kept_ite ?_ ?_
  · exact h
  · dsimp only
    split
    · exact kept_freeRing h
    · split
      · next e1 => exact kept_postFault ((kept_fst (h.trans busy_portXlate.keeps) e1).trans (busy_homeWrite _ _).keeps)
      · next e2 =>
          split
          · exact kept_postFault ((kept_fst (h.trans busy_portXlate.keeps) e2).trans (busy_homeWrite _ _).keeps)
          · exact kept_replayAccess (kept_fst (h.trans busy_portXlate.keeps) e2)

theorem kept_freeAll {f : Nat} {marks : Req → List RegWrite} {ks : List Nat} (h : Keeps r s) : Keeps r
    (freeAll s f marks ks) := by
  unfold freeAll
  refine kept_foldl ?_ h
  intro _ _ h1
  dsimp only
  split
  · exact kept_reqResult (kept_freeRing h1)
  · exact kept_freeRing h1

theorem kept_declineEntries {f : Nat} (h : Keeps r s) : Keeps r (declineEntries f s) := by
  unfold declineEntries
  dsimp only
  split
  · exact h
  · split
    · exact kept_freeRing h
    · exact kept_ite (kept_freeAll h) (kept_takeTrap (kept_freeAll h))

theorem kept_replayRing {part f : Nat} (h : Keeps r s) : Keeps r (replayRing s part f) := by
  unfold replayRing
  exact kept_resumeTask (kept_declineEntries (kept_foldl (fun _ _ h1 => kept_replayEntry h1) (kept_foldl
      (fun _ _ h1 => h1.trans (busy_noteSlice _).keeps) (kept_noteFrame h))))

theorem kept_unpark {f : Nat} {x : Ctx} {skip : Bool} {value : Word} (h : Keeps r s) : Keeps r (unpark s f x skip value) := by
  unfold unpark
  dsimp only
  split
  · exact h
  · exact kept_modCtx (kept_writeFrame h)
  · refine kept_ite ?_ ?_
    · split
      · exact kept_modCtx (kept_writeReg h)
      · exact kept_modCtx (kept_sendResult (kept_openEntry h))
    · exact kept_modCtx (kept_writeFrame h)

theorem kept_dispatchAll (h : Keeps r s) : Keeps r (dispatchAll s) := kept_foldl (fun _ _ h1 => kept_dispatchFree h1) h

theorem kept_freeAnswered {f : Nat} (h : Keeps r s) : Keeps r (freeAnswered s f) := by
  unfold freeAnswered
  dsimp only
  split
  · exact h
  · split
    · exact kept_ite h (kept_setStatus (kept_modCtx (kept_setJentry h)))
    · exact h

theorem kept_some (h : Keeps r s) (e : some s = some t) : Keeps r t := Option.some.inj e ▸ h

theorem kept_applyReply {part f action : Nat} {x : Ctx} {value : Word} (h : Keeps r s)
    (e : applyReply s part f x action value = some t) : Keeps r t := by
  have h1 := kept_freeAnswered (f := f) h
  unfold applyReply at e
  split at e
  · exact kept_some (kept_replayRing (kept_unpark h1)) e
  · exact kept_some (kept_resumeTask (kept_unpark (kept_freeAnswered (kept_freeAll h)))) e
  · split at e
    · cases e
    · exact kept_some (kept_resumeTask (kept_modCtx (kept_takeTrap (kept_setStatus (kept_freeAll h1))))) e
  · exact kept_some (kept_dispatchAll (kept_killContext h)) e
  · exact kept_some (kept_dispatchAll (kept_killLaunch h)) e
  · cases e

theorem kept_execFaultReply {part : Nat} (h : Keeps r s) : Ends r (execFaultReply part s) := by
  refine ends_next ?_
  dsimp only
  refine kept_ite h ?_
  have h1 : Keeps r (noteSlice (noteSlice s (dramTarget (partOf s part).replyTail))
      (dramTarget ((partOf s part).replyRing + 32 * ((partOf s part).replyHead % 4096)))) :=
    (h.trans (busy_noteSlice _).keeps).trans (busy_noteSlice _).keeps
  have h2 := kept_modPart (n := part) (F := fun p => { p with replyHead := ((partOf s part).replyHead % 4096 + 1) % 4096 }) h1
  split
  · next e =>
    split at e
    · cases e
    · obtain ⟨q, -, hq⟩ := Option.bind_eq_some_iff.mp e
      exact kept_applyReply (kept_noteFrame (kept_noteFrame h2)) hq
  · exact kept_modPart h2

end

end Sys2Proof.Laws

namespace Sys2Proof.Laws
/-! Canonical memory and whole banks are kept: launches, links and the management core. -/

open Sys2Proof.Machine

section
variable {r s t : State}

theorem kept_writeFresh {f : Nat} {ws : List (Nat × Word)} (h : Keeps r s) : Keeps r (writeFresh s f ws) :=
  kept_foldl (fun _ _ h1 => kept_writeStored h1) (h.trans busy_devClear.keeps)

theorem kept_bindTask {core b : Nat} {t : Machine.Task} {r1 : Machine.Bind} {pc : Word} {gs : List Word}
    {twin : Option Nat} (h : Keeps r s) :
    Keeps r (bindTask s core b t r1 pc gs twin) := by
  unfold bindTask
  dsimp only
  split
  · exact kept_setCtx (kept_writeFresh (kept_setCtx (kept_writeFresh (kept_modBind (kept_modTask h)))))
  · exact kept_setCtx (kept_writeFresh (kept_modBind (kept_modTask h)))

theorem kept_refuseLaunch {l : Launch} {cause : Nat} (h : Keeps r s) : Keeps r (refuseLaunch s l cause) := kept_completeLaunch h

theorem kept_twinFrame {l : Launch} {fs : List Nat} {o : Option Nat} (h : Keeps r s) (e : twinFrame s l fs = some (o, t)) :
    Keeps r t := by
  unfold twinFrame at e
  split at e
  · cases e
    exact h
  · split at e
    · obtain ⟨p, hp, hq⟩ := Option.map_eq_some_iff.mp e
      cases hq
      exact kept_takePool h hp
    · cases e
      exact h

theorem kept_placeTask {l m : Launch} {i b : Nat} {state : BitVec 3} (h : Keeps r s) (e : placeTask s l i b state = some
    (t, m)) :
    Keeps r t := by
  unfold placeTask at e
  dsimp only at e
  obtain ⟨p, hp, hq⟩ := Option.map_eq_some_iff.mp e
  cases hq
  exact kept_bindTask (kept_twinFrame h hp)

theorem kept_placeReady {die : Nat} {l : List Nat} {m : Launch} (h : Keeps r s) : Keeps r (placeReady die l s m).1 := by
  induction l generalizing s m with
  | nil => exact h
  | cons i rest ih =>
    rw [placeReady]
    split
    · exact ih h
    · split
      · exact ih h
      · next e =>
        obtain ⟨b, -, hb⟩ := Option.bind_eq_some_iff.mp e
        exact ih (kept_placeTask h hb)

theorem kept_placeAll {l : List Nat} {m m' : Launch} (h : Keeps r s) (e : placeAll l s m = some (t, m')) : Keeps r t := by
  induction l generalizing s m with
  | nil =>
    cases e
    exact h
  | cons i rest ih =>
    rw [placeAll] at e
    split at e
    · cases e
    · next e1 =>
      obtain ⟨b, -, hb⟩ := Option.bind_eq_some_iff.mp e1
      exact ih (kept_placeTask h hb) e

theorem kept_placeGang {l m : Launch} (h : Keeps r s) (e : placeGang s l = some (t, m)) : Keeps r t := by
  unfold placeGang at e
  dsimp only at e
  split at e
  · exact kept_placeAll h e
  · cases e

theorem kept_advanceLaunch {l : Launch} (h : Keeps r s) : Keeps r (advanceLaunch s l) := by
  unfold advanceLaunch
  extract_lets s6
  have h6 : (∀ u, s6 = .error u → Keeps r u) ∧ ∀ u m, s6 = .ok (u, m) → Keeps r u := by
    refine ⟨fun u e => ?_, fun u m e => ?_⟩
    · unfold s6 at e
      split at e
      · cases e
      · split at e
        · cases e
          exact h
        · split at e
          · cases e
            exact kept_refuseLaunch h
          · cases e
    · unfold s6 at e
      split at e
      · cases e
        exact h
      · split at e
        · cases e
        · split at e
          · cases e
          · cases e
            exact h
  clear_value s6
  obtain ⟨h6e, h6o⟩ := h6
  cases s6 with
  | error u => exact h6e u rfl
  | ok p =>
    obtain ⟨u, m⟩ := p
    have hu := h6o u m rfl
    clear h6e h6o
    dsimp -zeta only
    extract_lets n s7
    have h7 : (∀ v, s7 = .error v → Keeps r v) ∧ ∀ v m, s7 = .ok (v, m) → Keeps r v := by
      refine ⟨fun v e => ?_, fun v m e => ?_⟩
      · unfold s7 at e
        split at e
        · cases e
        · split at e
          · cases e
            exact kept_refuseLaunch hu
          · split at e
            · cases e
              exact kept_setLaunch hu
            · cases e
      · unfold s7 at e
        split at e
        · cases e
          exact hu
        · split at e
          · cases e
          · split at e
            · cases e
            · next et =>
              cases e
              exact kept_takePool hu et
    clear_value s7
    obtain ⟨h7e, h7o⟩ := h7
    cases s7 with
    | error v => exact h7e v rfl
    | ok p =>
      obtain ⟨v, m⟩ := p
      have hv := h7o v m rfl
      dsimp only
      refine kept_ite hv ?_
      split
      · split
        · exact kept_setLaunch hv
        · next eg => exact kept_setLaunch (kept_placeGang hv eg)
      · exact kept_foldl (fun _ _ h => kept_dispatchFree h) (kept_setLaunch (kept_placeReady hv))

theorem kept_execLaunchAdmission {die : Nat} (h : Keeps r s) : Ends r (execLaunchAdmission die s) := by
  unfold execLaunchAdmission
  refine ends_next ?_
  dsimp only
  split
  · exact h
  · refine kept_ite ?_ ?_
    · exact h
    · split
      · exact kept_refuseLaunch (kept_modDie h)
      · exact kept_advanceLaunch (kept_with (kept_modDie h))

theorem kept_execAdmissionResume {n : Nat} (h : Keeps r s) : Ends r (execAdmissionResume n s) := by
  unfold execAdmissionResume
  refine ends_next ?_
  split
  · exact h
  · exact kept_ite (kept_advanceLaunch h) h

theorem kept_execGangBindRelease {n : Nat} (h : Keeps r s) : Ends r (execGangBindRelease n s) := by
  unfold execGangBindRelease
  refine ends_next ?_
  dsimp only
  split
  · exact h
  · exact kept_ite h (kept_foldl (fun _ _ h1 => kept_dispatchFree h1) (kept_foldl (fun _ _ h1 => kept_foldl
        (fun _ _ h2 => kept_modBind h2) h1) (kept_setLaunch h)))

theorem kept_execDeadlinePass {n : Nat} (h : Keeps r s) : Ends r (execDeadlinePass n s) := by
  unfold execDeadlinePass
  refine ends_next ?_
  dsimp only
  split
  · exact h
  · exact kept_ite h (kept_ite (kept_dispatchAll (kept_killLaunch (kept_setLaunch (kept_missDeadline h)))) (kept_setLaunch
        (kept_missDeadline h)))

theorem kept_setQueue {q : Nat} {x : HostQueue} (h : Keeps r s) : Keeps r (setQueue s q x) := kept_with h

theorem kept_writeHead {q : Nat} {x : HostQueue} (h : Keeps r s) : Keeps r (writeHead s q x) := h.trans busy_portWrite.keeps

theorem kept_acceptHost {q : Nat} {x : HostQueue} {k : Nat} (h : Keeps r s) : Keeps r (acceptHost q x s k) := by
  unfold acceptHost
  exact kept_modDie (kept_with ((kept_modDie h).trans busy_portWrite.keeps))

theorem kept_acceptFrom {q n : Nat} (h : Keeps r s) : Keeps r (acceptFrom q n s) := by
  induction n generalizing s with
  | zero => exact h
  | succ n ih => exact kept_ite h (ih (kept_setQueue (kept_acceptHost h)))

theorem kept_serveQueue {q : Nat} (h : Keeps r s) : Keeps r (serveQueue s q) := kept_writeHead (kept_acceptFrom h)

theorem kept_serveQueues (h : Keeps r s) : Keeps r (serveQueues s) := kept_foldl (fun _ _ h1 => kept_serveQueue h1) h

theorem kept_execHostDoorbell {queue : Nat} {value : Doorbell} (h : Keeps r s) : Ends r (execHostDoorbell queue value s) :=
  ends_next (kept_ite (kept_with h) (kept_ite (kept_setQueue h) (kept_serveQueue (kept_setQueue h))))

theorem kept_endRecord {status : Nat} (h : Keeps r s) : Keeps r (endRecord s status) :=
  kept_writeHead (kept_setQueue (h.trans busy_portWrite.keeps))

theorem kept_mapPage {die va level k next : Nat} (h : Keeps r s) : Keeps r (mapPage die va level k next s).2 := by
  induction level generalizing s k next with
  | zero =>
    rw [mapPage]
    dsimp only
    generalize (0x210D + va / 2 ^ 16 % 2 ^ 41 * 2 ^ 16 + die % 4 * 2 ^ 84) = e
    exact (h.trans busy_devRead.keeps).trans busy_devWrite.keeps
  | succ level ih =>
    rw [mapPage]
    dsimp only
    split
    · exact ih (h.trans busy_devRead.keeps)
    · generalize (_ % 2 ^ 64 / 2 ^ 16 * 2 ^ 16 + die % 4 * 2 ^ 84 : Nat) = e
      exact ih ((h.trans busy_devRead.keeps).trans busy_devWrite.keeps)

theorem kept_mapPages {die root next : Nat} {l : List Nat} (h : Keeps r s) : Keeps r (mapPages die root l next s) := by
  induction l generalizing s next with
  | nil => exact h
  | cons va rest ih => exact ih (kept_mapPage h)

theorem kept_supervisorTask {r1 : List Nat} {part core frame : Nat} (h : Keeps r s) :
    Keeps r (supervisorTask s r1 part core frame) := by
  unfold supervisorTask
  dsimp only
  split
  · exact kept_takeToken h
  · exact kept_dispatchFree (kept_bindTask (kept_takeToken h))

theorem kept_reserveSluice {die : Nat} (h : Keeps r s) : Keeps r (reserveSluice s die) :=
  kept_ite h (kept_ite h (kept_modCluster (kept_foldl (fun _ _ h1 => kept_ite (kept_setBankMode h1) h1) h)))

theorem kept_repairOutcome {p unit x len status : Nat} {ranges : List (Nat × Nat)} (h : Keeps r s) :
    Keeps r (repairOutcome s p unit x len status ranges) :=
  h.trans logged_logError.keeps

theorem kept_reportUnspared {p : Nat} (h : Keeps r s) : Keeps r (reportUnspared s p) :=
  kept_foldl (fun _ _ h1 => kept_foldl (fun _ _ h2 => kept_repairOutcome h2) (kept_modDie h1)) h

theorem kept_createPartition {r1 : List Nat} (h : Keeps r s) : Keeps r (createPartition s r1) :=
  kept_reportUnspared (kept_supervisorTask (kept_linkFrame ((kept_mapPages (kept_foldl
      (fun _ _ h1 => kept_reserveSluice h1) (kept_foldl (fun _ _ h1 => kept_setQueue h1) (kept_with (kept_modDie
      (h.trans busy_devClear.keeps)))))).trans (busy_writeVirt _).keeps)))

theorem kept_execPartitionCreate (h : Keeps r s) : Ends r (execPartitionCreate s) := by
  unfold execPartitionCreate
  refine ends_next ?_
  dsimp only
  split
  · exact h
  · exact kept_ite h (kept_ite (kept_endRecord h) (kept_ite (kept_endRecord h) (kept_ite (kept_endRecord h) (kept_ite
        (kept_endRecord h) (kept_ite h (kept_endRecord (kept_createPartition h)))))))

theorem kept_killPartition {p : Nat} (h : Keeps r s) : Keeps r (killPartition s p) :=
  kept_foldl (fun _ _ h1 => kept_endTask h1) (kept_foldl (fun _ _ h1 => kept_killLaunch h1) h)

theorem kept_freePartition {p : Nat} (h : Keeps r s) : Keeps r (freePartition s p) :=
  kept_dispatchAll (kept_with (kept_foldl (fun _ _ h1 => kept_setQueue h1) h))

theorem kept_execPartitionDestroy (h : Keeps r s) : Ends r (execPartitionDestroy s) := by
  unfold execPartitionDestroy
  refine ends_next ?_
  dsimp only
  split
  · exact h
  · exact kept_ite h (kept_ite (kept_endRecord h) (kept_ite (kept_endRecord h) (kept_ite (kept_endRecord
        (kept_freePartition (kept_killPartition h))) (kept_killPartition h))))

theorem kept_keepAging {p : Nat} (h : Keeps r s) : Keeps r (keepAging s p) := by
  unfold keepAging
  refine kept_mapCores (F := fun c x => if inPart s p (clusterOf c) && x.cur.isSome && x.aging.isNone
    then { x with aging := some (partOf s p).aging } else x) h rfl rfl rfl rfl fun _ _ => ?_
  split <;> rfl

theorem kept_execPartitionSet (h : Keeps r s) : Ends r (execPartitionSet s) := by
  unfold execPartitionSet
  refine ends_next ?_
  split
  · exact h
  · exact kept_ite h (kept_ite (kept_endRecord h) (kept_ite (kept_endRecord h) (kept_ite (kept_endRecord h)
        (kept_endRecord (kept_modPart (kept_keepAging h))))))

theorem kept_placeImage {n : Nat} {img : Option FwImage} (h : Keeps r s) : Keeps r (placeImage s n img) := by
  unfold placeImage
  split
  · exact h
  · exact kept_with h

theorem kept_placeImages {n : Nat} {l : List (Option FwImage)} (h : Keeps r s) : Keeps r (placeImages s n l) := by
  induction l generalizing s n with
  | nil => exact h
  | cons a rest ih => exact ih (kept_placeImage h)

theorem kept_noteImage {n : Nat} {i : FwImage} (h : Keeps r s) : Keeps r (noteImage s n i) := kept_with h

theorem kept_loseTasks {d : Nat} (h : Keeps r s) : Keeps r (loseTasks s d) :=
  kept_foldl (fun _ _ h1 => kept_foldl (fun _ _ h2 => kept_reportTask h2) h1) (kept_foldl (fun _ _ h1 => kept_foldl
      (fun _ _ h2 => kept_endTask h2) h1) h)

theorem kept_dieOut {d : Nat} (h : Keeps r s) : Keeps r (dieOut s d) :=
  (kept_failBarriers (kept_modDie h)).trans logged_logAll.keeps

theorem kept_linkLost {link : Nat} (h : Keeps r s) : Keeps r (linkLost s link) :=
  kept_foldl (fun _ _ h1 => kept_ite (kept_dieOut (kept_loseTasks h1)) h1) h

theorem kept_takeRepair {p : Nat} (h : Keeps r s) : Keeps r (takeRepair s p) := by
  unfold takeRepair
  exact kept_modPart ((h.trans (busy_noteSlice _).keeps).trans (busy_noteSlice _).keeps)

theorem kept_onSector {p : Nat} {a : List Nat} {act : Nat → Nat → Target → State → Nat × State} (h : Keeps r s)
    (ha : ∀ d off t s, Keeps r s → Keeps r (act d off t s).2) : Keeps r (onSector s p a act) := by
  have h1 := kept_noteTables (part := p) (kept_takeRepair (p := p) h)
  unfold onSector
  dsimp only
  generalize noteTables (takeRepair s p) p = u at h1 ⊢
  generalize leavesFrom u _ 128 4 _ 3 0 = l
  refine kept_repairOutcome ?_
  cases l with
  | nil => exact h1
  | cons v l => exact ha _ _ _ _ h1

theorem kept_addRepair {d off p : Nat} {fuse : Bool} (h : Keeps r s) : Keeps r (addRepair s d off p fuse) := kept_modDie h

theorem kept_execRepairPin {part : Nat} (h : Keeps r s) : Ends r (execRepairPin part s) := by
  unfold execRepairPin
  refine ends_next ?_
  split
  · exact h
  · split
    · refine kept_onSector h ?_
      intro _ _ _ _ h1
      split
      · next e2 =>
          split
          · exact h1
          · exact kept_addRepair (kept_snd (h1.trans (busy_pinSector _).keeps) e2)
      · exact h1.trans (busy_pinSector _).keeps
    · exact h
    · exact h
    · exact h
    · exact h
    · exact kept_repairOutcome (kept_takeRepair h)

theorem kept_execRepairFuse {part : Nat} (h : Keeps r s) : Ends r (execRepairFuse part s) := by
  unfold execRepairFuse
  refine ends_next ?_
  split
  · exact h
  · refine kept_ite ?_ ?_
    · exact h
    · refine kept_onSector h ?_
      intro _ _ _ _ h1
      split
      · exact h1
      · split
        · exact h1
        · split
          · next e1 => exact kept_snd (h1.trans (busy_pinSector _).keeps) e1
          · next e1 => exact kept_addRepair (kept_snd (h1.trans (busy_pinSector _).keeps) e1)

theorem kept_execRepairUnpin {part : Nat} (h : Keeps r s) : Ends r (execRepairUnpin part s) := by
  unfold execRepairUnpin
  refine ends_next ?_
  split
  · exact h
  · refine kept_ite h (kept_onSector h fun _ _ _ _ h1 => ?_)
    dsimp only
    exact kept_modDie (kept_unpinSector h1)

theorem kept_execLinkInjectorSet {part : Nat} (h : Keeps r s) : Ends r (execLinkInjectorSet part s) := by
  unfold execLinkInjectorSet
  refine ends_next ?_
  dsimp only
  split
  · exact h
  · exact kept_ite h (kept_repairOutcome (kept_ite (kept_takeRepair h) (kept_modLink (kept_takeRepair h))))

theorem kept_stopLine {n : Nat} {l : SLine} (h : Keeps r s) : Keeps r (stopLine n s l) :=
  (kept_foldl (fun _ _ h1 => kept_ite (h1.trans (busy_writeBack _).keeps) (h1.trans (busy_releaseSector _).keeps))
      (kept_foldl (fun _ _ h1 => h1.trans busy_dropClusterLine.keeps) h)).trans busy_touchWatch.keeps

theorem kept_dropCaches {d : Nat} (h : Keeps r s) : Keeps r (dropCaches s d) :=
  kept_with (kept_foldl (fun _ _ h1 => kept_ite (kept_foldl (fun _ _ h2 => h2.trans busy_unshare.keeps) h1) h1) h)

theorem kept_writeBackDie {d : Nat} (h : Keeps r s) : Keeps r (writeBackDie s d) := by
  unfold writeBackDie
  exact kept_modDie (kept_with (kept_dropCaches (kept_foldl (fun _ _ h1 => kept_stopLine h1) h)))

theorem kept_linksDown {d : Nat} (h : Keeps r s) : Keeps r (linksDown s d) :=
  kept_dieOut (kept_foldl (fun _ _ h1 => kept_modLink h1) (kept_modDie h))

theorem kept_resetNext {d : Nat} (h : Keeps r s) (e : resetNext s d = some t) : Keeps r t := by
  unfold resetNext at e
  split at e
  · split at e
    · cases e
      exact kept_modDie h
    · cases e
  · split at e
    · cases e
      exact kept_modDie h
    · cases e
  · cases e
    exact kept_writeBackDie h
  · cases e
    exact kept_ite (kept_linksDown h) (kept_writeBackDie h)
  · cases e

theorem kept_execWarmReset {part : Nat} (h : Keeps r s) : Ends r (execWarmReset part s) := by
  refine ends_next ?_
  dsimp only
  split
  · next e =>
    obtain ⟨d, -, hd⟩ := List.exists_of_findSome?_eq_some e
    exact kept_resetNext h hd
  · split
    · exact h
    · have h1 := kept_takeRepair (p := part) h
      exact kept_ite h (kept_ite (kept_repairOutcome h1) (kept_ite (kept_repairOutcome h1) (kept_modDie h1)))

theorem kept_resetArrays {d : Nat} (h : Keeps r s) : Keeps r (resetArrays s d) := by
  unfold resetArrays
  refine h.trans (keeps_mapCores (F := fun k x => if dieOf k = d then
      { table := x.table, tasks := x.tasks, cur := x.cur, aging := x.aging, sliceUs := x.sliceUs, grace := x.grace
        sliceAt := x.sliceAt } else x) rfl (fun c x hx => ?_) fun ht => ?_)
  · split
    · rfl
    · exact hx
  · simp only [tidyMemory, Bool.and_eq_true] at ht ⊢
    exact ⟨⟨SMap.wf_filter _ ht.1.1, SMap.wf_filter _ ht.1.2⟩, SMap.wf_filter _ ht.2⟩

theorem kept_applyRepairs {d : Nat} (h : Keeps r s) : Keeps r (applyRepairs s d) := (kept_modDie h).trans (busy_repin _).keeps

theorem kept_execDieReadmit {die : Nat} {img : Option FwImage} (h : Keeps r s) : Ends r (execDieReadmit die img s) := by
  unfold execDieReadmit
  refine ends_next ?_
  refine kept_ite ?_ ?_
  · exact kept_placeImage h
  · refine kept_ite ?_ ?_
    · exact kept_noteImage (kept_modDie (kept_placeImage h))
    · refine kept_ite ?_ ?_
      · exact kept_placeImage h
      · refine kept_foldl (fun _ _ h1 => kept_ite (kept_dispatchFree h1) h1) ?_
        refine kept_serveQueues ?_
        dsimp only
        split
        · exact kept_repairOutcome (kept_foldl (fun _ _ h1 => kept_reportUnspared h1) (((kept_applyRepairs (kept_ite
              (kept_reserveSluice (kept_with (kept_foldl (fun _ _ h1 => kept_modLink h1) (kept_modDie (kept_noteImage
              (kept_resetArrays (kept_placeImage h))))))) (kept_with (kept_foldl (fun _ _ h1 => kept_modLink h1)
              (kept_modDie (kept_noteImage (kept_resetArrays (kept_placeImage h)))))))).trans
              (busy_repin _).keeps).trans logged_logAll.keeps))
        · exact kept_foldl (fun _ _ h1 => kept_reportUnspared h1) (((kept_applyRepairs (kept_ite (kept_reserveSluice
              (kept_with (kept_foldl (fun _ _ h1 => kept_modLink h1) (kept_modDie (kept_noteImage (kept_resetArrays
              (kept_placeImage h))))))) (kept_with (kept_foldl (fun _ _ h1 => kept_modLink h1) (kept_modDie
              (kept_noteImage (kept_resetArrays (kept_placeImage h)))))))).trans (busy_repin _).keeps).trans
              logged_logAll.keeps)

theorem kept_sendFlit {k : Nat} {f : FlitOut} (h : Keeps r s) : Keeps r (sendFlit s k f) := kept_modLink h

theorem kept_takeFlit {k : Nat} {f : BitVec 256} (h : Keeps r s) : Keeps r (takeFlit s k f) :=
  kept_ite (kept_modLink (kept_ite (kept_sendFlit (kept_modLink h)) (kept_modLink h))) (kept_ite (kept_modLink (kept_ite
      (kept_sendFlit (kept_modLink h)) (kept_modLink h))) (kept_ite (kept_sendFlit (kept_modLink (kept_ite (kept_sendFlit
      (kept_modLink h)) (kept_modLink h)))) (kept_ite (kept_sendFlit (kept_modLink h)) (kept_modLink h))))

theorem kept_execFlitArrival {link epoch : Nat} {flit : BitVec 256} (h : Keeps r s) : Ends r
    (execFlitArrival link epoch flit s) :=
  ends_next (kept_ite h (kept_ite (kept_takeFlit h) (kept_sendFlit (kept_modLink h))))

theorem kept_execNackReplay {link : Nat} {seq : BitVec 12} (h : Keeps r s) : Ends r (execNackReplay link seq s) :=
  ends_next (kept_ite h (kept_modLink h))

theorem kept_execLinkDown {link : Nat} (h : Keeps r s) : Ends r (execLinkDown link s) :=
  ends_next (kept_ite h (kept_linkLost ((kept_modLink h).trans logged_logAll.keeps)))

theorem kept_trainLink {link version : Nat} {features : BitVec 32} (h : Keeps r s) : Keeps r
    (trainLink s link version features) :=
  kept_ite (kept_linkLost (kept_modLink h)) (kept_modLink h)

theorem kept_execLinkTraining {link version : Nat} {features : BitVec 32} (h : Keeps r s) :
    Ends r (execLinkTraining link version features s) :=
  ends_next (kept_ite h (kept_serveQueues (kept_trainLink h)))

theorem kept_execInjectorFire {link : Nat} (h : Keeps r s) : Ends r (execInjectorFire link s) :=
  ends_next (kept_ite h (kept_modLink h))

theorem kept_execRouteChange {src dst : Nat} (h : Keeps r s) : Ends r (execRouteChange src dst s) := by
  unfold execRouteChange
  refine ends_next ?_
  refine kept_ite ?_ ?_
  · exact h
  · dsimp only
    split
    · exact h
    · exact kept_ite h (kept_ite (kept_with h) (kept_ite (kept_with h) h))

theorem kept_execCorrectedErrorThreshold {slice : Bool} {unit count : Nat} (h : Keeps r s) :
    Ends r (execCorrectedErrorThreshold slice unit count s) :=
  ends_next (kept_ite (kept_ite (kept_foldl (fun _ _ h1 => h1.trans logged_logError.keeps) (kept_modSlice h))
      (kept_modSlice h)) (kept_ite (kept_foldl (fun _ _ h1 => h1.trans logged_logError.keeps) (kept_modCore h
      (fun _ => rfl))) (kept_modCore h (fun _ => rfl))))

theorem kept_execGovernorTick {watts : Nat} (h : Keeps r s) : Ends r (execGovernorTick watts s) :=
  ends_next (kept_ite (kept_foldl (fun _ _ h1 => kept_ite (kept_modCluster (kept_countCycles h1)) h1) (kept_with h))
      (kept_ite (kept_foldl (fun _ _ h1 => kept_ite (kept_modCluster (kept_countCycles h1)) h1) (kept_with h)) (kept_with h)))

theorem kept_execThermalThrottle {cluster : Nat} (h : Keeps r s) : Ends r (execThermalThrottle cluster s) :=
  ends_next (kept_modCluster (kept_countCycles h))

theorem kept_execJunctionBelow95c {cluster : Nat} (h : Keeps r s) : Ends r (execJunctionBelow95c cluster s) :=
  ends_next (kept_modCluster (kept_countCycles h))

theorem kept_coldState (h : Keeps r s) : Keeps r (coldState s) := by
  refine h.trans ⟨fun ht => ?_, fun _ => rfl⟩
  simp only [tidyMemory, Bool.and_eq_true] at ht
  simp only [tidyMemory, coldState, outsideMem, Bool.and_eq_true]
  exact ⟨⟨SMap.wf_filter _ (putBehind_foldl_wf _ ht.1.1), rfl⟩, SMap.wf_filter _ ht.2⟩

theorem kept_execThermalShutdown (h : Keeps r s) : Ends r (execThermalShutdown s) := ends_next (kept_with (kept_coldState h))

theorem kept_renumber (h : Keeps r s) : Keeps r (renumber s) := by
  refine h.trans ⟨fun ht => ?_, id⟩
  simp only [tidyMemory, Bool.and_eq_true] at ht
  simp only [tidyMemory, renumber, Bool.and_eq_true]
  exact ⟨⟨SMap.wf_filter _ ht.1.1, ht.1.2⟩, SMap.wf_filter _ ht.2⟩

theorem kept_execPowerOnReset {chief d0 d1 d2 d3 : Option FwImage} (h : Keeps r s) :
    Ends r (execPowerOnReset chief d0 d1 d2 d3 s) :=
  ends_next (kept_ite (kept_with (kept_placeImages (kept_coldState h))) (kept_with (kept_foldl
      (fun _ _ h1 => kept_noteImage h1) (kept_setQueue (kept_foldl (fun _ _ h1 => kept_ite (kept_trainLink h1) h1)
      (kept_foldl (fun _ _ h1 => kept_ite (kept_modLink h1) h1) (kept_foldl (fun _ _ h1 => kept_applyRepairs h1)
      (kept_foldl (fun _ _ h1 => kept_modDie h1) (kept_renumber (kept_placeImages (kept_coldState h)))))))))))

theorem kept_execAttestationRequest {nonce : BitVec 256} (h : Keeps r s) : Ends r (execAttestationRequest nonce s) :=
  ends_next (kept_with h)

end

end Sys2Proof.Laws

namespace Sys2Proof.Laws
/-! Canonical memory and whole banks are kept: system instructions and the vector engine. -/

open Sys2Proof.Machine

section
variable {r s t : State}

theorem kept_execRdsys {w : RWord} (h : Keeps r s) : Ends r (execRdsys w s) := by
  unfold execRdsys
  refine kept_withIssue h ?_
  intro _ _ h1
  split
  · exact h1
  · refine kept_ite ?_ ?_
    · exact kept_trapNow h1
    · split
      · exact kept_registerPoison h1
      · exact kept_finishReg h1

theorem kept_execWrsys {w : RWord} (h : Keeps r s) : Ends r (execWrsys w s) := by
  unfold execWrsys
  refine kept_withIssue h ?_
  intro _ _ h1
  dsimp only
  split
  · exact h1
  · refine kept_ite ?_ ?_
    · exact kept_trapNow h1
    · refine kept_finish ?_
      split
      · exact kept_writeFrame h1
      · exact kept_writeFrame h1
      · exact kept_writeFrame h1
      · exact kept_modTask h1
      · exact h1

theorem kept_execStatusPmaskWrite {w : RWord} (h : Keeps r s) : Ends r (execStatusPmaskWrite w s) :=
  kept_withIssue h (fun _ _ h1 => kept_unmask (kept_finish (kept_ite (kept_setStatus h1) h1)))

theorem kept_execEngbindWrite {w : RWord} (h : Keeps r s) : Ends r (execEngbindWrite w s) :=
  kept_withIssue h (fun _ _ h1 => kept_ite (kept_trapNow h1) (kept_ite (kept_hold h1) (kept_finish (kept_writeFrame h1))))

theorem kept_execLfsrWrite {w : RWord} (h : Keeps r s) : Ends r (execLfsrWrite w s) := by
  unfold execLfsrWrite
  refine kept_withIssue h ?_
  intro _ _ h1
  dsimp only
  split
  · exact h1
  · exact kept_finish (kept_setLfsr h1)

theorem kept_execTrctlWrite {w : RWord} (h : Keeps r s) : Ends r (execTrctlWrite w s) :=
  kept_withIssue h (fun _ _ h1 => kept_ite (kept_trapNow h1) (kept_finish (kept_modCluster h1)))

theorem kept_execSegget {w : RWord} (h : Keeps r s) : Ends r (execSegget w s) :=
  kept_withIssue h (fun _ _ h1 => kept_finishReg h1)

theorem kept_execSegset {w : RWord} (h : Keeps r s) : Ends r (execSegset w s) :=
  kept_withIssue h (fun _ _ h1 => kept_ite (kept_finish (kept_writeSeg h1)) (kept_trapNow h1))

theorem kept_execSvc {w : RWord} (h : Keeps r s) : Ends r (execSvc w s) := by
  unfold execSvc
  refine kept_withIssue h ?_
  intro _ _ h1
  dsimp only
  split
  · exact h1
  · exact kept_ite (kept_hold h1) (kept_modCtx (kept_finish (h1.trans logged_postMail.keeps)))

theorem kept_execRdtime {w : RWord} (h : Keeps r s) : Ends r (execRdtime w s) :=
  kept_withIssue h (fun _ _ h1 => kept_finishReg h1)

theorem kept_execTlbinv {w : RWord} (h : Keeps r s) : Ends r (execTlbinv w s) := by
  unfold execTlbinv
  refine kept_withIssue h ?_
  intro _ _ h1
  dsimp only
  split
  · exact h1
  · refine kept_ite ?_ ?_
    · exact kept_trapNow h1
    · split
      · exact kept_ite (kept_block h1) (kept_finish h1)
      · exact kept_ite (kept_block h1) (kept_block (kept_with h1))

theorem kept_execTlbDropComplete {n : Nat} (h : Keeps r s) : Ends r (execTlbDropComplete n s) := by
  refine ends_next ?_
  dsimp only
  split
  · exact h
  · refine kept_ite h ?_
    refine kept_mapCores h (F := fun c x => if dropScope s _ c then
        { x with utlb := x.utlb.filter fun e => !dropsMicro s _ c e } else x) rfl rfl rfl rfl fun _ _ => ?_
    split <;> rfl

theorem kept_tlbqNote {part va : Nat} (h : Keeps r s) : Keeps r (tlbqNote s part va) := kept_ite h (h.trans busy_noteWalk.keeps)

theorem kept_execTlbq {w : RWord} (h : Keeps r s) : Ends r (execTlbq w s) := by
  unfold execTlbq
  refine kept_withIssue h ?_
  intro _ _ h1
  split
  · exact h1
  · exact kept_ite (kept_trapNow h1) (kept_finishLong (kept_tlbqNote h1))

theorem kept_finishPart {h1 : Hdr} {d : BitVec 8} {whole : Nat → Bool} {v f : Nat} (h : Keeps r s) :
    Keeps r (finishPart h1 d whole v f s) :=
  kept_finish (kept_keepMarks (kept_writeReg h))

theorem kept_laneBody {i : Instr} {w : RWord} {reads : Nat → State → Nat → List Nat} {g : Nat → State → Nat → Nat}
    (h : Keeps r s) :
    Ends r (laneBody i w reads s g) :=
  kept_withVector h (fun _ _ h1 => kept_finishPart h1)

theorem kept_laneOp {i : Instr} {w : RWord} {specs : List (BitVec 8)} {g : Nat → State → Nat → Nat} (h : Keeps r s) :
    Ends r (laneOp i w specs s g) :=
  kept_laneBody h

theorem kept_laneOp2 {i : Instr} {w : RWord} {g : Nat → Nat → Nat} (h : Keeps r s) : Ends r (laneOp2 i w s g) := kept_laneOp h

theorem kept_laneLong {i : Instr} {w : RWord} {specs : List (BitVec 8)} {g : Nat → State → Nat → Nat} (h : Keeps r s) :
    Ends r (laneLong i w specs s g) :=
  kept_withVector h (fun _ _ h1 => kept_ite (kept_finish h1) (kept_withEntry h1 (fun _ _ h2 => kept_finish
      (kept_sendResult h2))))

theorem kept_execVadd {w : RWord} (h : Keeps r s) : Ends r (execVadd w s) := kept_laneOp2 h

theorem kept_execVsub {w : RWord} (h : Keeps r s) : Ends r (execVsub w s) := kept_laneOp2 h

theorem kept_execVmul {w : RWord} (h : Keeps r s) : Ends r (execVmul w s) := kept_laneOp2 h

theorem kept_execVfma {w : RWord} (h : Keeps r s) : Ends r (execVfma w s) := kept_laneOp h

theorem kept_execVdiv {w : RWord} (h : Keeps r s) : Ends r (execVdiv w s) := kept_laneLong h

theorem kept_execVsqrt {w : RWord} (h : Keeps r s) : Ends r (execVsqrt w s) := kept_laneLong h

theorem kept_boundedLanes {i : Instr} {op : Nat} {w : RWord} (h : Keeps r s) : Ends r (boundedLanes i op w s) := kept_laneOp h

theorem kept_execVrcp {w : RWord} (h : Keeps r s) : Ends r (execVrcp w s) := kept_boundedLanes h

theorem kept_execVrsq {w : RWord} (h : Keeps r s) : Ends r (execVrsq w s) := kept_boundedLanes h

theorem kept_execVexp2 {w : RWord} (h : Keeps r s) : Ends r (execVexp2 w s) := kept_boundedLanes h

theorem kept_execVlog2 {w : RWord} (h : Keeps r s) : Ends r (execVlog2 w s) := kept_boundedLanes h

theorem kept_execVmin {w : RWord} (h : Keeps r s) : Ends r (execVmin w s) := kept_laneOp2 h

theorem kept_execVmax {w : RWord} (h : Keeps r s) : Ends r (execVmax w s) := kept_laneOp2 h

theorem kept_execVabs {w : RWord} (h : Keeps r s) : Ends r (execVabs w s) := kept_laneOp h

theorem kept_execVcmp {w : RWord} (h : Keeps r s) : Ends r (execVcmp w s) := kept_withVector h
    (fun _ _ h1 => kept_finishPart h1)

theorem kept_execVsel {w : RWord} (h : Keeps r s) : Ends r (execVsel w s) := kept_laneBody h

theorem kept_putLfsr {f : Nat} {v : BitVec 32} (h : Keeps r s) : Keeps r (putLfsr s f v) := kept_ite h (kept_setLfsr h)

theorem kept_execVcvt {w : RWord} (h : Keeps r s) : Ends r (execVcvt w s) := by
  unfold execVcvt
  exact kept_withVector h (fun _ _ h1 => kept_finishPart (kept_putLfsr h1))

theorem kept_execVqf4 {w : RWord} (h : Keeps r s) : Ends r (execVqf4 w s) := by
  unfold execVqf4
  exact kept_withVector h (fun _ _ h1 => kept_ite (kept_finishPart (kept_putLfsr h1)) (kept_finish h1))

theorem kept_execVbit {w : RWord} (h : Keeps r s) : Ends r (execVbit w s) := kept_laneOp2 h

theorem kept_execVsh {w : RWord} (h : Keeps r s) : Ends r (execVsh w s) := kept_laneOp2 h

theorem kept_execVbcast {w : RWord} (h : Keeps r s) : Ends r (execVbcast w s) := kept_laneOp h

theorem kept_execVperm {w : RWord} (h : Keeps r s) : Ends r (execVperm w s) := kept_laneBody h

theorem kept_execVshuf {w : RWord} (h : Keeps r s) : Ends r (execVshuf w s) := kept_laneBody h

theorem kept_execVmovxIns {w : RWord} (h : Keeps r s) : Ends r (execVmovxIns w s) := by
  unfold execVmovxIns
  exact kept_withVector h (fun _ _ h1 => kept_ite (kept_finishPart h1) (kept_finish h1))

theorem kept_execVmovxExt {w : RWord} (h : Keeps r s) : Ends r (execVmovxExt w s) := by
  unfold execVmovxExt
  exact kept_withVector h (fun _ _ h1 => kept_ite (kept_finishReg h1) (kept_finish h1))

theorem kept_execVred {w : RWord} (h : Keeps r s) : Ends r (execVred w s) := kept_withVector h (fun _ _ h1 => kept_finishReg h1)

theorem kept_execVscan {w : RWord} (h : Keeps r s) : Ends r (execVscan w s) := kept_laneOp h

theorem kept_execVtopk {w : RWord} (h : Keeps r s) : Ends r (execVtopk w s) :=
  kept_withVector h (fun _ _ h1 => kept_finishPart (kept_keepMarks (kept_writeReg h1)))

theorem kept_execVargmax {w : RWord} (h : Keeps r s) : Ends r (execVargmax w s) :=
  kept_withVector h (fun _ _ h1 => kept_finishReg h1)

theorem kept_execVdot {w : RWord} (h : Keeps r s) : Ends r (execVdot w s) := kept_withVector h
    (fun _ _ h1 => kept_finishPart h1)

theorem kept_pushLanes {mk : Nat → Nat → Req} {grp : Nat} {l : List (Nat × Nat)} (h : Keeps r s) : Keeps r
    (pushLanes s mk grp l) := by
  induction l generalizing s with
  | nil => exact h
  | cons a l ih => exact ih (kept_pushReq h)

theorem kept_pushGroup {mk : Nat → Nat → Req} {ls : List (Nat × Nat)} (h : Keeps r s) : Keeps r (pushGroup s mk ls) :=
  kept_pushLanes (kept_with h)

theorem kept_lanePoison {f n : Nat} {ls : List (Nat × Nat)} (h : Keeps r s) : Keeps r (lanePoison s f n ls).1 := by
  unfold lanePoison
  split
  · exact h
  · exact kept_foldl (fun _ _ h1 => kept_logPoison h1) h

theorem kept_nearLaneStores {core f n v : Nat} {l : List (Nat × Nat)} (h : Keeps r s) : Keeps r
    (nearLaneStores core f n v l s) := by
  induction l generalizing s with
  | nil => exact h
  | cons a l ih => exact ih (kept_nearStore h)

theorem kept_laneAccess {i : Instr} {w : MWord} {data : List (BitVec 8)} {need : Nat}
    {body : Nat → Ctx → Seg → (Nat → ℤ) → List (Nat × Nat) → State → State} (h : Keeps r s)
    (hb : ∀ a a1 a2 a3 a4 s, Keeps r s → Keeps r (body a a1 a2 a3 a4 s)) :
    Ends r (laneAccess i w data need s body) := by
  unfold laneAccess
  refine kept_withVector h ?_
  intro _ _ h1
  dsimp only
  split
  · exact h1
  · refine kept_ite ?_ ?_
    · exact kept_finish h1
    · refine kept_ite ?_ ?_
      · exact kept_hold h1
      · split
        · exact kept_trapNow h1
        · exact kept_ite (kept_hold h1) (hb _ _ _ _ _ _ h1)

theorem kept_execVld {w : MWord} (h : Keeps r s) : Ends r (execVld w s) :=
  kept_laneAccess h (fun _ _ _ _ _ _ h1 => kept_withEntry h1 (fun _ _ h2 => kept_ite (kept_finish (kept_pushGroup h2))
      (kept_finish (kept_sendResult (kept_lanePoison h2)))))

theorem kept_execVst {w : MWord} (h : Keeps r s) : Ends r (execVst w s) :=
  kept_laneAccess h (fun _ _ _ _ _ _ h1 => kept_ite (kept_finish (kept_pushGroup h1)) (kept_finish (kept_nearLaneStores h1)))

theorem kept_indexAccess {i : Instr} {w : MWord} {data : List (BitVec 8)} {need : Nat}
    {body : Nat → Ctx → Seg → (Nat → ℤ) → List (Nat × Nat) → List Nat → State → State} (h : Keeps r s)
    (hb : ∀ a a1 a2 a3 a4 a5 s, Keeps r s → Keeps r (body a a1 a2 a3 a4 a5 s)) :
    Ends r (indexAccess i w data need s body) := by
  unfold indexAccess
  refine kept_withVector h ?_
  intro _ _ h1
  dsimp only
  split
  · exact h1
  · exact kept_ite (kept_finish h1) (kept_ite (kept_trapNow h1) (kept_ite (kept_hold h1) (kept_ite (kept_hold h1)
        (hb _ _ _ _ _ _ _ h1))))

theorem kept_execVgath {w : MWord} (h : Keeps r s) : Ends r (execVgath w s) := by
  unfold execVgath
  exact kept_indexAccess h (fun _ _ _ _ _ _ _ h1 => kept_withEntry h1 (fun _ _ h2 => kept_ite (kept_finish (kept_pushGroup
      (kept_sendResult h2))) (kept_finish (kept_sendResult (kept_lanePoison h2)))))

theorem kept_execVscat {w : MWord} (h : Keeps r s) : Ends r (execVscat w s) := by
  unfold execVscat
  exact kept_indexAccess h (fun _ _ _ _ _ _ _ h1 => kept_withEntry h1 (fun _ _ h2 => kept_ite (kept_finish (kept_pushGroup
      (kept_sendResult h2))) (kept_finish (kept_sendResult (kept_nearLaneStores h2)))))

end

end Sys2Proof.Laws

namespace Sys2Proof.Laws
/-! Canonical memory and whole banks are kept: dispatch and the step. -/

open Sys2Proof.Machine

section
variable {r s t : State}

/-- Every instruction and every event keeps memory canonical and the banks whole. -/
theorem kept_exec {i : Instr} (h : Keeps r s) : Ends r (exec i s) :=
  match i with
  | .add _ => kept_execAdd h
  | .sub _ => kept_execSub h
  | .mul _ => kept_execMul h
  | .mulh _ => kept_execMulh h
  | .div _ => kept_execDiv h
  | .rem _ => kept_execRem h
  | .min _ => kept_execMin h
  | .max _ => kept_execMax h
  | .lea _ => kept_execLea h
  | .and _ => kept_execAnd h
  | .or _ => kept_execOr h
  | .xor _ => kept_execXor h
  | .andn _ => kept_execAndn h
  | .shl _ => kept_execShl h
  | .shr _ => kept_execShr h
  | .sra _ => kept_execSra h
  | .rot _ => kept_execRot h
  | .bfx _ => kept_execBfx h
  | .bfi _ => kept_execBfi h
  | .clz _ => kept_execClz h
  | .ctz _ => kept_execCtz h
  | .popc _ => kept_execPopc h
  | .brev _ => kept_execBrev h
  | .cmp _ => kept_execCmp h
  | .sel _ => kept_execSel h
  | .mov _ => kept_execMov h
  | .movi _ => kept_execMovi h
  | .plog _ => kept_execPlog h
  | .br _ => kept_execBr h
  | .call _ => kept_execCall h
  | .ret _ => kept_execRet h
  | .jmp _ => kept_execJmp h
  | .trap _ => kept_execTrap h
  | .tret _ => kept_execTret h
  | .start _ => kept_execStart h
  | .startSvc _ => kept_execStartSvc h
  | .exit _ => kept_execExit h
  | .join _ => kept_execJoin h
  | .ppoint _ => kept_execPpoint h
  | .launch _ => kept_execLaunch h
  | .nop _ => kept_execNop h
  | .ld _ => kept_execLd h
  | .st _ => kept_execSt h
  | .ldsync _ => kept_execLdsync h
  | .stf _ => kept_execStf h
  | .ldw _ => kept_execLdw h
  | .cst _ => kept_execCst h
  | .atom _ => kept_execAtom h
  | .cas _ => kept_execCas h
  | .fence _ => kept_execFence h
  | .xfence _ => kept_execXfence h
  | .rdsys _ => kept_execRdsys h
  | .wrsys _ => kept_execWrsys h
  | .segget _ => kept_execSegget h
  | .segset _ => kept_execSegset h
  | .svc _ => kept_execSvc h
  | .pref _ => kept_execPref h
  | .rdtime _ => kept_execRdtime h
  | .tlbinv _ => kept_execTlbinv h
  | .tlbq _ => kept_execTlbq h
  | .send _ => kept_execSend h
  | .recv _ => kept_execRecv h
  | .recvnb _ => kept_execRecvnb h
  | .callat _ => kept_execCallat h
  | .spawn _ => kept_execSpawn h
  | .reply _ => kept_execReply h
  | .arrive _ => kept_execArrive h
  | .bwait _ => kept_execBwait h
  | .bsync _ => kept_execBsync h
  | .bmask _ => kept_execBmask h
  | .twaitany _ => kept_execTwaitany h
  | .twaitall _ => kept_execTwaitall h
  | .tfind _ => kept_execTfind h
  | .sfence _ => kept_execSfence h
  | .mcst _ => kept_execMcst h
  | .jrd _ => kept_execJrd h
  | .mquery _ => kept_execMquery h
  | .vadd _ => kept_execVadd h
  | .vsub _ => kept_execVsub h
  | .vmul _ => kept_execVmul h
  | .vfma _ => kept_execVfma h
  | .vdiv _ => kept_execVdiv h
  | .vsqrt _ => kept_execVsqrt h
  | .vrcp _ => kept_execVrcp h
  | .vrsq _ => kept_execVrsq h
  | .vexp2 _ => kept_execVexp2 h
  | .vlog2 _ => kept_execVlog2 h
  | .vmin _ => kept_execVmin h
  | .vmax _ => kept_execVmax h
  | .vabs _ => kept_execVabs h
  | .vcmp _ => kept_execVcmp h
  | .vsel _ => kept_execVsel h
  | .vcvt _ => kept_execVcvt h
  | .vqf4 _ => kept_execVqf4 h
  | .vbit _ => kept_execVbit h
  | .vsh _ => kept_execVsh h
  | .vld _ => kept_execVld h
  | .vst _ => kept_execVst h
  | .vgath _ => kept_execVgath h
  | .vscat _ => kept_execVscat h
  | .vbcast _ => kept_execVbcast h
  | .vperm _ => kept_execVperm h
  | .vshuf _ => kept_execVshuf h
  | .vred _ => kept_execVred h
  | .vscan _ => kept_execVscan h
  | .vtopk _ => kept_execVtopk h
  | .vargmax _ => kept_execVargmax h
  | .vdot _ => kept_execVdot h
  | .vmovxIns _ => kept_execVmovxIns h
  | .vmovxExt _ => kept_execVmovxExt h
  | .mzero _ => kept_execMzero h
  | .mma _ => kept_execMma h
  | .mcma _ => kept_execMcma h
  | .mlda _ => kept_execMlda h
  | .msta _ => kept_execMsta h
  | .marm _ => kept_execMarm h
  | .mgang _ => kept_execMgang h
  | .mring _ => kept_execMring h
  | .mswz _ => kept_execMswz h
  | .walk _ => kept_execWalk h
  | .walkResume _ => kept_execWalkResume h
  | .wstat _ => kept_execWstat h
  | .wchk _ => kept_execWchk h
  | .cpy _ => kept_execCpy h
  | .cpy2d _ => kept_execCpy2d h
  | .cgath _ => kept_execCgath h
  | .cscat _ => kept_execCscat h
  | .cfill _ => kept_execCfill h
  | .cswz _ => kept_execCswz h
  | .femark _ => kept_execFemark h
  | .cstat _ => kept_execCstat h
  | .ccancel _ => kept_execCcancel h
  | .pfr _ => kept_execPfr h
  | .pfrBar _ => kept_execPfrBar h
  | .rflush _ => kept_execRflush h
  | .rinval _ => kept_execRinval h
  | .secpin _ => kept_execSecpin h
  | .secpinUn _ => kept_execSecpinUn h
  | .bmode _ => kept_execBmode h
  | .ctrrd _ => kept_execCtrrd h
  | .caprecv _ => kept_execCaprecv h
  | .capsend _ => kept_execCapsend h
  | .capnext _ => kept_execCapnext h
  | .capins _ => kept_execCapins h
  | .capskip _ => kept_execCapskip h
  | .caprepl _ => kept_execCaprepl h
  | .capfail _ => kept_execCapfail h
  | .capdrop _ => kept_execCapdrop h
  | .exq _ => kept_execExq h
  | .expin _ => kept_execExpin h
  | .exunpin _ => kept_execExunpin h
  | .exload _ => kept_execExload h
  | .exevict _ => kept_execExevict h
  | .exrepl _ => kept_execExrepl h
  | .lineRefetch _ _ => kept_execLineRefetch h
  | .instructionFetchComplete _ _ => kept_execInstructionFetchComplete h
  | .longResultReturn _ => kept_execLongResultReturn h
  | .trapEntry _ _ => kept_execTrapEntry h
  | .windowLoadServe _ => kept_execWindowLoadServe h
  | .remoteStoreApply _ _ _ => kept_execRemoteStoreApply h
  | .remoteAtomicApply _ => kept_execRemoteAtomicApply h
  | .journalAck _ _ => kept_execJournalAck h
  | .journalRefusal _ _ => kept_execJournalRefusal h
  | .releaseStoreSend _ _ => kept_execReleaseStoreSend h
  | .releaseMessageSend _ => kept_execReleaseMessageSend h
  | .messageArrival _ => kept_execMessageArrival h
  | .taskQueueEntryArrival _ => kept_execTaskQueueEntryArrival h
  | .taskQueueHelperStart _ => kept_execTaskQueueHelperStart h
  | .barrierArrival _ => kept_execBarrierArrival h
  | .timeSliceEnd _ => kept_execTimeSliceEnd h
  | .preemptionRequest _ => kept_execPreemptionRequest h
  | .graceWindowExpiry _ => kept_execGraceWindowExpiry h
  | .shadowBankLoadComplete _ _ => kept_execShadowBankLoadComplete h
  | .bankExchange _ => kept_execBankExchange h
  | .spillComplete _ _ => kept_execSpillComplete h
  | .accumulatorSave _ => kept_execAccumulatorSave h
  | .accumulatorRestore _ => kept_execAccumulatorRestore h
  | .contextSavedReport _ => kept_execContextSavedReport h
  | .tlbMissWalk _ => kept_execTlbMissWalk h
  | .faultReply _ => kept_execFaultReply h
  | .mailboxPost => kept_execMailboxPost h
  | .launchAdmission _ => kept_execLaunchAdmission h
  | .admissionResume _ => kept_execAdmissionResume h
  | .gangBindRelease _ => kept_execGangBindRelease h
  | .deadlinePass _ => kept_execDeadlinePass h
  | .hostDoorbell _ _ => kept_execHostDoorbell h
  | .partitionCreate => kept_execPartitionCreate h
  | .partitionDestroy => kept_execPartitionDestroy h
  | .partitionSet => kept_execPartitionSet h
  | .repairPin _ => kept_execRepairPin h
  | .repairFuse _ => kept_execRepairFuse h
  | .repairUnpin _ => kept_execRepairUnpin h
  | .warmReset _ => kept_execWarmReset h
  | .dieReadmit _ _ => kept_execDieReadmit h
  | .linkInjectorSet _ => kept_execLinkInjectorSet h
  | .injectorFire _ => kept_execInjectorFire h
  | .flitArrival _ _ _ => kept_execFlitArrival h
  | .nackReplay _ _ => kept_execNackReplay h
  | .linkDown _ => kept_execLinkDown h
  | .linkTraining _ _ _ => kept_execLinkTraining h
  | .routeChange _ _ => kept_execRouteChange h
  | .correctedErrorThreshold _ _ _ => kept_execCorrectedErrorThreshold h
  | .storeApplyHome _ => kept_execStoreApplyHome h
  | .lineFillServe _ => kept_execLineFillServe h
  | .bankModeSwitchComplete _ _ => kept_execBankModeSwitchComplete h
  | .pfrComplete _ _ => kept_execPfrComplete h
  | .gangStart _ => kept_execGangStart h
  | .matrixStep _ => kept_execMatrixStep h
  | .walkRound _ => kept_execWalkRound h
  | .copyCommandStart _ => kept_execCopyCommandStart h
  | .copyRow _ => kept_execCopyRow h
  | .capsuleDieIngress _ => kept_execCapsuleDieIngress h
  | .capsuleCoreIngress _ => kept_execCapsuleCoreIngress h
  | .residencyMissResend _ => kept_execResidencyMissResend h
  | .sluiceReoffer _ => kept_execSluiceReoffer h
  | .sluiceReofferTimer _ => kept_execSluiceReofferTimer h
  | .residencyBroadcastApply _ _ => kept_execResidencyBroadcastApply h
  | .trctlWrite _ => kept_execTrctlWrite h
  | .lfsrWrite _ => kept_execLfsrWrite h
  | .engbindWrite _ => kept_execEngbindWrite h
  | .statusPmaskWrite _ => kept_execStatusPmaskWrite h
  | .governorTick _ => kept_execGovernorTick h
  | .thermalThrottle _ => kept_execThermalThrottle h
  | .thermalShutdown => kept_execThermalShutdown h
  | .powerOnReset _ _ _ _ _ => kept_execPowerOnReset h
  | .attestationRequest _ => kept_execAttestationRequest h
  | .notAnInstructionIssue _ => kept_execNotAnInstructionIssue h
  | .junctionBelow95c _ => kept_execJunctionBelow95c h
  | .sectorWriteBackComplete _ => kept_execSectorWriteBackComplete h
  | .tlbDropComplete _ => kept_execTlbDropComplete h

theorem kept_poisonWords {k n : Nat} (h : Keeps r s) : Keeps r (poisonWords s k n) := kept_mark h

theorem kept_outsideByte {k : Nat} {b : Byte} (h : Keeps r s) : Keeps r (outsideByte s k b) := by
  have h1 : Keeps r { s with mem := writeByte s.mem k b } := by
    refine h.trans ⟨fun ht => ?_, id⟩
    simp only [tidyMemory, Bool.and_eq_true] at ht ⊢
    exact ⟨⟨writeByte_wf ht.1.1, ht.1.2⟩, ht.2⟩
  exact kept_ite h (kept_ite (kept_with h) (h1.trans busy_endOlder.keeps))

theorem kept_outsideBytes {k n v : Nat} (h : Keeps r s) : Keeps r (outsideBytes k n v s) := by
  induction n generalizing s k v with
  | zero => exact h
  | succ n ih => exact ih (kept_outsideByte h)

theorem kept_outsideWrite {flat n v : Nat} (h : Keeps r s) : Keeps r (outsideWrite s flat n v) := kept_outsideBytes
    (kept_mark h)

/-- What happens outside keeps memory canonical and the banks whole. -/
theorem kept_outsideStep {o : Outside} (h : Keeps r s) : Keeps r (outsideStep o s) := by
  cases o with
  | memoryError => exact kept_poisonWords h
  | registerError core slot word shadow =>
    have hm (b : Bank) (hb : wholeBank b = true) : wholeBank (if b.frame.isNone then b
        else { b with poison := b.poison ||| BitVec.ofNat 640 (2 ^ word) }) = true := by
      split <;> exact hb
    unfold outsideStep
    refine kept_putBanks h fun x ha hs => ?_
    split
    · exact ⟨ha, hm _ hs⟩
    · exact ⟨hm _ ha, hs⟩
  | lineError =>
    unfold outsideStep
    exact kept_modCore h fun _ => rfl
  | outsideWrite => exact kept_outsideWrite h
  | ringPlace => exact kept_setQueue h
  | partner => exact kept_with h
  | podNumber => exact kept_with h
  | flitSend => exact kept_ite (kept_sendFlit h) h

theorem kept_preTrap {f code : Nat} {addr : Word} {word : BitVec 96} (h : Keeps r s) : Keeps r (preTrap s f code addr word) :=
  kept_takeTrap h

theorem kept_startIssue {c k : Nat} {pc next : Word} {w : BitVec 96} (h : Keeps r s) : Keeps r (startIssue s c k pc next w) :=
  kept_with h

theorem kept_noteIssue {c k f : Nat} (h : Keeps r s) : Keeps r (noteIssue s c k f) := kept_modCtx (kept_modCore h
    (fun _ => rfl))

/-- The state in which a slot issues, or which it leaves without. -/
def Prep.state : Prep → State
  | .moved s | .single _ s | .pair _ _ s => s

theorem kept_fromLine {c k f : Nat} {x : Ctx} {a : Target} {l : BitVec 512} (h : Keeps r s) :
    Keeps r (Prep.state (fromLine s c k f x a l)) := by
  have hc {s : State} (h : Keeps r s) : Keeps r (modSlot s c k fun y => { y with fetch := .idle }) := kept_modSlot h fun _
      => ⟨rfl, rfl⟩
  have h0 := kept_ite (p := ((slotOf s c k).fetch == .refetched a.flat) = true) (kept_countCorrected (c := c)
      (part := ctxPart s x) h) h
  unfold fromLine
  dsimp only
  generalize (if ((slotOf s c k).fetch == .refetched a.flat) = true then countCorrected s c (ctxPart s x) else s) = u at h0 ⊢
  have h1 := hc h0
  split
  · split
    · exact kept_preTrap (hc h)
    · have h2 : Keeps r (modCore s c fun y => { y with icache := y.icache.filter fun p => p.1 != a.flat / 64 }) :=
          kept_modCore h fun _ => rfl
      exact kept_modSlot (F := fun y => { y with fetch := .again a }) h2 fun _ => ⟨rfl, rfl⟩
  · split
    · exact kept_takePreempt (kept_modCtx h1)
    · split
      · exact kept_preTrap h1
      · split
        · exact kept_preTrap h1
        · split <;> exact kept_startIssue (kept_noteIssue (kept_modCtx h1))

theorem kept_boundaryFault {c f : Nat} {x : Ctx} (h : Keeps r s) (e : boundaryFault s c f x = some t) : Keeps r t := by
  unfold boundaryFault at e
  dsimp only at e
  split at e
  · cases e
  · split at e
    · cases e
      exact kept_resolveTrap h
    · split at e
      · cases e
      · split at e
        · cases e
          exact kept_resolveDue h
        · obtain ⟨q, -, rfl⟩ := Option.map_eq_some_iff.mp e
          exact kept_takeAsync h

theorem kept_prepare {c k : Nat} (h : Keeps r s) : Keeps r (Prep.state (prepare s c k)) := by
  unfold prepare
  split
  · exact h
  · split
    · next e => exact kept_boundaryFault h e
    · split
      · exact kept_preTrap h
      · next e => exact kept_lineAt h e
      · exact kept_fromLine h

theorem kept_secondIssue {w : BitVec 96} (h : Keeps r s) : Keeps r (secondIssue s w) := kept_with h

theorem kept_pairHolds {c k : Nat} (h : Keeps r s) : Keeps r (pairHolds s t c k) := by
  have h1 : Keeps r (modCore s c fun x => { x with mx := (coreOf t c).mx }) := kept_modCore h fun _ => rfl
  unfold pairHolds
  dsimp only
  split
  · exact kept_setEnd (kept_ite h1 (kept_modCtx h1))
  · exact kept_setEnd h1

theorem kept_keepPlace {v : State} {c : Nat} (h : Keeps r s) : Keeps r (keepPlace v s c) := kept_modCore h fun _ => rfl

theorem kept_advance (h : Keeps r s) : Keeps r (advance s) := kept_with h

theorem kept_execWord {w : BitVec 96} (h : Keeps r s) : Ends r (execWord w s) := by
  unfold execWord
  split <;> exact kept_exec h

theorem kept_withTrailing {c k : Nat} (h : Keeps r s) : Keeps r (withTrailing s t c k) := by
  have h1 := kept_modBanks (c := c) (k := k + 8) (F := fun sl => { sl with act := { sl.act with
    words := withSlot (slotOf t c k).act.words (k + 8), poison := (slotOf t c k).act.poison
        } }) h fun _ => ⟨⟨rfl, rfl⟩, rfl, rfl⟩
  unfold withTrailing
  dsimp only
  split
  · exact h
  · exact kept_with h1

theorem kept_execBoth {w : BitVec 96} (h : Keeps r s) : Ends r (execBoth w s) := by
  have hw := kept_execWord (w := w) h
  unfold execBoth
  dsimp only
  split
  · exact hw
  · split
    · exact hw
    · split
      · next e _ => split
                    · exact ends_next (kept_withTrailing (hw _ e))
                    · exact ends_next (kept_setEnd (kept_pairMismatch h))
      · exact hw

theorem kept_noteOver {w : BitVec 96} {u v : State} (h : Keeps r s) : Keeps r (noteOver w u v s) := by
  unfold noteOver
  dsimp only
  split
  · exact h
  · exact kept_ite h (kept_modCtx h)

theorem kept_runSecond {w : BitVec 96} (h : Keeps r s) (h1 : Keeps r t) : Ends r (runSecond w s t) := by
  have hb := kept_execBoth (w := w) (kept_secondIssue (w := w) h1)
  unfold runSecond
  split
  · next e =>
    have h2 := hb _ e
    split
    · exact ends_next (kept_pairHolds h)
    · exact ends_next (kept_ite h1 (kept_ite (kept_noteOver h2) h2))
  · exact hb

theorem kept_runPrep {p : Prep} (h : Keeps r (Prep.state p)) : Ends r (runPrep p) := by
  cases p with
  | moved s => exact ends_next h
  | single w s => exact kept_execBoth h
  | pair w v s =>
    have hb : Ends r (execBoth w s) := kept_execBoth h
    unfold runPrep
    dsimp only
    generalize execBoth w s = o at hb
    cases o with
    | next u =>
      dsimp only
      split
      · exact kept_runSecond (s := s) h (hb _ rfl)
      · exact ends_next (hb _ rfl)
    | fault => exact ends_fault
    | refused => exact ends_refused

theorem kept_tryIssue {c : Nat} {l : List Nat} (h : Keeps r s) : Ends r (tryIssue c l s) := by
  induction l generalizing s with
  | nil => exact ends_next h
  | cons k rest ih =>
    have hp := kept_prepare (c := c) (k := k) h
    rw [tryIssue]
    split
    · next e =>
      rw [e] at hp
      exact ends_next hp
    · have hr := kept_runPrep hp
      split
      · next e =>
        split
        · exact ends_next (hr _ e)
        · exact ih (kept_keepPlace (hr _ e))
      · exact hr

theorem kept_issueFrom {c : Nat} (h : Keeps r s) : Ends r (issueFrom c s) := by
  unfold issueFrom
  split
  · exact ends_next (kept_takePreempt h)
  · split
    · exact kept_tryIssue h
    · exact kept_tryIssue h

theorem kept_perform {m : Move} (h : Keeps r s) : Ends r (perform m s) := by
  cases m with
  | event i => exact kept_exec h
  | core c => exact kept_issueFrom h
  | outside o => exact ends_next (kept_outsideStep h)

theorem kept_defaultMove (h : Keeps r s) : Ends r (defaultMove s) := by
  unfold defaultMove
  split
  · exact kept_exec h
  · exact kept_issueFrom (kept_with h)

theorem kept_step (h : Keeps r s) : Ends r (step s) := by
  unfold step
  dsimp only
  split
  · exact ends_fault
  · split
    · exact kept_perform (kept_with (kept_advance h))
    · exact kept_defaultMove (kept_advance h)

end

end Sys2Proof.Laws

namespace Sys2Proof.Laws
/-! The two invariants of every step (O58, O59). -/

open Sys2Proof.Machine

/-- Settles O58: every function of the model writes memory and its marks through their canonical operations. -/
theorem memoryStaysCanonical : Obligations.MemoryStaysCanonical := by
  unfold Obligations.MemoryStaysCanonical
  intro s t hs e
  exact (kept_step .refl t e).tidy hs

/-- Settles O59: a bank is replaced only by a whole or an empty one, and what changes within it leaves its valid lines. -/
theorem banksStayWhole : Obligations.BanksStayWhole := by
  unfold Obligations.BanksStayWhole
  intro s t hs e
  exact (kept_step .refl t e).whole hs

end Sys2Proof.Laws

namespace Sys2Proof.Laws
/-! Capsules at a die and at a core, and the residency table's broadcast (R347, R348, R353 to R357, R383). -/

open Sys2Proof.Machine

section
variable {s o : State} {n k die core h : Nat} {q : CapFly} {c : Capsule} {y : ExUpdate} {ups : List ExUpdate}

/-- The premises of a capsule at its die's ingress let it pass: what becomes of it depends on its head. -/
theorem execCapsuleDieIngress_at (hq : s.caps[n]? = some q) (hd : q.dest = none) (he : q.enter = false)
    (ht : capTurn s n q = true) (hcl : (dieSt s q.die).closed = false) :
    execCapsuleDieIngress n s = .next (
      let u := freeBuffer s q
      let out := { u with caps := u.caps.eraseIdx n }
      let c := q.cap
      let clean := !capDiv c && !capBnc c
      if !(dieSt u q.die).up then
        offerTaken (throwCapsule out c (dieOf (capSource c)) none { code := 11, atCore := none, die := q.die }) q
      else if clean && capVer c != 1 then ingressFault out c q.die 4 0x0101
      else if clean && (!headForm c || decide (capItlen c ≤ capCursor c)) then ingressFault out c q.die 3 0
      else if clean && expired u c then ingressFault out c q.die 1 0
      else if capWaits u q.die (placeDie u q.die c (capPlace c)) then s
      else forwardCapsule out q fun _ q => { u with caps := u.caps.set n q }) := by
  simp only [execCapsuleDieIngress, hq, hd, he, ht, hcl, Option.isSome_none, Bool.false_and, Bool.not_true, Bool.or_self,
    Bool.false_eq_true, if_false]

theorem freeBuffer_dies : (freeBuffer s q).dies = s.dies := by
  unfold freeBuffer
  split <;> rfl

theorem dieSt_freeBuffer : dieSt (freeBuffer s q) die = dieSt s die := by
  unfold dieSt
  rw [freeBuffer_dies]

/-- A capsule for a core of the die it is at goes on to that core (R347 steps 4 to 6). -/
theorem forwardCapsule_here {keep : State → CapFly → State} (hk : hopKind (capPlace q.cap) = 0)
    (hp : placeInside s q.cap (capPlace q.cap) = true) (hd : placeDie s q.die q.cap (capPlace q.cap) = q.die)
    (hr : reachable s q.die q.die = true) :
    forwardCapsule s q keep = keep s { q with dest := some (.core (hopCore (capPlace q.cap))), holder := none } := by
  simp only [forwardCapsule, hp, hd, hr, hk, Bool.not_true, Bool.false_eq_true, if_false, ne_eq, not_true_eq_false]

/-- A named core that is bound and has room is chosen; else its refusal's code is 6 or 5 (R348). -/
theorem chooseCore_single : chooseCore s [core] =
    if capBound s core then (if 8 ≤ (coreOf s core).capQ.length then .error 6 else .ok core) else .error 5 := by
  unfold chooseCore
  cases hb : capBound s core
  · simp [hb]
  · simp only [List.filter_cons, hb, if_true, List.filter_nil, List.foldl_cons, List.foldl_nil, capRoom]
    rfl

/-- A capsule for a named core whose die is up and whose deadline has not passed is queued or refused there (R348, R205). -/
theorem execCapsuleCoreIngress_at (hq : s.caps[n]? = some q) (hd : q.dest = some (.core core)) (he : q.enter = false)
    (ht : capTurn s n q = true) (hx : q.expert = none) (hup : (dieSt s (dieOf core)).up = true) (hexp : expired s q.cap = false) :
    execCapsuleCoreIngress n s = .next (
      let out := { s with caps := s.caps.eraseIdx n }
      match chooseCore s [core] with
      | .ok core => setReady (modCore out core fun x =>
          { x with capQ := x.capQ ++ [((classOwner s core 2).getD 32, q.cap)] }) core 2
      | .error code => countRefused (throwCapsule out q.cap (dieOf core) none { code := code, atCore := some core }) core 2) := by
  simp only [execCapsuleCoreIngress, hq, hd, he, ht, hx, hup, hexp, Bool.not_true, Bool.or_self, Bool.and_false,
    Bool.false_eq_true, if_false, offerTaken, refuseAt] <;> cases chooseCore s [core] <;> rfl

theorem Logged.updates {t : State} (h : Logged s t) : t.updates = s.updates := by rw [h.rest]
theorem Logged.copies {t : State} (h : Logged s t) : t.copies = s.copies := by rw [h.rest]
theorem Logged.dieSt {t : State} (h : Logged s t) : dieSt t die = Machine.dieSt s die := by
  unfold Machine.dieSt
  rw [h.rest]

/-- A die that refuses an update stops admitting capsules; the broadcast and the copies stay (R383). -/
theorem refuseUpdate_closes : (dieSt (refuseUpdate s die y) die).closed = true ∧
    (refuseUpdate s die y).updates = s.updates ∧ (refuseUpdate s die y).copies = s.copies := by
  have h : Logged (modDie s die fun x => { x with closed := true }) (refuseUpdate s die y) := logged_logError
  refine ⟨?_, h.updates, h.copies⟩
  rw [h.dieSt, dieSt_modDie, if_pos rfl]

end

/-- Settles O47, by the branches of each event. -/
theorem capsuleAndExpertEvents : Obligations.CapsuleAndExpertEvents := by
  unfold Obligations.CapsuleAndExpertEvents
  intro s o n k die core h q c e y ups hc hh he
  subst hc hh he
  refine ⟨fun hq hd hen ht hcl ho => ?_, fun hq hd hen ht hx hup hexp ho => ?_, fun hy hr hcl => ?_, fun hm hst hl => ?_,
    fun h0 ht => ?_, fun ht hl => ?_⟩
  · have hrun := execCapsuleDieIngress_at hq hd hen ht hcl
    simp only [dieSt_freeBuffer] at hrun
    subst ho
    refine ⟨fun hup hx => ?_, fun hup h1 h2 => ⟨fun hv => ?_, fun hv hf => ?_, fun hv hf hlt hexp => ?_,
      fun hv hf hlt hexp hk hp hpd hreach hw => ?_⟩⟩
    · refine hrun.trans ?_
      simp only [hup, offerTaken, hx, Bool.not_false, if_true]
    · refine hrun.trans ?_
      simp only [hup, h1, h2, bne_iff_ne.mpr hv, Bool.not_true, Bool.not_false, Bool.and_true, Bool.false_eq_true, if_false, if_true,
        ingressFault]
    · refine hrun.trans ?_
      have hbad : (!headForm q.cap || decide (capItlen q.cap ≤ capCursor q.cap)) = true := by
        rw [Bool.or_eq_true, Bool.not_eq_true', decide_eq_true_iff]
        exact hf
      simp only [hup, h1, h2, hv, hbad, bne_self_eq_false, Bool.not_true, Bool.not_false, Bool.and_true, Bool.and_false,
        Bool.false_eq_true, if_false, if_true, ingressFault]
    all_goals
      have hgood : (!headForm q.cap || decide (capItlen q.cap ≤ capCursor q.cap)) = false := by
        rw [hf, decide_eq_false (by omega)]
        rfl
    · refine hrun.trans ?_
      simp only [hup, h1, h2, hv, hgood, hexp, bne_self_eq_false, Bool.not_true, Bool.not_false, Bool.and_true, Bool.and_false,
        Bool.false_eq_true, if_false, if_true, ingressFault]
    · refine hrun.trans ?_
      have hpd' : placeDie (freeBuffer s q) q.die q.cap (capPlace q.cap) = q.die := hpd
      have hw' : capWaits (freeBuffer s q) q.die q.die = false := hw
      simp only [hup, h1, h2, hv, hgood, hexp, hpd', hw', bne_self_eq_false, Bool.not_true, Bool.not_false, Bool.and_true,
        Bool.and_false, Bool.false_eq_true, if_false]
      rw [forwardCapsule_here hk hp hpd hreach]
  · have hrun := execCapsuleCoreIngress_at hq hd hen ht hx hup hexp
    rw [chooseCore_single] at hrun
    subst ho
    refine ⟨fun hb hroom => hrun.trans ?_, fun hb hroom => hrun.trans ?_, fun hb => hrun.trans ?_⟩
    · simp only [hb, if_true, if_neg (by omega : ¬ 8 ≤ (coreOf s core).capQ.length)]
    · simp only [hb, hroom, if_true]
    · simp only [hb, Bool.false_eq_true, if_false]
  · have hrun : execResidencyBroadcastApply die k s = .next (if y.fmt ≠ 1 then refuseUpdate s die y else completeWaiters
        { s with updates := ups, copies := SMap.set {} s.copies (die * 16384 + k % 16384) y.rep } k) := by
      simp only [execResidencyBroadcastApply, hy, hr, hcl, Bool.not_true, Bool.or_self, Bool.false_eq_true, if_false]
    refine ⟨fun hf => hrun.trans ?_, fun hf => ⟨_, hrun.trans (by rw [if_pos hf]), refuseUpdate_closes⟩⟩
    rw [if_neg (not_not_intro hf)]
  · show execResidencyMissResend k s = _
    simp only [execResidencyMissResend, hm, hst, hl, beq_self_eq_true, decide_true, Bool.and_self, if_true]
  · show execSluiceReoffer k s = _
    simp only [execSluiceReoffer, h0, ht, decide_true, Bool.and_self, if_true]
  · show execSluiceReofferTimer k s = _
    simp only [execSluiceReofferTimer, ht, hl, decide_true, Bool.and_self, if_true]

end Sys2Proof.Laws

namespace Sys2Proof.Laws
/-! The work of the home slices and the caches, byte by byte (R308, R309): only what an agent outside the package has written
behind a line shows, and none of a line that may not leave. -/

open Sys2Proof.Machine

/-- From `s` to `t` no byte changes but where a line other than those of `L` leaves its slice and shows what was behind it. -/
structure Shows (L : Nat → Prop) (s t : State) : Prop where
  byte : ∀ a, ((∀ p, p ∈ s.behind → p.1 ≠ a) ∨ L (a / 256)) → readByte t a = readByte s a
  behind : ∀ p, p ∈ t.behind → p ∈ s.behind

section
variable {L : Nat → Prop} {s t u : State} {n sel cl line sec flat k v : Nat}

theorem Shows.refl : Shows L s s := ⟨fun _ _ => rfl, fun _ h => h⟩

theorem Shows.trans (a : Shows L s t) (b : Shows L t u) : Shows L s u :=
  ⟨fun x hx => (b.byte x (hx.imp_left fun h p hp => h p (a.behind p hp))).trans (a.byte x hx), fun p hp => a.behind p (b.behind p hp)⟩

theorem Shows.of_eq (hm : t.mem = s.mem) (hb : t.behind = s.behind) : Shows L s t :=
  ⟨fun a _ => by rw [readByte, hm, readByte], fun p hp => hb ▸ hp⟩

theorem Shows.same (h : Shows L s t) : SameBytes s t := fun a ha => h.byte a (.inl ha)

theorem shows_foldl {α : Type} {F : State → α → State} (hF : ∀ s a, Shows L s (F s a)) (l : List α) (s : State) :
    Shows L s (l.foldl F s) := by
  induction l generalizing s with
  | nil => exact .refl
  | cons a l ih => exact (hF s a).trans (ih _)

theorem shows_ite {p : Prop} [Decidable p] (ht : Shows L s t) (hu : Shows L s u) : Shows L s (if p then t else u) := by
  split
  · exact ht
  · exact hu

theorem shows_modSlice (F : Slice → Slice) : Shows L s (modSlice s n F) := .of_eq rfl rfl
theorem shows_modCluster (F : Cluster → Cluster) : Shows L s (modCluster s cl F) := .of_eq rfl rfl
theorem shows_countSlice : Shows L s (countSlice s n sel k) := .of_eq rfl rfl
theorem shows_slicePut (l : SLine) : Shows L s (slicePut s n l) := .of_eq rfl rfl
theorem shows_dropClusterLine : Shows L s (dropClusterLine s cl line) := .of_eq rfl rfl
theorem shows_touchWatch : Shows L s (touchWatch s line) := .of_eq rfl rfl
theorem shows_endOlder {o : Option Nat} : Shows L s (endOlder s o flat n) := .of_eq rfl rfl
theorem shows_countServed (b : Bool) : Shows L s (countServed s n b) := .of_eq rfl rfl

theorem get_putBehind_foldl (l : List (Nat × Option Byte)) {m : List Host.Cell} {a : Nat} (h : ∀ p, p ∈ l → p.1 ≠ a) :
    SMap.get 0 (l.foldl putBehind m) a = SMap.get 0 m a := by
  induction l generalizing m with
  | nil => rfl
  | cons p l ih =>
    rw [List.foldl_cons, ih fun q hq => h q (List.mem_cons_of_mem _ hq)]
    unfold putBehind
    cases p.2 with
    | none => rfl
    | some b => exact SMap.get_set_ne (h p List.mem_cons_self).symm

theorem shows_clearBehind : Shows L s (clearBehind s flat) := ⟨fun _ _ => rfl, fun _ h => (List.mem_filter.mp h).1⟩

theorem mem_behindSector {p : Nat × Option Byte} (h : p ∈ behindSector s flat) : p ∈ s.behind ∧ p.1 / 128 = flat / 128 := by
  obtain ⟨hp, hl⟩ := List.mem_filter.mp h
  exact ⟨hp, beq_iff_eq.mp hl⟩

theorem shows_settleMarks : Shows L s (settleMarks s flat) := .of_eq rfl rfl

/-- A sector of a line that may leave shows what was behind it. -/
theorem shows_revealSector (hL : ¬ L (flat / 256)) : Shows L s (revealSector s flat) := by
  have hend := shows_foldl (L := L) (fun s (p : Nat × Option Byte) => shows_endOlder (s := s) (o := none) (flat := p.1) (n := 1))
    (behindSector s flat) s
  unfold revealSector
  dsimp only
  generalize (behindSector s flat).foldl _ s = u at hend ⊢
  refine hend.trans (.trans (t := { u with
    mem := (behindSector u flat).foldl putBehind u.mem
    poison := (copyMarked u flat).foldl (fun m w => SMap.set false m w false) u.poison })
    ⟨fun a ha => ?_, fun p hp => hp⟩ (shows_clearBehind.trans shows_settleMarks))
  refine get_putBehind_foldl _ fun p hp hpa => ?_
  obtain ⟨hp, hl⟩ := mem_behindSector hp
  rcases ha with ha | ha
  · exact ha p hp hpa
  · rw [← hpa, show p.1 / 256 = flat / 256 by omega] at ha
    exact hL ha

theorem shows_writeBack (l : SLine) : Shows L s (writeBack s n l sec) := by
  unfold writeBack
  exact shows_ite (shows_clearBehind.trans (.of_eq rfl rfl)) .refl

theorem shows_releaseSector {l : SLine} (hs : sec < 2) (hL : ¬ L l.line) : Shows L s (releaseSector s n l sec) := by
  unfold releaseSector
  refine shows_ite ((shows_writeBack l).trans (shows_revealSector ?_)) .refl
  rw [secFlat, show (l.line * 256 + 128 * sec) / 256 = l.line by omega]
  exact hL

theorem shows_evictLine {l : SLine} (hL : ¬ L l.line) : Shows L s (evictLine s n sel l) := by
  unfold evictLine
  dsimp only
  refine .trans ?_ (((shows_modSlice _).trans (shows_countSlice.trans shows_countSlice)).trans shows_touchWatch)
  refine .trans ?_ ((shows_releaseSector (sec := 0) (by decide) hL).trans (shows_releaseSector (sec := 1) (by decide) hL))
  exact shows_foldl (fun _ _ => shows_dropClusterLine) _ s

theorem victim_not_kept {set : Nat} {keep : List Nat} {l : SLine} (h : victim s n set keep = some l) : l.line ∉ keep := by
  have hm := List.mem_of_mem_getLast? h
  rw [List.mem_filter, Bool.and_eq_true, Bool.not_eq_true', List.contains_eq_mem, decide_eq_false_iff_not] at hm
  exact hm.2.1

variable {set need : Nat} {keep : List Nat}

section
variable (hL : ∀ m, L m → m ∈ keep)
include hL

theorem shows_makeRoom (fuel : Nat) : Shows L s (makeRoom n set sel keep need fuel s) := by
  induction fuel generalizing s with
  | zero => exact .refl
  | succ fuel ih =>
    unfold makeRoom
    refine shows_ite .refl ?_
    split
    · exact .refl
    · next h => exact (shows_evictLine fun hl => victim_not_kept h (hL _ hl)).trans ih

theorem shows_freeTag : Shows L s (freeTag s n set keep) := by
  unfold freeTag
  refine shows_ite .refl ?_
  split
  · next h => exact shows_evictLine fun hl => victim_not_kept h (hL _ hl)
  · exact .refl

end

theorem shows_holdSector {t : Target} (hL : ∀ m, L m → m ∈ (t.flat / 256) :: keep) : Shows L s (holdSector s n keep t).2 := by
  unfold holdSector
  dsimp only
  split
  · split
    · exact shows_slicePut _
    · exact (shows_makeRoom hL 24).trans (.of_eq rfl rfl)
  · exact ((shows_freeTag hL).trans (shows_makeRoom hL 24)).trans (.of_eq rfl rfl)

theorem shows_trimCluster {line : Nat} {grow : Bool} (fuel : Nat) : Shows L s (trimCluster cl set line grow fuel s) := by
  induction fuel generalizing s with
  | zero => exact .refl
  | succ fuel ih =>
    unfold trimCluster
    simp only
    split
    · exact .refl
    · split
      · exact .refl
      · refine .trans ?_ ih
        split <;> exact .of_eq rfl rfl

/-- What a write at a home makes its slice and the caches do: the line written does not leave. -/
theorem shows_noteWrite {o : Option Nat} {t : Target} (hL : ∀ m, L m → m ∈ (t.flat / 256) :: keep) :
    Shows L s (noteWrite s o n keep t) := by
  unfold noteWrite
  dsimp only
  have htouch := shows_touchWatch (L := L) (s := s) (line := t.flat / 256)
  split
  · exact htouch
  · next l _ =>
    have hput (u : State) (m : SLine) (k g : Nat) (h : Shows L s u) :
        Shows L s (countSlice (slicePut (makeRoom n l.set 9 (t.flat / 256 :: keep) g 24 u) n m) n 13 k) :=
      (h.trans (shows_makeRoom hL 24)).trans (.of_eq rfl rfl)
    have hdrop := htouch.trans (shows_foldl (fun s c => shows_dropClusterLine (L := L) (s := s) (cl := c) (line := t.flat / 256))
      (sharerClusters (touchWatch s (t.flat / 256)).pkg (l.sharers &&& ~~~(match o with
        | some c => BitVec.ofNat 128 (2 ^ (c % 128))
        | none => 0))) _)
    split
    · exact hput _ _ _ _ hdrop
    · exact (hput _ _ _ _ hdrop).trans (shows_trimCluster 64)

/-- A store at its home, within a line: its bytes and no others, but for what a line that leaves shows. -/
theorem homeWrite_stored {w : Writer} {t : Target} (ht : t.flat % 256 + n ≤ 256) :
    StoredAtHome s (homeWrite s w t n v) t.flat n v := by
  have hnone (u : State) : Shows (fun _ => False) u (endOlder u w.core t.flat n) := shows_endOlder
  have hline (j : Nat) (hj : j < n) : (t.flat + j) / 256 = t.flat / 256 := by omega
  obtain ⟨u, v', hu, hn, rfl⟩ : ∃ u v', Shows (fun _ => False) s u ∧ Shows (· = t.flat / 256) (writeBytes u t.flat n v) v' ∧
      homeWrite s w t n v = v' := by
    unfold homeWrite homeWriteIn
    dsimp only
    split
    · exact ⟨_, _, hnone s, shows_touchWatch, rfl⟩
    · next h _ =>
      have hh := shows_holdSector (L := fun _ => False) (s := endOlder s w.core t.flat n) (n := h) (keep := []) (t := t) nofun
      exact ⟨_, _, ((hnone s).trans hh).trans (shows_countServed _),
        shows_noteWrite fun m hm => List.mem_cons.mpr (.inl hm), rfl⟩
  obtain ⟨hin, hout⟩ := writeBytes_stored (s := u) (k := t.flat) (n := n) (v := v)
  refine ⟨fun j hj => (hn.byte _ (.inr (hline j hj))).trans (hin j hj), fun a ha hb => ?_⟩
  refine (hn.byte a (.inl fun p hp => hb p (hu.behind p hp))).trans ((hout a ha).trans (hu.byte a (.inl hb)))

end

end Sys2Proof.Laws

namespace Sys2Proof.Laws
/-! The mailbox, fault replies, admission, deadlines and doorbells (R372 to R374, R377 to R381). -/

open Sys2Proof.Machine

/-- From `s` to `t` only cores have changed, whose tasks are the same and of whose bind records none has become held. -/
structure Settles (s t : State) : Prop where
  rest : t = { s with cores := t.cores }
  tasks : ∀ c, (coreOf t c).tasks = (coreOf s c).tasks
  held : ∀ c b, (bindOf t c b).state = 5 → (bindOf s c b).state = 5

/-- A held record becomes ready (R377). -/
def freed (time : Word) (r : Bind) : Bind :=
  if r.state = 5 then { r with state := 1, rtime := BitVec.ofNat 55 time.toNat } else r

section
variable {s t u : State} {c b k : Nat}

theorem Settles.refl : Settles s s := ⟨rfl, fun _ => rfl, fun _ _ => id⟩

theorem Settles.trans (a : Settles s t) (b : Settles t u) : Settles s u :=
  ⟨b.rest.trans (by rw [a.rest]), fun c => (b.tasks c).trans (a.tasks c), fun c k h => a.held c k (b.held c k h)⟩

theorem settles_foldl {α : Type} {F : State → α → State} (hF : ∀ s a, Settles s (F s a)) (l : List α) (s : State) :
    Settles s (l.foldl F s) := by
  induction l generalizing s with
  | nil => exact .refl
  | cons a l ih => exact (hF s a).trans (ih _)

theorem settles_modCore {F : Core → Core} (ht : ∀ x, (F x).tasks = x.tasks)
    (hb : ∀ x k, (SMap.get ({} : Bind) (F x).table k).state = 5 → (SMap.get ({} : Bind) x.table k).state = 5) :
    Settles s (modCore s c F) := by
  refine ⟨rfl, fun c' => ?_, fun c' k h => ?_⟩
  · by_cases hc : c' = c
    · rw [hc, coreOf_modCore_eq, ht]
    · rw [coreOf_modCore_ne hc]
  · by_cases hc : c' = c
    · rw [bindOf, hc, coreOf_modCore_eq] at h
      rw [hc]
      exact hb _ _ h
    · rw [bindOf, coreOf_modCore_ne hc] at h
      exact h

theorem settles_modBind {F : Bind → Bind} (hF : ∀ r, (F r).state = 5 → r.state = 5) : Settles s (modBind s c b F) := by
  refine settles_modCore (fun _ => rfl) fun x k h => ?_
  by_cases hk : k = b
  · rw [hk] at h ⊢
    rw [SMap.get_set_eq] at h
    exact hF _ h
  · rw [SMap.get_set_ne hk] at h
    exact h

theorem bindOf_modBind {F : Bind → Bind} : bindOf (modBind s c b F) c b = F (bindOf s c b) := by
  rw [bindOf, modBind, coreOf_modCore_eq]
  exact SMap.get_set_eq

theorem settles_dispatchFree : Settles s (dispatchFree s c) := by
  have hswap (u : State) (F : Core → Option Swap) : Settles u (modCore u c fun x => { x with swap := F x }) :=
    settles_modCore (fun _ => rfl) fun _ _ => id
  unfold dispatchFree
  split
  · exact .refl
  · split
    · exact .refl
    · exact (settles_modBind fun _ (h : (2 : BitVec 3) = 5) => absurd h (by decide)).trans (hswap _ fun _ => _)

theorem freed_state {time : Word} {r : Bind} : (freed time r).state ≠ 5 := by
  unfold freed
  split
  · exact (by decide : (1 : BitVec 3) ≠ 5)
  · assumption

/-- What one step of a fold brings about, and the others keep, holds after it. -/
theorem foldl_reaches {α : Type} {F : State → α → State} {P Q : State → Prop} {l : List α} {a : α} (ha : a ∈ l)
    (hP : ∀ s x, P s → P (F s x)) (hQ : ∀ s x, Q s → Q (F s x)) (hF : ∀ s, Q s → P (F s a)) {s : State} (hs : Q s) :
    P (l.foldl F s) := by
  have hkeep (l : List α) (s : State) (h : P s) : P (l.foldl F s) := by
    induction l generalizing s with
    | nil => exact h
    | cons x l ih => exact ih _ (hP s x h)
  induction l generalizing s with
  | nil => cases ha
  | cons x l ih =>
    rcases List.mem_cons.mp ha with rfl | ha
    · exact hkeep l _ (hF s hs)
    · exact ih ha (hQ s x hs)

theorem firmwareRuns_setLaunch {die : Nat} {l : Launch} (h : firmwareRuns s die = true) : firmwareRuns (setLaunch s l) die = true := by
  obtain ⟨hl, hu⟩ := Bool.and_eq_true_iff.mp h
  have hne {d : Die} (hd : d.loaded = true) : d ≠ {} := fun e => by
    rw [e] at hd
    cases hd
  have hd : dieSt (setLaunch s l) die = { dieSt s die with devQ := (dieSt s die).devQ.map fun m => if m.token = l.token then l else m } :=
    get_mapOn_of_ne (d := ({} : Die)) (m := s.dies) (g := fun _ (d : Die) => { d with devQ := d.devQ.map fun m => if m.token = l.token then l else m }) (hne hl) (hne hl)
  rw [firmwareRuns, hd]
  exact Bool.and_eq_true_iff.mpr ⟨hl, hu⟩

/-- The launches of a token are the one that has been put in their place. -/
theorem setLaunch_step {l y : Launch} (hy : y ∈ (setLaunch s l).launches) (ht : y.token = l.token) : y = l := by
  obtain ⟨m, -, rfl⟩ := List.mem_map.mp hy
  split
  · rfl
  · next h => rw [if_neg h] at ht; exact absurd ht h

/-- The release of a gang's held records, core by core (R377). -/
def releaseGang (l : Launch) (placed : List Nat) (s : State) : State :=
  placed.foldl dispatchFree (placed.foldl (fun s c =>
    (((coreOf s c).tasks.filter fun p => p.2.token == l.token).map Prod.fst).foldl (fun s b => modBind s c b (freed s.time)) s) s)

theorem settles_freed {cs : List Nat} : Settles s (cs.foldl (fun s b => modBind s c b (freed s.time)) s) :=
  settles_foldl (fun _ _ => settles_modBind fun _ h => absurd h freed_state) cs s

theorem settles_releaseGang {l : Launch} {placed : List Nat} : Settles s (releaseGang l placed s) :=
  (settles_foldl (fun _ _ => settles_freed) placed s).trans (settles_foldl (fun _ _ => settles_dispatchFree) placed _)

theorem Settles.still (a : Settles t u) (h : (bindOf t c b).state ≠ 5) : (bindOf u c b).state ≠ 5 := fun e => h (a.held c b e)

/-- No record of the launch on a core of the list stays held. -/
theorem releaseGang_frees {l : Launch} {placed : List Nat} (hc : c ∈ placed) {y : Task} (hy : (b, y) ∈ (coreOf s c).tasks)
    (ht : y.token = l.token) : (bindOf (releaseGang l placed s) c b).state ≠ 5 := by
  refine (settles_foldl (fun _ _ => settles_dispatchFree) placed _).still ?_
  refine foldl_reaches (P := fun u => (bindOf u c b).state ≠ 5) (Q := fun u => (b, y) ∈ (coreOf u c).tasks) hc
    (fun u _ h => settles_freed.still h) (fun u d h => ?_) (fun u h => ?_) hy
  · exact ((settles_freed (s := u) (c := d)).tasks c).symm ▸ h
  · have hb : b ∈ ((coreOf u c).tasks.filter fun p => p.2.token == l.token).map Prod.fst :=
      List.mem_map.mpr ⟨(b, y), List.mem_filter.mpr ⟨h, beq_iff_eq.mpr ht⟩, rfl⟩
    refine foldl_reaches (P := fun u => (bindOf u c b).state ≠ 5) (Q := fun _ => True) hb
      (fun _ _ h => (settles_modBind fun _ h => absurd h freed_state).still h) (fun _ _ _ => trivial) (fun v _ => ?_) trivial
    rw [bindOf_modBind]
    exact freed_state

theorem execGangBindRelease_held {l : Launch} (hl : s.launches[k]? = some l) (h9 : l.step = 9) :
    ∃ placed, (∀ c, c ∈ l.placed → firmwareRuns s (dieOf c) = true → c ∈ placed) ∧
      execGangBindRelease k s = .next (releaseGang l placed (setLaunch s { l with step := 10 })) := by
  refine ⟨l.placed.filter fun c => firmwareRuns (setLaunch s { l with step := 10 }) (dieOf c),
    fun c hc hr => List.mem_filter.mpr ⟨hc, firmwareRuns_setLaunch hr⟩, ?_⟩
  unfold execGangBindRelease
  rw [hl]
  dsimp only
  rw [if_neg (not_not_intro h9)]
  rfl

end

end Sys2Proof.Laws

namespace Sys2Proof.Laws
/-! Supervisors, launches and the host's queues, statement by statement (O49). -/

open Sys2Proof.Machine

section
variable {s t u : State} {part die n q cause k f : Nat} {m : Mail} {p : Part} {l : Launch} {x : Ctx} {v : Word} {d : Doorbell}

theorem Busy.net (h : Busy s t) : t.net = s.net := by rw [h.rest]
theorem Busy.mail (h : Busy s t) : t.mail = s.mail := by rw [h.rest]
theorem Busy.parts (h : Busy s t) : t.parts = s.parts := by rw [h.rest]
theorem Busy.dies (h : Busy s t) : t.dies = s.dies := by rw [h.rest]
theorem Busy.queues (h : Busy s t) : t.queues = s.queues := by rw [h.rest]

theorem partOf_modPart {F : Part → Part} : partOf (modPart s part F) part = F (partOf s part) := SMap.get_set_eq

theorem partOf_pushMsg {y : Msg} : partOf (pushMsg s y) part = partOf s part := rfl

/-- The notice that a mailbox entry is there (R378). -/
def mailNotice (p : Part) (k : Nat) : Msg :=
  { cls := 7, src := dieOf p.supCore * 512, dst := p.supCore, tag := 0, status := 0,
    words := [BitVec.ofNat 64 k], call := false, launch := 0, frame := 0, slot := 0, entry := none,
    held := false, ord := 0, hw := true }

/-- The first waiting message whose ring has room is written at its ring's tail, and its notice sent (R378). -/
theorem execMailboxPost_some (hm : s.mail.find? (mailRoom s) = some m) (hp : p = partOf s m.part) (hk : k = p.mbTail % 4096) :
    ∃ w, Busy { s with mail := s.mail.eraseP (mailRoom s) } w ∧
      w = homeWrite { s with mail := s.mail.eraseP (mailRoom s) } .other (dramTarget (p.mailbox + 32 * k)) 32
        (packBits 64 [m.ctxid.toNat, m.pc.toNat, m.code.toNat, m.addr.toNat]) ∧
      execMailboxPost s = .next (pushMsg (modPart w m.part fun p => { p with mbTail := p.mbTail + 1 }) (mailNotice p k)) := by
  subst hp hk
  refine ⟨_, busy_homeWrite _ _, rfl, ?_⟩
  unfold execMailboxPost
  rw [hm]
  rfl

theorem packBits_four {a b c d : Nat} (ha : a < 2 ^ 64) (hb : b < 2 ^ 64) (hc : c < 2 ^ 64) (hd : d < 2 ^ 64) :
    packBits 64 [a, b, c, d] = a + b * 2 ^ 64 + c * 2 ^ 128 + d * 2 ^ 192 := by
  simp only [packBits]
  omega

theorem mailboxPost_stores (hm : s.mail.find? (mailRoom s) = some m) (hp : p = partOf s m.part) (hk : k = p.mbTail % 4096)
    (ha : p.mailbox % 32 = 0) : ∃ t y, exec .mailboxPost s = .next t ∧ t.mail = s.mail.eraseP (mailRoom s) ∧
      (partOf t m.part).mbTail = p.mbTail + 1 ∧
      StoredAtHome s t (p.mailbox + 32 * k) 32
        (m.ctxid.toNat + m.pc.toNat * 2 ^ 64 + m.code.toNat * 2 ^ 128 + m.addr.toNat * 2 ^ 192) ∧
      t.net = s.net ++ [y] ∧ y.cls = 7 ∧ y.dst = p.supCore ∧ y.words = [BitVec.ofNat 64 k] ∧ y.hw = true := by
  obtain ⟨w, hw, hwe, he⟩ := execMailboxPost_some hm hp hk
  have hst := homeWrite_stored (s := { s with mail := s.mail.eraseP (mailRoom s) }) (w := .other)
    (t := dramTarget (p.mailbox + 32 * k)) (n := 32)
    (v := packBits 64 [m.ctxid.toNat, m.pc.toNat, m.code.toNat, m.addr.toNat]) (by
      show (p.mailbox + 32 * k) % 256 + 32 ≤ 256
      omega)
  rw [← hwe, packBits_four (BitVec.isLt _) (BitVec.isLt _) (BitVec.isLt _) (BitVec.isLt _)] at hst
  refine ⟨_, { mailNotice p k with ord := s.ord }, he, hw.mail, ?_, hst, ?_, rfl, rfl, rfl, rfl⟩
  · rw [partOf_pushMsg, partOf_modPart, partOf, hw.parts, hp]
    rfl
  · show w.net ++ [{ mailNotice p k with ord := w.ord }] = _
    rw [hw.rest]

/-- A reply in turn, where its millwright core runs: discarded and counted, or applied (R379). -/
theorem execFaultReply_in_turn {r : Nat → Word} (hp : p = partOf s part) (hx : p.exists_ = true)
    (hr : firmwareRuns s (dieOf p.supCore) = true) (hk : k = p.replyHead % 4096) (ht : (readWord s p.replyTail).toNat % 4096 ≠ k)
    (hrec : r = fun i => readWord s (p.replyRing + 32 * k + 8 * i))
    (hu : u = modPart (noteSlice (noteSlice s (dramTarget p.replyTail)) (dramTarget (p.replyRing + 32 * k))) part
      (fun p => { p with replyHead := (k + 1) % 4096 })) :
    execFaultReply part s = .next (((if fld (r 1) 63 56 ≠ 1 then none else (replyTarget u part (r 0)).bind fun q =>
      applyReply (noteFrame (noteFrame u q.1 wStatus) q.1 wEpc) part q.1 q.2 (fld (r 1) 2 0) (r 2))).getD
        (modPart u part fun p => { p with discarded := p.discarded + 1 })) := by
  subst hp hk hu hrec
  have hgo : (!(partOf s part).exists_ || decide ((readWord s (partOf s part).replyTail).toNat % 4096 = (partOf s part).replyHead % 4096)
      || !firmwareRuns s (dieOf (partOf s part).supCore)) = false := by
    rw [hx, hr, decide_eq_false ht]
    rfl
  unfold execFaultReply
  dsimp only
  rw [hgo, if_neg Bool.false_ne_true]
  generalize (if fld _ 63 56 ≠ 1 then none else _ : Option State) = o
  cases o <;> rfl

theorem unpark_again {tr : TrapInfo} (hx : x.park = some (.escalated tr)) : unpark s f x false v =
    modCtx (writeFrame s f wPc tr.pc) f (fun x => { x with park := none, wait := none }) := by
  simp only [unpark, hx, Bool.false_and, Bool.false_eq_true, if_false, Bool.not_false, Bool.and_true]

theorem unpark_past {tr : TrapInfo} (hx : x.park = some (.escalated tr)) (ha : tr.async = false) : unpark s f x true v =
    modCtx (writeFrame s f wPc (pcNext tr.pc)) f fun x => { x with park := none, wait := none, entry := false } := by
  simp only [unpark, hx, ha, Bool.not_false, Bool.true_and, if_true, Bool.not_true, Bool.and_false]

/-- Step 1 to 4 of R372: a record's version, its reserved bits and its place. -/
theorem admissionCheck_version (h : bitsOf (lWord l 0) 63 56 ≠ 1) : admissionCheck s l = some 1 := if_pos h

theorem admissionCheck_reserved (h : bitsOf (lWord l 0) 63 56 = 1) (hr : bitsOf (lWord l 0) 55 48 ≠ 0) :
    admissionCheck s l = some 4 := by
  simp only [admissionCheck, h, ne_eq, not_true_eq_false, if_false, hr, not_false_eq_true, decide_true, Bool.true_or, if_true]

theorem admissionCheck_place (h : bitsOf (lWord l 0) 63 56 = 1) (hr : bitsOf (lWord l 0) 55 48 = 0)
    (hr2 : bitsOf (lWord l 0) 35 20 = 0) (hr3 : bitsOf (lWord l 8) 11 10 = 0) (hz : ∀ j, 10 ≤ j → j < 15 → lWord l j = 0)
    (hp : launchCount l = 0 ∨ (placement (lWord l 8)).length < launchCount l) : admissionCheck s l = some 2 := by
  have hany : ((upFrom 10 5).any fun k => lWord l k != 0) = false := by
    refine List.any_eq_false.mpr fun j hj => ?_
    obtain ⟨h1, h2⟩ := mem_upFrom.mp hj
    rw [hz j h1 (by omega)]
    decide
  have hbad : (decide (launchCount l = 0) || decide ((placement (lWord l 8)).length < launchCount l)) = true := by
    rw [Bool.or_eq_true, decide_eq_true_iff, decide_eq_true_iff]
    exact hp
  simp only [admissionCheck, h, hr, hr2, hr3, hany, hbad, ne_eq, not_true_eq_false, if_false, decide_false, Bool.or_self,
    Bool.false_eq_true, if_true]

theorem execLaunchAdmission_of (hl : (dieSt s die).devQ.find? (fun l => !queueBefore s l) = some l) (hr : firmwareRuns s die = true)
    (hu : u = modDie s die (fun d => { d with devQ := d.devQ.filter fun m => m.token != l.token })) :
    execLaunchAdmission die s = .next (match admissionCheck u l with
      | some c => refuseLaunch u l c
      | none => advanceLaunch
          { u with launches := u.launches ++ [{ l with step := 6, placed := (placement (lWord l 8)).take (launchCount l) }] }
          { l with step := 6, placed := (placement (lWord l 8)).take (launchCount l) }) := by
  subst hu
  unfold execLaunchAdmission
  rw [hl]
  dsimp only
  rw [hr, Bool.not_true, if_neg Bool.false_ne_true] <;> rfl

theorem missDeadline_passed (hv : fld (l.words.getD 0 0) 63 56 = 1) (h0 : launchDeadline l ≠ 0) (hm : l.missed = false)
    (ht : launchDeadline l < s.time.toNat) :
    missDeadline s l = (postMail s l.part 0 0 0x10 l.token, { l with missed := true }) := by
  simp only [missDeadline, hv, h0, hm, ne_eq, not_true_eq_false, decide_false, Bool.or_self, decide_eq_false (Nat.not_le.mpr ht),
    Bool.false_eq_true, if_false]

theorem missDeadline_not (h : fld (l.words.getD 0 0) 63 56 ≠ 1 ∨ launchDeadline l = 0 ∨ l.missed = true ∨ s.time.toNat ≤ launchDeadline l) :
    missDeadline s l = (s, l) := by
  refine if_pos ?_
  simp only [Bool.or_eq_true, decide_eq_true_eq]
  tauto

theorem execDeadlinePass_passed (hl : (liveLaunches s)[n]? = some l) (hv : fld (l.words.getD 0 0) 63 56 = 1)
    (h0 : launchDeadline l ≠ 0) (hm : l.missed = false) (ht : launchDeadline l < s.time.toNat)
    (hu : u = setLaunch (postMail s l.part 0 0 0x10 l.token) { l with missed := true }) :
    execDeadlinePass n s = .next (if lKdl l then dispatchAll (killLaunch u l.token) else u) := by
  subst hu
  unfold execDeadlinePass
  rw [hl]
  dsimp only
  rw [missDeadline_passed hv h0 hm ht, hm]
  rfl

theorem execHostDoorbell_ignored (h : s.stage < 6 ∨ (queueOf s q).enabled = false ∨ (q = 0 ∧ d.writer ≠ none) ∨
    (q ≠ 0 ∧ d.writer ≠ some (queueOf s q).part)) : execHostDoorbell q d s = .next { s with ignored := s.ignored + 1 } := by
  refine congrArg Host.Outcome.next (if_pos ?_)
  rw [Bool.or_eq_true, decide_eq_true_iff, Bool.not_eq_true', mayRing, Bool.and_eq_false_iff]
  refine h.imp_right (Or.imp_right fun hw => ?_)
  rcases hw with ⟨rfl, hw⟩ | ⟨hq, hw⟩
  · rw [if_pos rfl, Option.isNone_eq_false_iff]
    exact Option.isSome_iff_ne_none.mpr hw
  · rw [if_neg hq]
    exact beq_eq_false_iff_ne.mpr hw

/-- A doorbell by its queue's writer (R381). -/
theorem execHostDoorbell_rung (hst : 6 ≤ s.stage) (he : (queueOf s q).enabled = true)
    (hw : d.writer = if q = 0 then none else some (queueOf s q).part) :
    execHostDoorbell q d s = .next (if q = 0
      then setQueue s 0 { queueOf s q with tail := fld d.value 15 0 % ringSize (queueOf s q) }
      else serveQueue (setQueue s q { queueOf s q with tail := fld d.value 15 0 % ringSize (queueOf s q) }) q) := by
  refine congrArg Host.Outcome.next (if_neg ?_)
  rw [Bool.or_eq_true, decide_eq_true_iff, Bool.not_eq_true', mayRing, he, Bool.true_and, hw]
  rintro (h | h)
  · omega
  · split at h
    · cases h
    · rw [beq_self_eq_true] at h
      cases h

theorem queueOf_setQueue {y : HostQueue} : queueOf (setQueue s q y) q = y := SMap.get_set_eq

theorem ringSize_tail {y : HostQueue} {k : Nat} : ringSize { y with tail := k } = ringSize y := rfl

theorem acceptFrom_stays {y : HostQueue} {j : Nat} (hy : y = queueOf s q)
    (h : y.head = y.tail ∨ baseUp s (recordDie s q y y.head) = false) : acceptFrom q (j + 1) s = s := by
  subst hy
  refine if_pos ?_
  rw [Bool.or_eq_true, decide_eq_true_iff, Bool.not_eq_true']
  exact h

theorem acceptFrom_goes {y : HostQueue} {j : Nat} (hy : y = queueOf s q) (ht : y.head ≠ y.tail)
    (hb : baseUp s (recordDie s q y y.head) = true) : acceptFrom q (j + 1) s =
      acceptFrom q j (setQueue (acceptHost q y s y.head) q { y with head := (y.head + 1) % ringSize y }) := by
  subst hy
  refine if_neg ?_
  rw [Bool.or_eq_true, decide_eq_true_iff, Bool.not_eq_true', hb]
  simp [ht]

/-- The record of a host queue joins the queue of the die that admits it, under the die's next token (R372, R373). -/
theorem acceptHost_joins {y : HostQueue} {j : Nat} : ∃ z, (dieSt (acceptHost q y s j) (recordDie s q y j)).devQ =
      (dieSt s (recordDie s q y j)).devQ ++ [z] ∧
    z.token = (takeToken s (recordDie s q y j)).1 ∧ z.src = q ∧ z.part = y.part ∧ z.die = recordDie s q y j ∧
    z.words = (splitBits 64 16 (portRead s (slotAddr y q j) 128)).map (BitVec.ofNat 64) := by
  have hb {u : State} {a n v : Nat} : dieSt (portWrite u a n v) (recordDie s q y j) = dieSt u (recordDie s q y j) := by
    rw [dieSt, busy_portWrite.dies, dieSt]
  refine ⟨{ token := (takeToken s (recordDie s q y j)).1
            words := (splitBits 64 16 (portRead s (slotAddr y q j) 128)).map (BitVec.ofNat 64)
            die := recordDie s q y j, part := y.part, src := q, ord := s.ord }, ?_, rfl, rfl, rfl, rfl, rfl⟩
  unfold acceptHost
  dsimp only
  rw [dieSt_modDie, if_pos rfl]
  refine congrArg (· ++ _) ?_
  refine (congrArg Die.devQ hb).trans ?_
  rw [takeToken, dieSt_modDie, if_pos rfl]

end

/-- Settles O49, by the branches of each event. -/
theorem supervisorAndLaunchEvents : Obligations.SupervisorAndLaunchEvents := by
  unfold Obligations.SupervisorAndLaunchEvents
  intro s u part die n q cause k f m p l x v d r
  refine ⟨mailboxPost_stores, fun h => ?_, fun hp hx hr hk ht hrec hu => ?_, fun t hx => ⟨unpark_again hx, unpark_past hx⟩,
    fun hl hr => ?_, fun hl hr hu => ?_, ⟨admissionCheck_version, admissionCheck_reserved, admissionCheck_place⟩,
    fun hl hs => ?_, fun hl hs => ?_, execDeadlinePass_passed, fun hl h => ?_, execHostDoorbell_ignored, fun hs he hw => ?_,
    fun hs hq he hw hk hu => ?_, fun j y hy => ⟨acceptFrom_stays hy, acceptFrom_goes hy, acceptHost_joins⟩⟩
  · refine congrArg Host.Outcome.next (if_pos ?_)
    rw [h]
    exact Bool.or_true _
  · have hrun := execFaultReply_in_turn hp hx hr hk ht hrec hu
    refine ⟨fun hv => hrun.trans ?_, fun hv ho => hrun.trans ?_, fun hv ho => ⟨fun ha => hrun.trans ?_, fun t ha => hrun.trans ?_⟩⟩
    · rw [if_pos hv]
      rfl
    · rw [if_neg (not_not_intro hv), ho]
      rfl
    · rw [if_neg (not_not_intro hv), ho, Option.bind_some, ha]
      rfl
    · rw [if_neg (not_not_intro hv), ho, Option.bind_some, ha]
      rfl
  · show execLaunchAdmission die s = _
    unfold execLaunchAdmission
    rw [hl]
    dsimp only
    rw [hr]
    rfl
  · have hrun := execLaunchAdmission_of hl hr hu
    refine ⟨fun hc => hrun.trans ?_, fun l' hc hl' => hrun.trans ?_⟩
    · rw [hc]
    · rw [hc, hl']
  · show execAdmissionResume n s = _
    unfold execAdmissionResume
    rw [hl]
    dsimp only
    rw [if_pos hs]
  · obtain ⟨placed, hplaced, he⟩ := execGangBindRelease_held hl hs
    have hset := settles_releaseGang (s := setLaunch s { l with step := 10 }) (l := l) (placed := placed)
    refine ⟨_, he, ?_, fun y hy ht => ?_, fun c b hc hr ⟨y, hy, ht⟩ => releaseGang_frees (hplaced c hc hr) hy ht⟩
    · rw [hset.rest]
      rfl
    · rw [hset.rest] at hy
      rw [setLaunch_step hy ht]
  · show execDeadlinePass n s = _
    unfold execDeadlinePass
    rw [hl]
    dsimp only
    rw [missDeadline_not h, if_pos rfl]
  · exact (execHostDoorbell_rung hs he hw).trans rfl
  · refine (execHostDoorbell_rung hs he (hw.trans (if_neg hq).symm)).trans ?_
    rw [if_neg hq, hu, hk, serveQueue, queueOf_setQueue, ringSize_tail]

end Sys2Proof.Laws

namespace Sys2Proof.Refutations
/-! A refutation that turns on the part of a frame that no bank holds. -/

open Sys2Proof.Machine Sys2Proof.Tests

-- one proof at a time: those that wait for the kernel to evaluate a state would each hold a thread
set_option Elab.async false

/-- A line of the set that SECPIN of `0x10000` fills, with more billets than leave room for another: it holds the words from
672 on of frame 2, which lie above those that a bank holds. -/
def upperLine : SLine :=
  { line := 0x55, set := 1, cmp := false, held := 3, enc0 := 8 * 64, enc1 := 0, dirty := 0, sharers := 0, pinned := 0 }

/-- The supervisor's context of frame 2. An agent outside the package has written behind `upperLine`, at word 700 of the
frame. -/
def writtenBehind : State :=
  { sup paged with slices := [(1, { lines := [upperLine] })], behind := [(0x55E0, some 0xAA)] }

/-- Word 700 of frame 2 after a step. -/
def upperWord : Out → Option Word
  | .next t => some (readFrame t 2 700)
  | _ => none

theorem upperWord_writtenBehind : upperWord (exec (.secpin (pinOp 0)) writtenBehind) = some 0xAA := by decide +kernel

/-- Whether the route of the page that SECPIN finds changes. -/
def pinWaits (p : State × Found) : Bool :=
  match p with
  | (u, .page level pte) => targetWaits u (dieOf 0) u.ord (target u.pkg 0x10000 level pte)
  | _ => false

theorem pinWaits_writtenBehind : pinWaits (engineXlate (openEntry writtenBehind 2 0 5 0) 0 0
    (ctxPart (openEntry writtenBehind 2 0 5 0) x0) 0x10000) = false := by decide +kernel

/-- Refutes O60: SECPIN's line takes the place of another, whose bytes an agent outside the package had written; they are a
word of the context's frame. -/
theorem not_sliceAndSupervisorFormsComplete : ¬ Obligations.SliceAndSupervisorFormsComplete := by
  intro h
  have hpin := (h.1 (pinOp 0) writtenBehind 2 _ 0x10000 0 x0 _ _ _ _ _ (by decide +kernel) rfl rfl rfl (by decide +kernel) rfl rfl
    rfl).2.2.2.1 (by decide +kernel) (by decide +kernel)
  obtain ⟨t, -, -, ht, ⟨-, -, -, hframe⟩, -⟩ := (hpin fun u level pte hx => by
    have hw := pinWaits_writtenBehind
    rw [show (pinOp 0).d = 5 from rfl] at hx
    rw [show x0.core = 0 from rfl, show x0.slot = 0 from rfl] at hx
    rw [hx] at hw
    exact hw).1 (by decide +kernel)
  have hword := upperWord_writtenBehind
  rw [ht, upperWord, hframe 700 (by decide) (by decide) (by decide)] at hword
  exact absurd hword (by decide +kernel)

end Sys2Proof.Refutations

namespace Sys2Proof.Laws
/-! Partitions, repair, warm reset and readmission (R380, R393, R394, R396, R399). -/

open Sys2Proof.Machine

/-- What a die's readmission sets of a die. -/
def bootOf (x : Die) : Bool × Nat × Nat := (x.up, x.resetStep, x.image)

/-- From `s` to `t` no die has come up or gone out, no route has changed, and the rounding registers are as they were. -/
structure Steady (s t : State) : Prop where
  boot : ∀ d, bootOf (dieSt t d) = bootOf (dieSt s d)
  detours : t.detours = s.detours
  lfsr : t.lfsr = s.lfsr

section
variable {s t u v : State} {part d off k n : Nat} {r : List Nat}

theorem Steady.refl : Steady s s := ⟨fun _ => rfl, rfl, rfl⟩

theorem Steady.trans (a : Steady s t) (b : Steady t u) : Steady s u :=
  ⟨fun d => (b.boot d).trans (a.boot d), b.detours.trans a.detours, b.lfsr.trans a.lfsr⟩

theorem Steady.of_eq (hd : t.dies = s.dies) (hr : t.detours = s.detours) (hl : t.lfsr = s.lfsr) : Steady s t :=
  ⟨fun d => by rw [dieSt, hd, dieSt], hr, hl⟩

theorem steady_foldl {α : Type} {F : State → α → State} (hF : ∀ s a, Steady s (F s a)) (l : List α) (s : State) :
    Steady s (l.foldl F s) := by
  induction l generalizing s with
  | nil => exact .refl
  | cons a l ih => exact (hF s a).trans (ih _)

theorem steady_ite {p : Prop} [Decidable p] (ht : Steady s t) (hu : Steady s u) : Steady s (if p then t else u) := by
  split
  · exact ht
  · exact hu

theorem Logged.steady (h : Logged s t) : Steady s t := .of_eq (by rw [h.rest]) (by rw [h.rest]) (by rw [h.rest])

theorem Busy.steady (h : Busy s t) : Steady s t := h.logged.steady

theorem Settles.steady (h : Settles s t) : Steady s t := .of_eq (by rw [h.rest]) (by rw [h.rest]) (by rw [h.rest])

theorem steady_modDie {F : Die → Die} (hF : bootOf (F (dieSt s d)) = bootOf (dieSt s d)) : Steady s (modDie s d F) := by
  refine ⟨fun c => ?_, rfl, rfl⟩
  rw [dieSt_modDie]
  split
  · next h => rw [hF, h]
  · rfl

theorem steady_modLink {F : Link → Link} : Steady s (modLink s k F) := .of_eq rfl rfl rfl
theorem steady_noteImage {i : FwImage} : Steady s (noteImage s n i) := .of_eq rfl rfl rfl

theorem steady_setBankMode {cl b : Nat} {m : BitVec 2} : Steady s (setBankMode s cl b m) := by
  have htrim (u : State) : Steady u (trimAll u cl) := steady_foldl (fun _ _ => (busy_trimCluster 64).steady) _ u
  have hdiscard : Steady s (discardBank s cl b) := by
    unfold discardBank
    dsimp only
    refine .trans (t := clearRange s (clusBase cl + b * 2 ^ 17) (2 ^ 17)) (.of_eq rfl rfl rfl) ?_
    split
    · exact steady_foldl (fun _ _ => (busy_dropClusterLine.trans busy_unshare).steady) _ _
    · exact .of_eq rfl rfl rfl
    · exact .refl
  exact (hdiscard.trans (busy_modCluster _).steady).trans (htrim _)

theorem steady_reserveSluice : Steady s (reserveSluice s d) := by
  unfold reserveSluice
  refine steady_ite .refl (steady_ite .refl (.trans ?_ (busy_modCluster _).steady))
  exact steady_foldl (fun _ _ => steady_ite steady_setBankMode .refl) _ s

theorem bootOf_applyRepair (p : Die × List (Nat × Nat)) (e : Nat × Nat × Bool) : bootOf (applyRepair p e).1 = bootOf p.1 := by
  unfold applyRepair
  dsimp only
  split
  · rfl
  · split
    · rfl
    · split <;> rfl

theorem bootOf_applyRepairs (l : List (Nat × Nat × Bool)) (p : Die × List (Nat × Nat)) : bootOf (l.foldl applyRepair p).1 = bootOf p.1 := by
  induction l generalizing p with
  | nil => rfl
  | cons e l ih => exact (ih _).trans (bootOf_applyRepair p e)

theorem steady_applyRepairs : Steady s (applyRepairs s d) :=
  (steady_modDie (bootOf_applyRepairs _ _)).trans (busy_repin _).steady

theorem steady_repairOutcome {unit at_ len st : Nat} {ranges : List (Nat × Nat)} :
    Steady s (repairOutcome s part unit at_ len st ranges) := logged_logError.steady

theorem steady_reportUnspared : Steady s (reportUnspared s part) :=
  steady_foldl (fun _ _ => (steady_modDie rfl).trans (steady_foldl (fun _ _ => steady_repairOutcome) _ _)) _ s

theorem steady_setQueue {q : Nat} {y : HostQueue} : Steady s (setQueue s q y) := .of_eq rfl rfl rfl

theorem steady_acceptHost {q j : Nat} {y : HostQueue} : Steady s (acceptHost q y s j) := by
  have hpw {a v : Nat} : Steady s (portWrite (takeToken s (recordDie s q y j)).2 a 8 v) :=
    (steady_modDie rfl).trans busy_portWrite.steady
  have hord (u : State) : Steady u { u with ord := u.ord + 1 } := .of_eq rfl rfl rfl
  unfold acceptHost
  dsimp only
  exact (hpw.trans (hord _)).trans (steady_modDie rfl)

theorem steady_acceptFrom {q j : Nat} : Steady s (acceptFrom q j s) := by
  induction j generalizing s with
  | zero => exact .refl
  | succ j ih => exact steady_ite .refl ((steady_acceptHost.trans steady_setQueue).trans ih)

theorem steady_serveQueues : Steady s (serveQueues s) :=
  steady_foldl (fun _ _ => steady_acceptFrom.trans busy_portWrite.steady) _ s

/-- A die's slots have their reset values once its arrays are reset (R86). -/
theorem lfsrOf_resetArrays {c j : Nat} (hc : dieOf c = d) (hj : j < 16) : lfsrOf (resetArrays s d) c j = lfsrReset c j := by
  have hget : SMap.get 0 (s.lfsr.filter fun p => dieOf (p.1 / 16) != d) (c * 16 + j) = 0 := by
    rcases SMap.get_mem (d := (0 : BitVec 32)) (m := s.lfsr.filter fun p => dieOf (p.1 / 16) != d) (k := c * 16 + j) with h | h
    · exact h
    · have hd := (List.mem_filter.mp h).2
      rw [show (c * 16 + j) / 16 = c by omega, hc, bne_self_eq_false] at hd
      cases hd
  exact if_pos hget

theorem lfsrOf_steady (h : Steady s t) (c j : Nat) : lfsrOf t c j = lfsrOf s c j := by
  unfold lfsrOf
  rw [h.lfsr]

/-! Records of the management queue (R380). -/

section
variable (hr : nextRecord s = some r) (h1 : bitsOf (recWord r 0) 63 56 = 1)
include hr h1

theorem execPartitionCreate_op1 (ho : recOp r = 1) : execPartitionCreate s = .next (
    if !recFields r then endRecord s 5
    else if recTaken s r then endRecord s 2
    else if recWord r 24 < partBytes s (recWord r 5) || (freePlace s (dieOf (recSupCore s r)) (recWord r 24)).isNone then
      endRecord s 4
    else if !supervisorRoom s r then s
    else endRecord (createPartition s r) 0) := by
  unfold execPartitionCreate
  rw [hr]
  dsimp only
  rw [h1, ho]
  rfl

theorem execPartitionDestroy_op2 (ho : recOp r = 2) : execPartitionDestroy s = .next (
    if !recZeros r then endRecord s 5
    else if !(partOf s (recPart r)).exists_ then endRecord s 3
    else if partGone (killPartition s (recPart r)) (recPart r)
      then endRecord (freePartition (killPartition s (recPart r)) (recPart r)) 0 else killPartition s (recPart r)) := by
  unfold execPartitionDestroy
  rw [hr]
  dsimp only
  rw [h1, ho]
  rfl

theorem execPartitionSet_op3 (ho : recOp r = 3) : execPartitionSet s = .next (
    if !(partOf s (recPart r)).exists_ then endRecord s 3
    else if !recTimes r || !recZeros r then endRecord s 5
    else if (partOf s (recPart r)).poolCap < recWord r 5 then endRecord s 4
    else endRecord (modPart (keepAging s (recPart r)) (recPart r) fun p =>
      { p with sliceUs := if bitsOf (recWord r 3) 31 0 = 0 then 2000 else bitsOf (recWord r 3) 31 0
               aging := bitOf (recWord r 3) 32
               grace := if recWord r 4 = 0 then 4096 else recWord r 4
               poolFrames := recWord r 5 }) 0) := by
  unfold execPartitionSet
  rw [hr]
  dsimp only
  rw [h1, ho]
  rfl

end

/-! Repair requests (R393, R394). -/

/-- A request with no page on its sector ends with status 3. -/
theorem onSector_none {act : Nat → Nat → Target → State → Nat × State} (hd : d = (repairSector s r).1)
    (ho : off = (repairSector s r).2) (hv : v = noteTables (takeRepair s part) part)
    (hn : leavesFrom v (dramBase d + off) 128 4 (partOf v part).root 3 0 = []) :
    onSector s part r act = repairOutcome v part 4 (d % 4 * 2 ^ 60 + off) 128 3 [] := by
  subst hd ho hv
  unfold onSector
  dsimp only
  rw [hn]

/-- A request whose sector a page holds: what its kind does there. -/
theorem onSector_page {act : Nat → Nat → Target → State → Nat × State} {ranges : List (Nat × Nat)} {y : Nat × Nat}
    {ys : List (Nat × Nat)} {t : Target} {st : Nat} (hd : d = (repairSector s r).1)
    (ho : off = (repairSector s r).2) (hv : v = noteTables (takeRepair s part) part)
    (hr : ranges = leavesFrom v (dramBase d + off) 128 4 (partOf v part).root 3 0) (hy : ranges = y :: ys)
    (ht : t = sectorTarget v part d off y.1) (ha : act d off t v = (st, u)) :
    onSector s part r act = repairOutcome u part 4 (d % 4 * 2 ^ 60 + off) 128 st ranges := by
  subst hd ho hv ht
  unfold onSector
  dsimp only
  rw [← hr, hy]
  dsimp only
  rw [ha]

theorem execRepairPin_kind (hr : nextRepair s part = some r) (hk : repairKind r = 1) :
    execRepairPin part s = .next (onSector s part r fun d off t s => match pinSector s t with
      | (0, s') => if listFull s d then (4, s) else (0, addRepair s' d off part false)
      | p => p) := by
  unfold execRepairPin
  rw [hr]
  dsimp only
  rw [hk]
  rfl

theorem execRepairFuse_kind (hr : nextRepair s part = some r) (hk : repairKind r = 2) :
    execRepairFuse part s = .next (onSector s part r fun d off t s =>
      if (dieSt s d).repairs.any fun e => e.1 == off && e.2.2 then (1, s)
      else if listFull s d then (4, s)
      else match pinSector s t with
        | (2, s) => (2, s)
        | (_, s) => (0, addRepair s d off part true)) := by
  unfold execRepairFuse
  rw [hr]
  dsimp only
  rw [hk]
  rfl

theorem execRepairUnpin_kind (hr : nextRepair s part = some r) (hk : repairKind r = 3) :
    execRepairUnpin part s = .next (onSector s part r fun d off t s => ((unpinSector s t).1,
      modDie (unpinSector s t).2 d fun x => { x with repairs := x.repairs.filter fun e => !(e.1 == off && !e.2.2) })) := by
  unfold execRepairUnpin
  rw [hr]
  dsimp only
  rw [hk]
  rfl

theorem execLinkInjectorSet_good (hr : nextRepair s part = some r) (hk : repairKind r = 5) (h1 : bitsOf (r.getD 1 0) 5 0 ≤ 43)
    (h2 : bitsOf (r.getD 2 0) 60 58 = 0) (h3 : bitsOf (r.getD 2 0) 62 61 ≠ 3) : execLinkInjectorSet part s =
    .next (repairOutcome (modLink (takeRepair s part) (bitsOf (r.getD 1 0) 5 0)
      fun x => { x with injector := BitVec.ofNat 64 (r.getD 2 0), armedAt := x.sent }) part 6 0 0 0 []) := by
  have hgood : (decide (43 < bitsOf (r.getD 1 0) 5 0) || bitsOf (r.getD 2 0) 60 58 != 0 || bitsOf (r.getD 2 0) 62 61 == 3) = false := by
    rw [decide_eq_false (by omega), h2, beq_eq_false_iff_ne.mpr h3]
    rfl
  unfold execLinkInjectorSet
  rw [hr]
  dsimp only
  rw [hk, hgood]
  rfl

/-! Warm reset and readmission (R396, R399). -/

theorem resetNext_none (h : (dieSt s d).resetStep = 0) : resetNext s d = none := by
  unfold resetNext
  rw [h]
  rfl

theorem execWarmReset_request (hn : ∀ j, j / 4 = s.pkg → (dieSt s j).resetStep = 0) (hr : nextRepair s part = some r)
    (hk : repairKind r = 4) : execWarmReset part s = .next (
      let d := s.pkg * 4 + bitsOf (r.getD 1 0) 1 0
      let v := takeRepair s part
      let out (st : Nat) := repairOutcome v part (Config.pick (v.tick * 2 ^ 80) % 8) 0 0 st []
      if !holdsDie v part d then out 6
      else if (dieSt v d).halted || !(dieSt v d).up then out 1
      else modDie v d fun x => { x with halted := true, resetStep := 1 }) := by
  have hnone : (upFrom (s.pkg * 4) 4).findSome? (resetNext s) = none := by
    refine List.findSome?_eq_none_iff.mpr fun j hj => ?_
    have := mem_upFrom.mp hj
    exact resetNext_none (hn j (by omega))
  unfold execWarmReset
  rw [hnone, hr]
  dsimp only
  rw [hk, if_neg (not_not_intro rfl)]

/-- The lowest die of the package whose reset can go on does so. -/
theorem execWarmReset_next (hlow : ∀ j, s.pkg * 4 ≤ j → j < d → resetNext s j = none) (hd : d / 4 = s.pkg)
    (ht : resetNext s d = some t) : execWarmReset part s = .next t := by
  have hfirst : (upFrom (s.pkg * 4) 4).findSome? (resetNext s) = some t := by
    obtain h | h | h | h : d = s.pkg * 4 ∨ d = s.pkg * 4 + 1 ∨ d = s.pkg * 4 + 2 ∨ d = s.pkg * 4 + 3 := by omega
    all_goals
      subst h
      simp only [upFrom, List.findSome?_cons]
    · rw [ht]
    · rw [hlow _ (by omega) (by omega), ht]
    · rw [hlow _ (by omega) (by omega), hlow (s.pkg * 4 + 1) (by omega) (by omega), ht]
    · rw [hlow _ (by omega) (by omega), hlow (s.pkg * 4 + 1) (by omega) (by omega),
        hlow (s.pkg * 4 + 1 + 1) (by omega) (by omega), ht]
  unfold execWarmReset
  rw [hfirst]

theorem placeImage_kept {img : Option FwImage} : (placeImage s n img).dies = s.dies ∧ (placeImage s n img).detours = s.detours := by
  cases img <;> exact ⟨rfl, rfl⟩

theorem execDieReadmit_bad {img : Option FwImage} {i : FwImage} (h5 : (dieSt s d).resetStep = 5)
    (hu : u = placeImage s (1 + d % 4) img) (hi : i = storedImage u (1 + d % 4)) (hok : imageOk i = false) :
    execDieReadmit d img s = .next (noteImage (modDie u d fun x => { x with loaded := false }) (1 + d % 4) i) := by
  have h5' : (dieSt u d).resetStep = 5 := by rw [hu, dieSt, placeImage_kept.1]; exact h5
  unfold execDieReadmit
  dsimp only
  rw [← hu, h5', ← hi, hok]
  rfl

/-- The links of a die trained anew (R396). -/
def linksRetrained (d : Nat) (s : State) : State :=
  (dieLinks d ++ [40 + d % 4]).foldl (fun s l => modLink s l fun x => retrain x 2 x.features) s

/-- A die whose arrays are reset and whose image is loaded (R396). -/
def reloaded (u : State) (d : Nat) (i : FwImage) : State :=
  modDie (noteImage (resetArrays u d) (1 + d % 4) i) d fun x =>
    { x with up := true, loaded := true, image := i.ver, resetStep := 0, halted := false, closed := false, pinsKept := [] }

/-- A die as its readmission leaves it, before its sluice, its repairs and its queues (R396). -/
def readmitted (u : State) (d : Nat) (i : FwImage) : State :=
  let s := linksRetrained d (reloaded u d i)
  { s with detours := s.detours.filter (· != crossing d) }

theorem steady_linksRetrained : Steady s (linksRetrained d s) :=
  steady_foldl (fun _ _ => steady_modLink) _ s

theorem reloaded_die {i : FwImage} : bootOf (dieSt (reloaded u d i) d) = (true, 0, i.ver) := by
  rw [reloaded, dieSt_modDie, if_pos rfl]
  rfl

theorem readmitted_rest {i : FwImage} : (readmitted u d i).dies = (linksRetrained d (reloaded u d i)).dies ∧
    (readmitted u d i).lfsr = (linksRetrained d (reloaded u d i)).lfsr := by
  unfold readmitted
  exact ⟨rfl, rfl⟩

theorem readmitted_die {i : FwImage} : bootOf (dieSt (readmitted u d i) d) = (true, 0, i.ver) ∧ crossing d ∉ (readmitted u d i).detours ∧
    ∀ c j, dieOf c = d → j < 16 → lfsrOf (readmitted u d i) c j = lfsrReset c j := by
  refine ⟨?_, fun h => ?_, fun c j hc hj => ?_⟩
  · rw [dieSt, readmitted_rest.1]
    exact (steady_linksRetrained.boot d).trans reloaded_die
  · have := (List.mem_filter.mp h).2
    rw [bne_self_eq_false] at this
    cases this
  · rw [lfsrOf, readmitted_rest.2]
    exact (lfsrOf_steady steady_linksRetrained c j).trans (lfsrOf_resetArrays hc hj)

/-- What a readmitted die does at once: its sluice, its repairs and pins, its partitions and its queues. -/
def rejoined (d : Nat) (pins : List Nat) (s : State) : State :=
  let s := if s.parts.any fun p => p.2.exists_ then reserveSluice s d else s
  let s := logAll (repin (applyRepairs s d) pins) 6 (d % 4)
  let s := ((s.parts.filter fun p => p.2.exists_).map Prod.fst).foldl reportUnspared s
  let s := match s.parts.find? fun p => holdsDie s p.1 d with
    | some p => repairOutcome s p.1 (Config.pick (s.tick * 2 ^ 80 + 1) % 8) 0 0 0 []
    | none => s
  (s.cores.map Prod.fst).foldl (fun s c => if dieOf c = d then dispatchFree s c else s) (serveQueues s)

theorem steady_dispatches {l : List Nat} : Steady s (l.foldl (fun s c => if dieOf c = d then dispatchFree s c else s) s) :=
  steady_foldl (fun _ _ => steady_ite settles_dispatchFree.steady .refl) l s

theorem steady_repaired {l : List Nat} : Steady s (logAll (repin (applyRepairs s d) l) 6 (d % 4)) :=
  (steady_applyRepairs.trans (busy_repin _).steady).trans logged_logAll.steady

theorem steady_partsReported {l : List Nat} : Steady s (l.foldl reportUnspared s) :=
  steady_foldl (fun _ _ => steady_reportUnspared) l s

theorem steady_reserved {p : Bool} : Steady s (if p then reserveSluice s d else s) :=
  steady_ite steady_reserveSluice .refl

theorem steady_outcome {o : Option (Nat × Part)} {r a n st : Nat} {q : List (Nat × Nat)} : Steady s
    (match o with | some p => repairOutcome s p.1 r a n st q | none => s) := by
  cases o
  · exact .refl
  · exact steady_repairOutcome

theorem steady_rejoined {l : List Nat} : Steady s (rejoined d l s) := by
  unfold rejoined
  dsimp only
  refine .trans ?_ (steady_serveQueues.trans steady_dispatches)
  refine .trans ?_ steady_outcome
  exact steady_reserved.trans (steady_repaired.trans steady_partsReported)

theorem execDieReadmit_good {img : Option FwImage} {i : FwImage} (h5 : (dieSt s d).resetStep = 5)
    (hu : u = placeImage s (1 + d % 4) img) (hi : i = storedImage u (1 + d % 4)) (hok : imageOk i = true)
    (hroute : crossing d ∉ s.detours ∨ drained u (crossing d).1 (crossing d).2 = true) :
    execDieReadmit d img s = .next (rejoined d (dieSt u d).pinsKept (readmitted u d i)) := by
  have h5' : (dieSt u d).resetStep = 5 := by rw [hu, dieSt, placeImage_kept.1]; exact h5
  have hgo : (u.detours.contains (crossing d) && !drained u (crossing d).1 (crossing d).2) = false := by
    rw [Bool.and_eq_false_iff, Bool.not_eq_false']
    refine hroute.imp_left fun h => ?_
    rw [hu, placeImage_kept.2, List.contains_eq_mem, decide_eq_false h]
  unfold execDieReadmit
  dsimp only
  rw [← hu, h5', ← hi, hok, hgo, if_neg (by decide), if_neg (by decide), if_neg (by decide)]
  rfl

end

/-- Settles O50, by the branches of each event. -/
theorem managementEvents : Obligations.ManagementEvents := by
  unfold Obligations.ManagementEvents
  intro s u v part d off k r ranges img i t
  refine ⟨fun hr h1 => ⟨fun ho => ?_, fun ho => ?_, fun ho => ?_⟩, fun hr h1 => ?_, fun hr hd hoff hv hran => ?_, fun hlow hd => ?_,
    fun h5 hu hi => ⟨execDieReadmit_bad h5 hu hi, fun hok hroute => ?_⟩⟩
  · have hrun := execPartitionCreate_op1 hr h1 ho
    refine ⟨fun hf => hrun.trans ?_, fun hf ht => hrun.trans ?_, fun hf ht hb => hrun.trans ?_, fun hf ht hp => hrun.trans ?_,
      fun hf ht hb hp => hrun.trans ?_⟩
    · rw [hf]
      rfl
    · rw [hf, ht]
      rfl
    · rw [hf, ht, decide_eq_true hb]
      rfl
    · rw [hf, ht, hp, Option.isNone_none, Bool.or_true]
      rfl
    · rw [hf, ht, decide_eq_false (Nat.not_lt.mpr hb), Option.isNone_eq_false_iff.mpr (Option.isSome_iff_ne_none.mpr hp)]
      cases supervisorRoom s r <;>
        simp only [Bool.not_true, Bool.not_false, Bool.or_self, Bool.false_eq_true, if_false, if_true]
  · have hrun := execPartitionDestroy_op2 hr h1 ho
    refine ⟨fun hz => hrun.trans ?_, fun hz he => hrun.trans ?_, fun hz he hu => hrun.trans ?_⟩
    · rw [hz]
      rfl
    · rw [hz, he]
      rfl
    · rw [hz, he, hu]
      rfl
  · have hrun := execPartitionSet_op3 hr h1 ho
    refine ⟨fun he => hrun.trans ?_, fun he ht => hrun.trans ?_, fun he ht hz hp => hrun.trans ?_, fun he ht hz hp => hrun.trans ?_⟩
    · rw [he]
      rfl
    · have hbad : (!recTimes r || !recZeros r) = true := by
        rw [Bool.or_eq_true, Bool.not_eq_true', Bool.not_eq_true']
        exact ht
      rw [he, hbad]
      rfl
    · rw [he, ht, hz, if_pos hp]
      rfl
    · rw [he, ht, hz, if_neg (Nat.not_lt.mpr hp)]
      rfl
  · show execPartitionCreate s = _
    unfold execPartitionCreate
    rw [hr]
    dsimp only
    rw [beq_eq_false_iff_ne.mpr h1]
    rfl
  · refine ⟨fun hn => ?_, fun y ys hy ht => ⟨fun hk hp => ⟨fun hlen => ?_, fun hlen => ?_⟩, fun st hk hst hp => ?_,
      fun hk hfuse hlen hp => ?_, fun hk hp => ?_⟩, execLinkInjectorSet_good hr, fun hk hn hk4 => ?_⟩
    · rw [hran] at hn
      exact ⟨fun hk => (execRepairPin_kind hr hk).trans (by rw [onSector_none hd hoff hv hn]),
        fun hk => (execRepairFuse_kind hr hk).trans (by rw [onSector_none hd hoff hv hn]),
        fun hk => (execRepairUnpin_kind hr hk).trans (by rw [onSector_none hd hoff hv hn])⟩
    · have hfull : listFull v d = false := decide_eq_false (by omega)
      exact (execRepairPin_kind hr hk).trans (congrArg _ (onSector_page hd hoff hv hran hy ht (by rw [hp, hfull] <;> rfl)))
    · have hfull : listFull v d = true := decide_eq_true hlen
      exact (execRepairPin_kind hr hk).trans (congrArg _ (onSector_page hd hoff hv hran hy ht (by rw [hp, hfull] <;> rfl)))
    · refine (execRepairPin_kind hr hk).trans (congrArg _ (onSector_page hd hoff hv hran hy ht ?_))
      rw [hp]
      cases st with
      | zero => exact absurd rfl hst
      | succ st => rfl
    · have hfull : listFull v d = false := decide_eq_false (by omega)
      have hany : ((dieSt v d).repairs.any fun e => e.1 == off && e.2.2) = false := by
        refine List.any_eq_false.mpr fun e he hb => ?_
        rw [Bool.and_eq_true, beq_iff_eq] at hb
        rw [hfuse e he hb.1] at hb
        cases hb.2
      exact (execRepairFuse_kind hr hk).trans (congrArg _ (onSector_page hd hoff hv hran hy ht (by rw [hany, hfull, hp] <;> rfl)))
    · exact (execRepairUnpin_kind hr hk).trans (congrArg _ (onSector_page hd hoff hv hran hy ht (by rw [hp])))
    · have hrun := execWarmReset_request (part := part) hn hr hk
      dsimp only at hrun
      rw [← hk4] at hrun
      refine ⟨fun hh => ⟨Config.pick ((takeRepair s part).tick * 2 ^ 80) % 8, hrun.trans ?_⟩, fun hh hhalt hup => hrun.trans ?_⟩
      · rw [hh, if_pos (by decide)]
      · rw [hh, hhalt, hup, if_neg (by decide), if_neg (by decide)]
  · refine ⟨fun h1 hq => execWarmReset_next hlow hd ?_, fun h2 hq => execWarmReset_next hlow hd ?_,
      fun h3 => execWarmReset_next hlow hd ?_, fun h4 hl => execWarmReset_next hlow hd ?_⟩
    · rw [resetNext, h1]
      exact if_pos hq
    · rw [resetNext, h2]
      exact if_pos hq
    · rw [resetNext, h3] <;> rfl
    · rw [resetNext, h4]
      exact congrArg some (if_pos (by rw [hl]; rfl))
  · have he := execDieReadmit_good h5 hu hi hok hroute
    have hs : Steady _ (rejoined d (dieSt u d).pinsKept (readmitted u d i)) := steady_rejoined
    obtain ⟨hboot, hcross, hlfsr⟩ := readmitted_die (u := u) (d := d) (i := i)
    have hb := (hs.boot d).trans hboot
    simp only [bootOf, Prod.mk.injEq] at hb
    exact ⟨_, he, hb.1, hb.2.1, hb.2.2, by rw [hs.detours]; exact hcross, fun c j hc hj => (lfsrOf_steady hs c j).trans (hlfsr c j hc hj)⟩

end Sys2Proof.Laws

namespace Sys2Proof.Laws
/-! The walk's instructions (R254 to R260, R266 to R268). -/

open Sys2Proof.Machine

section
variable {s t u v : State} {f e c at_ : Nat} {x : Ctx} {w : RWord} {i : Instr}

/-- A matrix or walk instruction of the bound slot, the engine free. -/
theorem withMatrix_next {body : Nat → Ctx → State → State} (hx : ctxOf s f = some x) (hacc : (coreOf s x.core).accJobs = [])
    (hmx : (coreOf s x.core).mx = none) (hwk : (coreOf s x.core).wk = none) (hbound : matrixBound s f = true)
    (hc : canIssue i w.hdr [w.a, w.b, w.c] s f = true) :
    withMatrix i w s body = .next (body f x (modCore s x.core fun c => { c with accUsed := true })) := by
  rw [withMatrix, withIssue_next hc, matrixStart, hx]
  simp only [hbound, hacc, hmx, hwk, List.isEmpty_nil, Option.isSome_none, Bool.not_true, Bool.or_self, Bool.false_eq_true, if_false]

/-! What an engine's stores leave. -/

/-- From `s` to `t` an engine has stored: memory and its marks differ, and the stores that an engine may still read behind. -/
structure Worked (s t : State) : Prop where
  rest : t = { s with mem := t.mem, poison := t.poison, full := t.full, racing := t.racing, cores := t.cores }
  core : ∀ c k, (slotOf s c k).act.frame ≠ none → coreOf t c = { coreOf s c with unfenced := (coreOf t c).unfenced }

theorem Worked.refl : Worked s s := ⟨rfl, fun _ _ _ => rfl⟩

theorem Worked.slot (a : Worked s t) {k : Nat} (h : (slotOf s c k).act.frame ≠ none) : slotOf t c k = slotOf s c k := by
  rw [slotOf, a.core c k h]
  rfl

theorem Worked.ctx (a : Worked s t) : ctxOf t f = ctxOf s f := by
  rw [a.rest]
  rfl

theorem Worked.trans (a : Worked s t) (b : Worked t u) : Worked s u := by
  refine ⟨by rw [b.rest, a.rest], fun c k h => ?_⟩
  rw [b.core c k (by rw [a.slot h]; exact h), a.core c k h]

theorem Worked.apart (a : Worked s t) : Apart s t :=
  ⟨fun g => by rw [a.ctx], fun c k h => by rw [a.slot h]⟩

theorem setFulls_rest (l : List Nat) (s : State) :
    l.foldl (fun s k => setFull s (8 * k) true) s = { s with full := (l.foldl (fun s k => setFull s (8 * k) true) s).full } := by
  induction l generalizing s with
  | nil => rfl
  | cons k l ih =>
    rw [List.foldl_cons, ih]
    rfl

theorem opStore_rest {flat n x : Nat} : opStore s f flat n x = { writeBytes (endOlder s none flat n) flat n x with
    full := (opStore s f flat n x).full, racing := (opStore s f flat n x).racing } := by
  simp only [opStore, engineStore]
  rw [setFulls_rest]

theorem worked_opStore {flat n x : Nat} : Worked s (opStore s f flat n x) := by
  refine ⟨by rw [opStore_rest]; rfl, fun c k h => ?_⟩
  have hcore : coreOf (opStore s f flat n x) c = coreOf (endOlder s none flat n) c := by
    rw [opStore_rest]
    rfl
  rw [hcore, coreOf_endOlder h]
  rfl

theorem opStore_mem {flat n x : Nat} : (opStore s f flat n x).mem = (writeBytes s flat n x).mem := by
  rw [opStore_rest]
  rfl

theorem readBytes_congr {k n : Nat} (h : ∀ a, k ≤ a → a < k + n → readByte t a = readByte s a) : readBytes t k n = readBytes s k n := by
  induction n generalizing k with
  | zero => rfl
  | succ n ih =>
    rw [readBytes, readBytes, h k (Nat.le_refl k) (by omega), ih fun a ha hlt => h a (by omega) (by omega)]

/-! The entries of a state block (R255). -/

theorem entryBits_lt (n : WEntry) : entryBits n < 256 ^ 16 := by
  have h1 := n.status.isLt
  have h2 := n.depth.isLt
  have h3 := n.fcode.isLt
  have h4 := n.cause.isLt
  have h5 := n.aux.isLt
  have h6 := n.node.isLt
  unfold entryBits
  omega

theorem readBytes_opStore_entry {k : Nat} {n : WEntry} : readBytes (opStore s f k 16 (entryBits n)) k 16 = entryBits n := by
  rw [readBytes_of_mem opStore_mem, readBytes_writeBytes, Nat.mod_eq_of_lt (entryBits_lt n)]

theorem readByte_opStore {k a n y : Nat} (h : a < k ∨ k + n ≤ a) : readByte (opStore s f k n y) a = readByte s a :=
  (stored_of_mem opStore_mem).2 a h

/-- The entries from the `i`th on, each as `p` says, and no byte before or behind them changed. -/
structure EntriesAt (s t : State) (at_ i n : Nat) (p : Nat → Nat) : Prop where
  inside : ∀ j, j < n → readBytes t (at_ + 16 * (i + j)) 16 = p j
  outside : ∀ a, (a < at_ + 16 * i ∨ at_ + 16 * (i + n) ≤ a) → readByte t a = readByte s a

/-- One entry more, before the others. -/
theorem EntriesAt.cons {n i : Nat} {p : Nat → Nat} (hout : ∀ a, (a < at_ + 16 * i ∨ at_ + 16 * i + 16 ≤ a) → readByte t a = readByte s a)
    (hin : readBytes t (at_ + 16 * i) 16 = p 0) (h : EntriesAt t u at_ (i + 1) n fun j => p (j + 1)) : EntriesAt s u at_ i (n + 1) p := by
  refine ⟨fun j hj => ?_, fun a ha => (h.outside a (by omega)).trans (hout a (by omega))⟩
  cases j with
  | zero => exact (readBytes_congr fun a _ hlt => h.outside a (by omega)).trans hin
  | succ j => rw [← h.inside j (by omega), Nat.add_right_comm i 1 j, ← Nat.add_assoc]

/-- An entry as it is stored, or as it stays where it is as before. -/
def entryPut (s : State) (at_ i : Nat) (os ns : List WEntry) (j : Nat) : Nat :=
  match os[j]?, ns[j]? with
  | some o, some n => if o = n then readBytes s (at_ + 16 * (i + j)) 16 else entryBits n
  | _, _ => readBytes s (at_ + 16 * (i + j)) 16

theorem putEntries_at (os ns : List WEntry) (hlen : os.length = ns.length) (i : Nat) (s : State) :
    Worked s (putEntries s f at_ i os ns) ∧ EntriesAt s (putEntries s f at_ i os ns) at_ i ns.length (entryPut s at_ i os ns) := by
  induction os generalizing ns i s with
  | nil =>
    cases ns with
    | nil => exact ⟨.refl, fun j hj => absurd hj (Nat.not_lt_zero j), fun _ _ => rfl⟩
    | cons n ns => cases hlen
  | cons o os ih =>
    cases ns with
    | nil => cases hlen
    | cons n ns =>
      set s' := if o = n then s else opStore s f (at_ + 16 * i) 16 (entryBits n) with hs'
      obtain ⟨hw, he⟩ := ih ns (Nat.succ.inj hlen) (i + 1) s'
      have hstep : Worked s s' := by
        rw [hs']
        split
        · exact .refl
        · exact worked_opStore
      have hout : ∀ a, (a < at_ + 16 * i ∨ at_ + 16 * i + 16 ≤ a) → readByte s' a = readByte s a := fun a ha => by
        rw [hs']
        split
        · rfl
        · exact readByte_opStore ha
      refine ⟨hstep.trans hw, .cons hout ?_ ⟨fun j hj => (he.inside j hj).trans ?_, he.outside⟩⟩
      · rw [hs']
        simp only [entryPut, List.getElem?_cons_zero, Nat.add_zero]
        split
        · rfl
        · exact readBytes_opStore_entry
      · have hsame : readBytes s' (at_ + 16 * (i + 1 + j)) 16 = readBytes s (at_ + 16 * (i + 1 + j)) 16 :=
          readBytes_congr fun a hle _ => hout a (by omega)
        simp only [entryPut, List.getElem?_cons_succ, hsame, show i + (j + 1) = i + 1 + j by omega]

theorem storeEntries_at (es : List WEntry) (i : Nat) (s : State) (p : Nat → Nat) (hp : ∀ j n, es[j]? = some n → p j = entryBits n) :
    Worked s ((es.zipIdx i).foldl (fun s p => opStore s f (at_ + 16 * p.2) 16 (entryBits p.1)) s) ∧
      EntriesAt s ((es.zipIdx i).foldl (fun s p => opStore s f (at_ + 16 * p.2) 16 (entryBits p.1)) s) at_ i es.length p := by
  induction es generalizing i s p with
  | nil => exact ⟨.refl, fun j hj => absurd hj (Nat.not_lt_zero j), fun _ _ => rfl⟩
  | cons n es ih =>
    obtain ⟨hw, he⟩ := ih (i + 1) (opStore s f (at_ + 16 * i) 16 (entryBits n)) (fun j => p (j + 1)) fun j m hm => hp (j + 1) m hm
    exact ⟨worked_opStore.trans hw, .cons (fun a ha => readByte_opStore ha) (readBytes_opStore_entry.trans (hp 0 n rfl).symm) he⟩

/-! The end of an operation whose context goes on. -/

/-- An operation that ends leaves its context as it is, but one that dies or whose task ends (R255). -/
theorem settleEnd_of_going (h : walkEnding s f = false) : settleEnd s f = s := by
  unfold settleEnd
  unfold walkEnding at h
  cases hx : ctxOf s f with
  | none => rfl
  | some x =>
    rw [hx] at h
    obtain ⟨hd, he⟩ := Bool.or_eq_false_iff.mp h
    rw [Option.isSome_eq_false_iff, Option.isNone_iff_eq_none] at he
    simp only [he, hd, Bool.false_eq_true, if_false, ite_self]

/-- A context goes on while its task and itself do. -/
theorem walkEnding_of_eq {y : Ctx} (hx : ctxOf s f = some x) (hy : ctxOf t f = some y) (hd : y.dying = x.dying) (hc : y.core = x.core)
    (hb : y.bind = x.bind) (ht : (coreOf t x.core).tasks = (coreOf s x.core).tasks) : walkEnding t f = walkEnding s f := by
  simp only [walkEnding, hx, hy, hd, ctxTask, taskOf, hc, hb, ht]

/-- A context with an open entry has a result outstanding. -/
theorem noPending_of_opened {d0 d1 : BitVec 8} (he : e < 16) (ho : Opened s t f e d0 d1)
    (hr : ∀ w, 102 ≤ w → w < 110 → readFrame u f w = readFrame t f w) : noPending u f = false := by
  refine List.all_eq_false.mpr ⟨e, mem_upFrom.mpr ⟨Nat.zero_le e, by omega⟩, ?_⟩
  have hopen : entryOf u f e = 2 ^ 31 + d1.toNat * 2 ^ 8 + d0.toNat := (entryOf_of_frame (hr _ (by omega) (by omega))).trans ho.1
  have h0 := d0.isLt
  have h1 := d1.isLt
  have hbit : bitOf (2 ^ 31 + d1.toNat * 2 ^ 8 + d0.toNat) 31 = true := by
    rw [bitOf, Nat.testBit_eq_decide_div_mod_eq, decide_eq_true_eq]
    omega
  rw [entryFree, hopen, hbit]
  exact Bool.false_ne_true

/-- A trap raised with a result outstanding waits, and the context goes on (R42). -/
theorem walkEnding_deliver {d : BitVec 8} {n : Nat} {tr : Option TrapInfo} (hp : noPending (sendResult s f e [regWrite d n] []) f = false) :
    walkEnding (deliver s f e d n tr) f = walkEnding s f := by
  cases tr with
  | none => rfl
  | some tr =>
    show walkEnding (takeTrap (sendResult s f e [regWrite d n] []) f tr) f = walkEnding (sendResult s f e [regWrite d n] []) f
    rw [takeTrap_waits hp]
    cases hx : ctxOf (sendResult s f e [regWrite d n] []) f with
    | none => simp only [modCtx, hx]
    | some x =>
      refine walkEnding_of_eq (y := { x with trap := some tr, wait := none }) hx (by rw [ctxOf_modCtx_eq, hx]; rfl) rfl rfl rfl ?_
      rw [coreOf_modCtx]

/-- What the end of the issue leaves of the engine and of memory. -/
theorem finishWaiting_leaves {h : Hdr} (hb : bound s f = true) :
    (coreOf (finishWaiting h f e s) c).wk = (coreOf s c).wk ∧ (finishWaiting h f e s).mem = s.mem := by
  obtain ⟨hw, -, -⟩ := finish_wrote (h := h) (ws := fun _ => False) hb Banked.refl
  refine ⟨?_, ?_⟩
  · rw [finishWaiting, coreOf_modCtx, hw.core]
  · have hmem : (finish h f s).mem = s.mem := by rw [hw.rest]
    rw [finishWaiting, modCtx_eq]
    exact hmem

/-! The boundary of a walk (R255, R259). -/

/-- The machine at a walk's boundary: the entry opened, the engine's stores made. -/
structure AtBoundary (s v t : State) (f e : Nat) (x : Ctx) : Prop where
  bound : bound v f = true
  ctx : ctxOf v f = some x
  opened : ∃ d0 d1, e < 16 ∧ Opened s v f e d0 d1
  worked : Worked v t

theorem AtBoundary.seated (a : AtBoundary s v t f e x) : (slotOf v x.core x.slot).act.frame ≠ none := by
  obtain ⟨y, hy, hf, -⟩ := inSlot_some (bound_inSlot a.bound)
  obtain rfl : y = x := Option.some.inj (hy.symm.trans a.ctx)
  rw [hf]
  exact Option.some_ne_none f

theorem AtBoundary.core (a : AtBoundary s v t f e x) : coreOf t x.core = { coreOf v x.core with unfenced := (coreOf t x.core).unfenced } :=
  a.worked.core x.core x.slot a.seated

theorem AtBoundary.yieldWanted (a : AtBoundary s v t f e x) : yieldWanted t x.core = yieldWanted v x.core := by
  rw [Machine.yieldWanted, a.core]
  rfl

theorem AtBoundary.walkEnding (a : AtBoundary s v t f e x) : walkEnding t f = walkEnding v f :=
  walkEnding_of_eq a.ctx (a.worked.ctx.trans a.ctx) rfl rfl rfl (by rw [a.core])

theorem apart_wk {k : Option WalkOp} : Apart s (modCore s c fun x => { x with wk := k }) := apart_modCore fun _ => rfl

theorem apart_sendResult {ws : List RegWrite} {late : List TrapInfo} : Apart s (sendResult s f e ws late) := .of_eq rfl rfl

/-- A walk with rows running, at a core that is not to yield, goes on in the engine. -/
theorem walkBoundary_goes {k : WalkOp} {h : Hdr} (a : AtBoundary s v t f e x) (hk : k.frame = f) (hn : 0 < countStatus k.entries 1)
    (hy : Machine.yieldWanted v x.core = false) (he : Machine.walkEnding v f = false) :
    (coreOf (finishWaiting h f e (walkBoundary t x.core k)) x.core).wk = some k ∧
      (finishWaiting h f e (walkBoundary t x.core k)).mem = t.mem := by
  have hgo : walkBoundary t x.core k = modCore t x.core fun c => { c with wk := some k } := by
    rw [walkBoundary, hk, a.yieldWanted, a.walkEnding, hy, he, Bool.or_false, Bool.or_false, decide_eq_false (Nat.ne_of_gt hn),
      if_neg Bool.false_ne_true]
  have hb : Machine.bound (modCore t x.core fun c => { c with wk := some k }) f = true :=
    (a.worked.apart.trans apart_wk).bound a.bound
  obtain ⟨hwk, hmem⟩ := finishWaiting_leaves (e := e) (c := x.core) (h := h) hb
  rw [hgo, hwk, hmem, coreOf_modCore_eq]
  exact ⟨rfl, rfl⟩

/-- A walk with no row running ends with its summary. -/
theorem walkBoundary_ends {k : WalkOp} (a : AtBoundary s v t f e x) (hk : k.frame = f) (hn : countStatus k.entries 1 = 0)
    (he : Machine.walkEnding v f = false) : walkBoundary t x.core k =
      deliver (modCore t x.core fun c => { c with wk := none }) f k.entry k.word.d (summaryWord k.entries k.rounds)
        (walkTrap k.pc k.iword k.word.qual k.entries) := by
  rw [walkBoundary, hn, hk, decide_eq_true rfl, Bool.true_or, Bool.true_or, if_pos rfl]
  obtain ⟨d0, d1, hlt, ho⟩ := a.opened
  have hap : Apart v (sendResult (modCore t x.core fun c => { c with wk := none }) f k.entry
      [regWrite k.word.d (summaryWord k.entries k.rounds)] []) :=
    (a.worked.apart.trans apart_wk).trans apart_sendResult
  have hp := noPending_of_opened hlt ho fun w _ h => hap.readFrame (bound_inSlot a.bound) (by omega)
  refine settleEnd_of_going ((walkEnding_deliver hp).trans ?_)
  refine (walkEnding_of_eq (y := x) (a.worked.ctx.trans a.ctx) (by rw [ctxOf_modCore, a.worked.ctx, a.ctx]) rfl rfl rfl ?_).trans
    (a.walkEnding.trans he)
  rw [coreOf_modCore_eq]

theorem regWords_of_isG {d : BitVec 8} : isG d = true → (regWords d).1 + (regWords d).2 ≤ 64 := by
  revert d
  decide

/-- Once its entry is open, an instruction of the engine has its context and its task as before. -/
theorem openEntry_kept {d : BitVec 8} (hb : bound s f = true) (hx : ctxOf s f = some x)
    (hu : u = modCore s x.core fun c => { c with accUsed := true }) (hf : freeEntry u f = some e) (hv : v = openEntry u f e d 0) :
    (∀ t, Worked v t → AtBoundary u v t f e x) ∧ yieldWanted v x.core = yieldWanted s x.core ∧ walkEnding v f = walkEnding s f ∧
      v.mem = s.mem ∧ ∀ b, isG b = true → readReg v f b = readReg s f b := by
  have hap : Apart s u := hu ▸ apart_modCore fun _ => rfl
  have hbu := hap.bound hb
  obtain ⟨hbank, ho⟩ := openEntry_spec (d0 := d) (d1 := 0) hbu hf
  rw [← hv] at hbank ho
  have hxu : ctxOf u f = some x := by rw [hu, ctxOf_modCore, hx]
  have hxv : ctxOf v f = some x := by rw [hbank.ctxOf, hxu]
  have hcore : coreOf v x.core = { coreOf s x.core with accUsed := true, slots := (coreOf v x.core).slots } := by
    rw [hbank.core, hu, coreOf_modCore_eq]
  refine ⟨fun t ht => ⟨(hbank.bound f).trans hbu, hxv, ⟨d, 0, freeEntry_lt hf, ho⟩, ht⟩, by rw [yieldWanted, hcore]; rfl,
    walkEnding_of_eq hx hxv rfl rfl rfl (by rw [hcore]), by rw [hbank.rest, hu]; rfl, fun b hg => readReg_of_frame fun k hk => ?_⟩
  have hlow : k < 65 := by
    have := regWords_of_isG hg
    have := hk.2
    omega
  rw [hbank.kept k (by omega), hap.readFrame (bound_inSlot hb) (by omega)]

/-- The operation that WALK and WALK.resume start (R254, R255). -/
def walkOpOf (v : State) (x : Ctx) (f e : Nat) (w : RWord) (r : Nat × Nat × Nat) (es : List WEntry) : WalkOp :=
  { word := w, frame := f, slot := x.slot, pc := v.iss.pc, iword := v.iss.word, entry := e
    sN := readSeg v f (wkSN w), rows := engineBytes v x.core false r.1 (wkN w * rowStride (tyOf w.hdr) (wkD w))
    blockAt := r.2.1, outAt := r.2.2, entries := es }

/-- A walk's checks passed, it writes its state block and comes to its boundary. -/
theorem walkStart_ok {resume : Bool} {r : Nat × Nat × Nat} {old es : List WEntry}
    (hnext : ∀ body, withMatrix i w s body = .next (body f x u)) (hentry : ∀ body, withEntry w.d 0 f u body = body e v)
    (hok : walkChecks v x f w (readReg v f w.a) (readReg v f w.c) = .ok r)
    (hold : old = (upFrom 0 (wkN w)).map fun i => entryFrom (engineBytes v x.core false (r.2.1 + 16 * i) 16))
    (hes : es = startEntries resume w (if resume then 0 else BitVec.ofNat 64 (readReg v f w.b)) old) :
    walkStart i resume w s = .next (finishWaiting w.hdr f e (walkBoundary (if resume then putEntries v f r.2.1 0 old es
      else es.zipIdx.foldl (fun s p => opStore s f (r.2.1 + 16 * p.2) 16 (entryBits p.1)) v) x.core (walkOpOf v x f e w r es))) := by
  rw [walkStart, hnext, hentry]
  dsimp only
  rw [hok, hes, hold]
  rfl

theorem walkStart_error {resume : Bool} {z : Nat × Nat}
    (hnext : ∀ body, withMatrix i w s body = .next (body f x u)) (hentry : ∀ body, withEntry w.d 0 f u body = body e v)
    (herr : walkChecks v x f w (readReg v f w.a) (readReg v f w.c) = .error z) (hz : z.1 ≠ 0x0B) :
    walkStart i resume w s = .next (finishWaiting w.hdr f e (deliver v f e w.d (z.2 % 16 * 2 ^ 16 + z.1 * 2 ^ 8 + 1)
      (walkFailTrap v w.qual z))) := by
  rw [walkStart, hnext, hentry]
  dsimp only
  rw [herr]
  dsimp only
  rw [if_neg hz]

/-- A row's entry as WALK sets it, running at the root (R254). -/
def rootEntry (root : Word) : WEntry := { node := root, aux := 0xFFFFFFFF, cause := 0, fcode := 0, depth := 0, status := 1 }

theorem entryBits_rootEntry {n : Nat} : entryBits (rootEntry (BitVec.ofNat 64 n)) = 1 + 0xFFFFFFFF * 2 ^ 32 + (n % 2 ^ 64) * 2 ^ 64 := by
  simp only [entryBits, rootEntry, BitVec.toNat_ofNat]
  simp

theorem startEntries_walk {root : Word} {old : List WEntry} : startEntries false w root old = List.replicate (wkN w) (rootEntry root) := rfl

theorem wkN_pos : 0 < wkN w := Nat.succ_pos _

theorem countStatus_rootEntry {root : Word} : 0 < countStatus (List.replicate (wkN w) (rootEntry root)) 1 := by
  refine List.length_pos_iff.mpr (List.ne_nil_of_mem (a := rootEntry root) (List.mem_filter.mpr ⟨?_, rfl⟩))
  exact List.mem_replicate.mpr ⟨wkN_pos.ne', rfl⟩

theorem startEntries_resume {root : Word} {old : List WEntry} {j : Nat} {o : WEntry} (ho : old[j]? = some o) :
    (startEntries true w root old)[j]? =
      some (if o.status = 3 ∧ wkRf w = true then { o with status := 1, fcode := 0, cause := 0 } else o) := by
  have hmap : startEntries true w root old = old.map fun e => if e.status = 3 && wkRf w then { e with status := 1, fcode := 0, cause := 0 } else e :=
    rfl
  rw [hmap, List.getElem?_map, ho]
  simp only [Option.map_some, Bool.and_eq_true, decide_eq_true_eq]

theorem length_startEntries_resume {root : Word} {old : List WEntry} : (startEntries true w root old).length = old.length :=
  List.length_map _

/-! The faults of a node's children (R260). -/

theorem findSome?_upFrom {α : Type} {p : Nat → Option α} {k : Nat} {z : α} (hk : p k = some z) (n b : Nat) (hlo : b ≤ k) (hhi : k < b + n)
    (hnone : ∀ j, j < k → p j = none) : (upFrom b n).findSome? p = some z := by
  induction n generalizing b with
  | zero => omega
  | succ n ih =>
    rw [upFrom, List.findSome?_cons]
    by_cases hb : b = k
    · rw [hb, hk]
    · rw [hnone b (by omega)]
      exact ih (b + 1) (by omega) (by omega)

/-- What a child pointer's check finds. -/
def childCause (s : State) (x : Ctx) (g : Seg) (p k : Nat) : Option (Nat × Nat × Nat) :=
  if p = 0 then some (6, 0, k)
  else if p % 256 ≠ 0 then some (4, 0, k)
  else match checkSeg s x g { need := needRd + needEng, size := 256, align := 256, kinds := [0] } (p : Int) with
    | .error c => some (5, c, k)
    | .ok _ => none

theorem childFault_eq {g : Seg} {n : Node} : childFault s x g n =
    (upFrom 0 (hdCount n.hdr)).findSome? fun k => childCause s x g (tileBits n.raw (childTable n.hdr + 8 * k) 64) k := rfl

theorem childCause_good {g : Seg} {p k : Nat} (h : p ≠ 0 ∧ p % 256 = 0 ∧
    ∃ a, checkSeg s x g { need := needRd + needEng, size := 256, align := 256, kinds := [0] } (p : Int) = .ok a) :
    childCause s x g p k = none := by
  obtain ⟨h0, h8, a, ha⟩ := h
  rw [childCause, if_neg h0, if_neg (not_not_intro h8), ha]

end

/-- Settles O39, by the branches of each instruction. -/
theorem walkInstructions : Obligations.WalkInstructions := by
  unfold Obligations.WalkInstructions
  intro w s u v f e ga gc ar ab ao x old es hx hacc hmx hwk hu hv hfree hmat hga hgc hend hold hes
  have hnext {i : Instr} (hc : canIssue i w.hdr [w.a, w.b, w.c] s f = true) (body : Nat → Ctx → State → State) :
      withMatrix i w s body = .next (body f x u) := hu ▸ withMatrix_next hx hacc hmx hwk hmat hc
  have hentry (body : Nat → State → State) : withEntry w.d 0 f u body = body e v := hv ▸ withEntry_some hfree
  have hkept {i : Instr} (hc : canIssue i w.hdr [w.a, w.b, w.c] s f = true) :=
    openEntry_kept (d := w.d) (canIssue_bound hc) hx hu hfree hv
  subst hga hgc
  refine ⟨fun hc => ⟨fun hok hy => ?_, fun c d herr hne => ?_⟩, fun hc hok hn => ?_, fun hc hok hn hy => ?_,
    fun hc => ⟨fun c herr => ?_, fun b hit hok hhit => ⟨fun hp => ?_, fun hp => ?_⟩⟩,
    fun hc hwait => ⟨fun t z herr => ?_, fun t n hok => ⟨fun hleaf => ?_, fun child good rule hinner hrule hchild hgood =>
      ⟨fun hall => ?_, fun k z hk hprev hz => ?_⟩⟩⟩⟩
  · obtain ⟨hat, hyv, hev, hmem, hreg⟩ := hkept hc
    obtain ⟨-, -, -, -, -, hb, -⟩ := okR_iff.mp (canIssue_legal hc)
    have hrun := walkStart_ok (resume := false) (hnext hc) hentry hok hold rfl
    rw [if_neg Bool.false_ne_true, if_neg Bool.false_ne_true, startEntries_walk, hreg w.b hb] at hrun
    obtain ⟨hw, hin, hout⟩ := storeEntries_at (f := f) (at_ := ab)
      (List.replicate (wkN w) (rootEntry (BitVec.ofNat 64 (readReg s f w.b)))) 0 v
      (fun _ => entryBits (rootEntry (BitVec.ofNat 64 (readReg s f w.b)))) fun j n hn => by
        rw [List.eq_of_mem_replicate (List.mem_of_getElem? hn)]
    obtain ⟨hrow, hm⟩ := walkBoundary_goes (h := w.hdr) (k := walkOpOf v x f e w (ar, ab, ao)
      (List.replicate (wkN w) (rootEntry (BitVec.ofNat 64 (readReg s f w.b))))) (hat _ hw) rfl countStatus_rootEntry (hyv.trans hy)
      (hev.trans hend)
    rw [List.length_replicate] at hin hout
    refine ⟨_, _, hrun, hrow, rfl, rfl, rfl, rfl, fun j hj => ?_, fun a ha => ?_⟩
    · have := hin j hj
      rw [Nat.zero_add, entryBits_rootEntry] at this
      exact (readBytes_of_mem hm).trans this
    · have := hout a (by omega)
      rw [readByte, hm]
      rw [readByte, readByte, hmem] at this
      exact this
  · show walkStart (.walk w) false w s = _
    rw [walkStart_error (hnext hc) hentry herr hne]
  · obtain ⟨hat, -, hev, -⟩ := hkept hc
    have hrun := walkStart_ok (resume := true) (hnext hc) hentry hok hold hes
    have hlen : old.length = es.length := by rw [hes, length_startEntries_resume]
    rw [if_pos rfl, walkBoundary_ends (hat _ (putEntries_at old es hlen 0 v).1) rfl hn (hev.trans hend)] at hrun
    exact hrun
  · obtain ⟨hat, hyv, hev, hmem, -⟩ := hkept hc
    have hrun := walkStart_ok (resume := true) (hnext hc) hentry hok hold hes
    have hlen : old.length = es.length := by rw [hes, length_startEntries_resume]
    have hn' : es.length = wkN w := by rw [← hlen, hold, List.length_map, upFrom_eq, List.length_map, List.length_range]
    obtain ⟨hw, hin, hout⟩ := putEntries_at (f := f) (at_ := ab) old es hlen 0 v
    rw [if_pos rfl] at hrun
    obtain ⟨hrow, hm⟩ := walkBoundary_goes (h := w.hdr) (k := walkOpOf v x f e w (ar, ab, ao) es) (hat _ hw) rfl hn (hyv.trans hy)
      (hev.trans hend)
    refine ⟨_, _, hrun, hrow, rfl, rfl, rfl, rfl, fun j o ho => by rw [hes, startEntries_resume ho], fun j o n ho hn => ?_, fun a ha => ?_⟩
    · have := hin j (List.getElem?_eq_some_iff.mp hn).1
      simp only [Nat.zero_add, entryPut, ho, hn, readBytes_of_mem hmem] at this
      exact (readBytes_of_mem hm).trans this
    · have := hout a (by omega)
      rw [readByte, hm]
      rw [readByte, readByte, hmem] at this
      exact this
  · show execWstat w s = _
    simp only [execWstat, hnext hc, hentry, herr]
  · show execWstat w s = _
    simp only [execWstat, hnext hc, hentry, hok, hp, ← hhit, Bool.false_eq_true, if_false]
  · show execWstat w s = _
    simp only [execWstat, hnext hc, hentry, hok, hp, if_true]
  · show execWchk w s = _
    simp only [execWchk, hnext hc, hwait, hentry, herr, Bool.false_eq_true, if_false]
  · show execWchk w s = _
    simp only [execWchk, hnext hc, hwait, hentry, hok, hleaf, Bool.false_eq_true, if_false, if_true]
  · have hnone : childFault t x (readSeg v f (wkSN w)) n = none := by
      rw [childFault_eq]
      refine List.findSome?_eq_none_iff.mpr fun k hk => ?_
      have := (hgood k).mp (hall k (by have := mem_upFrom.mp hk; omega))
      rw [hchild, hrule] at this
      exact childCause_good this
    show execWchk w s = _
    simp only [execWchk, hnext hc, hwait, hentry, hok, hinner, hnone, Bool.false_eq_true, if_false]
  · have hprior : ∀ j, j < k → childCause t x (readSeg v f (wkSN w)) (tileBits n.raw (childTable n.hdr + 8 * j) 64) j = none := fun j hj => by
      have := (hgood j).mp (hprev j hj)
      rw [hchild, hrule] at this
      exact childCause_good this
    obtain ⟨y, hy, hyz⟩ : ∃ y, childCause t x (readSeg v f (wkSN w)) (tileBits n.raw (childTable n.hdr + 8 * k) 64) k = some y ∧
        y.1 + y.2.1 * 2 ^ 8 + y.2.2 * 2 ^ 16 + 2 ^ 24 = z + k * 2 ^ 16 + 2 ^ 24 := by
      rw [hchild, hrule] at hz
      rcases hz with ⟨h0, rfl⟩ | ⟨h0, h8, rfl⟩ | ⟨h0, h8, c, herr, rfl⟩
      · exact ⟨(6, 0, k), by rw [childCause, if_pos h0], by rw [Nat.zero_mul]⟩
      · exact ⟨(4, 0, k), by rw [childCause, if_neg h0, if_pos h8], by rw [Nat.zero_mul]⟩
      · exact ⟨(5, c, k), by rw [childCause, if_neg h0, if_neg (not_not_intro h8), herr], rfl⟩
    have hsome : childFault t x (readSeg v f (wkSN w)) n = some y := by
      rw [childFault_eq]
      exact findSome?_upFrom (p := fun j => childCause t x (readSeg v f (wkSN w)) (tileBits n.raw (childTable n.hdr + 8 * j) 64) j) hy (hdCount n.hdr) 0 (Nat.zero_le k) (by omega) hprior
    show execWchk w s = _
    simp only [execWchk, hnext hc, hwait, hentry, hok, hinner, hsome, Bool.false_eq_true, if_false, hyz]

end Sys2Proof.Laws
